-- ==== Sys2Proof/Word.lean ====
section
/-! DEFINITION. The word types of the RYH-4800 and their plainest arithmetic.

Rules of spec/: 00 R6, R8 (bit numbering, little-endian), 02 R61 (`bits`, `cat`, `sext`, `zext`). -/

namespace Sys2Proof

/-- A 32-bit register, 08 R168. -/
abbrev Word := BitVec 32

/-- A 64-bit value: a register pair, `lr`, a program counter, an instruction word. -/
abbrev DWord := BitVec 64

/-- One byte of memory or of a scratchpad. -/
abbrev Byte := BitVec 8

/-- The index of a main-file register, v0 to v255 (02 R37, R38). -/
abbrev RegIx := BitVec 8

/-- `cat(hi, lo)` of two 32-bit registers: the pair dN (02 R61). -/
def pairOf (hi lo : Word) : DWord := hi ++ lo

/-- The low register of a pair. -/
def loWord (x : DWord) : Word := x.setWidth 32

/-- The high register of a pair. -/
def hiWord (x : DWord) : Word := (x >>> 32).setWidth 32

end Sys2Proof
end

