-- ==== Sys2Proof/Syntax.lean ====
section
/-! DEFINITION. The instructions of the RYH-4800: every row of spec/opcode_table.json is one constructor of `Instr`.

Three kinds of constructor stand here.
* Encoded words of Lorxo (02 R33, R35, R48, R51).
* Records of the copy engine (07 R142) and packets of a compute queue (15 R333): words of those two agents.
* Hardware steps: rows of the table that no thread issues; their arguments name the agents concerned.
-/

namespace Sys2Proof

/-! ### Fields of encoded words -/

/-- Field G of R35 and R36: no guard, or the guard register with its negation. -/
inductive Guard where
  | always
  | when (neg : Bool) (r : BitVec 4)
deriving DecidableEq, Repr

/-- Field D of R37: the four destination targets. -/
inductive Dst where
  | v (n : RegIx)
  | vq (n : RegIx)
  | q (n : BitVec 3)
  | lr
deriving DecidableEq, Repr

/-- A source field of R38: the four source levels. -/
inductive Src where
  | v (n : RegIx)
  | q (n : BitVec 3)
  | lr
  | imm (i : BitVec 8)
deriving DecidableEq, Repr

/-- The second source: field B of an F-form, or the literal of an X-form (R48). -/
inductive SrcB where
  | src (s : Src)
  | lit (l : DWord)
deriving DecidableEq, Repr

/-- A memory offset (06 R122): a short immediate, or the literal of an X-form. -/
inductive Off where
  | imm (i : BitVec 8)
  | lit (l : DWord)
deriving DecidableEq, Repr

/-- Integer types, 02 R44. -/
inductive IntTy where
  | s8 | s16 | s32 | s64 | b8 | b16 | b32 | b64
deriving DecidableEq, Repr

/-- Floating formats of M[5:3], 02 R45. -/
inductive Fmt where
  | f32 | f16 | bf16 | f16x2 | bf16x2 | n8 | n4
deriving DecidableEq, Repr

/-- Rounding modes, 02 R45 and 09 R190. -/
inductive Rnd where
  | rne | rz | ru | rd
deriving DecidableEq, Repr

/-- Scopes, 02 R46. -/
inductive Scope where
  | grp | team | core | clu | die | dev | dom | sys
deriving DecidableEq, Repr

/-- Memory widths, 02 R47. -/
inductive MemW where
  | b8 | b16 | b32 | b64 | s8 | s16
deriving DecidableEq, Repr

/-- Types of the narrow and helper range, 11 R235. -/
inductive NTy where
  | i8 | n8 | i4 | n4 | s32 | b32 | f32 | b64
deriving DecidableEq, Repr

/-- Element formats: the codes 0x0 to 0x8 of 09 R184, and code 0x9 of 11 R231. -/
inductive EFmt where
  | f32 | f16 | bf16 | n8 | n4 | i8 | i4 | i16 | i32 | u32
deriving DecidableEq, Repr

/-- Subcodes of `iaddc`, 10 R207. -/
inductive AddcOp where
  | sum | co | dif | bo
deriving DecidableEq, Repr

/-- Comparisons of `icmp`, 10 R219. -/
inductive ICmp where
  | eq | ne | lt | le | gt | ge
deriving DecidableEq, Repr

/-- Source readings of `isat`, 10 R220. -/
inductive SatSrc where
  | ws | wu | ds | du
deriving DecidableEq, Repr

/-- Conditions of `fcmp`, 11 R228. -/
inductive FCmp where
  | eq | ne | lt | le | un | ord
deriving DecidableEq, Repr

/-- Modes of `lxch`, 11 R241. -/
inductive LxMode where
  | at | rot | bfly | rank
deriving DecidableEq, Repr

/-- Operations of `vote`, 11 R242. -/
inductive VoteOp where
  | all | any | uni | ballot | cnt
deriving DecidableEq, Repr

/-- Operations of `scan`, 11 R243. -/
inductive ScanOp where
  | add | min | max
deriving DecidableEq, Repr

/-- Operations of `atom` and `red`, 06 R131. -/
inductive AtomOp where
  | add | min | max | and | or | xor | xchg | cas
deriving DecidableEq, Repr

/-- Special functions, 11 R234. -/
inductive SfuFn where
  | rcp | rsq | sqrt | exp2 | log2 | sin | cos | tanh
deriving DecidableEq, Repr

/-- Special values of `srd`, 08 R182. -/
inductive SrdSel where
  | lane | nlane | grp | ngrp | team | nteam | core | clu | die | dev | pcore
  | accb | regs | scratch | item | flow | iseq | capn | cyc | cnt
deriving DecidableEq, Repr

/-- System registers, 16 R372. -/
inductive SySel where
  | cause | epc | tval | tmask | status | kscr
  | kCause | kEpc | kTval | kTmask | kStatus | kKscr
  | kvec | fvec | kroot | ptroot | asid | owner | capf | ctxh
  | swapthr | fltq | fltw | flth | fltt | ctxpool | layout | mcq | mch | mct
deriving DecidableEq, Repr

/-- Pairable operations, 02 R55, in the order of their op6 codes. -/
inductive PairOp where
  | fadd | fsub | fmul | fmin | fmax | hadd2 | hmul2 | hmin2 | hmax2 | imul | imulh | imin | imax
  | iadd | isub | and | or | xor | andn | shl | shr | sar | rol | mov | ineg | iabs | clz | popc | brev
  | cvtF32S32 | cvtS32F32 | cvtF32B32 | cvtB32F32 | cvtF32Bf16 | cvtBf16F32 | cvtF32F16 | cvtF16F32
deriving DecidableEq, Repr

/-- The type of a pair slot: the codes of mod[6:4] that some op6 accepts (R53, R55). -/
inductive PairTy where
  | s32 | b32 | f32 | f16x2 | bf16x2 | fixed
deriving DecidableEq, Repr

/-- One slot of a P-form, 02 R51. -/
structure Slot where
  op : PairOp
  ty : PairTy
  rm : Rnd
  d  : RegIx
  s  : Src
deriving DecidableEq, Repr

/-! ### Records of the copy engine (07 R142 to R156) -/

/-- MOVE, 07 R144. -/
structure MoveRec where
  ssp : Bool
  dsp : Bool
  len0 : BitVec 16
  cnt1 : BitVec 12
  cnt2 : BitVec 12
  ssh : BitVec 4
  dsh : BitVec 4
  src : DWord
  dst : DWord
  sstep1 : BitVec 16
  dstep1 : BitVec 16
  sstep2 : BitVec 16
  dstep2 : BitVec 16
deriving DecidableEq, Repr

/-- MCAST, 07 R146. -/
structure McastRec where
  ssp : Bool
  nosig : Bool
  mask : BitVec 4
  bar : BitVec 4
  len : BitVec 24
  src : DWord
  doff : Word
deriving DecidableEq, Repr

/-- LOOP, 07 R148. -/
structure LoopRec where
  ix : BitVec 2
  cnt : BitVec 24
  back : BitVec 16
  sadv : DWord
  dadv : DWord
deriving DecidableEq, Repr

/-- TEST of a COND record, 07 R149. -/
inductive CondTest where
  | eq | ne | below | aboveEq
deriving DecidableEq, Repr

/-- COND, 07 R149. -/
structure CondRec where
  test : CondTest
  skip : BitVec 16
  woff : Word
  value : Word
  mask : Word
deriving DecidableEq, Repr

/-- CONV, 07 R150. -/
structure ConvRec where
  ssp : Bool
  dsp : Bool
  sfmt : EFmt
  dfmt : EFmt
  rnd : Rnd
  cnt : BitVec 24
  src : DWord
  dst : DWord
deriving DecidableEq, Repr

/-- SAMPLE, 07 R151. -/
structure SampleRec where
  out : Bool
  dsp : Bool
  csp : Bool
  cont : Bool
  row : BitVec 10
  nr : BitVec 8
  km1 : BitVec 4
  ncol : BitVec 8
  idx0 : BitVec 16
  temp : Word
  dst : DWord
  crec : DWord
deriving DecidableEq, Repr

/-- CSEND, 07 R154. -/
structure CsendRec where
  ssp : Bool
  shid : BitVec 16
  nblk : BitVec 12
  src : DWord
  dev : BitVec 10
  bn0 : Word
  roff : Word
deriving DecidableEq, Repr

/-- OPS of a SIG record, 07 R155. -/
inductive SigOp where
  | store | add | notify
deriving DecidableEq, Repr

/-- SIG, 07 R155. -/
structure SigRec where
  ops : SigOp
  dsp : Bool
  scope : Scope
  addr : DWord
  value : Word
deriving DecidableEq, Repr

/-! ### Packets of a compute queue (15 R333 to R337) -/

/-- One arena request of a LAUNCH, 15 R333. -/
structure AReq where
  frames : BitVec 9
  die : BitVec 2
deriving DecidableEq, Repr

/-- LAUNCH, 15 R333. -/
structure LaunchPkt where
  after : Bool
  pair : Bool
  inv : Bool
  prio : BitVec 2
  hash : Bool
  list : Bool
  nteam : BitVec 16
  gw : BitVec 2
  ngrp : BitVec 4
  regs : BitVec 5
  scr : BitVec 3
  acc : BitVec 6
  entry : DWord
  args : DWord
  capf : Word
  nexp : BitVec 16
  areq0 : AReq
  areq1 : AReq
  areq2 : AReq
  areq3 : AReq
  isrc : DWord
  nx : Word
  ny : Word
  nz : BitVec 16
  cls : BitVec 2
  lsrc : BitVec 2
  lbl : BitVec 24
  sx : Word
  sy : Word
  sz : Word
deriving DecidableEq, Repr

/-! ### What arrives from outside -/

/-- A remote access at its home module, 04 R73. An atomic carries the operands of the lanes that its group combined (06 R125). -/
inductive RemoteOp where
  | load (n : Nat)
  | store (bytes : List (Option Byte))
  | atom (op : AtomOp) (sg : Bool) (w64 : Bool) (lanes : List (DWord × DWord))
  | bound (w64 : Bool) (lanes : List DWord)
  | topk (norm : Bool) (k : Nat) (lanes : List (DWord × DWord))
  | drop
deriving DecidableEq, Repr

/-- One component of a coded packet's header, 04 R84. -/
structure CodedComp where
  dev : Nat
  bn : Nat
  off : Nat
  crc : Word
deriving DecidableEq, Repr

/-- A coded packet: its shuffle, its two to four components and its 1 KiB payload, 04 R84. -/
structure CodedPacket where
  shid : Nat
  comps : List CodedComp
  payload : List Byte
deriving DecidableEq, Repr

/-- A block that a CSEND record has sent, as the answer to it names it: receiver, shuffle, block number (04 R89). -/
structure BlockRef where
  dev : Nat
  shid : Nat
  bn : Nat
deriving DecidableEq, Repr

/-- A management request (17 R396): the management port that it comes from, none for the console, whether it is a step of a multi-step
operation (R391), and its bytes. -/
structure MgmtRequest where
  port : Option Nat
  multi : Bool
  bytes : List Byte
deriving DecidableEq, Repr

/-- An uncoded shuffle block, 04 R87; `resend` marks the answer to a resend request (R86). -/
structure UncodedBlock where
  shid : Nat
  sender : Nat
  bn : Nat
  off : Nat
  resend : Bool
  data : List Byte
deriving DecidableEq, Repr

/-- A holder of copies of a line, 05 R97. -/
inductive Holder where
  | l1 (core : Nat)
  | rdc (die : Nat)
  | dev (d : Nat)
deriving DecidableEq, Repr

/-- A unit that can fail, 17 R385 (UNIT) and R390. -/
inductive UnitId where
  | core (c : Nat)
  | engine (die : Nat) (clu : Nat)
  | copyEngine (die : Nat) (clu : Nat)
deriving DecidableEq, Repr

/-- Sources of a machine check that name no waiting access of their own, 17 R385 SRC 1, 4 and 5. -/
inductive CheckSrc where
  | poison (port : Nat)
  | unitError (u : UnitId)
  | dram (die : Nat) (chan : Nat)
deriving DecidableEq, Repr

/-- What waits for a response of a peer about address `pa`, 04 R75: a load or store, the copy engine for a chain, or a thread for its next word or
what that word reads. -/
inductive PeerWait where
  | access (id pa : Nat)
  | chain (id pa : Nat)
  | lane (ti gi l pa : Nat)
  | agent (die pa : Nat)
deriving DecidableEq, Repr

/-- Who writes a device register: level K or F code or the physical function, a tenant function, a management port. -/
inductive Writer where
  | kernel
  | user
  | phys
  | tenant (fn : Nat)
  | port (p : Nat)
deriving DecidableEq, Repr

/-! ### The instructions -/

/-- Every row of spec/opcode_table.json. -/
inductive Instr where
  -- control, items, flows (14 R317)
  | nop
  | br (g : Guard) (b : SrcB)
  | bri (g : Guard) (a : Src)
  | call (g : Guard) (d : RegIx) (b : SrcB)
  | calli (g : Guard) (d : RegIx) (a : Src)
  | ret (g : Guard) (a : Src)
  | exit (g : Guard)
  | yield (g : Guard)
  | bar (g : Guard) (n : SrcB) (b : BitVec 4)
  | barArr (g : Guard) (n : SrcB) (b : BitVec 4)
  | barWt (g : Guard) (b : BitVec 4)
  | nap (g : Guard) (d : RegIx) (lim : SrcB) (ch : BitVec 4)
  | napTimeout (ti gi lane : Nat)
  | ntfy (g : Guard) (t : Src) (v : SrcB) (ch : BitVec 4)
  | take (g : Guard) (d : RegIx) (c : RegIx)
  | takeG (g : Guard) (d : RegIx) (c : RegIx)
  | relabel (g : Guard) (b : SrcB) (cls : BitVec 2)
  | done (g : Guard)
  | stOrd (g : Guard) (sc : Scope) (w : MemW) (a : Src) (o : Off) (c : Src)
  | itemi (g : Guard) (d : RegIx) (a : Src) (b : SrcB) (cls : BitVec 2)
  | flowi (g : Guard) (d : RegIx) (b : SrcB) (cls : BitVec 2)
  -- integer and address (10 R207)
  | iadd (g : Guard) (t : IntTy) (d : Dst) (a : Src) (b : SrcB)
  | isub (g : Guard) (t : IntTy) (d : Dst) (a : Src) (b : SrcB)
  | iaddc (g : Guard) (op : AddcOp) (t : IntTy) (d : Dst) (a : Src) (b : SrcB) (c : Src)
  | imul (g : Guard) (t : IntTy) (d : Dst) (a : Src) (b : SrcB)
  | imulh (g : Guard) (t : IntTy) (d : Dst) (a : Src) (b : SrcB)
  | imad (g : Guard) (t : IntTy) (d : Dst) (a : Src) (b : SrcB) (c : Src)
  | imadh (g : Guard) (t : IntTy) (d : Dst) (a : Src) (b : SrcB) (c : Src)
  | idiv (g : Guard) (t : IntTy) (d : Dst) (a : Src) (b : SrcB)
  | irem (g : Guard) (t : IntTy) (d : Dst) (a : Src) (b : SrcB)
  | imin (g : Guard) (t : IntTy) (d : Dst) (a : Src) (b : SrcB)
  | imax (g : Guard) (t : IntTy) (d : Dst) (a : Src) (b : SrcB)
  | iabs (g : Guard) (t : IntTy) (d : Dst) (a : Src)
  | ineg (g : Guard) (t : IntTy) (d : Dst) (a : Src)
  | and (g : Guard) (t : IntTy) (d : Dst) (a : Src) (b : SrcB)
  | or (g : Guard) (t : IntTy) (d : Dst) (a : Src) (b : SrcB)
  | xor (g : Guard) (t : IntTy) (d : Dst) (a : Src) (b : SrcB)
  | andn (g : Guard) (t : IntTy) (d : Dst) (a : Src) (b : SrcB)
  | shl (g : Guard) (t : IntTy) (d : Dst) (a : Src) (b : SrcB)
  | shr (g : Guard) (t : IntTy) (d : Dst) (a : Src) (b : SrcB)
  | sar (g : Guard) (t : IntTy) (d : Dst) (a : Src) (b : SrcB)
  | rol (g : Guard) (t : IntTy) (d : Dst) (a : Src) (b : SrcB)
  | clz (g : Guard) (t : IntTy) (d : Dst) (a : Src)
  | ctz (g : Guard) (t : IntTy) (d : Dst) (a : Src)
  | popc (g : Guard) (t : IntTy) (d : Dst) (a : Src)
  | brev (g : Guard) (t : IntTy) (d : Dst) (a : Src)
  | bfe (g : Guard) (t : IntTy) (d : Dst) (a : Src) (b : SrcB)
  | bfi (g : Guard) (t : IntTy) (d : Dst) (a : Src) (b : SrcB) (c : Src)
  | bsel (g : Guard) (t : IntTy) (d : Dst) (a : Src) (b : SrcB) (c : Src)
  | sel (g : Guard) (t : IntTy) (d : Dst) (a : Src) (b : SrcB) (c : Src)
  | icmp (g : Guard) (cc : ICmp) (t : IntTy) (d : Dst) (a : Src) (b : SrcB)
  | isat (g : Guard) (src : SatSrc) (t : IntTy) (d : Dst) (a : Src)
  | add64 (g : Guard) (d : Dst) (a : Src) (b : SrcB)
  | sub64 (g : Guard) (d : Dst) (a : Src) (b : SrcB)
  | lea64 (g : Guard) (sx : Bool) (d : Dst) (a : Src) (b : SrcB) (sh : BitVec 6)
  | mov (g : Guard) (t : IntTy) (d : Dst) (a : Src)
  | movi (g : Guard) (t : IntTy) (d : Dst) (b : SrcB)
  -- the P-form (02 R51)
  | pairWord (a : Slot) (b : Slot)
  -- floating point (11 R225)
  | fadd (g : Guard) (f : Fmt) (rm : Rnd) (d : Dst) (a : Src) (b : SrcB)
  | fsub (g : Guard) (f : Fmt) (rm : Rnd) (d : Dst) (a : Src) (b : SrcB)
  | fmul (g : Guard) (f : Fmt) (rm : Rnd) (d : Dst) (a : Src) (b : SrcB)
  | ffma (g : Guard) (f : Fmt) (rm : Rnd) (d : Dst) (a : Src) (b : SrcB) (c : Src)
  | fmin (g : Guard) (f : Fmt) (d : Dst) (a : Src) (b : SrcB)
  | fmax (g : Guard) (f : Fmt) (d : Dst) (a : Src) (b : SrcB)
  | fcmp (g : Guard) (cc : FCmp) (f : Fmt) (d : Dst) (a : Src) (b : SrcB)
  | fcls (g : Guard) (f : Fmt) (d : Dst) (a : Src)
  | frnd (g : Guard) (f : Fmt) (rm : Rnd) (d : Dst) (a : Src)
  | fcvt (g : Guard) (df sf : EFmt) (rm : Rnd) (d : Dst) (a : Src)
  | fpk (g : Guard) (f : Fmt) (rm : Rnd) (d : Dst) (a : Src) (b : SrcB)
  | fpkN8 (g : Guard) (hi : Bool) (rm : Rnd) (d : Dst) (a : Src) (b : SrcB) (c : Src)
  | hadd2 (g : Guard) (f : Fmt) (rm : Rnd) (d : Dst) (a : Src) (b : SrcB)
  | hmul2 (g : Guard) (f : Fmt) (rm : Rnd) (d : Dst) (a : Src) (b : SrcB)
  | hfma2 (g : Guard) (f : Fmt) (rm : Rnd) (d : Dst) (a : Src) (b : SrcB) (c : Src)
  | hmin2 (g : Guard) (f : Fmt) (d : Dst) (a : Src) (b : SrcB)
  | hmax2 (g : Guard) (f : Fmt) (d : Dst) (a : Src) (b : SrcB)
  | sfuRcp (g : Guard) (d : Dst) (a : Src)
  | sfuRsq (g : Guard) (d : Dst) (a : Src)
  | sfuSqrt (g : Guard) (d : Dst) (a : Src)
  | sfuExp2 (g : Guard) (d : Dst) (a : Src)
  | sfuLog2 (g : Guard) (d : Dst) (a : Src)
  | sfuSin (g : Guard) (d : Dst) (a : Src)
  | sfuCos (g : Guard) (d : Dst) (a : Src)
  | sfuTanh (g : Guard) (d : Dst) (a : Src)
  -- narrow dot products and helpers (11 R236)
  | dot4 (g : Guard) (t : NTy) (rm : Rnd) (d : Dst) (a : Src) (b : SrcB) (c : Src)
  | dot8 (g : Guard) (t : NTy) (rm : Rnd) (d : Dst) (a : Src) (b : SrcB) (c : Src)
  | bscl (g : Guard) (rm : Rnd) (d : Dst) (a : Src) (b : SrcB) (c : Src)
  | bexp (g : Guard) (t : NTy) (d : Dst) (a : Src)
  | mexp (g : Guard) (t : NTy) (d : Dst) (a : Src) (b : SrcB)
  | cmpr (g : Guard) (t : NTy) (d : Dst) (a : Src) (b : SrcB)
  | expd (g : Guard) (t : NTy) (d : Dst) (a : Src) (b : SrcB)
  | lxch (g : Guard) (m : LxMode) (t : NTy) (d : Dst) (a : Src) (b : SrcB)
  | vote (g : Guard) (op : VoteOp) (d : Dst) (a : Src)
  | scan (g : Guard) (op : ScanOp) (exc : Bool) (t : NTy) (d : Dst) (a : Src)
  | matchL (g : Guard) (all : Bool) (t : NTy) (d : Dst) (a : Src)
  | cxch (g : Guard) (t : NTy) (d : Dst) (a : Src) (b : SrcB)
  | spk24 (g : Guard) (t : NTy) (d : Dst) (a : Src)
  | sxp24 (g : Guard) (t : NTy) (d : Dst) (a : Src)
  | ffs (g : Guard) (t : NTy) (d : Dst) (a : Src) (b : SrcB)
  -- memory and atomics (06 R128, R131, R135, R136)
  | ld (g : Guard) (w : MemW) (d : RegIx) (a : Src) (o : Off)
  | st (g : Guard) (w : MemW) (a : Src) (o : Off) (c : Src)
  | lds (g : Guard) (w : MemW) (d : RegIx) (a : Src) (o : Off)
  | sts (g : Guard) (w : MemW) (a : Src) (o : Off) (c : Src)
  | ldAcq (g : Guard) (sc : Scope) (w : MemW) (d : RegIx) (a : Src) (o : Off)
  | stRel (g : Guard) (sc : Scope) (w : MemW) (a : Src) (o : Off) (c : Src)
  | atom (g : Guard) (op : AtomOp) (sg : Bool) (sc : Scope) (w64 : Bool) (d : RegIx) (a : Src) (b : SrcB)
  | atomBnd (g : Guard) (sc : Scope) (w64 : Bool) (d : RegIx) (a : Src) (b : SrcB)
  | atomTopk (g : Guard) (norm : Bool) (km1 : BitVec 3) (sc : Scope) (d : RegIx) (a : Src) (b : RegIx)
  | red (g : Guard) (op : AtomOp) (sg : Bool) (sc : Scope) (w64 : Bool) (a : Src) (b : SrcB)
  | pfL1 (g : Guard) (a : Src) (o : Off)
  | pfL2 (g : Guard) (a : Src) (o : Off)
  | fence (sc : Scope)
  | loadReply (id pa : Nat)
  | storeAck (id line : Nat)
  -- copy engine (07 R163) and its records (07 R142)
  | cpGo (g : Guard) (d : RegIx) (a : Src)
  | cpStop (g : Guard) (a : RegIx)
  | cpStat (g : Guard) (d : RegIx) (a : RegIx)
  | waitc (l s c t : BitVec 6)
  | chainStart (core : Nat)
  | copyBurst (core : Nat)
  | recEnd (core : Nat)
  | move (core : Nat) (r : MoveRec)
  | mcast (core : Nat) (r : McastRec)
  | loop (core : Nat) (r : LoopRec)
  | cond (core : Nat) (r : CondRec)
  | conv (core : Nat) (r : ConvRec)
  | sample (core : Nat) (r : SampleRec)
  | csend (core : Nat) (r : CsendRec)
  | sig (core : Nat) (r : SigRec)
  | csendAnswer (chain : Nat) (block : BlockRef) (status : BitVec 7)
  -- shuffles (04 R91)
  | shfOpen (g : Guard) (d : RegIx) (a : Src) (b : SrcB)
  | shfSide (g : Guard) (d : RegIx) (a : Src) (b : SrcB) (c : Src)
  | shfDrop (g : Guard) (d : RegIx) (a : Src) (b : SrcB)
  | shfClose (g : Guard) (d : RegIx) (b : SrcB)
  | shfCloseComplete (shid : Nat)
  | codedPacketArrival (p : CodedPacket)
  | uncodedBlockArrival (b : UncodedBlock)
  | resendRequest (receiver shid bn : Nat)
  -- arenas and cache control (05 R111, R113)
  | arnChk (g : Guard) (d : RegIx) (a : Src)
  | arnWin (g : Guard) (d : RegIx) (a : Src)
  | cwb (g : Guard) (sys : Bool) (a : Src) (b : SrcB)
  | cinv (g : Guard) (a : Src) (b : SrcB)
  | cdrop (g : Guard) (a : Src) (b : SrcB)
  -- matrix engine (12 R270)
  | cvd (g : Guard) (cv : BitVec 4) (b : SrcB)
  | cvdMask (g : Guard) (cv : BitVec 4) (b : SrcB)
  | mma (g : Guard) (cv : BitVec 4) (reuse : Bool) (a : RegIx) (b : SrcB) (c : Src)
  | passGrant (clu : Nat)
  | passAging (clu pass : Nat)
  | passApply (clu : Nat)
  | accStreamPerform (clu : Nat)
  | acg (g : Guard) (d : RegIx) (b : SrcB)
  | acp (g : Guard) (b : SrcB)
  | acz (g : Guard) (a : Src) (b : SrcB)
  | acn (g : Guard) (a : Src) (b : SrcB)
  | ach (g : Guard) (d : RegIx) (a : Src)
  | acr (g : Guard) (f : EFmt) (d : RegIx) (a : Src) (b : SrcB)
  | acrImg (g : Guard) (a : Src) (b : SrcB)
  | acw (g : Guard) (f : EFmt) (a : Src) (c : RegIx) (b : SrcB)
  | acwImg (g : Guard) (a : Src) (b : SrcB)
  -- registers (08 R178, R181)
  | rget (g : Guard) (b : SrcB)
  | rput (g : Guard) (b : SrcB)
  | srd (g : Guard) (d : Dst) (sel : SrdSel)
  -- batch forming (15 R346)
  | bfqPost (g : Guard) (d : RegIx) (a : Src) (b : SrcB)
  | bfqTake (g : Guard) (d : RegIx) (a : Src) (b : SrcB) (c : Src)
  | bfqDone (g : Guard) (d : RegIx) (a : Src)
  | bfqDoneWd (g : Guard) (d : RegIx) (a : Src)
  -- system (16 R374, 17 R394)
  | trap (g : Guard) (b : SrcB)
  | brk (g : Guard) (b : SrcB)
  | kret
  | fret
  | syr (g : Guard) (d : RegIx) (sel : SySel)
  | syw (g : Guard) (a : Src) (sel : SySel)
  | tlbi (g : Guard) (d : RegIx) (a : Src) (b : SrcB) (c : Option RegIx)
  | pfack (g : Guard) (d : RegIx) (a : Src) (b : Src)
  | ctxsv (g : Guard) (d : RegIx) (a : Src) (b : Src)
  | ctxld (g : Guard) (d : RegIx) (a : Src)
  | halt (g : Guard)
  | keyld (g : Guard) (d : RegIx) (a : Src) (b : SrcB)
  | fwqPull (g : Guard) (d : RegIx) (a : RegIx)
  | fwqPush (g : Guard) (d : RegIx) (a : RegIx)
  | fwqAct (g : Guard) (d : RegIx) (a : RegIx) (force : Bool)
  -- hardware steps of memory, system and launch
  | faultPost (die : Nat)
  | machineCheck (die : Nat) (src : CheckSrc) (pa : Nat)
  | unitMapOut (u : UnitId) (saved : Bool)
  | remoteTimeout (w : PeerWait)
  | invalidationTimeout (line : Nat) (h : Holder)
  | remoteRequest (dev : Nat) (pa : Nat) (key : Nat) (op : RemoteOp)
  | invalidation (line : Nat) (h : Holder)
  | linkPause (port : Nat) (shf : Bool) (occKiB : Nat)
  | portDown (port : Nat)
  | pauseWrite (port : Nat) (v : Word)
  | strctlWrite (die : Nat) (v : Word)
  | arnpoolWrite (die : Nat) (v : DWord)
  | queueDoorbell (q : Nat) (tail : Word)
  | queueEnable (q : Nat)
  | launch (q : Nat) (p : LaunchPkt)
  | nodeStart (node : Nat)
  | wait (q : Nat) (addr : DWord) (value : Word)
  | waitRecheck (q : Nat)
  | signal (q : Nat) (sys : Bool) (addr : DWord) (value : Word)
  | pred (q : Nat) (ne : Bool) (na nb : Nat) (addr : DWord) (value : Word)
  | teamPlacement (ti : Nat)
  | itemDispatch (node : Nat)
  | arenaDeath (node : Nat)
  | longWaitSwap (ti : Nat)
  | swapRestoreTimeout (slot : Nat)
  | teamRestore (slot : Nat)
  | starvationSelection (ti gi : Nat)
  | notifyApertureWrite (q : Nat) (off : Nat) (bytes : List Byte)
  | apertureGate (die : Nat)
  | kettleUngate (die : Nat)
  | semClaim (p0 p1 : Option (BitVec 2))
  | semTimeout
  | managementRequest (r : MgmtRequest)
  | frzWrite
  | freeze
  | powerGood
  | functionLevelReset (fn : Nat)
  | powerThrottle
  | registerWrite (w : Writer) (loc : Nat) (bytes : List Byte)
  | servicePortWrite (pa : Nat) (bytes : List Byte)
  | illegalInstruction (cause : BitVec 8) (w0 : DWord)
  | fetchFault
deriving DecidableEq, Repr

end Sys2Proof
end

