-- ==== Sys2Proof/Config.lean ====
section
/-! DEFINITION. What one module fixes, and the values the specification leaves free.

A number of R1 is a definition; a value that the specification leaves open is an opaque constant with no body,
so a claim holds whatever it is. -/

namespace Sys2Proof.Config

/-- Dies of a module (00 R1). -/
def nDies : Nat := 4
/-- Clusters of a die (00 R1). -/
def cluPerDie : Nat := 24
/-- Cores of a die (00 R1). -/
def coresPerDie : Nat := 96
/-- Cores of a module, firmware cores included (00 R1, R2). -/
def nCores : Nat := 384
/-- Register-file units of a core (08 R168). -/
def regUnits : Nat := 512
/-- Accumulator rows of an engine (00 R1). -/
def engineRows : Nat := 1024
/-- The rows kept back from ordinary grants (12 R266). -/
def rowReserve : Nat := 256
/-- Entries of a reservation table (12 R257). -/
def tableEntries : Nat := 32
/-- Chains that the queue of one core holds (07 R137). -/
def chainQueue : Nat := 8
/-- Entries of a park table (16 R361). -/
def parkEntries : Nat := 256
/-- Entries of a side log (16 R362). -/
def logEntries : Nat := 512
/-- Entries of a steep buffer (14 R307). -/
def steepEntries : Nat := 256
/-- Item places of a core (14 R302). -/
def caddyPlaces : Nat := 1024
/-- Entries of a flow table (14 R306). -/
def flowEntries : Nat := 2048
/-- Entries of a kettle (14 R316). -/
def kettleEntries : Nat := 4096
/-- Slots of a strainer (04 R84). -/
def strainerSlots : Nat := 8192
/-- Entries of a side-information table (04 R82). -/
def sideEntries : Nat := 65536
/-- Entries of a micro-TLB (16 R358). -/
def microTlb : Nat := 512
/-- Entries of a shared TLB (16 R358). -/
def sharedTlb : Nat := 32768
/-- Batch-forming queues of a die (15 R342). -/
def bfqPerDie : Nat := 16
/-- The time without an answer that raises a machine check, in cycles (04 R75, 05 R98). -/
def requestLimit : Nat := 4000000

/-- Free value (03 R68, R70): what a byte reads as that is stored under `tag` and read under the key `want`.
It may depend on the address and on the stored bytes of its 16-byte block. -/
opaque scramble : (tag want : Nat) → (pa : Nat) → List Byte → Byte

/-- Free value (11 R234): the result that a special function would give before its bound is applied.
Each is a fixed function of its input. -/
opaque sfuCandidate : SfuFn → Word → Word

/-- Free value (12 R268, 14 R294): the core of the pair, 0 or 1, on which group `gi` of `ngrp` groups runs. -/
opaque pairCore : (ngrp gi : Nat) → BitVec 1

/-- Free value (04 R72): the fixed hash of DEV and the line number that chooses one of `n` ports. -/
opaque portHash : (dev line n : Nat) → Nat

/-- Free value (12 R254): whether the pass numbered by the first argument sees a change of byte `off` of B made after posting. -/
opaque seesLateB : (pass off : Nat) → Bool

/-- Free value (12 R262): whether the engine fuses the pass numbered by the argument with the one before it. -/
opaque fuses : Nat → Bool

/-- Free value (18 R399): whether the plain store of operation `id` goes before the stores of other threads that its core has not brought to their
home yet. -/
opaque storeUnder : (id : Nat) → Bool

/-- Free value (22 R427): whether the load of operation `id` reads the coherent copy under what other threads of its core have stored there and neither
published nor brought to its home yet. -/
opaque readUnder : (id : Nat) → Bool

/-- Free value: what a byte at a LOC inside a block of device registers reads as where no register is named, and what a byte of a
notify aperture reads as (14 R314 describes writes only). -/
opaque unnamedReg : (loc : Nat) → Byte

/-- Free value: what `sy.tval` holds after a trap for which the page gives no value (15 R348, steps 2 and 4). -/
opaque openTval : Nat → DWord

/-- Free value (17 R385): the unit-specific error syndrome of a machine-check record. -/
opaque syndrome : Nat → DWord

/-- Free values (17 R388, R396): what the image at a descriptor shows. The specification gives no layout of an image or its descriptor. -/
opaque imageSigned : Nat → Bool
/-- The layout that an image writes, NEW. -/
opaque imageNew : Nat → BitVec 16
/-- The oldest layout that an image reads, LO. -/
opaque imageOld : Nat → BitVec 16

end Sys2Proof.Config
end

