-- ==== Sys2Proof/Machine/State.lean ====
section
/-! DEFINITION. The state of one RYH-4800 module, as plain data, and its value right after reset.

Sparse collections are lists; a map from numbers keeps its keys strictly rising and lists no default value.
INVENTORY.md, under State, names for each field the rule of spec/ that gives it. -/

namespace Sys2Proof.Machine

/-- Why the machine stops. Every one of these is safe: no claim about a next state follows from it. -/
inductive Fault where
  /-- Raised by a meaning of an encoded word that is run with no issuing run in `State.cur`. No step does that. Safe. -/
  | noRun
  /-- Raised by `step` once FRZ or the FREEZE pin has stopped every clock of the module (17 R392). Safe. -/
  | frozen
deriving DecidableEq, Repr

/-- Why an instruction has no meaning here. -/
inductive Refusal where
  /-- Raised by an arm of `exec` whose instruction is not modelled yet. Safe. -/
  | notModelled (mnemonic : String)
  /-- Raised by `step` when the agenda names, as a hardware event, an instruction that a thread, an engine or a front-end fetches. Safe. -/
  | notAnEvent
deriving DecidableEq, Repr

/-- A sparse map from numbers to values, in rising order of its keys. -/
abbrev Sparse (α : Type) := List (Nat × α)

/-- Memory: address and byte pairs, keyed by the 60-bit domain physical address (03 R63). -/
abbrev Memory := List Host.Cell

/-! ### Threads, groups, teams -/

/-- Privilege levels, 16 R350. -/
inductive Level where
  | u | k | f
deriving DecidableEq, Repr

/-- A register whose write comes later: part `part` of operation `op` (08 R175). -/
structure Pend where
  reg : Nat
  op : Nat
  part : Nat
deriving DecidableEq, Repr

/-- An item held by a lane (14 R300); `tg` identifies the delivery of a `take.g` (R324). -/
structure HeldItem where
  payload : DWord
  label : Nat
  cls : Nat
  seq : Nat
  tg : Option Nat
deriving DecidableEq, Repr

/-- Why a thread is not ready (14 R296). -/
inductive Hold where
  | none
  /-- Its next word cannot issue yet: scoreboard, counter, acknowledgement or room. -/
  | stall
  /-- At a gathered word (11 R240). -/
  | gather
  /-- At `kret`, or at `fret` if `f`, which gather over the handler lanes (16 R376). -/
  | ret (f : Bool)
  /-- Signed convergence register `cv` (12 R252). -/
  | sign (cv : Nat)
  /-- Signed a set of register `cv` that is abandoned: its trap is due (12 R272). -/
  | abandoned (cv : Nat)
  /-- Until the phase of barrier `b` exceeds `ph` (14 R320). -/
  | barrier (b ph : Nat)
  /-- Naps on channel `ch`, result to v`d`, until cycle `dl` if any (14 R321). -/
  | nap (ch d : Nat) (dl : Option Nat)
  /-- A request in its team's queue (14 R303). -/
  | take
  /-- Between the two steps of a relabel (14 R308). -/
  | joining (label cls : Nat)
  /-- Joined an atomic flow, waits for the exclusion (14 R308). -/
  | exclusion (label cls : Nat)
  /-- Waits until the group holds `t` blocks; its own target is `n` (08 R179). -/
  | rget (t n : Nat)
  /-- Waits for accumulator rows (12 R274). -/
  | acg
  /-- Waits for a batch (15 R348). -/
  | bfqTake
  /-- Waits at `shf.close` (04 R95). -/
  | shfClose (shid : Nat)
  /-- Halted (16 R382). -/
  | halt
  /-- Waits at `tlbi` until the accesses issued before `upTo`, of one address space or all, with an address in [`lo`, `hi`), have ended
  on some dies; its status goes to v`d` (16 R378). -/
  | tlbi (d upTo : Nat) (asid : Option Nat) (lo hi : Nat) (dies : List Nat)
  /-- Waits until team `ti` is saved; its status goes to v`d` (16 R380). -/
  | ctxsv (d ti : Nat)
  /-- Waits at `fwq.act` until the saves in progress have finished; its status goes to v`d` (17 R388). -/
  | activate (d : Nat) (force : Bool)
  /-- Its wait is over while a trap bank holds the thread, which goes on at the next word when that bank returns (16 R351). -/
  | passed
  /-- Terminated with its grid (14 R311). -/
  | dead
deriving DecidableEq, Repr

/-- The shadow registers of one lane in one bank (16 R352). -/
structure Shadow where
  regs : Sparse Word
  lr : DWord
  pend : List Pend
deriving DecidableEq, Repr

/-- One thread (14 R294): PC, yield flag (R296), starvation count (R298), registers (08 R168), operand file (R174),
`lr` (02 R49), claim (08 R171), item (14 R304), arrivals at barriers (R312), reuse latch (08 R177), the place in the order of issue
of its last acquire (13 R289). `enq` numbers the issue of the `itemi` at which it waits (R327), 0 for none.
`waitLen` is the length in bytes of the word at which a lane waits. -/
structure Thread where
  pc : DWord
  yielded : Bool
  exited : Bool
  starve : Nat
  regs : Sparse Word
  qf : Sparse Word
  lr : DWord
  claim : Nat
  pend : List Pend
  item : Option HeldItem
  hold : Hold
  waitLen : Nat
  heldK : Bool
  heldF : Bool
  fetchPark : Option Nat
  arrived : Sparse Nat
  latch : Sparse Word
  acqT : Nat
  enq : Nat
  shadowK : Shadow
  shadowF : Shadow
deriving DecidableEq, Repr

/-- One trap bank of a group (16 R352). -/
structure Bank where
  cause : Word
  epc : DWord
  tval : DWord
  tmask : DWord
  pl : Level
  inh : Bool
  kscr : DWord
deriving DecidableEq, Repr

/-- A group (14 R294): lanes, level (16 R350), blocks held (08 R171), outstanding counters (08 R176), the place in
the order of issue of its last fence (13 R285), trap banks,
the offered run (15 R341) and the starvation counts before its selection (14 R298), the cycles since it last issued, and its core within a pair. -/
structure Group where
  lanes : List Thread
  level : Level
  blocks : Nat
  loads : Nat
  stores : Nat
  copies : Nat
  tiles : Nat
  fenced : Nat
  bankK : Bank
  bankF : Bank
  offer : Option (List Nat)
  counts : List Nat
  waited : Nat
  pcore : Nat
deriving DecidableEq, Repr

/-- A barrier (14 R312): phase number, arrivals, required count (0 unset). -/
structure Barrier where
  phase : Nat
  arrivals : Nat
  count : Nat
deriving DecidableEq, Repr

/-- One signature of a convergence set (12 R252). -/
structure Sig where
  gi : Nat
  lane : Nat
  pcore : Nat
  aRow : List Word
  scale : List Word
deriving DecidableEq, Repr

/-- A convergence register (12 R251): declared or free, count or mask form, what its first signer recorded, signatures. -/
structure CvReg where
  declared : Bool
  masked : Bool
  grp : Nat
  count : Nat
  mset : DWord
  desc : Word
  fw : Word
  sigs : List Sig
deriving DecidableEq, Repr

/-- An item in a caddy (14 R302). -/
structure Item where
  payload : DWord
  label : Nat
  cls : Nat
  seq : Nat
deriving DecidableEq, Repr

/-- A request of a team's request queue (14 R303). -/
structure Req where
  gi : Nat
  lanes : List Nat
  d : Nat
  c : Nat
  grouped : Bool
deriving DecidableEq, Repr

/-- A flow-table entry (14 R306): next arrival number, unretired arrival numbers in order, the one in flight of an atomic flow,
the arrival numbers that proxies stand for, and when the entry became idle. -/
structure FlowEntry where
  label : Nat
  cls : Nat
  next : Nat
  unret : List Nat
  inFlight : Option Nat
  proxies : List Nat
  idleAt : Option Nat
deriving DecidableEq, Repr

/-- A retirement on its way to a home team that is saved (14 R310). -/
structure Retired where
  node : Nat
  home : Nat
  label : Nat
  cls : Nat
  seq : Nat
deriving DecidableEq, Repr

/-- Where a team stands (15 R338, R340, 16 R366). -/
inductive Place where
  | waiting
  | resident
  | saved (slot : Nat)
  | gone
deriving DecidableEq, Repr

/-- A team (14 R294) with its slot on its cores (15 R338, R341), its launch properties (15 R333), scratchpads (06 R120), team rows (12 R249, by row identity),
convergence registers, barriers, notify words (14 R314), caddy, requests, flow table, long-wait count (15 R340), capacity factor
and live batch rows (15 R345). `saving` marks a team that has stopped issuing for a save (16 R366), true for a long-wait swap.
`tried` marks a team that found no place when its turn came (15 R338), `begun` one of which a word has issued (01 R18). -/
structure Team where
  node : Nat
  num : Nat
  place : Place
  cores : List Nat
  slot : Nat
  width : Nat
  groups : List Group
  scr : Nat
  scratch0 : Sparse Byte
  scratch1 : Sparse Byte
  acc0 : Nat
  rows : List Nat
  cvs : List CvReg
  bars : List Barrier
  notify : List Word
  caddy : List Item
  reqs : List Req
  flows : List FlowEntry
  waitCount : Nat
  capf : Word
  batchRows : Nat
  saving : Option Bool
  savedAt : Option Nat
  tried : Bool
  begun : Bool
deriving DecidableEq, Repr

/-- A node: one LAUNCH (15 R334). -/
inductive NodeState where
  | waiting | running | dying | complete
deriving DecidableEq, Repr

/-- A node with its queue's address space at the LAUNCH, its packet, arenas and dispenser position. -/
structure Node where
  q : Nat
  pkt : Nat
  p : LaunchPkt
  st : NodeState
  asid : Nat
  key : Nat
  fn : Nat
  ptroot : DWord
  arenas : List Nat
  produced : Nat
  robin : Nat
  srcDone : Bool
  blocked : Option Item
  deathStep : Nat
  terminated : Bool
deriving DecidableEq, Repr

/-! ### Memory system -/

/-- A level of the caches: the L1 of a core, its instruction cache (00 R1), the home L2, the RDC of a die. -/
inductive Lvl where
  | l1 (core : Nat)
  | l1i (core : Nat)
  | l2
  | rdc (die : Nat)
deriving DecidableEq, Repr

/-- A cached line: level, line number (address / 128), key id, way in its set, and the bytes written there that the level below lacks.
The list of a level's entries runs from the least recently used to the most (06 R117). -/
structure CLine where
  lvl : Lvl
  line : Nat
  key : Nat
  way : Nat
  dirty : Bool
  data : List Host.Cell
deriving DecidableEq, Repr

/-- A directory entry (05 R97): marked cores, dies, exact DEV pointers, marked blocks of 64 DEV numbers. -/
structure DirEntry where
  line : Nat
  cores : List Nat
  dies : List Nat
  devs : List Nat
  blocks : List Nat
deriving DecidableEq, Repr

/-- Where one lane's part of a load stands; `kind` is the KIND of the fault on which it is parked (16 R360). -/
inductive LaneSt where
  | wait | parked (fid kind : Nat) | done
deriving DecidableEq, Repr

/-- One lane's part of a load or atomic: address, operands, state; `gen` is the arena generation of its translation, 0 for none. -/
structure LoadPart where
  lane : Nat
  va : Nat
  pa : Nat
  key : Nat
  gen : Nat
  x : DWord
  y : DWord
  st : LaneSt
deriving DecidableEq, Repr

/-- What a load-class instruction does. -/
inductive LoadOp where
  | plain (sext : Bool)
  | acq (sext : Bool) (sc : Scope)
  | rmw (op : AtomOp) (sg : Bool) (sc : Scope)
  | bnd (sc : Scope)
  | topk (norm : Bool) (k : Nat) (sc : Scope)
deriving DecidableEq, Repr

/-- An outstanding load-class instruction (06 R126, 16 R361); `t` is its place in the order of issue, `level` that of its group then, `sent` the
cycle of its die in which its requests left last (04 R75). -/
structure Load where
  id : Nat
  t : Nat
  ti : Nat
  gi : Nat
  core : Nat
  level : Level
  sent : Nat
  op : LoadOp
  n : Nat
  epc : DWord
  parts : List LoadPart
deriving DecidableEq, Repr

/-- Where one lane's part of a store stands. A replayed entry of a side log comes after the loads of its team that were issued before `upTo`
(16 R367). -/
inductive StSt where
  | wait
  | logged (fid : Nat) (seq : Nat)
  | replay (seq upTo : Nat)
  | held
  | released
  | acked
deriving DecidableEq, Repr

/-- One lane's part of a store-class instruction; `place` is its place among the stores of its core to one location (log 17), `buf` marks one
that holds an entry of the steep buffer (14 R307). -/
structure StPart where
  lane : Nat
  va : Nat
  pa : Nat
  key : Nat
  gen : Nat
  data : DWord
  label : Nat
  cls : Nat
  seq : Nat
  untranslated : Bool
  place : Int × Int
  buf : Bool
  st : StSt
deriving DecidableEq, Repr

/-- What a store-class instruction does. -/
inductive StOp where
  | store
  | rel
  | ord
  | red (op : AtomOp) (sg : Bool)
  | cwb (sys : Bool) (len : Nat)
  | cinv (len : Nat)
  | cdrop (len : Nat)
deriving DecidableEq, Repr

/-- An outstanding store-class instruction (06 R126); `sent` as for a load. `pub` is the place in the order of issue at which its thread
published it to its core by a release of a narrow scope (13 R291, log 70), `seen` tells that a thread of its core has read it there. -/
structure Store where
  id : Nat
  t : Nat
  ti : Nat
  gi : Nat
  core : Nat
  level : Level
  sent : Nat
  pub : Option Nat
  seen : Bool
  op : StOp
  sc : Scope
  n : Nat
  parts : List StPart
deriving DecidableEq, Repr

/-- A deferred trap that waits for a handler of its target bank to return (16 R432): the load, the level at its issue, its address, and the failing
lanes with their addresses. -/
structure DueTrap where
  ti : Nat
  gi : Nat
  op : Nat
  level : Level
  epc : DWord
  fails : List (Nat × Nat)
deriving DecidableEq, Repr

/-- A request of access `id` for a line of a peer that has left by a port, where space for its response is reserved (04 R76). -/
structure Asked where
  id : Nat
  line : Nat
  port : Nat
deriving DecidableEq, Repr

/-- A die waits for the answer of a peer's line that a walker, a front-end, a ring, a slot or a shuffle asked for: since which of its cycles (04 R75). -/
structure Unanswered where
  die : Nat
  line : Nat
  since : Nat
deriving DecidableEq, Repr

/-- A TLB entry (16 R357, R358, 05 R104): owner die, core of a micro-TLB if any, ASID, page, frame, rights, key;
`slot` and `gen` of an arena translation. -/
structure TlbEntry where
  die : Nat
  core : Option Nat
  asid : Nat
  va : Nat
  size : Nat
  pa : Nat
  r : Bool
  w : Bool
  x : Bool
  u : Bool
  rd : Bool
  key : Nat
  comp : Nat
  dirtySet : Bool
  slot : Nat
  gen : Nat
deriving DecidableEq, Repr

/-- A pointer entry that the walkers of a die have cached (16 R358): the pages it covers, by the level's shift, and the next table. -/
structure WalkEntry where
  die : Nat
  asid : Nat
  shift : Nat
  page : Nat
  table : Nat
deriving DecidableEq, Repr

/-- A fault (16 R360) from its raising until it is resolved; `check` marks a machine check with parked requesters (17 R385), its SRC in `cause` and its line in `va`. -/
structure FaultRec where
  fid : Nat
  die : Nat
  cause : Nat
  kind : Nat
  asid : Nat
  va : Nat
  mask : DWord
  handle : DWord
  core : Nat
  grp : Nat
  accR : Bool
  accW : Bool
  accX : Bool
  slot : Nat
  posted : Bool
  check : Bool
  ti : Option Nat
  chain : Option Nat
deriving DecidableEq, Repr

/-- A machine-check record waiting for its ring or written (17 R385). -/
structure McRec where
  src : Nat
  park : Bool
  asid : Nat
  fid : Nat
  addr : DWord
  mask : DWord
  handle : DWord
  core : Nat
  grp : Nat
  unit : Nat
  syn : DWord
deriving DecidableEq, Repr

/-- An arena of a die's table (05 R102, R106, R107). -/
structure Arena where
  die : Nat
  slot : Nat
  gen : Nat
  live : Bool
  asid : Nat
  key : Nat
  node : Nat
  frames : List Nat
deriving DecidableEq, Repr

/-! ### Copy engine, matrix engine, shuffles -/

/-- Where a chain stands (07 R137, R159, R165). -/
inductive ChainSt where
  | queued | walking | parked (fid : Nat) | stopping
deriving DecidableEq, Repr

/-- A block that a CSEND record has sent and that is not answered yet (04 R89): receiver, shuffle, block number, and for a resend where its
source stands and its offset at the receiver; `fid` is the fault that a resend waits for. -/
structure SentBlock where
  dev : Nat
  shid : Nat
  bn : Nat
  ssp : Bool
  addr : Nat
  off : Nat
  fid : Option Nat
deriving DecidableEq, Repr

/-- A copy chain (07 R137, R160): `op` of its pending token is `id`. `now` is the record it has reached and read, until its position
moves on; `dests` the teams of an MCAST; `waits` the blocks of its CSEND records not yet answered; `level` that of the group at its `cp.go`
(log 20); `sent` the cycle of its die in which its position changed last (04 R75); `img` its number among the chains of its slot while its team
is saved. -/
structure Chain where
  id : Nat
  core : Nat
  ti : Nat
  gi : Nat
  lane : Nat
  tok : Nat
  level : Level
  st : ChainSt
  recOff : Nat
  now : Option Instr
  status : Nat
  count : Nat
  sb : DWord
  db : DWord
  act : List Bool
  lc : List Nat
  p0 : Nat
  p1 : Nat
  p2 : Nat
  dests : List (Nat × Nat)
  waits : List SentBlock
  endSeen : Bool
  sent : Nat
  img : Nat
deriving DecidableEq, Repr

/-- An accumulator row (09 R201, R202). -/
structure AccRow where
  e : Int
  h : Nat
  l : Bool
  s : Bool
  rc : Nat
  m : Sparse Int
deriving DecidableEq, Repr

/-- A posted pass (12 R252 to R260); `dest` holds the row identity of each of its rows, none where the team no longer held it (R274). -/
structure Pass where
  cv : Nat
  fw : Word
  desc : Word
  rank : List Sig
  dest : List (Option Nat)
  b : List Byte
  bscale : List Byte
  ti : Nat
  prio : Nat
  inv : Bool
  core : Nat
  posted : Nat
  aged : Bool
  granted : Bool
deriving DecidableEq, Repr

/-- What an entry of a row stream does (12 R258). -/
inductive StreamOp where
  | pass (p : Pass)
  | acz
  | acn (s : Nat)
  | ach
  | acr (f : EFmt) (n c0 : Nat)
  | acrImg (off : Nat)
  | acw (f : EFmt) (n c0 : Nat) (e : Int) (run : List Word)
  | acwImg (bytes : List Byte)
  | sample (chain : Nat)
  | void
deriving DecidableEq, Repr

/-- An entry of the row streams of a cluster, in order; it stands in the stream of each of its rows. -/
structure Stream where
  id : Nat
  clu : Nat
  ti : Nat
  gi : Nat
  lane : Nat
  rows : List Nat
  op : StreamOp
deriving DecidableEq, Repr

/-- A waiting request for register blocks (08 R173). -/
structure RgetReq where
  core : Nat
  age : Nat
  ti : Nat
  gi : Nat
  n : Nat
deriving DecidableEq, Repr

/-- A waiting request for accumulator rows (12 R266); `d` is the destination register, `lanes` the run. That of a team to be restored names no
lane. -/
structure AcgReq where
  clu : Nat
  age : Nat
  core : Nat
  ti : Nat
  gi : Nat
  n : Nat
  d : Nat
  lanes : List Nat
deriving DecidableEq, Repr

/-- An open shuffle (04 R79 to R81, R95). `level` is that of the group at its `shf.open`. `closers` are the lanes at whose `shf.close` it
closes: team, group, lane, and the pending operation of the token register, or that register itself where the lane waits. `failed` marks
that a waiting close found blocks missing: the closers left are those whose trap is still due. -/
structure Shuffle where
  id : Nat
  asid : Nat
  ti : Nat
  level : Level
  desc : Nat
  parts : List Nat
  ddie : Nat
  strict : Bool
  trapF : Bool
  expect : Nat
  rxbase : Nat
  rxlen : Nat
  coded : Nat
  uncoded : Nat
  fallback : Nat
  missing : Nat
  check : Nat
  full : Nat
  high : Nat
  closing : Bool
  failed : Bool
  closers : List (Nat × Nat × Nat × Nat)
deriving DecidableEq, Repr

/-- A side-information entry (04 R82, R83); `gen` is the arena generation of its block's translation, 0 for none. -/
structure SideEntry where
  die : Nat
  shid : Nat
  bn : Nat
  pa : Nat
  key : Nat
  gen : Nat
  valid : Bool
deriving DecidableEq, Repr

/-- What waits in a strainer (04 R84, R85, R87). -/
inductive Arrival where
  | coded (p : CodedPacket)
  | block (b : UncodedBlock) (counted : Nat)
deriving DecidableEq, Repr

/-- A slot of a strainer; `fid` is the fault a parked write waits for. A block without one waits until its lines can be written. -/
structure StrainerSlot where
  die : Nat
  arrival : Arrival
  fid : Option Nat
deriving DecidableEq, Repr

/-- A row of a batch-forming queue (15 R342). -/
structure BRow where
  value : DWord
  ti : Nat
  gi : Nat
  lane : Nat
  core : Nat
  fn : Nat
  void : Bool
deriving DecidableEq, Repr

/-- A taken batch (15 R342, R348); `pcore` is the core of the pair whose scratchpad holds its entries, and `cur` marks the team's
current batch (R345). -/
structure Batch where
  ti : Nat
  pcore : Nat
  cur : Bool
  so : Nat
  base : Option Nat
  step : Nat
  rows : List BRow
deriving DecidableEq, Repr

/-- A waiting `bfq.take` (15 R342). -/
structure BTake where
  ti : Nat
  gi : Nat
  lanes : List Nat
  d : Nat
  target : Nat
  so : Nat
  base : Option Nat
  step : Nat
deriving DecidableEq, Repr

/-- A batch-forming queue bound to a key (15 R342). -/
structure Bfq where
  die : Nat
  key : Nat
  rows : List BRow
  posters : List (Nat × Nat × Nat)
  takes : List BTake
  batches : List Batch
deriving DecidableEq, Repr

/-! ### Devices -/

/-- A wake: team of the model's team list, channel, value (14 R314). -/
structure Wake where
  ti : Nat
  ch : Nat
  value : Word
deriving DecidableEq, Repr

/-- A wake of an `ntfy` on its way: it is a release of what its thread did before place `t` in the order of issue (14 R314, R322). -/
structure SentWake where
  ti : Nat
  gi : Nat
  lane : Nat
  t : Nat
  wake : Wake
deriving DecidableEq, Repr

/-- The registers and agents of one die: `sy.*` (16 R372, R373), fault queue (R359; `fltRetry` marks that posting may try a stalled entry again, R430), machine-check ring (17 R385), ARNPOOL (05 R105),
STRCTL (04 R88), kettle and the wakes that wait at its entry (14 R316), clock (08 R182). -/
structure Die where
  cyc : Nat
  kvec : DWord
  fvec : DWord
  kroot : DWord
  swapthr : Word
  fltSz : Nat
  fltStall : Bool
  fltRetry : Bool
  fltBase : DWord
  fltw : Word
  flth : Word
  fltt : Word
  layNew : Nat
  layOld : Nat
  mcSz : Nat
  mcBase : DWord
  mch : Word
  mct : Word
  mcWait : List McRec
  fidSeq : Nat
  arnBase : Nat
  arnCount : Nat
  arnEn : Bool
  arnBadw : Bool
  strStop : Nat
  strResume : Nat
  strBadw : Bool
  strStopped : Bool
  gated : Bool
  idle : Nat
  kettle : List Wake
  entry : List Wake
  fwTeam : Option Nat
deriving DecidableEq, Repr

/-- A Skepra port (04 R77): PAUSE fields, what its three receive buffers hold in KiB (R76), whether it is up, mis-cabled (17 R387). -/
structure Port where
  xoff : Nat
  xon : Nat
  badw : Bool
  preq : Bool
  pshf : Bool
  hreq : Bool
  hshf : Bool
  rxReq : Nat
  rxRsp : Nat
  rxShf : Nat
  up : Bool
  miscabled : Bool
deriving DecidableEq, Repr

/-- What a queue's front-end waits for at the packet at HEAD. -/
inductive QBlock where
  | free
  | waitWord (addr : DWord) (value : Word) (since : Nat)
deriving DecidableEq, Repr

/-- A compute queue (15 R330). `arms` follows taken arms A of PRED packets, innermost first: the HEAD at their end and the slots of arm B
to skip there (R337). -/
structure Queue where
  base : DWord
  en : Bool
  halt : Bool
  fn : Nat
  die : Nat
  qsz : Nat
  asid : Nat
  key : Nat
  err : Nat
  head : Word
  tail : Word
  ptroot : DWord
  block : QBlock
  arms : List (Word × Word)
deriving DecidableEq, Repr

/-- What the module sends to an agent outside it. -/
inductive OutMsg where
  | remoteReply (dev pa : Nat) (data : List Byte)
  /-- The home's answer to a request that it does not perform: it fails with a cause (05 R108). -/
  | remoteFail (dev pa cause : Nat)
  | shfBlock (dev shid bn off : Nat) (codeable : Bool) (data : List Byte)
  /-- An answer to the sender of a block; of a component of a coded packet the fabric knows the sender. -/
  | shfAnswer (dst : Option Nat) (shid bn status : Nat)
  /-- A resend request to the sender of a component. -/
  | resendReq (shid bn : Nat)
  | sideAnnounce (shid bn : Nat)
  | openAnnounce (shid : Nat)
  /-- A `cdrop` of a line of another module, for its home to apply (05 R115). -/
  | remoteDrop (line : Nat)
  /-- The indication of one port to its switch (04 R88). -/
  | stopCoding (port : Nat) (stop : Bool)
  | mgmtResponse (bytes : List Byte)
  | invalAck (line : Nat) (h : Holder)
  | mctpError (port : Nat)
deriving DecidableEq, Repr

/-- The semaphore SEM (17 R391); `idle` counts the owner's cycles without a register access. -/
structure Sem where
  owner : Nat
  last : Nat
  lost : Bool
  idle : Nat
deriving DecidableEq, Repr

/-- The image that boot or activation loads: signature, layouts (17 R386, R388), the vector boot writes (16 R373), and the first
instruction and root of the firmware team. -/
structure Image where
  sigOk : Bool
  layNew : Nat
  layOld : Nat
  fvec : DWord
  entry : DWord
  root : DWord
deriving DecidableEq, Repr

/-- What the package's pins, its flash and its links show at power-good (17 R386, R387), with the CXL capacities that firmware publishes, here
and of peers by DEV (03 R65). -/
structure Pins where
  devid : Nat
  image : Image
  cxl : List Nat
  peerCxl : List (Nat × List Nat)
  devs : List Nat
  partners : List Nat
deriving DecidableEq, Repr

/-- Module-wide registers: MODSTAT (17 R390), DEV (R387), `sy.ctxpool` (16 R369), mapped-out units, clock steps (17 R393). -/
structure Module where
  ready : Bool
  repl : Bool
  stage : Nat
  ucores : Nat
  clus : Nat
  frozen : Bool
  dev : Nat
  published : Bool
  poolCount : Nat
  poolBase : DWord
  outCores : List Nat
  outClus : List Nat
  clkSteps : Nat
  resetting : List Nat
deriving DecidableEq, Repr

/-- A context slot (16 R369, R370): its address, the team saved there, AUTO, the layout, whether it may be restored, SAVEC, and what its oldest waiting
request asked for: units, or rows if true (15 R340). -/
structure CtxSlot where
  slot : Nat
  base : DWord
  ti : Nat
  auto : Bool
  layout : Nat
  eligible : Bool
  savec : Nat
  wants : Option (Bool × Nat)
deriving DecidableEq, Repr

/-! ### Turns and the state -/

/-- The issuing run that `step` hands to a meaning. -/
structure Cur where
  ti : Nat
  gi : Nat
  lanes : List Nat
  pc : DWord
  len : Nat
  w0 : DWord
deriving DecidableEq, Repr

/-- A word issued in this cycle of a core (15 R341): its group, the banks of its register run, its engine port. -/
structure Issued where
  core : Nat
  ti : Nat
  gi : Nat
  banks : List Nat
  port : Nat
deriving DecidableEq, Repr

/-- Events outside the table that the specification allows: evictions (05 R97, 06 R117), a TLB or walk entry lost (16 R358), cycles that pass,
a peer that writes its own memory or loads a key, a management port that reads a register (17 R391), a link partner that pauses, a response buffer that fills or empties (04 R76), the loader that places chain records in a scratchpad (01 R18). -/
inductive EnvEvent where
  | tick (die n : Nat)
  | evict (lvl : Lvl) (line : Nat)
  | dropTlb (die : Nat) (core : Option Nat) (va : Nat)
  | dropWalk (die va : Nat)
  | peerWrite (pa key : Nat) (bytes : List Byte)
  | peerKeyld (dev key : Nat) (value : Nat)
  | portRead (port : Nat)
  | partnerPause (port : Nat) (req shf : Bool)
  | rspBuffer (port occKiB : Nat)
  | loadScratch (ti pcore off : Nat) (bytes : List Byte)
deriving DecidableEq, Repr

/-- Bytes for a context slot that its home slices do not own yet: die, kernel virtual address, bytes (16 R369, 05 R98). -/
structure SlotWrite where
  die : Nat
  va : Nat
  bytes : List Byte
deriving DecidableEq, Repr

/-- Which agent moves next. -/
inductive Turn where
  /-- A group makes a selection and offers a run (14 R296, 15 R341). -/
  | select (ti gi : Nat)
  /-- A group issues its offered run, or selects and issues. -/
  | issue (ti gi : Nat)
  /-- The copy engine reads the next record of a core's chain, or goes on with it. -/
  | engine (core : Nat)
  /-- A front-end reads the next packet of a queue (15 R331). -/
  | front (q : Nat)
  /-- A row of the opcode table that no agent fetches. -/
  | hw (i : Instr)
  /-- An event outside the table. -/
  | env (e : EnvEvent)
deriving DecidableEq, Repr

/-- The state of the module. -/
structure State where
  agenda : List Turn
  cur : Option Cur
  issued : List Issued
  mem : Memory
  memTag : Sparse Nat
  frameTag : Sparse Nat
  cache : List CLine
  dir : List DirEntry
  invals : List (Nat × Holder)
  invalAt : Sparse Nat
  againAt : Sparse Nat
  loads : List Load
  stores : List Store
  traps : List DueTrap
  asks : List Asked
  unanswered : List Unanswered
  tlb : List TlbEntry
  walks : List WalkEntry
  faults : List FaultRec
  arenas : List Arena
  arenaGen : Sparse Nat
  keys : Sparse Nat
  peerKeys : Sparse Nat
  teams : List Team
  nodes : List Node
  slots : List CtxSlot
  slotDue : List SlotWrite
  retired : List Retired
  chains : List Chain
  served : Sparse Nat
  accRows : List (Nat × AccRow)
  streams : List Stream
  rgetQ : List RgetReq
  acgQ : List AcgReq
  reserve : Sparse Nat
  shuffles : List Shuffle
  side : List SideEntry
  strainer : List StrainerSlot
  bfqs : List Bfq
  wakes : List SentWake
  dies : List Die
  ports : List Port
  queues : Sparse Queue
  mgmtIn : List (List Byte)
  mgmtDue : List (List Byte)
  sent : List OutMsg
  outbox : List (Nat × Bool × OutMsg)
  carve : Sparse Nat
  module : Module
  sem : Sem
  pins : Pins
  nextId : Nat
  clock : Nat
  freeCtr : Nat
deriving DecidableEq, Repr

/-! ### Reset -/

/-- Registers of a shadow bank at placement read zero (16 R351). -/
def Shadow.zero : Shadow := ⟨[], 0, []⟩

/-- A trap bank at placement: `sy.status` as R352 gives it, the rest zero (log 2). -/
def Bank.zero : Bank := ⟨0, 0, 0, 0, .u, false, 0⟩

/-- An empty accumulator row (09 R202). -/
def AccRow.empty : AccRow := ⟨-32768, 47, false, false, 0, []⟩

/-- A free convergence register (12 R251). -/
def CvReg.free : CvReg := ⟨false, false, 0, 0, 0, 0, 0, []⟩

/-- A die at reset (16 R373, 05 R105, 04 R88, 17 R385). -/
def Die.reset : Die :=
  { cyc := 0, kvec := 0, fvec := 0, kroot := 0, swapthr := 20000#32,
    fltSz := 0, fltStall := false, fltRetry := false, fltBase := 0, fltw := 0, flth := 0, fltt := 0,
    layNew := 0, layOld := 0, mcSz := 0, mcBase := 0, mch := 0, mct := 0, mcWait := [], fidSeq := 0,
    arnBase := 0, arnCount := 0, arnEn := false, arnBadw := false,
    strStop := 28, strResume := 20, strBadw := false, strStopped := false,
    gated := false, idle := 0, kettle := [], entry := [], fwTeam := none }

/-- A port at reset (04 R77). -/
def Port.reset : Port := ⟨40, 24, false, false, false, false, false, 0, 0, 0, false, false⟩

/-- A queue at reset (15 R330). -/
def Queue.reset : Queue :=
  { base := 0, en := false, halt := false, fn := 0, die := 0, qsz := 0, asid := 0, key := 0, err := 0,
    head := 0, tail := 0, ptroot := 0, block := .free, arms := [] }

/-- The pins, flash and links that `State.reset` shows (log 3): module 0, a valid image, no CXL memory, alone in its domain. -/
def Pins.reset : Pins :=
  { devid := 0, image := ⟨true, 1, 1, 0, 0, 0⟩, cxl := [0, 0, 0, 0, 0, 0, 0, 0], peerCxl := [], devs := [0], partners := [] }

/-- The module registers at reset (17 R390, R391, 16 R373). -/
def Module.reset : Module :=
  { ready := false, repl := false, stage := 0, ucores := 380, clus := 96, frozen := false, dev := 0, published := false,
    poolCount := 0, poolBase := 0, outCores := [], outClus := [], clkSteps := 0, resetting := [] }

/-- The machine right after reset: nothing booted, nothing placed, memory with nothing listed. -/
def State.reset : State :=
  { agenda := [], cur := none, issued := [], mem := [], memTag := [], frameTag := [], cache := [], dir := [], invals := [], invalAt := [], againAt := [],
    loads := [], stores := [], traps := [], asks := [], unanswered := [], tlb := [], walks := [], faults := [], arenas := [], arenaGen := [], keys := [], peerKeys := [], teams := [], nodes := [],
    slots := [], slotDue := [], retired := [], chains := [], served := [], accRows := [], streams := [], rgetQ := [], acgQ := [], reserve := [], shuffles := [], side := [],
    strainer := [], bfqs := [], wakes := [], dies := [Die.reset, Die.reset, Die.reset, Die.reset], ports := List.replicate 32 Port.reset,
    queues := [], mgmtIn := [], mgmtDue := [], sent := [], outbox := [], carve := [], module := Module.reset,
    sem := ⟨0, 0, false, 0⟩, pins := Pins.reset, nextId := 0, clock := 0, freeCtr := 0 }

end Sys2Proof.Machine
end

