-- ==== Sys2Proof/Machine/Maps.lean ====
section
/-! DEFINITION. Sparse maps and the plain list operations that the machine uses.

A sparse map is canonical: keys strictly rising, no entry equal to the default. Memory is one of them (03 R63). -/

namespace Sys2Proof.Machine

/-- The value at key `k`; `d` where none is listed. -/
def Sparse.get {α : Type} (d : α) : Sparse α → Nat → α
  | [], _ => d
  | (k', v) :: t, k => if k' = k then v else Sparse.get d t k

/-- The map with nothing at key `k`. -/
def Sparse.drop {α : Type} (m : Sparse α) (k : Nat) : Sparse α := m.filter fun e => e.1 != k

/-- The map with `v` put at key `k`, whatever `v` is. -/
def Sparse.put {α : Type} : Sparse α → Nat → α → Sparse α
  | [], k, v => [(k, v)]
  | (k', v') :: t, k, v =>
    if k' = k then (k, v) :: t else if k < k' then (k, v) :: (k', v') :: t else (k', v') :: Sparse.put t k v

/-- The map with the value `v` at `k`, canonical for default `d`. -/
def Sparse.set {α : Type} [DecidableEq α] (d : α) (m : Sparse α) (k : Nat) (v : α) : Sparse α :=
  if v = d then Sparse.drop m k else Sparse.put m k v

/-- The map with every value changed by `f`, which keeps the default. -/
def Sparse.mapVals {α : Type} [DecidableEq α] (d : α) (f : α → α) (m : Sparse α) : Sparse α :=
  m.foldr (fun e acc => Sparse.set d acc e.1 (f e.2)) []

/-- Whether key `k` is listed. -/
def Sparse.has {α : Type} : Sparse α → Nat → Bool
  | [], _ => false
  | (k', _) :: t, k => k' == k || Sparse.has t k

/-- Keys strictly rising, from above `lo`. -/
def Sparse.risingFrom {α : Type} : Option Nat → Sparse α → Bool
  | _, [] => true
  | none, (k, _) :: t => Sparse.risingFrom (some k) t
  | some lo, (k, _) :: t => decide (lo < k) && Sparse.risingFrom (some k) t

/-- The canonical form for default `d`. -/
def Sparse.wf {α : Type} [DecidableEq α] (d : α) (m : Sparse α) : Bool :=
  Sparse.risingFrom none m && m.all (fun e => decide (e.2 ≠ d))

/-- A byte of memory; a byte that nothing has written reads 0 (log 1). -/
def Memory.read (m : Memory) (a : Nat) : Byte := Sparse.get 0#8 m a

/-- Writes one byte. -/
def Memory.write (m : Memory) (a : Nat) (b : Byte) : Memory := Sparse.set 0#8 m a b

/-- The canonical form of a memory. -/
def Memory.wf (m : Memory) : Bool := Sparse.wf 0#8 m

/-- Writes bytes at rising addresses. -/
def Memory.writeList : Memory → Nat → List Byte → Memory
  | m, _, [] => m
  | m, a, b :: bs => Memory.writeList (m.write a b) (a + 1) bs

/-! ### Bytes and words, little-endian (00 R8) -/

/-- The number that bytes spell, lowest first. -/
def bytesNat : List Byte → Nat
  | [] => 0
  | b :: bs => b.toNat + 256 * bytesNat bs

/-- The `n` low bytes of a number, lowest first. -/
def natBytes : Nat → Nat → List Byte
  | 0, _ => []
  | n + 1, x => BitVec.ofNat 8 x :: natBytes n (x / 256)

/-- The numbers 0 to n − 1 as addresses from `a`. -/
def addrs (a n : Nat) : List Nat := (List.range n).map (a + ·)

/-! ### Lists -/

/-- Changes element `i`, if there is one. -/
def updAt {α : Type} : List α → Nat → (α → α) → List α
  | [], _, _ => []
  | x :: t, 0, f => f x :: t
  | x :: t, n + 1, f => x :: updAt t n f

/-- Changes the last element, if there is one. -/
def updLast {α : Type} : List α → (α → α) → List α
  | [], _ => []
  | [x], f => [f x]
  | x :: t, f => x :: updLast t f

/-- Changes the elements that satisfy `p`. -/
def updIf {α : Type} (l : List α) (p : α → Bool) (f : α → α) : List α :=
  l.map fun x => if p x then f x else x

/-- The least element by `key`, the first one of equals. -/
def minBy {α : Type} (key : α → Nat) : List α → Option α
  | [] => none
  | x :: t =>
    match minBy key t with
    | none => some x
    | some y => if key y < key x then some y else some x

/-- Inserts into a list in rising order of `key`, after equals. -/
def insertBy {α : Type} (key : α → Nat) (x : α) : List α → List α
  | [] => [x]
  | y :: t => if key x < key y then x :: y :: t else y :: insertBy key x t

/-- Sorts by `key`, keeping the order of equals. -/
def sortBy {α : Type} (key : α → Nat) (l : List α) : List α := l.foldl (fun acc x => insertBy key x acc) []

/-- The list without repeats, first occurrences kept. -/
def dedupNat : List Nat → List Nat
  | [] => []
  | x :: t => x :: (dedupNat t).filter (· != x)

/-- The bit mask of a list of lanes. -/
def maskOf (lanes : List Nat) : DWord := lanes.foldl (fun m l => m ||| (1#64 <<< l)) 0

/-- The lanes of a mask, rising. -/
def lanesOf (m : DWord) : List Nat := (List.range 64).filter fun l => m.getLsbD l

/-- The sum of a list. -/
def sumNat (l : List Nat) : Nat := l.foldl (· + ·) 0

/-- The largest of a list, 0 for none. -/
def maxNat (l : List Nat) : Nat := l.foldl max 0

/-- Rounds `a` down to a multiple of `n`. -/
def alignDown (a n : Nat) : Nat := a / n * n

end Sys2Proof.Machine
end

