-- ==== Sys2Proof/Machine/Flags.lean ====
section
/-! DEFINITION. Bits computed from values: integer values and patterns, comparisons, carries and borrows.

Lorxo keeps no condition flags (10 R205): a comparison, a carry and a borrow are results of 0 or 1 in a register.
Rules of spec/: 02 R61; 10 R206, R209, R219. -/

namespace Sys2Proof.Machine

/-- `uint` of the low `w` bits. -/
def uintW (w : Nat) (x : DWord) : Nat := x.toNat % 2 ^ w

/-- `sint` of the low `w` bits. -/
def sintW (w : Nat) (x : DWord) : Int :=
  let u := uintW w x
  if 2 * u < 2 ^ w then (u : Int) else (u : Int) - 2 ^ w

/-- v(x) of 10 R208: signed for a `.s` type. -/
def valW (signed : Bool) (w : Nat) (x : DWord) : Int := if signed then sintW w x else (uintW w x : Int)

/-- `bits(y, w − 1, 0)` of an exact integer. -/
def patW (w : Nat) (y : Int) : DWord := BitVec.ofInt 64 (y % 2 ^ w)

/-- `bits(y, 2w − 1, w)` of an exact integer. -/
def patHiW (w : Nat) (y : Int) : DWord := BitVec.ofInt 64 (y / 2 ^ w % 2 ^ w)

/-- 1 or 0. -/
def bit01 (b : Bool) : DWord := if b then 1 else 0

/-- The carry out of `a + b + ci` at `w` bits (10 R209). -/
def carryOut (w a b ci : Nat) : Bool := decide (2 ^ w ≤ a + b + ci)

/-- The borrow out of `a − b − ci` (10 R209). -/
def borrowOut (a b ci : Nat) : Bool := decide (a < b + ci)

/-- The comparisons of `icmp` (10 R219). -/
def icmpHolds (cc : ICmp) (a b : Int) : Bool :=
  match cc with
  | .eq => decide (a = b)
  | .ne => decide (a ≠ b)
  | .lt => decide (a < b)
  | .le => decide (a ≤ b)
  | .gt => decide (b < a)
  | .ge => decide (b ≤ a)

/-- `sat(x, lo, hi)` of 02 R61. -/
def satInt (x lo hi : Int) : Int := if x < lo then lo else if hi < x then hi else x

end Sys2Proof.Machine
end

