-- ==== Sys2Proof/WellFormed.lean ====
section
/-! DEFINITION. Which instructions an encoding admits: the conditions that R35 to R48, R53, R54 of spec/02 and the encoding tables of
the instruction pages put on the fields of a word, beyond what the types of `Instr` already say. -/

namespace Sys2Proof

/-- The width of an integer type, 02 R44 and 10 R206. -/
def IntTy.w : IntTy → Nat
  | .s64 | .b64 => 64
  | _ => 32

/-- Whether a `.s` type (10 R206). -/
def IntTy.signed : IntTy → Bool
  | .s8 | .s16 | .s32 | .s64 => true
  | _ => false

/-- The width at which `.b64` and the other types of the helper range are read, 11 R236. -/
def NTy.w : NTy → Nat
  | .b64 => 64
  | _ => 32

/-- Bytes of a memory width, 02 R47. -/
def MemW.bytes : MemW → Nat
  | .b8 | .s8 => 1
  | .b16 | .s16 => 2
  | .b32 => 4
  | .b64 => 8

/-- The width in bits of the register access of a memory width. -/
def MemW.w : MemW → Nat
  | .b64 => 64
  | _ => 32

/-- A source field at read width `w`, 02 R38. -/
def Src.ok (w : Nat) : Src → Bool
  | .v n => w != 64 || n.toNat % 2 == 0
  | .q _ => w != 64
  | _ => true

/-- A destination field at result width `w`, 02 R37; a 64-bit result goes to target 00 alone (08 R181, 10 R207, 11 R236). -/
def Dst.ok (w : Nat) : Dst → Bool
  | .v n => w != 64 || n.toNat % 2 == 0
  | .vq _ => w != 64
  | .q _ => w != 64
  | .lr => w != 64

/-- A second source at read width `w`: the literal's high half is zero at 32 bits, 02 R48. -/
def SrcB.ok (w : Nat) : SrcB → Bool
  | .src s => s.ok w
  | .lit l => w == 64 || l.toNat < 2 ^ 32

/-- A memory offset whose literal is read at `w` bits, 06 R122. -/
def Off.ok (w : Nat) : Off → Bool
  | .imm _ => true
  | .lit l => w == 64 || l.toNat < 2 ^ 32

/-- An even register index. -/
def RegIx.isEven (r : RegIx) : Bool := r.toNat % 2 == 0

/-- A main-file destination of `w` bits, target 00. -/
def RegIx.ok (w : Nat) (r : RegIx) : Bool := w != 64 || r.isEven

/-- A source at level 00 or 10 (14 R317, `bri`). -/
def Src.isTarget : Src → Bool
  | .v n => n.isEven
  | .lr => true
  | _ => false

/-- A source at level 00, read at `w` bits. -/
def Src.isReg (w : Nat) : Src → Bool
  | .v n => n.ok w
  | _ => false

/-- The types `s32 b32 s64 b64` of 10 R207. -/
def IntTy.full (t : IntTy) : Bool := t == .s32 || t == .b32 || t == .s64 || t == .b64
/-- The types `b32 b64`. -/
def IntTy.bits (t : IntTy) : Bool := t == .b32 || t == .b64
/-- The types `s32 s64`. -/
def IntTy.signs (t : IntTy) : Bool := t == .s32 || t == .s64
/-- The scalar formats `f32 f16 bf16` of 11 R225. -/
def Fmt.scalar (f : Fmt) : Bool := f == .f32 || f == .f16 || f == .bf16
/-- The packed formats `f16x2 bf16x2`. -/
def Fmt.packed (f : Fmt) : Bool := f == .f16x2 || f == .bf16x2
/-- The types `b32 b64` of 11 R236. -/
def NTy.bits (t : NTy) : Bool := t == .b32 || t == .b64
/-- The types `i8 n8 i4 n4`. -/
def NTy.narrow (t : NTy) : Bool := t == .i8 || t == .n8 || t == .i4 || t == .n4
/-- The types `s32 b32 f32`. -/
def NTy.scalar (t : NTy) : Bool := t == .s32 || t == .b32 || t == .f32
/-- Integer element formats (11 R231). -/
def EFmt.isInt : EFmt → Bool
  | .i8 | .i4 | .i16 | .i32 | .u32 => true
  | _ => false
/-- The result width of `iaddc` (10 R207). -/
def AddcOp.w (t : IntTy) : AddcOp → Nat
  | .sum | .dif => t.w
  | .co | .bo => 32
/-- The source width of `isat` (10 R207). -/
def SatSrc.w : SatSrc → Nat
  | .ws | .wu => 32
  | .ds | .du => 64
/-- The width of a special value, 08 R182. -/
def SrdSel.w : SrdSel → Nat
  | .item | .cyc => 64
  | _ => 32
/-- The width of a system register, 16 R372. -/
def SySel.w : SySel → Nat
  | .cause | .status | .kCause | .kStatus | .asid | .owner | .capf | .swapthr | .fltw | .flth | .fltt | .layout | .mch | .mct => 32
  | _ => 64

/-! ### P-form, 02 R53 to R55 -/

/-- Whether an operation lies on pipe X (02 R55). -/
def PairOp.pipeX : PairOp → Bool
  | .fadd | .fsub | .fmul | .fmin | .fmax | .hadd2 | .hmul2 | .hmin2 | .hmax2 | .imul | .imulh | .imin | .imax => true
  | _ => false

/-- Whether an operation is unary (02 R55, column U). -/
def PairOp.unary : PairOp → Bool
  | .mov | .ineg | .iabs | .clz | .popc | .brev | .cvtF32S32 | .cvtS32F32 | .cvtF32B32 | .cvtB32F32
  | .cvtF32Bf16 | .cvtBf16F32 | .cvtF32F16 | .cvtF16F32 => true
  | _ => false

/-- The types an operation accepts (02 R55). -/
def PairOp.okTy : PairOp → PairTy → Bool
  | .fadd, .f32 | .fsub, .f32 | .fmul, .f32 | .fmin, .f32 | .fmax, .f32 => true
  | .hadd2, t | .hmul2, t | .hmin2, t | .hmax2, t => t == .f16x2 || t == .bf16x2
  | .imul, t | .imulh, t | .imin, t | .imax, t | .iadd, t | .isub, t => t == .s32 || t == .b32
  | .and, .b32 | .or, .b32 | .xor, .b32 | .andn, .b32 | .shl, .b32 | .shr, .b32 | .rol, .b32
  | .mov, .b32 | .clz, .b32 | .popc, .b32 | .brev, .b32 => true
  | .sar, .s32 | .ineg, .s32 | .iabs, .s32 => true
  | .cvtF32S32, .fixed | .cvtS32F32, .fixed | .cvtF32B32, .fixed | .cvtB32F32, .fixed
  | .cvtF32Bf16, .fixed | .cvtBf16F32, .fixed | .cvtF32F16, .fixed | .cvtF16F32, .fixed => true
  | _, _ => false

/-- The operations marked "rounding" in 02 R55. -/
def PairOp.rounds : PairOp → Bool
  | .fadd | .fsub | .fmul | .hadd2 | .hmul2 | .cvtF32S32 | .cvtS32F32 | .cvtF32B32 | .cvtB32F32 | .cvtBf16F32 | .cvtF16F32 => true
  | _ => false

/-- Step 4 of 02 R57 for one slot. -/
def Slot.ok (s : Slot) : Bool := s.op.okTy s.ty && (s.op.rounds || s.rm == .rne)

/-- Two main-file indices in different banks (02 R54). -/
def banksDiffer (m n : RegIx) : Bool := m.toNat % 4 != n.toNat % 4

/-- The pairing rules of 02 R54. -/
def pairOk (a b : Slot) : Bool :=
  banksDiffer a.d b.d
    && (match a.s, b.s with
        | .v m, .v n => banksDiffer m n
        | _, _ => true)
    && (a.op.pipeX != b.op.pipeX)

/-! ### Records and packets -/

/-- A scratchpad address holds its offset in bits [31:0], and bits [63:32] are zero (07 R142). -/
def spOk (sp : Bool) (a : DWord) : Bool := !sp || a.toNat < 2 ^ 32

/-- A MOVE record without a chain error of its own fields, 07 R142, R144. -/
def MoveRec.ok (r : MoveRec) : Bool :=
  r.len0 != 0 && r.cnt1 != 0 && r.cnt2 != 0 && spOk r.ssp r.src && spOk r.dsp r.dst

/-- MCAST, 07 R146. The carve-out bounds LEN when the record runs. -/
def McastRec.ok (r : McastRec) : Bool := r.mask != 0 && r.len != 0 && spOk r.ssp r.src

/-- LOOP, 07 R148. -/
def LoopRec.ok (r : LoopRec) : Bool := r.cnt != 0 && r.back != 0 && r.back.toNat ≤ 32767

/-- Whether an element format is 4 bits wide (09 R184). -/
def EFmt.is4 (f : EFmt) : Bool := f == .n4 || f == .i4

/-- CONV, 07 R150. -/
def ConvRec.ok (r : ConvRec) : Bool :=
  r.sfmt != .u32 && r.dfmt != .u32 && r.cnt != 0
    && (!(r.sfmt.is4 || r.dfmt.is4) || r.cnt.toNat % 2 == 0)
    && spOk r.ssp r.src && spOk r.dsp r.dst

/-- SAMPLE, 07 R151; DST is ignored when OUT = 0. -/
def SampleRec.ok (r : SampleRec) : Bool :=
  r.row.toNat < 512 && r.nr != 0 && r.row.toNat + r.nr.toNat ≤ 512 && r.ncol != 0 && r.ncol.toNat ≤ 128
    && spOk (r.out && r.dsp) r.dst && spOk r.csp r.crec

/-- CSEND, 07 R154. -/
def CsendRec.ok (r : CsendRec) : Bool := r.nblk != 0 && r.dev.toNat < 900 && spOk r.ssp r.src

/-- SIG, 07 R155. -/
def SigRec.ok (r : SigRec) : Bool := (!r.dsp || r.ops == .store) && spOk r.dsp r.addr

/-- One arena request in range, 15 R333. -/
def AReq.ok (a : AReq) : Bool := a.frames.toNat ≤ 256

/-- A LAUNCH whose fields lie in their ranges, 15 R333; the published number of cores bounds NTEAM further. -/
def LaunchPkt.ok (p : LaunchPkt) : Bool :=
  p.nteam != 0 && p.nteam.toNat ≤ (if p.pair then 190 else 380) && p.gw != 3
    && p.regs != 0 && p.regs.toNat ≤ 16 && p.scr.toNat ≤ 4 && p.acc.toNat ≤ (if p.pair then 32 else 16)
    && p.entry.toNat % 8 == 0 && p.entry.toNat < 2 ^ 57 && p.args.toNat % 64 == 0 && p.nexp != 0
    && p.areq0.ok && p.areq1.ok && p.areq2.ok && p.areq3.ok && p.cls != 3
    && (if p.list then p.ny == 1 && p.nz == 1
        else p.nx != 0 && p.nx.toNat ≤ 2 ^ 24 && p.ny != 0 && p.ny.toNat ≤ 2 ^ 24 && p.nz != 0)

/-! ### All instructions -/

/-- A guarded word with a destination and two sources at the widths given. -/
def ok3 (wd : Nat) (d : Dst) (wa : Nat) (a : Src) (wb : Nat) (b : SrcB) : Bool := d.ok wd && a.ok wa && b.ok wb

/-- An instruction that some word, record or event stands for. -/
def Instr.wf : Instr → Bool
  | .br _ b | .bar _ b _ | .barArr _ b _ => b.ok 32
  | .bri _ a | .ret _ a => a.isTarget
  | .call _ d b => d.isEven && b.ok 32
  | .calli _ d a => d.isEven && a.isTarget
  | .nap _ _ l _ => l.ok 32
  | .ntfy _ _ v _ => v.ok 32
  | .take _ d _ | .takeG _ d _ => d.isEven
  | .relabel _ b _ => b.ok 32
  | .stOrd _ _ w a o c => w != .s8 && w != .s16 && a.ok 64 && o.ok 64 && c.ok w.w
  | .itemi _ _ a b _ => a.ok 64 && b.ok 32
  | .flowi _ _ b cls => b.ok 32 && cls != 3
  | .iadd _ t d a b | .isub _ t d a b | .imul _ t d a b | .imulh _ t d a b | .idiv _ t d a b | .irem _ t d a b
  | .imin _ t d a b | .imax _ t d a b => t.full && ok3 t.w d t.w a t.w b
  | .iaddc _ op t d a b c => t.bits && ok3 (op.w t) d t.w a t.w b && c.ok 32
  | .imad _ t d a b c | .imadh _ t d a b c => t.full && ok3 t.w d t.w a t.w b && c.ok t.w
  | .iabs _ t d a | .ineg _ t d a => t.signs && d.ok t.w && a.ok t.w
  | .and _ t d a b | .or _ t d a b | .xor _ t d a b | .andn _ t d a b => t.bits && ok3 t.w d t.w a t.w b
  | .shl _ t d a b | .shr _ t d a b | .rol _ t d a b => t.bits && ok3 t.w d t.w a 32 b
  | .sar _ t d a b => t.signs && ok3 t.w d t.w a 32 b
  | .clz _ t d a | .ctz _ t d a | .popc _ t d a => t.bits && d.ok 32 && a.ok t.w
  | .brev _ t d a | .mov _ t d a => t.bits && d.ok t.w && a.ok t.w
  | .bfe _ t d a b => t.full && ok3 t.w d t.w a 32 b
  | .bfi _ t d a b c => t.bits && ok3 t.w d t.w a 32 b && c.ok t.w
  | .bsel _ t d a b c => t == .b32 && ok3 32 d 32 a 32 b && c.ok 32
  | .sel _ t d a b c => t.bits && ok3 t.w d t.w a t.w b && c.ok 32
  | .icmp _ _ t d a b => t.full && ok3 32 d t.w a t.w b
  | .isat _ s t d a => t.w == 32 && d.ok 32 && a.ok s.w
  | .add64 _ d a b | .sub64 _ d a b => ok3 64 d 64 a 64 b
  | .lea64 _ _ d a b _ => ok3 64 d 64 a 32 b
  | .movi _ t d b => t.full && d.ok t.w && b.ok t.w
  | .pairWord a b => a.ok && b.ok && pairOk a b
  | .fadd _ f _ d a b | .fsub _ f _ d a b | .fmul _ f _ d a b | .fmin _ f d a b | .fmax _ f d a b
  | .fcmp _ _ f d a b => f.scalar && ok3 32 d 32 a 32 b
  | .ffma _ f _ d a b c => f.scalar && ok3 32 d 32 a 32 b && c.ok 32
  | .fcls _ f d a => !f.packed && d.ok 32 && a.ok 32
  | .frnd _ f _ d a => f.scalar && d.ok 32 && a.ok 32
  | .fcvt _ df sf _ d a => !(df.isInt && sf.isInt) && d.ok 32 && a.ok 32
  | .fpk _ f _ d a b => (f == .f16 || f == .bf16) && ok3 32 d 32 a 32 b
  | .fpkN8 _ _ _ d a b c => ok3 32 d 32 a 32 b && c.ok 32
  | .hadd2 _ f _ d a b | .hmul2 _ f _ d a b | .hmin2 _ f d a b | .hmax2 _ f d a b => f.packed && ok3 32 d 32 a 32 b
  | .hfma2 _ f _ d a b c => f.packed && ok3 32 d 32 a 32 b && c.ok 32
  | .sfuRcp _ d a | .sfuRsq _ d a | .sfuSqrt _ d a | .sfuExp2 _ d a | .sfuLog2 _ d a | .sfuSin _ d a | .sfuCos _ d a
  | .sfuTanh _ d a => d.ok 32 && a.ok 32
  | .dot4 _ t rm d a b c => (t == .n8 || t == .i8 && rm == .rne) && ok3 32 d 32 a 32 b && c.ok 32
  | .dot8 _ t rm d a b c => (t == .n4 || t == .i4 && rm == .rne) && ok3 32 d 32 a 32 b && c.ok 32
  | .bscl _ _ d a b c => ok3 32 d 32 a 32 b && c.ok 32
  | .bexp _ t d a => t.narrow && d.ok 32 && a.ok 32
  | .mexp _ t d a b => t.narrow && ok3 32 d 32 a 32 b
  | .cmpr _ t d a b | .expd _ t d a b | .lxch _ _ t d a b => t.bits && ok3 t.w d t.w a 32 b
  | .vote _ op d a => d.ok (if op == .ballot then 64 else 32) && a.ok 32
  | .scan _ _ _ t d a => t.scalar && d.ok 32 && a.ok 32
  | .matchL _ _ t d a => t.bits && d.ok 64 && a.ok t.w
  | .cxch _ t d a b => t.scalar && ok3 32 d 32 a 32 b
  | .spk24 _ t d a | .sxp24 _ t d a => (t == .i8 || t == .n8) && d.ok 32 && a.ok 32
  | .ffs _ t d a b => t.bits && ok3 32 d t.w a 32 b
  | .ld _ w d a o => d.ok w.w && a.ok 64 && o.ok 64
  | .st _ w a o c => w != .s8 && w != .s16 && a.ok 64 && o.ok 64 && c.ok w.w
  | .lds _ w d a o => d.ok w.w && a.ok 32 && o.ok 32
  | .sts _ w a o c => w != .s8 && w != .s16 && a.ok 32 && o.ok 32 && c.ok w.w
  | .ldAcq _ _ w d a o => d.ok w.w && a.ok 64 && o.ok 64
  | .stRel _ _ w a o c => w != .s8 && w != .s16 && a.ok 64 && o.ok 64 && c.ok w.w
  | .atom _ op _ _ w64 d a b =>
      let w := if w64 then 64 else 32
      d.ok w && a.ok 64 && b.ok w
        && (match op, b with
            | .cas, .src (.v n) => n.toNat + 2 * (w / 32) ≤ 256
            | .cas, _ => false
            | _, _ => true)
  | .atomBnd _ _ w64 d a b => let w := if w64 then 64 else 32; d.ok w && a.ok 64 && b.ok w
  | .atomTopk _ _ _ _ _ a b => a.ok 64 && b.toNat + 2 ≤ 256
  | .red _ op _ _ w64 a b => op != .xchg && op != .cas && a.ok 64 && b.ok (if w64 then 64 else 32)
  | .pfL1 _ a o | .pfL2 _ a o => a.ok 64 && o.ok 64
  | .cpGo _ _ a => a.ok 64
  | .move _ r => r.ok
  | .mcast _ r => r.ok
  | .loop _ r => r.ok
  | .conv _ r => r.ok
  | .sample _ r => r.ok
  | .csend _ r => r.ok
  | .sig _ r => r.ok
  | .launch q p => q < 256 && p.ok
  | .wait q a _ | .signal q _ a _ => q < 256 && a.toNat % 4 == 0
  | .pred q _ na nb a _ => q < 256 && na ≤ 127 && nb ≤ 127 && a.toNat % 4 == 0
  | .shfOpen _ _ a b => a.ok 64 && b.ok 32
  | .shfSide _ _ a b c => a.ok 64 && b.ok 32 && c.ok 32
  | .shfDrop _ _ a b => a.ok 32 && b.ok 32
  | .shfClose _ _ b => b.ok 32
  | .arnChk _ _ a => a.ok 32
  | .arnWin _ d a => d.isEven && a.ok 32
  | .cwb _ _ a b | .cinv _ a b | .cdrop _ a b => a.ok 64 && b.ok 32
  | .cvd _ _ b => b.ok 32
  | .cvdMask _ _ b => b.ok 64
  | .mma _ _ _ _ b c => b.ok 32 && c.ok 32
  | .acg _ _ b | .acp _ b => b.ok 32
  | .acz _ a b | .acn _ a b => a.ok 32 && b.ok 32
  | .ach _ _ a => a.ok 32
  | .acr _ f _ a b | .acw _ f a _ b => f != .u32 && a.ok 32 && b.ok 32
  | .acrImg _ a b | .acwImg _ a b => a.ok 32 && b.ok 32
  | .rget _ b | .rput _ b => b.ok 32
  | .srd _ d z => d.ok z.w
  | .bfqPost _ _ a b => a.ok 64 && b.ok 32
  | .bfqTake _ _ a b c => a.ok 32 && b.ok 32 && c.ok 32
  | .bfqDone _ _ a | .bfqDoneWd _ _ a => a.ok 32
  | .trap _ b | .brk _ b => b.ok 32
  | .syr _ d z => d.ok z.w
  | .syw _ a z => a.ok z.w
  | .tlbi _ _ a b c => a.ok 64 && b.ok 32 && (match c with | some r => r.isEven | none => true)
  | .pfack _ _ a b => a.ok 32 && b.ok 32
  | .ctxsv _ _ a b => a.ok 64 && b.ok 32
  | .ctxld _ _ a => a.ok 32
  | .keyld _ _ a b => a.ok 32 && (match b with | .src s => s.isReg 64 | .lit _ => true)
  | .fwqPull _ _ a | .fwqPush _ _ a | .fwqAct _ _ a _ => a.isEven
  | _ => true

end Sys2Proof
end

