-- ==== Sys2Proof/Machine/Ops.lean ====
section
/-! DEFINITION. The named operations over the state: teams, groups and threads, registers and claims, taking a trap and returning
from one, and the order of the checks of one instruction (16 R353).

Rules of spec/: 00 R2; 02 R36, R58, R60, R62; 08 R168 to R176; 14 R294 to R296; 16 R350 to R353, R373, R376. -/

namespace Sys2Proof.Machine

/-- The outcome of a meaning. -/
abbrev Out := Host.Outcome State Fault Refusal

/-! ### Numbers of cores, dies and clusters, 00 R2 -/

/-- The die of a core. -/
def dieOfCore (core : Nat) : Nat := core / Config.coresPerDie
/-- The cluster of a core within its die. -/
def cluInDie (core : Nat) : Nat := core % Config.coresPerDie / 4
/-- The cluster of a core within the module: its engine. -/
def cluOfCore (core : Nat) : Nat := core / 4
/-- The die of an engine. -/
def dieOfClu (clu : Nat) : Nat := clu / Config.cluPerDie
/-- The firmware core of each die: core 0 of cluster 0. -/
def isFwCore (core : Nat) : Bool := core % Config.coresPerDie == 0

/-! ### Access to teams, groups and threads -/

/-- A shadow of no lane. -/
def Thread.blank : Thread :=
  { pc := 0, yielded := false, exited := true, starve := 0, regs := [], qf := [], lr := 0, claim := 0, pend := [], item := none,
    hold := .none, waitLen := 8, heldK := false, heldF := false, fetchPark := none, arrived := [], latch := [], acqT := 0, enq := 0, shadowK := .zero, shadowF := .zero }

/-- A group of no team. -/
def Group.blank : Group :=
  { lanes := [], level := .u, blocks := 0, loads := 0, stores := 0, copies := 0, tiles := 0, fenced := 0, bankK := .zero, bankF := .zero,
    offer := none, counts := [], waited := 0, pcore := 0 }

/-- A team of no node. -/
def Team.blank : Team :=
  { node := 0, num := 0, place := .gone, cores := [], slot := 0, width := 0, groups := [], scr := 0, scratch0 := [], scratch1 := [], acc0 := 0,
    rows := [], cvs := [], bars := [], notify := [], caddy := [], reqs := [], flows := [], waitCount := 0, capf := 0, batchRows := 0,
    saving := none, savedAt := none, tried := false, begun := false }

/-- Team `ti`. -/
def State.team (s : State) (ti : Nat) : Team := s.teams.getD ti .blank
/-- Group `gi` of a team. -/
def Team.group (t : Team) (gi : Nat) : Group := t.groups.getD gi .blank
/-- Lane `l` of a group. -/
def Group.lane (g : Group) (l : Nat) : Thread := g.lanes.getD l .blank
/-- Group `gi` of team `ti`. -/
def State.group (s : State) (ti gi : Nat) : Group := (s.team ti).group gi
/-- One thread. -/
def State.thread (s : State) (ti gi l : Nat) : Thread := (s.group ti gi).lane l
/-- Die `d`. -/
def State.die (s : State) (d : Nat) : Die := s.dies.getD d .reset

/-- Changes a lane of a group. -/
def Group.modLane (g : Group) (l : Nat) (f : Thread → Thread) : Group := { g with lanes := updAt g.lanes l f }
/-- Changes several lanes of a group. -/
def Group.modLanes (g : Group) (ls : List Nat) (f : Nat → Thread → Thread) : Group :=
  { g with lanes := g.lanes.mapIdx fun l t => if ls.contains l then f l t else t }
/-- Changes a team. -/
def State.modTeam (s : State) (ti : Nat) (f : Team → Team) : State := { s with teams := updAt s.teams ti f }
/-- Changes a group. -/
def State.modGroup (s : State) (ti gi : Nat) (f : Group → Group) : State :=
  s.modTeam ti fun t => { t with groups := updAt t.groups gi f }
/-- Changes a thread. -/
def State.modThread (s : State) (ti gi l : Nat) (f : Thread → Thread) : State := s.modGroup ti gi fun g => g.modLane l f
/-- Changes several threads of a group, each by a function of its lane. -/
def State.modLanes (s : State) (ti gi : Nat) (ls : List Nat) (f : Nat → Thread → Thread) : State :=
  s.modGroup ti gi fun g => g.modLanes ls f
/-- Changes a die. -/
def State.modDie (s : State) (d : Nat) (f : Die → Die) : State := { s with dies := updAt s.dies d f }

/-- The core on which a group runs (12 R268, 14 R294; log 9). -/
def Team.coreOf (t : Team) (g : Group) : Nat := t.cores.getD g.pcore (t.cores.getD 0 0)
/-- The core on which group `gi` of team `ti` runs. -/
def State.coreOf (s : State) (ti gi : Nat) : Nat := (s.team ti).coreOf (s.group ti gi)
/-- The node of a team. -/
def State.nodeOf (s : State) (ti : Nat) : Option Node := s.nodes[(s.team ti).node]?
/-- The address space of a team (15 R330). -/
def State.asidOf (s : State) (ti : Nat) : Nat := match s.nodeOf ti with | some n => n.asid | none => 0
/-- The owner key id of a team. -/
def State.keyOf (s : State) (ti : Nat) : Nat := match s.nodeOf ti with | some n => n.key | none => 0
/-- The page-table root of a team. -/
def State.rootOf (s : State) (ti : Nat) : DWord := match s.nodeOf ti with | some n => n.ptroot | none => 0
/-- The cycle counter of the die on which a group runs. -/
def State.cycOf (s : State) (ti gi : Nat) : Nat := (s.die (dieOfCore (s.coreOf ti gi))).cyc
/-- A number for a new operation. -/
def State.fresh (s : State) : Nat × State := (s.nextId, { s with nextId := s.nextId + 1 })

/-! ### Registers of a thread, 08 R168, R174, 02 R49 -/

/-- Register v`n`. -/
def Thread.v (t : Thread) (n : Nat) : Word := Sparse.get 0#32 t.regs n
/-- Pair d`n`. -/
def Thread.d (t : Thread) (n : Nat) : DWord := pairOf (t.v (n + 1)) (t.v n)
/-- Operand-file entry q`n`. -/
def Thread.q (t : Thread) (n : Nat) : Word := Sparse.get 0#32 t.qf n
/-- Writes v`n`; a latched copy is dropped (08 R177). -/
def Thread.setV (t : Thread) (n : Nat) (x : Word) : Thread :=
  { t with regs := Sparse.set 0#32 t.regs n x, latch := Sparse.drop t.latch n }
/-- Writes a pair. -/
def Thread.setD (t : Thread) (n : Nat) (x : DWord) : Thread := (t.setV n (loWord x)).setV (n + 1) (hiWord x)
/-- Writes a main-file result of `w` bits, 02 R62. -/
def Thread.setVW (t : Thread) (w n : Nat) (x : DWord) : Thread := if w = 64 then t.setD n x else t.setV n (loWord x)
/-- Writes q`n`. -/
def Thread.setQ (t : Thread) (n : Nat) (x : Word) : Thread := { t with qf := Sparse.set 0#32 t.qf n x }
/-- Whether the thread may be selected (14 R296). -/
def Thread.ready (t : Thread) : Bool :=
  !t.exited && t.hold == .none && !t.heldK && !t.heldF && t.fetchPark.isNone
/-- Whether a register's write is still to come (08 R175). -/
def Thread.isPending (t : Thread) (r : Nat) : Bool := t.pend.any fun p => p.reg == r
/-- A lane that waited goes on at the next word; one that a trap bank holds keeps its PC until that bank returns (16 R351). -/
def Thread.resume (t : Thread) : Thread :=
  if t.heldK || t.heldF then { t with hold := .passed } else { t with pc := t.pc + BitVec.ofNat 64 t.waitLen, hold := .none }

/-- A thread that no bank holds any more goes on if its wait is over. -/
def Thread.unheld (t : Thread) : Thread := match t.hold with
  | .passed => t.resume
  | _ => t
/-- A lane waits at the word of `c`. -/
def Thread.wait (t : Thread) (c : Cur) (h : Hold) : Thread := { t with hold := h, waitLen := c.len }
/-- Marks registers pending on operation `op`, parts 0 upwards. -/
def Thread.addPend (t : Thread) (regs : List Nat) (op : Nat) : Thread :=
  { t with pend := t.pend ++ (regs.mapIdx fun i r => ⟨r, op, i⟩) }
/-- Lanes of a group that have not exited. -/
def Group.live (g : Group) : List Nat := (List.range g.lanes.length).filter fun l => !(g.lane l).exited

/-! ### A write that comes later, 08 R175 and 16 R351 -/

/-- The writes to bank registers of a shadow. -/
def Shadow.late (sh : Shadow) (op part : Nat) (x : Word) : Shadow :=
  (sh.pend.filter fun p => p.op == op && p.part == part).foldl
    (fun sh p => { sh with regs := Sparse.set 0#32 sh.regs p.reg x }) sh

/-- The shadow with nothing of `op` pending. -/
def Shadow.clear (sh : Shadow) (op : Nat) : Shadow := { sh with pend := sh.pend.filter fun p => p.op != op }

/-- Performs the late write of part `part` of operation `op`, wherever the copy of its register stands. -/
def Thread.late (t : Thread) (op part : Nat) (x : Word) : Thread :=
  let t := (t.pend.filter fun p => p.op == op && p.part == part).foldl (fun t p => t.setV p.reg x) t
  { t with shadowK := t.shadowK.late op part x, shadowF := t.shadowF.late op part x }

/-- Ends the pending state of operation `op`. -/
def Thread.clearPend (t : Thread) (op : Nat) : Thread :=
  { t with pend := t.pend.filter (fun p => p.op != op), shadowK := t.shadowK.clear op, shadowF := t.shadowF.clear op }

/-- A late result of `w` bits. -/
def Thread.lateW (t : Thread) (op w : Nat) (x : DWord) : Thread :=
  let t := t.late op 0 (loWord x)
  let t := if w = 64 then t.late op 1 (hiWord x) else t
  t.clearPend op

/-- Whether an operation is still pending in a thread or in a shadow of it. -/
def Thread.awaits (t : Thread) (op : Nat) : Bool :=
  t.pend.any (·.op == op) || t.shadowK.pend.any (·.op == op) || t.shadowF.pend.any (·.op == op)

/-! ### Traps, 16 R351, R352, R373, R376 -/

/-- Exchanges v0 to v15 and `lr`, with their pending state, with a shadow. -/
def swapShadow (t : Thread) (sh : Shadow) : Thread × Shadow :=
  let low := t.regs.filter fun e => decide (e.1 < 16)
  let high := t.regs.filter fun e => decide (16 ≤ e.1)
  ({ t with regs := sh.regs ++ high, lr := sh.lr, pend := sh.pend ++ t.pend.filter (fun p => decide (16 ≤ p.reg)),
            latch := t.latch.filter fun e => decide (16 ≤ e.1) },
   { regs := low, lr := t.lr, pend := t.pend.filter fun p => decide (p.reg < 16) })

/-- Exchanges with the shadow of the K bank, or of the F bank if `f`. -/
def Thread.swapBank (t : Thread) (f : Bool) : Thread :=
  if f then
    let (t, sh) := swapShadow t t.shadowF
    { t with shadowF := sh }
  else
    let (t, sh) := swapShadow t t.shadowK
    { t with shadowK := sh }

/-- The bank of a level: K, or F if `f`. -/
def Group.bank (g : Group) (f : Bool) : Bank := if f then g.bankF else g.bankK
/-- Changes a bank. -/
def Group.setBank (g : Group) (f : Bool) (b : Bank) : Group := if f then { g with bankF := b } else { g with bankK := b }

/-- A vector or a saved PC with bits [2:0] cleared (16 R351, R377). -/
def clearLow3 (x : DWord) : DWord := x &&& ~~~7#64

/-- What entry to a bank does to one lane: a handler lane gets its shadow and the vector; another lane that is not held already is held. -/
def Thread.enter (t : Thread) (f : Bool) (handler : Bool) (vec : DWord) : Thread :=
  if handler then { t.swapBank f with pc := clearLow3 vec, hold := .none }
  else if t.heldK || t.heldF then t
  else if f then { t with heldF := true } else { t with heldK := true }

/-- Whether a trap taken at a level goes to the F bank: from K and F always, from U when `sy.kvec` is 0 (16 R351, R373). -/
def trapToF (lv : Level) (kvec : DWord) : Bool :=
  match lv with
  | .u => kvec == 0
  | _ => true

/-- The group after a precise trap of `lanes`. -/
def Group.trap (g : Group) (f : Bool) (vec : DWord) (lanes : List Nat) (cause : Word) (epc tval : DWord) : Group :=
  let b := g.bank f
  let g' := g.setBank f { b with cause := cause, epc := epc, tval := tval, tmask := maskOf lanes, pl := g.level, inh := true }
  { g' with level := if f then .f else .k, offer := none,
            lanes := g.lanes.mapIdx fun l t => t.enter f (lanes.contains l) vec }

/-- Takes a precise trap to the K bank, or to the F bank if `f` (16 R351). A trap to F while `sy.fvec` is 0 stops boot (R373): MODSTAT shows
STAGE 0xF, and the lanes go nowhere. -/
def takeTrapTo (f : Bool) (s : State) (ti gi : Nat) (lanes : List Nat) (cause : Nat) (epc tval : DWord) : State :=
  let d := s.die (dieOfCore (s.coreOf ti gi))
  let vec := if f then d.fvec else d.kvec
  if f && d.fvec == 0 then
    { s.modLanes ti gi lanes (fun _ t => { t with hold := .dead }) with
      module := { s.module with stage := 0xF, ready := false } }
  else s.modGroup ti gi fun g => g.trap f vec lanes (BitVec.ofNat 32 cause) epc tval

/-- Takes a precise trap (16 R351): the shared operation of every instruction that raises one. -/
def takeTrap (s : State) (ti gi : Nat) (lanes : List Nat) (cause : Nat) (epc tval : DWord) : State :=
  takeTrapTo (trapToF (s.group ti gi).level (s.die (dieOfCore (s.coreOf ti gi))).kvec) s ti gi lanes cause epc tval

/-- The group after a return from the K bank, or from the F bank if `f` (16 R376). -/
def Group.trapReturn (g : Group) (f : Bool) : Group :=
  let b := g.bank f
  let handlers := lanesOf b.tmask
  let g' := g.setBank f { b with inh := false }
  { g' with level := b.pl, offer := none,
            lanes := g.lanes.mapIdx fun l t =>
              let t := if handlers.contains l && !t.exited then { t.swapBank f with pc := b.epc, hold := .none } else t
              (if f then { t with heldF := false } else { t with heldK := false }).unheld }

/-- Returns from a trap: the operation beside `takeTrap`. -/
def trapReturn (s : State) (ti gi : Nat) (f : Bool) : State := s.modGroup ti gi fun g => g.trapReturn f

/-! ### The order of the checks of one instruction, 16 R353 -/

/-- Which levels an instruction allows (02 R60); none at all for a register that may not be accessed so (16 R372). -/
inductive Priv where
  | all | kf | f | none
deriving DecidableEq, Repr

/-- Whether a level is allowed. -/
def Priv.allows : Priv → Level → Bool
  | .all, _ => true
  | .kf, .u => false
  | .kf, _ => true
  | .f, .f => true
  | .f, _ => false
  | .none, _ => false

/-- How an issue ends. -/
inductive Res where
  /-- Every lane of the run goes on at the next word. -/
  | done (s : State)
  /-- The PCs and holds of the active lanes are set already; the other lanes go on at the next word. -/
  | moved (s : State)
  /-- A precise trap of the whole run. -/
  | trap (cause : Nat) (tval : DWord)
  /-- A precise trap of the whole run, with a change of state that goes with it. -/
  | trapIn (s : State) (cause : Nat) (tval : DWord)
  /-- These lanes cannot issue yet. -/
  | stall (lanes : List Nat)
  /-- The run cannot issue yet, and its attempt has changed the state: a walker has read pointers or sent invalidations (R357, 05 R98). It stays on offer
  (15 R341). -/
  | later (s : State)
  /-- The word waits for its whole group: the run stays on offer. -/
  | stallAll
deriving Repr

/-- Bit 0 of the guard register, exclusive-ORed with its negation (02 R36). -/
def guardPasses (g : Guard) (t : Thread) : Bool :=
  match g with
  | .always => true
  | .when neg r => (t.v r.toNat).getLsbD 0 != neg

/-- The register a guard reads. -/
def guardRegs : Guard → List Nat
  | .always => []
  | .when _ r => [r.toNat]

/-- The active lanes of a run. -/
def activeLanes (s : State) (c : Cur) (g : Guard) : List Nat := c.lanes.filter fun l => guardPasses g (s.thread c.ti c.gi l)

/-- Lanes of `ls` in which a register of `regs` is pending. -/
def pendingLanes (s : State) (c : Cur) (ls regs : List Nat) : List Nat :=
  ls.filter fun l => regs.any fun r => (s.thread c.ti c.gi l).isPending r

/-- The lowest register of `regs` at or above 16 times the claim of one of the lanes (08 R172). -/
def claimFail (s : State) (c : Cur) (ls regs : List Nat) : Option Nat :=
  minBy id (regs.filter fun r => ls.any fun l => decide (16 * (s.thread c.ti c.gi l).claim ≤ r))

/-- Moves lanes to the next word. -/
def advance (s : State) (c : Cur) (ls : List Nat) : State :=
  s.modLanes c.ti c.gi ls fun _ t => { t with pc := c.pc + BitVec.ofNat 64 c.len, hold := .none }

/-- Sets lanes aside until something changes. -/
def stallLanes (s : State) (c : Cur) (ls : List Nat) : State := s.modLanes c.ti c.gi ls fun _ t => { t with hold := .stall }

/-- Every ready lane of the group, with the run: a word that waits for its whole group stalls them. -/
def groupStall (s : State) (c : Cur) : List Nat :=
  let g := s.group c.ti c.gi
  g.live.filter fun l => (g.lane l).ready || c.lanes.contains l

/-- The whole group waits, with the run on offer. -/
def stallGroup (s : State) (c : Cur) : State :=
  (stallLanes s c (groupStall s c)).modGroup c.ti c.gi fun g => { g with offer := some c.lanes }

/-- Takes a trap of the issuing run, at its word. -/
def trapRun (s : State) (c : Cur) (cause : Nat) (tval : DWord) : State := takeTrap s c.ti c.gi c.lanes cause c.pc tval

/-- Ends an issue. -/
def finish (s : State) (c : Cur) (act : List Nat) : Res → State
  | .done s' => advance s' c c.lanes
  | .moved s' => advance s' c (c.lanes.filter fun l => !act.contains l)
  | .trap cause tval => trapRun s c cause tval
  | .trapIn s' cause tval => trapRun s' c cause tval
  | .stall ls => stallLanes s c ls
  | .later s' => stallGroup s' c
  | .stallAll => stallGroup s c

/-- Issues the word of `c`: privilege (0x03), claims (0x0B), scoreboard, then the instruction's own part (16 R353). `names` are the registers
that the claim check covers, `uses` those that the scoreboard watches. -/
def issueNamed (p : Priv) (g : Guard) (names uses : List Nat) (body : Cur → List Nat → State → Res) (c : Cur) (s : State) : State :=
  if !p.allows (s.group c.ti c.gi).level then trapRun s c 0x03 c.w0
  else
    let waitG := pendingLanes s c c.lanes (guardRegs g)
    if !waitG.isEmpty then stallLanes s c waitG
    else
      let act := activeLanes s c g
      match claimFail s c act (guardRegs g ++ names) with
      | some r => trapRun s c 0x0B (BitVec.ofNat 64 r)
      | none =>
        let w := pendingLanes s c act uses
        if !w.isEmpty then stallLanes s c w
        else finish s c act (body c act s)

/-- Issues a word that reads or writes every register it names. -/
def issueWord (p : Priv) (g : Guard) (uses : List Nat) (body : Cur → List Nat → State → Res) (c : Cur) (s : State) : State :=
  issueNamed p g uses uses body c s

/-- The frame of every encoded instruction: it runs for the issuing run of `State.cur`. -/
def ordinary (p : Priv) (g : Guard) (uses : List Nat) (body : Cur → List Nat → State → Res) (s : State) : Out :=
  match s.cur with
  | none => .fault .noRun
  | some c => .next (issueWord p g uses body c s)

/-- The frame of a word that names a register without reading or writing it (07 R165, R166). -/
def named (p : Priv) (g : Guard) (names uses : List Nat) (body : Cur → List Nat → State → Res) (s : State) : Out :=
  match s.cur with
  | none => .fault .noRun
  | some c => .next (issueNamed p g names uses body c s)

/-- The run of a gathered word: every thread of the group that has not exited (11 R240). -/
def gatherSet (s : State) (c : Cur) : List Nat := (s.group c.ti c.gi).live

/-- A gathered instruction (11 R240): it issues when the run holds every thread that has not exited; until then its lanes wait,
whatever their guards. The group's selection finds the gathered run later. -/
def gathered (g : Guard) (uses : List Nat) (body : Cur → List Nat → State → Res) (s : State) : Out :=
  match s.cur with
  | none => .fault .noRun
  | some c =>
    if (gatherSet s c).all fun l => c.lanes.contains l then .next (issueWord .all g uses body c s)
    else .next (s.modLanes c.ti c.gi c.lanes fun _ t => { t with hold := .gather })

/-- A body that computes one thread from its own old state, lane by lane. -/
def perLane (f : Cur → Nat → Thread → Thread) (c : Cur) (act : List Nat) (s : State) : Res :=
  .done (s.modLanes c.ti c.gi act (f c))

/-- The lowest active lane. -/
def lowest (act : List Nat) : Option Nat := act.head?

/-- Checks lanes in ascending order: the first failure traps. -/
def firstFail (act : List Nat) (f : Nat → Option (Nat × DWord)) : Option (Nat × DWord) := act.findSome? f

end Sys2Proof.Machine
end

