-- ==== Sys2Proof/Machine/Operands.lean ====
section
/-! DEFINITION. Every operand form: reading sources and writing results, and the registers that a field names.

Rules of spec/: 02 R37 to R39, R48 to R50, R62 (`operand`, `operand_b`, `writeback`). -/

namespace Sys2Proof.Machine

/-- A value of width `w` as the low bits of 64, the rest 0. -/
def low (w : Nat) (x : DWord) : DWord := if w = 64 then x else (loWord x).setWidth 64

/-- `operand(f, L, w)` of R62; the result stands in the low `w` bits. -/
def operand (t : Thread) (w : Nat) : Src → DWord
  | .v n => if w = 64 then t.d n.toNat else (t.v n.toNat).setWidth 64
  | .q n => (t.q n.toNat).setWidth 64
  | .lr => low w t.lr
  | .imm i => low w (i.signExtend 64)

/-- `operand_b(L, w)` of R62. -/
def operandB (t : Thread) (w : Nat) : SrcB → DWord
  | .src s => operand t w s
  | .lit l => low w l

/-- A source read at 32 bits. -/
def src32 (t : Thread) (s : Src) : Word := loWord (operand t 32 s)
/-- A second source read at 32 bits. -/
def srcB32 (t : Thread) (b : SrcB) : Word := loWord (operandB t 32 b)

/-- The memory offset of 06 R122, read at `w` bits. -/
def offset (w : Nat) : Off → DWord
  | .imm i => low w (i.signExtend 64)
  | .lit l => low w l

/-- `writeback(L, x, w, writes_lr)` of R62. -/
def writeback (t : Thread) (d : Dst) (w : Nat) (x : DWord) (writesLr : Bool) : Thread :=
  let t := match d with
    | .v n => t.setVW w n.toNat x
    | .vq n => (t.setV n.toNat (loWord x)).setQ (n.toNat % 8) (loWord x)
    | .q n => t.setQ n.toNat (loWord x)
    | .lr => t
  if writesLr then { t with lr := low w x } else t

/-- The main-file registers a source names at width `w`. -/
def srcRegs (w : Nat) : Src → List Nat
  | .v n => if w = 64 then [n.toNat, n.toNat + 1] else [n.toNat]
  | _ => []

/-- The main-file registers a second source names. -/
def srcBRegs (w : Nat) : SrcB → List Nat
  | .src s => srcRegs w s
  | .lit _ => []

/-- The main-file registers a destination names. -/
def dstRegs (w : Nat) : Dst → List Nat
  | .v n => if w = 64 then [n.toNat, n.toNat + 1] else [n.toNat]
  | .vq n => [n.toNat]
  | _ => []

/-- A main-file register of `w` bits. -/
def regRegs (w : Nat) (r : RegIx) : List Nat := if w = 64 then [r.toNat, r.toNat + 1] else [r.toNat]

/-- An instruction with one source at `wa` and a result at `wd` bits, written to `d` and to `lr` (10 R205, 11 R224). -/
def alu1 (g : Guard) (wd : Nat) (d : Dst) (wa : Nat) (a : Src) (f : DWord → DWord) : State → Out :=
  ordinary .all g (dstRegs wd d ++ srcRegs wa a)
    (perLane fun _ _ t => writeback t d wd (f (operand t wa a)) true)

/-- An instruction with two sources. -/
def alu2 (g : Guard) (wd : Nat) (d : Dst) (wa : Nat) (a : Src) (wb : Nat) (b : SrcB) (f : DWord → DWord → DWord) : State → Out :=
  ordinary .all g (dstRegs wd d ++ srcRegs wa a ++ srcBRegs wb b)
    (perLane fun _ _ t => writeback t d wd (f (operand t wa a) (operandB t wb b)) true)

/-- An instruction with three sources. -/
def alu3 (g : Guard) (wd : Nat) (d : Dst) (wa : Nat) (a : Src) (wb : Nat) (b : SrcB) (wc : Nat) (c : Src)
    (f : DWord → DWord → DWord → DWord) : State → Out :=
  ordinary .all g (dstRegs wd d ++ srcRegs wa a ++ srcBRegs wb b ++ srcRegs wc c)
    (perLane fun _ _ t => writeback t d wd (f (operand t wa a) (operandB t wb b) (operand t wc c)) true)

/-- A cross-lane instruction (11 R240): each lane of P gets a result computed from what every lane of P reads. `f` gets the lanes of P
with their sources, and a lane. -/
def crossLane (g : Guard) (wd : Nat) (d : Dst) (wa : Nat) (a : Src) (wb : Nat) (b : SrcB)
    (f : List (Nat × DWord × DWord) → Nat → DWord × DWord → DWord) : State → Out :=
  gathered g (dstRegs wd d ++ srcRegs wa a ++ srcBRegs wb b) fun c act s =>
    let rd (l : Nat) : DWord × DWord := let t := s.thread c.ti c.gi l; (operand t wa a, operandB t wb b)
    let all := act.map fun l => (l, rd l)
    perLane (fun _ l t => writeback t d wd (f all l (rd l)) true) c act s

end Sys2Proof.Machine
end

