-- ==== Sys2Proof/Machine/Integer.lean ====
section
/-! DEFINITION. The integer and address instructions, 10 R205 to R223. -/

namespace Sys2Proof.Machine

/-! ### Results -/

/-- `imulh`: bits 2w − 1 to w of the exact product (10 R208). -/
def mulHi (t : IntTy) (a b : DWord) : DWord := patHiW t.w (valW t.signed t.w a * valW t.signed t.w b)

/-- Quotient and remainder of 10 R211. -/
def divRem (t : IntTy) (a b : DWord) : Int × Int :=
  let x := valW t.signed t.w a
  let y := valW t.signed t.w b
  if y = 0 then (-1, x)
  else if t.signed && decide (x = -(2 ^ (t.w - 1))) && decide (y = -1) then (x, 0)
  else (x.tdiv y, x - x.tdiv y * y)

/-- The lesser (10 R208). -/
def minW (t : IntTy) (a b : DWord) : DWord :=
  if valW t.signed t.w b < valW t.signed t.w a then low t.w b else low t.w a
/-- The greater (10 R208). -/
def maxW (t : IntTy) (a b : DWord) : DWord :=
  if valW t.signed t.w a < valW t.signed t.w b then low t.w b else low t.w a

/-- `iabs`, wrapping (10 R208). -/
def absW (t : IntTy) (a : DWord) : DWord := patW t.w (sintW t.w a).natAbs

/-- A shift count: bits [7:0] of the operand (10 R213). -/
def shiftCount (b : DWord) : Nat := b.toNat % 256

/-- `shl`. -/
def shlW (w : Nat) (a b : DWord) : DWord := if shiftCount b < w then low w (a <<< shiftCount b) else 0
/-- `shr`. -/
def shrW (w : Nat) (a b : DWord) : DWord := low w a >>> shiftCount b
/-- `sar`. -/
def sarW (w : Nat) (a b : DWord) : DWord := patW w (sintW w a / 2 ^ shiftCount b)
/-- `rol`. -/
def rolW (w : Nat) (a b : DWord) : DWord :=
  let n := shiftCount b % w
  low w (a <<< n) ||| (low w a >>> (w - n))

/-- Bits of the low `w` bits that are one. -/
def onesBelow (w : Nat) (a : DWord) : Nat := ((List.range w).filter fun i => a.getLsbD i).length
/-- Trailing zeros within `w` bits (10 R214). -/
def ctzW (w : Nat) (a : DWord) : Nat := ((List.range w).find? fun i => a.getLsbD i).getD w
/-- Leading zeros within `w` bits (10 R214). -/
def clzW (w : Nat) (a : DWord) : Nat := ((List.range w).find? fun i => a.getLsbD (w - 1 - i)).getD w
/-- The low `w` bits in reverse order (10 R214). -/
def brevW (w : Nat) (a : DWord) : DWord :=
  (List.range w).foldl (fun r i => if a.getLsbD i then r ||| (1#64 <<< (w - 1 - i)) else r) 0

/-- Start and length of a field's control word (10 R215). -/
def fieldCtl (w : Nat) (b : DWord) : Nat × Nat := (b.toNat % 256, min (b.toNat / 256 % 256) w)

/-- `bfe` (10 R215). -/
def bfeW (t : IntTy) (a b : DWord) : DWord :=
  let (p, n) := fieldCtl t.w b
  let f := valW t.signed t.w a / 2 ^ p % 2 ^ n
  patW t.w (if t.signed && decide (0 < n) && decide (2 ^ n ≤ 2 * f) then f - 2 ^ n else f)

/-- `bfi` (10 R216). -/
def bfiW (w : Nat) (a b c : DWord) : DWord :=
  let (p, n) := fieldCtl w b
  let m : DWord := low w (BitVec.ofNat 64 ((2 ^ n - 1) * 2 ^ p))
  (low w c &&& ~~~m) ||| (low w (a <<< p) &&& m)

/-- The eight bits of a byte in reverse order. -/
def revByte (b : Byte) : Byte := (brevW 8 (b.setWidth 64)).setWidth 8

/-- One result byte of `bsel` from its control byte (10 R217). -/
def bselByte (a c : DWord) (k : Nat) : Byte :=
  let sb := k % 8
  let x : Byte := if sb < 4 then a.extractLsb' (8 * sb) 8 else c.extractLsb' (8 * (sb - 4)) 8
  match k / 8 % 4 with
  | 0 => x
  | 1 => revByte x
  | 2 => ~~~x
  | _ => 0

/-- `bsel` (10 R217). -/
def bselW (a b c : DWord) : DWord :=
  let byte (i : Nat) : Byte := bselByte a c (b.extractLsb' (8 * i) 8).toNat
  (byte 3 ++ byte 2 ++ byte 1 ++ byte 0).setWidth 64

/-- The range of the target type of `isat` (09 R185, 10 R220): bits, low, high. -/
def satRange : IntTy → Nat × Int × Int
  | .s8 => (8, -128, 127)
  | .s16 => (16, -32768, 32767)
  | .s32 | .s64 => (32, -2147483648, 2147483647)
  | .b8 => (8, 0, 255)
  | .b16 => (16, 0, 65535)
  | .b32 | .b64 => (32, 0, 4294967295)

/-- `isat` (10 R220). -/
def isatW (src : SatSrc) (t : IntTy) (a : DWord) : DWord :=
  let x : Int := match src with
    | .ws => sintW 32 a
    | .wu => uintW 32 a
    | .ds => sintW 64 a
    | .du => uintW 64 a
  let (_, lo, hi) := satRange t
  patW 32 (satInt x lo hi)

/-- `iaddc` (10 R209). -/
def addcW (op : AddcOp) (w : Nat) (a b c : DWord) : DWord :=
  let x := uintW w a
  let y := uintW w b
  let ci := c.toNat % 2
  match op with
  | .sum => patW w ((x : Int) + y + ci)
  | .co => bit01 (carryOut w x y ci)
  | .dif => patW w ((x : Int) - y - ci)
  | .bo => bit01 (borrowOut x y ci)

/-! ### Meanings -/

/-- `iadd` (10 R208). -/
def execIadd (g : Guard) (t : IntTy) (d : Dst) (a : Src) (b : SrcB) : State → Out :=
  alu2 g t.w d t.w a t.w b fun x y => low t.w (x + y)
/-- `isub` (10 R208). -/
def execIsub (g : Guard) (t : IntTy) (d : Dst) (a : Src) (b : SrcB) : State → Out :=
  alu2 g t.w d t.w a t.w b fun x y => low t.w (x - y)
/-- `iaddc` (10 R209). -/
def execIaddc (g : Guard) (op : AddcOp) (t : IntTy) (d : Dst) (a : Src) (b : SrcB) (c : Src) : State → Out :=
  alu3 g (op.w t) d t.w a t.w b 32 c (addcW op t.w)
/-- `imul` (10 R208). -/
def execImul (g : Guard) (t : IntTy) (d : Dst) (a : Src) (b : SrcB) : State → Out :=
  alu2 g t.w d t.w a t.w b fun x y => low t.w (x * y)
/-- `imulh` (10 R208). -/
def execImulh (g : Guard) (t : IntTy) (d : Dst) (a : Src) (b : SrcB) : State → Out := alu2 g t.w d t.w a t.w b (mulHi t)
/-- `imad` (10 R210). -/
def execImad (g : Guard) (t : IntTy) (d : Dst) (a : Src) (b : SrcB) (c : Src) : State → Out :=
  alu3 g t.w d t.w a t.w b t.w c fun x y z =>
    patW t.w (valW t.signed t.w x * valW t.signed t.w y + valW t.signed t.w z)
/-- `imadh` (10 R210). -/
def execImadh (g : Guard) (t : IntTy) (d : Dst) (a : Src) (b : SrcB) (c : Src) : State → Out :=
  alu3 g t.w d t.w a t.w b t.w c fun x y z =>
    patHiW t.w (valW t.signed t.w x * valW t.signed t.w y + valW t.signed t.w z)
/-- `idiv` (10 R211). -/
def execIdiv (g : Guard) (t : IntTy) (d : Dst) (a : Src) (b : SrcB) : State → Out :=
  alu2 g t.w d t.w a t.w b fun x y => patW t.w (divRem t x y).1
/-- `irem` (10 R211). -/
def execIrem (g : Guard) (t : IntTy) (d : Dst) (a : Src) (b : SrcB) : State → Out :=
  alu2 g t.w d t.w a t.w b fun x y => patW t.w (divRem t x y).2
/-- `imin` (10 R208). -/
def execImin (g : Guard) (t : IntTy) (d : Dst) (a : Src) (b : SrcB) : State → Out := alu2 g t.w d t.w a t.w b (minW t)
/-- `imax` (10 R208). -/
def execImax (g : Guard) (t : IntTy) (d : Dst) (a : Src) (b : SrcB) : State → Out := alu2 g t.w d t.w a t.w b (maxW t)
/-- `iabs` (10 R208). -/
def execIabs (g : Guard) (t : IntTy) (d : Dst) (a : Src) : State → Out := alu1 g t.w d t.w a (absW t)
/-- `ineg` (10 R208). -/
def execIneg (g : Guard) (t : IntTy) (d : Dst) (a : Src) : State → Out := alu1 g t.w d t.w a fun x => low t.w (-x)
/-- `and` (10 R212). -/
def execAnd (g : Guard) (t : IntTy) (d : Dst) (a : Src) (b : SrcB) : State → Out := alu2 g t.w d t.w a t.w b fun x y => x &&& y
/-- `or` (10 R212). -/
def execOr (g : Guard) (t : IntTy) (d : Dst) (a : Src) (b : SrcB) : State → Out := alu2 g t.w d t.w a t.w b fun x y => x ||| y
/-- `xor` (10 R212). -/
def execXor (g : Guard) (t : IntTy) (d : Dst) (a : Src) (b : SrcB) : State → Out := alu2 g t.w d t.w a t.w b fun x y => x ^^^ y
/-- `andn` (10 R212). -/
def execAndn (g : Guard) (t : IntTy) (d : Dst) (a : Src) (b : SrcB) : State → Out := alu2 g t.w d t.w a t.w b fun x y => x &&& ~~~y
/-- `shl` (10 R213). -/
def execShl (g : Guard) (t : IntTy) (d : Dst) (a : Src) (b : SrcB) : State → Out := alu2 g t.w d t.w a 32 b (shlW t.w)
/-- `shr` (10 R213). -/
def execShr (g : Guard) (t : IntTy) (d : Dst) (a : Src) (b : SrcB) : State → Out := alu2 g t.w d t.w a 32 b (shrW t.w)
/-- `sar` (10 R213). -/
def execSar (g : Guard) (t : IntTy) (d : Dst) (a : Src) (b : SrcB) : State → Out := alu2 g t.w d t.w a 32 b (sarW t.w)
/-- `rol` (10 R213). -/
def execRol (g : Guard) (t : IntTy) (d : Dst) (a : Src) (b : SrcB) : State → Out := alu2 g t.w d t.w a 32 b (rolW t.w)
/-- `clz` (10 R214). -/
def execClz (g : Guard) (t : IntTy) (d : Dst) (a : Src) : State → Out := alu1 g 32 d t.w a fun x => BitVec.ofNat 64 (clzW t.w x)
/-- `ctz` (10 R214). -/
def execCtz (g : Guard) (t : IntTy) (d : Dst) (a : Src) : State → Out := alu1 g 32 d t.w a fun x => BitVec.ofNat 64 (ctzW t.w x)
/-- `popc` (10 R214). -/
def execPopc (g : Guard) (t : IntTy) (d : Dst) (a : Src) : State → Out :=
  alu1 g 32 d t.w a fun x => BitVec.ofNat 64 (onesBelow t.w x)
/-- `brev` (10 R214). -/
def execBrev (g : Guard) (t : IntTy) (d : Dst) (a : Src) : State → Out := alu1 g t.w d t.w a (brevW t.w)
/-- `bfe` (10 R215). -/
def execBfe (g : Guard) (t : IntTy) (d : Dst) (a : Src) (b : SrcB) : State → Out := alu2 g t.w d t.w a 32 b (bfeW t)
/-- `bfi` (10 R216). -/
def execBfi (g : Guard) (t : IntTy) (d : Dst) (a : Src) (b : SrcB) (c : Src) : State → Out :=
  alu3 g t.w d t.w a 32 b t.w c (bfiW t.w)
/-- `bsel` (10 R217). -/
def execBsel (g : Guard) (_t : IntTy) (d : Dst) (a : Src) (b : SrcB) (c : Src) : State → Out := alu3 g 32 d 32 a 32 b 32 c bselW
/-- `sel` (10 R218). -/
def execSel (g : Guard) (t : IntTy) (d : Dst) (a : Src) (b : SrcB) (c : Src) : State → Out :=
  alu3 g t.w d t.w a t.w b 32 c fun x y z => if z.getLsbD 0 then x else y
/-- `icmp` (10 R219). -/
def execIcmp (g : Guard) (cc : ICmp) (t : IntTy) (d : Dst) (a : Src) (b : SrcB) : State → Out :=
  alu2 g 32 d t.w a t.w b fun x y => bit01 (icmpHolds cc (valW t.signed t.w x) (valW t.signed t.w y))
/-- `isat` (10 R220). -/
def execIsat (g : Guard) (src : SatSrc) (t : IntTy) (d : Dst) (a : Src) : State → Out := alu1 g 32 d src.w a (isatW src t)
/-- `add64` (10 R221). -/
def execAdd64 (g : Guard) (d : Dst) (a : Src) (b : SrcB) : State → Out := alu2 g 64 d 64 a 64 b fun x y => x + y
/-- `sub64` (10 R221). -/
def execSub64 (g : Guard) (d : Dst) (a : Src) (b : SrcB) : State → Out := alu2 g 64 d 64 a 64 b fun x y => x - y
/-- `lea64` (10 R222). -/
def execLea64 (g : Guard) (sx : Bool) (d : Dst) (a : Src) (b : SrcB) (sh : BitVec 6) : State → Out :=
  alu2 g 64 d 64 a 32 b fun x y =>
    let i : DWord := if sx then (loWord y).signExtend 64 else (loWord y).setWidth 64
    x + (i <<< sh.toNat)
/-- `mov` (10 R223). -/
def execMov (g : Guard) (t : IntTy) (d : Dst) (a : Src) : State → Out := alu1 g t.w d t.w a fun x => x
/-- `movi` (10 R223). -/
def execMovi (g : Guard) (t : IntTy) (d : Dst) (b : SrcB) : State → Out :=
  ordinary .all g (dstRegs t.w d ++ srcBRegs t.w b) (perLane fun _ _ l => writeback l d t.w (operandB l t.w b) true)

end Sys2Proof.Machine
end

