-- ==== Sys2Proof/Machine/Formats.lean ====
section
/-! DEFINITION. Number formats, exact values, rounding and conversion: spec/09 R184 to R193.

A finite value is n ÷ d × 2^e exactly; every rounding happens once, in `roundMag`. -/

namespace Sys2Proof.Machine

/-- A floating format: fraction width, exponent width, bias, and whether it has infinities and NaNs of the IEEE kind (09 R186 to R189). -/
structure FF where
  frac : Nat
  ebits : Nat
  bias : Nat
  ieee : Bool
deriving DecidableEq, Repr

/-- F32. -/
def ffF32 : FF := ⟨23, 8, 127, true⟩
/-- F16. -/
def ffF16 : FF := ⟨10, 5, 15, true⟩
/-- BF16. -/
def ffBf16 : FF := ⟨7, 8, 127, true⟩
/-- N8. -/
def ffN8 : FF := ⟨3, 4, 8, false⟩
/-- N4. -/
def ffN4 : FF := ⟨1, 2, 1, false⟩

/-- Width in bits. -/
def FF.width (f : FF) : Nat := 1 + f.ebits + f.frac
/-- The largest biased exponent of a finite value. -/
def FF.emax (f : FF) : Nat := if f.ieee then 2 ^ f.ebits - 2 else 2 ^ f.ebits - 1
/-- The exponent of the unit of the smallest subnormal. -/
def FF.emin (f : FF) : Int := 1 - (f.bias : Int) - f.frac
/-- The pattern of +∞ without sign, for an IEEE format. -/
def FF.infBits (f : FF) : Nat := (2 ^ f.ebits - 1) * 2 ^ f.frac
/-- The pattern of the largest finite magnitude. -/
def FF.maxBits (f : FF) : Nat := f.emax * 2 ^ f.frac + (2 ^ f.frac - 1)
/-- The canonical NaN (09 R187), N8's only NaN, and the 0 that a NaN becomes in N4 (R193). -/
def FF.nanBits (f : FF) : Nat := if f.ieee then f.infBits + 2 ^ (f.frac - 1) else if f.frac = 3 then 0x80 else 0
/-- The sign bit. -/
def FF.signBit (f : FF) : Nat := 2 ^ (f.ebits + f.frac)

/-- The value a pattern stands for; `fin m e` is m × 2^e with m ≠ 0. -/
inductive Num where
  | nan
  | inf (neg : Bool)
  | zero (neg : Bool)
  | fin (m : Int) (e : Int)
deriving DecidableEq, Repr

/-- Decodes a pattern, 09 R186, R188, R189. -/
def FF.decode (f : FF) (bits : Nat) : Num :=
  let b := bits % 2 ^ f.width
  let neg := decide (f.signBit ≤ b)
  let mag := b % f.signBit
  let e := mag / 2 ^ f.frac
  let fr := mag % 2 ^ f.frac
  if f.ieee && e == 2 ^ f.ebits - 1 then (if fr = 0 then .inf neg else .nan)
  else if f.frac == 3 && b == 0x80 then .nan
  else if mag = 0 then .zero (f.ieee && neg)
  else
    let m : Int := if e = 0 then fr else (2 ^ f.frac + fr : Nat)
    .fin (if neg then -m else m) (if e = 0 then f.emin else (e : Int) - f.bias - f.frac)

/-- 2^k for an exponent of either sign, as a fraction: the pair (2^k, 1) or (1, 2^−k). -/
def pow2Q (k : Int) : Nat × Nat := if 0 ≤ k then (2 ^ k.toNat, 1) else (1, 2 ^ (-k).toNat)

/-- The floor of log₂ (n ÷ d) for positive n and d. -/
def floorLog2Q (n d : Nat) : Int :=
  let l : Int := (Nat.log2 n : Int) - Nat.log2 d
  let (a, b) := pow2Q l
  if d * a ≤ n * b then l else l - 1

/-- Whether a discarded part rounds the magnitude up: `r ÷ d` is the part, 0 ≤ r < d (09 R190). -/
def roundsUp (mode : Rnd) (neg : Bool) (odd : Bool) (r d : Nat) : Bool :=
  match mode with
  | .rne => decide (d < 2 * r) || (decide (2 * r = d) && odd)
  | .rz => false
  | .ru => decide (0 < r) && !neg
  | .rd => decide (0 < r) && neg

/-- A magnitude n ÷ d × 2^e rounded to a whole multiple of 2^u. -/
def roundUnit (mode : Rnd) (neg : Bool) (n d : Nat) (e u : Int) : Nat :=
  let (a, b) := pow2Q (e - u)
  let q := n * a / (d * b)
  let r := n * a % (d * b)
  if roundsUp mode neg (q % 2 == 1) r (d * b) then q + 1 else q

/-- What overflow gives (09 R192). -/
def overflowBits (f : FF) (mode : Rnd) (neg : Bool) : Nat :=
  if !f.ieee then f.maxBits
  else
    match mode, neg with
    | .rne, _ => f.infBits
    | .rz, _ => f.maxBits
    | .ru, false => f.infBits
    | .ru, true => f.maxBits
    | .rd, false => f.maxBits
    | .rd, true => f.infBits

/-- The pattern of (−1)^neg × n ÷ d × 2^e rounded to `f`, for positive n and d (09 R190 to R192). -/
def roundMag (f : FF) (mode : Rnd) (neg : Bool) (n d : Nat) (e : Int) : Nat :=
  let l := floorLog2Q n d + e
  let u := max (l - f.frac) f.emin
  let t := roundUnit mode neg n d e u
  let (t, u) := if t = 2 ^ (f.frac + 1) then (2 ^ f.frac, u + 1) else (t, u)
  let mag :=
    if t < 2 ^ f.frac then t
    else
      let ex := u + f.bias + f.frac
      if (f.emax : Int) < ex then overflowBits f mode neg else ex.toNat * 2 ^ f.frac + (t - 2 ^ f.frac)
  if mag = 0 then (if neg && f.ieee then f.signBit else 0)
  else if neg then mag + f.signBit else mag

/-- `round(x, fmt, mode)` of 02 R61 to a float format, with the special values of 09 R193. -/
def FF.round (f : FF) (mode : Rnd) : Num → Nat
  | .nan => f.nanBits
  | .inf neg =>
    let m := if f.ieee then f.infBits else f.maxBits
    if neg then m + f.signBit else m
  | .zero neg => if neg && f.ieee then f.signBit else 0
  | .fin m e => if m = 0 then 0 else roundMag f mode (decide (m < 0)) m.natAbs 1 e

/-- The integer nearest m × 2^e in a mode. -/
def roundToInt (mode : Rnd) (m e : Int) : Int :=
  let q : Int := roundUnit mode (decide (m < 0)) m.natAbs 1 e 0
  if m < 0 then -q else q

/-- Conversion to an integer of range lo to hi (09 R191 to R193). -/
def numToInt (mode : Rnd) (lo hi : Int) : Num → Int
  | .nan => 0
  | .inf neg => if neg then lo else hi
  | .zero _ => 0
  | .fin m e => satInt (roundToInt mode m e) lo hi

/-- An exact integer as a value. -/
def numOfInt (x : Int) : Num := if x = 0 then .zero false else .fin x 0

/-- The float format of an element format, if it is one. -/
def effOf : EFmt → Option FF
  | .f32 => some ffF32
  | .f16 => some ffF16
  | .bf16 => some ffBf16
  | .n8 => some ffN8
  | .n4 => some ffN4
  | _ => none

/-- Width of an element format in bits (09 R184). -/
def ewidth : EFmt → Nat
  | .f32 | .i32 | .u32 => 32
  | .f16 | .bf16 | .i16 => 16
  | .n8 | .i8 => 8
  | .n4 | .i4 => 4

/-- Range of an integer element format (09 R185, R184). -/
def erange : EFmt → Int × Int
  | .i4 => (-8, 7)
  | .i8 => (-128, 127)
  | .i16 => (-32768, 32767)
  | .u32 => (0, 4294967295)
  | _ => (-2147483648, 2147483647)

/-- The two's-complement value of the low `w` bits of a number. -/
def sintNat (w b : Nat) : Int := let u := b % 2 ^ w; if 2 * u < 2 ^ w then (u : Int) else (u : Int) - 2 ^ w

/-- Decodes an element (09 R185 to R189). -/
def decodeElem (f : EFmt) (bits : Nat) : Num :=
  match effOf f with
  | some ff => ff.decode bits
  | none => numOfInt (match f with | .u32 => ((bits % 2 ^ 32 : Nat) : Int) | _ => sintNat (ewidth f) bits)

/-- Encodes a value as an element, rounded in a mode; the pattern has the element's width (09 R191 to R193). -/
def encodeElem (f : EFmt) (mode : Rnd) (x : Num) : Nat :=
  match effOf f with
  | some ff => ff.round mode x
  | none => let (lo, hi) := erange f; (numToInt mode lo hi x % 2 ^ ewidth f).toNat

/-- An element's pattern as `fcvt` writes it to a register: integers sign-extended (11 R231). -/
def elemToReg (f : EFmt) (bits : Nat) : Word :=
  match f with
  | .i8 | .i4 | .i16 => BitVec.ofInt 32 (sintNat (ewidth f) bits)
  | _ => BitVec.ofNat 32 bits

/-- The float format of a scalar type of 11 R225. -/
def fmtFF : Fmt → FF
  | .f32 => ffF32
  | .f16 | .f16x2 => ffF16
  | .bf16 | .bf16x2 => ffBf16
  | .n8 => ffN8
  | .n4 => ffN4

/-! ### Exact arithmetic on values, 11 R226 -/

/-- The sign of a value that is no NaN. -/
def Num.isNeg : Num → Bool
  | .nan => false
  | .inf n => n
  | .zero n => n
  | .fin m _ => decide (m < 0)

/-- m × 2^e, or +0. -/
def numFin (m e : Int) : Num := if m = 0 then .zero false else .fin m e

/-- The exact sum of two finite values. -/
def addFin (m e m' e' : Int) : Int × Int :=
  let k := min e e'
  (m * 2 ^ (e - k).toNat + m' * 2 ^ (e' - k).toNat, k)

/-- a + b; `down` is round down, which gives −0 for an exact zero of opposite signs (11 R226). -/
def Num.add (down : Bool) : Num → Num → Num
  | .nan, _ | _, .nan => .nan
  | .inf a, .inf b => if a = b then .inf a else .nan
  | .inf a, _ => .inf a
  | _, .inf b => .inf b
  | .zero a, .zero b => .zero (if a = b then a else down)
  | .zero _, y => y
  | x, .zero _ => x
  | .fin m e, .fin m' e' =>
    let (s, k) := addFin m e m' e'
    if s = 0 then .zero down else .fin s k

/-- −a. -/
def Num.neg : Num → Num
  | .nan => .nan
  | .inf a => .inf (!a)
  | .zero a => .zero (!a)
  | .fin m e => .fin (-m) e

/-- a × b. -/
def Num.mul : Num → Num → Num
  | .nan, _ | _, .nan => .nan
  | .inf _, .zero _ | .zero _, .inf _ => .nan
  | .fin m e, .fin m' e' => .fin (m * m') (e + e')
  | .inf a, y => .inf (a != y.isNeg)
  | x, .inf b => .inf (x.isNeg != b)
  | .zero a, y => .zero (a != y.isNeg)
  | x, .zero b => .zero (x.isNeg != b)

/-- Whether a mode is round down. -/
def isDown (m : Rnd) : Bool := m == .rd

/-- A format's pattern of the low bits of a register, decoded. -/
def fpIn (f : FF) (x : DWord) : Num := f.decode x.toNat

/-- A result pattern in a register: higher bits zero (11 R224). -/
def fpOut (f : FF) (m : Rnd) (x : Num) : DWord := BitVec.ofNat 64 (f.round m x)

/-- `fadd` of 11 R226. -/
def fpAdd (f : FF) (m : Rnd) (a b : DWord) : DWord := fpOut f m ((fpIn f a).add (isDown m) (fpIn f b))
/-- `fsub`. -/
def fpSub (f : FF) (m : Rnd) (a b : DWord) : DWord := fpOut f m ((fpIn f a).add (isDown m) (fpIn f b).neg)
/-- `fmul`. -/
def fpMul (f : FF) (m : Rnd) (a b : DWord) : DWord := fpOut f m ((fpIn f a).mul (fpIn f b))
/-- `ffma`: one rounding. -/
def fpFma (f : FF) (m : Rnd) (a b c : DWord) : DWord := fpOut f m (((fpIn f a).mul (fpIn f b)).add (isDown m) (fpIn f c))

/-! ### Orders -/

/-- The magnitude bits of a pattern. -/
def FF.mag (f : FF) (bits : Nat) : Nat := bits % f.signBit
/-- Whether the sign bit of a pattern is set. -/
def FF.neg (f : FF) (bits : Nat) : Bool := decide (f.signBit ≤ bits % 2 ^ f.width)
/-- Whether a pattern of an IEEE format is a NaN. -/
def FF.isNan (f : FF) (bits : Nat) : Bool := f.decode bits == .nan

/-- Order of values with −0 equal to +0 (11 R228). -/
def FF.key (f : FF) (bits : Nat) : Int := if f.neg bits then -(f.mag bits : Int) else f.mag bits
/-- Order of values with −0 below +0 (11 R227). -/
def FF.key0 (f : FF) (bits : Nat) : Int := if f.neg bits then -(f.mag bits : Int) - 1 else f.mag bits
/-- The key of 06 R133: NaN above +∞, NaNs equal. -/
def scoreKey (bits : Word) : Int := if ffF32.isNan bits.toNat then ffF32.infBits + 1 else ffF32.key bits.toNat

/-- `fmin`, or `fmax` if `mx` (11 R227). -/
def fpMinMax (mx : Bool) (f : FF) (a b : DWord) : DWord :=
  let x := a.toNat % 2 ^ f.width
  let y := b.toNat % 2 ^ f.width
  BitVec.ofNat 64 <|
    if f.isNan x then (if f.isNan y then f.nanBits else y)
    else if f.isNan y then x
    else if decide (f.key0 y < f.key0 x) != mx then y else x

/-- `fcmp` (11 R228). -/
def fcmpHolds (f : FF) (cc : FCmp) (a b : DWord) : Bool :=
  let x := a.toNat
  let y := b.toNat
  let un := f.isNan x || f.isNan y
  match cc with
  | .eq => !un && decide (f.key x = f.key y)
  | .ne => un || decide (f.key x ≠ f.key y)
  | .lt => !un && decide (f.key x < f.key y)
  | .le => !un && decide (f.key x ≤ f.key y)
  | .un => un
  | .ord => !un

/-- `fcls` (11 R229). -/
def fpClass (f : FF) (a : DWord) : DWord :=
  let x := a.toNat
  let neg := f.neg x
  BitVec.ofNat 64 <|
    match f.decode x with
    | .nan => 0x100
    | .inf true => 0x1
    | .inf false => 0x80
    | .zero true => 0x8
    | .zero false => 0x10
    | .fin _ _ =>
      if f.mag x / 2 ^ f.frac = 0 then (if neg then 0x4 else 0x20) else (if neg then 0x2 else 0x40)

/-- `frnd` (11 R230). -/
def fpRnd (f : FF) (m : Rnd) (a : DWord) : DWord :=
  fpOut f m <|
    match fpIn f a with
    | .fin n e =>
      if 0 ≤ e then .fin n e
      else
        let q := roundToInt m n e
        if q = 0 then .zero (decide (n < 0)) else .fin q 0
    | x => x

/-- `fcvt` (11 R231). -/
def fpCvt (df sf : EFmt) (m : Rnd) (a : DWord) : DWord :=
  (elemToReg df (encodeElem df m (decodeElem sf a.toNat))).setWidth 64

end Sys2Proof.Machine
end

