-- ==== Sys2Proof/Machine/Special.lean ====
section
/-! DEFINITION. The special functions of 11 R234, and the correctly rounded exp2 of 07 R153.

A special function is a fixed function of its input within an error bound, which the specification does not give further:
`Config.sfuCandidate` is free, and its value stands wherever it meets the bound; where it does not, the rounded exact value stands.
The exact value is taken to 240 binary places, far beyond what any bound of an F32 result resolves (log 11). -/

namespace Sys2Proof.Machine

/-- Binary places of a fixed-point value. -/
def fxP : Nat := 240
/-- 1. -/
def fxOne : Nat := 2 ^ fxP
/-- ln 2. -/
def fxLn2 : Nat := 1224685061431752149387114016819916847747660333428801675508466606222838698
/-- 2π. -/
def fxTwoPi : Nat := 11101427517448923470466154259574275593670452188976819761925419650816006300

/-- The sum of r^k ÷ k! from term `k` on, `n` terms. -/
def expTerms : Nat → Nat → Nat → Nat → Nat
  | 0, _, _, _ => 0
  | n + 1, k, term, r => term + expTerms n (k + 1) (term * r / fxOne / k) r

/-- e^r for 0 ≤ r < 1. -/
def fxExp (r : Nat) : Nat := expTerms 80 1 fxOne r

/-- 2^x for a fixed-point x: the value in units of 2^−240, and 0 far below the least subnormal. -/
def fxExp2 (x : Int) : Nat :=
  let i := x / (fxOne : Int)
  let f := (x % (fxOne : Int)).toNat
  let m := fxExp (f * fxLn2 / fxOne)
  if i < -300 then 0 else if 300 < i then fxOne * 2 ^ 300
  else if 0 ≤ i then m * 2 ^ i.toNat else m / 2 ^ (-i).toNat

/-- The sum of z^(2k+1) ÷ (2k+1), `n` terms from the odd number `k`. -/
def atanhTerms : Nat → Nat → Nat → Nat → Nat
  | 0, _, _, _ => 0
  | n + 1, k, p, z2 => p / k + atanhTerms n (k + 2) (p * z2 / fxOne) z2

/-- ln y for a fixed-point y, 1 ≤ y < 2. -/
def fxLn (y : Nat) : Nat :=
  let z := (y - fxOne) * fxOne / (y + fxOne)
  2 * atanhTerms 80 1 z (z * z / fxOne)

/-- log₂ (m × 2^e) for positive m. -/
def fxLog2 (m : Nat) (e : Int) : Int :=
  let l := Nat.log2 m
  let y := m * fxOne / 2 ^ l
  ((fxLn y * fxOne / fxLn2 : Nat) : Int) + ((l : Int) + e) * fxOne

/-- The alternating sum of a sine or cosine: `term` is term number `k` − 1 of the exponential series. -/
def trigTerms : Nat → Nat → Int → Int → Int
  | 0, _, _, _ => 0
  | n + 1, k, term, r => term - trigTerms n (k + 2) (term * r / fxOne * r / fxOne / (k * (k + 1))) r

/-- sin of a fixed-point x, reduced modulo 2π. -/
def fxSin (x : Int) : Int :=
  let r := x - (2 * x + fxTwoPi) / (2 * fxTwoPi) * fxTwoPi
  trigTerms 60 2 r r
/-- cos of a fixed-point x. -/
def fxCos (x : Int) : Int :=
  let r := x - (2 * x + fxTwoPi) / (2 * fxTwoPi) * fxTwoPi
  trigTerms 60 1 fxOne r

/-- tanh of a positive fixed-point x. -/
def fxTanh (x : Nat) : Nat :=
  if 64 * fxOne ≤ x then fxOne - 1
  else
    let t := fxExp2 ((2 * x * fxOne / fxLn2 : Nat) : Int)
    (t - fxOne) * fxOne / (t + fxOne)

/-- The integer square root, by bits from 2^k down. -/
def isqrtFrom : Nat → Nat → Nat → Nat
  | 0, acc, _ => acc
  | k + 1, acc, n => if (acc + 2 ^ k) * (acc + 2 ^ k) ≤ n then isqrtFrom k (acc + 2 ^ k) n else isqrtFrom k acc n

/-- The floor of √n. -/
def isqrt (n : Nat) : Nat := isqrtFrom (Nat.log2 n / 2 + 1) 0 n

/-- m × 2^e in units of 2^−240. -/
def fxOf (m e : Int) : Int := if 0 ≤ e + fxP then m * 2 ^ (e + fxP).toNat else m / 2 ^ (-(e + fxP)).toNat

/-- √(m × 2^e) as an integer n and exponent with a last bit that says whether bits were lost. -/
def sqrtSticky (m : Nat) (e : Int) : Nat × Int :=
  let n := if e % 2 = 0 then m * 2 ^ 200 else m * 2 ^ 201
  let k := if e % 2 = 0 then e - 200 else e - 201
  let r := isqrt n
  (2 * r + (if r * r = n then 0 else 1), k / 2 - 1)

/-- The exact value of a special function at a finite m × 2^e ≠ 0, in units of 2^−240. -/
def sfuExact (f : SfuFn) (m e : Int) : Int :=
  let x := fxOf m e
  match f with
  | .rcp => (fxOne * fxOne : Int) / x
  | .rsq => (isqrt (fxOne * fxOne * fxOne / x.toNat) : Nat)
  | .sqrt => (isqrt (x.toNat * fxOne) : Nat)
  | .exp2 => (fxExp2 x : Nat)
  | .log2 => fxLog2 m.toNat e
  | .sin => fxSin x
  | .cos => fxCos x
  | .tanh => if m < 0 then -(fxTanh (-x).toNat : Int) else (fxTanh x.toNat : Nat)

/-- A fixed-point value rounded to F32, RNE. -/
def fxRound (v : Int) : Nat := ffF32.round .rne (numFin v (-fxP))

/-- The unit in the last place of an F32 result near `v`, in units of 2^−240. -/
def fxUlp (v : Int) : Nat :=
  let l : Int := (Nat.log2 v.natAbs : Int) - fxP
  (fxOf 1 (max (l - 23) (-149))).toNat

/-- The bound of R234 on the distance of a finite result from the exact value `v` at the input m × 2^e. DESIGN CHOICE (log 84): R234 states
exactness where 2^x is an F32 number; where x is an integer and it is none, the bound is 0 too, so the rounded value stands. -/
def sfuBound (f : SfuFn) (m e v : Int) : Nat :=
  let x := fxOf m.natAbs e
  match f with
  | .rcp | .rsq => fxUlp v
  | .sqrt => 0
  | .exp2 => if fxOf m e % fxOne = 0 then 0 else 2 * fxUlp v
  | .log2 => if decide (2 * x < fxOne) || decide (2 * (fxOne : Int) < x) then 2 * fxUlp v else fxOne / 2 ^ 22
  | .sin | .cos => fxOne / 2 ^ 21
  | .tanh => 2 * fxUlp v

/-- Whether a pattern may stand as the result: equal to the rounded value, or finite and within the bound. -/
def sfuAccepts (f : SfuFn) (m e : Int) (cand : Word) : Bool :=
  let wide := (f == .sin || f == .cos) && decide ((2 ^ 16 * fxOne : Int) < fxOf m.natAbs e)
  match ffF32.decode cand.toNat with
  | .zero _ => wide || decide ((sfuExact f m e).natAbs ≤ sfuBound f m e (sfuExact f m e))
  | .fin m' e' =>
    if wide then decide ((fxOf m' e').natAbs ≤ fxOne)
    else decide ((fxOf m' e' - sfuExact f m e).natAbs ≤ sfuBound f m e (sfuExact f m e))
  | _ => false

/-- A special function of a finite non-zero input that has no exact result of its own. -/
def sfuFinite (f : SfuFn) (x : Word) (m e : Int) : Word :=
  match f with
  | .sqrt => let (n, k) := sqrtSticky m.toNat e; BitVec.ofNat 32 (roundMag ffF32 .rne false n 1 k)
  | _ =>
    let c := Config.sfuCandidate f x
    if sfuAccepts f m e c then c else BitVec.ofNat 32 (fxRound (sfuExact f m e))

/-- +∞ in F32. -/
def f32Inf : Word := 0x7F800000
/-- 1 in F32. -/
def f32One : Word := 0x3F800000
/-- The canonical NaN of F32. -/
def f32Nan : Word := 0x7FC00000

/-- The special functions, with the special inputs of R234. -/
def sfu (f : SfuFn) (x : Word) : Word :=
  let sgn : Word := x &&& 0x80000000#32
  match ffF32.decode x.toNat with
  | .nan => f32Nan
  | .zero _ =>
    match f with
    | .rcp | .rsq => f32Inf ||| sgn
    | .sqrt | .sin | .tanh => x
    | .exp2 | .cos => f32One
    | .log2 => f32Inf ||| 0x80000000#32
  | .inf neg =>
    match f with
    | .rcp => sgn
    | .rsq => if neg then f32Nan else 0
    | .sqrt => if neg then f32Nan else f32Inf
    | .exp2 => if neg then 0 else f32Inf
    | .log2 => if neg then f32Nan else f32Inf
    | .sin | .cos => f32Nan
    | .tanh => f32One ||| sgn
  | .fin m e =>
    match f with
    | .rsq | .sqrt | .log2 =>
      if m < 0 then f32Nan else if f == .log2 && x == f32One then 0 else sfuFinite f x m e
    | _ => sfuFinite f x m e

/-- exp2 correctly rounded to F32 with RNE, exp2(−∞) = +0 (07 R153). -/
def exp2Rne (x : Word) : Word :=
  match ffF32.decode x.toNat with
  | .nan => f32Nan
  | .inf neg => if neg then 0 else f32Inf
  | .zero _ => f32One
  | .fin m e => BitVec.ofNat 32 (fxRound (fxExp2 (fxOf m e) : Nat))

end Sys2Proof.Machine
end

