-- ==== Sys2Proof/Machine/Float.lean ====
section
/-! DEFINITION. The floating-point instructions and special functions (11 R224 to R234) and the P-form word (02 R51 to R56). -/

namespace Sys2Proof.Machine

/-- The two halves of a packed operation (11 R233). -/
def halves (f : DWord → DWord → DWord → DWord) (a b c : DWord) : DWord :=
  let h (i : Nat) : BitVec 16 := (f ((a.extractLsb' (16 * i) 16).setWidth 64) ((b.extractLsb' (16 * i) 16).setWidth 64)
    ((c.extractLsb' (16 * i) 16).setWidth 64)).setWidth 16
  (h 1 ++ h 0).setWidth 64

/-- `fadd` (11 R226). -/
def execFadd (g : Guard) (f : Fmt) (rm : Rnd) (d : Dst) (a : Src) (b : SrcB) : State → Out :=
  alu2 g 32 d 32 a 32 b (fpAdd (fmtFF f) rm)
/-- `fsub` (11 R226). -/
def execFsub (g : Guard) (f : Fmt) (rm : Rnd) (d : Dst) (a : Src) (b : SrcB) : State → Out :=
  alu2 g 32 d 32 a 32 b (fpSub (fmtFF f) rm)
/-- `fmul` (11 R226). -/
def execFmul (g : Guard) (f : Fmt) (rm : Rnd) (d : Dst) (a : Src) (b : SrcB) : State → Out :=
  alu2 g 32 d 32 a 32 b (fpMul (fmtFF f) rm)
/-- `ffma` (11 R226). -/
def execFfma (g : Guard) (f : Fmt) (rm : Rnd) (d : Dst) (a : Src) (b : SrcB) (c : Src) : State → Out :=
  alu3 g 32 d 32 a 32 b 32 c (fpFma (fmtFF f) rm)
/-- `fmin` (11 R227). -/
def execFmin (g : Guard) (f : Fmt) (d : Dst) (a : Src) (b : SrcB) : State → Out := alu2 g 32 d 32 a 32 b (fpMinMax false (fmtFF f))
/-- `fmax` (11 R227). -/
def execFmax (g : Guard) (f : Fmt) (d : Dst) (a : Src) (b : SrcB) : State → Out := alu2 g 32 d 32 a 32 b (fpMinMax true (fmtFF f))
/-- `fcmp` (11 R228). -/
def execFcmp (g : Guard) (cc : FCmp) (f : Fmt) (d : Dst) (a : Src) (b : SrcB) : State → Out :=
  alu2 g 32 d 32 a 32 b fun x y => bit01 (fcmpHolds (fmtFF f) cc x y)
/-- `fcls` (11 R229). -/
def execFcls (g : Guard) (f : Fmt) (d : Dst) (a : Src) : State → Out := alu1 g 32 d 32 a (fpClass (fmtFF f))
/-- `frnd` (11 R230). -/
def execFrnd (g : Guard) (f : Fmt) (rm : Rnd) (d : Dst) (a : Src) : State → Out := alu1 g 32 d 32 a (fpRnd (fmtFF f) rm)
/-- `fcvt` (11 R231). -/
def execFcvt (g : Guard) (df sf : EFmt) (rm : Rnd) (d : Dst) (a : Src) : State → Out := alu1 g 32 d 32 a (fpCvt df sf rm)

/-- An F32 operand rounded to a format. -/
def roundF32 (f : FF) (rm : Rnd) (x : DWord) : Nat := f.round rm (fpIn ffF32 x)

/-- `fpk` to two 16-bit halves (11 R232). -/
def execFpk (g : Guard) (f : Fmt) (rm : Rnd) (d : Dst) (a : Src) (b : SrcB) : State → Out :=
  alu2 g 32 d 32 a 32 b fun x y =>
    BitVec.ofNat 64 (roundF32 (fmtFF f) rm x + 65536 * roundF32 (fmtFF f) rm y)
/-- `fpk.n8` (11 R232). -/
def execFpkN8 (g : Guard) (hi : Bool) (rm : Rnd) (d : Dst) (a : Src) (b : SrcB) (c : Src) : State → Out :=
  alu3 g 32 d 32 a 32 b 32 c fun x y z =>
    let w : BitVec 16 := BitVec.ofNat 16 (roundF32 ffN8 rm x + 256 * roundF32 ffN8 rm y)
    let z0 : BitVec 16 := z.extractLsb' 0 16
    let z1 : BitVec 16 := z.extractLsb' 16 16
    (if hi then w ++ z0 else z1 ++ w).setWidth 64

/-- `hadd2` (11 R233). -/
def execHadd2 (g : Guard) (f : Fmt) (rm : Rnd) (d : Dst) (a : Src) (b : SrcB) : State → Out :=
  alu2 g 32 d 32 a 32 b fun x y => halves (fun p q _ => fpAdd (fmtFF f) rm p q) x y 0
/-- `hmul2` (11 R233). -/
def execHmul2 (g : Guard) (f : Fmt) (rm : Rnd) (d : Dst) (a : Src) (b : SrcB) : State → Out :=
  alu2 g 32 d 32 a 32 b fun x y => halves (fun p q _ => fpMul (fmtFF f) rm p q) x y 0
/-- `hfma2` (11 R233). -/
def execHfma2 (g : Guard) (f : Fmt) (rm : Rnd) (d : Dst) (a : Src) (b : SrcB) (c : Src) : State → Out :=
  alu3 g 32 d 32 a 32 b 32 c fun x y z => halves (fpFma (fmtFF f) rm) x y z
/-- `hmin2` (11 R233). -/
def execHmin2 (g : Guard) (f : Fmt) (d : Dst) (a : Src) (b : SrcB) : State → Out :=
  alu2 g 32 d 32 a 32 b fun x y => halves (fun p q _ => fpMinMax false (fmtFF f) p q) x y 0
/-- `hmax2` (11 R233). -/
def execHmax2 (g : Guard) (f : Fmt) (d : Dst) (a : Src) (b : SrcB) : State → Out :=
  alu2 g 32 d 32 a 32 b fun x y => halves (fun p q _ => fpMinMax true (fmtFF f) p q) x y 0

/-- A special function of one F32 operand (11 R234). -/
def sfuOp (f : SfuFn) (x : DWord) : DWord := (sfu f (loWord x)).setWidth 64

/-- `sfu.rcp` (11 R234). -/
def execSfuRcp (g : Guard) (d : Dst) (a : Src) : State → Out := alu1 g 32 d 32 a (sfuOp .rcp)
/-- `sfu.rsq` (11 R234). -/
def execSfuRsq (g : Guard) (d : Dst) (a : Src) : State → Out := alu1 g 32 d 32 a (sfuOp .rsq)
/-- `sfu.sqrt` (11 R234). -/
def execSfuSqrt (g : Guard) (d : Dst) (a : Src) : State → Out := alu1 g 32 d 32 a (sfuOp .sqrt)
/-- `sfu.exp2` (11 R234). -/
def execSfuExp2 (g : Guard) (d : Dst) (a : Src) : State → Out := alu1 g 32 d 32 a (sfuOp .exp2)
/-- `sfu.log2` (11 R234). -/
def execSfuLog2 (g : Guard) (d : Dst) (a : Src) : State → Out := alu1 g 32 d 32 a (sfuOp .log2)
/-- `sfu.sin` (11 R234). -/
def execSfuSin (g : Guard) (d : Dst) (a : Src) : State → Out := alu1 g 32 d 32 a (sfuOp .sin)
/-- `sfu.cos` (11 R234). -/
def execSfuCos (g : Guard) (d : Dst) (a : Src) : State → Out := alu1 g 32 d 32 a (sfuOp .cos)
/-- `sfu.tanh` (11 R234). -/
def execSfuTanh (g : Guard) (d : Dst) (a : Src) : State → Out := alu1 g 32 d 32 a (sfuOp .tanh)

/-! ### The P-form -/

/-- The integer type of a slot (02 R53). -/
def slotInt : PairTy → IntTy
  | .s32 => .s32
  | _ => .b32

/-- The floating format of a slot. -/
def slotFF : PairTy → FF
  | .f16x2 => ffF16
  | .bf16x2 => ffBf16
  | _ => ffF32

/-- The result of a slot: the F-form of the same mnemonic with first source v(d) and second source s (02 R52, R55). -/
def slotResult (o : Slot) (d s : DWord) : DWord :=
  let t := slotInt o.ty
  let f := slotFF o.ty
  match o.op with
  | .fadd => fpAdd f o.rm d s
  | .fsub => fpSub f o.rm d s
  | .fmul => fpMul f o.rm d s
  | .fmin => fpMinMax false f d s
  | .fmax => fpMinMax true f d s
  | .hadd2 => halves (fun p q _ => fpAdd f o.rm p q) d s 0
  | .hmul2 => halves (fun p q _ => fpMul f o.rm p q) d s 0
  | .hmin2 => halves (fun p q _ => fpMinMax false f p q) d s 0
  | .hmax2 => halves (fun p q _ => fpMinMax true f p q) d s 0
  | .imul => low 32 (d * s)
  | .imulh => mulHi t d s
  | .imin => minW t d s
  | .imax => maxW t d s
  | .iadd => low 32 (d + s)
  | .isub => low 32 (d - s)
  | .and => d &&& s
  | .or => d ||| s
  | .xor => d ^^^ s
  | .andn => d &&& ~~~s
  | .shl => shlW 32 d s
  | .shr => shrW 32 d s
  | .sar => sarW 32 d s
  | .rol => rolW 32 d s
  | .mov => s
  | .ineg => low 32 (-s)
  | .iabs => absW .s32 s
  | .clz => BitVec.ofNat 64 (clzW 32 s)
  | .popc => BitVec.ofNat 64 (onesBelow 32 s)
  | .brev => brevW 32 s
  | .cvtF32S32 => fpCvt .f32 .i32 o.rm s
  | .cvtS32F32 => fpCvt .i32 .f32 o.rm s
  | .cvtF32B32 => fpCvt .f32 .u32 o.rm s
  | .cvtB32F32 => fpCvt .u32 .f32 o.rm s
  | .cvtF32Bf16 => fpCvt .f32 .bf16 o.rm s
  | .cvtBf16F32 => fpCvt .bf16 .f32 o.rm s
  | .cvtF32F16 => fpCvt .f32 .f16 o.rm s
  | .cvtF16F32 => fpCvt .f16 .f32 o.rm s

/-- The registers a slot names (02 R56). -/
def slotRegs (o : Slot) : List Nat := o.d.toNat :: srcRegs 32 o.s

/-- The P-form word: both slots read the state before the word; afterwards `lr` holds slot B's result (02 R52). -/
def execPairWord (a b : Slot) : State → Out :=
  ordinary .all .always (slotRegs a ++ slotRegs b) <| perLane fun _ _ t =>
    let rd (o : Slot) : DWord := slotResult o ((t.v o.d.toNat).setWidth 64) (operand t 32 o.s)
    let ra := rd a
    let rb := rd b
    { (t.setV a.d.toNat (loWord ra)).setV b.d.toNat (loWord rb) with lr := low 32 rb }

end Sys2Proof.Machine
end

