-- ==== Sys2Proof/Decode.lean ====
section
/-! DEFINITION. The decoder and the encoder of instruction words, copy records and queue packets.

A word is read in two moves. `Fields.parse` names the instruction of the major opcode with the fields as they stand;
the word is that instruction exactly when its fields are well-formed (`Instr.wf`) and the encoder gives back the same fields,
so a reserved bit, a field that must be zero and a code that no page lists make the word illegal (02 R36 to R48, R57).
Rules of spec/: 02 R33 to R60; the encoding tables of the instruction pages; 07 R142 to R156; 15 R333 to R337. -/

namespace Sys2Proof

/-! ### Codes of the fields -/

/-- 02 R44. -/
def IntTy.code : IntTy → BitVec 3
  | .s8 => 0
  | .s16 => 1
  | .s32 => 2
  | .s64 => 3
  | .b8 => 4
  | .b16 => 5
  | .b32 => 6
  | .b64 => 7

/-- The inverse of `IntTy.code`; a code that is not listed stands for none and fails the check of the encoder. -/
def IntTy.ofCode (c : BitVec 3) : IntTy :=
  match c.toNat with
  | 0 => .s8
  | 1 => .s16
  | 2 => .s32
  | 3 => .s64
  | 4 => .b8
  | 5 => .b16
  | 6 => .b32
  | _ => .b64

/-- 02 R45. -/
def Fmt.code : Fmt → BitVec 3
  | .f32 => 0
  | .f16 => 1
  | .bf16 => 2
  | .f16x2 => 3
  | .bf16x2 => 4
  | .n8 => 5
  | .n4 => 6

/-- The inverse of `Fmt.code`; a code that is not listed stands for none and fails the check of the encoder. -/
def Fmt.ofCode (c : BitVec 3) : Fmt :=
  match c.toNat with
  | 0 => .f32
  | 1 => .f16
  | 2 => .bf16
  | 3 => .f16x2
  | 4 => .bf16x2
  | 5 => .n8
  | _ => .n4

/-- 02 R45. -/
def Rnd.code : Rnd → BitVec 2
  | .rne => 0
  | .rz => 1
  | .ru => 2
  | .rd => 3

/-- The inverse of `Rnd.code`; a code that is not listed stands for none and fails the check of the encoder. -/
def Rnd.ofCode (c : BitVec 2) : Rnd :=
  match c.toNat with
  | 0 => .rne
  | 1 => .rz
  | 2 => .ru
  | _ => .rd

/-- 02 R46. -/
def Scope.code : Scope → BitVec 3
  | .grp => 0
  | .team => 1
  | .core => 2
  | .clu => 3
  | .die => 4
  | .dev => 5
  | .dom => 6
  | .sys => 7

/-- The inverse of `Scope.code`; a code that is not listed stands for none and fails the check of the encoder. -/
def Scope.ofCode (c : BitVec 3) : Scope :=
  match c.toNat with
  | 0 => .grp
  | 1 => .team
  | 2 => .core
  | 3 => .clu
  | 4 => .die
  | 5 => .dev
  | 6 => .dom
  | _ => .sys

/-- 02 R47. -/
def MemW.code : MemW → BitVec 3
  | .b8 => 0
  | .b16 => 1
  | .b32 => 2
  | .b64 => 3
  | .s8 => 4
  | .s16 => 5

/-- The inverse of `MemW.code`; a code that is not listed stands for none and fails the check of the encoder. -/
def MemW.ofCode (c : BitVec 3) : MemW :=
  match c.toNat with
  | 0 => .b8
  | 1 => .b16
  | 2 => .b32
  | 3 => .b64
  | 4 => .s8
  | _ => .s16

/-- 11 R235. -/
def NTy.code : NTy → BitVec 3
  | .i8 => 0
  | .n8 => 1
  | .i4 => 2
  | .n4 => 3
  | .s32 => 4
  | .b32 => 5
  | .f32 => 6
  | .b64 => 7

/-- The inverse of `NTy.code`; a code that is not listed stands for none and fails the check of the encoder. -/
def NTy.ofCode (c : BitVec 3) : NTy :=
  match c.toNat with
  | 0 => .i8
  | 1 => .n8
  | 2 => .i4
  | 3 => .n4
  | 4 => .s32
  | 5 => .b32
  | 6 => .f32
  | _ => .b64

/-- 11 R231, 09 R184. -/
def EFmt.code : EFmt → BitVec 4
  | .f32 => 0
  | .f16 => 1
  | .bf16 => 2
  | .n8 => 3
  | .n4 => 4
  | .i8 => 5
  | .i4 => 6
  | .i16 => 7
  | .i32 => 8
  | .u32 => 9

/-- The inverse of `EFmt.code`; a code that is not listed stands for none and fails the check of the encoder. -/
def EFmt.ofCode (c : BitVec 4) : EFmt :=
  match c.toNat with
  | 0 => .f32
  | 1 => .f16
  | 2 => .bf16
  | 3 => .n8
  | 4 => .n4
  | 5 => .i8
  | 6 => .i4
  | 7 => .i16
  | 8 => .i32
  | _ => .u32

/-- 10 R207. -/
def AddcOp.code : AddcOp → BitVec 3
  | .sum => 0
  | .co => 1
  | .dif => 2
  | .bo => 3

/-- The inverse of `AddcOp.code`; a code that is not listed stands for none and fails the check of the encoder. -/
def AddcOp.ofCode (c : BitVec 3) : AddcOp :=
  match c.toNat with
  | 0 => .sum
  | 1 => .co
  | 2 => .dif
  | _ => .bo

/-- 10 R207. -/
def ICmp.code : ICmp → BitVec 3
  | .eq => 0
  | .ne => 1
  | .lt => 2
  | .le => 3
  | .gt => 4
  | .ge => 5

/-- The inverse of `ICmp.code`; a code that is not listed stands for none and fails the check of the encoder. -/
def ICmp.ofCode (c : BitVec 3) : ICmp :=
  match c.toNat with
  | 0 => .eq
  | 1 => .ne
  | 2 => .lt
  | 3 => .le
  | 4 => .gt
  | _ => .ge

/-- 10 R207. -/
def SatSrc.code : SatSrc → BitVec 3
  | .ws => 0
  | .wu => 1
  | .ds => 2
  | .du => 3

/-- The inverse of `SatSrc.code`; a code that is not listed stands for none and fails the check of the encoder. -/
def SatSrc.ofCode (c : BitVec 3) : SatSrc :=
  match c.toNat with
  | 0 => .ws
  | 1 => .wu
  | 2 => .ds
  | _ => .du

/-- 11 R228. -/
def FCmp.code : FCmp → BitVec 3
  | .eq => 0
  | .ne => 1
  | .lt => 2
  | .le => 3
  | .un => 4
  | .ord => 5

/-- The inverse of `FCmp.code`; a code that is not listed stands for none and fails the check of the encoder. -/
def FCmp.ofCode (c : BitVec 3) : FCmp :=
  match c.toNat with
  | 0 => .eq
  | 1 => .ne
  | 2 => .lt
  | 3 => .le
  | 4 => .un
  | _ => .ord

/-- 11 R236. -/
def LxMode.code : LxMode → BitVec 3
  | .at => 0
  | .rot => 1
  | .bfly => 2
  | .rank => 3

/-- The inverse of `LxMode.code`; a code that is not listed stands for none and fails the check of the encoder. -/
def LxMode.ofCode (c : BitVec 3) : LxMode :=
  match c.toNat with
  | 0 => .at
  | 1 => .rot
  | 2 => .bfly
  | _ => .rank

/-- 11 R236. -/
def VoteOp.code : VoteOp → BitVec 3
  | .all => 0
  | .any => 1
  | .uni => 2
  | .ballot => 3
  | .cnt => 4

/-- The inverse of `VoteOp.code`; a code that is not listed stands for none and fails the check of the encoder. -/
def VoteOp.ofCode (c : BitVec 3) : VoteOp :=
  match c.toNat with
  | 0 => .all
  | 1 => .any
  | 2 => .uni
  | 3 => .ballot
  | _ => .cnt

/-- 11 R236. -/
def ScanOp.code : ScanOp → BitVec 2
  | .add => 0
  | .min => 1
  | .max => 2

/-- The inverse of `ScanOp.code`; a code that is not listed stands for none and fails the check of the encoder. -/
def ScanOp.ofCode (c : BitVec 2) : ScanOp :=
  match c.toNat with
  | 0 => .add
  | 1 => .min
  | _ => .max

/-- 06 R131. -/
def AtomOp.code : AtomOp → BitVec 3
  | .add => 0
  | .min => 1
  | .max => 2
  | .and => 3
  | .or => 4
  | .xor => 5
  | .xchg => 6
  | .cas => 7

/-- The inverse of `AtomOp.code`; a code that is not listed stands for none and fails the check of the encoder. -/
def AtomOp.ofCode (c : BitVec 3) : AtomOp :=
  match c.toNat with
  | 0 => .add
  | 1 => .min
  | 2 => .max
  | 3 => .and
  | 4 => .or
  | 5 => .xor
  | 6 => .xchg
  | _ => .cas

/-- 08 R182. -/
def SrdSel.code : SrdSel → BitVec 8
  | .lane => 0
  | .nlane => 1
  | .grp => 2
  | .ngrp => 3
  | .team => 4
  | .nteam => 5
  | .core => 6
  | .clu => 7
  | .die => 8
  | .dev => 9
  | .pcore => 10
  | .accb => 16
  | .regs => 17
  | .scratch => 18
  | .item => 32
  | .flow => 33
  | .iseq => 34
  | .capn => 35
  | .cyc => 48
  | .cnt => 49

/-- The inverse of `SrdSel.code`; a code that is not listed stands for none and fails the check of the encoder. -/
def SrdSel.ofCode (c : BitVec 8) : SrdSel :=
  match c.toNat with
  | 0 => .lane
  | 1 => .nlane
  | 2 => .grp
  | 3 => .ngrp
  | 4 => .team
  | 5 => .nteam
  | 6 => .core
  | 7 => .clu
  | 8 => .die
  | 9 => .dev
  | 10 => .pcore
  | 16 => .accb
  | 17 => .regs
  | 18 => .scratch
  | 32 => .item
  | 33 => .flow
  | 34 => .iseq
  | 35 => .capn
  | 48 => .cyc
  | _ => .cnt

/-- 16 R372. -/
def SySel.code : SySel → BitVec 8
  | .cause => 0
  | .epc => 1
  | .tval => 2
  | .tmask => 3
  | .status => 4
  | .kscr => 5
  | .kCause => 64
  | .kEpc => 65
  | .kTval => 66
  | .kTmask => 67
  | .kStatus => 68
  | .kKscr => 69
  | .kvec => 8
  | .fvec => 9
  | .kroot => 10
  | .ptroot => 16
  | .asid => 17
  | .owner => 18
  | .capf => 19
  | .ctxh => 20
  | .swapthr => 24
  | .fltq => 25
  | .fltw => 26
  | .flth => 27
  | .fltt => 28
  | .ctxpool => 29
  | .layout => 30
  | .mcq => 32
  | .mch => 33
  | .mct => 34

/-- The inverse of `SySel.code`; a code that is not listed stands for none and fails the check of the encoder. -/
def SySel.ofCode (c : BitVec 8) : SySel :=
  match c.toNat with
  | 0 => .cause
  | 1 => .epc
  | 2 => .tval
  | 3 => .tmask
  | 4 => .status
  | 5 => .kscr
  | 64 => .kCause
  | 65 => .kEpc
  | 66 => .kTval
  | 67 => .kTmask
  | 68 => .kStatus
  | 69 => .kKscr
  | 8 => .kvec
  | 9 => .fvec
  | 10 => .kroot
  | 16 => .ptroot
  | 17 => .asid
  | 18 => .owner
  | 19 => .capf
  | 20 => .ctxh
  | 24 => .swapthr
  | 25 => .fltq
  | 26 => .fltw
  | 27 => .flth
  | 28 => .fltt
  | 29 => .ctxpool
  | 30 => .layout
  | 32 => .mcq
  | 33 => .mch
  | _ => .mct

/-- 02 R55. -/
def PairOp.code : PairOp → BitVec 6
  | .fadd => 0
  | .fsub => 1
  | .fmul => 2
  | .fmin => 3
  | .fmax => 4
  | .hadd2 => 5
  | .hmul2 => 6
  | .hmin2 => 7
  | .hmax2 => 8
  | .imul => 9
  | .imulh => 10
  | .imin => 11
  | .imax => 12
  | .iadd => 16
  | .isub => 17
  | .and => 18
  | .or => 19
  | .xor => 20
  | .andn => 21
  | .shl => 22
  | .shr => 23
  | .sar => 24
  | .rol => 25
  | .mov => 26
  | .ineg => 27
  | .iabs => 28
  | .clz => 29
  | .popc => 30
  | .brev => 31
  | .cvtF32S32 => 32
  | .cvtS32F32 => 33
  | .cvtF32B32 => 34
  | .cvtB32F32 => 35
  | .cvtF32Bf16 => 36
  | .cvtBf16F32 => 37
  | .cvtF32F16 => 38
  | .cvtF16F32 => 39

/-- The inverse of `PairOp.code`; a code that is not listed stands for none and fails the check of the encoder. -/
def PairOp.ofCode (c : BitVec 6) : PairOp :=
  match c.toNat with
  | 0 => .fadd
  | 1 => .fsub
  | 2 => .fmul
  | 3 => .fmin
  | 4 => .fmax
  | 5 => .hadd2
  | 6 => .hmul2
  | 7 => .hmin2
  | 8 => .hmax2
  | 9 => .imul
  | 10 => .imulh
  | 11 => .imin
  | 12 => .imax
  | 16 => .iadd
  | 17 => .isub
  | 18 => .and
  | 19 => .or
  | 20 => .xor
  | 21 => .andn
  | 22 => .shl
  | 23 => .shr
  | 24 => .sar
  | 25 => .rol
  | 26 => .mov
  | 27 => .ineg
  | 28 => .iabs
  | 29 => .clz
  | 30 => .popc
  | 31 => .brev
  | 32 => .cvtF32S32
  | 33 => .cvtS32F32
  | 34 => .cvtF32B32
  | 35 => .cvtB32F32
  | 36 => .cvtF32Bf16
  | 37 => .cvtBf16F32
  | 38 => .cvtF32F16
  | _ => .cvtF16F32

/-- 07 R149. -/
def CondTest.code : CondTest → BitVec 3
  | .eq => 0
  | .ne => 1
  | .below => 2
  | .aboveEq => 3

/-- The inverse of `CondTest.code`; a code that is not listed stands for none and fails the check of the encoder. -/
def CondTest.ofCode (c : BitVec 3) : CondTest :=
  match c.toNat with
  | 0 => .eq
  | 1 => .ne
  | 2 => .below
  | _ => .aboveEq

/-- 07 R155. -/
def SigOp.code : SigOp → BitVec 2
  | .store => 0
  | .add => 1
  | .notify => 2

/-- The inverse of `SigOp.code`; a code that is not listed stands for none and fails the check of the encoder. -/
def SigOp.ofCode (c : BitVec 2) : SigOp :=
  match c.toNat with
  | 0 => .store
  | 1 => .add
  | _ => .notify

/-! ### Fields of an F-form or X-form, 02 R35 -/

/-- The fields of R35; `x` is K = 10, and `lit` is its literal word (0 in an F-form). -/
structure Fields where
  x : Bool := false
  op : BitVec 10
  g : BitVec 6 := 0
  d : BitVec 10 := 0
  a : BitVec 10 := 0
  b : BitVec 10 := 0
  c : BitVec 10 := 0
  m : BitVec 6 := 0
  lit : DWord := 0
deriving DecidableEq, Repr

/-- The first word of the instruction. -/
def Fields.word (f : Fields) : DWord :=
  (if f.x then 2#2 else 0#2) ++ f.op ++ f.g ++ f.d ++ f.a ++ f.b ++ f.c ++ f.m

/-- The fields of a first word of kind 00 or 10. -/
def Fields.ofWord (w lit : DWord) : Fields :=
  let x := w.extractLsb' 62 2 == 2#2
  { x := x, op := w.extractLsb' 52 10, g := w.extractLsb' 46 6, d := w.extractLsb' 36 10, a := w.extractLsb' 26 10,
    b := w.extractLsb' 16 10, c := w.extractLsb' 6 10, m := w.extractLsb' 0 6, lit := if x then lit else 0 }

/-- Field G, 02 R36. -/
def Guard.enc : Guard → BitVec 6
  | .always => 0
  | .when neg r => 1#1 ++ BitVec.ofBool neg ++ r

/-- Reads field G. -/
def Guard.dec (g : BitVec 6) : Guard :=
  if g.getLsbD 5 then .when (g.getLsbD 4) (g.setWidth 4) else .always

/-- Field D, 02 R37. -/
def Dst.enc : Dst → BitVec 10
  | .v n => 0#2 ++ n
  | .vq n => 1#2 ++ n
  | .q n => 2#2 ++ n.setWidth 8
  | .lr => 3#2 ++ 0#8

/-- Reads field D. -/
def Dst.dec (f : BitVec 10) : Dst :=
  match (f.extractLsb' 8 2).toNat with
  | 0 => .v (f.setWidth 8)
  | 1 => .vq (f.setWidth 8)
  | 2 => .q (f.setWidth 3)
  | _ => .lr

/-- A source field, 02 R38. -/
def Src.enc : Src → BitVec 10
  | .v n => 0#2 ++ n
  | .q n => 1#2 ++ n.setWidth 8
  | .lr => 2#2 ++ 0#8
  | .imm i => 3#2 ++ i

/-- Reads a source field. -/
def Src.dec (f : BitVec 10) : Src :=
  match (f.extractLsb' 8 2).toNat with
  | 0 => .v (f.setWidth 8)
  | 1 => .q (f.setWidth 3)
  | 2 => .lr
  | _ => .imm (f.setWidth 8)

/-- Field B of an F-form; 0 in an X-form (02 R48). -/
def SrcB.enc : SrcB → BitVec 10
  | .src s => s.enc
  | .lit _ => 0
/-- Whether the form is an X-form. -/
def SrcB.isX : SrcB → Bool
  | .src _ => false
  | .lit _ => true
/-- The literal word. -/
def SrcB.litWord : SrcB → DWord
  | .src _ => 0
  | .lit l => l

/-- The offset in field B, 06 R122. -/
def Off.enc : Off → BitVec 10
  | .imm i => 3#2 ++ i
  | .lit _ => 0
/-- Whether the form is an X-form. -/
def Off.isX : Off → Bool
  | .imm _ => false
  | .lit _ => true
/-- The literal word. -/
def Off.litWord : Off → DWord
  | .imm _ => 0
  | .lit l => l

/-- A main-file register at target or level 00. -/
def RegIx.enc (r : RegIx) : BitVec 10 := 0#2 ++ r

/-- The guard of a word. -/
def Fields.gd (f : Fields) : Guard := Guard.dec f.g
/-- The destination. -/
def Fields.dst (f : Fields) : Dst := Dst.dec f.d
/-- The first source. -/
def Fields.srcA (f : Fields) : Src := Src.dec f.a
/-- The second source. -/
def Fields.srcB (f : Fields) : SrcB := if f.x then .lit f.lit else .src (Src.dec f.b)
/-- Field B as a source only. -/
def Fields.regB (f : Fields) : Src := Src.dec f.b
/-- The third source. -/
def Fields.srcC (f : Fields) : Src := Src.dec f.c
/-- The memory offset. -/
def Fields.off (f : Fields) : Off := if f.x then .lit f.lit else .imm (f.b.setWidth 8)
/-- The index in field D. -/
def Fields.dIx (f : Fields) : RegIx := f.d.setWidth 8
/-- The index in field A. -/
def Fields.aIx (f : Fields) : RegIx := f.a.setWidth 8
/-- The index in field B. -/
def Fields.bIx (f : Fields) : RegIx := f.b.setWidth 8
/-- The index in field C. -/
def Fields.cIx (f : Fields) : RegIx := f.c.setWidth 8
/-- M[5:3]. -/
def Fields.mHi (f : Fields) : BitVec 3 := f.m.extractLsb' 3 3
/-- M[2:0]. -/
def Fields.mLo (f : Fields) : BitVec 3 := f.m.setWidth 3
/-- M[2:1], the rounding code. -/
def Fields.rm (f : Fields) : Rnd := Rnd.ofCode (f.m.extractLsb' 1 2)
/-- The integer type. -/
def Fields.ity (f : Fields) : IntTy := IntTy.ofCode f.mHi
/-- The floating format. -/
def Fields.fmt (f : Fields) : Fmt := Fmt.ofCode f.mHi
/-- The helper type. -/
def Fields.nty (f : Fields) : NTy := NTy.ofCode f.mHi
/-- The scope. -/
def Fields.sc (f : Fields) : Scope := Scope.ofCode f.mHi
/-- The memory width. -/
def Fields.mw (f : Fields) : MemW := MemW.ofCode f.mLo

/-! ### P-form slots, 02 R51 and R53 -/

/-- mod[6:4]: the code of R44 or R45, 000 for a conversion. -/
def PairTy.code : PairTy → BitVec 3
  | .s32 => 2
  | .b32 => 6
  | .f32 | .fixed => 0
  | .f16x2 => 3
  | .bf16x2 => 4

/-- Reads mod[6:4] of operation `op`. -/
def PairTy.ofCode (op : PairOp) (c : BitVec 3) : PairTy :=
  match c.toNat with
  | 2 => .s32
  | 6 => .b32
  | 3 => .f16x2
  | 4 => .bf16x2
  | _ => if op.okTy .fixed then .fixed else .f32

/-- A slot as 31 bits. -/
def Slot.enc (s : Slot) : BitVec 31 :=
  s.op.code ++ s.d ++ s.s.enc ++ s.ty.code ++ s.rm.code ++ 0#2

/-- Reads a slot. -/
def Slot.dec (w : BitVec 31) : Slot :=
  let op := PairOp.ofCode (w.extractLsb' 25 6)
  { op := op, ty := PairTy.ofCode op (w.extractLsb' 4 3), rm := Rnd.ofCode (w.extractLsb' 2 2),
    d := w.extractLsb' 17 8, s := Src.dec (w.extractLsb' 7 10) }

/-- The P-form word. -/
def pairEnc (a b : Slot) : DWord := 1#2 ++ a.enc ++ b.enc

/-! ### The encoder -/

/-- The fields of an F-form or X-form instruction, from the encoding tables of 02 R59, 04 R91, 05 R111, R113, 06 R128, R131, R135, R136,
07 R163, 08 R178, R181, 10 R207, 11 R225, R236, 12 R270, 14 R317, 15 R346, 16 R374 and 17 R394; none for the other rows. -/
def Instr.fields : Instr → Option Fields
  | .nop => some { op := 0x0 }
  | .br g b => some { x := b.isX, op := 0x1, g := g.enc, b := b.enc, lit := b.litWord }
  | .bri g a => some { op := 0x2, g := g.enc, a := a.enc }
  | .call g d b => some { x := b.isX, op := 0x3, g := g.enc, d := d.enc, b := b.enc, lit := b.litWord }
  | .calli g d a => some { op := 0x4, g := g.enc, d := d.enc, a := a.enc }
  | .ret g a => some { op := 0x5, g := g.enc, a := a.enc }
  | .exit g => some { op := 0x6, g := g.enc }
  | .yield g => some { op := 0x7, g := g.enc }
  | .bar g n b => some { x := n.isX, op := 0x8, g := g.enc, b := n.enc, c := b.setWidth 10, lit := n.litWord }
  | .barArr g n b => some { x := n.isX, op := 0x9, g := g.enc, b := n.enc, c := b.setWidth 10, lit := n.litWord }
  | .barWt g b => some { op := 0xA, g := g.enc, c := b.setWidth 10 }
  | .nap g d l ch => some { x := l.isX, op := 0xB, g := g.enc, d := d.enc, b := l.enc, c := ch.setWidth 10, lit := l.litWord }
  | .ntfy g t v ch => some { x := v.isX, op := 0xC, g := g.enc, a := t.enc, b := v.enc, c := ch.setWidth 10, lit := v.litWord }
  | .take g d c => some { op := 0x10, g := g.enc, d := d.enc, c := c.enc }
  | .takeG g d c => some { op := 0x11, g := g.enc, d := d.enc, c := c.enc }
  | .relabel g b k => some { x := b.isX, op := 0x12, g := g.enc, b := b.enc, c := k.setWidth 10, lit := b.litWord }
  | .done g => some { op := 0x13, g := g.enc }
  | .stOrd g s w a o c => some { x := o.isX, op := 0x14, g := g.enc, a := a.enc, b := o.enc, c := c.enc, m := s.code ++ w.code, lit := o.litWord }
  | .itemi g d a b k => some { x := b.isX, op := 0x15, g := g.enc, d := d.enc, a := a.enc, b := b.enc, c := k.setWidth 10, lit := b.litWord }
  | .flowi g d b k => some { x := b.isX, op := 0x16, g := g.enc, d := d.enc, b := b.enc, c := k.setWidth 10, lit := b.litWord }
  | .iadd g t d a b => some { x := b.isX, op := 0x80, g := g.enc, d := d.enc, a := a.enc, b := b.enc, m := t.code ++ 0#3, lit := b.litWord }
  | .isub g t d a b => some { x := b.isX, op := 0x81, g := g.enc, d := d.enc, a := a.enc, b := b.enc, m := t.code ++ 0#3, lit := b.litWord }
  | .iaddc g p t d a b c => some { x := b.isX, op := 0x82, g := g.enc, d := d.enc, a := a.enc, b := b.enc, c := c.enc, m := t.code ++ p.code, lit := b.litWord }
  | .imul g t d a b => some { x := b.isX, op := 0x83, g := g.enc, d := d.enc, a := a.enc, b := b.enc, m := t.code ++ 0#3, lit := b.litWord }
  | .imulh g t d a b => some { x := b.isX, op := 0x84, g := g.enc, d := d.enc, a := a.enc, b := b.enc, m := t.code ++ 0#3, lit := b.litWord }
  | .imad g t d a b c => some { x := b.isX, op := 0x85, g := g.enc, d := d.enc, a := a.enc, b := b.enc, c := c.enc, m := t.code ++ 0#3, lit := b.litWord }
  | .imadh g t d a b c => some { x := b.isX, op := 0x86, g := g.enc, d := d.enc, a := a.enc, b := b.enc, c := c.enc, m := t.code ++ 0#3, lit := b.litWord }
  | .idiv g t d a b => some { x := b.isX, op := 0x87, g := g.enc, d := d.enc, a := a.enc, b := b.enc, m := t.code ++ 0#3, lit := b.litWord }
  | .irem g t d a b => some { x := b.isX, op := 0x88, g := g.enc, d := d.enc, a := a.enc, b := b.enc, m := t.code ++ 0#3, lit := b.litWord }
  | .imin g t d a b => some { x := b.isX, op := 0x89, g := g.enc, d := d.enc, a := a.enc, b := b.enc, m := t.code ++ 0#3, lit := b.litWord }
  | .imax g t d a b => some { x := b.isX, op := 0x8A, g := g.enc, d := d.enc, a := a.enc, b := b.enc, m := t.code ++ 0#3, lit := b.litWord }
  | .iabs g t d a => some { op := 0x8B, g := g.enc, d := d.enc, a := a.enc, m := t.code ++ 0#3 }
  | .ineg g t d a => some { op := 0x8C, g := g.enc, d := d.enc, a := a.enc, m := t.code ++ 0#3 }
  | .and g t d a b => some { x := b.isX, op := 0x90, g := g.enc, d := d.enc, a := a.enc, b := b.enc, m := t.code ++ 0#3, lit := b.litWord }
  | .or g t d a b => some { x := b.isX, op := 0x91, g := g.enc, d := d.enc, a := a.enc, b := b.enc, m := t.code ++ 0#3, lit := b.litWord }
  | .xor g t d a b => some { x := b.isX, op := 0x92, g := g.enc, d := d.enc, a := a.enc, b := b.enc, m := t.code ++ 0#3, lit := b.litWord }
  | .andn g t d a b => some { x := b.isX, op := 0x93, g := g.enc, d := d.enc, a := a.enc, b := b.enc, m := t.code ++ 0#3, lit := b.litWord }
  | .shl g t d a b => some { x := b.isX, op := 0x94, g := g.enc, d := d.enc, a := a.enc, b := b.enc, m := t.code ++ 0#3, lit := b.litWord }
  | .shr g t d a b => some { x := b.isX, op := 0x95, g := g.enc, d := d.enc, a := a.enc, b := b.enc, m := t.code ++ 0#3, lit := b.litWord }
  | .sar g t d a b => some { x := b.isX, op := 0x96, g := g.enc, d := d.enc, a := a.enc, b := b.enc, m := t.code ++ 0#3, lit := b.litWord }
  | .rol g t d a b => some { x := b.isX, op := 0x97, g := g.enc, d := d.enc, a := a.enc, b := b.enc, m := t.code ++ 0#3, lit := b.litWord }
  | .clz g t d a => some { op := 0x98, g := g.enc, d := d.enc, a := a.enc, m := t.code ++ 0#3 }
  | .ctz g t d a => some { op := 0x99, g := g.enc, d := d.enc, a := a.enc, m := t.code ++ 0#3 }
  | .popc g t d a => some { op := 0x9A, g := g.enc, d := d.enc, a := a.enc, m := t.code ++ 0#3 }
  | .brev g t d a => some { op := 0x9B, g := g.enc, d := d.enc, a := a.enc, m := t.code ++ 0#3 }
  | .bfe g t d a b => some { x := b.isX, op := 0x9C, g := g.enc, d := d.enc, a := a.enc, b := b.enc, m := t.code ++ 0#3, lit := b.litWord }
  | .bfi g t d a b c => some { x := b.isX, op := 0x9D, g := g.enc, d := d.enc, a := a.enc, b := b.enc, c := c.enc, m := t.code ++ 0#3, lit := b.litWord }
  | .bsel g t d a b c => some { x := b.isX, op := 0x9E, g := g.enc, d := d.enc, a := a.enc, b := b.enc, c := c.enc, m := t.code ++ 0#3, lit := b.litWord }
  | .sel g t d a b c => some { x := b.isX, op := 0x9F, g := g.enc, d := d.enc, a := a.enc, b := b.enc, c := c.enc, m := t.code ++ 0#3, lit := b.litWord }
  | .icmp g p t d a b => some { x := b.isX, op := 0xA0, g := g.enc, d := d.enc, a := a.enc, b := b.enc, m := t.code ++ p.code, lit := b.litWord }
  | .isat g p t d a => some { op := 0xA1, g := g.enc, d := d.enc, a := a.enc, m := t.code ++ p.code }
  | .add64 g d a b => some { x := b.isX, op := 0xA2, g := g.enc, d := d.enc, a := a.enc, b := b.enc, m := 0x38, lit := b.litWord }
  | .sub64 g d a b => some { x := b.isX, op := 0xA3, g := g.enc, d := d.enc, a := a.enc, b := b.enc, m := 0x38, lit := b.litWord }
  | .lea64 g x d a b s => some { x := b.isX, op := 0xA4, g := g.enc, d := d.enc, a := a.enc, b := b.enc, c := s.setWidth 10, m := 0x1C#5 ++ BitVec.ofBool x, lit := b.litWord }
  | .mov g t d a => some { op := 0xA5, g := g.enc, d := d.enc, a := a.enc, m := t.code ++ 0#3 }
  | .movi g t d b => some { x := b.isX, op := 0xA6, g := g.enc, d := d.enc, b := b.enc, m := t.code ++ 0#3, lit := b.litWord }
  | .fadd g t r d a b => some { x := b.isX, op := 0x100, g := g.enc, d := d.enc, a := a.enc, b := b.enc, m := t.code ++ r.code ++ 0#1, lit := b.litWord }
  | .fsub g t r d a b => some { x := b.isX, op := 0x101, g := g.enc, d := d.enc, a := a.enc, b := b.enc, m := t.code ++ r.code ++ 0#1, lit := b.litWord }
  | .fmul g t r d a b => some { x := b.isX, op := 0x102, g := g.enc, d := d.enc, a := a.enc, b := b.enc, m := t.code ++ r.code ++ 0#1, lit := b.litWord }
  | .ffma g t r d a b c => some { x := b.isX, op := 0x103, g := g.enc, d := d.enc, a := a.enc, b := b.enc, c := c.enc, m := t.code ++ r.code ++ 0#1, lit := b.litWord }
  | .fmin g t d a b => some { x := b.isX, op := 0x104, g := g.enc, d := d.enc, a := a.enc, b := b.enc, m := t.code ++ 0#3, lit := b.litWord }
  | .fmax g t d a b => some { x := b.isX, op := 0x105, g := g.enc, d := d.enc, a := a.enc, b := b.enc, m := t.code ++ 0#3, lit := b.litWord }
  | .fcmp g p t d a b => some { x := b.isX, op := 0x106, g := g.enc, d := d.enc, a := a.enc, b := b.enc, c := p.code.setWidth 10, m := t.code ++ 0#3, lit := b.litWord }
  | .fcls g t d a => some { op := 0x107, g := g.enc, d := d.enc, a := a.enc, m := t.code ++ 0#3 }
  | .frnd g t r d a => some { op := 0x108, g := g.enc, d := d.enc, a := a.enc, m := t.code ++ r.code ++ 0#1 }
  | .fcvt g p q r d a => some { op := 0x109, g := g.enc, d := d.enc, a := a.enc, c := 0#2 ++ p.code ++ q.code, m := 0#3 ++ r.code ++ 0#1 }
  | .fpk g t r d a b => some { x := b.isX, op := 0x10A, g := g.enc, d := d.enc, a := a.enc, b := b.enc, m := t.code ++ r.code ++ 0#1, lit := b.litWord }
  | .fpkN8 g h r d a b c => some { x := b.isX, op := 0x10A, g := g.enc, d := d.enc, a := a.enc, b := b.enc, c := c.enc, m := 5#3 ++ r.code ++ BitVec.ofBool h, lit := b.litWord }
  | .hadd2 g t r d a b => some { x := b.isX, op := 0x110, g := g.enc, d := d.enc, a := a.enc, b := b.enc, m := t.code ++ r.code ++ 0#1, lit := b.litWord }
  | .hmul2 g t r d a b => some { x := b.isX, op := 0x111, g := g.enc, d := d.enc, a := a.enc, b := b.enc, m := t.code ++ r.code ++ 0#1, lit := b.litWord }
  | .hfma2 g t r d a b c => some { x := b.isX, op := 0x112, g := g.enc, d := d.enc, a := a.enc, b := b.enc, c := c.enc, m := t.code ++ r.code ++ 0#1, lit := b.litWord }
  | .hmin2 g t d a b => some { x := b.isX, op := 0x113, g := g.enc, d := d.enc, a := a.enc, b := b.enc, m := t.code ++ 0#3, lit := b.litWord }
  | .hmax2 g t d a b => some { x := b.isX, op := 0x114, g := g.enc, d := d.enc, a := a.enc, b := b.enc, m := t.code ++ 0#3, lit := b.litWord }
  | .sfuRcp g d a => some { op := 0x120, g := g.enc, d := d.enc, a := a.enc }
  | .sfuRsq g d a => some { op := 0x121, g := g.enc, d := d.enc, a := a.enc }
  | .sfuSqrt g d a => some { op := 0x122, g := g.enc, d := d.enc, a := a.enc }
  | .sfuExp2 g d a => some { op := 0x123, g := g.enc, d := d.enc, a := a.enc }
  | .sfuLog2 g d a => some { op := 0x124, g := g.enc, d := d.enc, a := a.enc }
  | .sfuSin g d a => some { op := 0x125, g := g.enc, d := d.enc, a := a.enc }
  | .sfuCos g d a => some { op := 0x126, g := g.enc, d := d.enc, a := a.enc }
  | .sfuTanh g d a => some { op := 0x127, g := g.enc, d := d.enc, a := a.enc }
  | .dot4 g t r d a b c => some { x := b.isX, op := 0x180, g := g.enc, d := d.enc, a := a.enc, b := b.enc, c := c.enc, m := t.code ++ r.code ++ 0#1, lit := b.litWord }
  | .dot8 g t r d a b c => some { x := b.isX, op := 0x181, g := g.enc, d := d.enc, a := a.enc, b := b.enc, c := c.enc, m := t.code ++ r.code ++ 0#1, lit := b.litWord }
  | .bscl g r d a b c => some { x := b.isX, op := 0x182, g := g.enc, d := d.enc, a := a.enc, b := b.enc, c := c.enc, m := 6#3 ++ r.code ++ 0#1, lit := b.litWord }
  | .bexp g t d a => some { op := 0x183, g := g.enc, d := d.enc, a := a.enc, m := t.code ++ 0#3 }
  | .mexp g t d a b => some { x := b.isX, op := 0x184, g := g.enc, d := d.enc, a := a.enc, b := b.enc, m := t.code ++ 0#3, lit := b.litWord }
  | .cmpr g t d a b => some { x := b.isX, op := 0x190, g := g.enc, d := d.enc, a := a.enc, b := b.enc, m := t.code ++ 0#3, lit := b.litWord }
  | .expd g t d a b => some { x := b.isX, op := 0x191, g := g.enc, d := d.enc, a := a.enc, b := b.enc, m := t.code ++ 0#3, lit := b.litWord }
  | .lxch g p t d a b => some { x := b.isX, op := 0x192, g := g.enc, d := d.enc, a := a.enc, b := b.enc, m := t.code ++ p.code, lit := b.litWord }
  | .vote g p d a => some { op := 0x193, g := g.enc, d := d.enc, a := a.enc, m := 0#3 ++ p.code }
  | .scan g p e t d a => some { op := 0x194, g := g.enc, d := d.enc, a := a.enc, m := t.code ++ p.code ++ BitVec.ofBool e }
  | .matchL g l t d a => some { op := 0x195, g := g.enc, d := d.enc, a := a.enc, m := t.code ++ 0#2 ++ BitVec.ofBool l }
  | .cxch g t d a b => some { x := b.isX, op := 0x196, g := g.enc, d := d.enc, a := a.enc, b := b.enc, m := t.code ++ 0#3, lit := b.litWord }
  | .spk24 g t d a => some { op := 0x197, g := g.enc, d := d.enc, a := a.enc, m := t.code ++ 0#3 }
  | .sxp24 g t d a => some { op := 0x198, g := g.enc, d := d.enc, a := a.enc, m := t.code ++ 0#3 }
  | .ffs g t d a b => some { x := b.isX, op := 0x199, g := g.enc, d := d.enc, a := a.enc, b := b.enc, m := t.code ++ 0#3, lit := b.litWord }
  | .ld g w d a o => some { x := o.isX, op := 0x1C0, g := g.enc, d := d.enc, a := a.enc, b := o.enc, m := 0#3 ++ w.code, lit := o.litWord }
  | .st g w a o c => some { x := o.isX, op := 0x1C1, g := g.enc, a := a.enc, b := o.enc, c := c.enc, m := 0#3 ++ w.code, lit := o.litWord }
  | .lds g w d a o => some { x := o.isX, op := 0x1C2, g := g.enc, d := d.enc, a := a.enc, b := o.enc, m := 0#3 ++ w.code, lit := o.litWord }
  | .sts g w a o c => some { x := o.isX, op := 0x1C3, g := g.enc, a := a.enc, b := o.enc, c := c.enc, m := 0#3 ++ w.code, lit := o.litWord }
  | .ldAcq g s w d a o => some { x := o.isX, op := 0x1C4, g := g.enc, d := d.enc, a := a.enc, b := o.enc, m := s.code ++ w.code, lit := o.litWord }
  | .stRel g s w a o c => some { x := o.isX, op := 0x1C5, g := g.enc, a := a.enc, b := o.enc, c := c.enc, m := s.code ++ w.code, lit := o.litWord }
  | .atom g p n s z d a b => some { x := b.isX, op := 0x1D0, g := g.enc, d := d.enc, a := a.enc, b := b.enc, c := p.code ++ BitVec.ofBool n ++ 0#6, m := s.code ++ 1#2 ++ BitVec.ofBool z, lit := b.litWord }
  | .atomBnd g s z d a b => some { x := b.isX, op := 0x1D1, g := g.enc, d := d.enc, a := a.enc, b := b.enc, m := s.code ++ 1#2 ++ BitVec.ofBool z, lit := b.litWord }
  | .atomTopk g n k s d a b => some { op := 0x1D2, g := g.enc, d := d.enc, a := a.enc, b := b.enc, c := k ++ BitVec.ofBool n ++ 0#6, m := s.code ++ 6#3 }
  | .red g p n s z a b => some { x := b.isX, op := 0x1D3, g := g.enc, a := a.enc, b := b.enc, c := p.code ++ BitVec.ofBool n ++ 0#6, m := s.code ++ 1#2 ++ BitVec.ofBool z, lit := b.litWord }
  | .pfL1 g a o => some { x := o.isX, op := 0x1E0, g := g.enc, a := a.enc, b := o.enc, lit := o.litWord }
  | .pfL2 g a o => some { x := o.isX, op := 0x1E0, g := g.enc, a := a.enc, b := o.enc, c := 1, lit := o.litWord }
  | .fence s => some { op := 0x1E1, m := s.code ++ 0#3 }
  | .cpGo g d a => some { op := 0x240, g := g.enc, d := d.enc, a := a.enc }
  | .cpStop g a => some { op := 0x241, g := g.enc, a := a.enc }
  | .cpStat g d a => some { op := 0x242, g := g.enc, d := d.enc, a := a.enc }
  | .waitc l s c t => some { op := 0x243, a := 3#2 ++ l.setWidth 8, b := 3#2 ++ s.setWidth 8, c := c.setWidth 10, m := t }
  | .shfOpen g d a b => some { x := b.isX, op := 0x250, g := g.enc, d := d.enc, a := a.enc, b := b.enc, lit := b.litWord }
  | .shfSide g d a b c => some { x := b.isX, op := 0x251, g := g.enc, d := d.enc, a := a.enc, b := b.enc, c := c.enc, lit := b.litWord }
  | .shfDrop g d a b => some { x := b.isX, op := 0x252, g := g.enc, d := d.enc, a := a.enc, b := b.enc, lit := b.litWord }
  | .shfClose g d b => some { x := b.isX, op := 0x253, g := g.enc, d := d.enc, b := b.enc, lit := b.litWord }
  | .arnChk g d a => some { op := 0x260, g := g.enc, d := d.enc, a := a.enc }
  | .arnWin g d a => some { op := 0x261, g := g.enc, d := d.enc, a := a.enc }
  | .cwb g y a b => some { x := b.isX, op := 0x270, g := g.enc, a := a.enc, b := b.enc, m := 1#1 ++ BitVec.ofBool y ++ 8#4, lit := b.litWord }
  | .cinv g a b => some { x := b.isX, op := 0x271, g := g.enc, a := a.enc, b := b.enc, lit := b.litWord }
  | .cdrop g a b => some { x := b.isX, op := 0x272, g := g.enc, a := a.enc, b := b.enc, lit := b.litWord }
  | .cvd g n b => some { x := b.isX, op := 0x280, g := g.enc, b := b.enc, m := 0#1 ++ n ++ 0#1, lit := b.litWord }
  | .cvdMask g n b => some { x := b.isX, op := 0x280, g := g.enc, b := b.enc, m := 1#1 ++ n ++ 0#1, lit := b.litWord }
  | .mma g n r a b c => some { x := b.isX, op := 0x281, g := g.enc, a := a.enc, b := b.enc, c := c.enc, m := 0#1 ++ n ++ BitVec.ofBool r, lit := b.litWord }
  | .acg g d b => some { x := b.isX, op := 0x290, g := g.enc, d := d.enc, b := b.enc, lit := b.litWord }
  | .acp g b => some { x := b.isX, op := 0x291, g := g.enc, b := b.enc, lit := b.litWord }
  | .acz g a b => some { x := b.isX, op := 0x292, g := g.enc, a := a.enc, b := b.enc, lit := b.litWord }
  | .acn g a b => some { x := b.isX, op := 0x293, g := g.enc, a := a.enc, b := b.enc, lit := b.litWord }
  | .ach g d a => some { op := 0x294, g := g.enc, d := d.enc, a := a.enc }
  | .acr g e d a b => some { x := b.isX, op := 0x295, g := g.enc, d := d.enc, a := a.enc, b := b.enc, m := 0#1 ++ e.code ++ 0#1, lit := b.litWord }
  | .acrImg g a b => some { x := b.isX, op := 0x295, g := g.enc, a := a.enc, b := b.enc, m := 0x20, lit := b.litWord }
  | .acw g e a c b => some { x := b.isX, op := 0x296, g := g.enc, a := a.enc, b := b.enc, c := c.enc, m := 0#1 ++ e.code ++ 0#1, lit := b.litWord }
  | .acwImg g a b => some { x := b.isX, op := 0x296, g := g.enc, a := a.enc, b := b.enc, m := 0x20, lit := b.litWord }
  | .rget g b => some { x := b.isX, op := 0x2C0, g := g.enc, b := b.enc, lit := b.litWord }
  | .rput g b => some { x := b.isX, op := 0x2C1, g := g.enc, b := b.enc, lit := b.litWord }
  | .srd g d z => some { op := 0x2C2, g := g.enc, d := d.enc, c := 0#2 ++ z.code }
  | .bfqPost g d a b => some { x := b.isX, op := 0x2E0, g := g.enc, d := d.enc, a := a.enc, b := b.enc, lit := b.litWord }
  | .bfqTake g d a b c => some { x := b.isX, op := 0x2E1, g := g.enc, d := d.enc, a := a.enc, b := b.enc, c := c.enc, lit := b.litWord }
  | .bfqDone g d a => some { op := 0x2E2, g := g.enc, d := d.enc, a := a.enc }
  | .bfqDoneWd g d a => some { op := 0x2E2, g := g.enc, d := d.enc, a := a.enc, m := 1 }
  | .trap g b => some { x := b.isX, op := 0x300, g := g.enc, b := b.enc, lit := b.litWord }
  | .brk g b => some { x := b.isX, op := 0x301, g := g.enc, b := b.enc, lit := b.litWord }
  | .kret => some { op := 0x302 }
  | .fret => some { op := 0x303 }
  | .syr g d z => some { op := 0x304, g := g.enc, d := d.enc, c := 0#2 ++ z.code }
  | .syw g a z => some { op := 0x305, g := g.enc, a := a.enc, c := 0#2 ++ z.code }
  | .tlbi g d a b c => some { x := b.isX, op := 0x306, g := g.enc, d := d.enc, a := a.enc, b := b.enc, c := (match c with | some r => r.enc | none => 0x300), lit := b.litWord }
  | .pfack g d a b => some { op := 0x307, g := g.enc, d := d.enc, a := a.enc, b := b.enc }
  | .ctxsv g d a b => some { op := 0x308, g := g.enc, d := d.enc, a := a.enc, b := b.enc }
  | .ctxld g d a => some { op := 0x309, g := g.enc, d := d.enc, a := a.enc }
  | .halt g => some { op := 0x30A, g := g.enc }
  | .keyld g d a b => some { x := b.isX, op := 0x30B, g := g.enc, d := d.enc, a := a.enc, b := b.enc, lit := b.litWord }
  | .fwqPull g d a => some { op := 0x30C, g := g.enc, d := d.enc, a := a.enc }
  | .fwqPush g d a => some { op := 0x30C, g := g.enc, d := d.enc, a := a.enc, c := 1 }
  | .fwqAct g d a e => some { op := 0x30C, g := g.enc, d := d.enc, a := a.enc, b := 0x180#9 ++ BitVec.ofBool e, c := 2 }
  | _ => none

/-! ### The parser, by major opcode (02 R59) -/

/-- Control, items, flows (14 R317). -/
def parseCtl : List (Nat × (Fields → Instr)) :=
  [(0x0, fun _ => .nop),
   (0x1, fun f => .br f.gd f.srcB),
   (0x2, fun f => .bri f.gd f.srcA),
   (0x3, fun f => .call f.gd f.dIx f.srcB),
   (0x4, fun f => .calli f.gd f.dIx f.srcA),
   (0x5, fun f => .ret f.gd f.srcA),
   (0x6, fun f => .exit f.gd),
   (0x7, fun f => .yield f.gd),
   (0x8, fun f => .bar f.gd f.srcB (f.c.setWidth 4)),
   (0x9, fun f => .barArr f.gd f.srcB (f.c.setWidth 4)),
   (0xA, fun f => .barWt f.gd (f.c.setWidth 4)),
   (0xB, fun f => .nap f.gd f.dIx f.srcB (f.c.setWidth 4))] ++
  [(0xC, fun f => .ntfy f.gd f.srcA f.srcB (f.c.setWidth 4)),
   (0x10, fun f => .take f.gd f.dIx f.cIx),
   (0x11, fun f => .takeG f.gd f.dIx f.cIx),
   (0x12, fun f => .relabel f.gd f.srcB (f.c.setWidth 2)),
   (0x13, fun f => .done f.gd),
   (0x14, fun f => .stOrd f.gd f.sc f.mw f.srcA f.off f.srcC),
   (0x15, fun f => .itemi f.gd f.dIx f.srcA f.srcB (f.c.setWidth 2)),
   (0x16, fun f => .flowi f.gd f.dIx f.srcB (f.c.setWidth 2))]

/-- Integer and address (10 R207). -/
def parseInt : List (Nat × (Fields → Instr)) :=
  [(0x80, fun f => .iadd f.gd f.ity f.dst f.srcA f.srcB),
   (0x81, fun f => .isub f.gd f.ity f.dst f.srcA f.srcB),
   (0x82, fun f => .iaddc f.gd (.ofCode f.mLo) f.ity f.dst f.srcA f.srcB f.srcC),
   (0x83, fun f => .imul f.gd f.ity f.dst f.srcA f.srcB),
   (0x84, fun f => .imulh f.gd f.ity f.dst f.srcA f.srcB),
   (0x85, fun f => .imad f.gd f.ity f.dst f.srcA f.srcB f.srcC),
   (0x86, fun f => .imadh f.gd f.ity f.dst f.srcA f.srcB f.srcC),
   (0x87, fun f => .idiv f.gd f.ity f.dst f.srcA f.srcB),
   (0x88, fun f => .irem f.gd f.ity f.dst f.srcA f.srcB),
   (0x89, fun f => .imin f.gd f.ity f.dst f.srcA f.srcB),
   (0x8A, fun f => .imax f.gd f.ity f.dst f.srcA f.srcB),
   (0x8B, fun f => .iabs f.gd f.ity f.dst f.srcA)] ++
  [(0x8C, fun f => .ineg f.gd f.ity f.dst f.srcA),
   (0x90, fun f => .and f.gd f.ity f.dst f.srcA f.srcB),
   (0x91, fun f => .or f.gd f.ity f.dst f.srcA f.srcB),
   (0x92, fun f => .xor f.gd f.ity f.dst f.srcA f.srcB),
   (0x93, fun f => .andn f.gd f.ity f.dst f.srcA f.srcB),
   (0x94, fun f => .shl f.gd f.ity f.dst f.srcA f.srcB),
   (0x95, fun f => .shr f.gd f.ity f.dst f.srcA f.srcB),
   (0x96, fun f => .sar f.gd f.ity f.dst f.srcA f.srcB),
   (0x97, fun f => .rol f.gd f.ity f.dst f.srcA f.srcB),
   (0x98, fun f => .clz f.gd f.ity f.dst f.srcA),
   (0x99, fun f => .ctz f.gd f.ity f.dst f.srcA),
   (0x9A, fun f => .popc f.gd f.ity f.dst f.srcA)] ++
  [(0x9B, fun f => .brev f.gd f.ity f.dst f.srcA),
   (0x9C, fun f => .bfe f.gd f.ity f.dst f.srcA f.srcB),
   (0x9D, fun f => .bfi f.gd f.ity f.dst f.srcA f.srcB f.srcC),
   (0x9E, fun f => .bsel f.gd f.ity f.dst f.srcA f.srcB f.srcC),
   (0x9F, fun f => .sel f.gd f.ity f.dst f.srcA f.srcB f.srcC),
   (0xA0, fun f => .icmp f.gd (.ofCode f.mLo) f.ity f.dst f.srcA f.srcB),
   (0xA1, fun f => .isat f.gd (.ofCode f.mLo) f.ity f.dst f.srcA),
   (0xA2, fun f => .add64 f.gd f.dst f.srcA f.srcB),
   (0xA3, fun f => .sub64 f.gd f.dst f.srcA f.srcB),
   (0xA4, fun f => .lea64 f.gd (f.m.getLsbD 0) f.dst f.srcA f.srcB (f.c.setWidth 6)),
   (0xA5, fun f => .mov f.gd f.ity f.dst f.srcA),
   (0xA6, fun f => .movi f.gd f.ity f.dst f.srcB)]

/-- Floating point, special functions (11 R225). -/
def parseFlt : List (Nat × (Fields → Instr)) :=
  [(0x100, fun f => .fadd f.gd f.fmt f.rm f.dst f.srcA f.srcB),
   (0x101, fun f => .fsub f.gd f.fmt f.rm f.dst f.srcA f.srcB),
   (0x102, fun f => .fmul f.gd f.fmt f.rm f.dst f.srcA f.srcB),
   (0x103, fun f => .ffma f.gd f.fmt f.rm f.dst f.srcA f.srcB f.srcC),
   (0x104, fun f => .fmin f.gd f.fmt f.dst f.srcA f.srcB),
   (0x105, fun f => .fmax f.gd f.fmt f.dst f.srcA f.srcB),
   (0x106, fun f => .fcmp f.gd (.ofCode (f.c.setWidth 3)) f.fmt f.dst f.srcA f.srcB),
   (0x107, fun f => .fcls f.gd f.fmt f.dst f.srcA),
   (0x108, fun f => .frnd f.gd f.fmt f.rm f.dst f.srcA),
   (0x109, fun f => .fcvt f.gd (.ofCode (f.c.extractLsb' 4 4)) (.ofCode (f.c.setWidth 4)) f.rm f.dst f.srcA),
   (0x10A, fun f => if f.fmt == .n8 then .fpkN8 f.gd (f.m.getLsbD 0) f.rm f.dst f.srcA f.srcB f.srcC else .fpk f.gd f.fmt f.rm f.dst f.srcA f.srcB),
   (0x110, fun f => .hadd2 f.gd f.fmt f.rm f.dst f.srcA f.srcB)] ++
  [(0x111, fun f => .hmul2 f.gd f.fmt f.rm f.dst f.srcA f.srcB),
   (0x112, fun f => .hfma2 f.gd f.fmt f.rm f.dst f.srcA f.srcB f.srcC),
   (0x113, fun f => .hmin2 f.gd f.fmt f.dst f.srcA f.srcB),
   (0x114, fun f => .hmax2 f.gd f.fmt f.dst f.srcA f.srcB),
   (0x120, fun f => .sfuRcp f.gd f.dst f.srcA),
   (0x121, fun f => .sfuRsq f.gd f.dst f.srcA),
   (0x122, fun f => .sfuSqrt f.gd f.dst f.srcA),
   (0x123, fun f => .sfuExp2 f.gd f.dst f.srcA),
   (0x124, fun f => .sfuLog2 f.gd f.dst f.srcA),
   (0x125, fun f => .sfuSin f.gd f.dst f.srcA),
   (0x126, fun f => .sfuCos f.gd f.dst f.srcA),
   (0x127, fun f => .sfuTanh f.gd f.dst f.srcA)]

/-- Narrow dot products, helpers (11 R236). -/
def parseNar : List (Nat × (Fields → Instr)) :=
  [(0x180, fun f => .dot4 f.gd f.nty f.rm f.dst f.srcA f.srcB f.srcC),
   (0x181, fun f => .dot8 f.gd f.nty f.rm f.dst f.srcA f.srcB f.srcC),
   (0x182, fun f => .bscl f.gd f.rm f.dst f.srcA f.srcB f.srcC),
   (0x183, fun f => .bexp f.gd f.nty f.dst f.srcA),
   (0x184, fun f => .mexp f.gd f.nty f.dst f.srcA f.srcB),
   (0x190, fun f => .cmpr f.gd f.nty f.dst f.srcA f.srcB),
   (0x191, fun f => .expd f.gd f.nty f.dst f.srcA f.srcB),
   (0x192, fun f => .lxch f.gd (.ofCode f.mLo) f.nty f.dst f.srcA f.srcB),
   (0x193, fun f => .vote f.gd (.ofCode f.mLo) f.dst f.srcA),
   (0x194, fun f => .scan f.gd (.ofCode (f.m.extractLsb' 1 2)) (f.m.getLsbD 0) f.nty f.dst f.srcA),
   (0x195, fun f => .matchL f.gd (f.m.getLsbD 0) f.nty f.dst f.srcA),
   (0x196, fun f => .cxch f.gd f.nty f.dst f.srcA f.srcB)] ++
  [(0x197, fun f => .spk24 f.gd f.nty f.dst f.srcA),
   (0x198, fun f => .sxp24 f.gd f.nty f.dst f.srcA),
   (0x199, fun f => .ffs f.gd f.nty f.dst f.srcA f.srcB)]

/-- Memory, atomics (06 R128, R131, R135, R136). -/
def parseMem : List (Nat × (Fields → Instr)) :=
  [(0x1C0, fun f => .ld f.gd f.mw f.dIx f.srcA f.off),
   (0x1C1, fun f => .st f.gd f.mw f.srcA f.off f.srcC),
   (0x1C2, fun f => .lds f.gd f.mw f.dIx f.srcA f.off),
   (0x1C3, fun f => .sts f.gd f.mw f.srcA f.off f.srcC),
   (0x1C4, fun f => .ldAcq f.gd f.sc f.mw f.dIx f.srcA f.off),
   (0x1C5, fun f => .stRel f.gd f.sc f.mw f.srcA f.off f.srcC),
   (0x1D0, fun f => .atom f.gd (.ofCode (f.c.extractLsb' 7 3)) (f.c.getLsbD 6) f.sc (f.m.getLsbD 0) f.dIx f.srcA f.srcB),
   (0x1D1, fun f => .atomBnd f.gd f.sc (f.m.getLsbD 0) f.dIx f.srcA f.srcB),
   (0x1D2, fun f => .atomTopk f.gd (f.c.getLsbD 6) (f.c.extractLsb' 7 3) f.sc f.dIx f.srcA f.bIx),
   (0x1D3, fun f => .red f.gd (.ofCode (f.c.extractLsb' 7 3)) (f.c.getLsbD 6) f.sc (f.m.getLsbD 0) f.srcA f.srcB),
   (0x1E0, fun f => if f.c.getLsbD 0 then .pfL2 f.gd f.srcA f.off else .pfL1 f.gd f.srcA f.off),
   (0x1E1, fun f => .fence f.sc)]

/-- Copy, shuffle, arena, cache (07 R163, 04 R91, 05 R111, R113). -/
def parseCpy : List (Nat × (Fields → Instr)) :=
  [(0x240, fun f => .cpGo f.gd f.dIx f.srcA),
   (0x241, fun f => .cpStop f.gd f.aIx),
   (0x242, fun f => .cpStat f.gd f.dIx f.aIx),
   (0x243, fun f => .waitc (f.a.setWidth 6) (f.b.setWidth 6) (f.c.setWidth 6) f.m),
   (0x250, fun f => .shfOpen f.gd f.dIx f.srcA f.srcB),
   (0x251, fun f => .shfSide f.gd f.dIx f.srcA f.srcB f.srcC),
   (0x252, fun f => .shfDrop f.gd f.dIx f.srcA f.srcB),
   (0x253, fun f => .shfClose f.gd f.dIx f.srcB),
   (0x260, fun f => .arnChk f.gd f.dIx f.srcA),
   (0x261, fun f => .arnWin f.gd f.dIx f.srcA),
   (0x270, fun f => .cwb f.gd (f.m.getLsbD 4) f.srcA f.srcB),
   (0x271, fun f => .cinv f.gd f.srcA f.srcB)] ++
  [(0x272, fun f => .cdrop f.gd f.srcA f.srcB)]

/-- Matrix, accumulators (12 R270). -/
def parseMat : List (Nat × (Fields → Instr)) :=
  [(0x280, fun f => if f.m.getLsbD 5 then .cvdMask f.gd (f.m.extractLsb' 1 4) f.srcB else .cvd f.gd (f.m.extractLsb' 1 4) f.srcB),
   (0x281, fun f => .mma f.gd (f.m.extractLsb' 1 4) (f.m.getLsbD 0) f.aIx f.srcB f.srcC),
   (0x290, fun f => .acg f.gd f.dIx f.srcB),
   (0x291, fun f => .acp f.gd f.srcB),
   (0x292, fun f => .acz f.gd f.srcA f.srcB),
   (0x293, fun f => .acn f.gd f.srcA f.srcB),
   (0x294, fun f => .ach f.gd f.dIx f.srcA),
   (0x295, fun f => if f.m.getLsbD 5 then .acrImg f.gd f.srcA f.srcB else .acr f.gd (.ofCode (f.m.extractLsb' 1 4)) f.dIx f.srcA f.srcB),
   (0x296, fun f => if f.m.getLsbD 5 then .acwImg f.gd f.srcA f.srcB else .acw f.gd (.ofCode (f.m.extractLsb' 1 4)) f.srcA f.cIx f.srcB)]

/-- Registers, batch forming, system (08 R178, R181, 15 R346, 16 R374, 17 R394). -/
def parseSys : List (Nat × (Fields → Instr)) :=
  [(0x2C0, fun f => .rget f.gd f.srcB),
   (0x2C1, fun f => .rput f.gd f.srcB),
   (0x2C2, fun f => .srd f.gd f.dst (.ofCode (f.c.setWidth 8))),
   (0x2E0, fun f => .bfqPost f.gd f.dIx f.srcA f.srcB),
   (0x2E1, fun f => .bfqTake f.gd f.dIx f.srcA f.srcB f.srcC),
   (0x2E2, fun f => if f.m.getLsbD 0 then .bfqDoneWd f.gd f.dIx f.srcA else .bfqDone f.gd f.dIx f.srcA),
   (0x300, fun f => .trap f.gd f.srcB),
   (0x301, fun f => .brk f.gd f.srcB),
   (0x302, fun _ => .kret),
   (0x303, fun _ => .fret),
   (0x304, fun f => .syr f.gd f.dIx (.ofCode (f.c.setWidth 8))),
   (0x305, fun f => .syw f.gd f.srcA (.ofCode (f.c.setWidth 8)))] ++
  [(0x306, fun f => .tlbi f.gd f.dIx f.srcA f.srcB (if f.c.getLsbD 9 then none else some f.cIx)),
   (0x307, fun f => .pfack f.gd f.dIx f.srcA f.regB),
   (0x308, fun f => .ctxsv f.gd f.dIx f.srcA f.regB),
   (0x309, fun f => .ctxld f.gd f.dIx f.srcA),
   (0x30A, fun f => .halt f.gd),
   (0x30B, fun f => .keyld f.gd f.dIx f.srcA f.srcB),
   (0x30C, fun f => if f.c.getLsbD 1 then .fwqAct f.gd f.dIx f.aIx (f.b.getLsbD 0) else if f.c.getLsbD 0 then .fwqPush f.gd f.dIx f.aIx else .fwqPull f.gd f.dIx f.aIx)]

/-- All assigned major opcodes. -/
def parseTable : List (Nat × (Fields → Instr)) :=
  parseCtl ++ parseInt ++ parseFlt ++ parseNar ++ parseMem ++ parseCpy ++ parseMat ++ parseSys

/-- The entry of an opcode. -/
def parseFind (op : Nat) : List (Nat × (Fields → Instr)) → Option (Fields → Instr)
  | [] => none
  | (k, p) :: t => if k == op then some p else parseFind op t

/-- The instruction of an F-form or X-form, if its fields are valid (02 R57, steps 2 to 5). -/
def Fields.decode (f : Fields) : Option Instr :=
  match parseFind f.op.toNat parseTable with
  | none => none
  | some p =>
    let i := p f
    if i.fields == some f && i.wf then some i else none

/-- Causes of a word that is no instruction (16 R354). -/
def causeIllegal : BitVec 8 := 0x01
/-- Cause of an illegal pair (02 R54). -/
def causePair : BitVec 8 := 0x02

/-- Whether a first word is an X-form, so that a literal word follows (02 R33). -/
def isXForm (w : DWord) : Bool := w.extractLsb' 62 2 == 2#2

/-- The instruction that a first word and its literal word stand for, or the cause of the trap (02 R57, R58).
Privilege, step 6, depends on the level and belongs to the meanings. -/
def decode (w lit : DWord) : Except (BitVec 8) Instr :=
  match (w.extractLsb' 62 2).toNat with
  | 3 => .error causeIllegal
  | 1 =>
    let a := Slot.dec (w.extractLsb' 31 31)
    let b := Slot.dec (w.extractLsb' 0 31)
    if a.enc == w.extractLsb' 31 31 && b.enc == w.extractLsb' 0 31 && a.ok && b.ok then
      if pairOk a b then .ok (.pairWord a b) else .error causePair
    else .error causeIllegal
  | _ =>
    match (Fields.ofWord w lit).decode with
    | some i => .ok i
    | none => .error causeIllegal

/-- Bytes of an instruction with first word `w` (02 R34). -/
def wordLen (w : DWord) : Nat := if isXForm w then 16 else 8

/-- The words of an encoded instruction: its first word, then the literal word of an X-form. Empty for the rows that no thread fetches. -/
def encode : Instr → List DWord
  | .pairWord a b => [pairEnc a b]
  | i =>
    match i.fields with
    | none => []
    | some f => if f.x then [f.word, f.lit] else [f.word]

/-! ### Copy records, 07 R142 to R156 -/

/-- A record as four words. -/
structure RecWords where
  w0 : DWord
  w1 : DWord
  w2 : DWord
  w3 : DWord
deriving DecidableEq, Repr

/-- The words of a record; none for the other rows. -/
def Instr.record : Instr → Option RecWords
  | .recEnd _ => some ⟨0, 0, 0, 0⟩
  | .move _ r => some
      ⟨0#8 ++ r.dsh ++ r.ssh ++ r.cnt2 ++ r.cnt1 ++ r.len0 ++ 0#2 ++ BitVec.ofBool r.dsp ++ BitVec.ofBool r.ssp ++ 1#4,
       r.src, r.dst, r.dstep2 ++ r.sstep2 ++ r.dstep1 ++ r.sstep1⟩
  | .mcast _ r => some
      ⟨0#24 ++ r.len ++ r.bar ++ r.mask ++ 0#2 ++ BitVec.ofBool r.nosig ++ BitVec.ofBool r.ssp ++ 2#4,
       r.src, 0#32 ++ r.doff, 0⟩
  | .loop _ r => some ⟨0#16 ++ r.back ++ r.cnt ++ 0#2 ++ r.ix ++ 3#4, r.sadv, r.dadv, 0⟩
  | .cond _ r => some ⟨r.woff ++ 0#8 ++ r.skip ++ 0#1 ++ r.test.code ++ 4#4, r.mask ++ r.value, 0, 0⟩
  | .conv _ r => some
      ⟨0#16 ++ r.cnt ++ 0#6 ++ r.rnd.code ++ r.dfmt.code ++ r.sfmt.code ++ 0#2 ++ BitVec.ofBool r.dsp ++ BitVec.ofBool r.ssp ++ 5#4,
       r.src, r.dst, 0⟩
  | .sample _ r => some
      ⟨r.idx0 ++ 0#8 ++ r.ncol ++ 0#2 ++ r.km1 ++ r.nr ++ r.row ++ BitVec.ofBool r.cont ++ BitVec.ofBool r.csp
        ++ BitVec.ofBool r.dsp ++ BitVec.ofBool r.out ++ 6#4, 0#32 ++ r.temp, r.dst, r.crec⟩
  | .csend _ r => some ⟨0#28 ++ r.nblk ++ r.shid ++ 0#3 ++ BitVec.ofBool r.ssp ++ 7#4, r.src, r.bn0 ++ 0#22 ++ r.dev, 0#32 ++ r.roff⟩
  | .sig _ r => some
      ⟨0#53 ++ r.scope.code ++ 0#1 ++ BitVec.ofBool r.dsp ++ r.ops.code ++ 8#4, r.addr, 0#32 ++ r.value, 0⟩
  | _ => none

/-- Names the record of kind bits [3:0], its fields as they stand. -/
def parseRecord (core : Nat) (w : RecWords) : Option Instr :=
  let ssp := w.w0.getLsbD 4
  let dsp := w.w0.getLsbD 5
  match (w.w0.extractLsb' 0 4).toNat with
  | 0 => some (.recEnd core)
  | 1 => some (.move core
      { ssp, dsp, len0 := w.w0.extractLsb' 8 16, cnt1 := w.w0.extractLsb' 24 12, cnt2 := w.w0.extractLsb' 36 12,
        ssh := w.w0.extractLsb' 48 4, dsh := w.w0.extractLsb' 52 4, src := w.w1, dst := w.w2,
        sstep1 := w.w3.extractLsb' 0 16, dstep1 := w.w3.extractLsb' 16 16, sstep2 := w.w3.extractLsb' 32 16,
        dstep2 := w.w3.extractLsb' 48 16 })
  | 2 => some (.mcast core
      { ssp, nosig := dsp, mask := w.w0.extractLsb' 8 4, bar := w.w0.extractLsb' 12 4, len := w.w0.extractLsb' 16 24,
        src := w.w1, doff := w.w2.extractLsb' 0 32 })
  | 3 => some (.loop core
      { ix := w.w0.extractLsb' 4 2, cnt := w.w0.extractLsb' 8 24, back := w.w0.extractLsb' 32 16, sadv := w.w1, dadv := w.w2 })
  | 4 => some (.cond core
      { test := .ofCode (w.w0.extractLsb' 4 3), skip := w.w0.extractLsb' 8 16, woff := w.w0.extractLsb' 32 32,
        value := w.w1.extractLsb' 0 32, mask := w.w1.extractLsb' 32 32 })
  | 5 => some (.conv core
      { ssp, dsp, sfmt := .ofCode (w.w0.extractLsb' 8 4), dfmt := .ofCode (w.w0.extractLsb' 12 4),
        rnd := .ofCode (w.w0.extractLsb' 16 2), cnt := w.w0.extractLsb' 24 24, src := w.w1, dst := w.w2 })
  | 6 => some (.sample core
      { out := ssp, dsp, csp := w.w0.getLsbD 6, cont := w.w0.getLsbD 7, row := w.w0.extractLsb' 8 10, nr := w.w0.extractLsb' 18 8,
        km1 := w.w0.extractLsb' 26 4, ncol := w.w0.extractLsb' 32 8, idx0 := w.w0.extractLsb' 48 16,
        temp := w.w1.extractLsb' 0 32, dst := w.w2, crec := w.w3 })
  | 7 => some (.csend core
      { ssp, shid := w.w0.extractLsb' 8 16, nblk := w.w0.extractLsb' 24 12, src := w.w1, dev := w.w2.extractLsb' 0 10,
        bn0 := w.w2.extractLsb' 32 32, roff := w.w3.extractLsb' 0 32 })
  | 8 => some (.sig core
      { ops := .ofCode (w.w0.extractLsb' 4 2), dsp := w.w0.getLsbD 6, scope := .ofCode (w.w0.extractLsb' 8 3), addr := w.w1,
        value := w.w2.extractLsb' 0 32 })
  | _ => none

/-- The record that four words of the chain of `core` stand for; none is a chain error (07 R142, status 0x0D). -/
def decodeRecord (core : Nat) (w : RecWords) : Option Instr :=
  match parseRecord core w with
  | none => none
  | some i => if i.record == some w && i.wf then some i else none

/-! ### Queue packets, 15 R333 to R337 -/

/-- One arena request. -/
def AReq.enc (a : AReq) : BitVec 16 := a.die ++ 0#5 ++ a.frames
/-- Reads one arena request. -/
def AReq.dec (w : BitVec 16) : AReq := ⟨w.extractLsb' 0 9, w.extractLsb' 14 2⟩

/-- The sixteen words of a LAUNCH, 15 R333. -/
def LaunchPkt.enc (p : LaunchPkt) : List DWord :=
  [0#12 ++ p.acc ++ p.scr ++ p.regs ++ p.ngrp ++ p.gw ++ p.nteam ++ BitVec.ofBool p.list ++ 0#1 ++ BitVec.ofBool p.hash ++ p.prio
     ++ BitVec.ofBool p.inv ++ BitVec.ofBool p.pair ++ BitVec.ofBool p.after ++ 1#8,
   p.entry, p.args, 0#16 ++ p.nexp ++ p.capf,
   p.areq3.enc ++ p.areq2.enc ++ p.areq1.enc ++ p.areq0.enc, p.isrc, p.ny ++ p.nx,
   0#8 ++ p.lbl ++ 0#12 ++ p.lsrc ++ p.cls ++ p.nz, p.sy ++ p.sx, 0#32 ++ p.sz, 0, 0, 0, 0, 0, 0]

/-- Word `i` of a packet. -/
def pktWord (ws : List DWord) (i : Nat) : DWord := ws.getD i 0

/-- Reads the fields of a LAUNCH as they stand. -/
def LaunchPkt.dec (ws : List DWord) : LaunchPkt :=
  let w := pktWord ws
  { after := (w 0).getLsbD 8, pair := (w 0).getLsbD 9, inv := (w 0).getLsbD 10, prio := (w 0).extractLsb' 11 2,
    hash := (w 0).getLsbD 13, list := (w 0).getLsbD 15, nteam := (w 0).extractLsb' 16 16, gw := (w 0).extractLsb' 32 2,
    ngrp := (w 0).extractLsb' 34 4, regs := (w 0).extractLsb' 38 5, scr := (w 0).extractLsb' 43 3, acc := (w 0).extractLsb' 46 6,
    entry := w 1, args := w 2, capf := (w 3).extractLsb' 0 32, nexp := (w 3).extractLsb' 32 16,
    areq0 := .dec ((w 4).extractLsb' 0 16), areq1 := .dec ((w 4).extractLsb' 16 16), areq2 := .dec ((w 4).extractLsb' 32 16),
    areq3 := .dec ((w 4).extractLsb' 48 16), isrc := w 5, nx := (w 6).extractLsb' 0 32, ny := (w 6).extractLsb' 32 32,
    nz := (w 7).extractLsb' 0 16, cls := (w 7).extractLsb' 16 2, lsrc := (w 7).extractLsb' 18 2, lbl := (w 7).extractLsb' 32 24,
    sx := (w 8).extractLsb' 0 32, sy := (w 8).extractLsb' 32 32, sz := (w 9).extractLsb' 0 32 }

/-- The words of a packet: eight, or sixteen for a LAUNCH; empty for the other rows. -/
def encodePacket : Instr → List DWord
  | .launch _ p => p.enc
  | .wait _ a v => [2, a, 0#32 ++ v, 0, 0, 0, 0, 0]
  | .signal _ s a v => [0#55 ++ BitVec.ofBool s ++ 3#8, a, 0#32 ++ v, 0, 0, 0, 0, 0]
  | .pred _ t na nb a v =>
      [0#32 ++ BitVec.ofNat 8 nb ++ BitVec.ofNat 8 na ++ 0#7 ++ BitVec.ofBool t ++ 4#8, a, 0#32 ++ v, 0, 0, 0, 0, 0]
  | _ => []

/-- The packet of queue `q` in the words at HEAD, or the ERR code of 15 R332: type, then reserved fields, then ranges.
AFN = 1x is out of range, so that bit does not count as reserved. -/
def decodePacket (q : Nat) (ws : List DWord) : Except (BitVec 8) Instr :=
  let w := pktWord ws
  let fin (i : Instr) (same : Bool) (inRange : Bool) : Except (BitVec 8) Instr :=
    if !same then .error 0x02 else if inRange && i.wf then .ok i else .error 0x03
  match ((w 0).extractLsb' 0 8).toNat with
  | 1 =>
    let i := Instr.launch q (.dec ws)
    let afn1 := (w 0).getLsbD 14
    fin i (encodePacket i == ((w 0 &&& ~~~(0x4000#64)) :: ws.drop 1)) (!afn1)
  | 2 =>
    let i := Instr.wait q (w 1) ((w 2).extractLsb' 0 32)
    fin i (encodePacket i == ws.take 8) true
  | 3 =>
    let i := Instr.signal q ((w 0).getLsbD 8) (w 1) ((w 2).extractLsb' 0 32)
    fin i (encodePacket i == ws.take 8) true
  | 4 =>
    let i := Instr.pred q ((w 0).getLsbD 8) ((w 0).extractLsb' 16 8).toNat ((w 0).extractLsb' 24 8).toNat (w 1) ((w 2).extractLsb' 0 32)
    fin i (encodePacket i == ws.take 8) true
  | _ => .error 0x01

/-! ### The words of the opcode table -/

/-- What the decoder reads from an instruction whose bits are `w`, bit 0 the least significant bit of the first 64-bit word;
bits above `nbits` are 0. -/
def decodeTableWord (nbits w : Nat) : Option Instr :=
  let v := w % 2 ^ nbits
  match decode (BitVec.ofNat 64 v) (BitVec.ofNat 64 (v / 2 ^ 64)) with
  | .ok i => some i
  | .error _ => none

end Sys2Proof
end

