-- ==== Sys2Proof/Machine/Phys.lean ====
section
/-! DEFINITION. Physical memory: the address map, keys, the caches and directories, and the reads and writes of a line.

Rules of spec/: 00 R1; 03 R63 to R70; 05 R96 to R100, R105, R108; 04 R83; 06 R117 to R119.
A clean copy holds what its home holds, so an entry of a cache lists only the bytes written there (log 10). -/

namespace Sys2Proof.Machine

/-! ### The address map, 03 R63 to R66 -/

/-- The line of an address. -/
def lineOf (pa : Nat) : Nat := pa / 128
/-- DEV of an address. -/
def devOf (pa : Nat) : Nat := pa / 2 ^ 50
/-- LOC of an address. -/
def locOf (pa : Nat) : Nat := pa % 2 ^ 50

/-- What a LOC is (R64). -/
inductive LocKind where
  | dram (die : Nat)
  | cxl (port off : Nat)
  | device
  | reserved
deriving DecidableEq, Repr

/-- The first LOC of the device registers. -/
def devBase : Nat := 0x3FF0000000000

/-- The local address map. -/
def locKind (loc : Nat) : LocKind :=
  if loc < 2 ^ 38 then .dram (loc / 2 ^ 36)
  else if decide (2 ^ 43 ≤ loc) && decide (loc < 2 ^ 44) then .cxl ((loc - 2 ^ 43) / 2 ^ 40) (loc % 2 ^ 40)
  else if devBase ≤ loc then .device
  else .reserved

/-- A block of device registers. -/
inductive DevBlock where
  | pause (port off : Nat)
  | strctl (die off : Nat)
  | arnpool (die off : Nat)
  | aperture (q off : Nat)
  | queue (q off : Nat)
  | modreg (off : Nat)
deriving DecidableEq, Repr

/-- The block that holds a LOC (04 R77, R88, 05 R105, 14 R314, 15 R330, 17 R390). DESIGN CHOICE (log 95): the specification gives the module
registers at +0x00, +0x08 and +0x10 and no size of their block; the model populates 0x1000 bytes there. -/
def devBlock (loc : Nat) : Option DevBlock :=
  let o := loc - devBase
  if loc < devBase then none
  else if decide (0x1000000000 ≤ o) && decide (o < 0x1000020000) then some (.pause ((o - 0x1000000000) / 0x1000) (o % 0x1000))
  else if decide (0x1800000000 ≤ o) && decide (o < 0x1800004000) then some (.strctl ((o - 0x1800000000) / 0x1000) (o % 0x1000))
  else if decide (0x2000000000 ≤ o) && decide (o < 0x2000004000) then some (.arnpool ((o - 0x2000000000) / 0x1000) (o % 0x1000))
  else if decide (0x3000000000 ≤ o) && decide (o < 0x3001000000) then some (.aperture ((o - 0x3000000000) / 0x10000) (o % 0x10000))
  else if decide (0x4000000000 ≤ o) && decide (o < 0x4000010000) then some (.queue ((o - 0x4000000000) / 0x100) (o % 0x100))
  else if decide (0x5000000000 ≤ o) && decide (o < 0x5000001000) then some (.modreg (o % 0x1000))
  else none

/-- Whether an address is on this module. -/
def State.isLocal (s : State) (pa : Nat) : Bool := devOf pa == s.module.dev

/-- The die whose L2 caches an address, if it is memory of this module (R64, R66, R96). -/
def State.homeDie (s : State) (pa : Nat) : Option Nat :=
  if s.isLocal pa then
    match locKind (locOf pa) with
    | .dram d => some d
    | .cxl p _ => some (p / 2)
    | _ => none
  else none

/-- The home slice of a line on its die (R96). -/
def homeSlice (loc : Nat) : Nat := loc / 128 % 48

/-- Whether an address is a device register, here or on a peer. -/
def isDevice (pa : Nat) : Bool := locKind (locOf pa) == .device

/-- The attached capacity of a CXL window of a module of the domain, as firmware published it (R65). -/
def State.cxlSize (s : State) (dev port : Nat) : Nat :=
  if dev = s.module.dev then s.pins.cxl.getD port 0
  else match s.pins.peerCxl.find? (·.1 == dev) with
    | some e => e.2.getD port 0
    | none => 0

/-- The populated ranges (R65). -/
def State.populated (s : State) (pa : Nat) : Bool :=
  let here := s.isLocal pa
  decide (devOf pa < 900) && (here || s.pins.devs.contains (devOf pa)) &&
    match locKind (locOf pa) with
    | .dram _ => true
    | .cxl p off => decide (off < s.cxlSize (devOf pa) p)
    | .device => (devBlock (locOf pa)).isSome
    | .reserved => false

/-! ### Keys, 03 R68 to R70, 17 R395 -/

/-- The tag under which a key id stores now in this module's memory: what the key table holds for it. Ids that hold one key store alike. -/
def State.keyTag (s : State) (key : Nat) : Nat := 2 * Sparse.get 0 s.keys key

/-- The tag under which a key id stores now at an address: every module has a key table of its own (17 R395). -/
def State.tagAt (s : State) (pa key : Nat) : Nat :=
  if s.isLocal pa then s.keyTag key else 2 * Sparse.get 0 s.peerKeys (devOf pa * 4096 + key)

/-- The tag under which the bytes of a line are stored. Tags of frames that R106 leaves unpredictable are odd. -/
def State.lineTag (s : State) (line : Nat) : Nat :=
  match Sparse.get 0 s.memTag line with
  | 0 => Sparse.get 0 s.frameTag (line / 512)
  | t + 1 => t

/-- A byte of DRAM or CXL memory read under a tag. -/
def State.memByte (s : State) (tag pa : Nat) : Byte :=
  let st := s.lineTag (lineOf pa)
  if st = tag then s.mem.read pa
  else Config.scramble st tag pa ((addrs (alignDown pa 16) 16).map s.mem.read)

/-- Brings a line under a tag: what it held is from then on what it read as. -/
def State.retag (s : State) (line tag : Nat) : State :=
  if s.lineTag line = tag then s
  else { s with mem := s.mem.writeList (128 * line) ((addrs (128 * line) 128).map (s.memByte tag)),
                memTag := Sparse.put s.memTag line (tag + 1) }

/-- Writes cells of one line to memory. -/
def State.memWrite (s : State) (tag : Nat) (cells : List Host.Cell) : State :=
  match cells with
  | [] => s
  | (a, _) :: _ =>
    let s := s.retag (lineOf a) tag
    { s with mem := cells.foldl (fun m c => m.write c.1 c.2) s.mem }

/-! ### Cached lines -/

/-- A cell list with one byte put. -/
def putCell (data : List Host.Cell) (a : Nat) (b : Byte) : List Host.Cell := Sparse.put data a b

/-- The entry of a level for a line. -/
def State.cline (s : State) (lvl : Lvl) (line : Nat) : Option CLine := s.cache.find? fun e => e.lvl == lvl && e.line == line

/-- Removes the entry of a level for a line. -/
def State.dropLine (s : State) (lvl : Lvl) (line : Nat) : State :=
  { s with cache := s.cache.filter fun e => !(e.lvl == lvl && e.line == line) }

/-- Whether a level is an L1. -/
def isL1 : Lvl → Bool
  | .l1 _ => true
  | _ => false

/-- The dirty L1 copy of a line; ownership lets one core hold it (R98). -/
def State.l1Dirty (s : State) (line : Nat) : Option CLine := s.cache.find? fun e => isL1 e.lvl && e.line == line && e.dirty

/-! ### Directories, 05 R97 -/

/-- The directory entry of a line. -/
def State.dirOf (s : State) (line : Nat) : DirEntry := (s.dir.find? (·.line == line)).getD ⟨line, [], [], [], []⟩

/-- Replaces a directory entry; an empty one is not kept. -/
def State.setDir (s : State) (e : DirEntry) : State :=
  let rest := s.dir.filter (·.line != e.line)
  { s with dir := if e.cores.isEmpty && e.dies.isEmpty && e.devs.isEmpty && e.blocks.isEmpty then rest else rest ++ [e] }

/-- Adds without repeats. -/
def addNat (l : List Nat) (x : Nat) : List Nat := if l.contains x then l else l ++ [x]

/-- Records a holder: eight peers exactly, the rest by blocks of 64. -/
def DirEntry.add (e : DirEntry) : Holder → DirEntry
  | .l1 c => { e with cores := addNat e.cores c }
  | .rdc d => { e with dies := addNat e.dies d }
  | .dev d =>
    if e.devs.contains d then e
    else if e.devs.length < 8 then { e with devs := e.devs ++ [d] }
    else { e with blocks := addNat e.blocks (d / 64) }

/-- Forgets a holder that has acknowledged; a block stays marked while another module of it may hold the line. -/
def DirEntry.remove (e : DirEntry) : Holder → DirEntry
  | .l1 c => { e with cores := e.cores.filter (· != c) }
  | .rdc d => { e with dies := e.dies.filter (· != d) }
  | .dev d => { e with devs := e.devs.filter (· != d) }

/-- The modules present in the domain in a marked block. -/
def State.blockMembers (s : State) (b : Nat) : List Nat :=
  s.pins.devs.filter fun d => d / 64 == b && d != s.module.dev

/-- The recorded holders of a line: where invalidations are sent. -/
def State.holders (s : State) (line : Nat) : List Holder :=
  let e := s.dirOf line
  e.cores.map .l1 ++ e.dies.map .rdc ++
    (dedupNat (e.devs ++ (e.blocks.map s.blockMembers).flatten)).map .dev

/-- Sends invalidations to the holders of a line that stand in the way of a write by `self` (R98). -/
def State.sendInvals (s : State) (line : Nat) (self : Option Holder) : State × Bool :=
  let others := (s.holders line).filter fun h => some h != self
  let busy := !others.isEmpty || s.invals.any (·.1 == line)
  let now := (s.die ((s.homeDie (128 * line)).getD 0)).cyc
  ({ s with invals := s.invals ++ ((others.filter fun h => !s.invals.contains (line, h)).map fun h => (line, h)),
            invalAt := if others.isEmpty || s.invals.any (·.1 == line) then s.invalAt else Sparse.put s.invalAt line (now + 1) }, busy)

/-- The home slices of lines take ownership for a write by the hardware: invalidations go to every holder. It tells whether one is awaited. -/
def State.ownLines (s : State) (lines : List Nat) : State × Bool :=
  lines.foldl (fun r l => let q := r.1.sendInvals l none
                          (q.1, r.2 || q.2)) (s, false)

/-- The cache of a core's writes as the home slice of a line records it: its L1 on the home die, the RDC of its die elsewhere (R97, R98, R100). -/
def State.ownCopy (s : State) (core line : Nat) : Holder :=
  if s.homeDie (128 * line) = some (dieOfCore core) then .l1 core else .rdc (dieOfCore core)

/-! ### Sets and ways, 00 R1, 05 R96, R99, 06 R117 -/

/-- The ways of a level: an L1 has 16 and two more for each 256 KiB of its pool that is not scratchpad. An entry of an L2 whose way is 16
or above has left its set and waits for the acknowledgements that its eviction needs (R97). -/
def State.ways (s : State) : Lvl → Nat
  | .l1 core => 16 + (8 - 2 * Sparse.get 0 s.carve core)
  | _ => 16

/-- The set of a line at a level: 1,024 sets of an L1, 128 of an instruction cache, 4,096 of each of the 48 slices of an L2, 32,768 of an RDC
(log 69). -/
def setOf (lvl : Lvl) (line : Nat) : Nat :=
  let l := locOf (128 * line) / 128
  match lvl with
  | .l1 _ => l % 1024
  | .l1i _ => l % 128
  | .l2 => l % 48 + 48 * (l / 48 % 4096)
  | .rdc _ => l % 32768

/-- Whether two lines stand in one set of a level; an L2 is that of their home die. -/
def State.sameSet (s : State) (lvl : Lvl) (a b : Nat) : Bool :=
  setOf lvl a == setOf lvl b && (lvl != .l2 || s.homeDie (128 * a) == s.homeDie (128 * b))

/-- The other entries of a line's set, the least recently used first. -/
def State.setMates (s : State) (lvl : Lvl) (line : Nat) : List CLine :=
  s.cache.filter fun e => e.lvl == lvl && e.line != line && decide (e.way < s.ways lvl) && s.sameSet lvl e.line line

/-- The way a line takes in its set: its own, the lowest free one, or that of the least recently used entry, which goes. -/
def State.wayFor (s : State) (lvl : Lvl) (line : Nat) : Nat × Option CLine :=
  match s.cline lvl line with
  | some e => (e.way, none)
  | none =>
    let mates := s.setMates lvl line
    match (List.range (s.ways lvl)).find? fun w => !mates.any (·.way == w) with
    | some w => (w, none)
    | none => match mates with
      | e :: _ => (e.way, some e)
      | [] => (0, none)

/-- Puts an entry in place of what its level held of its line, as the one used last. All copies of a line stand under one key (03 R69): that of
those that stand already. -/
def State.setLine (s : State) (e : CLine) : State :=
  let others := (s.dropLine e.lvl e.line).cache
  let key := match others.find? (·.line == e.line) with
    | some x => x.key
    | none => e.key
  { s with cache := others ++ [{ e with key := key }] }

/-- The entry of a level for a line after cells of it were written there. -/
def CLine.wrote (old : Option CLine) (lvl : Lvl) (line key way : Nat) (cells : List Host.Cell) : CLine :=
  ⟨lvl, line, key, way, true, (cells.filter fun c => lineOf c.1 == line).foldl (fun d c => putCell d c.1 c.2)
    (match old with | some e => e.data | none => [])⟩

/-- Writes the dirty L2 copy of a line back to memory under its key and drops it. -/
def State.writeBackL2 (s : State) (line : Nat) : State :=
  match s.cline .l2 line with
  | none => s
  | some e => (s.dropLine .l2 line).memWrite (s.tagAt (128 * line) e.key) (e.data.filter fun c => lineOf c.1 == line)

/-- Every copy of a line that an L2 holds is dropped above it; a dirty one is first written back there. -/
def State.mergeL1 (s : State) (line : Nat) : State :=
  let dirty := s.cache.filter fun e => isL1 e.lvl && e.line == line && e.dirty
  let s := { s with cache := s.cache.filter fun e : CLine => !(e.lvl != Lvl.l2 && e.line == line) }
  dirty.foldl (fun s e => s.setLine (.wrote (s.cline .l2 line) .l2 line e.key (s.wayFor .l2 line).1 e.data)) s

/-- The L2 of a line's home loses it: every recorded copy is dropped, a dirty one first written back, then the L2's own (R97). -/
def State.loseL2 (s : State) (line : Nat) : State :=
  { (s.mergeL1 line).writeBackL2 line with dir := s.dir.filter (·.line != line) }

/-- An L2 evicts a line: it first invalidates every recorded copy. Those of this module go at once; while copies of peers are to be
acknowledged the line stands outside its set (R97). -/
def State.evictL2 (s : State) (line : Nat) : State :=
  let away := (s.holders line).any fun h => match h with
    | .dev _ => true
    | _ => false
  if !away then s.loseL2 line
  else
    let s := (s.mergeL1 line).setDir { s.dirOf line with cores := [], dies := [] }
    let s := { s with cache := updIf s.cache (fun x => x.lvl == Lvl.l2 && x.line == line) fun x => { x with way := s.ways Lvl.l2 } }
    (s.sendInvals line none).1

/-- Makes place in the L2 of a line's home, and tells the way. -/
def State.placeL2 (s : State) (line : Nat) : Nat × State :=
  match s.wayFor .l2 line with
  | (w, some e) => (w, s.evictL2 e.line)
  | (w, none) => (w, s)

/-- An L2 line whose eviction waits for acknowledgements (R97). -/
def State.evicting (s : State) (line : Nat) : Bool := match s.cline .l2 line with
  | some e => decide (s.ways .l2 ≤ e.way)
  | none => false

/-- Writes cells of one line at the home L2, which holds them dirty. -/
def State.putL2 (s : State) (key : Nat) (cells : List Host.Cell) : State :=
  match cells with
  | [] => s
  | (a, _) :: _ =>
    let line := lineOf a
    let (w, s) := s.placeL2 line
    s.setLine (.wrote (s.cline .l2 line) .l2 line key w cells)

/-- The L2 holds a line, clean unless it was dirty. -/
def State.touchL2 (s : State) (key line : Nat) : State :=
  match s.cline .l2 line with
  | some e => s.setLine e
  | none =>
    let (w, s) := s.placeL2 line
    s.setLine ⟨.l2, line, key, w, false, []⟩

/-- An L1 gives up a line: a dirty copy goes to the home L2, which records no other holder of it (`State.recordHolder`; 05 R98). -/
def State.loseL1 (s : State) (core line : Nat) : State :=
  match s.cline (.l1 core) line with
  | none => s
  | some e => if e.dirty then (s.dropLine (.l1 core) line).putL2 e.key e.data else s.dropLine (.l1 core) line

/-- Makes place in an L1, and tells the way. -/
def State.placeL1 (s : State) (core line : Nat) : Nat × State :=
  match s.wayFor (.l1 core) line with
  | (w, some e) => (w, s.loseL1 core e.line)
  | (w, none) => (w, s)

/-- Writes cells of one line in an L1, which holds them dirty. -/
def State.putL1 (s : State) (core key : Nat) (cells : List Host.Cell) : State :=
  match cells with
  | [] => s
  | (a, _) :: _ =>
    let line := lineOf a
    let (w, s) := s.placeL1 core line
    s.setLine (.wrote (s.cline (.l1 core) line) (.l1 core) line key w cells)

/-- An L1 holds a line, clean unless it was dirty. -/
def State.touchL1 (s : State) (core key line : Nat) : State :=
  match s.cline (.l1 core) line with
  | some e => s.setLine e
  | none =>
    let (w, s) := s.placeL1 core line
    s.setLine ⟨.l1 core, line, key, w, false, []⟩

/-- An instruction cache holds a line; the one of its set used longest ago makes place. -/
def State.touchL1i (s : State) (core key line : Nat) : State :=
  match s.cline (.l1i core) line with
  | some e => s.setLine e
  | none =>
    let (w, s) := match s.wayFor (.l1i core) line with
      | (w, some e) => (w, s.dropLine (.l1i core) e.line)
      | (w, none) => (w, s)
    s.setLine ⟨.l1i core, line, key, w, false, []⟩

/-- Whether a level is an L1 or instruction cache of a die. -/
def Lvl.onDie (die : Nat) : Lvl → Bool
  | .l1 c | .l1i c => dieOfCore c == die
  | _ => false

/-- An RDC gives up a line, and every L1 of its die with it (R99). -/
def State.loseRdc (s : State) (die line : Nat) : State :=
  { s with cache := s.cache.filter fun e => !(e.line == line && (e.lvl == .rdc die || e.lvl.onDie die)) }

/-- A store of a core to a line that is homed elsewhere: the RDC of the die drops its copy and every other L1 copy on the die; one of an
atomic or reduction drops that of the core too (R100). -/
def State.passRdc (s : State) (core line : Nat) (atomic : Bool) : State :=
  let die := dieOfCore core
  if s.homeDie (128 * line) = some die then s
  else { s with cache := s.cache.filter fun e =>
           !(e.line == line && (e.lvl == .rdc die || (e.lvl.onDie die && (atomic || e.lvl != .l1 core)))) }

/-- Drops every copy of a line above the home L2; a dirty one is written back first (R98). -/
def State.recallL1 (s : State) (line : Nat) : State :=
  let dirty := s.cache.filter fun e => isL1 e.lvl && e.line == line && e.dirty
  dirty.foldl (fun s e => s.putL2 e.key e.data) { s with cache := s.cache.filter fun e => !(e.lvl != .l2 && e.line == line) }

/-- A dirty L1 copy is written back to the home L2, which records no other holder of it, and stays, clean (05 R98, R115). -/
def State.cleanL1 (s : State) (line : Nat) : State :=
  let dirty := s.cache.filter fun e => isL1 e.lvl && e.line == line && e.dirty
  dirty.foldl (fun s e => s.putL2 e.key e.data)
    { s with cache := updIf s.cache (fun e => isL1 e.lvl && e.line == line) fun e => { e with dirty := false, data := [] } }

/-- An RDC holds a line, clean, and no L1 of its die holds that line dirty. -/
def State.touchRdc (s : State) (die key line : Nat) : State :=
  let s := if (s.l1Dirty line).isSome then s.cleanL1 line else s
  match s.cline (.rdc die) line with
  | some e => s.setLine e
  | none =>
    let (w, s) := match s.wayFor (.rdc die) line with
      | (w, some e) => (w, s.loseRdc die e.line)
      | (w, none) => (w, s)
    s.setLine ⟨.rdc die, line, key, w, false, []⟩

/-- Before an access under `key`: a resident line under another key is written back under its own and dropped (R69). -/
def State.settle (s : State) (line key : Nat) : State :=
  let s := if (s.cache.any fun e => e.lvl != .l2 && e.line == line && e.key != key) then s.recallL1 line else s
  match s.cline .l2 line with
  | some e => if e.key = key then s else s.writeBackL2 line
  | none => s

/-- The byte that the coherent copy of a line holds, read under a key: the dirty L1 copy, then the L2, then memory. -/
def State.cohByte (s : State) (key pa : Nat) : Byte :=
  let line := lineOf pa
  let at' (e : Option CLine) : Option Byte := match e with
    | some e => if Sparse.has e.data pa then some (Sparse.get 0#8 e.data pa) else none
    | none => none
  match at' (s.l1Dirty line) with
  | some b => b
  | none =>
    match at' (s.cline .l2 line) with
    | some b => b
    | none => s.memByte (s.tagAt pa key) pa

/-- The byte of the coherent copy as the slot reads of walkers and the hardware's own rings see it, whatever its key (log 7). -/
def State.rawByte (s : State) (pa : Nat) : Byte :=
  let line := lineOf pa
  let own (e : Option CLine) : Option Byte := match e with
    | some e => if Sparse.has e.data pa then some (Sparse.get 0#8 e.data pa) else none
    | none => none
  match own (s.l1Dirty line) with
  | some b => b
  | none =>
    match own (s.cline .l2 line) with
    | some b => b
    | none => s.mem.read pa

/-- A number read so. -/
def State.rawNat (s : State) (pa n : Nat) : Nat := bytesNat ((addrs pa n).map s.rawByte)

/-- Bytes of the coherent copy. -/
def State.cohBytes (s : State) (key pa n : Nat) : List Byte := (addrs pa n).map (s.cohByte key)

/-- Records a holder of a line at its home. A dirty L1 copy of another core is written back first: the line is shared from then on, so that an L1 that
holds one dirty is its only recorded holder and writes it back without an invalidation (05 R98). -/
def State.recordHolder (s : State) (line : Nat) (h : Holder) : State :=
  let s := match s.l1Dirty line, h with
    | some e, .l1 c => if e.lvl == Lvl.l1 c then s else s.cleanL1 line
    | some _, _ => s.cleanL1 line
    | none, _ => s
  s.setDir ((s.dirOf line).add h)

/-- A dirty L2 copy is written to memory and stays, clean (05 R115). -/
def State.cleanL2 (s : State) (line : Nat) : State :=
  match s.cline .l2 line with
  | none => s
  | some e => { s.memWrite (s.tagAt (128 * line) e.key) (e.data.filter fun c => lineOf c.1 == line) with
      cache := updIf s.cache (fun x => x.lvl == .l2 && x.line == line) fun x => { x with dirty := false, data := [] } }

/-- A line comes to the home L2, or to the RDC of a die that is not its home (R99, 06 R135). -/
def State.fetchShared (s : State) (die key pa : Nat) : State :=
  let line := lineOf pa
  match s.homeDie pa with
  | some d => if die = d then s.touchL2 key line else ((s.touchL2 key line).recordHolder line (.rdc die)).touchRdc die key line
  | none => s.touchRdc die key line

/-- `core` reads a line (R97, R99): it comes to its L1, which on the home die is recorded at the home slice. -/
def State.record (s : State) (core key pa : Nat) : State :=
  let line := lineOf pa
  let s := s.fetchShared (dieOfCore core) key pa
  let s := if s.homeDie pa = some (dieOfCore core) then s.recordHolder line (.l1 core) else s
  s.touchL1 core key line

/-- `core` fetches code from a line: it comes to its instruction cache, which R97 records with the L1. -/
def State.recordCode (s : State) (core key pa : Nat) : State :=
  let line := lineOf pa
  let s := s.fetchShared (dieOfCore core) key pa
  let s := if s.homeDie pa = some (dieOfCore core) then s.recordHolder line (.l1 core) else s
  s.touchL1i core key line

/-- Whether a copy of a line on a die serves a load there without a request to a peer: its RDC, or the core's L1 (R99, 04 R73). -/
def State.heldNear (s : State) (core key pa : Nat) : Bool :=
  let hit (lvl : Lvl) : Bool := match s.cline lvl (lineOf pa) with
    | some e => e.key == key
    | none => false
  hit (.l1 core) || hit (.rdc (dieOfCore core))

/-! ### Writes -/

/-- A write that gains ownership makes the side entries of its block stale (04 R83). -/
def State.staleSide (s : State) (line : Nat) : State :=
  { s with side := updIf s.side (fun e => e.pa / 1024 == line / 8) fun e => { e with valid := false } }

/-- The home slice takes ownership of a line under a key: no other copy is left (R98, R100). -/
def State.takeLine (s : State) (key line : Nat) : State :=
  let s := ((s.staleSide line).settle line key).recallL1 line
  { s with dir := s.dir.filter (·.line != line) }

/-- A write at the home slice, which owns the line (R98); whatever copies of it on the module are left are dropped. Cells lie in one line. -/
def State.homeWrite (s : State) (key : Nat) (cells : List Host.Cell) : State :=
  match cells with
  | [] => s
  | (a, _) :: _ =>
    let s := s.takeLine key (lineOf a)
    match s.homeDie a with
    | some _ => s.putL2 key cells
    | none => s.memWrite (s.tagAt a key) cells

/-- The lines of a range, as a test on a line. -/
def inRange (pa len line : Nat) : Bool := decide (lineOf pa ≤ line) && decide (line < (pa + len + 127) / 128)

/-- The lines of a range. -/
def linesOf (pa len : Nat) : List Nat := addrs (lineOf pa) ((pa + len + 127) / 128 - lineOf pa)

/-- Splits cells in rising order of address into lines. -/
def splitLines (cells : List Host.Cell) : List (List Host.Cell) :=
  (dedupNat (cells.map fun c => lineOf c.1)).map fun l => cells.filter fun c => lineOf c.1 == l

/-- A write of bytes at consecutive addresses. -/
def State.homeWriteBytes (s : State) (key pa : Nat) (bytes : List Byte) : State :=
  (splitLines ((addrs pa bytes.length).zip bytes)).foldl (fun s cs => s.homeWrite key cs) s

/-- The key id under which a line stands in the caches, if one holds it dirty or its L2 has it. -/
def State.lineKey (s : State) (line : Nat) : Option Nat :=
  match s.l1Dirty line with
  | some e => some e.key
  | none => (s.cline .l2 line).map (·.key)

/-- A write of hardware that carries no key to cells of one line: plain bytes, whatever the line's key (log 7). -/
def State.rawPut (s : State) (cells : List Host.Cell) : State :=
  match cells with
  | [] => s
  | (a, _) :: _ =>
    match s.lineKey (lineOf a) with
    | some key => s.homeWrite key cells
    | none =>
      let s := (s.staleSide (lineOf a)).recallL1 (lineOf a)
      { s with dir := s.dir.filter (·.line != lineOf a), mem := cells.foldl (fun m c => m.write c.1 c.2) s.mem }

/-- The same for bytes at consecutive addresses. -/
def State.rawWrite (s : State) (pa : Nat) (bytes : List Byte) : State :=
  (splitLines ((addrs pa bytes.length).zip bytes)).foldl State.rawPut s

/-- A store of a core that is granted ownership (R98, R100, 06 R118): dirty in its L1 when homed on its die, else written through; a copy in
its own L1 has the bytes already. -/
def State.grantWrite (s : State) (core key : Nat) (cells : List Host.Cell) : State :=
  match cells with
  | [] => s
  | (a, _) :: _ =>
    let line := lineOf a
    let kept := (s.cline (.l1 core) line).isSome
    if s.homeDie a = some (dieOfCore core) then
      let s := (s.staleSide line).settle line key
      let s := if s.l1Dirty line = s.cline (.l1 core) line then s else s.recallL1 line
      let s := { s with cache := s.cache.filter fun e : CLine => !(e.line == line && e.lvl != Lvl.l2 && e.lvl != Lvl.l1 core) }
      ((s.touchL2 key line).setDir ⟨line, [core], [], [], []⟩).putL1 core key cells
    else
      let s := s.homeWrite key cells
      if !kept then s
      else (if (s.homeDie a).isSome then s.recordHolder line (.rdc (dieOfCore core)) else s).touchL1 core key line

/-- The first address of a die's frame pool, and the one after its last (05 R105). -/
def State.poolRange (s : State) (d : Nat) : Nat × Nat :=
  let die := s.die d
  let b := s.module.dev * 2 ^ 50 + d * 2 ^ 36 + die.arnBase * 65536
  (b, b + die.arnCount * 65536)

/-- Whether a range of addresses meets a frame pool of this module (05 R104). -/
def State.meetsPool (s : State) (pa size : Nat) : Bool :=
  (List.range Config.nDies).any fun d =>
    let r := s.poolRange d
    decide (pa < r.2) && decide (r.1 < pa + size)

/-- Whether a request passes the check of its frame's tag (05 R108): its generation is that of the live arena that holds the frame; one
translated through page tables, with `gen` 0, passes only outside the pools. -/
def State.frameLive (s : State) (gen pa : Nat) : Bool :=
  if gen = 0 then !s.meetsPool pa 1
  else s.arenas.any fun a => a.live && (a.die * 65536 + a.slot) * 256 + a.gen == gen && a.frames.contains (pa / 65536)

/-- New arena frames: what memory held there is gone (R70, R106). DESIGN CHOICE (log 109): bytes of their lines that a cache still holds, from before
ARNPOOL covered the frames, stay readable in the new arena. -/
def State.freshFrame (s : State) (frame : Nat) : State :=
  { s with memTag := s.memTag.filter (fun e => e.1 / 512 != frame),
           frameTag := Sparse.put s.frameTag frame (2 * s.freeCtr + 1), freeCtr := s.freeCtr + 1 }

/-- Drops every copy of a line unwritten: what the caches held of it is gone (05 R107, R115). A dirty copy takes its side entries along (04 R83). -/
def State.discardLine (s : State) (line : Nat) : State :=
  let had := s.cache.any fun e => e.line == line && e.dirty
  let s := { s with cache := s.cache.filter (fun e => e.line != line), dir := s.dir.filter (·.line != line) }
  if had then s.staleSide line else s

/-! ### Ports to peers, 04 R72, R76, R77 -/

/-- Port `p`. -/
def State.port (s : State) (p : Nat) : Port := s.ports.getD p .reset
/-- Changes a port. -/
def State.modPort (s : State) (p : Nat) (f : Port → Port) : State := { s with ports := updAt s.ports p f }

/-- The working ports that a die uses: its own, else those of the next die that has any. -/
def State.workingPorts (s : State) (die : Nat) : List Nat :=
  ((List.range Config.nDies).map fun k =>
    ((List.range 8).map (8 * ((die + k) % Config.nDies) + ·)).filter fun p => (s.port p).up).find? (!·.isEmpty) |>.getD []

/-- The port that carries requests of a die to a line of a peer (R72): a hash over the working ports. -/
def State.portFor (s : State) (die pa : Nat) : Option Nat :=
  let up := s.workingPorts die
  if up.isEmpty then none else up[Config.portHash (devOf pa) (locOf pa / 128) up.length % up.length]?

/-- The requests that have left by a port and wait for their response: space for each is reserved there (R76). -/
def State.rspReserved (s : State) (port : Nat) : Nat := (s.asks.filter (·.port == port)).length

/-- Whether the fabric agent of a die can send a request to an address: not while the partner pauses the port's REQ channel (R77), nor before the RSP
buffer of 64 KiB has room for the response beside what it holds and what is reserved (R76). -/
def State.reaches (s : State) (die pa : Nat) : Bool :=
  s.isLocal pa || match s.portFor die pa with
    | some p => !(s.port p).hreq && decide (1024 * (s.port p).rxRsp + 128 * (s.rspReserved p + 1) ≤ 65536)
    | none => false

/-- Whether the request of access `id` for the line of an address has left. -/
def State.hasAsked (s : State) (id pa : Nat) : Bool := s.asks.any fun a => a.id == id && a.line == lineOf pa

/-- Whether access `id` of a die gets the line of an address: its request has left, and its response finds the space reserved for it, or it can leave now
(R76). -/
def State.reachesAt (s : State) (id die pa : Nat) : Bool := s.hasAsked id pa || s.reaches die pa

/-- The request of access `id` leaves if it can: space for its response is reserved (R76). -/
def State.ask (s : State) (id die pa : Nat) : State :=
  if s.isLocal pa || s.hasAsked id pa || !s.reaches die pa then s
  else match s.portFor die pa with
    | some p => { s with asks := s.asks ++ [⟨id, lineOf pa, p⟩] }
    | none => s

/-- An agent of a die that is none of a core's accesses asks for a line of a peer and cannot reach it: it waits from now on (04 R75). -/
def State.awaitPeer (s : State) (die pa : Nat) : State :=
  if s.reaches die pa || s.unanswered.any fun u => u.die == die && u.line == lineOf pa then s
  else { s with unanswered := s.unanswered ++ [⟨die, lineOf pa, (s.die die).cyc⟩] }

/-- The same for the lines of a range. -/
def State.awaitRange (s : State) (die pa n : Nat) : State :=
  if s.isLocal pa then s else (linesOf pa n).foldl (fun s l => s.awaitPeer die (128 * l)) s

/-- What such agents waited for and can reach is answered. -/
def State.settleUnanswered (s : State) : State :=
  if s.unanswered.isEmpty then s else { s with unanswered := s.unanswered.filter fun u => !s.reaches u.die (128 * u.line) }

/-! ### Lines that a machine check holds, 17 R384, R385 -/

/-- Whether a fault is a machine check that keeps the accesses of a die to a line parked while it is not resolved: of poison (SRC 1), core errors (4)
and DRAM errors (5) those that read, of invalidation timeouts (3) those that write, of remote timeouts (2) all. A remote timeout and a core error hold
the requesters of the die that detected them, the others those of every die and of peers, for which `die` is no die. -/
def FaultRec.holds (f : FaultRec) (die line : Nat) (reads writes : Bool) : Bool :=
  f.check && lineOf f.va == line &&
    ((f.cause == 2 && f.die == die) || (reads && (f.cause == 1 || (f.cause == 4 && f.die == die) || f.cause == 5)) || (writes && f.cause == 3))

/-- Whether an unresolved machine check keeps the accesses of a die to a line parked. -/
def State.checkHolds (s : State) (die line : Nat) (reads writes : Bool) : Bool := s.faults.any fun f => f.holds die line reads writes

/-- Whether an agent of a die may access an address now. -/
def State.open' (s : State) (die pa : Nat) (reads writes : Bool) : Bool := s.reaches die pa && !s.checkHolds die (lineOf pa) reads writes

end Sys2Proof.Machine
end

