-- ==== Sys2Proof/Machine/Walk.lean ====
section
/-! DEFINITION. Translation: page-table walks, TLBs, companion words, the arena table.

Rules of spec/: 03 R65; 05 R102 to R104; 16 R350, R354 to R358, R364. -/

namespace Sys2Proof.Machine

/-- Who translates: die, core if a core, address space, root, level. -/
structure Acx where
  die : Nat
  core : Option Nat
  asid : Nat
  root : Nat
  level : Level
deriving DecidableEq, Repr

/-- Kinds of access (R356); `red` is a reduction, `cread` and `cwrite` are the checks of cache control (05 R114). -/
inductive Acc where
  | load | store | red | atom | fetch | cread | cwrite
deriving DecidableEq, Repr

/-- What a translation gives. -/
inductive Tr where
  /-- The physical address, its key id, and for an arena the slot and generation it was translated for. -/
  | ok (pa key gen : Nat)
  /-- The page is not present. -/
  | miss
  /-- A write to a read-duplicated page (R364). -/
  | dup
  /-- A protection or arena fault. -/
  | bad (cause : Nat)
  /-- Not yet: a walker waits for a port or a machine check, or for the ownership of a companion word (04 R72, 05 R98, 17 R384). -/
  | later
deriving DecidableEq, Repr

/-- What a table walk finds. -/
inductive Walk where
  | absent
  | refused
  /-- The walker cannot read the slot at an address now. -/
  | waits (pa : Nat)
  | leaf (pte comp size : Nat)
deriving DecidableEq, Repr

/-- Bits [hi:lo] of a number. -/
def bitsN (x hi lo : Nat) : Nat := x / 2 ^ lo % 2 ^ (hi + 1 - lo)
/-- Bit `i` of a number. -/
def bitN (x i : Nat) : Bool := x / 2 ^ i % 2 == 1

/-- Whether a frame lies in bonded DRAM. -/
def inDram (pa : Nat) : Bool := match locKind (locOf pa) with | .dram _ => true | _ => false

/-- The levels of the walk: shift, slots, and the size of the next table if any (R355). -/
def walkLevels : List (Nat × Nat × Option Nat) :=
  [(44, 8192, some 262144), (30, 16384, some 8192), (21, 512, some 512), (16, 32, none)]

/-- The frame that die `d` uses of a page: of a read-duplicated one its own replica (R364). -/
def replicaOn (d : Nat) (rd : Bool) (pa : Nat) : Nat := if rd then pa - bitsN pa 37 36 * 2 ^ 36 + d * 2 ^ 36 else pa

/-- Whether a leaf is well formed for an access of die `d` at `off` in its page (R356, 05 R104). -/
def State.leafOk (s : State) (d pte size top off : Nat) : Bool :=
  let pa := bitsN pte 63 20 * 65536
  let at' := replicaOn d (bitN pte 6) pa
  decide (size < 2 ^ top) && !bitN pte 7 && pa % size == 0 && !(bitN pte 3 && !bitN pte 2) &&
    !(bitN pte 6 && (bitN pte 3 || size == 2 ^ 30 || !inDram pa)) && !s.meetsPool pa size && !s.meetsPool at' size &&
    s.populated pa && s.populated (at' + off)

/-- The pointer entry that a walker of a die has cached for a level of a walk (R358). -/
def State.cachedPointer (s : State) (die asid va shift : Nat) : Option Nat :=
  (s.walks.find? fun e => e.die == die && e.asid == asid && e.shift == shift && e.page == va / 2 ^ shift).map (·.table)

/-- The walk from a table, with the pointer entries that it read. A slot in a frame pool fails the check of its tag (05 R108; log 91). DESIGN CHOICE
(log 120): a root that is not aligned to its table is walked from where it stands; R355 names a check for next tables only. -/
def State.walkFrom (s : State) (die asid va : Nat) : List (Nat × Nat × Option Nat) → Nat → Walk × List WalkEntry
  | [], _ => (.refused, [])
  | (shift, slots, next) :: rest, table =>
    match s.cachedPointer die asid va shift with
    | some t => s.walkFrom die asid va rest t
    | none =>
      let at' := table + 16 * (va / 2 ^ shift % slots)
      if !s.populated at' || !s.frameLive 0 at' then (.refused, [])
      else if !s.open' die at' true false then (.waits at', [])
      else
        let pte := s.rawNat at' 8
        if !bitN pte 0 then (.absent, [])
        else if bitN pte 1 then
          (if s.leafOk die pte (2 ^ shift) 44 (va % 2 ^ shift) then .leaf pte (at' + 8) (2 ^ shift) else .refused, [])
        else
          match next with
          | none => (.refused, [])
          | some sz =>
            let t := bitsN pte 59 9 * 512
            if bitsN pte 8 2 != 0 || bitsN pte 63 60 != 0 || t % sz != 0 || s.meetsPool t sz then (.refused, [])
            else
              let (w, es) := s.walkFrom die asid va rest t
              (w, ⟨die, asid, shift, va / 2 ^ shift, t⟩ :: es)

/-- The entry of a TLB for an address: the micro-TLB of the core, then the shared TLB of the die (R358). -/
def State.tlbHit (s : State) (die : Nat) (core : Option Nat) (asid va : Nat) : Option TlbEntry :=
  let hit (c : Option Nat) (e : TlbEntry) : Bool :=
    e.die == die && e.core == c && e.asid == asid && decide (e.va ≤ va) && decide (va < e.va + e.size)
  match (if core.isSome then s.tlb.find? (hit core) else none) with
  | some e => some e
  | none => s.tlb.find? (hit none)

/-- Adds entries, the oldest of a full TLB going (R358 gives the sizes; log 8). -/
def State.tlbFill (s : State) (e : TlbEntry) : State :=
  let same (x : TlbEntry) : Bool := x.die == e.die && x.core == e.core
  let cap := if e.core.isSome then Config.microTlb else Config.sharedTlb
  let tlb := s.tlb.filter fun x => !(same x && x.asid == e.asid && x.va == e.va && x.size == e.size)
  let tlb := if (tlb.filter same).length < cap then tlb
    else match tlb.find? same with
      | some old => tlb.erase old
      | none => tlb
  { s with tlb := tlb ++ [e] }

/-- Whether a walker of a die may OR bits into a companion word now: its home slice owns the line, which sends invalidations where it does
not (R357, 05 R98). -/
def State.ownCompanion (s : State) (die comp mask : Nat) : Bool × State :=
  let old := s.rawNat comp 8
  if (old ||| mask) = old || !s.frameLive 0 comp then (true, s)
  else if !s.open' die comp true true then (false, s.awaitPeer die comp)
  else
    let (s, busy) := s.sendInvals (lineOf comp) none
    (!busy, s)

/-- An atomic OR into a companion word, at its home slice (R357); one in a frame pool is discarded (05 R108). -/
def State.orCompanion (s : State) (comp mask : Nat) : State :=
  let old := s.rawNat comp 8
  let new := old ||| mask
  if new = old || !s.frameLive 0 comp then s else s.rawWrite comp (natBytes 8 new)

/-- The frame that the die of an entry uses. -/
def replica (e : TlbEntry) (pa : Nat) : Nat := replicaOn e.die e.rd pa

/-- The rights that an entry gives (R354, R356). -/
def TlbEntry.check (e : TlbEntry) (acc : Acc) (level : Level) : Option Tr :=
  let u := level == .u
  if u && !e.u then some (.bad 0x06)
  else match acc with
    | .load | .cread => if e.r then none else some (.bad 0x06)
    | .store | .red => if e.w then none else if e.rd then some .dup else some (.bad 0x06)
    | .atom =>
      if e.r && e.w then none else if e.r && e.rd then some .dup else some (.bad 0x06)
    | .cwrite => if e.w then none else some (.bad 0x06)
    | .fetch => if e.x && !(e.u && !u) then none else some (.bad 0x06)

/-- What an entry gives for an access: an address outside the populated ranges is a protection fault before its rights count (03 R65), and so
are atomics and reductions to device registers (06 R132). -/
def State.viaEntry (s : State) (e : TlbEntry) (acc : Acc) (level : Level) (va : Nat) : Tr :=
  let pa := replica e (e.pa + (va - e.va))
  if !s.populated pa then .bad 0x06
  else match e.check acc level with
    | some t => t
    | none =>
      if (acc == .atom || acc == .red) && isDevice pa then .bad 0x06
      else .ok pa e.key (if e.gen = 0 then 0 else e.slot * 256 + e.gen)

/-- The TLB entry of a leaf. -/
def leafEntry (x : Acx) (asid va pte comp size : Nat) : TlbEntry :=
  { die := x.die, core := none, asid := asid, va := va / size * size, size := size, pa := bitsN pte 63 20 * 65536,
    r := bitN pte 2, w := bitN pte 3, x := bitN pte 4, u := bitN pte 5, rd := bitN pte 6,
    key := bitsN pte 19 8, comp := comp, dirtySet := false, slot := 0, gen := 0 }

/-- The companion bits that the fill of an entry sets: A of its die, and XD where its frame is homed elsewhere (R357). -/
def State.fillMask (s : State) (e : TlbEntry) : Nat := 2 ^ e.die + if s.homeDie (replica e e.pa) != some e.die then 16 else 0

/-- Fills the TLBs with the entry of a leaf, and sets its companion bits (R357). -/
def State.fillFrom (s : State) (x : Acx) (e : TlbEntry) : TlbEntry × State :=
  let s := s.orCompanion e.comp (s.fillMask e)
  let s := s.tlbFill e
  (e, match x.core with
    | some c => s.tlbFill { e with core := some c }
    | none => s)

/-- A translation through page tables with the given root. -/
def State.viaTables (s : State) (x : Acx) (asid root : Nat) (acc : Acc) (va : Nat) : Tr × State :=
  match s.tlbHit x.die x.core asid va with
  | some e =>
    let s := match x.core, e.core with
      | some c, none => s.tlbFill { e with core := some c }
      | _, _ => s
    (s.viaEntry e acc x.level va, s)
  | none =>
    let (w, es) := s.walkFrom x.die asid va walkLevels root
    let s := { s with walks := s.walks ++ es }
    match w with
    | .absent => (.miss, s)
    | .refused => (.bad 0x06, s)
    | .waits pa => (.later, s.awaitPeer x.die pa)
    | .leaf pte comp size =>
      let e := leafEntry x asid va pte comp size
      match s.ownCompanion x.die comp (s.fillMask e) with
      | (false, s) => (.later, s)
      | (true, s) =>
        let (e, s') := s.fillFrom x e
        (s'.viaEntry e acc x.level va, s')

/-- The arena table entry of a die and slot (05 R102). -/
def State.arenaAt (s : State) (die slot : Nat) : Option Arena := s.arenas.find? fun a => a.die == die && a.slot == slot

/-- A translation through the arena table (05 R104). -/
def State.viaArena (s : State) (x : Acx) (acc : Acc) (va : Nat) : Tr × State :=
  match s.tlbHit x.die x.core x.asid va with
  | some e => (if acc == .fetch then .bad 0x06 else s.viaEntry e acc x.level va, s)
  | none =>
    let gen := bitsN va 55 48
    let die := bitsN va 47 46
    let slot := bitsN va 39 24
    let off := va % 2 ^ 24
    if bitsN va 45 40 != 0 then (.bad 0x08, s)
    else match s.arenaAt die slot with
      | none => (.bad 0x08, s)
      | some a =>
        if !a.live || a.gen != gen then (.bad 0x08, s)
        else if a.asid != x.asid || decide (a.frames.length * 65536 ≤ off) || acc == .fetch then (.bad 0x06, s)
        else
          let e : TlbEntry :=
            { die := x.die, core := x.core, asid := x.asid, va := va / 65536 * 65536, size := 65536,
              pa := a.frames.getD (off / 65536) 0 * 65536, r := true, w := true, x := false, u := true, rd := false,
              key := a.key, comp := 0, dirtySet := true, slot := die * 65536 + slot, gen := gen }
          let s := s.tlbFill e
          (s.viaEntry e acc x.level va, s)

/-- Translates a virtual address (R350): own tables, kernel region, arena region. -/
def State.translateAny (s : State) (x : Acx) (acc : Acc) (va : Nat) : Tr × State :=
  if 2 ^ 57 ≤ va then (.bad 0x06, s)
  else if va < 2 ^ 56 then s.viaTables x x.asid x.root acc va
  else if bitsN va 55 48 != 0 then s.viaArena x acc va
  else if x.level == .u then (.bad 0x06, s)
  else
    let root := (s.die x.die).kroot.toNat
    if root = 0 then (.bad 0x06, s) else s.viaTables x 0 root acc va

/-- The entry that holds the translation of an address. -/
def State.entryFor (s : State) (x : Acx) (va : Nat) : Option TlbEntry :=
  s.tlbHit x.die x.core (if va < 2 ^ 56 || bitsN va 55 48 != 0 then x.asid else 0) va

/-- Whether an access writes through its translation, so that D of the die is set first (R357). -/
def Acc.writes : Acc → Bool
  | .store | .red | .atom => true
  | _ => false

/-- Translates a virtual address for an access. The companion word of a page to be written for the first time is owned first. -/
def State.translate (s : State) (x : Acx) (acc : Acc) (va : Nat) : Tr × State :=
  match s.translateAny x acc va with
  | (.ok pa key gen, s) =>
    if !acc.writes then (.ok pa key gen, s)
    else match s.entryFor x va with
      | none => (.ok pa key gen, s)
      | some e =>
        if e.dirtySet then (.ok pa key gen, s)
        else match s.ownCompanion x.die e.comp (2 ^ (8 + x.die)) with
          | (false, s) => (.later, s)
          | (true, s) => (.ok pa key gen, s)
  | r => r

/-- Before a first write through a translation: D of the die (R357). -/
def State.markDirty (s : State) (x : Acx) (va : Nat) : State :=
  match s.entryFor x va with
  | none => s
  | some e =>
    if e.dirtySet then s
    else
      let s := s.orCompanion e.comp (2 ^ (8 + x.die))
      { s with tlb := updIf s.tlb (fun y => y.die == x.die && y.asid == e.asid && y.va == e.va && y.size == e.size)
                        fun y => { y with dirtySet := true } }

/-- Translates several addresses in order. -/
def State.translateAll (s : State) (x : Acx) (acc : Acc) : List Nat → List Tr × State
  | [] => ([], s)
  | va :: rest =>
    let (t, s) := s.translate x acc va
    let (ts, s) := s.translateAll x acc rest
    (t :: ts, s)

/-- The translation context of a group. -/
def State.acx (s : State) (ti gi : Nat) : Acx :=
  let core := s.coreOf ti gi
  { die := dieOfCore core, core := some core, asid := s.asidOf ti, root := (s.rootOf ti).toNat, level := (s.group ti gi).level }

/-- The address space that holds an address: the kernel region is one for all (16 R350). -/
def spaceOf (asid va : Nat) : Nat := if decide (2 ^ 56 ≤ va) && bitsN va 55 48 == 0 then 0 else asid

/-- Brings the lines of a range under a key (03 R69). -/
def State.settleRange (s : State) (key pa n : Nat) : State := (linesOf pa n).foldl (fun s l => s.settle l key) s

/-- The same for the lines of a range that some cache holds. -/
def State.settleCached (s : State) (key pa n : Nat) : State :=
  (dedupNat ((s.cache.map (·.line)).filter (inRange pa n))).foldl (fun s l => s.settle l key) s

/-- Whether an agent of a die may access the lines of a range of one page now. -/
def State.openRange (s : State) (die pa n : Nat) (reads writes : Bool) : Bool :=
  (s.isLocal pa || (linesOf pa n).all fun l => s.reaches die (128 * l)) &&
    !s.faults.any fun f => inRange pa n (lineOf f.va) && f.holds die (lineOf f.va) reads writes

/-- The home slices of the lines of a range take ownership for a write by the hardware: it tells whether all have it (05 R98). Lines without
a recorded copy need nothing. -/
def State.ownRange (s : State) (pa n : Nat) : Bool × State :=
  let (s, busy) := s.ownLines ((dedupNat (s.dir.map (·.line) ++ s.invals.map (·.1))).filter (inRange pa n))
  (!busy, s)

/-- How a write by the hardware ends. -/
inductive HwWrote where
  /-- Done, or dropped by the check of its frame's tag (05 R108). -/
  | done
  /-- Not yet: a walker, a port, a machine check or an invalidation is waited for. -/
  | later
  /-- The address does not translate. -/
  | none
deriving DecidableEq, Repr

/-- A write by the hardware to virtual addresses of one page: a ring's record, a part of a context slot. -/
def State.hwWrite (s : State) (x : Acx) (va : Nat) (bytes : List Byte) : HwWrote × State :=
  match s.translate x .store va with
  | (.ok pa key gen, s) =>
    if !s.frameLive gen pa then (.done, s.markDirty x va)
    else if !s.openRange x.die pa bytes.length false true then (.later, s.awaitRange x.die pa bytes.length)
    else match s.ownRange pa bytes.length with
      | (false, s) => (.later, s)
      | (true, s) => (.done, (s.markDirty x va).homeWriteBytes key pa bytes)
  | (.later, s) => (.later, s)
  | (_, s) => (.none, s)

end Sys2Proof.Machine
end

