-- ==== Sys2Proof/Machine/Faults.lean ====
section
/-! DEFINITION. The die fault queue, machine checks, wakes, and writes to kernel memory.

Rules of spec/: 14 R314 to R316, R321; 16 R359, R360, R368, R382, R430; 17 R384, R385. -/

namespace Sys2Proof.Machine

/-- The context handle of a team (16 R368). -/
def State.handleOf (s : State) (ti : Nat) : DWord :=
  match s.nodeOf ti with
  | some n => BitVec.ofNat 64 (n.pkt + n.q * 2 ^ 32 + (s.team ti).num * 2 ^ 40)
  | none => 0

/-! ### Raising and joining faults, 16 R360 -/

/-- Kinds that join (R360). -/
def joins (k : Nat) : Bool := k == 0 || k == 1 || k == 2 || k == 5

/-- The next fault number of a die: die in [31:30], a sequence in [29:0]. -/
def State.nextFid (s : State) (die : Nat) : Nat × State :=
  let n := (s.die die).fidSeq
  (die * 2 ^ 30 + n % 2 ^ 30, s.modDie die fun d => { d with fidSeq := n + 1 })

/-- Raises a fault, or joins one that is not resolved yet. The record's `fid` and `posted` are set here. -/
def State.raiseFault (s : State) (r : FaultRec) : Nat × State :=
  let join := if joins r.kind then
      s.faults.find? fun f => joins f.kind && !f.check && f.die == r.die && f.cause == r.cause && f.asid == r.asid
        && f.va / 65536 == r.va / 65536
    else none
  match join with
  | some f => (f.fid, s)
  | none =>
    let (fid, s) := s.nextFid r.die
    (fid, { s with faults := s.faults ++ [{ r with fid := fid, posted := false }] })

/-- The fault of lanes of a group at an address. Its ASID is that of the tables that miss the page: 0 in the kernel region (R358). -/
def State.laneFault (s : State) (ti gi : Nat) (cause kind va : Nat) (lanes : List Nat) (acc : Acc) : Nat × State :=
  let core := s.coreOf ti gi
  s.raiseFault
    { fid := 0, die := dieOfCore core, cause := cause, kind := kind, asid := spaceOf (s.asidOf ti) va, va := va, mask := maskOf lanes,
      handle := s.handleOf ti, core := core, grp := gi, accR := acc == .load || acc == .atom, accW := acc == .store || acc == .atom,
      accX := acc == .fetch, slot := 0, posted := false, check := false, ti := some ti, chain := none }

/-- A save or wake event for the fault queue (16 R354, R360). -/
def State.eventFault (s : State) (ti cause kind va : Nat) (mask : DWord) (slot : Nat) : State :=
  let core := (s.team ti).cores.getD 0 0
  (s.raiseFault
    { fid := 0, die := dieOfCore core, cause := cause, kind := kind, asid := s.asidOf ti, va := va, mask := mask,
      handle := s.handleOf ti, core := core, grp := 0, accR := false, accW := false, accX := false, slot := slot,
      posted := false, check := false, ti := some ti, chain := none }).2

/-- The 64 bytes of an entry (16 R360). -/
def FaultRec.bytes (f : FaultRec) : List Byte :=
  natBytes 4 (f.cause + f.kind * 256 + f.asid * 65536) ++ natBytes 4 f.fid ++ natBytes 8 f.va ++ natBytes 8 f.mask.toNat
    ++ natBytes 8 f.handle.toNat
    ++ natBytes 4 (f.core + f.grp * 65536 + (if f.accR then 2 ^ 20 else 0) + (if f.accW then 2 ^ 21 else 0)
        + (if f.accX then 2 ^ 22 else 0))
    ++ natBytes 4 f.slot ++ natBytes 24 0

/-! ### Kernel memory -/

/-- The kernel's own translation on a die: level K, `sy.kroot`. -/
def kernelAcx (die : Nat) : Acx := ⟨die, none, 0, 0, .k⟩

/-- Whether an address lies in the kernel region (16 R350). -/
def inKernel (va : Nat) : Bool := decide (2 ^ 56 ≤ va) && bitsN va 55 48 == 0

/-- The address of context slot `slot`: that of the pool when the team there was saved (16 R369, R377). -/
def State.slotBase (s : State) (slot : Nat) : Nat := match s.slots.find? (·.slot == slot) with
  | some c => c.base.toNat
  | none => s.module.poolBase.toNat + slot * 2 ^ 23

/-- Performs the writes to slots that wait, in order, until one must wait still. A part that does not translate is left out (log 15). -/
def State.drainList : List SlotWrite → State → State
  | [], s => { s with slotDue := [] }
  | w :: rest, s => match s.hwWrite (kernelAcx w.die) w.va w.bytes with
    | (.later, s) => { s with slotDue := w :: rest }
    | (_, s) => State.drainList rest s

/-- Performs what it can of the writes to slots. -/
def State.drainSlots (s : State) : State := State.drainList s.slotDue s

/-- Writes into context slot `slot` at an offset (16 R369), behind the writes to slots that wait. -/
def State.slotWrite (s : State) (die slot off : Nat) (bytes : List Byte) : State :=
  { s with slotDue := s.slotDue ++ [(⟨die, s.slotBase slot + off, bytes⟩ : SlotWrite)] }.drainSlots

/-- The byte that the last of the writes to slots that wait gives an address. -/
def State.dueByte (s : State) (va : Nat) : Option Byte :=
  s.slotDue.foldl (fun r w => if decide (w.va ≤ va) && decide (va < w.va + w.bytes.length) then w.bytes[va - w.va]? else r) none

/-- A word of a slot's header, `d` where the page does not translate. It is read under its key (03 R69). -/
def State.slotWord (s : State) (die slot off d : Nat) : Nat :=
  let base := s.slotBase slot
  match (s.translate (kernelAcx die) .load base).1 with
  | .ok pa key gen =>
    if s.frameLive gen pa then
      let s' := s.settle (lineOf (pa + off)) key
      bytesNat ((List.range 4).map fun i => (s.dueByte (base + off + i)).getD (s'.cohByte key (pa + off + i)))
    else d
  | _ => d

/-- Whether the slot of a record holds a team: its VALID (R370). -/
def State.slotValid (s : State) (die : Nat) (k : CtxSlot) : Bool := bitN (s.slotWord die k.slot 4 1) 0
/-- The layout that the header of a slot shows (R370). -/
def State.slotLayout (s : State) (die : Nat) (k : CtxSlot) : Nat := s.slotWord die k.slot 0 k.layout % 2 ^ 16

/-! ### Machine checks, 17 R384, R385 -/

/-- The 64 bytes of a record. -/
def McRec.bytes (r : McRec) : List Byte :=
  natBytes 4 (r.src + (if r.park then 256 else 0) + r.asid * 65536) ++ natBytes 4 r.fid ++ natBytes 8 r.addr.toNat
    ++ natBytes 8 r.mask.toNat ++ natBytes 8 r.handle.toNat ++ natBytes 4 (r.core + r.grp * 65536) ++ natBytes 4 r.unit
    ++ natBytes 8 r.syn.toNat ++ natBytes 16 0

/-- The lanes of group 0 of the firmware team that a check enters, and their PC: those at the PC of the lowest one (log 16). -/
def checkLanes (g : Group) : Option (List Nat × DWord) :=
  match g.live with
  | [] => none
  | l :: _ =>
    let pc := (g.lane l).pc
    some (g.live.filter fun l => (g.lane l).pc == pc, pc)

/-- Lanes halted at level F on a die go on when it has a machine check (16 R382). -/
def State.wakeChecked (s : State) (die : Nat) : State :=
  { s with teams := s.teams.map fun t =>
      if t.place == .resident && dieOfCore (t.cores.getD 0 0) == die then
        { t with groups := t.groups.map fun g => if g.level == .f then
            g.modLanes g.live fun _ x => if x.hold == .halt then { x with hold := .none } else x else g }
      else t }

/-- Delivers the oldest waiting check of a die, if its ring has a place that can be written and the F bank is free. It enters at `sy.fvec`,
whatever the level of the group (17 R384). -/
def State.deliverCheck (s : State) (die : Nat) : State :=
  let d := s.die die
  match d.mcWait, d.fwTeam with
  | r :: rest, some ti =>
    let g := s.group ti 0
    let size := 2 ^ (d.mcSz + 4)
    if d.mcBase == 0 || (d.mct - d.mch).toNat == size || g.bankF.inh then s
    else
      let va := d.mcBase.toNat + d.mct.toNat % size * 64
      match checkLanes g with
      | none => s
      | some (lanes, pc) =>
        match s.hwWrite { s.acx ti 0 with level := .f } va r.bytes with
        | (.done, s) =>
          let s := s.modDie die fun d => { d with mcWait := rest, mct := d.mct + 1 }
          (takeTrapTo true s ti 0 lanes 0x30 pc (BitVec.ofNat 64 va)).wakeChecked die
        | (.later, s) => s
        | (.none, _) => s
  | _, _ => s

/-- Checks whose record could not be written before. -/
def State.settleChecks (s : State) : State := (List.range Config.nDies).foldl State.deliverCheck s

/-- Raises a machine check on a die: it waits for the ring, then enters. -/
def State.raiseCheck (s : State) (die : Nat) (r : McRec) : State :=
  let s := { s.modDie die (fun d => { d with mcWait := d.mcWait ++ [{ r with syn := Config.syndrome s.freeCtr }] }) with
             freeCtr := s.freeCtr + 1 }
  s.deliverCheck die

/-- A record with no requester. -/
def McRec.plain (src addr unit : Nat) : McRec :=
  ⟨src, false, 0, 0, BitVec.ofNat 64 addr, 0, 0, 0, 0, unit, 0⟩

/-! ### Wakes, 14 R314 to R316, R321 -/

/-- Makes a saved team's slot eligible for restore after an event addressed to it (15 R340). -/
def State.touchSaved (s : State) (ti : Nat) : State :=
  { s with slots := updIf s.slots (fun c => c.ti == ti && c.auto) fun c => { c with eligible := true } }

/-- Changes every thread of a team. -/
def Team.mapThreads (t : Team) (f : Thread → Thread) : Team :=
  { t with groups := t.groups.map fun g => { g with lanes := g.lanes.map f } }

/-- Whether a thread of the team naps on a channel. -/
def Team.naps (t : Team) (ch : Nat) : Bool :=
  t.groups.any fun g => g.lanes.any fun x => match x.hold with
    | .nap c _ _ => c == ch
    | _ => false

/-- Gives the pending word of a channel to the lanes that nap on it (R321), and lets halted lanes go on (16 R382). -/
def Team.serveNaps (t : Team) (ch : Nat) : Team :=
  let w := t.notify.getD ch 0
  if w = 0 then t
  else
    let t' := t.mapThreads fun x => match x.hold with
      | .nap c d _ => if c = ch then (x.setV d w).resume else x
      | .halt => { x with hold := .none }
      | _ => x
    if t.naps ch then { t' with notify := t.notify.set ch 0 } else t'

/-- ORs a wake into the pending word of its team. -/
def State.deliverWake (s : State) (w : Wake) : State :=
  if w.value = 0 then s
  else
    let orIn (t : Team) : Team := { t with notify := updAt t.notify w.ch (· ||| w.value) }
    let t := s.team w.ti
    match t.place with
    | .gone => s
    | .waiting => s.modTeam w.ti orIn
    | .resident => s.modTeam w.ti fun t => (orIn t).serveNaps w.ch
    | .saved _ => ((s.modTeam w.ti orIn).touchSaved w.ti).eventFault w.ti 0x21 7 w.ch (w.value.setWidth 64) 0

/-- The die whose aperture delivers a wake to a team. -/
def State.wakeDie (s : State) (ti : Nat) : Nat := dieOfCore ((s.team ti).cores.getD 0 0)

/-- Whether a wake must wait at the entry of a die whose kettle is full (R316). -/
def State.kettleFull (s : State) (w : Wake) : Bool :=
  let d := s.die (s.wakeDie w.ti)
  d.gated && (s.team w.ti).place == .resident && w.value != 0 && decide (Config.kettleEntries ≤ d.kettle.length)
    && !d.kettle.any fun k => k.ti == w.ti && k.ch == w.ch

/-- Puts a wake into a kettle, merged with an entry of the same team and channel. -/
def kettleAdd (k : List Wake) (w : Wake) : List Wake :=
  if k.any fun e => e.ti == w.ti && e.ch == w.ch then
    updIf k (fun e => e.ti == w.ti && e.ch == w.ch) fun e => { e with value := e.value ||| w.value }
  else k ++ [w]

/-- Sends a wake: to the team, or to the kettle of a gated die. -/
def State.sendWake (s : State) (w : Wake) : State :=
  if w.value = 0 then s
  else if (s.team w.ti).place == .resident && (s.die (s.wakeDie w.ti)).gated then
    s.modDie (s.wakeDie w.ti) fun d => { d with kettle := kettleAdd d.kettle w }
  else s.deliverWake w

/-- Sends a wake that nobody waits for: one that finds the kettle full waits at the entry of the die (R316). -/
def State.sendOrWait (s : State) (w : Wake) : State :=
  if s.kettleFull w || (!(s.die (s.wakeDie w.ti)).entry.isEmpty && (s.team w.ti).place == .resident) then
    s.modDie (s.wakeDie w.ti) fun d => { d with entry := d.entry ++ [w] }
  else s.sendWake w

/-- The teams of a number in the grids that run on a queue (R314). -/
def State.queueTeams (s : State) (q num : Nat) : List Nat :=
  (List.range s.teams.length).filter fun ti =>
    let t := s.team ti
    t.num == num && t.place != .gone && match s.nodes[t.node]? with
      | some n => n.q == q && n.st == .running && !(s.dies.any fun d => d.fwTeam == some ti)
      | none => false

/-- The wakes of a byte-masked write to the notify aperture of a queue (R314): whole aligned words, in ascending order. -/
def State.apertureWakes (s : State) (q off : Nat) (bytes : List (Option Byte)) : List Wake :=
  let first := (off + 3) / 4 * 4
  ((List.range ((off + bytes.length - first) / 4)).map fun i =>
    let o := first + 4 * i
    let word := (bytes.drop (o - off)).take 4
    if word.all (·.isSome) then
      (s.queueTeams q (o / 0x40)).map fun ti => (⟨ti, o / 4 % 16, BitVec.ofNat 32 (bytesNat (word.filterMap id))⟩ : Wake)
    else []).flatten

/-- A write to the notify aperture: each of its wakes is sent, or waits at the entry of its die, by itself (R316). -/
def State.apertureWrite (s : State) (q off : Nat) (bytes : List (Option Byte)) : State :=
  (s.apertureWakes q off bytes).foldl State.sendOrWait s

/-! ### Posting, 16 R359, R430 -/

/-- Lanes halted on a die go on after a post to its fault queue (16 R382). -/
def State.wakeHalted (s : State) (die : Nat) : State :=
  { s with teams := s.teams.map fun t =>
      if t.place == .resident && dieOfCore (t.cores.getD 0 0) == die then
        t.mapThreads fun x => if x.hold == .halt then { x with hold := .none } else x
      else t }

/-- A fault of a die has been written to its ring: its events are over, TAIL moves, and the kernel's team is woken (R359). -/
def State.posted (s : State) (die : Nat) (f : FaultRec) : State :=
  let keep := !(f.kind == 6 || f.kind == 7)
  let s := { s with faults := if keep then updIf s.faults (·.fid == f.fid) fun f => { f with posted := true }
                              else s.faults.filter (·.fid != f.fid) }
  let s := s.modDie die fun d => { d with fltt := d.fltt + 1, fltStall := false, fltRetry := false }
  let w := (s.die die).fltw.toNat
  let wakes := (s.queueTeams (w % 256) (w / 256 % 512)).map fun ti => (⟨ti, w / 2 ^ 17 % 16, 1⟩ : Wake)
  (wakes.foldl State.sendOrWait s).wakeHalted die

/-- The entry of a ring could not be written: the ring stalls, with a machine check the first time (R430). -/
def State.stalled (s : State) (die va : Nat) : State :=
  let first := !(s.die die).fltStall
  let s := s.modDie die fun d => { d with fltStall := true, fltRetry := false }
  if first then s.raiseCheck die (McRec.plain 6 va die) else s

/-- Posts the oldest fault of a die that is not posted yet, if the ring is enabled, has a place, and its entry can be written. -/
def State.postFault (s : State) (die : Nat) : State :=
  let d := s.die die
  match s.faults.find? fun f => f.die == die && !f.posted && !f.check with
  | none => s
  | some f =>
    let size := 2 ^ (d.fltSz + 6)
    if d.fltBase == 0 || (d.fltt - d.flth).toNat == size || (d.fltStall && !d.fltRetry) then s
    else
      let va := d.fltBase.toNat + d.fltt.toNat % size * 64
      if !inKernel va then s.stalled die va
      else match s.hwWrite (kernelAcx die) va f.bytes with
        | (.done, s) => s.posted die f
        | (.later, s) => s
        | (.none, _) => s.stalled die va

end Sys2Proof.Machine
end

