-- ==== Sys2Proof/Machine/Device.lean ====
section
/-! DEFINITION. The device registers: reading them and writing them, each by its access codes.

Rules of spec/: 00 R9, R10; 04 R72, R77, R78, R88; 05 R105; 15 R330 to R332; 17 R387, R390 to R392. -/

namespace Sys2Proof.Machine

/-- A bit as a number at its place. -/
def bitAt (b : Bool) (i : Nat) : Nat := if b then 2 ^ i else 0

/-- Queue `q`. -/
def State.queue (s : State) (q : Nat) : Queue := Sparse.get .reset s.queues q
/-- Changes a queue. -/
def State.modQueue (s : State) (q : Nat) (f : Queue → Queue) : State :=
  { s with queues := Sparse.set .reset s.queues q (f (s.queue q)) }

/-- Whether a die can start a packet of shuffle traffic to a module now (04 R72, R77). DESIGN CHOICE (log 92): a block has no address, and R72's
hash takes line 0 of the module. -/
def State.shfReaches (s : State) (die dev : Nat) : Bool :=
  dev == s.module.dev || match s.portFor die (dev * 2 ^ 50) with
    | some p => !(s.port p).hshf
    | none => false

/-- Whether the partner of a port lets a packet of a channel start, SHF if `shf`, else REQ (04 R76, R77). -/
def Port.open' (p : Port) (shf : Bool) : Bool := !(if shf then p.hshf else p.hreq)

/-- Whether a packet for the fabric can start at a port: the channel is not paused, and none waits there before it. -/
def State.fabricOpen (s : State) (port : Nat) (shf : Bool) : Bool :=
  (s.port port).open' shf && !s.outbox.any fun x => x.1 == port && x.2.1 == shf

/-- Sends a packet into the fabric by a port; where its channel is paused it waits, and those after it. -/
def State.emitBy (s : State) (port : Nat) (shf : Bool) (m : OutMsg) : State :=
  if s.fabricOpen port shf then { s with sent := s.sent ++ [m] } else { s with outbox := s.outbox ++ [(port, shf, m)] }

/-- The port by which a die sends what names no other module: the one that R72's hash gives for its own number (log 92). -/
def State.ownPort (s : State) (die : Nat) : Option Nat := s.portFor die (s.module.dev * 2 ^ 50)

/-- A die sends a packet into the fabric. With no working port on the module there is nobody to send to (log 51). -/
def State.emit (s : State) (die : Nat) (shf : Bool) (m : OutMsg) : State :=
  match s.ownPort die with
  | some p => s.emitBy p shf m
  | none => { s with sent := s.sent ++ [m] }

/-- A packet that waited starts, or waits on; where its port has gone down it goes to another (R72). -/
def State.outAgain (s : State) (x : Nat × Bool × OutMsg) : State :=
  if (s.port x.1).up then s.emitBy x.1 x.2.1 x.2.2 else s.emit (x.1 / 8) x.2.1 x.2.2

/-- The packets that waited for a pause to end start. -/
def State.settleOut (s : State) : State :=
  if s.outbox.isEmpty then s else s.outbox.foldl State.outAgain { s with outbox := [] }

/-! ### Reading -/

/-- PAUSE (04 R77). -/
def Port.reg (p : Port) : Nat :=
  p.xoff + p.xon * 256 + bitAt p.badw 16 + bitAt p.preq 24 + bitAt p.pshf 25 + bitAt p.hreq 26 + bitAt p.hshf 27

/-- Slots of a strainer that are held (04 R84). -/
def State.occupancy (s : State) (die : Nat) : Nat := (s.strainer.filter (·.die == die)).length

/-- STRCTL (04 R88); a slot is 1 KiB. -/
def State.strctl (s : State) (die : Nat) : Nat :=
  let d := s.die die
  d.strStop + d.strResume * 256 + bitAt d.strStopped 16 + s.occupancy die / 16 % 1024 * 2 ^ 20 + bitAt d.strBadw 31

/-- ARNPOOL (05 R105). -/
def State.arnpool (s : State) (die : Nat) : Nat :=
  let d := s.die die
  d.arnBase + d.arnCount * 2 ^ 20 + bitAt d.arnEn 40 + bitAt d.arnBadw 41

/-- Frames of a pool that arenas hold. -/
def State.usedFrames (s : State) (die : Nat) : Nat := sumNat ((s.arenas.filter (·.die == die)).map fun a => a.frames.length)

/-- ARNFREE (05 R105). -/
def State.arnfree (s : State) (die : Nat) : Nat :=
  ((s.die die).arnCount - s.usedFrames die) % 2 ^ 20 + (s.arenas.filter (·.die == die)).length * 2 ^ 20

/-- CTL of a queue (15 R330). -/
def Queue.ctl (q : Queue) : Nat :=
  bitAt q.en 0 + bitAt q.halt 1 + q.fn * 2 ^ 8 + q.die * 2 ^ 14 + q.qsz * 2 ^ 16 + q.asid * 2 ^ 20 + q.key * 2 ^ 36 + q.err * 2 ^ 48

/-- MODSTAT (17 R390). -/
def Module.modstat (m : Module) : Nat := bitAt m.ready 0 + bitAt m.repl 1 + m.stage * 16 + m.ucores * 256 + m.clus * 2 ^ 17

/-- SEM (17 R391). -/
def Sem.reg (m : Sem) : Nat := m.owner + m.last * 4 + bitAt m.lost 3

/-- The registers of a block: offset, bytes, value. -/
def State.blockRegs (s : State) : DevBlock → List (Nat × Nat × Nat)
  | .pause p _ => [(8, 4, (s.port p).reg)]
  | .strctl d _ => [(0, 4, s.strctl d)]
  | .arnpool d _ => [(0, 8, s.arnpool d), (8, 8, s.arnfree d)]
  | .aperture _ _ => []
  | .queue q _ =>
    let x := s.queue q
    [(0, 8, x.base.toNat), (8, 8, x.ctl), (0x10, 4, x.head.toNat), (0x14, 4, x.tail.toNat), (0x18, 8, x.ptroot.toNat)]
  | .modreg _ => [(0, 4, s.module.modstat), (8, 4, s.sem.reg), (0x10, 4, s.module.dev)]

/-- The offset of an address within its block. -/
def DevBlock.off : DevBlock → Nat
  | .pause _ o | .strctl _ o | .arnpool _ o | .aperture _ o | .queue _ o | .modreg o => o

/-- A byte of the device registers. -/
def State.devByte (s : State) (loc : Nat) : Byte :=
  match devBlock loc with
  | none => Config.unnamedReg loc
  | some b =>
    match (s.blockRegs b).find? fun r => decide (r.1 ≤ b.off) && decide (b.off < r.1 + r.2.1) with
    | some (o, _, v) => BitVec.ofNat 8 (v / 256 ^ (b.off - o))
    | none => Config.unnamedReg loc

/-- Bytes of the device registers. -/
def State.devRead (s : State) (loc n : Nat) : List Byte := (addrs loc n).map s.devByte

/-- What a read of a device register gives, here or at a peer. It is never cached (03 R64). -/
def State.devBytes (s : State) (pa n : Nat) : List Byte := if s.isLocal pa then s.devRead (locOf pa) n else (addrs pa n).map s.mem.read

/-! ### Writing -/

/-- The pause state of a channel whose receive buffer holds `occ` KiB: on at XOFF, off at XON (04 R77). -/
def pauseNow (p : Port) (now : Bool) (occ : Nat) : Bool := if p.xoff ≤ occ then true else if occ ≤ p.xon then false else now

/-- A port whose buffers of the paused channels are measured against its thresholds. -/
def Port.measured (p : Port) : Port := { p with preq := pauseNow p p.preq p.rxReq, pshf := pauseNow p p.pshf p.rxShf }

/-- Sets PAUSE, or rejects the write (04 R78). New thresholds hold at once. -/
def State.writePause (s : State) (port : Nat) (v : Nat) : State :=
  let xoff := bitsN v 6 0
  let xon := bitsN v 14 8
  s.modPort port fun p =>
    let p := { p with badw := p.badw && !bitN v 16 }
    if decide (1 ≤ xon) && decide (xon < xoff) && decide (xoff ≤ 48) then { p with xoff := xoff, xon := xon }.measured else { p with badw := true }

/-- Every working port of a die sends its indication (04 R88). -/
def State.tellCoding (s : State) (die : Nat) (stop : Bool) : State :=
  (((List.range 8).map (8 * die + ·)).filter fun p => (s.port p).up).foldl (fun s p => s.emitBy p true (.stopCoding p stop)) s

/-- Stop-coding follows the occupancy (04 R88): in force from STOP on, until RESUME or below. -/
def State.strainerLevel (s : State) (die : Nat) : State :=
  let d := s.die die
  let occ := s.occupancy die
  let stopped := if d.strStop * 256 ≤ occ then true else if occ ≤ d.strResume * 256 then false else d.strStopped
  if stopped = d.strStopped then s
  else (s.modDie die fun d => { d with strStopped := stopped }).tellCoding die stopped

/-- Sets STRCTL, or rejects the write (04 R88). -/
def State.writeStrctl (s : State) (die : Nat) (v : Nat) : State :=
  let stop := bitsN v 5 0
  let res := bitsN v 13 8
  let s := s.modDie die fun d =>
    let d := { d with strBadw := d.strBadw && !bitN v 31 }
    if decide (res < stop) && decide (stop ≤ 31) then { d with strStop := stop, strResume := res } else { d with strBadw := true }
  s.strainerLevel die

/-- Sets ARNPOOL, or rejects the write (05 R105). -/
def State.writeArnpool (s : State) (die : Nat) (v : Nat) : State :=
  let base := bitsN v 19 0
  let cnt := bitsN v 39 20
  let inUse := s.arenas.any (·.die == die)
  s.modDie die fun d =>
    let d := { d with arnBadw := d.arnBadw && !bitN v 41 }
    if decide (base + cnt ≤ 2 ^ 20) && ((base == d.arnBase && cnt == d.arnCount) || !inUse) then
      { d with arnBase := base, arnCount := cnt, arnEn := bitN v 40 }
    else { d with arnBadw := true }

/-- Stops a queue with an error (15 R332). -/
def State.stopQueue (s : State) (q err : Nat) : State := s.modQueue q fun x => { x with halt := true, err := err }

/-- The slots of a queue's ring. -/
def Queue.slots (x : Queue) : Nat := 2 ^ (x.qsz + 6)
/-- Packets written and not yet consumed (15 R331). -/
def Queue.backlog (x : Queue) : Nat := (x.tail - x.head).toNat

/-- The doorbell check (15 R331). -/
def State.checkDoorbell (s : State) (q : Nat) : State :=
  let x := s.queue q
  if x.en && !x.halt && decide (x.slots < x.backlog) then s.stopQueue q 0x07 else s

/-- A write of TAIL: the doorbell. -/
def State.writeTail (s : State) (q : Nat) (tail : Word) : State := (s.modQueue q fun x => { x with tail := tail }).checkDoorbell q

/-- The LAUNCH of a queue whose node has not started is forgotten. -/
def State.dropWaiting (s : State) (q : Nat) : State :=
  { s with nodes := updIf s.nodes (fun n => n.q == q && n.st == .waiting) fun n => { n with st := .complete, terminated := true } }

/-- EN from 0 to 1 (15 R330): HALT clears, and the front-end reads the packet at HEAD again (R332). -/
def State.enableQueue (s : State) (q : Nat) : State :=
  if (s.queue q).en then s.checkDoorbell q
  else ((s.modQueue q fun x => { x with en := true, halt := false, block := .free }).dropWaiting q).checkDoorbell q

/-- The byte that a byte-masked write at `woff` gives an offset, if it covers it. -/
def maskedByte (woff : Nat) (bytes : List (Option Byte)) (o : Nat) : Option Byte := if woff ≤ o then bytes.getD (o - woff) none else none

/-- Replaces the bytes of a register that a write covers. -/
def mergeReg (off n old woff : Nat) (bytes : List (Option Byte)) : Nat :=
  bytesNat ((List.range n).map fun i => (maskedByte woff bytes (off + i)).getD (BitVec.ofNat 8 (old / 256 ^ i)))

/-- Whether a write covers a byte of a register. -/
def covers (off n woff : Nat) (bytes : List (Option Byte)) : Bool := (List.range n).any fun i => (maskedByte woff bytes (off + i)).isSome

/-- Whether a writer is software of level K or F. -/
def isKernel : Writer → Bool
  | .kernel => true
  | _ => false

/-- A write to the registers of a queue (15 R330). DESIGN CHOICE (log 93): a BASE that is no multiple of 64 loses its low bits. -/
def State.writeQueue (s : State) (w : Writer) (q off : Nat) (bytes : List (Option Byte)) : State :=
  let x := s.queue q
  let own := match w with
    | .tenant f => x.fn == f && f != 0
    | .port _ => false
    | _ => true
  if !own then s
  else
    let cfg := isKernel w && !x.en
    let s := if cfg && covers 0 8 off bytes then
        s.modQueue q fun x => { x with base := BitVec.ofNat 64 (mergeReg 0 8 x.base.toNat off bytes / 64 * 64) } else s
    let s := if cfg && covers 0x18 8 off bytes then
        s.modQueue q fun x => { x with ptroot := BitVec.ofNat 64 (mergeReg 0x18 8 x.ptroot.toNat off bytes) } else s
    let s := if covers 8 8 off bytes then
        let v := mergeReg 8 8 x.ctl off bytes
        let s := if cfg then s.modQueue q fun x =>
            { x with fn := bitsN v 13 8, die := bitsN v 15 14, qsz := if bitsN v 19 16 = 15 then x.qsz else bitsN v 19 16,
                     asid := bitsN v 35 20, key := bitsN v 47 36 } else s
        if bitN v 0 then s.enableQueue q else s.modQueue q fun x => { x with en := false }
      else s
    if covers 0x14 4 off bytes then s.writeTail q (BitVec.ofNat 32 (mergeReg 0x14 4 x.tail.toNat off bytes)) else s

/-- Stops every clock (17 R392). -/
def State.freezeAll (s : State) : State := { s with module := { s.module with frozen := true } }

/-- Gives up or claims SEM for one port (17 R391): the owner alone writes 00, a claim takes a free semaphore. -/
def Sem.write (m : Sem) (p v : Nat) : Sem :=
  if v = 0 then if m.owner = p + 1 then { m with owner := 0, last := p, idle := 0 } else m
  else if m.owner = 0 && v = p + 1 then { m with owner := v, last := p, idle := 0 } else m

/-- Writes of both ports to OWNER in one cycle: on two claims of a free semaphore the port other than LAST gets it. -/
def Sem.claims (m : Sem) : Option (BitVec 2) → Option (BitVec 2) → Sem
  | some a, some b =>
    if m.owner = 0 && a = 1 && b = 2 then (if m.last = 0 then m.write 1 2 else m.write 0 1)
    else (m.write 0 a.toNat).write 1 b.toNat
  | some a, none => m.write 0 a.toNat
  | none, some b => m.write 1 b.toNat
  | none, none => m

/-- An access of a port to a device register: while it owns SEM its time starts again (17 R391). -/
def State.portAccess (s : State) (p : Nat) : State :=
  if s.sem.owner = p + 1 then { s with sem := { s.sem with idle := 0 } } else s

/-- A write to the module registers (17 R390, R391). Before READY no write but FRZ takes effect (R386). -/
def State.writeModule (s : State) (w : Writer) (off : Nat) (bytes : List (Option Byte)) : State :=
  let hit := covers 0 4 off bytes
  let v := mergeReg 0 4 0 off bytes
  let s := if hit && bitN v 1 && s.module.ready then { s with module := { s.module with repl := false } } else s
  let s := if covers 8 1 off bytes && s.module.ready then
      let u := mergeReg 8 4 0 off bytes
      let s := if bitN u 3 then { s with sem := { s.sem with lost := false } } else s
      match w with
      | .port p => { s with sem := s.sem.write p (bitsN u 1 0) }
      | _ => s
    else s
  if hit && bitN v 2 then s.freezeAll else s

/-- A byte-masked write to the device registers, of one block. Who may write what: R78 and R88 name firmware, R105 levels K and F, 17 R389 the physical function;
a tenant function reaches its queues and its apertures; a management port reaches the module registers. The service port is not enabled before
the last stage of boot (17 R386). -/
def State.devWrite (s : State) (w : Writer) (loc : Nat) (bytes : List (Option Byte)) : State :=
  let s := match w, devBlock loc with
    | .port p, some _ => s.portAccess p
    | _, _ => s
  let priv := match w with
    | .kernel | .phys => true
    | _ => false
  let shut := match w with
    | .phys | .tenant _ => !s.module.ready
    | _ => false
  if shut then s
  else match devBlock loc with
  | none => s
  | some (.pause p off) =>
    if priv && covers 8 4 off bytes then
      s.writePause p (mergeReg 8 4 ((s.port p).reg - bitAt (s.port p).badw 16) off bytes) else s
  | some (.strctl d off) =>
    if priv && covers 0 4 off bytes then
      s.writeStrctl d (mergeReg 0 4 (s.strctl d - bitAt (s.die d).strBadw 31) off bytes) else s
  | some (.arnpool d off) =>
    if priv && covers 0 8 off bytes then
      s.writeArnpool d (mergeReg 0 8 (s.arnpool d - bitAt (s.die d).arnBadw 41) off bytes) else s
  | some (.aperture q off) =>
    match w with
    | .tenant f => if (s.queue q).fn == f && f != 0 then s.apertureWrite q off bytes else s
    | .port _ => s
    | _ => s.apertureWrite q off bytes
  | some (.queue q off) => s.writeQueue w q off bytes
  | some (.modreg off) =>
    match w with
    | .tenant _ | .user => s
    | _ => s.writeModule w off bytes

/-! ### Meanings of the register events -/

/-- PAUSE_WRITE (04 R77, R78). -/
def execPauseWrite (port : Nat) (v : Word) (s : State) : Out := .next (s.writePause port v.toNat)
/-- STRCTL_WRITE (04 R88). -/
def execStrctlWrite (die : Nat) (v : Word) (s : State) : Out := .next (s.writeStrctl die v.toNat)
/-- ARNPOOL_WRITE (05 R105). -/
def execArnpoolWrite (die : Nat) (v : DWord) (s : State) : Out := .next (s.writeArnpool die v.toNat)
/-- QUEUE_DOORBELL (15 R330, R331). -/
def execQueueDoorbell (q : Nat) (tail : Word) (s : State) : Out := .next (s.writeTail q tail)
/-- QUEUE_ENABLE (15 R330). -/
def execQueueEnable (q : Nat) (s : State) : Out := .next (s.enableQueue q)
/-- SEM_CLAIM (17 R391); before READY it has no effect (R386). -/
def execSemClaim (p0 p1 : Option (BitVec 2)) (s : State) : Out :=
  let s := if p0.isSome then s.portAccess 0 else s
  let s := if p1.isSome then s.portAccess 1 else s
  .next (if s.module.ready then { s with sem := s.sem.claims p0 p1 } else s)
/-- SEM_TIMEOUT (17 R391). -/
def execSemTimeout (s : State) : Out :=
  .next (if s.sem.owner != 0 && decide (400000000 ≤ s.sem.idle) then
    { s with sem := { s.sem with owner := 0, last := s.sem.owner - 1, lost := true, idle := 0 } } else s)
/-- FRZ_WRITE (17 R392). -/
def execFrzWrite (s : State) : Out := .next s.freezeAll
/-- FREEZE (17 R392). -/
def execFreeze (s : State) : Out := .next s.freezeAll
/-- REGISTER_WRITE (00 R9, R10): a write to the device registers by its access codes. -/
def execRegisterWrite (w : Writer) (loc : Nat) (bytes : List Byte) (s : State) : Out := .next (s.devWrite w loc (bytes.map some))
/-- NOTIFY_APERTURE_WRITE (14 R314, R316). -/
def execNotifyApertureWrite (q off : Nat) (bytes : List Byte) (s : State) : Out := .next (s.apertureWrite q off (bytes.map some))
/-- FAULT_POST (16 R359, R430). -/
def execFaultPost (die : Nat) (s : State) : Out := .next (s.postFault die)
/-- APERTURE_GATE (14 R316). -/
def execApertureGate (die : Nat) (s : State) : Out :=
  .next (if 16384 ≤ (s.die die).idle then s.modDie die fun d => { d with gated := true } else s)
/-- KETTLE_UNGATE (14 R316): every entry is delivered in order of first arrival, then what waited at the entry of the die. DESIGN CHOICE
(log 94): the count of idle cycles starts again. -/
def execKettleUngate (die : Nat) (s : State) : Out :=
  let k := (s.die die).kettle ++ (s.die die).entry
  .next (if k.isEmpty then s
    else k.foldl State.deliverWake (s.modDie die fun d => { d with gated := false, idle := 0, kettle := [], entry := [] }))
/-- POWER_THROTTLE (17 R393): the clock is lowered by a step; counts and results are unchanged. -/
def execPowerThrottle (s : State) : Out := .next { s with module := { s.module with clkSteps := s.module.clkSteps + 1 } }

end Sys2Proof.Machine
end

