-- ==== Sys2Proof/Machine/Access.lean ====
section
/-! DEFINITION. The shared parts of loads and stores: addresses, the checks of R123, parking and logging, the orders that hold at issue,
visibility, acknowledgement.

Rules of spec/: 06 R118, R122 to R126, R130, R136; 13 R282, R288, R293; 16 R361 to R363. -/

namespace Sys2Proof.Machine

/-! ### Addresses and checks, 06 R122, R123 -/

/-- `ea(L)`. -/
def ea (t : Thread) (a : Src) (o : Off) : Nat := (operand t 64 a + offset 64 o).toNat
/-- `ea(L)` of an atomic, whose offset is 0. -/
def ea0 (t : Thread) (a : Src) : Nat := (operand t 64 a).toNat
/-- `so(L)`. -/
def so (t : Thread) (a : Src) (o : Off) : Nat := (loWord (operand t 32 a) + loWord (offset 32 o)).toNat

/-- The address of each active lane. -/
def laneAddrs (s : State) (c : Cur) (act : List Nat) (f : Thread → Nat) : List (Nat × Nat) :=
  act.map fun l => (l, f (s.thread c.ti c.gi l))

/-- The outcome of the checks: a precise trap, a walk that must wait, or what each lane's address translates to. -/
inductive Checked where
  | trap (cause : Nat) (tval : DWord)
  | later (s : State)
  | pass (lanes : List (Nat × Nat × Tr)) (s : State)
deriving Repr

/-- Steps 1 and 2 of R123: alignment, then the high bits; the lowest lane that fails decides. -/
def precheck (align : Nat) (las : List (Nat × Nat)) : Option (Nat × DWord) :=
  match las.find? fun la => la.2 % align != 0 with
  | some la => some (0x04, BitVec.ofNat 64 la.2)
  | none =>
    match las.find? fun la => decide (2 ^ 57 ≤ la.2) with
    | some la => some (0x06, BitVec.ofNat 64 la.2)
    | none => none

/-- The checks of R123 over all active lanes. -/
def memChecks (s : State) (x : Acx) (acc : Acc) (align : Nat) (las : List (Nat × Nat)) : Checked :=
  match precheck align las with
  | some (c, v) => .trap c v
  | none =>
    let (trs, s') := s.translateAll x acc (las.map (·.2))
    let all := (las.zip trs).map fun p => (p.1.1, p.1.2, p.2)
    if trs.contains .later then .later s'
    else match all.findSome? fun p => match p.2.2 with
      | .bad c => some (c, p.2.1)
      | _ => none with
    | some (c, va) => .trap c (BitVec.ofNat 64 va)
    | none => .pass all s'

/-- One fault for each page of the lanes, with its own lane mask (16 R360, R363): the fault of each lane. -/
def pageFaults (s : State) (ti gi cause kind : Nat) (acc : Acc) (las : List (Nat × Nat)) : List (Nat × Nat) × State :=
  (dedupNat (las.map fun la => la.2 / 65536)).foldl
    (fun r page =>
      let mine := las.filter fun la => la.2 / 65536 == page
      match mine with
      | [] => r
      | (_, va) :: _ =>
        let (fid, s) := r.2.laneFault ti gi cause kind va (mine.map (·.1)) acc
        (r.1 ++ mine.map (fun la => (la.1, fid)), s))
    ([], s)

/-- The fault of a lane in such a list. -/
def fidOf (fids : List (Nat × Nat)) (lane : Nat) : Nat := match fids.find? (·.1 == lane) with
  | some p => p.2
  | none => 0

/-- Parks lanes at their word until their pages are there: what an instruction does that reads memory as part of its own step. -/
def parkLanes (s : State) (c : Cur) (las : List (Nat × Nat)) (acc : Acc) : State :=
  let (fids, s) := pageFaults s c.ti c.gi 0x05 0 acc las
  s.modLanes c.ti c.gi (las.map (·.1)) fun l t => { t with fetchPark := some (fidOf fids l) }

/-- The lanes whose page is missing. -/
def missing (ps : List (Nat × Nat × Tr)) : List (Nat × Nat) :=
  ps.filterMap fun p => match p.2.2 with
    | .miss => some (p.1, p.2.1)
    | _ => none
/-- The lanes that meet a read-duplicated page. -/
def duplicated (ps : List (Nat × Nat × Tr)) : List (Nat × Nat) :=
  ps.filterMap fun p => match p.2.2 with
    | .dup => some (p.1, p.2.1)
    | _ => none

/-! ### Overlap -/

/-- Whether two ranges share a byte. -/
def overlap (a n b m : Nat) : Bool := decide (a < b + m) && decide (b < a + n)

/-- Bytes that a store part touches. -/
def partLen (st : Store) (p : StPart) : Nat := match st.op with
  | .cwb _ _ | .cinv _ | .cdrop _ => p.data.toNat
  | _ => st.n

/-- Whether a place comes before another. -/
def placeBefore (a b : Int × Int) : Bool := decide (a.1 < b.1) || (a.1 == b.1 && decide (a.2 < b.2))

/-- Whether a store part waits in the side log. -/
def StPart.inLog (p : StPart) : Bool := match p.st with
  | .logged _ _ | .replay _ _ => true
  | _ => false

/-- Whether a part of a store that has been translated is still to be performed. -/
def StPart.moves (p : StPart) : Bool := match p.st with
  | .wait | .replay _ _ => true
  | _ => false

/-- Its place in the side log. -/
def StPart.logSeq (p : StPart) : Nat := match p.st with
  | .logged _ q | .replay q _ => q
  | _ => 0

/-- Whether a load part is outstanding. -/
def LoadPart.open' (p : LoadPart) : Bool := p.st != .done
/-- Whether a load part is parked. -/
def LoadPart.parked (p : LoadPart) : Bool := match p.st with
  | .parked _ _ => true
  | _ => false

/-- The physical address of a load part that has one: a parked part has none yet. -/
def LoadPart.at? (p : LoadPart) : Option Nat := if p.parked then none else some p.pa

/-- The physical address of a store part that has been translated. -/
def StPart.at? (p : StPart) : Option Nat := if p.untranslated then none else some p.pa

/-- The physical address that a translation gives. -/
def Tr.at? : Tr → Option Nat
  | .ok pa _ _ => some pa
  | _ => none

/-- Whether two accesses of a team, each with its virtual address, its physical one if known, and its length, share a byte: two virtual addresses may
stand for one location. -/
def meet (a : Nat) (ap : Option Nat) (n b : Nat) (bp : Option Nat) (m : Nat) : Bool :=
  overlap a n b m || match ap, bp with
    | some x, some y => overlap x n y m
    | _, _ => false

/-- Whether a load is an acquire. -/
def LoadOp.isAcq : LoadOp → Bool
  | .acq _ _ => true
  | _ => false
/-- Whether a load acts at the home slice. -/
def LoadOp.isAtomic : LoadOp → Bool
  | .plain _ | .acq _ _ => false
  | _ => true
/-- Whether a store writes the L1 copy at issue (R118). -/
def StOp.inL1 : StOp → Bool
  | .store | .rel | .ord => true
  | _ => false
/-- Whether a store is a cache-control operation. -/
def StOp.isCache : StOp → Bool
  | .cwb _ _ | .cinv _ | .cdrop _ => true
  | _ => false

/-- Whether a store-class instruction reads what it changes. -/
def StOp.isRed : StOp → Bool
  | .red _ _ => true
  | _ => false

/-! ### Orders at issue -/

/-- Whether a later access of a thread waits: for an acquire load of the thread that is outstanding (R130), or for a read of its group that
was parked when the group passed a fence (13 R285, R293). -/
def State.acqOpen (s : State) (ti gi l : Nat) : Bool :=
  s.loads.any fun d => d.ti == ti && d.gi == gi &&
    ((d.op.isAcq && d.parts.any fun p => p.lane == l && p.open') ||
      (decide (d.t < (s.group ti gi).fenced) && d.parts.any fun p => p.open'))

/-- Whether a thread has an outstanding load that meets a range: its later store there waits (13 R291, coherence). -/
def State.loadOver (s : State) (ti gi l va : Nat) (pa : Option Nat) (n : Nat) : Bool :=
  s.loads.any fun d => d.ti == ti && d.gi == gi && d.parts.any fun p => p.lane == l && p.open' && meet p.va p.at? d.n va pa n

/-- Whether a thread has an `st.ord` of its own that is not performed and meets a range, one of a given flow apart: its later store there waits
(13 R291, coherence; log 96). -/
def State.heldOver (s : State) (ti gi l va : Nat) (pa : Option Nat) (n : Nat) (flow : Option (Nat × Nat)) : Bool :=
  s.stores.any fun o => o.ti == ti && o.gi == gi && o.op == .ord && o.parts.any fun p =>
    p.lane == l && (p.st == .held || p.st == .released) && flow != some (p.label, p.cls) && meet p.va p.at? o.n va pa n

/-- Whether a store that a core issued before place `before` stands in its L1 on a line under another key id than `key`: an access under `key` comes after it,
since the line is written back under its own key first (03 R69). -/
def State.keyClash (s : State) (core key line before : Nat) : Bool :=
  s.stores.any fun o => o.core == core && o.op.inL1 && decide (o.t < before) && o.parts.any fun q => q.st == .wait && lineOf q.pa == line && q.key != key

/-- Whether a scope is acknowledged in the issuing core's L1 (R136, 13 R282). -/
def narrowScope (pair : Bool) : Scope → Bool
  | .grp | .core => true
  | .team => !pair
  | _ => false

/-- Whether a store part is acknowledged at a scope (R136). -/
def partAcked (pair : Bool) (sc : Scope) (st : Store) (p : StPart) : Bool :=
  p.st == .acked || (narrowScope pair sc && !st.op.isCache &&
    (p.inLog || (st.op.inL1 && p.st == .wait)))

/-- Whether a team stands on a core pair. -/
def State.onPair (s : State) (ti : Nat) : Bool := decide ((s.team ti).cores.length = 2)

/-- Whether every earlier store of a thread is acknowledged at a scope, those in the steep buffer apart where `ord`. -/
def State.storesAckedBut (s : State) (ord : Bool) (ti gi l : Nat) (sc : Scope) (before : Nat) : Bool :=
  s.stores.all fun st => !(st.ti == ti && st.gi == gi && decide (st.t < before)) ||
    st.parts.all fun p => p.lane != l || (ord && p.st == .held) || partAcked (s.onPair ti) sc st p

/-- Whether every earlier store of a thread is acknowledged at a scope. -/
def State.storesAcked (s : State) (ti gi l : Nat) (sc : Scope) (before : Nat) : Bool := s.storesAckedBut false ti gi l sc before

/-- Whether what was published on the core of a group before place `upTo` in the order of issue is acknowledged at a scope wider than the core
(13 R291, causality; log 70). What the steep buffer holds or has let go unperformed is nobody's past (13 R288). -/
def State.pubAcked (s : State) (ti gi : Nat) (sc : Scope) (upTo : Nat) : Bool :=
  narrowScope (s.onPair ti) sc || s.stores.all fun st => !(st.core == s.coreOf ti gi) || match st.pub with
    | none => true
    | some t => decide (upTo ≤ t) || st.parts.all fun p => p.st == .held || p.st == .released || partAcked (s.onPair ti) sc st p

/-- The same for what was published there before a thread's last acquire. -/
def State.coreAcked (s : State) (ti gi l : Nat) (sc : Scope) : Bool := s.pubAcked ti gi sc (s.thread ti gi l).acqT

/-- Whether every earlier load of a thread has completed. -/
def State.loadsDone (s : State) (ti gi l before : Nat) : Bool :=
  s.loads.all fun d => !(d.ti == ti && d.gi == gi && decide (d.t < before)) || d.parts.all fun p => p.lane != l || p.st == .done

/-- What a release waits for (R130; 13 R291). -/
def State.releaseOk (s : State) (ti gi l : Nat) (sc : Scope) (before : Nat) : Bool :=
  s.loadsDone ti gi l before && s.storesAcked ti gi l sc before && s.coreAcked ti gi l sc

/-- What a released `st.ord` waits for: the same, but for what its thread holds in the steep buffer, which other flows order (13 R288; 20 R411,
step 4). -/
def State.ordOk (s : State) (ti gi l : Nat) (sc : Scope) (before : Nat) : Bool :=
  s.loadsDone ti gi l before && s.storesAckedBut true ti gi l sc before && s.coreAcked ti gi l sc

/-- What a fence waits for, over the whole group (R136; 13 R291). Its group's reads before it are acquires (13 R289), so that all that is published on its core
belongs to its past. -/
def State.fenceOk (s : State) (ti gi : Nat) (sc : Scope) : Bool :=
  (s.loads.all fun d => !(d.ti == ti && d.gi == gi) || d.parts.all fun p => p.st == .done || p.parked) &&
  (s.stores.all fun st => !(st.ti == ti && st.gi == gi) || st.parts.all fun p => partAcked (s.onPair ti) sc st p) &&
  s.pubAcked ti gi sc (s.nextId + 1)

/-- A release of a narrow scope publishes the earlier stores of a thread to its core (log 70). -/
def State.publish (s : State) (ti gi : Nat) (lanes : List Nat) : State :=
  let mine (st : Store) : Bool := st.ti == ti && st.gi == gi && st.pub.isNone && st.parts.any fun p => lanes.contains p.lane
  { s with stores := updIf s.stores mine fun st => { st with pub := some s.nextId } }

/-- An acquire of threads of a group: what was published on their core before belongs to their past. -/
def State.acquires (s : State) (ti gi : Nat) (lanes : List Nat) : State :=
  s.modLanes ti gi lanes fun _ t => { t with acqT := s.nextId + 1 }

/-- Entries of a core's park table that are held (16 R361). -/
def State.parkUsed (s : State) (core : Nat) : Nat := (s.loads.filter (·.core == core)).length
/-- Entries of a core's side log that are held (16 R362). -/
def State.logUsed (s : State) (core : Nat) : Nat :=
  sumNat ((s.stores.filter (·.core == core)).map fun st => (st.parts.filter (·.inLog)).length)
/-- Entries of a core's steep buffer that are taken: each until its store is acknowledged at its scope (14 R307). -/
def State.steepUsed (s : State) (core : Nat) : Nat :=
  sumNat ((s.stores.filter (·.core == core)).map fun st =>
    (st.parts.filter fun p => p.buf && !partAcked (s.onPair st.ti) st.sc st p).length)

/-- A pending entry of a core's side log on the page of an address (16 R362). -/
def State.logOnPage (s : State) (core asid va : Nat) : Option StPart :=
  (s.stores.filter fun st => st.core == core && spaceOf (s.asidOf st.ti) va == spaceOf asid va).findSome? fun st =>
    st.parts.find? fun p => p.inLog && p.va / 65536 == va / 65536

/-! ### Visibility -/

/-- The byte of the core's youngest visible store that covers an address, if any (R118, R129). A store to an arena, which its home may
discard, is read by nobody before it is performed (13 R283, 05 R108). -/
def State.ownByte (s : State) (core key pa : Nat) : Option Byte :=
  let cands := (s.stores.filter fun st => st.core == core && st.op.inL1).map fun st =>
    (st.parts.filter fun p => p.st == .wait && p.gen == 0 && p.key == key && !isDevice p.pa && decide (p.pa ≤ pa) && decide (pa < p.pa + st.n)).map fun p =>
      (p.place, BitVec.ofNat 8 (p.data.toNat / 256 ^ (pa - p.pa)))
  let all := cands.flatten
  all.foldl (fun (r : Option ((Int × Int) × Byte)) x => match r with
    | some y => if placeBefore y.1 x.1 then some x else r
    | none => some x) none |>.map (·.2)

/-- A load of `n` bytes on a core has read what stands there in the L1. -/
def State.seeStores (s : State) (core pa n : Nat) : State :=
  let read (o : Store) : Bool := o.core == core && o.op.inL1 && o.parts.any fun q => q.st == .wait && overlap q.pa o.n pa n
  { s with stores := updIf s.stores read fun o => { o with seen := true } }

/-- The byte that a core reads: its own youngest store, else the coherent copy. -/
def State.visByte (s : State) (core key pa : Nat) : Byte := (s.ownByte core key pa).getD (s.cohByte key pa)

/-! ### Lanes whose access fails after issue, 16 R432 -/

/-- Takes lanes out of the queues in which a wait left them. -/
def State.withdraw (s : State) (ti gi : Nat) (lanes : List Nat) : State :=
  let out (ls : List Nat) : List Nat := ls.filter fun l => !lanes.contains l
  let s := s.modTeam ti fun t =>
    { t with reqs := (t.reqs.map fun r => if r.gi = gi then { r with lanes := out r.lanes } else r).filter fun r => !r.lanes.isEmpty }
  let mine (r : AcgReq) : Bool := r.ti == ti && r.gi == gi && !r.lanes.isEmpty
  { s with acgQ := (s.acgQ.filter fun r => !(mine r && (out r.lanes).isEmpty)).map fun r => if mine r then { r with lanes := out r.lanes } else r,
           bfqs := s.bfqs.map fun b => { b with takes := (b.takes.map fun k =>
             if k.ti == ti && k.gi == gi then { k with lanes := out k.lanes } else k).filter fun k => !k.lanes.isEmpty } }

/-- Levels in order. -/
def Level.rank : Level → Nat
  | .u => 0
  | .k => 1
  | .f => 2

/-- The bank a trap of the group would go to now. -/
def State.trapBank (s : State) (ti gi : Nat) : Bool :=
  trapToF (s.group ti gi).level (s.die (dieOfCore (s.coreOf ti gi))).kvec

/-- Whether the deferred trap of an access issued at a level must wait: a handler of its target bank is active, or one that holds the
thread (R432). -/
def State.trapWaits (s : State) (ti gi : Nat) (lv : Level) : Bool :=
  decide (lv.rank < (s.group ti gi).level.rank) || ((s.group ti gi).bank (s.trapBank ti gi)).inh

/-- The deferred trap of the failing lanes of a load or atomic: those that have not exited (R432). -/
def deferredTrap (s : State) (ti gi op : Nat) (epc : DWord) (fails : List (Nat × Nat)) : State :=
  let s := s.modLanes ti gi (fails.map (·.1)) fun _ t => { t.clearPend op with fetchPark := none }
  let live := fails.filter fun la => !(s.thread ti gi la.1).exited
  match live with
  | [] => s
  | (_, va) :: _ =>
    let lanes := live.map (·.1)
    takeTrap (s.withdraw ti gi lanes) ti gi lanes 0x08 epc (BitVec.ofNat 64 va)

/-- The failing reply of a load or atomic has returned: its trap is taken, or waits for the handler of its target bank to return. Either way the access
is complete (R432; 06 R126). -/
def State.failLoad (s : State) (ti gi op : Nat) (lv : Level) (epc : DWord) (fails : List (Nat × Nat)) : State :=
  if s.trapWaits ti gi lv then { s with traps := s.traps ++ [⟨ti, gi, op, lv, epc, fails⟩] } else deferredTrap s ti gi op epc fails

/-- A deferred trap that waited is taken once no handler stands in its way; that of a team that is gone has no effect. DESIGN CHOICE (log 123): that of a team that
is saved waits beside its slot, which has no field for it. -/
def State.settleTrap (s : State) (t : DueTrap) : State :=
  match (s.team t.ti).place with
  | .gone => { s with traps := s.traps.erase t }
  | .resident =>
    if s.trapWaits t.ti t.gi t.level then s else deferredTrap { s with traps := s.traps.erase t } t.ti t.gi t.op t.epc t.fails
  | _ => s

/-- The deferred traps that waited, in the order in which their replies returned. -/
def State.settleTraps (s : State) : State := s.traps.foldl State.settleTrap s

end Sys2Proof.Machine
end

