-- ==== Sys2Proof/Machine/TopK.lean ====
section
/-! DEFINITION. Top-k records, 06 R133 and R134, and the applying of an atomic operation, R131 and R132. -/

namespace Sys2Proof.Machine

/-- The exact sum of two values rounded to F32 (a rounding step of R134 and 07 R153). -/
def f32Sum (xs : List Word) : Nat :=
  ffF32.round .rne ((xs.map fun x => ffF32.decode x.toNat).foldl (Num.add false) (.zero false))

/-- A quotient rounded once to a format. -/
def divRound (f : FF) (a b : Num) : Nat :=
  match a, b with
  | .nan, _ | _, .nan => f.nanBits
  | .inf _, .inf _ => f.nanBits
  | .inf n, y => f.round .rne (.inf (n != y.isNeg))
  | x, .inf n => f.round .rne (.zero (x.isNeg != n))
  | .zero _, .zero _ => f.nanBits
  | .zero n, y => f.round .rne (.zero (n != y.isNeg))
  | x, .zero n => f.round .rne (.inf (x.isNeg != n))
  | .fin m e, .fin m' e' => roundMag f .rne (decide (m < 0) != decide (m' < 0)) m.natAbs m'.natAbs (e - e')

/-- Whether a slot beats a candidate (R133). -/
def slotBeats (slot cand : Word × Nat) : Bool :=
  decide (scoreKey cand.1 < scoreKey slot.1) || (scoreKey slot.1 == scoreKey cand.1 && decide (slot.2 < cand.2))

/-- Inserts a candidate among the winners (R134): the winners, the place r, and whether the id was there already. -/
def topkInsert (k : Nat) (ws : List (Word × Nat)) (s : Word) (id : Nat) : List (Word × Nat) × Nat × Bool :=
  if id = 0xFFFF then (ws, 0xF, false)
  else if ws.any (·.2 == id) then (ws, 0xF, true)
  else
    let p := (ws.filter fun w => slotBeats w (s, id)).length
    if p < k then ((ws.take p ++ (s, id) :: ws.drop p).take k, p, false) else (ws, 0xF, false)

/-- The gate weights of `.norm` (R134): the weights, z and nf. -/
def topkWeights (ws : List (Word × Nat)) : List Nat × Bool × Bool :=
  let scores := ws.map (·.1)
  let n := ws.length
  let nans := List.replicate n 0x7FC0
  if n = 0 then ([], false, false)
  else if scores.any fun s => ffF32.isNan s.toNat then (nans, false, true)
  else
    let sum := f32Sum scores
    if ffF32.mag sum = 0 then
      (List.replicate n (roundMag ffBf16 .rne false 1 n 0), true, false)
    else
      let w := scores.map fun s => divRound ffBf16 (ffF32.decode s.toNat) (ffF32.decode sum)
      if w.any fun x => ffBf16.isNan x then (nans, false, true) else (w, false, false)

/-- SCORE[i] of a record's 64 bytes. -/
def recScore (rec : List Byte) (i : Nat) : Word := BitVec.ofNat 32 (bytesNat ((rec.drop (4 * i)).take 4))
/-- ID[i]. -/
def recId (rec : List Byte) (i : Nat) : Nat := bytesNat ((rec.drop (0x20 + 2 * i)).take 2)

/-- The winners of a record (R133). -/
def recWinners (rec : List Byte) (k : Nat) : List (Word × Nat) :=
  ((List.range k).map fun i => (recScore rec i, recId rec i)).takeWhile fun w => w.2 != 0xFFFF

/-- Replaces bytes of a record. -/
def putBytes (rec : List Byte) (off : Nat) (bs : List Byte) : List Byte := rec.take off ++ bs ++ rec.drop (off + bs.length)

/-- `atom.topk` on the 64 bytes of a record: the new bytes and the status (R134). -/
def topkStep (norm : Bool) (k : Nat) (rec : List Byte) (s : Word) (id : Nat) : List Byte × Word :=
  let ws := recWinners rec k
  let (ws', r, dup) := topkInsert k ws s id
  let rec1 := (List.range ws'.length).foldl (fun rec i =>
    match ws'[i]? with
    | some w => putBytes (putBytes rec (4 * i) (natBytes 4 w.1.toNat)) (0x20 + 2 * i) (natBytes 2 w.2)
    | none => rec) rec
  let rec1 := if r = 0xF then rec else rec1
  let (wt, z, nf) := if norm then topkWeights ws' else ([], false, false)
  let rec2 := if norm then putBytes rec1 0x30 ((List.range 8).flatMap fun i => natBytes 2 (wt.getD i 0)) else rec1
  (rec2, BitVec.ofNat 32 ((if dup then 1024 else 0) + (if nf then 512 else 0) + (if z then 256 else 0) + ws'.length * 16 + r))

/-- The new value of a location (06 R131). -/
def applyAtom (op : AtomOp) (sg : Bool) (w : Nat) (old x y : DWord) : DWord :=
  match op with
  | .add => patW w (uintW w old + uintW w x : Nat)
  | .min => if valW sg w x < valW sg w old then low64 w x else old
  | .max => if valW sg w old < valW sg w x then low64 w x else old
  | .and => old &&& low64 w x
  | .or => old ||| low64 w x
  | .xor => old ^^^ low64 w x
  | .xchg => low64 w x
  | .cas => if old = low64 w x then low64 w y else old
where
  /-- The low `w` bits. -/
  low64 (w : Nat) (x : DWord) : DWord := BitVec.ofNat 64 (uintW w x)

end Sys2Proof.Machine
end

