-- ==== Sys2Proof/Machine/LoadStore.lean ====
section
/-! DEFINITION. The load and store instructions, atomics, prefetch and fence, and the steps that complete them.

Rules of spec/: 05 R98, R100, R108, R113 to R116; 06 R118 to R136; 13 R293; 16 R361 to R364, R432. -/

namespace Sys2Proof.Machine

/-! ### Issue of a load or atomic -/

/-- The lanes that must wait before a load can issue, after its checks: acquire order, the counter, the park table. -/
def loadWaits (s : State) (c : Cur) (act : List Nat) : List Nat :=
  let g := s.group c.ti c.gi
  if decide (63 ≤ g.loads) || decide (Config.parkEntries ≤ s.parkUsed (s.coreOf c.ti c.gi)) then act
  else act.filter fun l => s.acqOpen c.ti c.gi l

/-- Issues a load-class instruction: `wd` is the width of its destination, `x` and `y` the operands of an atomic. -/
def issueLoad (op : LoadOp) (n align : Nat) (acc : Acc) (d wd : Nat) (addr : Thread → Nat) (x y : Thread → DWord)
    (c : Cur) (act : List Nat) (s : State) : Res :=
  if act.isEmpty then .done s
  else
    let ax := s.acx c.ti c.gi
    match memChecks s ax acc align (laneAddrs s c act addr) with
    | .trap cause v => .trap cause v
    | .later s' => .later s'
    | .pass ps s' =>
      let w := loadWaits s c act
      if !w.isEmpty then .stall w
      else
        let (f5, s') := pageFaults s' c.ti c.gi 0x05 0 acc (missing ps)
        let (fd, s') := pageFaults s' c.ti c.gi 0x05 5 acc (duplicated ps)
        let part (p : Nat × Nat × Tr) : LoadPart :=
          let t := s.thread c.ti c.gi p.1
          let base : LoadPart := ⟨p.1, p.2.1, 0, 0, 0, x t, y t, .wait⟩
          match p.2.2 with
          | .ok pa key gen => { base with pa := pa, key := key, gen := gen }
          | .dup => { base with st := .parked (fidOf fd p.1) 5 }
          | _ => { base with st := .parked (fidOf f5 p.1) 0 }
        let s' := if acc == .atom then ps.foldl (fun s p => match p.2.2 with
            | .ok pa _ _ => (s.markDirty ax p.2.1).passRdc (s.coreOf c.ti c.gi) (lineOf pa) true
            | _ => s) s' else s'
        let (id, s') := s'.fresh
        let ld : Load := ⟨id, id, c.ti, c.gi, s.coreOf c.ti c.gi, ax.level, s.cycOf c.ti c.gi, op, n, c.pc, ps.map part⟩
        let s' := { s' with loads := s'.loads ++ [ld] }
        let s' := s'.modLanes c.ti c.gi act fun _ t => t.addPend (if wd = 64 then [d, d + 1] else [d]) id
        .done (s'.modGroup c.ti c.gi fun g => { g with loads := g.loads + 1 })

/-! ### Issue of a store or reduction -/

/-- Whether a lane's store goes to the side log, and in which state: a missing or read-duplicated page, or a page with a pending entry. -/
def logState (s : State) (core asid : Nat) (fids : List (Nat × Nat)) (p : Nat × Nat × Tr) (seq : Nat) : Option StSt :=
  match p.2.2 with
  | .ok _ _ _ =>
    match s.logOnPage core asid p.2.1 with
    | some q => match q.st with
      | .logged fid _ => some (.logged fid seq)
      | _ => some (.replay seq 0)
    | none => none
  | _ => some (.logged (fidOf fids p.1) seq)

/-- The lanes that must wait before a store can issue: acquire order, coherence with the thread's own outstanding loads and held stores, the
counter, room in the side log. -/
def storeWaits (s : State) (c : Cur) (n : Nat) (logs : Nat) (ps : List (Nat × Nat × Tr)) : List Nat :=
  let g := s.group c.ti c.gi
  if decide (63 ≤ g.stores) || (decide (0 < logs) && decide (Config.logEntries < s.logUsed (s.coreOf c.ti c.gi) + logs)) then ps.map (·.1)
  else (ps.filter fun p =>
    s.acqOpen c.ti c.gi p.1 || s.loadOver c.ti c.gi p.1 p.2.1 p.2.2.at? n || s.heldOver c.ti c.gi p.1 p.2.1 p.2.2.at? n none).map (·.1)

/-- Adds a store instruction with its parts, and counts it. A release publishes itself too, and so does a store of a group that has passed a fence
(13 R289; log 70). -/
def addStore (s : State) (c : Cur) (op : StOp) (sc : Scope) (n : Nat) (parts : Nat → List StPart) : State :=
  let (id, s) := s.fresh
  let pub := if op == .rel || decide (0 < (s.group c.ti c.gi).fenced) then some id else none
  let st : Store := ⟨id, id, c.ti, c.gi, s.coreOf c.ti c.gi, (s.group c.ti c.gi).level, s.cycOf c.ti c.gi, pub, false, op, sc, n, parts id⟩
  { s with stores := s.stores ++ [st] }.modGroup c.ti c.gi fun g => { g with stores := g.stores + 1 }

/-- What stands in the L1 of a core where a store of `n` bytes goes, not yet at its home. -/
def State.nearStores (s : State) (core n pa : Nat) : List (Store × StPart) :=
  (s.stores.filter fun o => o.core == core && !o.op.isCache).flatMap fun o =>
    (o.parts.filter fun q => q.st == .wait && overlap q.pa o.n pa n).map fun q => (o, q)

/-- Whether a thread's plain store or load may go under what stands at its location (18 R399, 22 R427): plain stores of other threads, under the same key, that
nobody has read and no release has published (13 R291; log 17). -/
def State.mayUnder (s : State) (core ti gi n lane key pa : Nat) : Bool :=
  (s.nearStores core n pa).all fun x =>
    x.1.op == .store && x.1.pub.isNone && !x.1.seen && x.2.key == key && !(x.1.ti == ti && x.1.gi == gi && x.2.lane == lane)

/-- The place of a lane's store among those of its core: behind them in the order of issue, or, if `under`, before what stands at its location. -/
def placeOf (s : State) (core : Nat) (under : Bool) (n id lane pa : Nat) : Int × Int :=
  match if under then (s.nearStores core n pa).map (·.2.place) else [] with
  | [] => ((id * 64 + lane : Nat), 0)
  | x :: rest => ((rest.foldl (fun m y => if placeBefore y m then y else m) x).1, (lane : Int) - (id * 64 : Nat))

/-- Issues a store or reduction whose checks have passed: each lane's part is visible in the L1 or enters the side log. -/
def enterStore (op : StOp) (sc : Scope) (n : Nat) (data : Thread → DWord) (ps : List (Nat × Nat × Tr)) (c : Cur) (s0 s : State) : State :=
  let core := s.coreOf c.ti c.gi
  let asid := s.asidOf c.ti
  let ax := s.acx c.ti c.gi
  let (f5, s) := pageFaults s c.ti c.gi 0x05 1 .store (missing ps)
  let (fd, s) := pageFaults s c.ti c.gi 0x05 5 .store (duplicated ps)
  let under (id : Nat) : Bool := op == .store && Config.storeUnder id && ps.all fun p => match p.2.2 with
    | .ok pa key _ => s.mayUnder core c.ti c.gi n p.1 key pa
    | _ => true
  let part (id : Nat) (p : Nat × Nat × Tr) : StPart :=
    let base : StPart := ⟨p.1, p.2.1, 0, 0, 0, data (s0.thread c.ti c.gi p.1), 0, 0, 0, false, ((id * 64 + p.1 : Nat), 0), false,
      (logState s core asid (f5 ++ fd) p (id * 64 + p.1)).getD .wait⟩
    match p.2.2 with
    | .ok pa key gen => { base with pa := pa, key := key, gen := gen, place := placeOf s core (under id) n id p.1 pa }
    | _ => { base with untranslated := true }
  let s := ps.foldl (fun s p => match p.2.2 with
    | .ok pa _ _ =>
      let s := s.markDirty ax p.2.1
      if (s.logOnPage core asid p.2.1).isSome then s else s.passRdc core (lineOf pa) op.isRed
    | _ => s) s
  addStore s c op sc n fun id => ps.map (part id)

/-- The entries that a store would take in the side log. -/
def logNeed (s : State) (c : Cur) (ps : List (Nat × Nat × Tr)) : Nat :=
  (ps.filter fun p => match p.2.2 with
    | .ok _ _ _ => (s.logOnPage (s.coreOf c.ti c.gi) (s.asidOf c.ti) p.2.1).isSome
    | _ => true).length

/-- Issues a store-class instruction of a kind of access. A release waits until its thread's earlier accesses are complete (R130), its whole
group with it. -/
def issueStoreAs (acc : Acc) (op : StOp) (sc : Scope) (n : Nat) (addr : Thread → Nat) (data : Thread → DWord)
    (c : Cur) (act : List Nat) (s : State) : Res :=
  if act.isEmpty then .done s
  else
    let las := laneAddrs s c act addr
    match memChecks s (s.acx c.ti c.gi) acc n las with
    | .trap cause v => .trap cause v
    | .later s' => .later s'
    | .pass ps s' =>
      let w := storeWaits s c n (logNeed s c ps) ps
      if op == .rel && !(w.isEmpty && act.all fun l => s.releaseOk c.ti c.gi l sc s.nextId) then .stallAll
      else if !w.isEmpty then .stall w
      else
        let s' := if op == .rel then s'.publish c.ti c.gi act else s'
        .done (enterStore op sc n data ps c s s')

/-- Issues a store. -/
def issueStore (op : StOp) (sc : Scope) (n : Nat) (addr : Thread → Nat) (data : Thread → DWord)
    (c : Cur) (act : List Nat) (s : State) : Res := issueStoreAs .store op sc n addr data c act s

/-! ### Loads and stores, 06 R128 to R130 -/

/-- The registers of an address source and a destination. -/
def addrRegs (a : Src) : List Nat := srcRegs 64 a

/-- `ld` (06 R129). -/
def execLd (g : Guard) (w : MemW) (d : RegIx) (a : Src) (o : Off) : State → Out :=
  ordinary .all g (regRegs w.w d ++ addrRegs a)
    (issueLoad (.plain (w == .s8 || w == .s16)) w.bytes w.bytes .load d.toNat w.w (fun t => ea t a o) (fun _ => 0) (fun _ => 0))

/-- `ld.acq` (06 R129, R130). -/
def execLdAcq (g : Guard) (sc : Scope) (w : MemW) (d : RegIx) (a : Src) (o : Off) : State → Out :=
  ordinary .all g (regRegs w.w d ++ addrRegs a)
    (issueLoad (.acq (w == .s8 || w == .s16) sc) w.bytes w.bytes .load d.toNat w.w (fun t => ea t a o) (fun _ => 0) (fun _ => 0))

/-- `st` (06 R129). -/
def execSt (g : Guard) (w : MemW) (a : Src) (o : Off) (c : Src) : State → Out :=
  ordinary .all g (addrRegs a ++ srcRegs w.w c)
    (issueStore .store .grp w.bytes (fun t => ea t a o) (fun t => operand t w.w c))

/-- `st.rel` (06 R129, R130). -/
def execStRel (g : Guard) (sc : Scope) (w : MemW) (a : Src) (o : Off) (c : Src) : State → Out :=
  ordinary .all g (addrRegs a ++ srcRegs w.w c)
    (issueStore .rel sc w.bytes (fun t => ea t a o) (fun t => operand t w.w c))

/-! ### Scratchpad, 06 R120 to R123, R129 -/

/-- Bytes of a team's carve-out. -/
def Team.carve (t : Team) : Nat := t.scr * 262144
/-- The scratchpad of the core of the pair on which a group runs. -/
def Team.scratch (t : Team) (pcore : Nat) : Sparse Byte := if pcore = 0 then t.scratch0 else t.scratch1
/-- Replaces it. -/
def Team.setScratch (t : Team) (pcore : Nat) (m : Sparse Byte) : Team :=
  if pcore = 0 then { t with scratch0 := m } else { t with scratch1 := m }
/-- Bytes of a scratchpad. -/
def scratchBytes (m : Sparse Byte) (off n : Nat) : List Byte := (addrs off n).map fun a => Sparse.get 0#8 m a
/-- Writes bytes of a scratchpad. -/
def scratchPut (m : Sparse Byte) (off : Nat) (bs : List Byte) : Sparse Byte :=
  ((addrs off bs.length).zip bs).foldl (fun m c => Sparse.set 0#8 m c.1 c.2) m
/-- Writes bytes of a team's scratchpad. -/
def State.scratchWrite (s : State) (ti pcore off : Nat) (bs : List Byte) : State :=
  s.modTeam ti fun t => t.setScratch pcore (scratchPut (t.scratch pcore) off bs)

/-- The checks of a scratchpad access (R123). -/
def scratchCheck (s : State) (c : Cur) (n : Nat) (las : List (Nat × Nat)) : Option (Nat × DWord) :=
  match las.find? fun la => la.2 % n != 0 with
  | some la => some (0x04, BitVec.ofNat 64 la.2)
  | none =>
    match las.find? fun la => decide ((s.team c.ti).carve < la.2 + n) with
    | some la => some (0x06, BitVec.ofNat 64 la.2)
    | none => none

/-- A loaded value in a register: sign-extended for `.s8` and `.s16` (R129). -/
def loadedValue (sext : Bool) (n : Nat) (bs : List Byte) : DWord :=
  let x := bytesNat bs
  if sext then (BitVec.ofInt 32 (sintW (8 * n) (BitVec.ofNat 64 x))).setWidth 64 else BitVec.ofNat 64 x

/-- `lds` (06 R121, R129): performed at issue. -/
def execLds (g : Guard) (w : MemW) (d : RegIx) (a : Src) (o : Off) : State → Out :=
  ordinary .all g (regRegs w.w d ++ srcRegs 32 a) fun c act s =>
    match scratchCheck s c w.bytes (laneAddrs s c act fun t => so t a o) with
    | some (cause, v) => .trap cause v
    | none =>
      let gr := s.group c.ti c.gi
      let wt := if decide (63 ≤ gr.loads) || decide (Config.parkEntries ≤ s.parkUsed (s.coreOf c.ti c.gi)) then act
        else act.filter fun l => s.acqOpen c.ti c.gi l
      if !wt.isEmpty then .stall wt
      else
        let m := (s.team c.ti).scratch gr.pcore
        perLane (fun _ _ t =>
          t.setVW w.w d.toNat (loadedValue (w == .s8 || w == .s16) w.bytes (scratchBytes m (so t a o) w.bytes))) c act s

/-- `sts` (06 R121, R129): performed at issue, the higher lane's byte standing. -/
def execSts (g : Guard) (w : MemW) (a : Src) (o : Off) (v : Src) : State → Out :=
  ordinary .all g (srcRegs 32 a ++ srcRegs w.w v) fun c act s =>
    match scratchCheck s c w.bytes (laneAddrs s c act fun t => so t a o) with
    | some (cause, tv) => .trap cause tv
    | none =>
      let wt := act.filter fun l => s.acqOpen c.ti c.gi l
      if !wt.isEmpty then .stall wt
      else
        let pc := (s.group c.ti c.gi).pcore
        .done (act.foldl (fun s' l =>
          let t := s.thread c.ti c.gi l
          s'.scratchWrite c.ti pc (so t a o) (natBytes w.bytes (operand t w.w v).toNat)) s)

/-! ### Atomics, 06 R131 to R134 -/

/-- The width of an atomic. -/
def aw (w64 : Bool) : Nat := if w64 then 64 else 32

/-- The operand registers of an atomic: `cas` names a run (R131). -/
def atomRegs (op : AtomOp) (w64 : Bool) (b : SrcB) : List Nat :=
  match op, b with
  | .cas, .src (.v n) => (List.range (if w64 then 4 else 2)).map (n.toNat + ·)
  | _, b => srcBRegs (aw w64) b

/-- The new value of `cas`. -/
def casNew (w64 : Bool) (b : SrcB) (t : Thread) : DWord :=
  match b with
  | .src (.v n) => if w64 then t.d (n.toNat + 2) else (t.v (n.toNat + 1)).setWidth 64
  | _ => 0

/-- `atom` (06 R132). -/
def execAtom (g : Guard) (op : AtomOp) (sg : Bool) (sc : Scope) (w64 : Bool) (d : RegIx) (a : Src) (b : SrcB) : State → Out :=
  ordinary .all g (regRegs (aw w64) d ++ addrRegs a ++ atomRegs op w64 b)
    (issueLoad (.rmw op sg sc) (aw w64 / 8) (aw w64 / 8) .atom d.toNat (aw w64) (fun t => ea0 t a)
      (fun t => operandB t (aw w64) b) (casNew w64 b))

/-- `atom.bnd` (06 R132). -/
def execAtomBnd (g : Guard) (sc : Scope) (w64 : Bool) (d : RegIx) (a : Src) (b : SrcB) : State → Out :=
  ordinary .all g (regRegs (aw w64) d ++ addrRegs a ++ srcBRegs (aw w64) b)
    (issueLoad (.bnd sc) (aw w64 / 8) (aw w64 / 8) .atom d.toNat (aw w64) (fun t => ea0 t a)
      (fun t => operandB t (aw w64) b) (fun _ => 0))

/-- `atom.topk` (06 R134). -/
def execAtomTopk (g : Guard) (norm : Bool) (km1 : BitVec 3) (sc : Scope) (d : RegIx) (a : Src) (b : RegIx) : State → Out :=
  ordinary .all g (regRegs 32 d ++ addrRegs a ++ [b.toNat, b.toNat + 1])
    (issueLoad (.topk norm (km1.toNat + 1) sc) 64 64 .atom d.toNat 32 (fun t => ea0 t a)
      (fun t => (t.v b.toNat).setWidth 64) (fun t => ((t.v (b.toNat + 1)).setWidth 16).setWidth 64))

/-- `red` (06 R132). -/
def execRed (g : Guard) (op : AtomOp) (sg : Bool) (_sc : Scope) (w64 : Bool) (a : Src) (b : SrcB) : State → Out :=
  ordinary .all g (addrRegs a ++ srcBRegs (aw w64) b)
    (issueStoreAs .red (.red op sg) .grp (aw w64 / 8) (fun t => ea0 t a) (fun t => operandB t (aw w64) b))

/-! ### Prefetch and fence, 06 R135, R136 -/

/-- A lane's prefetch: its line comes to the L1 of the core, or to the L2 or RDC. A lane whose address fails a check is dropped, and one whose
line no copy here and no port serves (04 R72, R77) or an unresolved machine check holds. -/
def prefetchLane (l1 : Bool) (c : Cur) (s : State) (va : Nat) : State :=
  match s.translate (s.acx c.ti c.gi) .load va with
  | (.ok pa key gen, s) =>
    let core := s.coreOf c.ti c.gi
    let die := dieOfCore core
    if isDevice pa || !s.frameLive gen pa || !(s.reaches die pa || s.heldNear core key pa) || s.checkHolds die (lineOf pa) true false then s
    else
      let s := s.settle (lineOf pa) key
      if l1 then s.record core key pa else s.fetchShared die key pa
  | _ => s

/-- `pf.l1` (06 R135): no architectural state changes. -/
def execPfL1 (g : Guard) (a : Src) (o : Off) : State → Out :=
  ordinary .all g (addrRegs a) fun c act s => .done ((laneAddrs s c act fun t => ea t a o).foldl (fun s la => prefetchLane true c s la.2) s)
/-- `pf.l2` (06 R135). -/
def execPfL2 (g : Guard) (a : Src) (o : Off) : State → Out :=
  ordinary .all g (addrRegs a) fun c act s => .done ((laneAddrs s c act fun t => ea t a o).foldl (fun s la => prefetchLane false c s la.2) s)

/-- After a fence: what is parked holds later accesses back, a narrow scope publishes, and it is an acquire (13 R285, R289). It takes a place of its own in the
order of issue. -/
def State.fencePassed (s : State) (ti gi : Nat) : State :=
  let live := (s.group ti gi).live
  let (n, s) := ((s.publish ti gi live).acquires ti gi live).fresh
  s.modGroup ti gi fun g => { g with fenced := n + 1 }

/-- `fence` (06 R136). -/
def execFence (sc : Scope) : State → Out :=
  ordinary .all .always [] fun c _ s => if s.fenceOk c.ti c.gi sc then .done (s.fencePassed c.ti c.gi) else .stallAll

/-! ### Replies, 06 R126, R132, 13 R293, 16 R432 -/

/-- Whether a part of a load may be performed now. -/
def partReady (s : State) (ld : Load) (p : LoadPart) : Bool :=
  let asid := s.asidOf ld.ti
  -- no byte of it stands in the core's side log, in an entry older than the load (16 R362, 20 R412)
  !(s.stores.any fun st => st.core == ld.core && spaceOf (s.asidOf st.ti) p.va == spaceOf asid p.va &&
      st.parts.any fun q => q.inLog && decide (q.logSeq < 64 * ld.t) && meet q.va q.at? st.n p.va p.at? ld.n) &&
  -- what its home may discard is not read from the L1 (13 R283)
  !(s.stores.any fun st => st.core == ld.core && st.op.inL1 &&
      st.parts.any fun q => q.st == .wait && q.gen != 0 && overlap q.pa st.n p.pa ld.n) &&
  -- the line is not there under another key id (03 R69)
  !(!isDevice p.pa && s.keyClash ld.core p.key (lineOf p.pa) ld.t) &&
  -- no older overlapping read of its own thread is outstanding (13 R291)
  !(s.loads.any fun d => d.ti == ld.ti && d.gi == ld.gi && decide (d.t < ld.t) &&
      d.parts.any fun q => q.lane == p.lane && q.open' && meet q.va q.at? d.n p.va p.at? ld.n) &&
  -- older overlapping stores of its own thread that it could not read from the L1
  !(s.stores.any fun st => st.ti == ld.ti && st.gi == ld.gi && decide (st.t < ld.t) && !st.op.isCache &&
      st.parts.any fun q => q.lane == p.lane && q.st != .acked && meet q.va q.at? st.n p.va p.at? ld.n &&
        (ld.op.isAtomic || isDevice p.pa || !(st.op.inL1 && q.st == .wait))) &&
  -- an atomic acts at the home slice, after the core's older overlapping stores
  !(ld.op.isAtomic && s.stores.any fun st => st.core == ld.core && decide (st.t < ld.t) && !st.op.isCache &&
      st.parts.any fun q => q.st == .wait && overlap q.pa st.n p.pa ld.n)

/-- The result of an atomic's part on the old bytes of its location: the new bytes and the register value. -/
def rmwStep (op : LoadOp) (n : Nat) (old : List Byte) (x y : DWord) : List Byte × DWord :=
  let o := BitVec.ofNat 64 (bytesNat old)
  match op with
  | .rmw a sg _ => (natBytes n (applyAtom a sg (8 * n) o x y).toNat, o)
  | .bnd _ => (if uintW (8 * n) o < uintW (8 * n) x then natBytes n (o.toNat + 1) else old, o)
  | .topk norm k _ =>
    let (rec, r) := topkStep norm k old (loWord x) y.toNat
    (rec, r.setWidth 64)
  | _ => (old, o)

/-- The width of a load's destination. -/
def loadWd (ld : Load) : Nat := match ld.op with
  | .topk _ _ _ => 32
  | _ => if ld.n = 8 then 64 else 32

/-- Writes the result of one part to its thread. -/
def State.loadWrite (s : State) (ld : Load) (lane : Nat) (x : DWord) : State :=
  s.modThread ld.ti ld.gi lane fun t => t.lateW ld.id (loadWd ld) x

/-- Marks the parts of some lanes done; a load that is complete leaves and its count falls (R126). -/
def State.loadClose (s : State) (id : Nat) (lanes : List Nat) : State :=
  let s := { s with loads := updIf s.loads (·.id == id) fun d =>
    { d with parts := updIf d.parts (fun p => lanes.contains p.lane) fun p => { p with st := .done } } }
  match s.loads.find? (·.id == id) with
  | none => s
  | some d =>
    if d.parts.all (·.st == .done) then
      { s with loads := s.loads.filter (·.id != id) }.modGroup d.ti d.gi fun g => { g with loads := g.loads - 1 }
    else s

/-- One lane of a combined atomic, at the home slice, which has taken ownership (R98, R125, R132). -/
def atomicLane (s : State) (ld : Load) (p : LoadPart) : State :=
  let s := s.takeLine p.key (lineOf p.pa)
  let (new, r) := rmwStep ld.op ld.n (s.cohBytes p.key p.pa ld.n) p.x p.y
  let s := if new = s.cohBytes p.key p.pa ld.n then s else s.homeWrite p.key ((addrs p.pa ld.n).zip new)
  s.loadWrite ld p.lane r

/-- Whether a loaded value is sign-extended. -/
def LoadOp.sext : LoadOp → Bool
  | .plain b | .acq b _ => b
  | _ => false

/-- One lane of a load. It may read under what other threads have stored on its core (22 R427; log 121). -/
def loadLane (s : State) (ld : Load) (p : LoadPart) : State :=
  if isDevice p.pa then s.loadWrite ld p.lane (loadedValue ld.op.sext ld.n (s.devBytes p.pa ld.n))
  else
    let s := (s.settle (lineOf p.pa) p.key).record ld.core p.key p.pa
    if Config.readUnder ld.id && s.mayUnder ld.core ld.ti ld.gi ld.n p.lane p.key p.pa then
      s.loadWrite ld p.lane (loadedValue ld.op.sext ld.n (s.cohBytes p.key p.pa ld.n))
    else
      let s := s.seeStores ld.core p.pa ld.n
      s.loadWrite ld p.lane (loadedValue ld.op.sext ld.n ((addrs p.pa ld.n).map (s.visByte ld.core p.key)))

/-- Performs the parts `ps` of a load, in ascending lane order, all of one line or one location. -/
def performLoad (s : State) (ld : Load) (ps : List LoadPart) : State :=
  let good := ps.filter fun p => s.frameLive p.gen p.pa
  let bad := ps.filter fun p => !s.frameLive p.gen p.pa
  let s := good.foldl (fun s p => if ld.op.isAtomic then atomicLane s ld p else loadLane s ld p) s
  let s := if ld.op.isAcq then s.acquires ld.ti ld.gi (good.map (·.lane)) else s
  let s := s.loadClose ld.id (ps.map (·.lane))
  if bad.isEmpty then s else s.failLoad ld.ti ld.gi ld.id ld.level ld.epc (bad.map fun p => (p.lane, p.va))

/-- The parts that one reply answers: lanes of one line (a load), of one location (an atomic or a device register). -/
def replyParts (ld : Load) (pa : Nat) : List LoadPart :=
  ld.parts.filter fun p => p.st == .wait &&
    if ld.op.isAtomic || isDevice pa then p.pa == pa else lineOf p.pa == lineOf pa

/-- The parts that the reply of a line performs: those of a load's lanes that may be performed now, the others by a later one; of an atomic or a device
register all of them at once (R125; log 108). -/
def readyParts (s : State) (ld : Load) (pa : Nat) : List LoadPart :=
  let ps := replyParts ld pa
  if ld.op.isAtomic || isDevice pa then (if ps.all (partReady s ld) then ps else []) else ps.filter (partReady s ld)

/-- Whether the accesses of a team go on: not while it is saved (16 R367). -/
def State.placed (s : State) (ti : Nat) : Bool := match (s.team ti).place with
  | .saved _ => false
  | _ => true

/-- LOAD_REPLY (06 R126): load `id` gets its reply for the line or location of `pa`. It comes later while an order holds it back,
or while copies stand in the way of an atomic (R98). -/
def execLoadReply (id pa : Nat) (s : State) : Out :=
  .next <|
    match s.loads.find? (·.id == id) with
    | none => s
    | some ld =>
      let ps := readyParts s ld pa
      if !s.placed ld.ti || !(s.reachesAt ld.id (dieOfCore ld.core) pa || ps.all fun p => !ld.op.isAtomic && s.heldNear ld.core p.key p.pa)
          || s.checkHolds (dieOfCore ld.core) (lineOf pa) true ld.op.isAtomic then s
      else if ps.isEmpty then s
      else if ld.op.isAtomic then
        let (s', busy) := s.sendInvals (lineOf pa) (some (s.ownCopy ld.core (lineOf pa)))
        if busy then s' else performLoad s ld ps
      else performLoad s ld ps

/-! ### Acknowledgement of stores, 05 R98, R100, R108, 06 R126, R132 -/

/-- The parts of a store that a request to `pa` carries and that are under way: those on the line, or of a reduction those of the location
(R125). -/
def ackParts (st : Store) (pa : Nat) : List StPart :=
  st.parts.filter fun p => (if st.op.isRed then p.pa == pa else lineOf p.pa == lineOf pa) && match p.st with
    | .wait | .replay _ _ | .released => true
    | _ => false

/-- Whether an entry of the side log has its turn: earlier entries of its page are gone, and for a release those of its thread (16 R362). -/
def logTurn (s : State) (st : Store) (p : StPart) : Bool :=
  !p.inLog ||
    (s.stores.all fun o => !(o.core == st.core && spaceOf (s.asidOf o.ti) p.va == spaceOf (s.asidOf st.ti) p.va) ||
      o.parts.all fun q => !(q.inLog && decide (q.logSeq < p.logSeq)) ||
        !(q.va / 65536 == p.va / 65536 ||
          ((st.op == .rel || st.op == .ord) && o.ti == st.ti && o.gi == st.gi && q.lane == p.lane)))

/-- Whether an arrival number of a flow comes before another; they count modulo 2^32 (14 R300). -/
def seqBefore (a b : Nat) : Bool := a % 2 ^ 32 != b % 2 ^ 32 && decide ((b + 2 ^ 32 - a % 2 ^ 32) % 2 ^ 32 < 2 ^ 31)

/-- Whether a released `st.ord` may be performed: its thread's earlier accesses and every hold-earlier store are acknowledged at its scope
(13 R288, 14 R309). -/
def ordTurn (s : State) (st : Store) (p : StPart) : Bool :=
  st.op != .ord || p.st == .wait ||
    (s.ordOk st.ti st.gi p.lane st.sc st.t &&
      s.stores.all fun o => o.op != .ord || o.parts.all fun q =>
        !(q.label == p.label && q.cls == p.cls && p.cls == 1 && (seqBefore q.seq p.seq || (q.seq == p.seq && decide (o.t < st.t)))
          && (s.team o.ti).node == (s.team st.ti).node) || partAcked (s.onPair st.ti) st.sc o q)

/-- Whether a replayed entry comes after the loads of its team that its restore brought and that may be performed (16 R367, 20 R412). -/
def replayTurn (s : State) (st : Store) (p : StPart) : Bool := match p.st with
  | .replay _ upTo => !s.loads.any fun d => d.ti == st.ti && decide (d.t < upTo) && d.parts.any fun q =>
      q.st == .wait && partReady s d q && s.reachesAt d.id (dieOfCore d.core) q.pa && !s.checkHolds (dieOfCore d.core) (lineOf q.pa) true d.op.isAtomic
  | _ => true

/-- Whether parts of two stores meet at their physical addresses; a cache-control operation takes whole lines (05 R115). -/
def partsMeet (o : Store) (q : StPart) (st : Store) (p : StPart) : Bool :=
  let upper (a n : Nat) : Nat := (a + n + 127) / 128
  if o.op.isCache || st.op.isCache then
    decide (lineOf q.pa < upper p.pa (partLen st p)) && decide (lineOf p.pa < upper q.pa (partLen o q))
  else overlap q.pa (partLen o q) p.pa (partLen st p)

/-- Whether the stores and cache-control operations that come before a part at its location are done: those of its core that stand in the L1
before it, those that stand there on its line under another key id (03 R69), and every older one of its own thread (13 R291; log 17). What is released
goes to the L1, on top of what stands there. -/
def storeTurn (s : State) (st : Store) (p : StPart) : Bool :=
  s.stores.all fun o => !(o.core == st.core && o.id != st.id) ||
    o.parts.all fun q => match q.st with
      | .acked => true
      | .wait => p.st == .released || !((partsMeet o q st p && placeBefore q.place p.place) ||
          (lineOf q.pa == lineOf p.pa && q.key != p.key && decide (o.t < st.t) && o.op.inL1 && !isDevice p.pa))
      | _ => !(o.ti == st.ti && o.gi == st.gi && q.lane == p.lane && decide (o.t < st.t) &&
          (partsMeet o q st p || meet q.va q.at? (partLen o q) p.va p.at? (partLen st p)))

/-- Whether a part is a write to a notify aperture, which is a release at `.sys` (14 R314). -/
def StPart.isWake (p : StPart) : Bool :=
  isDevice p.pa && match devBlock (locOf p.pa) with
    | some (.aperture _ _) => true
    | _ => false

/-- Whether a part may be performed now. -/
def partTurn (s : State) (st : Store) (p : StPart) : Bool :=
  logTurn s st p && replayTurn s st p && ordTurn s st p && storeTurn s st p && (!p.isWake || s.releaseOk st.ti st.gi p.lane .sys st.t)

/-- The parts that a request performs now: those that left together once all of them may, replayed and released ones each by itself. -/
def turnParts (s : State) (st : Store) (ps : List StPart) : List StPart :=
  let now := ps.filter (·.st == .wait)
  (if now.all (partTurn s st) then now else []) ++ ps.filter fun p => p.st != .wait && partTurn s st p

/-- Marks parts acknowledged; a store that is complete leaves and its count falls. -/
def State.storeClose (s : State) (id : Nat) (ps : List StPart) : State :=
  let s := { s with stores := updIf s.stores (·.id == id) fun o =>
    { o with parts := updIf o.parts (fun p => ps.any fun q => q.lane == p.lane && q.va == p.va) fun p => { p with st := .acked } } }
  match s.stores.find? (·.id == id) with
  | none => s
  | some o =>
    if o.parts.all (·.st == .acked) then
      { s with stores := s.stores.filter (·.id != id) }.modGroup o.ti o.gi fun g => { g with stores := g.stores - 1 }
    else s

/-- The effect of a cache-control operation on the lines of one page's range (05 R115), under the key of its translation (03 R69). A discard
makes side entries stale; that of a line of another module is sent there. DESIGN CHOICE (log 97): `cdrop` of a line of this module forgets the copies
that other modules hold and sends them nothing, since R115 speaks of the module's copies. -/
def cacheEffect (s : State) (op : StOp) (core : Nat) (key pa len : Nat) : State :=
  let hit (e : CLine) : Bool := inRange pa len e.line
  let lines := dedupNat ((s.cache.filter hit).map (·.line))
  let s := lines.foldl (fun s l => s.settle l key) s
  match op with
  | .cwb sys _ =>
    let s := lines.foldl (fun s l => s.cleanL1 l) s
    if sys then lines.foldl (fun s l => s.cleanL2 l) s else s
  | .cinv _ =>
    let die := dieOfCore core
    let mine (e : CLine) : Bool := hit e && (e.lvl == .l1 core || e.lvl == .l1i core || e.lvl == .rdc die)
    let gone := dedupNat ((s.cache.filter fun e => mine e && e.dirty).map (·.line))
    let away := dedupNat ((s.cache.filter fun e => hit e && e.lvl == .rdc die).map (·.line))
    let s := gone.foldl (fun s l => s.staleSide l) s
    let s := away.foldl (fun s l => s.loseRdc die l) { s with cache := s.cache.filter fun e => !mine e }
    { s with dir := s.dir.map fun e => if inRange pa len e.line then
        { e with cores := e.cores.filter (· != core), dies := e.dies.filter (· != die) } else e }
  | .cdrop _ =>
    let s := lines.foldl (fun s l => s.discardLine l) s
    let s := { s with dir := s.dir.filter fun e => !inRange pa len e.line }
    if s.isLocal pa then s else { s with sent := s.sent ++ (addrs (lineOf pa) ((pa + len + 127) / 128 - lineOf pa)).map .remoteDrop }
  | _ => s

/-- Performs one part of a store; one that fails the check of its frame is discarded (05 R108). -/
def storeLane (s : State) (st : Store) (p : StPart) : State :=
  if !s.frameLive p.gen p.pa then s
  else match st.op with
    | .red op sg =>
      let s := s.takeLine p.key (lineOf p.pa)
      let old := BitVec.ofNat 64 (bytesNat (s.cohBytes p.key p.pa st.n))
      s.homeWrite p.key ((addrs p.pa st.n).zip (natBytes st.n (applyAtom op sg (8 * st.n) old p.data 0).toNat))
    | .store | .rel | .ord => s.grantWrite st.core p.key ((addrs p.pa st.n).zip (natBytes st.n p.data.toNat))
    | op => cacheEffect s op st.core p.key p.pa p.data.toNat

/-- The byte mask of a line that cells write, a later one over an earlier (R125). -/
def lineMask (line : Nat) (cells : List Host.Cell) : List (Option Byte) :=
  (addrs (128 * line) 128).map fun a => (cells.foldl (fun r c => if c.1 == a then some c.2 else r) none)

/-- The cells that parts of a store write, in ascending lane order. -/
def partCells (st : Store) (ps : List StPart) : List Host.Cell := ps.flatMap fun p => (addrs p.pa st.n).zip (natBytes st.n p.data.toNat)

/-- One part for each range: the lanes of a cache-control operation that name one range share its effect (05 R114). -/
def oncePerRange (ps : List StPart) : List StPart := ps.foldl (fun r p => if r.any fun q => q.va == p.va then r else r ++ [p]) []

/-- Performs parts of a store, which lie on one line or are one cache-control operation. Those on a line of this module's device registers are one write with a
byte mask (R125). -/
def performStore (s : State) (st : Store) (ps : List StPart) : State :=
  let effect : State := match ps with
    | [] => s
    | p :: _ =>
      if st.op.inL1 && isDevice p.pa && s.isLocal p.pa then
        s.devWrite (if st.level == .u then .user else .kernel) (locOf (128 * lineOf p.pa)) (lineMask (lineOf p.pa) (partCells st ps))
      else (if st.op.isCache then oncePerRange ps else ps).foldl (fun s p => storeLane s st p) s
  effect.storeClose st.id ps

/-- Released parts whose turn has come are performed as a `st.rel` is at issue: they stand in the L1 of their core, and publish there what comes
before them in their threads (13 R288). -/
def State.enterL1 (s : State) (st : Store) (ps : List StPart) : State :=
  let mine (o : Store) : Bool :=
    o.ti == st.ti && o.gi == st.gi && o.pub.isNone && decide (o.t ≤ st.t) && o.parts.any fun p => ps.any (·.lane == p.lane)
  let s := { s with stores := updIf s.stores mine fun o => { o with pub := some s.nextId } }
  ps.foldl (fun s p => { s.passRdc st.core (lineOf p.pa) false with stores := updIf s.stores (·.id == st.id) fun o => { o with
    sent := s.cycOf o.ti o.gi, parts := updIf o.parts (fun q => q.lane == p.lane && q.va == p.va) fun q =>
      { q with st := .wait, place := ((s.nextId * 64 + q.lane : Nat), 0) } } }) { s with nextId := s.nextId + 1 }

/-- The lines that performing parts of a store accesses: of a cache-control operation those of its ranges. -/
def ackLines (st : Store) (ps : List StPart) (pa : Nat) : List Nat :=
  if st.op.isCache then ps.flatMap fun p => linesOf p.pa (partLen st p) else [lineOf pa]

/-- STORE_ACK (06 R126): the parts of store `id` on the line of `pa`, or of a reduction at `pa`, are granted ownership and acknowledged.
Until every other holder has acknowledged its invalidation the home slice sends those (05 R98). -/
def execStoreAck (id pa : Nat) (s : State) : Out :=
  .next <|
    match s.stores.find? (·.id == id) with
    | none => s
    | some st =>
      let line := lineOf pa
      let ps := turnParts s st (ackParts st pa)
      let die := dieOfCore st.core
      if !s.placed st.ti || ps.isEmpty then s
      else if ps.any (·.st == .released) then s.enterL1 st (ps.filter (·.st == .released))
      else if !(ackLines st ps pa).all fun l => s.reachesAt st.id die (128 * l) && !s.checkHolds die l st.op.isRed true then s
      else if st.op.isCache then performStore s st ps
      else
        let (s', busy) := s.sendInvals line (some (s.ownCopy st.core line))
        if busy && ps.any (fun p => s.frameLive p.gen p.pa) then s' else performStore s st ps

/-! ### Requests that leave, 04 R76 -/

/-- Whether the access of a request waits for its line still. -/
def State.stillAsks (s : State) (a : Asked) : Bool :=
  (s.loads.any fun d => d.id == a.id && s.placed d.ti && d.parts.any fun p => p.st == .wait && lineOf p.pa == a.line) ||
  s.stores.any fun o => o.id == a.id && s.placed o.ti && o.parts.any fun p => p.moves && inRange p.pa (partLen o p) a.line

/-- The accesses that need a line of a peer and whose turn has come: number, die and address. -/
def State.asking (s : State) : List (Nat × Nat × Nat) :=
  ((s.loads.filter fun d => s.placed d.ti).flatMap fun d => (d.parts.filter fun p =>
    p.st == .wait && !s.isLocal p.pa && partReady s d p && (d.op.isAtomic || !s.heldNear d.core p.key p.pa) &&
      !s.checkHolds (dieOfCore d.core) (lineOf p.pa) true d.op.isAtomic).map fun p => (d.id, dieOfCore d.core, p.pa)) ++
  (s.stores.filter fun o => s.placed o.ti).flatMap fun o => (o.parts.filter fun p => p.moves && !s.isLocal p.pa && partTurn s o p).flatMap fun p =>
    ((linesOf p.pa (partLen o p)).filter fun l => !s.checkHolds (dieOfCore o.core) l o.op.isRed true).map fun l => (o.id, dieOfCore o.core, 128 * l)

/-- Requests that have been answered give their space back, and those whose turn has come leave (R76). -/
def State.settleAsks (s : State) : State :=
  let s := if s.asks.isEmpty then s else { s with asks := s.asks.filter s.stillAsks }
  s.asking.foldl (fun s x => s.ask x.1 x.2.1 x.2.2) s

/-! ### Invalidations, 05 R97, R98 -/

/-- A holder gives up its copy of a line. -/
def State.loseCopy (s : State) (line : Nat) : Holder → State
  | .l1 c => (s.loseL1 c line).dropLine (.l1i c) line
  | .rdc d => s.loseRdc d line
  | .dev _ => s

/-- An L2 whose eviction waited for acknowledgements evicts once the last has come; a peer that has read the line meanwhile is told too (R97). -/
def State.endEviction (s : State) (line : Nat) : State :=
  if !s.evicting line || s.invals.any (·.1 == line) then s
  else if (s.holders line).isEmpty then s.loseL2 line
  else (s.sendInvals line none).1

/-- INVALIDATION (05 R98): holder `h` drops the line, writing a dirty copy back, and acknowledges. Without an invalidation under way it is
one from another module's directory: every copy here is dropped and the whole acknowledged (R97). -/
def execInvalidation (line : Nat) (h : Holder) (s : State) : Out :=
  .next <|
    if s.invals.contains (line, h) then
      let s := s.loseCopy line h
      let s := { s with invals := s.invals.erase (line, h) }
      let s := if s.invals.any (·.1 == line) then s else { s with invalAt := Sparse.drop s.invalAt line }
      let e := (s.dirOf line).remove h
      (s.setDir { e with blocks := e.blocks.filter fun b => s.invals.any fun i => i.1 == line && match i.2 with
        | .dev d => d / 64 == b
        | _ => false }).endEviction line
    else if s.isLocal (128 * line) then s
    else { s with sent := s.sent ++ [.invalAck line h], cache := s.cache.filter (·.line != line) }

/-! ### Cache control, 05 R113 to R116 -/

/-- The pieces of a range, one for each page: address and length. -/
def pagePieces (va len : Nat) : List (Nat × Nat) :=
  if len = 0 then []
  else (List.range ((va + len - 1) / 65536 - va / 65536 + 1)).map fun i =>
    let a := if i = 0 then va else (va / 65536 + i) * 65536
    (a, min (va + len) ((va / 65536 + i + 1) * 65536) - a)

/-- The ranges of the active lanes, identical ones once: lane, address, length. -/
def laneRanges (ls : List (Nat × Nat × Nat)) : List (Nat × Nat × Nat) :=
  ls.foldl (fun r x => if r.any fun y => y.2 == x.2 then r else r ++ [x]) []

/-- Translates the pieces of a range: the first piece that fails in each region, and what stands at the others that are present. -/
def pieceCheck (s : State) (x : Acx) (acc : Acc) (pcs : List (Nat × Nat)) :
    List (Nat × Nat) × List (Nat × Nat × Nat × Nat × Nat) × State :=
  pcs.foldl (fun q pc => match q.2.2.translate x acc pc.1 with
    | (.bad cause, s) => (q.1 ++ [(pc.1, cause)], q.2.1, s)
    | (.ok pa key gen, s) => (q.1, q.2.1 ++ [(pc.1, pa, pc.2, key, gen)], s)
    | (_, s) => (q.1, q.2.1, s)) ([], [], s)

/-- Whether an address lies in the arena region. -/
def inArenas (va : Nat) : Bool := decide (2 ^ 56 ≤ va) && decide (va < 2 ^ 57) && bitsN va 55 48 != 0

/-- The fault of a lane's range (R114): misalignment, then a page of the arena region, then a mapped page without the permission. -/
def rangeFault (aligned : Bool) (va len : Nat) (bad : List (Nat × Nat)) : Option (Nat × DWord) :=
  if aligned && (va % 128 != 0 || len % 128 != 0) then some (0x04, BitVec.ofNat 64 va)
  else match bad.find? fun b => inArenas b.1 with
    | some b => some (b.2, BitVec.ofNat 64 b.1)
    | none => bad.head?.map fun b => (b.2, BitVec.ofNat 64 b.1)

/-- Checks the ranges lane by lane, in ascending order (R114). -/
def rangeCheck (s : State) (x : Acx) (acc : Acc) (aligned : Bool) (rs : List (Nat × Nat × Nat)) :
    Option (Nat × DWord) × List (Nat × List (Nat × Nat × Nat × Nat × Nat)) × State :=
  rs.foldl (fun acc' r =>
    match acc' with
    | (some f, l, s) => (some f, l, s)
    | (none, l, s) =>
      let (bad, pcs, s) := pieceCheck s x acc (pagePieces r.2.1 r.2.2)
      (rangeFault aligned r.2.1 r.2.2 bad, l ++ [(r.1, pcs)], s)) (none, [], s)

/-- Whether the walk of some piece of some ranges must wait. -/
def rangesLater (s : State) (x : Acx) (acc : Acc) (rs : List (Nat × Nat × Nat)) : Bool × State :=
  (rs.flatMap fun r => pagePieces r.2.1 r.2.2).foldl (fun q pc => match q.2.translate x acc pc.1 with
    | (.later, s) => (true, s)
    | (_, s) => (q.1, s)) (false, s)

/-- Issues a cache-control operation: each distinct range counts as one store until it completes (R114), with a part for every lane that names it. DESIGN CHOICE
(log 110): of 64 distinct ranges, which no counter of 63 holds, the lanes of the first 63 issue, and the last one after them. -/
def issueCache (mk : Nat → StOp) (sc : Scope) (acc : Acc) (aligned : Bool) (a : Src) (b : SrcB) (c : Cur) (act : List Nat) (s : State) : Res :=
  let ranges := act.map fun l =>
    let t := s.thread c.ti c.gi l
    (l, ea0 t a, (srcB32 t b).toNat)
  let rs := (laneRanges ranges).filter fun r => r.2.2 != 0
  match rangesLater s (s.acx c.ti c.gi) acc rs with
  | (true, s') => .later s'
  | (false, s) => match rangeCheck s (s.acx c.ti c.gi) acc aligned rs with
  | (some (cause, v), _, _) => .trap cause v
  | (none, ps, s') =>
    let wt := act.filter fun l => s.acqOpen c.ti c.gi l
    if !wt.isEmpty then .stall wt
    else if 63 < (s.group c.ti c.gi).stores + min rs.length 63 then .stall act
    else
      let sharing (l : Nat) : List Nat := (ranges.filter fun r => (ranges.find? (·.1 == l)).map (·.2) == some r.2).map (·.1)
      let out := (ps.take 63).foldl (fun s p =>
        match p.2 with
        | [] => s
        | pcs => addStore s c (mk 0) sc 0 fun _ => pcs.flatMap fun q => (sharing p.1).map fun l =>
            ⟨l, q.1, q.2.1, q.2.2.2.1, q.2.2.2.2, BitVec.ofNat 64 q.2.2.1, 0, 0, 0, false, ((s.nextId * 64 + p.1 : Nat), 0), false, .wait⟩) s'
      match (ps.drop 63).map (·.1) with
      | [] => .done out
      | late => .moved (stallLanes (advance out c (act.filter fun l => !late.contains l)) c late)

/-- `cwb` (05 R114, R115). -/
def execCwb (g : Guard) (sys : Bool) (a : Src) (b : SrcB) : State → Out :=
  ordinary .all g (addrRegs a ++ srcBRegs 32 b) (issueCache (.cwb sys) (if sys then .sys else .dev) .cread false a b)
/-- `cinv` (05 R114, R115). -/
def execCinv (g : Guard) (a : Src) (b : SrcB) : State → Out :=
  ordinary .all g (addrRegs a ++ srcBRegs 32 b) (issueCache .cinv .grp .cwrite true a b)
/-- `cdrop` (05 R114 to R116). -/
def execCdrop (g : Guard) (a : Src) (b : SrcB) : State → Out :=
  ordinary .all g (addrRegs a ++ srcBRegs 32 b) (issueCache .cdrop .grp .cwrite true a b)

end Sys2Proof.Machine
end

