-- ==== Sys2Proof/Machine/Items.lean ====
section
/-! DEFINITION. Items and flows: caddies, requests, flow tables, retirement, held stores.

Rules of spec/: 14 R300 to R311; 15 R339; 16 R431. -/

namespace Sys2Proof.Machine

/-! ### Teams of a grid, 14 R301 -/

/-- Team number `num` of a node. -/
def State.gridTeam (s : State) (node num : Nat) : Option Nat :=
  (List.range s.teams.length).find? fun ti => (s.team ti).node == node && (s.team ti).num == num
/-- The teams of a node. -/
def State.gridTeams (s : State) (node : Nat) : List Nat := (List.range s.teams.length).filter fun ti => (s.team ti).node == node
/-- Teams of a node's grid. -/
def Node.nteam (n : Node) : Nat := n.p.nteam.toNat
/-- `home(f)` (R301). -/
def homeOf (label n : Nat) : Nat := label * 0x9E3779B1 % 2 ^ 32 * n / 2 ^ 32
/-- The home team of a label in the grid of a team. -/
def State.homeTeam (s : State) (node label : Nat) : Option Nat :=
  match s.nodes[node]? with
  | some n => s.gridTeam node (homeOf label n.nteam)
  | none => none
/-- Whether a team can be reached now. -/
def State.reachable (s : State) (ti : Nat) : Bool := (s.team ti).place == .resident

/-! ### Flow tables, 14 R306 -/

/-- The entry of a flow. -/
def Team.flow (t : Team) (label cls : Nat) : Option FlowEntry := t.flows.find? fun e => e.label == label && e.cls == cls
/-- Changes the entry of a flow. -/
def Team.modFlow (t : Team) (label cls : Nat) (f : FlowEntry → FlowEntry) : Team :=
  { t with flows := updIf t.flows (fun e => e.label == label && e.cls == cls) f }

/-- Places that a flow table uses: its entries and the proxies. -/
def Team.flowUse (t : Team) : Nat := t.flows.length + sumNat (t.flows.map fun e => e.proxies.length)

/-- Room for `n` more places; where a flow without an entry needs them, the entry that became idle earliest goes first, as often as need be. -/
def Team.makeRoom (n : Nat) (evict : Bool) : Nat → Team → Option Team
  | 0, t => if t.flowUse + n ≤ Config.flowEntries then some t else none
  | fuel + 1, t =>
    if t.flowUse + n ≤ Config.flowEntries then some t
    else match if evict then minBy (fun e => e.idleAt.getD 0) (t.flows.filter fun e => e.idleAt.isSome) else none with
      | some e => Team.makeRoom n evict fuel { t with flows := t.flows.erase e }
      | none => none

/-- An item joins a flow at its home team: its arrival number, modulo 2^32 (R300, R302, R308). `proxy` if it executes on another team. -/
def Team.joinFlow (t : Team) (label cls : Nat) (proxy : Bool) : Option (Nat × Team) :=
  let new := (t.flow label cls).isNone
  match t.makeRoom ((if new then 1 else 0) + if proxy then 1 else 0) new 2 with
  | none => none
  | some t =>
    let e := (t.flow label cls).getD ⟨label, cls, 0, [], none, [], none⟩
    if 2 ^ 31 ≤ e.unret.length then none
    else
      let e' := { e with next := (e.next + 1) % 2 ^ 32, unret := e.unret ++ [e.next], idleAt := none,
                         proxies := if proxy then e.proxies ++ [e.next] else e.proxies }
      let t := if (t.flow label cls).isSome then t.modFlow label cls fun _ => e' else { t with flows := t.flows ++ [e'] }
      some (e.next, t)

/-- Whether an item of a flow may be in flight now: the exclusion of an atomic flow is granted in arrival-number order (R303, R305). -/
def Team.mayRun (t : Team) (label cls seq : Nat) : Bool :=
  cls != 2 || match t.flow label cls with
    | some e => e.inFlight.isNone && e.unret.head? == some seq
    | none => true

/-- Records an item of an atomic flow as in flight. -/
def Team.enterFlight (t : Team) (label cls seq : Nat) : Team :=
  if cls = 2 then t.modFlow label cls fun e => { e with inFlight := some seq } else t

/-! ### Held stores, 14 R307, R309 -/

/-- The arrival number of the oldest item of an entry, or that of the next where it has none. -/
def FlowEntry.oldest (e : FlowEntry) : Nat := e.unret.headD e.next

/-- The entry of an ordered flow at its home team. -/
def State.ordFlow (s : State) (node label : Nat) : Option FlowEntry := match s.homeTeam node label with
  | none => none
  | some h => (s.team h).flow label 1

/-- Whether an item is the oldest of its ordered flow, or older than all that are left. -/
def State.isOldest (s : State) (node label seq : Nat) : Bool := match s.ordFlow node label with
  | none => true
  | some e => e.unret.isEmpty || !seqBefore e.oldest seq

/-- The place of an arrival number in the order of its flow, counted around the oldest item. -/
def State.flowPlace (s : State) (node label seq : Nat) : Nat := match s.ordFlow node label with
  | none => seq
  | some e => (seq + 2 ^ 32 + 2 ^ 31 - e.oldest % 2 ^ 32) % 2 ^ 32

/-- A released store whose page has a pending entry goes behind it in the side log, at its place `q` in the order of release (16 R362); another keeps that place
until it is performed. -/
def releaseOn (s : State) (st : Store) (q : Nat) (p : StPart) : StPart :=
  match s.logOnPage st.core (s.asidOf st.ti) p.va with
  | some o => { p with st := match o.st with
      | .logged fid _ => .logged fid q
      | _ => .replay q 0 }
  | none => { p with st := .released, place := ((q : Nat), 0) }

/-- What a released store becomes: its address is translated now if it was not; `q` is its place in the order of release (R309, 16 R431). It stays
held while its walk must wait, or the side log where it goes has no place (16 R362). -/
def releasePart (s : State) (st : Store) (q : Nat) (p : StPart) : StPart × State :=
  let full := decide (Config.logEntries ≤ s.logUsed st.core)
  let log (cause kind : Nat) (s : State) : StPart × State :=
    if full then (p, s)
    else
      let (fid, s) := s.laneFault st.ti st.gi cause kind p.va [p.lane] .store
      ({ p with st := .logged fid q }, s)
  let go (p' : StPart) (s : State) : StPart × State :=
    let r := releaseOn s st q p'
    if full && r.inLog then (p, s) else (r, s)
  if !p.untranslated then go p s
  else
    let x := { s.acx st.ti st.gi with die := dieOfCore st.core, core := some st.core, level := st.level }
    match s.translate x .store p.va with
    | (.ok pa key gen, s) => go { p with pa := pa, key := key, gen := gen, untranslated := false } (s.markDirty x p.va)
    | (.later, s) => (p, s)
    | (.miss, s) => log 0x05 1 s
    | (.dup, s) => log 0x05 5 s
    | (.bad cause, s) => if cause = 0x08 then ({ p with st := .acked }, s) else log 0x06 1 s

/-- Changes the parts of one store one by one. -/
def State.mapParts (s : State) (st : Store) (f : State → StPart → StPart × State) : State :=
  let (ps, s) := st.parts.foldl (fun (r : List StPart × State) p =>
    let (p', s) := f r.2 p
    (r.1 ++ [p'], s)) ([], s)
  { s with stores := updIf s.stores (·.id == st.id) fun o => { o with parts := ps } }.storeClose st.id []

/-- The held stores of a grid whose items have become the oldest, in the order of release: item after item, each in program order (R307). -/
def State.toRelease (s : State) (node : Nat) : List (Store × StPart) :=
  sortBy (fun x => (s.flowPlace node x.2.label x.2.seq * 2 ^ 64 + x.1.t) * 64 + x.2.lane)
    ((s.stores.filter fun st => st.op == .ord && (s.team st.ti).node == node && s.reachable st.ti).flatMap fun st =>
      (st.parts.filter fun p => p.st == .held && s.isOldest node p.label p.seq).map fun p => (st, p))

/-- Releases one held store. -/
def State.releaseOne (s : State) (x : Store × StPart) : State :=
  match s.stores.find? (·.id == x.1.id) with
  | none => s
  | some st =>
    let (n, s) := s.fresh
    s.mapParts st fun s p => if p.lane == x.2.lane && p.st == .held then releasePart s st (n * 64 + p.lane) p else (p, s)

/-- Whether a part of a store stays in the steep buffer. -/
def State.stillHeld (s : State) (x : Store × StPart) : Bool :=
  s.stores.any fun o => o.id == x.1.id && o.parts.any fun p => p.lane == x.2.lane && p.st == .held

/-- HELD_STORE_RELEASE (95; R307): releases the held stores of a grid whose items have become the oldest. One that must wait holds back those after
it in its flow. -/
def State.releaseHeld (s : State) (node : Nat) : State :=
  ((s.toRelease node).foldl (fun (r : List Nat × State) x =>
    if r.1.contains x.2.label then r
    else
      let s := r.2.releaseOne x
      (if s.stillHeld x then x.2.label :: r.1 else r.1, s)) ([], s)).2

/-- Held stores that had to wait when their items became the oldest. -/
def State.settleHeld (s : State) : State :=
  (dedupNat ((s.stores.filter fun o => o.op == .ord && o.parts.any (·.st == .held)).map fun o => (s.team o.ti).node)).foldl State.releaseHeld s

/-! ### Serving requests, 14 R303, R323, R324 -/

/-- Delivers an item, or the empty answer, to the lanes of a request. -/
def Team.answer (t : Team) (r : Req) (it : Option HeldItem) : Team :=
  { t with groups := updAt t.groups r.gi fun g => g.modLanes r.lanes fun _ x =>
      match it with
      | some i => { (((x.setD r.d i.payload).setV r.c 1).resume) with item := some i }
      | none => ((x.setD r.d 0).setV r.c 0).resume }

/-- Serves the requests of a team in queue order, each with the first item not held back. -/
def Team.serve : Nat → Nat → Team → Nat × Team
  | 0, tg, t => (tg, t)
  | fuel + 1, tg, t =>
    match t.reqs, t.caddy.find? fun i => t.mayRun i.label i.cls i.seq with
    | r :: rest, some i =>
      let held : HeldItem := ⟨i.payload, i.label, i.cls, i.seq, if r.grouped then some tg else none⟩
      let t := { t with reqs := rest, caddy := t.caddy.erase i }
      Team.serve fuel (tg + 1) ((t.enterFlight i.label i.cls i.seq).answer r (some held))
    | _, _ => (tg, t)

/-- Serves a team that is placed. -/
def State.serve (s : State) (ti : Nat) : State :=
  if s.reachable ti then
    let (tg, t) := (s.team ti).serve (s.team ti).reqs.length s.nextId
    { s.modTeam ti (fun _ => t) with nextId := tg }
  else s

/-- Whether a thread holds an item. -/
def Team.holdsItem (t : Team) : Bool := t.groups.any fun g => g.lanes.any fun x => !x.exited && x.item.isSome

/-- GRID_EXHAUSTED (95; R304). -/
def State.exhausted (s : State) (node : Nat) : Bool :=
  match s.nodes[node]? with
  | none => true
  | some n => n.srcDone && n.blocked.isNone && (s.gridTeams node).all fun ti =>
      let t := s.team ti
      t.caddy.isEmpty && !t.holdsItem

/-- When the grid is exhausted every waiting request falls through empty. -/
def State.checkExhausted (s : State) (node : Nat) : State :=
  if s.exhausted node then
    (s.gridTeams node).foldl (fun s ti =>
      if s.reachable ti then
        let t := s.team ti
        s.modTeam ti fun _ => { (t.reqs.foldl (fun t r => t.answer r none) t) with reqs := [] }
      else s) s
  else s

/-! ### Retirement, 14 R304 to R308 -/

/-- Takes an item out of its flow at the home team; `n` numbers the retirement, which dates an entry that becomes idle. -/
def Team.leaveFlow (t : Team) (label cls seq n : Nat) : Team :=
  t.modFlow label cls fun e =>
    let un := e.unret.filter (· != seq)
    { e with unret := un, proxies := e.proxies.filter (· != seq),
             inFlight := if e.inFlight == some seq then none else e.inFlight,
             idleAt := if un.isEmpty then some n else e.idleAt }

/-- Grants the exclusion of atomic flows to lanes that relabelled into them (R308). -/
def State.grantExclusions (s : State) (node : Nat) : State :=
  (s.gridTeams node).foldl (fun s ti =>
    let t := s.team ti
    if t.place != .resident then s
    else
      ((List.range t.groups.length).flatMap fun gi => (t.group gi).live.map fun l => (gi, l)).foldl (fun s gl =>
        let x := s.thread ti gl.1 gl.2
        match x.hold, x.item with
        | .exclusion label cls, some i =>
          match s.homeTeam node label with
          | some h =>
            if s.reachable h && (s.team h).mayRun label cls i.seq then
              (s.modTeam h fun t => t.enterFlight label cls i.seq).modThread ti gl.1 gl.2 Thread.resume
            else s
          | none => s
        | _, _ => s) s) s

/-- The second step of a relabel for one lane, if its home can take it (R308). -/
def State.tryJoin (s : State) (node ti gi l label cls : Nat) : State :=
  let x := s.thread ti gi l
  match x.item with
  | none => s
  | some i =>
    let put (seq : Nat) (h : Hold) (t : Thread) : Thread :=
      let t := { t with item := some { i with label := label, cls := cls, seq := seq, tg := none } }
      if h == .none then t.resume else { t with hold := h }
    if cls = 0 then s.modThread ti gi l (put 0 .none)
    else
      match s.homeTeam node label with
      | none => s
      | some h =>
        if !s.reachable h then s.touchSaved h
        else
          match (s.team h).joinFlow label cls (h != ti) with
          | none => s
          | some (seq, t) =>
            let s := s.modTeam h fun _ => t
            if t.mayRun label cls seq then
              (s.modTeam h fun t => t.enterFlight label cls seq).modThread ti gi l (put seq .none)
            else s.modThread ti gi l (put seq (.exclusion label cls))

/-- Tries the joins that wait in a grid. DESIGN CHOICE (log 115): those that can enter at once enter by team, group and lane. -/
def State.tryJoins (s : State) (node : Nat) : State :=
  (s.gridTeams node).foldl (fun s ti =>
    let t := s.team ti
    if t.place != .resident then s
    else
      ((List.range t.groups.length).flatMap fun gi => (t.group gi).live.map fun l => (gi, l)).foldl (fun s gl =>
        match (s.thread ti gl.1 gl.2).hold with
        | .joining label cls => s.tryJoin node ti gl.1 gl.2 label cls
        | _ => s) s) s

/-- A retirement arrives at its home team, or waits while that team is saved (R310). -/
def State.arriveRetired (s : State) (r : Retired) : State :=
  match (s.team r.home).place with
  | .saved _ => { s with retired := s.retired ++ [r] }.touchSaved r.home
  | _ =>
    let (n, s) := s.fresh
    s.modTeam r.home fun t => t.leaveFlow r.label r.cls r.seq n

/-- What follows a retirement in a grid: exclusions, joins, releases, requests, exhaustion. -/
def State.settleGrid (s : State) (node : Nat) : State :=
  let s := ((s.grantExclusions node).tryJoins node).releaseHeld node
  ((s.gridTeams node).foldl (fun s ti => s.serve ti) s).checkExhausted node

/-- Takes the item off a lane; it is retired in its flow unless other lanes still hold the same `take.g` delivery (R304). -/
def State.retire (s : State) (ti gi l : Nat) : State :=
  let t := s.team ti
  match (s.thread ti gi l).item with
  | none => s
  | some i =>
    let s := s.modThread ti gi l fun x => { x with item := none }
    let shared := match i.tg with
      | none => false
      | some g => (s.group ti gi).lanes.any fun x => match x.item with
        | some j => j.tg == some g
        | none => false
    if shared || i.cls = 0 then s
    else match s.homeTeam t.node i.label with
      | none => s
      | some h => s.arriveRetired ⟨t.node, h, i.label, i.cls, i.seq⟩

/-! ### Entering a caddy, 14 R302 -/

/-- Items in the caddies of the teams on a core. DESIGN CHOICE (log 98): the caddy of a team on a core pair uses places of its first core. -/
def State.caddyUse (s : State) (core : Nat) : Nat :=
  sumNat ((s.teams.filter fun t => t.place == .resident && t.cores.head? == some core).map fun t => t.caddy.length)

/-- Puts an item into the caddy of a team, if the team is placed, a place is free and its flow has an entry. -/
def State.enqueue (s : State) (ti : Nat) (payload : DWord) (label cls : Nat) : Option State :=
  let t := s.team ti
  if t.place != .resident then none
  else if Config.caddyPlaces ≤ s.caddyUse (t.cores.getD 0 0) then none
  else if cls = 0 then some ((s.modTeam ti fun t => { t with caddy := t.caddy ++ [⟨payload, label, 0, 0⟩] }).serve ti)
  else match t.joinFlow label cls false with
    | none => none
    | some (seq, t) => some ((s.modTeam ti fun _ => { t with caddy := t.caddy ++ [⟨payload, label, cls, seq⟩] }).serve ti)

/-- The team for which an item is bound: ordered and atomic items go to the home team, the others to `dest`. -/
def State.boundFor (s : State) (node dest label cls : Nat) : Option Nat := if cls = 0 then s.gridTeam node dest else s.homeTeam node label

/-- An item produced in a grid enters the caddy of the team for which it is bound. -/
def State.route (s : State) (node dest : Nat) (payload : DWord) (label cls : Nat) : Option State :=
  match s.boundFor node dest label cls with
  | none => none
  | some ti => s.enqueue ti payload label cls

/-- An item that waits at its source for a saved team makes it eligible for restore (15 R340). -/
def State.callBack (s : State) (node dest label cls : Nat) : State :=
  match s.boundFor node dest label cls with
  | none => s
  | some ti => s.touchSaved ti

/-! ### The tile dispenser, 15 R339 -/

/-- The translation context of a queue's front-end for a node: the address space of the LAUNCH, at the level of its teams (log 18). -/
def Node.acx (n : Node) (die : Nat) : Acx := ⟨die, none, n.asid, n.ptroot.toNat, if n.fn = 0 && n.asid = 0 then .k else .u⟩

/-- What an access of a front-end gives: its bytes, a fault, or nothing yet, while no port carries it (04 R72, R77) or an unresolved machine check
holds its line (17 R384). -/
inductive Via where
  | got (bs : List Byte)
  | fault
  | later
deriving DecidableEq, Repr

/-- Reads bytes of an address space at its home slices, at level and die of `x`. Each access lies in one line. -/
def State.readVia (s : State) (x : Acx) (va n : Nat) : Via × State :=
  match s.translate x .load va with
  | (.ok pa key gen, s) =>
    if !s.open' x.die pa true false then (.later, s.awaitPeer x.die pa)
    else if !s.frameLive gen pa then (.fault, s)
    else if isDevice pa then (.got (s.devBytes pa n), s)
    else
      let s := s.settle (lineOf pa) key
      (.got (s.cohBytes key pa n), s)
  | (.later, s) => (.later, s)
  | (_, s) => (.fault, s)

/-- The pieces of a range in its lines. -/
def linePieces (va n : Nat) : List (Nat × Nat) :=
  if n = 0 then []
  else (addrs (va / 128) ((va + n - 1) / 128 - va / 128 + 1)).map fun l => (max va (128 * l), min (va + n) (128 * l + 128) - max va (128 * l))

/-- Reads pieces one after the other. -/
def State.readLines (s : State) (x : Acx) : List (Nat × Nat) → Via × State
  | [] => (.got [], s)
  | (va, n) :: rest =>
    match s.readVia x va n with
    | (.got bs, s) =>
      match s.readLines x rest with
      | (.got cs, s) => (.got (bs ++ cs), s)
      | r => r
    | r => r

/-- Reads a range, which may cross lines and pages. -/
def State.readRange (s : State) (x : Acx) (va n : Nat) : Via × State := s.readLines x (linePieces va n)

/-- What the dispenser finds next. -/
inductive Produced where
  | item (payload : DWord) (label cls dest : Nat)
  | rejected
  | stop (err : Nat)
  | later
deriving DecidableEq, Repr

/-- The team that an address hash chooses (R339). -/
def State.hashTeam (s : State) (node : Nat) (n : Node) (x y z : Nat) : Nat :=
  let loc := (n.p.isrc.toNat + x * n.p.sx.toNat + y * n.p.sy.toNat + z * n.p.sz.toNat) % 2 ^ 50
  let die := bitsN loc 37 36
  let sl := homeSlice loc
  let here := (s.gridTeams node).filter fun ti => s.reachable ti && dieOfCore ((s.team ti).cores.getD 0 0) == die
  let dist (ti : Nat) : Nat :=
    let c := cluInDie ((s.team ti).cores.getD 0 0)
    (if c ≤ sl / 2 then sl / 2 - c else c - sl / 2) * 1024 + (s.team ti).num
  match minBy dist here with
  | some ti => (s.team ti).num
  | none => (x + y + z) % n.nteam

/-- Items that the dispenser of a node produces in all. -/
def Node.total (n : Node) : Nat := if n.p.list then n.p.nx.toNat else n.p.nx.toNat * n.p.ny.toNat * n.p.nz.toNat

/-- The next item of a node. -/
def State.produce (s : State) (node : Nat) (n : Node) : Produced × State :=
  let i := n.produced
  if n.p.list then
    let (rec, s) := s.readRange (n.acx (s.queue n.q).die) (n.p.isrc.toNat + 16 * i) 16
    match rec with
    | .fault => (.stop 0x04, s)
    | .later => (.later, s)
    | .got bs =>
      let w := bytesNat (bs.drop 8)
      if w / 2 ^ 26 != 0 then (.stop 0x02, s)
      else
        let cls := bitsN w 25 24
        if cls = 3 then (.rejected, s)
        else (.item (BitVec.ofNat 64 (bytesNat (bs.take 8))) (bitsN w 23 0) cls (n.robin % n.nteam), s)
  else
    let x := i % n.p.nx.toNat
    let y := i / n.p.nx.toNat % n.p.ny.toNat
    let z := i / n.p.nx.toNat / n.p.ny.toNat
    let coord := match n.p.lsrc with
      | 0 => 0
      | 1 => x
      | 2 => y
      | _ => z
    let dest := if n.p.hash then s.hashTeam node n x y z else n.robin % n.nteam
    (.item (BitVec.ofNat 64 (z % 2 ^ 16 * 2 ^ 48 + y % 2 ^ 24 * 2 ^ 24 + x % 2 ^ 24)) ((n.p.lbl.toNat + coord) % 2 ^ 24) n.p.cls.toNat dest, s)

/-- Changes a node. -/
def State.modNode (s : State) (node : Nat) (f : Node → Node) : State := { s with nodes := updAt s.nodes node f }

/-- The dispenser has gone past an item. -/
def Node.produced1 (n : Node) (unord : Bool) : Node :=
  let n := { n with produced := n.produced + 1, robin := if unord then n.robin + 1 else n.robin, blocked := none }
  { n with srcDone := n.srcDone || decide (n.total ≤ n.produced) }

/-- Sends the item that the dispenser holds, or keeps it at its source. `blocked` carries the chosen team in `seq`. -/
def State.dispatchItem (s : State) (node : Nat) (it : Item) : State :=
  match s.route node it.seq it.payload it.label it.cls with
  | some s => s.modNode node fun n => n.produced1 (it.cls == 0)
  | none => (s.callBack node it.seq it.label it.cls).modNode node fun n => { n with blocked := some it }

/-- ITEM_DISPATCH (15 R339; 14 R302). -/
def execItemDispatch (node : Nat) (s : State) : Out :=
  .next <|
    match s.nodes[node]? with
    | none => s
    | some n =>
      if n.st != .running then s
      else match n.blocked with
        | some it => (s.dispatchItem node it).settleGrid node
        | none =>
          if n.srcDone then s
          else
            let (pr, s) := s.produce node n
            match pr with
            | .item payload label cls dest => (s.dispatchItem node ⟨payload, label, cls, dest⟩).settleGrid node
            | .rejected => (s.modNode node fun n => n.produced1 false).settleGrid node
            | .later => s
            | .stop err => ((s.stopQueue n.q err).modNode node fun n => { n with srcDone := true }).settleGrid node

/-! ### Instructions on items, 14 R323 to R328 -/

/-- Whether a lane's item is of an atomic flow: its retirement is a release at `.dev` (R305). -/
def atomicItem (t : Thread) : Bool := match t.item with
  | some i => i.cls == 2
  | none => false

/-- Lanes whose retirement must wait until their earlier accesses are acknowledged at `.dev`. -/
def retireWaits (s : State) (c : Cur) (act : List Nat) : List Nat :=
  act.filter fun l => atomicItem (s.thread c.ti c.gi l) && !s.releaseOk c.ti c.gi l .dev s.nextId

/-- Retires the items of lanes in ascending order. -/
def retireAll (s : State) (c : Cur) (act : List Nat) : State := act.foldl (fun s l => s.retire c.ti c.gi l) s

/-- `take` (14 R323). -/
def execTake (g : Guard) (d : RegIx) (cr : RegIx) : State → Out :=
  ordinary .all g [d.toNat, d.toNat + 1, cr.toNat] fun c act s =>
    let w := retireWaits s c act
    if !w.isEmpty then .stall w
    else
      let s := retireAll s c act
      let s := s.modLanes c.ti c.gi act fun _ t => t.wait c .take
      let s := s.modTeam c.ti fun t => { t with reqs := t.reqs ++ act.map fun l => ⟨c.gi, [l], d.toNat, cr.toNat, false⟩ }
      .moved (s.settleGrid (s.team c.ti).node)

/-- `take.g` (14 R324): one request for every lane of P. -/
def execTakeG (g : Guard) (d : RegIx) (cr : RegIx) : State → Out :=
  gathered g [d.toNat, d.toNat + 1, cr.toNat] fun c act s =>
    if act.isEmpty then .done s
    else
      let w := retireWaits s c act
      if !w.isEmpty then .stall c.lanes
      else
        let s := retireAll s c act
        let s := s.modLanes c.ti c.gi act fun _ t => t.wait c .take
        let s := s.modTeam c.ti fun t => { t with reqs := t.reqs ++ [⟨c.gi, act, d.toNat, cr.toNat, true⟩] }
        .moved (s.settleGrid (s.team c.ti).node)

/-- Whether a `relabel` of a lane is refused (R325). -/
def relabelBad (t : Thread) (label cls : Nat) : Bool :=
  cls == 3 || decide (0xFFFFFF < label) || match t.item with
    | none => true
    | some i => i.tg.isSome || (i.label == label && i.cls == cls)

/-- `relabel` (14 R308, R325). -/
def execRelabel (g : Guard) (b : SrcB) (cls : BitVec 2) : State → Out :=
  ordinary .all g (srcBRegs 32 b) fun c act s =>
    let lab (l : Nat) : Nat := (srcB32 (s.thread c.ti c.gi l) b).toNat
    match act.find? fun l => relabelBad (s.thread c.ti c.gi l) (lab l) cls.toNat with
    | some l => .trap 0x10 (BitVec.ofNat 64 (lab l))
    | none =>
      let w := retireWaits s c act
      if !w.isEmpty then .stall w
      else
        let node := (s.team c.ti).node
        .moved ((act.foldl (fun s' l =>
          let it := (s'.thread c.ti c.gi l).item
          let s' := s'.retire c.ti c.gi l
          let s' := s'.modThread c.ti c.gi l fun t => { t.wait c (.joining (lab l) cls.toNat) with item := it }
          s'.tryJoin node c.ti c.gi l (lab l) cls.toNat) s).settleGrid node)

/-- `done` (14 R325). -/
def execDone (g : Guard) : State → Out :=
  ordinary .all g [] fun c act s =>
    let w := retireWaits s c act
    if !w.isEmpty then .stall w
    else .done ((retireAll s c act).settleGrid (s.team c.ti).node)

/-- The status of `itemi` before it enqueues, if it is refused (14 R327). DESIGN CHOICE (log 114): of a lane that fails several tests the class counts first,
then the label. -/
def itemiStatus (t : Thread) (label cls : Nat) : Option Word :=
  if cls = 3 then some 1 else if 0xFFFFFF < label then some 2 else if t.item.isNone then some 3 else none

/-- Whether a lower lane of the issue of `itemi` that lane `l` belongs to waits at its word still. -/
def Group.enqAhead (g : Group) (l : Nat) (pc : DWord) : Bool :=
  let n := (g.lane l).enq
  n != 0 && g.live.any fun k => decide (k < l) && (g.lane k).enq == n && (g.lane k).pc == pc

/-- `itemi` (14 R327): lane by lane; a lane that must wait holds back the items of the higher lanes of its issue, which enter after it (R302). -/
def execItemi (g : Guard) (d : RegIx) (a : Src) (b : SrcB) (cls : BitVec 2) : State → Out :=
  ordinary .all g (d.toNat :: srcRegs 64 a ++ srcBRegs 32 b) fun c act s =>
    let node := (s.team c.ti).node
    let (run, s) := s.fresh
    .moved ((act.foldl (fun (r : Bool × State) l =>
      let t := s.thread c.ti c.gi l
      let label := (srcB32 t b).toNat
      let fin (s' : State) (x : Word) : State := s'.modThread c.ti c.gi l fun t => { ((t.setV d.toNat x).wait c .none).resume with enq := 0 }
      let stay (s' : State) : Bool × State :=
        (true, s'.modThread c.ti c.gi l fun t => { t with hold := .stall, enq := if t.enq = 0 then run + 1 else t.enq })
      match itemiStatus t label cls.toNat with
      | some x => (r.1, fin r.2 x)
      | none =>
        if r.1 || (s.group c.ti c.gi).enqAhead l c.pc || !s.releaseOk c.ti c.gi l .dev s.nextId then stay r.2
        else match r.2.route node (s.team c.ti).num (operand t 64 a) label cls.toNat with
          | some s'' => (false, fin s'' 0)
          | none => stay (r.2.callBack node (s.team c.ti).num label cls.toNat)) (false, s)).2.settleGrid node)

/-- The snapshot of a flow (14 R328). -/
def flowWord : Option FlowEntry → Word
  | none => 0
  | some e => BitVec.ofNat 32 (min e.unret.length 0xFFFF + (if e.inFlight.isSome then 2 ^ 30 else 0) + 2 ^ 31)

/-- `flowi` (14 R328): a query to a home that is saved or not yet placed waits. -/
def execFlowi (g : Guard) (d : RegIx) (b : SrcB) (cls : BitVec 2) : State → Out :=
  ordinary .all g (d.toNat :: srcBRegs 32 b) fun c act s =>
    let node := (s.team c.ti).node
    let label (l : Nat) : Nat := (srcB32 (s.thread c.ti c.gi l) b).toNat
    let entry (l : Nat) : Option Word :=
      if decide (0xFFFFFF < label l) || cls == 0 then some 0
      else match s.homeTeam node (label l) with
        | some h => if s.reachable h || (s.team h).place == .gone then some (flowWord ((s.team h).flow (label l) cls.toNat)) else none
        | none => some 0
    let w := act.filter fun l => (entry l).isNone
    if !w.isEmpty then .stall w
    else .done (s.modLanes c.ti c.gi act fun l t => t.setV d.toNat ((entry l).getD 0))

/-- What `st.ord` is for a lane (R307): a `st.rel`, a store of the oldest item of its flow, or one to be held. -/
inductive OrdWay where
  | asRel | now | held
deriving DecidableEq, Repr

/-- The way of a lane's item. -/
def State.ordWay (s : State) (node : Nat) (i : HeldItem) : OrdWay :=
  if i.cls != 1 then .asRel else if s.isOldest node i.label i.seq then .now else .held

/-- Whether a thread has a parked read or an entry in the side log: an `st.ord` of an oldest item waits for it at its word, unless its own page
sends it to the log behind them (R309, 13 R293; 20 R411, steps 7 and 15). -/
def State.ordBehind (s : State) (ti gi l : Nat) : Bool :=
  (s.loads.any fun d => d.ti == ti && d.gi == gi && d.parts.any fun p => p.lane == l && p.parked) ||
    s.stores.any fun o => o.ti == ti && o.gi == gi && o.parts.any fun p => p.lane == l && p.inLog

/-- The lanes of `ls` without those that satisfy `p` and are not among the first `n` of them. -/
def takeFirst (ls : List Nat) (p : Nat → Bool) (n : Nat) : List Nat :=
  let some' := (ls.filter p).take n
  ls.filter fun l => !p l || some'.contains l

/-- The lanes whose `st.ord` issues now, of those whose store is no `st.rel`: each waits by itself (R326), for the steep buffer, for the side log,
for its thread. -/
def ordIssues (s : State) (c : Cur) (n logs : Nat) (item : Nat → HeldItem) (ps : List (Nat × Nat × Tr)) : List Nat :=
  let core := s.coreOf c.ti c.gi
  let node := (s.team c.ti).node
  let held (l : Nat) : Bool := s.ordWay node (item l) == .held
  let toLog (p : Nat × Nat × Tr) : Bool := decide (0 < logNeed s c [p])
  let free := ps.filter fun p =>
    let flow := if held p.1 then some ((item p.1).label, 1) else none
    !s.acqOpen c.ti c.gi p.1 && !s.heldOver c.ti c.gi p.1 p.2.1 p.2.2.at? n flow && (held p.1 || toLog p || !s.ordBehind c.ti c.gi p.1)
  let logged (l : Nat) : Bool := !held l && free.any fun p => p.1 == l && toLog p
  takeFirst (takeFirst (free.map (·.1)) held (Config.steepEntries - s.steepUsed core)) logged (Config.logEntries - (s.logUsed core + logs))

/-- `st.ord` (14 R307, R309, R326). A lane whose ordered item is not the oldest holds its store in the steep buffer; the store of an oldest item is
released at issue, and performed when what comes before it is acknowledged; the others store as `st.rel` does. -/
def execStOrd (g : Guard) (sc : Scope) (w : MemW) (a : Src) (o : Off) (v : Src) : State → Out :=
  ordinary .all g (addrRegs a ++ srcRegs w.w v) fun c act s =>
    let th (l : Nat) : Thread := s.thread c.ti c.gi l
    match act.find? fun l => (th l).item.isNone with
    | some l => .trap 0x10 (BitVec.ofNat 64 (ea (th l) a o))
    | none =>
      if act.isEmpty then .done s
      else
        let n := w.bytes
        let node := (s.team c.ti).node
        match memChecks s (s.acx c.ti c.gi) .store n (laneAddrs s c act fun t => ea t a o) with
        | .trap cause tv => .trap cause tv
        | .later s' => .later s'
        | .pass ps s' =>
          let item (l : Nat) : HeldItem := (th l).item.getD ⟨0, 0, 0, 0, none⟩
          let way (l : Nat) : OrdWay := s.ordWay node (item l)
          let rels := ps.filter fun p => way p.1 == .asRel
          let relLog := logNeed s c rels
          let relWaits := storeWaits s c n relLog rels
          if !rels.isEmpty && !(relWaits.isEmpty && rels.all fun p => s.releaseOk c.ti c.gi p.1 sc s.nextId) then .stallAll
          else
            let go := rels.map (·.1) ++ if 63 ≤ (s.group c.ti c.gi).stores then [] else
              ordIssues s c n relLog item (ps.filter fun p => way p.1 != .asRel)
            if go.isEmpty then .stall act
            else
              let mark (p : StPart) : StPart :=
                let i := item p.lane
                { p with label := i.label, cls := i.cls, seq := i.seq, st := if p.st == .wait && way p.lane == .now then .released else p.st }
              let heldPart (p : Nat × Nat × Tr) : StPart :=
                let base : StPart := mark ⟨p.1, p.2.1, 0, 0, 0, operand (th p.1) w.w v, 0, 0, 0, false, (0, 0), true, .held⟩
                match p.2.2 with
                | .ok pa key gen => { base with pa := pa, key := key, gen := gen }
                | _ => { base with untranslated := true }
              let gone := ps.filter fun p => go.contains p.1
              let late := (gone.filter fun p => way p.1 == .held).map heldPart
              let s1 := enterStore .ord sc n (fun t => operand t w.w v) (gone.filter fun p => way p.1 != .held) c s
                (s'.publish c.ti c.gi (rels.map (·.1)))
              let s2 := { s1 with stores := updLast s1.stores fun st =>
                { st with pub := if rels.isEmpty then st.pub else some st.id, parts := sortBy (·.lane) (st.parts.map mark ++ late) } }
              if act.all go.contains then .done s2
              else .moved (stallLanes (advance s2 c go) c (act.filter fun l => !go.contains l))

end Sys2Proof.Machine
end

