-- ==== Sys2Proof/Machine/Registers.lean ====
section
/-! DEFINITION. Register blocks and special values: `rget`, `rput`, `srd`.

Rules of spec/: 08 R168, R171, R173, R175, R178 to R183; 15 R345. -/

namespace Sys2Proof.Machine

/-- Units of one block of a group (08 R168). -/
def Group.blockUnits (g : Group) : Nat := g.lanes.length / 16

/-- The blocks a group still needs: the largest claim, and the blocks with a pending register (R171, R175). DESIGN CHOICE (log 71): a released
block whose return a pending write delays still counts as held, so a later `rget` raises a claim over it with no new grant. -/
def Group.need (g : Group) : Nat :=
  maxNat (g.lanes.map fun t => max t.claim (maxNat (t.pend.map fun p => p.reg / 16 + 1)))

/-- Gives back the blocks above the need; what a latch holds of them is dropped (R177). -/
def Group.shrink (g : Group) : Group :=
  if g.blocks ≤ g.need then g
  else { g with blocks := g.need, lanes := g.lanes.map fun t => { t with latch := t.latch.filter fun e => decide (e.1 < 16 * g.need) } }

/-- Whether a team has blocks of register files: one that is resident, or one that has left its core while registers of it are pending (R175). -/
def Team.holdsRegs (t : Team) : Bool := t.place == .resident || t.place == .gone

/-- The groups that hold blocks of a core: team, group number, group. -/
def State.groupsOn (s : State) (core : Nat) : List (Nat × Nat × Group) :=
  ((List.range s.teams.length).filter fun ti => (s.team ti).holdsRegs && (s.team ti).cores.contains core).flatMap fun ti =>
    let t := s.team ti
    ((List.range t.groups.length).filter fun gi => t.coreOf (t.group gi) == core).map fun gi => (ti, gi, t.group gi)

/-- Register-file units in use on a core. -/
def State.unitsUsed (s : State) (core : Nat) : Nat := sumNat ((s.groupsOn core).map fun x => x.2.2.blocks * x.2.2.blockUnits)
/-- Free units of a core. -/
def State.unitsFree (s : State) (core : Nat) : Nat := Config.regUnits - s.unitsUsed core

/-- A group gets `n` more blocks, which read zero; the lanes that waited for them raise their claims (R179). -/
def Group.grant (g : Group) (n : Nat) : Group :=
  let h := g.blocks
  let fresh (r : Nat) : Bool := decide (16 * h ≤ r) && decide (r < 16 * (h + n))
  { g with blocks := h + n,
           lanes := g.lanes.map fun t =>
             let t := { t with regs := t.regs.filter (fun e => !fresh e.1), latch := t.latch.filter fun e => !fresh e.1 }
             match t.hold with
             | .rget want own => if want ≤ h + n then { t with claim := max t.claim own }.resume else t
             | _ => t }

/-- The oldest waiting request of a core; ties go to the lower team slot, then to the lower group number (R173). -/
def State.oldestRget (s : State) (core : Nat) : Option RgetReq :=
  minBy (fun r => (r.age * 65536 + (s.team r.ti).slot) * 16 + r.gi) (s.rgetQ.filter (·.core == core))

/-- Grants waiting requests of a core, oldest first, until one does not fit (R173). -/
def State.examineRegs : Nat → Nat → State → State
  | 0, _, s => s
  | fuel + 1, core, s =>
    match s.oldestRget core with
    | none => s
    | some r =>
      if r.n * (s.group r.ti r.gi).blockUnits ≤ s.unitsFree core then
        State.examineRegs fuel core ({ s with rgetQ := s.rgetQ.erase r }.modGroup r.ti r.gi fun g => g.grant r.n)
      else s

/-- Examines the waiting requests of a core. -/
def State.tryRegs (s : State) (core : Nat) : State := s.examineRegs s.rgetQ.length core

/-- After claims have fallen: blocks go back, and waiting requests are examined. -/
def State.releaseRegs (s : State) (ti gi : Nat) : State :=
  (s.modGroup ti gi Group.shrink).tryRegs (s.coreOf ti gi)

/-- Whether a team has a chain that has not written its token (07 R162). -/
def State.hasChain (s : State) (ti : Nat) : Bool := s.chains.any fun k => k.ti == ti

/-- Whether a group whose threads have all exited keeps its blocks: while a chain of its team runs (07 R162; log 99). -/
def State.keepsRegs (s : State) (ti gi : Nat) : Bool := (s.group ti gi).live.isEmpty && s.hasChain ti

/-- What follows every step: blocks that no pending write and no chain keeps any more go back, and waiting requests are examined (R173, R175). -/
def State.settleRegs (s : State) : State :=
  let s := (List.range s.teams.length).foldl (fun s ti =>
    if !(s.team ti).holdsRegs then s
    else (List.range (s.team ti).groups.length).foldl (fun s gi =>
      if s.keepsRegs ti gi then s else s.modGroup ti gi Group.shrink) s) s
  (dedupNat (s.rgetQ.map (·.core))).foldl State.tryRegs s

/-- Blocks that waiting requests of a group ask for. -/
def State.asked (s : State) (ti gi : Nat) : Nat := sumNat ((s.rgetQ.filter fun r => r.ti == ti && r.gi == gi).map (·.n))

/-- `rget` (08 R179). -/
def execRget (g : Guard) (b : SrcB) : State → Out :=
  ordinary .all g (srcBRegs 32 b) fun c act s =>
    let want (l : Nat) : Nat := (srcB32 (s.thread c.ti c.gi l) b).toNat
    match act.find? fun l => decide (want l < 1) || decide (16 < want l) with
    | some l => .trap 0x0B (BitVec.ofNat 64 (want l))
    | none =>
      let gr := s.group c.ti c.gi
      let t := maxNat (act.map want)
      let h := gr.blocks
      let r := s.asked c.ti c.gi
      if h + r + 4 < t then .trap 0x0B (BitVec.ofNat 64 t)
      else if t ≤ h then .done (s.modLanes c.ti c.gi act fun l x => { x with claim := max x.claim (want l) })
      else
        let core := s.coreOf c.ti c.gi
        let n := t - (h + r)
        let s := s.modLanes c.ti c.gi act fun l x => x.wait c (.rget t (want l))
        if t ≤ h + r then .moved s
        else if (s.oldestRget core).isNone && decide (n * gr.blockUnits + 16 ≤ s.unitsFree core) then
          .moved (s.modGroup c.ti c.gi fun g => g.grant n)
        else .moved ({ s with rgetQ := s.rgetQ ++ [(⟨core, s.cycOf c.ti c.gi, c.ti, c.gi, n⟩ : RgetReq)] }.tryRegs core)

/-- `rput` (08 R180). -/
def execRput (g : Guard) (b : SrcB) : State → Out :=
  ordinary .all g (srcBRegs 32 b) fun c act s =>
    let want (l : Nat) : Nat := (srcB32 (s.thread c.ti c.gi l) b).toNat
    match act.find? fun l => decide (want l < 1) || decide ((s.thread c.ti c.gi l).claim < want l) with
    | some l => .trap 0x0B (BitVec.ofNat 64 (want l))
    | none => .done ((s.modLanes c.ti c.gi act fun l x => { x with claim := want l }).releaseRegs c.ti c.gi)

/-- The expert capacity (15 R345): ceil(CAPF × B ÷ (65536 × NEXP)), at least 1 when B > 0. -/
def capn (capf b nexp : Nat) : Nat :=
  if b = 0 then 0 else max 1 ((capf * b + 65536 * nexp - 1) / (65536 * nexp))

/-- The counters word (08 R182). -/
def Group.cnt (g : Group) : Nat := g.loads + g.stores * 2 ^ 8 + g.copies * 2 ^ 16 + g.tiles * 2 ^ 24

/-- The value of a selector for a lane (08 R182). -/
def srdValue (s : State) (ti gi l : Nat) (sel : SrdSel) : DWord :=
  let t := s.team ti
  let g := t.group gi
  let x := g.lane l
  let core := t.coreOf g
  let n (v : Nat) : DWord := BitVec.ofNat 64 v
  match sel with
  | .lane => n l
  | .nlane => n g.lanes.length
  | .grp => n gi
  | .ngrp => n t.groups.length
  | .team => n t.num
  | .nteam => n (match s.nodeOf ti with | some nd => nd.nteam | none => 1)
  | .core => n core
  | .clu => n (cluInDie core)
  | .die => n (dieOfCore core)
  | .dev => n s.module.dev
  | .pcore => n g.pcore
  | .accb => if t.acc0 = 0 then 0xFFFFFFFF else 0
  | .regs => n x.claim
  | .scratch => n (t.scr * 256)
  | .item => match x.item with
    | some i => i.payload
    | none => 0
  | .flow => match x.item with
    | some i => n (i.label + i.cls * 2 ^ 24)
    | none => 0xFFFFFFFF
  | .iseq => match x.item with
    | some i => n (i.seq % 2 ^ 32)
    | none => 0xFFFFFFFF
  | .capn => n (capn t.capf.toNat t.batchRows (match s.nodeOf ti with | some nd => nd.p.nexp.toNat | none => 1))
  | .cyc => n (s.die (dieOfCore core)).cyc
  | .cnt => n g.cnt

/-- `srd` (08 R181 to R183). -/
def execSrd (g : Guard) (d : Dst) (sel : SrdSel) : State → Out :=
  ordinary .all g (dstRegs sel.w d) fun c act s =>
    perLane (fun c l t => writeback t d sel.w (srdValue s c.ti c.gi l sel) true) c act s

end Sys2Proof.Machine
end

