-- ==== Sys2Proof/Machine/Matrix.lean ====
section
/-! DEFINITION. The matrix engine: convergence sets, posting, grants, applying passes, accumulator instructions, row requests.

Rules of spec/: 01 R28, R29; 09 R194 to R204; 12 R249 to R280. -/

namespace Sys2Proof.Machine

/-! ### Rows, 09 R201 to R203 -/

/-- The least and greatest mantissa. -/
def mMin : Int := -(2 ^ 47)
/-- The greatest mantissa. -/
def mMax : Int := 2 ^ 47 - 1

/-- Redundant sign bits of a 48-bit mantissa (09 R201). -/
def rb (m : Int) : Nat :=
  let u : Nat := if m < 0 then (-m - 1).toNat else m.toNat
  47 - (if u = 0 then 0 else Nat.log2 u + 1)

/-- Mantissa `j` of a row. -/
def AccRow.at (r : AccRow) (j : Nat) : Int := Sparse.get 0 r.m j
/-- The least `rb` over the row. -/
def AccRow.minRb (r : AccRow) : Nat := ((List.range 128).map fun j => rb (r.at j)).foldl min 47
/-- Writes a mantissa. -/
def AccRow.put (r : AccRow) (j : Nat) (m : Int) : AccRow := { r with m := Sparse.set 0 r.m j m }
/-- Whether a row is empty. -/
def AccRow.isEmpty (r : AccRow) : Bool := r.e == -32768

/-- The header of a row (09 R202). -/
def AccRow.header (r : AccRow) : Nat :=
  (r.e % 65536).toNat + r.h * 2 ^ 16 + bitAt r.l 22 + bitAt r.s 23 + r.rc * 2 ^ 24

/-- The 784 bytes of a row image (09 R203). -/
def AccRow.image (r : AccRow) : List Byte :=
  natBytes 4 r.header ++ natBytes 12 0 ++ (List.range 128).flatMap fun j => natBytes 6 (r.at j % 2 ^ 48).toNat

/-- A number of `w` bits read in two's complement. -/
def signedOf (w n : Nat) : Int := if n < 2 ^ (w - 1) then n else (n : Int) - 2 ^ w

/-- The row that an image describes. -/
def AccRow.ofImage (bs : List Byte) : AccRow :=
  let h := bytesNat (bs.take 4)
  { e := signedOf 16 (h % 65536), h := bitsN h 21 16, l := bitN h 22, s := bitN h 23, rc := bitsN h 27 24,
    m := (List.range 128).foldl (fun m j => Sparse.set 0 m j (signedOf 48 (bytesNat ((bs.drop (16 + 6 * j)).take 6)))) [] }

/-- Whether `acw.img` accepts an image (12 R279). -/
def imageOk (bs : List Byte) : Bool :=
  let r := AccRow.ofImage bs
  bitsN (bytesNat (bs.take 4)) 31 28 == 0 && bytesNat ((bs.drop 4).take 12) == 0 && decide (r.h ≤ r.minRb) &&
    !(r.isEmpty && !r.m.isEmpty)

/-- The contents of a row identity. -/
def State.accRow (s : State) (id : Nat) : AccRow := Sparse.get .empty s.accRows id
/-- Replaces them. -/
def State.setAccRow (s : State) (id : Nat) (r : AccRow) : State := { s with accRows := Sparse.set .empty s.accRows id r }

/-- An element as a value (09 R204). -/
def AccRow.num (r : AccRow) (j : Nat) : Num := if r.isEmpty then .zero false else numFin (r.at j) r.e

/-- A number kept within 48 bits, and whether that clamped it. -/
def sat48 (m : Int) : Int × Bool := if m < mMin then (mMin, true) else if mMax < m then (mMax, true) else (m, false)

/-- One renormalisation by `s` (12 R260); the exponent stops at 32,767, and S marks that it did (09 R202). -/
def AccRow.renorm (r : AccRow) (s : Nat) : AccRow :=
  let sh : Nat := if r.e + s ≤ 32767 then s else (32767 - r.e).toNat
  let half (x : Int) : Int := roundToInt .rne x (-(sh : Int))
  { r with e := r.e + sh, rc := min 15 (r.rc + 1), s := r.s || sh != s,
           l := r.l || (List.range 128).any fun j => half (r.at j) * 2 ^ sh != r.at j,
           m := Sparse.mapVals 0 half r.m }

/-- `acn` (12 R275). -/
def AccRow.acn (r : AccRow) (s : Nat) : AccRow :=
  if r.isEmpty || s == 0 then r
  else
    let r := r.renorm s
    { r with h := r.minRb }

/-! ### Elements of a pass, 12 R253, R254, 09 R195 to R199 -/

/-- The element format of a format-word code. -/
def fwFmt : Nat → Option EFmt
  | 1 => some .f16
  | 2 => some .bf16
  | 3 => some .n8
  | 4 => some .n4
  | 5 => some .i8
  | 6 => some .i4
  | _ => none

/-- Fields of a format word (09 R198). -/
structure FwInfo where
  af : EFmt
  bf : EFmt
  as : Nat
  bs : Nat
  soff : Nat
  w : Nat
deriving DecidableEq, Repr

/-- A valid format word (09 R199). -/
def fwInfo (fw : Word) : Option FwInfo :=
  let n := fw.toNat
  match fwFmt (bitsN n 3 0), fwFmt (bitsN n 7 4) with
  | some a, some b =>
    let as := bitsN n 9 8
    let bs := bitsN n 11 10
    let soff := bitsN n 25 12
    if ewidth a != ewidth b || (ewidth a == 16 && (as != 0 || bs != 0)) || (bs == 0 && soff != 0) || bitsN n 31 26 != 0 then none
    else some ⟨a, b, as, bs, soff, ewidth a⟩
  | _, _ => none

/-- Fields of a descriptor (01 R28). -/
def descAw (d : Word) : Nat := bitsN d.toNat 31 28
/-- N. -/
def descN (d : Word) : Nat := 16 * (bitsN d.toNat 27 24 + 1)
/-- ROW. -/
def descRow (d : Word) : Nat := bitsN d.toNat 23 14
/-- BOFF, in bytes. -/
def descB (d : Word) : Nat := 64 * bitsN d.toNat 13 0
/-- K. -/
def descK (d : Word) (w : Nat) : Nat := (descAw d + 1) * (32 / w)

/-- The tile side of a square scale. -/
def tileSide (code : Nat) : Nat := if code = 3 then 32 else 16
/-- A scale registers of a signer (12 R253). -/
def scaleRegs (as k : Nat) : Nat := match as with
  | 0 => 0
  | 1 => (k + 31) / 32
  | 2 => (k + 63) / 64
  | _ => (k + 127) / 128
/-- Whether K and the scales agree (R253, R254). -/
def scalesOk (f : FwInfo) (k : Nat) : Bool :=
  (f.as == 0 || k % (if f.as = 3 then 32 else 16) == 0) && (f.bs ≤ 1 || k % tileSide f.bs == 0)

/-- Bytes of a B tile. -/
def bBytes (f : FwInfo) (k n : Nat) : Nat := k * n * f.w / 8
/-- Bytes of the scale array of B. -/
def bScaleBytes (f : FwInfo) (k n : Nat) : Nat := match f.bs with
  | 0 => 0
  | 1 => 2 * (k * (n / 16))
  | c => ((k + tileSide c - 1) / tileSide c) * ((n + tileSide c - 1) / tileSide c)

/-- A value times a power of two. -/
def Num.scaleE (x : Num) (e : Int) : Num := match x with
  | .fin m e' => .fin m (e' + e)
  | y => y
/-- A nested block's scale on element `c` of a row (09 R195). -/
def nestScale (word c : Nat) (x : Num) : Num :=
  if word % 256 = 255 then .nan else x.scaleE ((word % 256 : Nat) - 127 - (if bitN word (8 + c % 16 / 2) then 1 else 0))
/-- A square tile's scale (09 R197). -/
def tileScale (b : Nat) (x : Num) : Num := if b = 255 then .nan else x.scaleE ((b : Nat) - 127)

/-- Byte `i` of registers. -/
def wordByte (ws : List Word) (i : Nat) : Nat := (ws.getD (i / 4) 0).toNat / 256 ^ (i % 4) % 256
/-- Element `i` of packed bytes. -/
def packedElem (f : EFmt) (byte : Nat → Nat) (i : Nat) : Num :=
  let w := ewidth f
  decodeElem f (if w = 4 then byte (i / 2) / 16 ^ (i % 2) % 16
    else if w = 8 then byte i
    else if w = 16 then byte (2 * i) + 256 * byte (2 * i + 1)
    else byte (4 * i) + 256 * byte (4 * i + 1) + 65536 * byte (4 * i + 2) + 16777216 * byte (4 * i + 3))

/-- A element (rank, k) of a pass. -/
def elemA (f : FwInfo) (g : Sig) (k : Nat) : Num :=
  let x := packedElem f.af (wordByte g.aRow) k
  match f.as with
  | 0 => x
  | 1 => nestScale (wordByte g.scale (2 * (k / 16)) + 256 * wordByte g.scale (2 * (k / 16) + 1)) k x
  | c => tileScale (wordByte g.scale (k / tileSide c)) x

/-- B element (k, j) of a pass. -/
def elemB (f : FwInfo) (n : Nat) (b sc : Nat → Nat) (k j : Nat) : Num :=
  let x := packedElem f.bf b (k * n + j)
  match f.bs with
  | 0 => x
  | 1 =>
    let i := k * (n / 16) + j / 16
    nestScale (sc (2 * i) + 256 * sc (2 * i + 1)) j x
  | c => tileScale (sc (k / tileSide c * ((n + tileSide c - 1) / tileSide c) + j / tileSide c)) x

/-! ### Applying passes to a row, 12 R260, R261 -/

/-- Whether a value is NaN or infinite. -/
def Num.special : Num → Bool
  | .nan | .inf _ => true
  | _ => false
/-- Floor of log₂ of the magnitude of a non-zero finite value. -/
def Num.flog : Num → Option Int
  | .fin m e => some ((Nat.log2 m.natAbs : Int) + e)
  | _ => none
/-- The greatest such of a list. -/
def maxFlog (xs : List Num) : Option Int :=
  xs.foldl (fun r x => match x.flog, r with
    | some a, some b => some (max a b)
    | some a, none => some a
    | none, r => r) none
/-- ceil(log₂ k). -/
def clog2 (k : Nat) : Nat := if k ≤ 1 then 0 else Nat.log2 (k - 1) + 1

/-- A factor pair of one k of a fused application, for one row: a[k], and b[k, j] for each column j of the half. -/
structure Term where
  a : Num
  b : List Num
deriving DecidableEq, Repr

/-- A product in units of 2^e, rounded (R260). -/
def termUnits (e : Int) (a b : Num) : Int :=
  match a.mul b with
  | .fin m x => roundToInt .rne m (x - e)
  | _ => 0

/-- The value of a special column (R261). -/
def specialM (ps : List Num) : Int :=
  let sp := ps.filter Num.special
  if sp.all fun p => p == .inf false then mMax else mMin

/-- The products of column `j` that have a special factor. -/
def specialTerms (ts : List Term) (j : Nat) : List Num :=
  (ts.filter fun t => t.a.special || (t.b.getD j (.zero false)).special).map fun t => t.a.mul (t.b.getD j (.zero false))

/-- Applies the terms of a pass, or of fused passes, to columns 0 to `cols` − 1 of a row (R260). -/
def AccRow.apply (row : AccRow) (ts : List Term) (cols : Nat) : AccRow :=
  let fa := maxFlog (ts.map (·.a))
  let fb := maxFlog (ts.flatMap fun t => t.b.take cols)
  let spCols := (List.range cols).filter fun j => !(specialTerms ts j).isEmpty
  let live : Option Int := match fa, fb with
    | some a, some b => some (a + b + 2 + clog2 ts.length)
    | _, _ => none
  if row.isEmpty && live.isNone && spCols.isEmpty then row
  else
    let row : AccRow :=
      if row.isEmpty then { row with e := match live with
        | some g0 => g0 - 40
        | none => 0 }
      else match live with
        | none => row
        | some g0 =>
          let q := g0 - row.e
          if row.h < 1 || 46 < q then row.renorm (max 1 (max (q - 46) (2 - row.h))).toNat else row
    let row := (List.range cols).foldl (fun r j =>
      if spCols.contains j then { r.put j (specialM (specialTerms ts j)) with s := true }
      else if live.isNone then r
      else
        let (m, c) := sat48 (row.at j + (ts.map fun t => termUnits row.e t.a (t.b.getD j (.zero false))).foldl (· + ·) 0)
        { r.put j m with s := r.s || c }) row
    { row with h := row.minRb }

/-! ### Passes -/

/-- Rows per signer (R259). -/
def rowsPer (n : Nat) : Nat := if n ≤ 128 then 1 else 2

/-- The byte of B at an offset of the tile as a pass reads it: the one at posting, or a later one (R254). -/
def passByte (s : State) (p : Pass) (id base : Nat) (snap : List Byte) (i : Nat) : Nat :=
  let old := snap.getD i 0
  let t := s.team p.ti
  let core := match p.rank with
    | g :: _ => g.pcore
    | [] => 0
  let now := Sparse.get 0#8 (t.scratch core) (base + i)
  (if t.place == .resident && now != old && Config.seesLateB id (base + i) then now else old).toNat

/-- The terms of a pass for rank `i` and half `h`. -/
def passTerms (s : State) (p : Pass) (id i h : Nat) : List Term :=
  match fwInfo p.fw, p.rank[i]? with
  | some f, some g =>
    let n := descN p.desc
    let cols := min 128 (n - 128 * h)
    let b := passByte s p id (descB p.desc) p.b
    let sc := passByte s p id (64 * f.soff) p.bscale
    (List.range (descK p.desc f.w)).map fun k =>
      ⟨elemA f g k, (List.range cols).map fun j => elemB f n b sc k (128 * h + j)⟩
  | _, _ => []

/-- Applies fused passes, numbered by their entries, to every row. -/
def applyPasses (s : State) (ps : List (Nat × Pass)) : State :=
  match ps with
  | [] => s
  | (_, p) :: _ =>
    let n := descN p.desc
    let per := rowsPer n
    (List.range (p.rank.length * per)).foldl (fun s' x =>
      match p.dest.getD x none with
      | none => s'
      | some id =>
        let ts := ps.flatMap fun q => passTerms s q.2 q.1 (x / per) (x % per)
        s'.setAccRow id ((s'.accRow id).apply ts (min 128 (n - 128 * (x % per))))) s

/-- Entries of the row streams of an engine. -/
def State.streamsOf (s : State) (clu : Nat) : List Stream := s.streams.filter (·.clu == clu)
/-- Whether an entry is a pass. -/
def Stream.pass? (e : Stream) : Option Pass := match e.op with
  | .pass p => some p
  | _ => none
/-- Entries of a reservation table (R257). -/
def State.tableUsed (s : State) (clu : Nat) : Nat := ((s.streamsOf clu).filter fun e => e.pass?.isSome).length

/-- Whether two entries share a row. -/
def sharesRow (a b : Stream) : Bool := a.rows.any fun r => b.rows.contains r
/-- The entries of an engine before which none stands in a common stream (R258), in order. -/
def heads : List Stream → List Stream → List Stream
  | _, [] => []
  | before, e :: rest => (if before.any fun b => sharesRow b e then [] else [e]) ++ heads (before ++ [e]) rest

/-- Whether an accumulator row identity is held by a team or still named in a stream. -/
def State.rowLive (s : State) (id : Nat) : Bool := s.teams.any (fun t => t.rows.contains id) || s.streams.any fun e => e.rows.contains id
/-- Forgets the contents of rows that nobody names. -/
def State.sweepRows (s : State) : State := { s with accRows := s.accRows.filter fun e => s.rowLive e.1 }

/-! ### Rows of the engine, 12 R265 to R267 -/

/-- Whether a team stands on a cluster. -/
def Team.onClu (t : Team) (clu : Nat) : Bool := t.place == .resident && t.cores.any fun c => cluOfCore c == clu

/-- Free rows F of an engine: rows that no team holds and no stream still needs (R266, R274). -/
def State.freeRows (s : State) (clu : Nat) : Nat :=
  let held := (s.teams.filter fun t => t.onClu clu).flatMap (·.rows)
  let draining := dedupNat ((s.streamsOf clu).flatMap (·.rows)) |>.filter fun r => !held.contains r
  Config.engineRows - held.length - draining.length

/-- Rows that a team's own waiting requests ask for. -/
def State.rowsAsked (s : State) (ti : Nat) : Nat := sumNat ((s.acgQ.filter (·.ti == ti)).map (·.n))

/-- Grants a request: new empty rows at the top. -/
def State.grantRows (s : State) (r : AcgReq) : State :=
  let h := (s.team r.ti).rows.length
  let ids := addrs s.nextId r.n
  let s := { s with acgQ := s.acgQ.erase r, nextId := s.nextId + r.n, accRows := s.accRows.filter fun e => decide (e.1 < s.nextId) }
  (s.modTeam r.ti fun t => { t with rows := t.rows ++ ids }).modLanes r.ti r.gi r.lanes fun _ t =>
    (t.setV r.d (BitVec.ofNat 32 h)).resume

/-- The oldest of some requests: by age, then the lower core, then the lower group number. -/
def oldestAcg (rs : List AcgReq) : Option AcgReq := minBy (fun r => (r.age * 1024 + r.core) * 16 + r.gi) rs

/-- Whether every team that holds rows on an engine has a request waiting. -/
def State.allHoldersWait (s : State) (clu : Nat) : Bool :=
  (List.range s.teams.length).all fun ti =>
    let t := s.team ti
    !(t.onClu clu && !t.rows.isEmpty) || s.acgQ.any fun r => r.ti == ti

/-- Ends a reserve-holder state when F is back at 256, or the team is gone or saved (R267). -/
def State.endReserve (s : State) (clu : Nat) : State :=
  match Sparse.get 0 s.reserve clu with
  | 0 => s
  | h + 1 =>
    if decide (Config.rowReserve ≤ s.freeRows clu) || !(s.team h).onClu clu then { s with reserve := Sparse.drop s.reserve clu } else s

/-- Examines the waiting row requests of an engine (R266, R267). -/
def State.examineRows : Nat → Nat → State → State
  | 0, _, s => s
  | fuel + 1, clu, s =>
    let s := s.endReserve clu
    let f := s.freeRows clu
    let waiting := s.acgQ.filter (·.clu == clu)
    let holder := Sparse.get 0 s.reserve clu
    match oldestAcg (waiting.filter fun r => r.ti + 1 == holder) with
    | some r => if r.n ≤ f then State.examineRows fuel clu (s.grantRows r) else s
    | none =>
      match oldestAcg waiting with
      | none => s
      | some r =>
        if r.lanes.isEmpty then s
        else if Config.rowReserve + r.n ≤ f then State.examineRows fuel clu (s.grantRows r)
        else if holder == 0 && s.allHoldersWait clu && decide (r.n ≤ f) then
          State.examineRows fuel clu { s.grantRows r with reserve := Sparse.put s.reserve clu (r.ti + 1) }
        else s

/-- Rows have been freed, or a request has begun to wait. -/
def State.tryRows (s : State) (clu : Nat) : State :=
  let s := s.sweepRows
  s.examineRows (s.acgQ.length + 1) clu

/-- Whether the request of a team to be restored, for `n` rows and dated by its save, would be granted on an engine now, and if so whether
from the reserve (R266, R267). DESIGN CHOICE (log 101): of a restoring team and an `acg` request of equal age the restoring team goes first, since it
stands on no core yet whose number could decide. -/
def State.rowsForRestore (s : State) (ti clu age n : Nat) : Option Bool :=
  let s := s.endReserve clu
  let f := s.freeRows clu
  let others := s.acgQ.filter fun r => r.clu == clu && r.ti != ti
  let holder := Sparse.get 0 s.reserve clu
  if n = 0 then some false
  else if others.any fun r => r.ti + 1 == holder || decide (r.age < age) then none
  else if Config.rowReserve + n ≤ f then some false
  else if holder == 0 && s.allHoldersWait clu && decide (n ≤ f) then some true
  else none

/-! ### Posting, 12 R252, R257, R273, R274 -/

/-- M of a declared register. -/
def CvReg.m (v : CvReg) : Nat := if v.masked then (lanesOf v.mset).length else v.count

/-- Signers in rank order (R252). -/
def rankSigs (sigs : List Sig) : List Sig := sortBy (fun g => (g.pcore * 16 + g.gi) * 64 + g.lane) sigs

/-- The groups of some signatures. -/
def sigGroups (sigs : List Sig) : List Nat := dedupNat (sigs.map (·.gi))

/-- Posts a complete set if the table has a place; until then its signers wait. -/
def State.tryPost (s : State) (ti cv : Nat) : State :=
  let t := s.team ti
  let v := t.cvs.getD cv .free
  let clu := cluOfCore (t.cores.getD 0 0)
  if !(v.declared && v.sigs.length == v.m && decide (0 < v.m)) || t.place != .resident || t.saving.isSome || decide (Config.tableEntries ≤ s.tableUsed clu) then s
  else
    let rank := rankSigs v.sigs
    let per := rowsPer (descN v.desc)
    let dest := (List.range (rank.length * per)).map fun x => t.rows[descRow v.desc + x]?
    let m := t.scratch (match rank with
      | g :: _ => g.pcore
      | [] => 0)
    match fwInfo v.fw with
    | none => s
    | some f =>
      let k := descK v.desc f.w
      let n := descN v.desc
      let node := s.nodeOf ti
      let p : Pass :=
        { cv := cv, fw := v.fw, desc := v.desc, rank := rank, dest := dest,
          b := scratchBytes m (descB v.desc) (bBytes f k n), bscale := scratchBytes m (64 * f.soff) (bScaleBytes f k n),
          ti := ti, prio := (match node with | some nd => nd.p.prio.toNat | none => 0),
          inv := (match node with | some nd => nd.p.inv | none => false),
          core := t.cores.getD (match rank with | g :: _ => g.pcore | [] => 0) 0,
          posted := (s.die (dieOfClu clu)).cyc, aged := false, granted := false }
      let (id, s) := s.fresh
      let e : Stream := ⟨id, clu, ti, 0, 0, dest.filterMap fun x => x, .pass p⟩
      let s := { s with streams := s.streams ++ [e] }.modTeam ti fun t => { t with cvs := t.cvs.set cv .free }
      rank.foldl (fun s g => s.modThread ti g.gi g.lane fun x => if x.hold == .sign cv then x.resume else x) s

/-- The sets of an engine that have signatures, in the order in which postings of one cycle stand: by the core of the signer of rank 0 (R257).
DESIGN CHOICE (log 102): complete sets that wait for a full table take freed entries in this order, then by team and register number; R252 gives none. -/
def State.postOrder (s : State) (clu : Nat) : List (Nat × Nat) :=
  let core (x : Nat × Nat) : Nat :=
    let t := s.team x.1
    t.cores.getD (match rankSigs (t.cvs.getD x.2 .free).sigs with
      | g :: _ => g.pcore
      | [] => 0) 0
  sortBy core (((List.range s.teams.length).filter fun ti => (s.team ti).onClu clu).flatMap fun ti => (List.range 16).map fun cv => (ti, cv))

/-- Tries every complete set of an engine: an entry has been freed. -/
def State.tryPosts (s : State) (clu : Nat) : State := (s.postOrder clu).foldl (fun s x => s.tryPost x.1 x.2) s

/-- The tile counts of some groups fall. -/
def State.tilesDown (s : State) (ti : Nat) (gis : List Nat) : State :=
  gis.foldl (fun s gi => s.modGroup ti gi fun g => { g with tiles := g.tiles - 1 }) s

/-- The signers of a set that can still come. -/
def Team.canSign (t : Team) (v : CvReg) : Bool :=
  (List.range t.groups.length).any fun gi =>
    (t.group gi).live.any fun l =>
      (!v.masked || (gi == v.grp && v.mset.getLsbD l)) && !v.sigs.any fun g => g.gi == gi && g.lane == l

/-- The register whose abandoned set a lane had signed, if its trap can be taken now. -/
def Thread.abandonedCv (x : Thread) : Option Nat := match x.hold with
  | .abandoned cv => if x.heldK || x.heldF || x.exited then none else some cv
  | _ => none

/-- Takes the traps of abandoned sets that are due in a group: those at the lowest PC, of one register; the others follow when the handler has
returned (R272; log 19). -/
def State.trapAbandoned (s : State) (ti gi : Nat) : State :=
  let due := (s.group ti gi).live.filterMap fun l => ((s.thread ti gi l).abandonedCv).map fun cv => (l, cv)
  match minBy (fun x => (s.thread ti gi x.1).pc.toNat) due with
  | none => s
  | some (l0, cv) =>
    let pc := (s.thread ti gi l0).pc
    takeTrap s ti gi ((due.filter fun x => (s.thread ti gi x.1).pc == pc && x.2 == cv).map (·.1)) 0x09 pc (BitVec.ofNat 64 cv)

/-- Takes the traps of abandoned sets that are due in the teams that run. -/
def State.settleAbandoned (s : State) : State :=
  (List.range s.teams.length).foldl (fun s ti =>
    if (s.team ti).place != .resident || (s.team ti).saving.isSome then s
    else (List.range (s.team ti).groups.length).foldl (fun s gi => s.trapAbandoned ti gi) s) s

/-- CONVERGENCE_ABANDON (95; R272) for one register. -/
def State.abandon (s : State) (ti cv : Nat) : State :=
  let t := s.team ti
  let v := t.cvs.getD cv .free
  if !v.declared || v.sigs.isEmpty || decide (v.m ≤ v.sigs.length) || t.canSign v then s
  else
    let gis := sigGroups v.sigs
    let s := (s.modTeam ti fun t => { t with cvs := t.cvs.set cv .free }).tilesDown ti gis
    gis.foldl (fun s gi =>
      let waits := (v.sigs.filter fun g => g.gi == gi && (s.thread ti gi g.lane).hold == .sign cv && !(s.thread ti gi g.lane).exited).map (·.lane)
      (s.modLanes ti gi waits fun _ x => { x with hold := .abandoned cv }).trapAbandoned ti gi) s

/-- Abandons every set of a team that cannot complete; without threads every register is free (R272). -/
def State.abandonAll (s : State) (ti : Nat) : State :=
  let t := s.team ti
  if t.groups.all fun g => g.live.isEmpty then
    let s := t.cvs.foldl (fun s v => s.tilesDown ti (sigGroups v.sigs)) s
    s.modTeam ti fun t => { t with cvs := t.cvs.map fun _ => .free }
  else (List.range 16).foldl (fun s cv => s.abandon ti cv) s

/-! ### Instructions -/

/-- The body of a word of the matrix range: on a firmware core it is illegal (R249). -/
def matrixWord (g : Guard) (uses : List Nat) (body : Cur → List Nat → State → Res) (s : State) : Out :=
  match s.cur with
  | none => .fault .noRun
  | some c =>
    if isFwCore (s.coreOf c.ti c.gi) then .next (trapRun s c 0x01 c.w0)
    else .next (issueWord .all g uses body c s)

/-- The checks of words that name a register run whose length is read at issue: R42, then R172, over all active lanes; then the scoreboard.
`statics` are the registers named outright. -/
def runChecks (s : State) (c : Cur) (act : List Nat) (statics : List Nat) (run : Nat → List Nat) : Option Res :=
  let w := pendingLanes s c act statics
  if !w.isEmpty then some (.stall w)
  else if act.any fun l => (run l).any fun r => decide (255 < r) then some (.trap 0x01 c.w0)
  else
    match minBy id (act.filterMap fun l => claimFail s c [l] (statics ++ run l)) with
    | some r => some (.trap 0x0B (BitVec.ofNat 64 r))
    | none =>
      let w := act.filter fun l => (run l).any fun r => (s.thread c.ti c.gi l).isPending r
      if w.isEmpty then none else some (.stall w)

/-- `cvd`, both forms (R271). -/
def declareCv (g : Guard) (cv : Nat) (w : Nat) (b : SrcB) (mk : Team → Cur → DWord → Option CvReg) : State → Out :=
  matrixWord g (srcBRegs w b) fun c act s =>
    match lowest act with
    | none => .done s
    | some l0 =>
      let t := s.team c.ti
      if (t.cvs.getD cv .free).declared then .trap 0x09 (BitVec.ofNat 64 cv)
      else match mk t c (operandB (s.thread c.ti c.gi l0) w b) with
        | none => .trap 0x09 (BitVec.ofNat 64 cv)
        | some v => .done (s.modTeam c.ti fun t => { t with cvs := t.cvs.set cv v })

/-- Threads of a team that have not exited. -/
def Team.liveCount (t : Team) : Nat := sumNat (t.groups.map fun g => g.live.length)

/-- `cvd` (12 R271). -/
def execCvd (g : Guard) (cv : BitVec 4) (b : SrcB) : State → Out :=
  declareCv g cv.toNat 32 b fun t _ x =>
    let n := uintW 32 x
    if decide (n < 1) || decide (256 < n) || decide (t.liveCount < n) then none
    else some { CvReg.free with declared := true, count := n }

/-- `cvd.mask` (12 R271). -/
def execCvdMask (g : Guard) (cv : BitVec 4) (b : SrcB) : State → Out :=
  declareCv g cv.toNat 64 b fun t c m =>
    if m == 0 || decide (2 ^ (t.group c.gi).lanes.length ≤ m.toNat) then none
    else some { CvReg.free with declared := true, masked := true, grp := c.gi, mset := m }

/-- The lengths of a signer's A run and of its scale registers, as descriptor and format word give them, be the word valid or not: the checks of
R255 for them come first. A word whose A code names no format has no scale registers (log 73). -/
def mmaRun (t : Thread) (b : SrcB) (fw : Src) : Nat × Nat :=
  let desc := srcB32 t b
  let w := src32 t fw
  let n := descAw desc + 1
  match fwFmt (bitsN w.toNat 3 0) with
  | some a => (n, scaleRegs (bitsN w.toNat 9 8) (descK desc (ewidth a)))
  | none => (n, 0)

/-- Step 3 of R255 for a lane: the format word, and the one the set's first signer recorded. -/
def mmaFormatBad (desc fw : Word) (first : Word) : Bool :=
  match fwInfo fw with
  | none => true
  | some f => !scalesOk f (descK desc f.w) || fw != first

/-- The first byte that steps 6 of R255 finds outside the carve-out. -/
def mmaRangeBad (carve : Nat) (desc : Word) (f : FwInfo) : Option Nat :=
  let k := descK desc f.w
  let n := descN desc
  let bad (start len : Nat) : Option Nat := if carve < start + len then some (max carve start) else none
  match bad (descB desc) (bBytes f k n) with
  | some x => some x
  | none => if f.bs = 0 then none else bad (64 * f.soff) (bScaleBytes f k n)

/-- Steps 3 to 6 of R255 over all active lanes. -/
def mmaChecks (s : State) (c : Cur) (act : List Nat) (cv : Nat) (desc fw : Nat → Word) : Option (Nat × DWord) :=
  let t := s.team c.ti
  let v := t.cvs.getD cv .free
  let n64 (x : Nat) : DWord := BitVec.ofNat 64 x
  match act with
  | [] => none
  | l0 :: _ =>
    let fw0 := if v.sigs.isEmpty then fw l0 else v.fw
    let d0 := if v.sigs.isEmpty then desc l0 else v.desc
    match act.find? fun l => mmaFormatBad (desc l) (fw l) fw0 with
    | some l => some (0x07, (fw l).setWidth 64)
    | none =>
      let inSet (l : Nat) : Bool := !v.masked || (c.gi == v.grp && v.mset.getLsbD l)
      let signed (l : Nat) : Bool := v.sigs.any fun g => g.gi == c.gi && g.lane == l
      if !v.declared || (act.any fun l => !inSet l || signed l || desc l != d0) ||
          (!v.masked && decide (v.count < v.sigs.length + act.length)) then some (0x09, n64 cv)
      else if t.rows.length < descRow d0 + v.m * rowsPer (descN d0) then some (0x0A, n64 (descRow d0))
      else match fwInfo fw0 with
        | none => none
        | some f => match mmaRangeBad t.carve d0 f with
          | some x => some (0x06, n64 x)
          | none => none

/-- Registers of a thread read as a run. -/
def readRun (t : Thread) (r n : Nat) : List Word := (List.range n).map fun i => t.v (r + i)

/-- `mma` (12 R252, R255, R256, R273). -/
def execMma (g : Guard) (cv : BitVec 4) (reuse : Bool) (a : RegIx) (b : SrcB) (fw : Src) : State → Out :=
  matrixWord g [] fun c act s =>
    let th (l : Nat) : Thread := s.thread c.ti c.gi l
    let run (l : Nat) : List Nat := let r := mmaRun (th l) b fw; addrs a.toNat (r.1 + r.2)
    match runChecks s c act (srcBRegs 32 b ++ srcRegs 32 fw) run with
    | some r => r
    | none =>
      let n := cv.toNat
      match mmaChecks s c act n (fun l => srcB32 (th l) b) (fun l => src32 (th l) fw) with
      | some (cause, v) => .trap cause v
      | none =>
        match act with
        | [] => .done s
        | l0 :: _ =>
          let v := (s.team c.ti).cvs.getD n .free
          let gr := s.group c.ti c.gi
          let counted := v.sigs.any (·.gi == c.gi)
          if !counted && decide (63 ≤ gr.tiles) then .stall act
          else
            let sigs := act.map fun l =>
              let r := mmaRun (th l) b fw
              (⟨c.gi, l, gr.pcore, readRun (th l) a.toNat r.1, readRun (th l) (a.toNat + r.1) r.2⟩ : Sig)
            let v' := { v with sigs := v.sigs ++ sigs,
                               desc := if v.sigs.isEmpty then srcB32 (th l0) b else v.desc,
                               fw := if v.sigs.isEmpty then src32 (th l0) fw else v.fw }
            let s := s.modTeam c.ti fun t => { t with cvs := t.cvs.set n v' }
            let s := if counted then s else s.modGroup c.ti c.gi fun g => { g with tiles := g.tiles + 1 }
            let s := s.modLanes c.ti c.gi act fun l t =>
              let t := t.wait c (.sign n)
              { t with latch := if reuse then (run l).foldl (fun m r => Sparse.put m r (t.v r)) t.latch else [] }
            .moved ((s.tryPost c.ti n).abandonAll c.ti)

/-- `acg` (12 R265, R266, R274). -/
def execAcg (g : Guard) (d : RegIx) (b : SrcB) : State → Out :=
  matrixWord g (d.toNat :: srcBRegs 32 b) fun c act s =>
    match lowest act with
    | none => .done s
    | some l0 =>
      let n := (srcB32 (s.thread c.ti c.gi l0) b).toNat
      let t := s.team c.ti
      let h := t.rows.length + s.rowsAsked c.ti
      if n == 0 || n % 16 != 0 || decide (256 < n) then .trap 0x0A (BitVec.ofNat 64 n)
      else if 256 * t.cores.length < h + n then .trap 0x0A (BitVec.ofNat 64 (h + n))
      else
        let core := s.coreOf c.ti c.gi
        let clu := cluOfCore core
        let s := s.modLanes c.ti c.gi act fun _ x => x.wait c .acg
        .moved ({ s with acgQ := s.acgQ ++ [(⟨clu, (s.die (dieOfCore core)).cyc, core, c.ti, c.gi, n, d.toNat, act⟩ : AcgReq)] }.tryRows clu)

/-- `acp` (12 R274). -/
def execAcp (g : Guard) (b : SrcB) : State → Out :=
  matrixWord g (srcBRegs 32 b) fun c act s =>
    match lowest act with
    | none => .done s
    | some l0 =>
      let k := (srcB32 (s.thread c.ti c.gi l0) b).toNat
      if k % 16 != 0 || decide ((s.team c.ti).rows.length < k) then .trap 0x0A (BitVec.ofNat 64 k)
      else .done ((s.modTeam c.ti fun t => { t with rows := t.rows.take k }).tryRows (cluOfCore (s.coreOf c.ti c.gi)))

/-- Enters one entry for each active lane into the row streams, as one counted tile operation (R258, R280). -/
def enterStreams (s : State) (c : Cur) (act : List Nat) (rows : Nat → List Nat) (op : Nat → StreamOp) (pend : Nat → List Nat) : Res :=
  if act.isEmpty then .done s
  else if 63 ≤ (s.group c.ti c.gi).tiles then .stall act
  else
    let clu := cluOfCore (s.coreOf c.ti c.gi)
    let t := s.team c.ti
    let (id, s) := s.fresh
    let es := act.map fun l => (⟨id, clu, c.ti, c.gi, l, (rows l).filterMap fun r => t.rows[r]?, op l⟩ : Stream)
    let s := { s with streams := s.streams ++ es }.modGroup c.ti c.gi fun g => { g with tiles := g.tiles + 1 }
    .done (s.modLanes c.ti c.gi act fun l x => x.addPend (pend l) id)

/-- The row a lane names. -/
def rowOf (s : State) (c : Cur) (a : Src) (l : Nat) : Nat := (src32 (s.thread c.ti c.gi l) a).toNat
/-- Traps unless every lane's row is held; `sy.tval` is the row that the lowest failing lane names, as R279 says of the image forms. DESIGN CHOICE
(log 100): for `ach` R276 gives the cause alone. -/
def rowsHeld (s : State) (c : Cur) (act : List Nat) (row : Nat → Nat) : Option (Nat × DWord) :=
  firstFail act fun l => if row l < (s.team c.ti).rows.length then none else some (0x0A, BitVec.ofNat 64 (row l))

/-- The lowest row that the lanes name and the team does not hold, where lane `l` names `n l` rows from `row l` on (R275). -/
def lowestUnheld (s : State) (c : Cur) (act : List Nat) (row n : Nat → Nat) : Option (Nat × DWord) :=
  let h := (s.team c.ti).rows.length
  (minBy id ((act.filter fun l => decide (h < row l + n l)).map fun l => max h (row l))).map fun r => (0x0A, BitVec.ofNat 64 r)

/-- `acz` (12 R275). -/
def execAcz (g : Guard) (a : Src) (b : SrcB) : State → Out :=
  matrixWord g (srcRegs 32 a ++ srcBRegs 32 b) fun c act s =>
    let row := rowOf s c a
    let n (l : Nat) : Nat := (srcB32 (s.thread c.ti c.gi l) b).toNat
    match act.find? fun l => decide (n l < 1) || decide (256 < n l) with
    | some l => .trap 0x0A (BitVec.ofNat 64 (n l))
    | none =>
      match lowestUnheld s c act row n with
      | some (cause, v) => .trap cause v
      | none => enterStreams s c act (fun l => addrs (row l) (n l)) (fun _ => .acz) fun _ => []

/-- `acn` (12 R275). -/
def execAcn (g : Guard) (a : Src) (b : SrcB) : State → Out :=
  matrixWord g (srcRegs 32 a ++ srcBRegs 32 b) fun c act s =>
    let row := rowOf s c a
    match lowestUnheld s c act row (fun _ => 1) with
    | some (cause, v) => .trap cause v
    | none =>
      enterStreams s c act (fun l => [row l])
        (fun l => .acn (min 47 ((srcB32 (s.thread c.ti c.gi l) b).toNat % 64))) fun _ => []

/-- `ach` (12 R276). -/
def execAch (g : Guard) (d : RegIx) (a : Src) : State → Out :=
  matrixWord g (d.toNat :: srcRegs 32 a) fun c act s =>
    match rowsHeld s c act (rowOf s c a) with
    | some (cause, v) => .trap cause v
    | none => enterStreams s c act (fun l => [rowOf s c a l]) (fun _ => .ach) fun _ => [d.toNat]

/-- Count and first column of a control word (12 R277). -/
def ctlN (x : Word) : Nat := bitsN x.toNat 7 0
/-- First column. -/
def ctlC0 (x : Word) : Nat := bitsN x.toNat 14 8
/-- Registers of the run of a conversion: from the raw count, at least one. -/
def ctlRun (f : EFmt) (x : Word) : Nat := max 1 ((ctlN x * ewidth f + 31) / 32)
/-- Whether count and columns are out of range. -/
def ctlBad (x : Word) : Bool := decide (ctlN x < 1) || decide (128 < ctlN x) || decide (128 < ctlC0 x + ctlN x)

/-- `acr` (12 R277). -/
def execAcr (g : Guard) (f : EFmt) (d : RegIx) (a : Src) (b : SrcB) : State → Out :=
  matrixWord g [] fun c act s =>
    let ctl (l : Nat) : Word := srcB32 (s.thread c.ti c.gi l) b
    match runChecks s c act (srcRegs 32 a ++ srcBRegs 32 b) fun l => addrs d.toNat (ctlRun f (ctl l)) with
    | some r => r
    | none =>
      let row := rowOf s c a
      match act.find? fun l => decide ((s.team c.ti).rows.length ≤ row l) || ctlBad (ctl l) with
      | some l => .trap 0x0A (BitVec.ofNat 64 (row l))
      | none =>
        enterStreams s c act (fun l => [row l]) (fun l => .acr f (ctlN (ctl l)) (ctlC0 (ctl l)))
          fun l => addrs d.toNat (ctlRun f (ctl l))

/-- `acw` (12 R278). DESIGN CHOICE (log 100): `sy.tval` of its 0x0A is the row that the lowest failing lane names; R278 gives the cause alone. -/
def execAcw (g : Guard) (f : EFmt) (a : Src) (v : RegIx) (b : SrcB) : State → Out :=
  matrixWord g [] fun c act s =>
    let ctl (l : Nat) : Word := srcB32 (s.thread c.ti c.gi l) b
    match runChecks s c act (srcRegs 32 a ++ srcBRegs 32 b) fun l => addrs v.toNat (ctlRun f (ctl l)) with
    | some r => r
    | none =>
      let row := rowOf s c a
      let e (l : Nat) : Int := signedOf 16 ((ctl l).toNat / 65536)
      match act.find? fun l => decide ((s.team c.ti).rows.length ≤ row l) || ctlBad (ctl l) || e l == -32768 with
      | some l => .trap 0x0A (BitVec.ofNat 64 (row l))
      | none =>
        enterStreams s c act (fun l => [row l])
          (fun l => .acw f (ctlN (ctl l)) (ctlC0 (ctl l)) (e l) (readRun (s.thread c.ti c.gi l) v.toNat (ctlRun f (ctl l)))) fun _ => []

/-- The checks of the image forms (12 R279). -/
def imgChecks (s : State) (c : Cur) (act : List Nat) (off row : Nat → Nat) : Option (Nat × DWord) :=
  let carve := (s.team c.ti).carve
  match act.find? fun l => off l % 16 != 0 with
  | some l => some (0x04, BitVec.ofNat 64 (off l))
  | none =>
    match act.find? fun l => decide (carve < off l + 784) with
    | some l => some (0x06, BitVec.ofNat 64 (max carve (off l)))
    | none => rowsHeld s c act row

/-- `acr.img` (12 R279). -/
def execAcrImg (g : Guard) (a : Src) (b : SrcB) : State → Out :=
  matrixWord g (srcRegs 32 a ++ srcBRegs 32 b) fun c act s =>
    let off (l : Nat) : Nat := (srcB32 (s.thread c.ti c.gi l) b).toNat
    match imgChecks s c act off (rowOf s c a) with
    | some (cause, v) => .trap cause v
    | none => enterStreams s c act (fun l => [rowOf s c a l]) (fun l => .acrImg (off l)) fun _ => []

/-- `acw.img` (12 R279). -/
def execAcwImg (g : Guard) (a : Src) (b : SrcB) : State → Out :=
  matrixWord g (srcRegs 32 a ++ srcBRegs 32 b) fun c act s =>
    let off (l : Nat) : Nat := (srcB32 (s.thread c.ti c.gi l) b).toNat
    let img (l : Nat) : List Byte := scratchBytes ((s.team c.ti).scratch (s.group c.ti c.gi).pcore) (off l) 784
    match imgChecks s c act off (rowOf s c a) with
    | some (cause, v) => .trap cause v
    | none =>
      match act.find? fun l => !imageOk (img l) with
      | some l => .trap 0x0A (BitVec.ofNat 64 (rowOf s c a l))
      | none => enterStreams s c act (fun l => [rowOf s c a l]) (fun l => .acwImg (img l)) fun _ => []

/-! ### Steps of the engine -/

/-- The cycle of an engine's die. -/
def State.cluCyc (s : State) (clu : Nat) : Nat := (s.die (dieOfClu clu)).cyc
/-- The priority of a pass at a cycle (R257). -/
def Pass.rankNow (p : Pass) (now : Nat) : Nat := if p.aged || decide (p.posted + 4096 ≤ now) then 3 else p.prio
/-- The place of a pass among those that may be granted: priority, then the earlier posting, then the lower core of the rank-0 signer (R257). -/
def Pass.grantKey (p : Pass) (now : Nat) : Nat := ((3 - p.rankNow now) * (now + 1) + min p.posted now) * 65536 + p.core

/-- Marks entries granted. -/
def markGranted (es : List Nat) (e : Stream) : Stream :=
  match e.op with
  | .pass p => if es.contains e.id then { e with op := .pass { p with granted := true } } else e
  | _ => e

/-- Whether a pass may be applied as one with an earlier one of the same rows (R262). -/
def fusable (e : Stream) (p : Pass) (x : Stream) (q : Pass) : Bool :=
  !p.inv && x.rows == e.rows && q.dest == p.dest && descN q.desc == descN p.desc && q.fw == p.fw && q.cv == p.cv && q.ti == p.ti

/-- The passes that follow an entry at once in its streams, one after the other, and that the engine fuses with it (R262). -/
def fuseWith (e : Stream) (p : Pass) : List Stream → Nat → List Nat
  | [], _ => []
  | x :: rest, ctr =>
    if !sharesRow x e then fuseWith e p rest ctr
    else match x.op with
      | .pass q => if fusable e p x q && Config.fuses ctr then x.id :: fuseWith e p rest (ctr + 1) else []
      | _ => []

/-- PASS_GRANT (12 R257): the eligible pass of highest priority, earlier postings first. -/
def execPassGrant (clu : Nat) (s : State) : Out :=
  .next <|
    let es := s.streamsOf clu
    if es.any fun e => match e.op with | .pass p => p.granted | _ => false then s
    else
      let cands := (heads [] es).filterMap fun e => e.pass?.map fun p => (e, p)
      match minBy (fun (ep : Stream × Pass) => ep.2.grantKey (s.cluCyc clu)) cands with
      | none => s
      | some (e, p) =>
        let after := (es.dropWhile fun x => x.id != e.id).drop 1
        let more := fuseWith e p after s.freeCtr
        { s with streams := s.streams.map (markGranted (e.id :: more)), freeCtr := s.freeCtr + more.length + 1 }

/-- PASS_AGING (12 R257). -/
def execPassAging (clu pass : Nat) (s : State) : Out :=
  .next { s with streams := s.streams.map fun e => match e.op with
    | .pass p => if e.clu == clu && e.id == pass && decide (p.posted + 4096 ≤ s.cluCyc clu) then { e with op := .pass { p with aged := true } } else e
    | _ => e }

/-- PASS_APPLY (12 R259 to R262): the granted pass, with those fused to it, is applied, and its tile counts fall. -/
def execPassApply (clu : Nat) (s : State) : Out :=
  .next <|
    let ps := (s.streamsOf clu).filterMap fun e => match e.op with
      | .pass p => if p.granted then some (e.id, p) else none
      | _ => none
    match ps with
    | [] => s
    | _ =>
      let s := applyPasses s ps
      let s := { s with streams := s.streams.filter fun e => !(ps.any fun x => x.1 == e.id) }
      let s := ps.foldl (fun s x => s.tilesDown x.2.ti (sigGroups x.2.rank)) s
      (s.tryPosts clu).tryRows clu

/-- The bytes of packed elements in registers (09 R194). -/
def packWords (w : Nat) (xs : List Nat) : List Word :=
  let per := 32 / w
  (List.range ((xs.length + per - 1) / per)).map fun i =>
    BitVec.ofNat 32 (((xs.drop (i * per)).take per).foldr (fun x acc => x % 2 ^ w + 2 ^ w * acc) 0)

/-- What `acw` stores in a row (12 R278). -/
def acwRow (f : EFmt) (n c0 : Nat) (e : Int) (run : List Word) : AccRow :=
  let start : AccRow := { AccRow.empty with e := e }
  let row := (List.range n).foldl (fun (r : AccRow) j =>
    match packedElem f (wordByte run) j with
    | .nan => { r.put (c0 + j) mMin with s := true }
    | .inf neg => { r.put (c0 + j) (if neg then mMin else mMax) with s := true }
    | .zero _ => r
    | .fin m x =>
      let q := roundToInt .rne m (x - e)
      let exact := decide (e ≤ x) || decide (q * 2 ^ (e - x).toNat = m)
      let (q', c) := sat48 q
      { r.put (c0 + j) q' with l := r.l || !exact, s := r.s || c }) start
  { row with h := row.minRb }

/-- Whether a row of a team is bound to a void row of one of its batches (15 R344). -/
def State.idVoided (s : State) (ti id : Nat) : Bool :=
  s.bfqs.any fun q => q.batches.any fun b => b.ti == ti && match b.base with
    | none => false
    | some base => b.rows.zipIdx.any fun ri => ri.1.void && (s.team ti).rows[base + b.step * ri.2]? == some id

/-- Performs one entry on its rows, and writes what it returns. What a voided row holds is not converted for its tenant: it reads as empty
(R264; log 74). -/
def performEntry (s : State) (e : Stream) : State :=
  match e.op with
  | .acz | .void => e.rows.foldl (fun s r => s.setAccRow r .empty) s
  | .acn k => e.rows.foldl (fun s r => s.setAccRow r ((s.accRow r).acn k)) s
  | .ach => match e.rows with
    | r :: _ => s.modThread e.ti e.gi e.lane fun t => (t.late e.id 0 (BitVec.ofNat 32 (s.accRow r).header)).clearPend e.id
    | [] => s
  | .acr f n c0 => match e.rows with
    | r :: _ =>
      let row := if s.idVoided e.ti r then .empty else s.accRow r
      let ws := packWords (ewidth f) ((List.range n).map fun j => encodeElem f .rne (row.num (c0 + j)))
      s.modThread e.ti e.gi e.lane fun t =>
        ((List.range ws.length).foldl (fun t i => t.late e.id i (ws.getD i 0)) t).clearPend e.id
    | [] => s
  | .acrImg off => match e.rows with
    | r :: _ => s.scratchWrite e.ti (s.group e.ti e.gi).pcore off (s.accRow r).image
    | [] => s
  | .acw f n c0 x run => match e.rows with
    | r :: _ => s.setAccRow r (acwRow f n c0 x run)
    | [] => s
  | .acwImg bs => match e.rows with
    | r :: _ => s.setAccRow r (AccRow.ofImage bs)
    | [] => s
  | _ => s

/-- Whether an entry is an accumulator instruction or a voiding. -/
def Stream.isAcc (e : Stream) : Bool := match e.op with
  | .pass _ | .sample _ => false
  | _ => true

/-- Performs a given entry, removes it, and lowers the tile count once its instruction is complete (R280). -/
def State.doEntry (s : State) (clu : Nat) (e : Stream) : State :=
  let s := performEntry s e
  let s := { s with streams := s.streams.erase e }
  let counted := match e.op with
    | .void => false
    | _ => true
  let s := if counted && !(s.streams.any fun x => x.id == e.id) then s.tilesDown e.ti [e.gi] else s
  s.tryRows clu

/-- ACC_STREAM_PERFORM (12 R258, R275 to R280): the first accumulator entry that stands first in all its streams. -/
def execAccStreamPerform (clu : Nat) (s : State) : Out :=
  .next <|
    match (heads [] (s.streamsOf clu)).find? Stream.isAcc with
    | none => s
    | some e => s.doEntry clu e

end Sys2Proof.Machine
end

