-- ==== Sys2Proof/Machine/Batch.lean ====
section
/-! DEFINITION. Batch-forming queues: `bfq.post`, `bfq.take`, `bfq.done`, `bfq.done.wd`.

Rules of spec/: 12 R264; 15 R342 to R349; 21 R417. -/

namespace Sys2Proof.Machine

/-- The queue of a key on a die; without an entry it is unbound and empty. -/
def State.bfq (s : State) (die key : Nat) : Bfq :=
  (s.bfqs.find? fun q => q.die == die && q.key == key).getD ⟨die, key, [], [], [], []⟩

/-- Whether a queue is bound (R342): it holds rows, a poster or a taken batch. -/
def Bfq.bound (q : Bfq) : Bool := !(q.rows.isEmpty && q.posters.isEmpty && q.batches.isEmpty)

/-- Replaces a queue; one that holds nothing, not even a waiting take, is not kept. -/
def State.setBfq (s : State) (q : Bfq) : State :=
  let same (x : Bfq) : Bool := x.die == q.die && x.key == q.key
  if s.bfqs.any same then
    { s with bfqs := (s.bfqs.map fun x => if same x then q else x).filter fun x => x.bound || !x.takes.isEmpty }
  else if q.bound || !q.takes.isEmpty then { s with bfqs := s.bfqs ++ [q] }
  else s

/-- Whether a row belongs to a lane. -/
def BRow.isOf (r : BRow) (p : Nat × Nat × Nat) : Bool := r.ti == p.1 && r.gi == p.2.1 && r.lane == p.2.2

/-- Whether a round can form for a target (R342). -/
def Bfq.ready (q : Bfq) (t : Nat) : Bool :=
  decide (t ≤ q.rows.length) || (!q.rows.isEmpty && q.posters.all fun p => q.rows.any fun r => r.isOf p)

/-- The scratchpad entry of a row (R348). -/
def BRow.entry (r : BRow) : List Byte :=
  natBytes 8 r.value.toNat ++ natBytes 4 (r.core * 1024 + r.gi * 64 + r.lane) ++ natBytes 4 (r.fn + bitAt r.void 6)

/-- Rows of a batch that are not void. -/
def Batch.live (b : Batch) : Nat := (b.rows.filter fun r => !r.void).length

/-- The batches of a team are no longer its current one. -/
def Bfq.notCurrent (ti : Nat) (q : Bfq) : Bfq :=
  { q with batches := q.batches.map fun b => if b.ti == ti then { b with cur := false } else b }

/-- The batch of a take is written and its run goes on (R343, R348). -/
def State.giveBatch (s : State) (k : BTake) (rows : List BRow) : State :=
  let pc := (s.group k.ti k.gi).pcore
  let s := s.scratchWrite k.ti pc (16 * k.so) (rows.flatMap BRow.entry)
  let s := s.modTeam k.ti fun t => { t with batchRows := rows.length }
  let s := { s with bfqs := s.bfqs.map (Bfq.notCurrent k.ti) }
  s.modLanes k.ti k.gi k.lanes fun _ t => (t.setV k.d (BitVec.ofNat 32 rows.length)).resume

/-- BFQ_ROUND_FORM (95; R342): rounds form for the oldest waiting takes. -/
def State.formRounds : Nat → Nat → Nat → State → State
  | 0, _, _, s => s
  | fuel + 1, die, key, s =>
    let q := s.bfq die key
    match q.takes with
    | [] => s
    | k :: rest =>
      if !q.ready k.target then s
      else
        let rows := q.rows.take k.target
        let s := s.giveBatch k rows
        let q := s.bfq die key
        let b : Batch := ⟨k.ti, (s.group k.ti k.gi).pcore, true, k.so, k.base, k.step, rows⟩
        State.formRounds fuel die key (s.setBfq { q with takes := rest, rows := q.rows.drop k.target, batches := q.batches ++ [b] })

/-- Examines a queue. -/
def State.examineBfq (s : State) (die key : Nat) : State := s.formRounds ((s.bfq die key).takes.length) die key

/-- The owner function of a team. -/
def State.fnOf (s : State) (ti : Nat) : Nat := match s.nodeOf ti with
  | some n => n.fn
  | none => 0

/-- Whether a lane has a row in an unformed round, or in a batch that is not done (R347). -/
def Bfq.hasRow (q : Bfq) (p : Nat × Nat × Nat) : Bool :=
  q.rows.any (·.isOf p) || q.batches.any fun b => b.rows.any (·.isOf p)

/-- Withdraws a lane from a queue and examines it. -/
def State.withdrawPoster (s : State) (die key : Nat) (p : Nat × Nat × Nat) : State :=
  let q := s.bfq die key
  if q.posters.contains p then (s.setBfq { q with posters := q.posters.erase p }).examineBfq die key else s

/-- Withdraws a lane from the queues of a key, whatever the die on which it posted (R349). -/
def State.withdrawKey (s : State) (key : Nat) (p : Nat × Nat × Nat) : State :=
  ((s.bfqs.filter (·.key == key)).map (·.die)).foldl (fun s d => s.withdrawPoster d key p) s

/-- Withdraws a lane from every queue: what its exit does (R342). -/
def State.withdrawAll (s : State) (p : Nat × Nat × Nat) : State :=
  (s.bfqs.map fun q => (q.die, q.key)).foldl (fun s dk => s.withdrawPoster dk.1 dk.2 p) s

/-- `bfq.post` (R343, R347): the rows of one issue join in one step, in lane order, and a round is examined after the last (21 R417); a lane whose
earlier row is not done waits. DESIGN CHOICE (log 122): of a lane to which status 2 and status 1 both apply 2 is written. -/
def execBfqPost (g : Guard) (d : RegIx) (a : Src) (b : SrcB) : State → Out :=
  ordinary .all g (d.toNat :: srcRegs 64 a ++ srcBRegs 32 b) fun c act s =>
    let core := s.coreOf c.ti c.gi
    let die := dieOfCore core
    let fn := s.fnOf c.ti
    let key (l : Nat) : Nat := (srcB32 (s.thread c.ti c.gi l) b).toNat
    let wt := act.filter fun l =>
      !s.releaseOk c.ti c.gi l .dev s.nextId || s.bfqs.any fun q => q.hasRow (c.ti, c.gi, l)
    if !wt.isEmpty then .stall wt
    else
      let s1 := act.foldl (fun (s' : State) l =>
        let q := s'.bfq die (key l)
        let put (s' : State) (x : Word) : State := s'.modThread c.ti c.gi l fun t => t.setV d.toNat x
        if s'.module.resetting.contains fn then put s' 2
        else if !q.bound && decide (Config.bfqPerDie ≤ (s'.bfqs.filter fun x => x.die == die && x.bound).length) then put s' 1
        else
          let row : BRow := ⟨operand (s.thread c.ti c.gi l) 64 a, c.ti, c.gi, l, core, fn, false⟩
          let p := (c.ti, c.gi, l)
          put (s'.setBfq { q with rows := q.rows ++ [row], posters := if q.posters.contains p then q.posters else q.posters ++ [p] }) 0) s
      .done ((dedupNat (act.map key)).foldl (fun s k => s.examineBfq die k) s1)

/-- The checks of `bfq.take` (R348). Steps 2 and 4 give `sy.tval` no value. -/
def takeChecks (s : State) (ti : Nat) (key : Nat) (ctl base : Word) : Option (Nat × DWord) :=
  let n := ctl.toNat
  let t := bitsN n 8 0
  let so := bitsN n 31 16
  let step := if bitN n 9 then 2 else 1
  let team := s.team ti
  if bitsN n 15 10 != 0 || decide (t < 1) || decide (256 < t) then some (0x0A, ctl.setWidth 64)
  else if s.bfqs.any fun q => q.key == key && q.batches.any fun b => b.ti == ti then some (0x10, Config.openTval s.clock)
  else if team.carve < so * 16 + 16 * t then some (0x06, BitVec.ofNat 64 (so * 16))
  else if base != 0xFFFFFFFF && decide (team.rows.length ≤ base.toNat + step * (t - 1)) then some (0x0A, Config.openTval s.clock)
  else none

/-- `bfq.take` (R348): once for the run, with the operands of its lowest active lane. -/
def execBfqTake (g : Guard) (d : RegIx) (a : Src) (b : SrcB) (cr : Src) : State → Out :=
  ordinary .all g (d.toNat :: srcRegs 32 a ++ srcBRegs 32 b ++ srcRegs 32 cr) fun c act s =>
    match act with
    | [] => .done s
    | l0 :: _ =>
      let t := s.thread c.ti c.gi l0
      let key := (src32 t a).toNat
      let ctl := srcB32 t b
      let base := src32 t cr
      match takeChecks s c.ti key ctl base with
      | some (cause, v) => .trap cause v
      | none =>
        let n := ctl.toNat
        let die := dieOfCore (s.coreOf c.ti c.gi)
        let k : BTake := ⟨c.ti, c.gi, act, d.toNat, bitsN n 8 0, bitsN n 31 16, if base == 0xFFFFFFFF then none else some base.toNat,
          if bitN n 9 then 2 else 1⟩
        let s := s.modLanes c.ti c.gi act fun _ t => t.wait c .bfqTake
        let q := s.bfq die key
        .moved ((s.setBfq { q with takes := q.takes ++ [k] }).examineBfq die key)

/-- The queue that holds a team's batch of a key. -/
def State.batchOf (s : State) (ti key : Nat) : Option (Bfq × Batch) :=
  s.bfqs.findSome? fun q => if q.key == key then (q.batches.find? (·.ti == ti)).map fun b => (q, b) else none

/-- `bfq.done` (R349). -/
def execBfqDone (g : Guard) (d : RegIx) (a : Src) : State → Out :=
  ordinary .all g (d.toNat :: srcRegs 32 a) fun c act s =>
    match act with
    | [] => .done s
    | l0 :: _ =>
      let put (s : State) (x : Word) : State := s.modLanes c.ti c.gi act fun _ t => t.setV d.toNat x
      match s.batchOf c.ti (src32 (s.thread c.ti c.gi l0) a).toNat with
      | none => .done (put s 0x80000000)
      | some (q, b) =>
        let st := b.live + bitAt (b.rows.any (·.void)) 9
        let s := s.setBfq { q with batches := q.batches.erase b }
        .done (put (s.modTeam c.ti fun t => { t with batchRows := 0 }) (BitVec.ofNat 32 st))

/-- `bfq.done.wd` (R349): each lane withdraws as a poster of its own key. -/
def execBfqDoneWd (g : Guard) (d : RegIx) (a : Src) : State → Out :=
  ordinary .all g (d.toNat :: srcRegs 32 a) fun c act s =>
    .done (act.foldl (fun s' l =>
      (s'.withdrawKey (src32 (s.thread c.ti c.gi l) a).toNat (c.ti, c.gi, l)).modThread c.ti c.gi l fun t => t.setV d.toNat 0) s)

/-! ### Voiding the rows of a tenant, R344 -/

/-- Empties the row that entry `i` of a batch is bound to (12 R264): through its row stream, or, where the team is saved and no engine holds its
rows, in the row that its slot holds. -/
def State.voidBound (s : State) (b : Batch) (i : Nat) : State :=
  match b.base with
  | none => s
  | some base =>
    let t := s.team b.ti
    match t.rows[base + b.step * i]?, t.place with
    | none, _ => s
    | some id, .saved _ => s.setAccRow id .empty
    | some id, _ =>
      let (n, s) := s.fresh
      { s with streams := s.streams ++ [(⟨n, cluOfCore (t.cores.getD 0 0), b.ti, 0, 0, [id], .void⟩ : Stream)] }

/-- Voids row `i` of a batch: the VOID bit of its scratchpad entry is set, bit 102, and the row it is bound to is emptied. -/
def State.voidRow (s : State) (b : Batch) (i : Nat) : State :=
  let at' := 16 * b.so + 16 * i + 12
  let s := s.scratchWrite b.ti b.pcore at' [Sparse.get 0#8 ((s.team b.ti).scratch b.pcore) at' ||| 0x40]
  let s := if b.cur then s.modTeam b.ti fun t => { t with batchRows := t.batchRows - 1 } else s
  s.voidBound b i

/-- The untaken rows of function `f` leave a queue; those of taken batches are void. -/
def Bfq.dropFunction (f : Nat) (q : Bfq) : Bfq :=
  { q with rows := q.rows.filter (fun r => r.fn != f),
           batches := q.batches.map fun b => { b with rows := b.rows.map fun r => if r.fn == f then { r with void := true } else r } }

/-- The untaken rows of function `f` leave every queue. -/
def State.dropUntaken (s : State) (f : Nat) : State :=
  { s with bfqs := (s.bfqs.map fun q => { q with rows := q.rows.filter fun r => r.fn != f }).filter fun q => q.bound || !q.takes.isEmpty }

/-- A reset of function `f` in the batch-forming queues. -/
def State.voidFunction (s : State) (f : Nat) : State :=
  let s := s.bfqs.foldl (fun s q => q.batches.foldl (fun s b =>
    (b.rows.zipIdx).foldl (fun s ri => if ri.1.fn == f && !ri.1.void then s.voidRow b ri.2 else s) s) s) s
  { s with bfqs := (s.bfqs.map (Bfq.dropFunction f)).filter fun q => q.bound || !q.takes.isEmpty }

end Sys2Proof.Machine
end

