-- ==== Sys2Proof/Machine/Ends.lean ====
section
/-! DEFINITION. The end of threads, teams and nodes.

Rules of spec/: 05 R107; 07 R162; 08 R171; 12 R272; 14 R304, R319; 15 R334, R342. -/

namespace Sys2Proof.Machine

/-- Whether every thread of a team has exited, or the team is gone. -/
def Team.over (t : Team) : Bool :=
  t.place == .gone || (t.place != .waiting && t.groups.all fun g => g.live.isEmpty)

/-- Frees what a team holds on its core: registers, rows, its core slot. -/
def State.freeTeam (s : State) (ti : Nat) (place : Place) : State :=
  let t := s.team ti
  let s := s.modTeam ti fun t => { t with place := place }
  t.cores.foldl (fun s core => (s.tryRegs core).tryRows (cluOfCore core)) s

/-- A team whose threads have exited leaves its core once its chains have written their tokens (07 R162): its rows and its core slot go (01 N33), and its blocks
but for those with a register that is still pending (08 R171, R175). -/
def State.endTeam (s : State) (ti : Nat) : State :=
  let t := s.team ti
  if t.place == .resident && t.over && !s.hasChain ti && !(s.dies.any fun d => d.fwTeam == some ti) then
    let s := s.modTeam ti fun t => { t with rows := [], groups := t.groups.map Group.shrink }
    s.freeTeam ti .gone
  else s

/-- Whether chains and passes issued by a node have run to completion (05 R107, step 2). -/
def State.quiet (s : State) (node : Nat) : Bool :=
  (s.gridTeams node).all fun ti => !s.hasChain ti && !s.streams.any fun e => e.ti == ti

/-- A node whose teams are all over begins to die; one without arenas is complete when its chains and passes are. -/
def State.endNode (s : State) (node : Nat) : State :=
  match s.nodes[node]? with
  | none => s
  | some n =>
    let ended := (s.gridTeams node).all fun ti => (s.team ti).over
    if n.st == .running && ended then s.modNode node fun n => { n with st := if n.arenas.isEmpty && s.quiet node then .complete else .dying }
    else if n.st == .dying && n.arenas.isEmpty && s.quiet node then s.modNode node fun n => { n with st := .complete }
    else s

/-- Ends every team and node that can end now. -/
def State.settleEnds (s : State) : State :=
  let s := (List.range s.teams.length).foldl State.endTeam s
  (List.range s.nodes.length).foldl State.endNode s

/-- The threads of lanes end (14 R319). -/
def State.exitLanes (s : State) (ti gi : Nat) (lanes : List Nat) : State :=
  let s := s.modLanes ti gi lanes fun _ t => { t with exited := true, claim := 0, item := none, hold := .none, yielded := false }
  let s := if s.keepsRegs ti gi then s else s.releaseRegs ti gi
  let s := lanes.foldl (fun s l => s.withdrawAll (ti, gi, l)) s
  s.abandonAll ti

/-- `exit` (14 R319): each active lane retires its item and ends. -/
def execExit (g : Guard) : State → Out :=
  ordinary .all g [] fun c act s =>
    let w := retireWaits s c act
    if !w.isEmpty then .stall w
    else .moved ((((retireAll s c act).exitLanes c.ti c.gi act).settleGrid (s.team c.ti).node).settleEnds)

end Sys2Proof.Machine
end

