-- ==== Sys2Proof/Machine/Control.lean ====
section
/-! DEFINITION. Control flow, barriers, naps and notification.

Rules of spec/: 14 R297, R312 to R322. -/

namespace Sys2Proof.Machine

/-- `nop` (14 R319). -/
def execNop : State → Out := ordinary .all .always [] fun _ _ s => .done s

/-! ### Branches, R318 -/

/-- The active lanes branch, after writing their return address to pair `link` if any. -/
def branchTo (c : Cur) (act : List Nat) (s : State) (link : Option RegIx) (target : Thread → DWord) : Res :=
  .moved (s.modLanes c.ti c.gi act fun _ t =>
    let t' := match link with
      | some d => t.setD d.toNat (c.pc + BitVec.ofNat 64 c.len)
      | none => t
    { t' with pc := target t, hold := .none })

/-- A branch to a displacement in words. -/
def branchDisp (g : Guard) (link : Option RegIx) (b : SrcB) : State → Out :=
  ordinary .all g ((match link with | some d => regRegs 64 d | none => []) ++ srcBRegs 32 b) fun c act s =>
    branchTo c act s link fun t => c.pc + 8 * (srcB32 t b).signExtend 64

/-- A branch to an address: misaligned, no lane branches. -/
def branchReg (g : Guard) (link : Option RegIx) (a : Src) : State → Out :=
  ordinary .all g ((match link with | some d => regRegs 64 d | none => []) ++ srcRegs 64 a) fun c act s =>
    let target (t : Thread) : DWord := operand t 64 a
    match act.find? fun l => (target (s.thread c.ti c.gi l)).toNat % 8 != 0 with
    | some l => .trap 0x04 (target (s.thread c.ti c.gi l))
    | none => branchTo c act s link target

/-- `br` (14 R318). -/
def execBr (g : Guard) (b : SrcB) : State → Out := branchDisp g none b
/-- `bri` (14 R318). -/
def execBri (g : Guard) (a : Src) : State → Out := branchReg g none a
/-- `call` (14 R318). -/
def execCall (g : Guard) (d : RegIx) (b : SrcB) : State → Out := branchDisp g (some d) b
/-- `calli` (14 R318). -/
def execCalli (g : Guard) (d : RegIx) (a : Src) : State → Out := branchReg g (some d) a
/-- `ret` (14 R318). -/
def execRet (g : Guard) (a : Src) : State → Out := branchReg g none a

/-- `yield` (14 R297): sets the flags of its active lanes; `step` clears the others'. -/
def execYield (g : Guard) : State → Out :=
  ordinary .all g [] (perLane fun _ _ t => { t with yielded := true })

/-! ### Barriers, R312, R313, R320 -/

/-- One arrival, of a lane that names a count or of an MCAST: the phase completes once the count is fixed and reached. -/
def Barrier.arrive (b : Barrier) (n : Option Nat) : Barrier :=
  let count := match n with
    | some k => if b.count = 0 then k else b.count
    | none => b.count
  if decide (0 < count) && decide (count ≤ b.arrivals + 1) then ⟨b.phase + 1, b.arrivals + 1 - count, 0⟩
  else ⟨b.phase, b.arrivals + 1, count⟩

/-- Barrier `b` of a team. -/
def Team.bar (t : Team) (b : Nat) : Barrier := t.bars.getD b ⟨0, 0, 0⟩

/-- Lets the lanes go on that wait for a phase which is over: an acquire at place `now` in the order of issue (13 R289). -/
def Team.passBarriers (t : Team) (now : Nat) : Team :=
  t.mapThreads fun x => match x.hold with
    | .barrier b ph => if ph < (t.bar b).phase then { x.resume with acqT := now } else x
    | _ => x

/-- An arrival at barrier `b` of a team. -/
def Team.arrive (t : Team) (b : Nat) (n : Option Nat) : Team := { t with bars := updAt t.bars b fun x => x.arrive n }

/-- A lane arrives: it records the phase of its arrival. -/
def State.laneArrives (s : State) (ti gi l b n : Nat) : State :=
  let ph := ((s.team ti).bar b).phase
  (s.modThread ti gi l fun t => { t with arrived := Sparse.put t.arrived b (ph + 1) }).modTeam ti fun t => t.arrive b (some n)

/-- The phase that a lane waits to see exceeded at a barrier (R320). -/
def Thread.waitPhase (t : Thread) (bar : Barrier) (b : Nat) : Nat := match Sparse.get 0 t.arrived b with
  | 0 => bar.phase
  | ph + 1 => ph

/-- Active lanes wait at a barrier; those whose phase is over go on at once. -/
def State.waitBarrier (s : State) (c : Cur) (act : List Nat) (b : Nat) : State :=
  let bar := (s.team c.ti).bar b
  (s.modLanes c.ti c.gi act fun _ t => t.wait c (.barrier b (t.waitPhase bar b))).modTeam c.ti fun t => t.passBarriers (s.nextId + 1)

/-- The arrivals of an issue, and the lanes that must wait for their earlier accesses first (R313). -/
def arrivals (s : State) (c : Cur) (act : List Nat) (b : Nat) (n : Nat → Nat) : Option Res × State :=
  let bar := (s.team c.ti).bar b
  let first := match act with
    | l :: _ => n l
    | [] => 0
  if (act.any fun l => decide (n l < 1) || decide (4095 < n l) || n l != first || (bar.count != 0 && n l != bar.count)) then
    (some (.trap 0x09 (BitVec.ofNat 64 b)), s)
  else
    let w := act.filter fun l => !s.releaseOk c.ti c.gi l .team s.nextId
    if !w.isEmpty then (some (.stall w), s)
    else (none, act.foldl (fun s l => s.laneArrives c.ti c.gi l b (n l)) (s.publish c.ti c.gi act))

/-- `bar` (14 R320). -/
def execBar (g : Guard) (n : SrcB) (b : BitVec 4) : State → Out :=
  ordinary .all g (srcBRegs 32 n) fun c act s =>
    match arrivals s c act b.toNat fun l => (srcB32 (s.thread c.ti c.gi l) n).toNat with
    | (some r, _) => r
    | (none, s) => .moved (s.waitBarrier c act b.toNat)

/-- `bar.arr` (14 R320). -/
def execBarArr (g : Guard) (n : SrcB) (b : BitVec 4) : State → Out :=
  ordinary .all g (srcBRegs 32 n) fun c act s =>
    match arrivals s c act b.toNat fun l => (srcB32 (s.thread c.ti c.gi l) n).toNat with
    | (some r, _) => r
    | (none, s) => .done (s.modTeam c.ti fun t => t.passBarriers (s.nextId + 1))

/-- `bar.wt` (14 R320). -/
def execBarWt (g : Guard) (b : BitVec 4) : State → Out :=
  ordinary .all g [] fun c act s => .moved (s.waitBarrier c act b.toNat)

/-! ### Naps and wakes, R321, R322 -/

/-- `nap` (14 R321). -/
def execNap (g : Guard) (d : RegIx) (lim : SrcB) (ch : BitVec 4) : State → Out :=
  ordinary .all g (d.toNat :: srcBRegs 32 lim) fun c act s =>
    let now := s.cycOf c.ti c.gi
    let s := s.modLanes c.ti c.gi act fun _ t =>
      let n := (srcB32 t lim).toNat
      t.wait c (.nap ch.toNat d.toNat (if n = 0 then none else some (now + n)))
    .moved (s.modTeam c.ti fun t => t.serveNaps ch.toNat)

/-- NAP_TIMEOUT (14 R321): a lane whose limit has passed receives 0. -/
def execNapTimeout (ti gi lane : Nat) (s : State) : Out :=
  .next (s.modThread ti gi lane fun t => match t.hold with
    | .nap _ d (some dl) => if dl ≤ s.cycOf ti gi && (s.team ti).place == .resident then (t.setV d 0).resume else t
    | _ => t)

/-- The wake of a lane's `ntfy`; a team number at or above `nteam` is discarded (R314). -/
def ntfyWake (s : State) (c : Cur) (t : Thread) (a : Src) (v : SrcB) (ch : Nat) : Option Wake :=
  (s.gridTeam (s.team c.ti).node (src32 t a).toNat).map fun ti => ⟨ti, ch, srcB32 t v⟩

/-- Whether the wake of an `ntfy` may go: the release that it is has been performed (14 R314). -/
def State.wakeReady (s : State) (w : SentWake) : Bool := s.releaseOk w.ti w.gi w.lane .dev w.t

/-- Delivers the wakes on their way whose releases have been performed, in the order of issue. -/
def State.settleWakes (s : State) : State :=
  (s.wakes.filter s.wakeReady).foldl (fun s w => s.sendOrWait w.wake) { s with wakes := s.wakes.filter fun w => !s.wakeReady w }

/-- `ntfy` (14 R322): lane by lane; it does not wait for the release of R314, which its wake does. A lane whose wake meets a full kettle waits, and
those after it. -/
def execNtfy (g : Guard) (a : Src) (v : SrcB) (ch : BitVec 4) : State → Out :=
  ordinary .all g (srcRegs 32 a ++ srcBRegs 32 v) fun c act s =>
    let go (l : Nat) (s : State) : State := s.modThread c.ti c.gi l fun t => (t.wait c .none).resume
    .moved (act.foldl (fun (r : Bool × State) l =>
      let stay (s : State) : State := s.modThread c.ti c.gi l fun t => { t with hold := .stall }
      if r.1 then (true, stay r.2)
      else match ntfyWake s c (s.thread c.ti c.gi l) a v ch.toNat with
        | none => (false, go l r.2)
        | some w =>
          let sent : SentWake := ⟨c.ti, c.gi, l, s.nextId, w⟩
          if r.2.kettleFull w then (true, stay r.2)
          else if s.wakeReady sent then (false, (go l r.2).sendWake w)
          else (false, { go l r.2 with wakes := r.2.wakes ++ [sent] })) (false, s)).2

end Sys2Proof.Machine
end

