-- ==== Sys2Proof/Machine/Copy.lean ====
section
/-! DEFINITION. The copy engines: chains, their records, and the instructions on them.

Rules of spec/: 04 R72, R89; 05 R98, R109; 07 R137 to R167; 16 R365; 17 R384. A write of an engine is performed at its home slice, once that
owns the line. -/

namespace Sys2Proof.Machine

/-! ### Chains, R137 to R141 -/

/-- The chain at the head of a core's queue. -/
def State.activeChain (s : State) (core : Nat) : Option Chain := s.chains.find? (·.core == core)
/-- Chain `id`. -/
def State.chain (s : State) (id : Nat) : Option Chain := s.chains.find? (·.id == id)
/-- Changes a chain. -/
def State.modChain (s : State) (id : Nat) (f : Chain → Chain) : State := { s with chains := updIf s.chains (·.id == id) f }

/-- The order of the non-stopping statuses (R140). -/
def statusRank (x : Nat) : Nat := match x with
  | 0x0C => 1
  | 0x06 => 2
  | 0x08 => 3
  | 0x1A => 4
  | 0x18 => 5
  | _ => 0
/-- The worse of two. -/
def worse (a b : Nat) : Nat := if statusRank a < statusRank b then b else a

/-- The token (R139). -/
def tokenWord (status count : Nat) : Word := BitVec.ofNat 32 (2 ^ 31 + status % 128 * 2 ^ 24 + min count 0xFFFFFF)

/-- Whether an entry is the sample of a chain. -/
def Stream.ofChain (e : Stream) (id : Nat) : Bool := match e.op with
  | .sample k => k == id
  | _ => false

/-- Writes a chain's token and ends it (R141, R162). -/
def State.endChain (s : State) (k : Chain) (status count : Nat) : State :=
  let s := s.modThread k.ti k.gi k.lane fun t => (t.late k.id 0 (tokenWord status count)).clearPend k.id
  let s := s.modGroup k.ti k.gi fun g => { g with copies := g.copies - 1 }
  let s := { s with chains := s.chains.filter (·.id != k.id), streams := s.streams.filter fun e => !e.ofChain k.id,
                    faults := s.faults.filter fun f => f.chain != some k.id }
  s.tryRows (cluOfCore k.core)

/-- The fault on which a chain is parked is over. -/
def State.leaveFault (s : State) (k : Chain) : State := match k.st with
  | .parked fid => { s with faults := s.faults.filter (·.fid != fid) }
  | _ => s

/-- Stops a chain: its token is written once the blocks it has sent are answered. A fault on which it is parked goes with the wait for its page
(16 R365). -/
def State.stopChain (s : State) (id status : Nat) : State :=
  match s.chain id with
  | none => s
  | some k =>
    if k.waits.isEmpty then s.endChain k status k.count
    else (s.leaveFault k).modChain id fun k => { k with st := .stopping, status := status }

/-- The chain goes on at another record. -/
def Chain.goto (k : Chain) (off : Nat) : Chain := { k with recOff := off, now := none, p0 := 0, p1 := 0, p2 := 0, dests := [] }

/-- A record is done: the chain goes on at the next one. -/
def State.nextRec (s : State) (id : Nat) : State := s.modChain id fun k => k.goto (k.recOff + 32)

/-- The core of a chain: of one that is saved the first core of its team. -/
def State.chainCore (s : State) (k : Chain) : Nat := if k.core < Config.nCores then k.core else (s.team k.ti).cores.getD 0 0

/-- The translation context of a chain (R137). -/
def State.chainAcx (s : State) (k : Chain) : Acx :=
  ⟨dieOfCore (s.chainCore k), none, s.asidOf k.ti, (s.rootOf k.ti).toNat, k.level⟩

/-- Parks a chain at a page that is not there and raises its fault (R159). -/
def State.parkChain (s : State) (k : Chain) (va : Nat) (w : Bool) : State :=
  let (fid, s) := s.raiseFault
    { fid := 0, die := dieOfCore k.core, cause := 0x05, kind := 3, asid := spaceOf (s.asidOf k.ti) va, va := va, mask := maskOf [k.lane],
      handle := s.handleOf k.ti, core := k.core, grp := k.gi, accR := !w, accW := w, accX := false, slot := 0, posted := false,
      check := false, ti := some k.ti, chain := some k.id }
  s.modChain k.id fun k => { k with st := .parked fid }

/-! ### Ranges that a record reads or writes -/

/-- A piece of a range: scratchpad or physical address, length, key, generation; `dead` if its arena has died. -/
structure Piece where
  addr : Nat
  len : Nat
  key : Nat
  gen : Nat
  dead : Bool
deriving DecidableEq, Repr

/-- What mapping a range gives. -/
inductive Mapped where
  | ok (ps : List Piece)
  | park (va : Nat)
  /-- A walk of the tables must wait. -/
  | later
  | stop
deriving DecidableEq, Repr

/-- Maps the pages of a range, in order (R139, R142, R159; 05 R109). -/
def State.mapPages (s : State) (x : Acx) (w : Bool) : List (Nat × Nat) → Mapped × State
  | [] => (.ok [], s)
  | (va, n) :: rest =>
    match s.translate x (if w then .store else .load) va with
    | (.miss, s) | (.dup, s) => (.park va, s)
    | (.later, s) => (.later, s)
    | (.bad cause, s) =>
      if cause = 0x08 then
        match s.mapPages x w rest with
        | (.ok ps, s) => (.ok (⟨0, n, 0, 0, true⟩ :: ps), s)
        | r => r
      else (.stop, s)
    | (.ok pa key gen, s) =>
      if isDevice pa then (.stop, s)
      else
        match s.mapPages x w rest with
        | (.ok ps, s) => (.ok (⟨pa, n, key, gen, !s.frameLive gen pa⟩ :: ps), s)
        | r => r

/-- Maps a range of a chain's space. -/
def State.mapRange (s : State) (k : Chain) (sp w : Bool) (addr n : Nat) : Mapped × State :=
  if sp then (.ok [⟨addr, n, 0, 0, false⟩], s)
  else
    let pages := pagePieces (addr % 2 ^ 64) n
    let (m, s) := s.mapPages (s.chainAcx k) w pages
    (m, if w then (match m with
      | .ok _ => pages.foldl (fun s p => s.markDirty (s.chainAcx k) p.1) s
      | _ => s) else s)

/-- The scratchpad that a chain's offsets name. -/
def State.chainScratch (s : State) (k : Chain) : Sparse Byte := (s.team k.ti).scratch (s.group k.ti k.gi).pcore

/-- The bytes of a mapped range; none where its arena has died. -/
def State.readPieces (s : State) (k : Chain) (sp : Bool) : List Piece → List (Option Byte) × State
  | [] => ([], s)
  | p :: rest =>
    let (bs, s) :=
      if p.dead then (List.replicate p.len none, s)
      else if sp then ((scratchBytes (s.chainScratch k) p.addr p.len).map some, s)
      else
        let s := (dedupNat ((addrs p.addr p.len).map lineOf)).foldl (fun s l => s.settle l p.key) s
        ((s.cohBytes p.key p.addr p.len).map some, s)
    let (cs, s) := s.readPieces k sp rest
    (bs ++ cs, s)

/-- The cells of data that stand somewhere. -/
def liveCells (addr : Nat) (bs : List (Option Byte)) : List Host.Cell :=
  ((addrs addr bs.length).zip bs).filterMap fun c => c.2.map fun b => (c.1, b)

/-- Writes data over a mapped range; bytes without a value, or bound for a dead arena, are not written. -/
def State.writePieces (s : State) (k : Chain) (sp : Bool) : List Piece → List (Option Byte) → Nat × State
  | [], _ => (0, s)
  | p :: rest, data =>
    let cells := if p.dead then [] else liveCells p.addr (data.take p.len)
    let s :=
      if sp then s.modTeam k.ti fun t =>
        let pc := (t.group k.gi).pcore
        t.setScratch pc (cells.foldl (fun m c => Sparse.set 0#8 m c.1 c.2) (t.scratch pc))
      else (splitLines cells).foldl (fun s cs => s.homeWrite p.key cs) s
    let (n, s) := s.writePieces k sp rest (data.drop p.len)
    (cells.length + n, s)

/-- Whether a chain may access the lines of mapped ranges now, of `rd` to read and of `wr` to write: its die can reach each, no machine check
holds it, and the home slice of each one to be written owns it, which sends invalidations where it does not (05 R98). -/
def State.tryAccess (s : State) (die : Nat) (rd wr : List Nat) : Bool × State :=
  if rd.all (fun l => s.open' die (128 * l) true false) && wr.all fun l => s.open' die (128 * l) false true then
    let (s, busy) := s.ownLines wr
    (!busy, s)
  else (false, s)

/-- The same for an agent that is none of a core's accesses: what it cannot reach it waits for from now on (04 R75). -/
def State.access (s : State) (die : Nat) (rd wr : List Nat) : Bool × State :=
  match s.tryAccess die rd wr with
  | (true, s) => (true, s)
  | (false, s) => (false, (rd ++ wr).foldl (fun s l => s.awaitPeer die (128 * l)) s)

/-- The lines of a mapped range, none of a scratchpad. -/
def pieceLines (sp : Bool) (ps : List Piece) : List Nat :=
  if sp then [] else dedupNat ((ps.filter fun p => !p.dead).flatMap fun p => (addrs p.addr p.len).map lineOf)

/-- The same for a chain's mapped ranges. -/
def State.reachRanges (s : State) (k : Chain) (rd wr : List Nat) : Bool × State := s.tryAccess (dieOfCore (s.chainCore k)) rd wr

/-- The part of a mapped range from an offset on. -/
def subPieces : List Piece → Nat → Nat → List Piece
  | [], _, _ => []
  | p :: rest, off, n =>
    if p.len ≤ off then subPieces rest (off - p.len) n
    else
      let m := min n (p.len - off)
      { p with addr := p.addr + off, len := m } :: if m < n then subPieces rest 0 (n - m) else []

/-- Adds to a chain's COUNT, and the status of a dead arena if one was met. -/
def State.counted (s : State) (k : Chain) (n : Nat) (dead : Bool) : State :=
  s.modChain k.id fun k => { k with count := k.count + n, status := if dead then worse k.status 0x08 else k.status }

/-- The carve-out of a chain's team. -/
def State.chainCarve (s : State) (k : Chain) : Nat := (s.team k.ti).carve

/-! ### Reaching a record, R142 -/

/-- What reaching a record does to the chain: its checks, in order chain error, misalignment, protection, then its own effect. -/
def reach (core : Nat) (i : Instr) (f : State → Chain → State) (s : State) : Out :=
  .next <|
    match s.activeChain core with
    | none => s
    | some k =>
      if k.st != .walking || k.now.isSome || k.endSeen then s
      else if !i.wf then s.stopChain k.id 0x0D
      else f s k

/-- Keeps the record that was read. -/
def State.latch (s : State) (k : Chain) (i : Instr) : State := s.modChain k.id fun k => { k with now := some i }

/-- Stops the chain unless a list of checks holds: misalignment (0x04), then protection (0x06), then the rest. -/
def checked (s : State) (k : Chain) (aligned ranges : Bool) (rest : Option Nat) (f : State) : State :=
  if !aligned then s.stopChain k.id 0x04
  else if !ranges then s.stopChain k.id 0x06
  else match rest with
    | some st => s.stopChain k.id st
    | none => f

/-! ### MOVE, R144, R145 -/

/-- The source, or destination, address of row `k1` of plane `k2`, as an exact integer. -/
def moveAddr (bias : DWord) (base : DWord) (step1 step2 : BitVec 16) (sh : BitVec 4) (k1 k2 : Nat) : Int :=
  bias.toInt + base.toNat + (step1.toInt * k1 + step2.toInt * k2) * 2 ^ sh.toNat
/-- The source address of a row. -/
def moveSrc (r : MoveRec) (k : Chain) (k1 k2 : Nat) : Int := moveAddr k.sb r.src r.sstep1 r.sstep2 r.ssh k1 k2
/-- The destination address of a row. -/
def moveDst (r : MoveRec) (k : Chain) (k1 k2 : Nat) : Int := moveAddr k.db r.dst r.dstep1 r.dstep2 r.dsh k1 k2

/-- Whether every row lies in the carve-out: the extreme rows do. -/
def rowsIn (carve : Nat) (r : MoveRec) (f : Nat → Nat → Int) : Bool :=
  let c1 := r.cnt1.toNat - 1
  let c2 := r.cnt2.toNat - 1
  [f 0 0, f c1 0, f 0 c2, f c1 c2].all fun a => decide (0 ≤ a) && decide (a + r.len0.toNat ≤ carve)

/-- MOVE (07 R144). -/
def execMove (core : Nat) (r : MoveRec) : State → Out :=
  reach core (.move core r) fun s k =>
    let carve := s.chainCarve k
    checked s k true ((!r.ssp || rowsIn carve r (moveSrc r k)) && (!r.dsp || rowsIn carve r (moveDst r k))) none (s.latch k (.move core r))

/-- Copies bytes one at a time: what R145 prescribes where source and destination may overlap. -/
def State.copyBytes (s : State) (k : Chain) (sp : Bool) : Nat → List Piece → List Piece → Nat × State
  | 0, _, _ => (0, s)
  | n + 1, sps, dps =>
    match sps, dps with
    | a :: as, b :: bs =>
      let (data, s) := s.readPieces k sp [{ a with len := 1 }]
      let (m, s) := s.writePieces k sp [{ b with len := 1 }] data
      let next (p : Piece) (ps : List Piece) : List Piece :=
        if p.len ≤ 1 then ps else { p with addr := p.addr + 1, len := p.len - 1 } :: ps
      let (m', s) := s.copyBytes k sp n (next a as) (next b bs)
      (m + m', s)
    | _, _ => (0, s)

/-- The position after `n` bytes of a row. -/
def moveNext (r : MoveRec) (k : Chain) (n : Nat) : Option Chain :=
  if k.p0 + n < r.len0.toNat then some { k with p0 := k.p0 + n }
  else if k.p1 + 1 < r.cnt1.toNat then some { k with p0 := 0, p1 := k.p1 + 1 }
  else if k.p2 + 1 < r.cnt2.toNat then some { k with p0 := 0, p1 := 0, p2 := k.p2 + 1 }
  else none

/-- The bytes that a burst writes from a destination on, of `n` that it may write and `rest` that are to be written: a burst in the scratchpad that
is not the last ends between two aligned units of 8 bytes, since each is written in one step (07 R158). -/
def burstBytes (sp : Bool) (da n rest : Nat) : Nat := if sp && decide (n < rest) then n - (da + n) % 8 else n

/-- The destination address of the next burst of a MOVE. -/
def moveTo (r : MoveRec) (k : Chain) : Nat := ((moveDst r k k.p1 k.p2 + k.p0) % 2 ^ 64).toNat
/-- The source address of the next burst of a MOVE. -/
def moveFrom (r : MoveRec) (k : Chain) : Nat := ((moveSrc r k k.p1 k.p2 + k.p0) % 2 ^ 64).toNat
/-- The bytes of the next burst of a MOVE: at most 4 KiB of one row. -/
def moveLen (r : MoveRec) (k : Chain) : Nat :=
  let rest := r.len0.toNat - k.p0
  burstBytes r.dsp (moveTo r k) (min 4096 rest) rest

/-- One burst of a MOVE. -/
def moveBurst (s : State) (k : Chain) (r : MoveRec) : State :=
  let n := moveLen r k
  let sa := moveFrom r k
  let da := moveTo r k
  match s.mapRange k r.ssp false sa n with
  | (.park va, s) => s.parkChain k va false
  | (.later, s) => s
  | (.stop, s) => s.stopChain k.id 0x06
  | (.ok sps, s) =>
    match s.mapRange k r.dsp true da n with
    | (.park va, s) => s.parkChain k va true
    | (.later, s) => s
    | (.stop, s) => s.stopChain k.id 0x06
    | (.ok dps, s) =>
      match s.reachRanges k (pieceLines r.ssp sps) (pieceLines r.dsp dps) with
      | (false, s) => s
      | (true, s) =>
        let (m, s) :=
          if r.ssp == r.dsp then s.copyBytes k r.ssp n sps dps
          else
            let (data, s) := s.readPieces k r.ssp sps
            s.writePieces k r.dsp dps data
        let s := s.counted k m ((sps ++ dps).any (·.dead))
        match moveNext r k n with
        | some k' => s.modChain k.id fun k => { k with p0 := k'.p0, p1 := k'.p1, p2 := k'.p2 }
        | none => s.nextRec k.id

/-! ### MCAST, R146, R147 -/

/-- The team of a chain's grid on a core of its cluster, with its place in the pair. -/
def State.mcastTeam (s : State) (k : Chain) (core : Nat) : Option (Nat × Nat) :=
  (s.gridTeams (s.team k.ti).node).findSome? fun ti =>
    let t := s.team ti
    if t.place == .resident then (t.cores.findIdx? (· == core)).map fun p => (ti, p) else none

/-- The cores that MASK names, ascending. -/
def mcastCores (core : Nat) (mask : BitVec 4) : List Nat :=
  ((List.range 4).filter fun i => mask.getLsbD i).map (cluOfCore core * 4 + ·)

/-- MCAST (07 R146): at its reach the destinations are checked and kept. -/
def execMcast (core : Nat) (r : McastRec) : State → Out :=
  reach core (.mcast core r) fun s k =>
    let cores := mcastCores core r.mask
    let found := cores.filterMap (s.mcastTeam k)
    if found.length != cores.length || decide (s.chainCarve k < r.len.toNat) then s.stopChain k.id 0x0D
    else
      checked s k true
        ((!r.ssp || decide (r.src.toNat + r.len.toNat ≤ s.chainCarve k)) &&
          found.all fun d => decide (r.doff.toNat + r.len.toNat ≤ (s.team d.1).carve))
        none
        (s.modChain k.id fun k => { k with now := some (.mcast core r), dests := found })

/-- Writes the bytes to one destination and signals its barrier. What that changes in a saved team reaches its context area at the end of the step
(R147). -/
def State.mcastTo (s : State) (r : McastRec) (data : List (Option Byte)) (d : Nat × Nat) : State :=
  let cells := liveCells r.doff.toNat data
  let s := s.modTeam d.1 fun t => t.setScratch d.2 (cells.foldl (fun m c => Sparse.set 0#8 m c.1 c.2) (t.scratch d.2))
  let s := if r.nosig then s else (s.modTeam d.1 fun t => t.arrive r.bar.toNat none)
  match (s.team d.1).place with
  | .saved _ => s.touchSaved d.1
  | .resident => s.modTeam d.1 fun t => t.passBarriers (s.nextId + 1)
  | _ => s

/-- The whole of an MCAST: the source is read once, the cores are written and signalled in ascending order. -/
def mcastBurst (s : State) (k : Chain) (r : McastRec) : State :=
  match s.mapRange k r.ssp false r.src.toNat r.len.toNat with
  | (.park va, s) => s.parkChain k va false
  | (.later, s) => s
  | (.stop, s) => s.stopChain k.id 0x06
  | (.ok ps, s) =>
    match s.reachRanges k (pieceLines r.ssp ps) [] with
    | (false, s) => s
    | (true, s) =>
      let (data, s) := s.readPieces k r.ssp ps
      let s := k.dests.foldl (fun s d => s.mcastTo r data d) s
      ((s.counted k (k.dests.length * (data.filter (·.isSome)).length) (ps.any (·.dead)))).nextRec k.id

/-! ### LOOP and COND, R148, R149 -/

/-- What a LOOP record does to its chain; none for a jump below 0. -/
def loopStep (k : Chain) (r : LoopRec) : Option Chain :=
  let ix := r.ix.toNat
  let c := (if k.act.getD ix false then k.lc.getD ix 0 else r.cnt.toNat) - 1
  let k' := { k with lc := k.lc.set ix c, act := k.act.set ix (c != 0) }
  if c != 0 then
    if k.recOff < 32 * r.back.toNat then none
    else some ({ k' with sb := k.sb + r.sadv, db := k.db + r.dadv }.goto (k.recOff - 32 * r.back.toNat))
  else
    let m : DWord := BitVec.ofNat 64 (r.cnt.toNat - 1)
    some ({ k' with sb := k.sb - r.sadv * m, db := k.db - r.dadv * m }.goto (k.recOff + 32))

/-- LOOP (07 R148). -/
def execLoop (core : Nat) (r : LoopRec) : State → Out :=
  reach core (.loop core r) fun s k =>
    match loopStep k r with
    | none => s.stopChain k.id 0x0D
    | some k' => s.modChain k.id fun _ => k'

/-- Whether the test of a COND record holds. -/
def condHolds (t : CondTest) (w v : Word) : Bool := match t with
  | .eq => w == v
  | .ne => w != v
  | .below => decide (w.toNat < v.toNat)
  | .aboveEq => decide (v.toNat ≤ w.toNat)

/-- COND (07 R149). -/
def execCond (core : Nat) (r : CondRec) : State → Out :=
  reach core (.cond core r) fun s k =>
    let w := BitVec.ofNat 32 (bytesNat (scratchBytes (s.chainScratch k) r.woff.toNat 4))
    checked s k (r.woff.toNat % 4 == 0) (decide (r.woff.toNat + 4 ≤ s.chainCarve k)) none
      (s.modChain k.id fun k => k.goto (k.recOff + 32 * (if condHolds r.test (w &&& r.mask) r.value then r.skip.toNat + 1 else 1)))

/-! ### CONV, R150 -/

/-- Bytes of `n` elements. -/
def elemBytes (f : EFmt) (n : Nat) : Nat := (n * ewidth f + 7) / 8
/-- The alignment of a format's elements. -/
def elemAlign (f : EFmt) : Nat := max 1 (ewidth f / 8)
/-- The biased addresses of a CONV. -/
def convSrc (r : ConvRec) (k : Chain) : DWord := k.sb + r.src
/-- The destination. -/
def convDst (r : ConvRec) (k : Chain) : DWord := k.db + r.dst

/-- CONV (07 R150). -/
def execConv (core : Nat) (r : ConvRec) : State → Out :=
  reach core (.conv core r) fun s k =>
    let carve := s.chainCarve k
    let inCarve (sp : Bool) (a : DWord) (f : EFmt) : Bool := !sp || decide (a.toNat + elemBytes f r.cnt.toNat ≤ carve)
    checked s k ((convSrc r k).toNat % elemAlign r.sfmt == 0 && (convDst r k).toNat % elemAlign r.dfmt == 0)
      (inCarve r.ssp (convSrc r k) r.sfmt && inCarve r.dsp (convDst r k) r.dfmt) none (s.latch k (.conv core r))

/-- The bytes of optional values; none if one is missing. -/
def allBytes (l : List (Option Byte)) : Option (List Byte) := l.mapM id

/-- The value of element `j` from its bytes, converted: of a 4-bit format it is half of its byte. -/
def convElem (r : ConvRec) (j : Nat) (bs : List Byte) : Nat :=
  let x := bytesNat bs
  encodeElem r.dfmt r.rnd (decodeElem r.sfmt (if ewidth r.sfmt = 4 then x / 16 ^ (j % 2) % 16 else x))

/-- The bytes that element `j` leaves at its place: a 4-bit element replaces its half of the byte. -/
def convPut (r : ConvRec) (j x : Nat) (old : List Byte) : List Byte :=
  if ewidth r.dfmt = 4 then
    let o := bytesNat old
    natBytes 1 (if j % 2 = 0 then o / 16 * 16 + x % 16 else o % 16 + x % 16 * 16)
  else natBytes (elemAlign r.dfmt) x

/-- Element `j` of a burst: read, converted and written. It counts the bytes written, a byte of two elements once; `last` is the place after
the last byte counted. -/
def convStep (k : Chain) (r : ConvRec) (sps dps : List Piece) (a : Nat × Nat × State) (j : Nat) : Nat × Nat × State :=
  let (count, last, s) := a
  let at' := j * ewidth r.dfmt / 8
  let dp := subPieces dps at' (elemAlign r.dfmt)
  let (src, s) := s.readPieces k r.ssp (subPieces sps (j * ewidth r.sfmt / 8) (elemAlign r.sfmt))
  let (old, s) := if ewidth r.dfmt = 4 then s.readPieces k r.dsp dp else ([], s)
  match allBytes src, allBytes old with
  | some bs, some os =>
    let (m, s) := s.writePieces k r.dsp dp ((convPut r j (convElem r j bs) os).map some)
    (if last = at' + 1 then count else count + m, at' + 1, s)
  | _, _ => (count, last, s)

/-- The elements of the next burst of a CONV: at most 1,024. -/
def convLen (r : ConvRec) (k : Chain) : Nat :=
  let n := min 1024 (r.cnt.toNat - k.p0)
  let da := (convDst r k).toNat + elemBytes r.dfmt k.p0
  burstBytes r.dsp da (elemBytes r.dfmt n) (elemBytes r.dfmt (r.cnt.toNat - k.p0)) * 8 / ewidth r.dfmt |> min n

/-- One burst of a CONV, its elements in ascending order (R150). -/
def convBurst (s : State) (k : Chain) (r : ConvRec) : State :=
  let n := convLen r k
  match s.mapRange k r.ssp false ((convSrc r k).toNat + elemBytes r.sfmt k.p0) (elemBytes r.sfmt n) with
  | (.park va, s) => s.parkChain k va false
  | (.later, s) => s
  | (.stop, s) => s.stopChain k.id 0x06
  | (.ok sps, s) =>
    match s.mapRange k r.dsp true ((convDst r k).toNat + elemBytes r.dfmt k.p0) (elemBytes r.dfmt n) with
    | (.park va, s) => s.parkChain k va true
    | (.later, s) => s
    | (.stop, s) => s.stopChain k.id 0x06
    | (.ok dps, s) =>
      match s.reachRanges k (pieceLines r.ssp sps) (pieceLines r.dsp dps) with
      | (false, s) => s
      | (true, s) =>
        let (m, _, s) := (List.range n).foldl (convStep k r sps dps) (0, 0, s)
        let s := s.counted k m ((sps ++ dps).any (·.dead))
        if k.p0 + n < r.cnt.toNat then s.modChain k.id fun k => { k with p0 := k.p0 + n } else s.nextRec k.id

/-! ### SAMPLE, R151 to R153 -/

/-- The statistics of a row. -/
structure Stats where
  ws : List (Word × Nat)
  max : Word
  sum : Word
  nan : Bool
deriving DecidableEq, Repr

/-- F32 arithmetic on patterns, RNE. -/
def fAdd (a b : Word) : Word := loWord (fpAdd ffF32 .rne (a.setWidth 64) (b.setWidth 64))
/-- a − b. -/
def fSub (a b : Word) : Word := loWord (fpSub ffF32 .rne (a.setWidth 64) (b.setWidth 64))
/-- a × b. -/
def fMul (a b : Word) : Word := loWord (fpMul ffF32 .rne (a.setWidth 64) (b.setWidth 64))
/-- Whether a pattern is a NaN. -/
def isNan32 (a : Word) : Bool := ffF32.isNan a.toNat
/-- Comparison of values. -/
def fGt (a b : Word) : Bool := fcmpHolds ffF32 .lt (b.setWidth 64) (a.setWidth 64)
/-- Equality of values. -/
def fEq (a b : Word) : Bool := fcmpHolds ffF32 .eq (a.setWidth 64) (b.setWidth 64)

/-- One column (R153). -/
def Stats.step (k : Nat) (st : Stats) (y : Word) (id : Nat) : Stats :=
  let st := { st with ws := (topkInsert k st.ws y id).1 }
  if isNan32 y then { st with nan := true }
  else if y == 0xFF800000 then st
  else if fGt y st.max then { st with sum := fAdd (fMul st.sum (exp2Rne (fSub st.max y))) f32One, max := y }
  else if fEq y st.max then { st with sum := fAdd st.sum f32One }
  else { st with sum := fAdd st.sum (exp2Rne (fSub y st.max)) }

/-- The initial completion record (R152). -/
def crecInit : List Byte :=
  natBytes 64 0 ++ (List.replicate 32 0xFF#8) ++ natBytes 4 0xFF800000 ++ natBytes 28 0

/-- The winners of a completion record. -/
def crecWinners (rec : List Byte) (k : Nat) : List (Word × Nat) :=
  ((List.range k).map fun i =>
    (BitVec.ofNat 32 (bytesNat ((rec.drop (4 * i)).take 4)), bytesNat ((rec.drop (0x40 + 2 * i)).take 2))).takeWhile fun w => w.2 != 0xFFFF

/-- The values that a row gives, and its completion record (R152, R153). -/
def sampleRow (row : AccRow) (r : SampleRec) (start : List Byte) : List Word × List Byte :=
  let k := r.km1.toNat + 1
  let word (o : Nat) : Word := BitVec.ofNat 32 (bytesNat ((start.drop o).take 4))
  let flags := (word 0x6C).toNat
  let ys := (List.range r.ncol.toNat).map fun j => fMul (BitVec.ofNat 32 (encodeElem .f32 .rne (row.num j))) r.temp
  let st0 : Stats := ⟨crecWinners start k, word 0x60, word 0x64, bitN flags 0⟩
  let st := (ys.zipIdx).foldl (fun st yj => st.step k yj.1 ((r.idx0.toNat + yj.2) % 65536)) st0
  let slot (i : Nat) : Word × Nat :=
    match st.ws[i]? with
    | some w => w
    | none => if i < k then (word (4 * i), bytesNat ((start.drop (0x40 + 2 * i)).take 2)) else (0, 0xFFFF)
  let slots := (List.range 16).map slot
  let fl := bitAt st.nan 0 + bitAt (bitN flags 1 || row.isEmpty) 1 + bitAt (bitN flags 2 || row.s) 2 + bitAt (bitN flags 3 || row.l) 3
  (ys, slots.flatMap (fun w => natBytes 4 w.1.toNat) ++ slots.flatMap (fun w => natBytes 2 w.2)
    ++ natBytes 4 (if st.nan then f32Nan else st.max).toNat ++ natBytes 4 (if st.nan then f32Nan else st.sum).toNat
    ++ natBytes 4 st.ws.length ++ natBytes 4 fl ++ natBytes 16 0)

/-- SAMPLE (07 R151): at its reach the record takes its place in the stream of each row not read yet. Where several checks fail, status 0x0A
comes after those of R142, whose order does not place it (log 75). -/
def execSample (core : Nat) (r : SampleRec) : State → Out :=
  reach core (.sample core r) fun s k =>
    let carve := s.chainCarve k
    let nr := r.nr.toNat
    let rows := (s.team k.ti).rows
    let ids := ((rows.drop r.row.toNat).take nr).drop k.p0
    let (id, s') := s.fresh
    checked s k ((!r.out || r.dst.toNat % 4 == 0) && r.crec.toNat % 128 == 0)
      ((!(r.out && r.dsp) || decide (r.dst.toNat + 4 * r.ncol.toNat * nr ≤ carve)) && (!r.csp || decide (r.crec.toNat + 128 * nr ≤ carve)))
      (if rows.length < r.row.toNat + nr then some 0x0A else none)
      (({ s' with streams := s'.streams ++ [(⟨id, cluOfCore core, k.ti, k.gi, k.lane, ids, .sample k.id⟩ : Stream)] }).latch k (.sample core r))

/-- The sample entry of a chain, if it stands first in the stream of the row it reads next. -/
def State.sampleHead (s : State) (k : Chain) : Option (Stream × Nat) :=
  let es := s.streamsOf (cluOfCore k.core)
  match es.find? (·.ofChain k.id) with
  | none => none
  | some e => match e.rows with
    | [] => none
    | id :: _ => if (es.takeWhile fun x => x.id != e.id).any fun x => x.rows.contains id then none else some (e, id)

/-- The row has been read: it leaves the chain's entry, which goes once it names none. -/
def State.rowRead (s : State) (e : Stream) : State :=
  let mine (x : Stream) : Bool := x.id == e.id
  { s with streams := (s.streams.map fun x => if mine x then { x with rows := x.rows.drop 1 } else x).filter fun x => !(mine x && x.rows.isEmpty) }

/-- One row of a SAMPLE. -/
def sampleBurst (s : State) (k : Chain) (r : SampleRec) : State :=
  match s.sampleHead k with
  | none => s
  | some (e, id) =>
    let i := k.p0
    let n := 4 * r.ncol.toNat
    match (if r.out then s.mapRange k r.dsp true (r.dst.toNat + n * i) n else (.ok [], s)) with
    | (.park va, s) => s.parkChain k va true
    | (.later, s) => s
    | (.stop, s) => s.stopChain k.id 0x06
    | (.ok ops, s) =>
      match s.mapRange k r.csp true (r.crec.toNat + 128 * i) 128 with
      | (.park va, s) => s.parkChain k va true
      | (.later, s) => s
      | (.stop, s) => s.stopChain k.id 0x06
      | (.ok cps, s) =>
        match s.reachRanges k (if r.cont then pieceLines r.csp cps else []) (pieceLines r.dsp ops ++ pieceLines r.csp cps) with
        | (false, s) => s
        | (true, s) =>
          let row := s.accRow id
          let s := s.rowRead e
          let s :=
            if s.idVoided k.ti id then s
            else
              let (old, s) := if r.cont then s.readPieces k r.csp cps else ([], s)
              let start := if r.cont then (allBytes old).getD crecInit else crecInit
              let (ys, rec) := sampleRow row r start
              let (m1, s) := s.writePieces k r.dsp ops ((ys.flatMap fun y => natBytes 4 y.toNat).map some)
              let (m2, s) := s.writePieces k r.csp cps (rec.map some)
              s.counted k (m1 + m2) ((ops ++ cps).any (·.dead))
          let s := if i + 1 < r.nr.toNat then s.modChain k.id fun k => { k with p0 := i + 1 } else s.nextRec k.id
          s.tryRows (cluOfCore k.core)

/-! ### CSEND, R154, 04 R89 -/

/-- CSEND (07 R154). -/
def execCsend (core : Nat) (r : CsendRec) : State → Out :=
  reach core (.csend core r) fun s k =>
    checked s k (r.src.toNat % 1024 == 0 && r.roff.toNat % 1024 == 0)
      (!r.ssp || decide (r.src.toNat + 1024 * r.nblk.toNat ≤ s.chainCarve k)) none (s.latch k (.csend core r))

/-- Sends the next block. -/
def csendBurst (s : State) (k : Chain) (r : CsendRec) : State :=
  let i := k.p0
  let bn := (r.bn0.toNat + i) % 2 ^ 32
  match s.mapRange k r.ssp false (r.src.toNat + 1024 * i) 1024 with
  | (.park va, s) => s.parkChain k va false
  | (.later, s) => s
  | (.stop, s) => s.stopChain k.id 0x06
  | (.ok ps, s) =>
    match s.reachRanges k (pieceLines r.ssp ps) [] with
    | (false, s) => s
    | (true, s) =>
      if !s.shfReaches (dieOfCore (s.chainCore k)) r.dev.toNat then s
      else
        let (data, s) := s.readPieces k r.ssp ps
        let s := match allBytes data with
          | none => s.counted k 0 true
          | some bs =>
            let off := (r.roff.toNat + 1024 * i) % 2 ^ 32
            { s with sent := s.sent ++ [OutMsg.shfBlock r.dev.toNat r.shid.toNat bn off true bs] }.modChain k.id fun k =>
              { k with waits := k.waits ++ [(⟨r.dev.toNat, r.shid.toNat, bn, r.ssp, (r.src.toNat + 1024 * i) % 2 ^ 64, off, none⟩ : SentBlock)] }
        if i + 1 < r.nblk.toNat then s.modChain k.id fun k => { k with p0 := i + 1 } else s.nextRec k.id

/-- The block of a chain that an answer or a resend request names. -/
def Chain.sentBlock (k : Chain) (dev shid bn : Nat) : Option SentBlock := k.waits.find? fun w => w.dev == dev && w.shid == shid && w.bn == bn

/-- A block is answered. -/
def Chain.answered (k : Chain) (w : SentBlock) (st : Nat) : Chain :=
  { k with waits := k.waits.erase w, count := if st = 0 then k.count + 1024 else k.count,
           status := if k.st == .stopping then k.status else worse k.status st }

/-- A chain whose last answer has come writes its token if it waits to. -/
def State.settleChain (s : State) (id : Nat) : State :=
  match s.chain id with
  | none => s
  | some k => if k.waits.isEmpty && (k.endSeen || k.st == .stopping) then s.endChain k k.status k.count else s

/-- CSEND_ANSWER (04 R89; 07 R139, R140): the answer of a receiver to one block. -/
def execCsendAnswer (chain : Nat) (block : BlockRef) (status : BitVec 7) (s : State) : Out :=
  .next <|
    match s.chain chain with
    | none => s
    | some k => match k.sentBlock block.dev block.shid block.bn with
      | none => s
      | some w => (s.modChain chain fun k => k.answered w status.toNat).settleChain chain

/-! ### SIG and END, R155, R156 -/

/-- The write of a SIG record; the chain's earlier writes are acknowledged already. -/
def sigBurst (s : State) (k : Chain) (r : SigRec) : State :=
  let a := r.addr.toNat
  match r.ops with
  | .notify =>
    match s.gridTeam (s.team k.ti).node (a % 2 ^ 16 / 0x40) with
    | none => s.nextRec k.id
    | some ti =>
      let w : Wake := ⟨ti, a / 4 % 16, r.value⟩
      (s.nextRec k.id).sendOrWait w
  | op =>
    if r.dsp then
      (s.writePieces k true [⟨a, 4, 0, 0, false⟩] ((natBytes 4 r.value.toNat).map some)).2.nextRec k.id
    else
      match s.translate (s.chainAcx k) (if op == .add then .atom else .store) a with
      | (.miss, s) | (.dup, s) => s.parkChain k a true
      | (.later, s) => s
      | (.bad cause, s) => if cause = 0x08 then (s.counted k 0 true).nextRec k.id else s.stopChain k.id 0x06
      | (.ok pa key gen, s) =>
        if isDevice pa then s.stopChain k.id 0x06
        else if !s.frameLive gen pa then (s.counted k 0 true).nextRec k.id
        else
          match s.reachRanges k (if op == .add then [lineOf pa] else []) [lineOf pa] with
          | (false, s) => s
          | (true, s) =>
            let s := (s.markDirty (s.chainAcx k) a).settle (lineOf pa) key
            let old := bytesNat (s.cohBytes key pa 4)
            let new := if op == .add then (old + r.value.toNat) % 2 ^ 32 else r.value.toNat
            (s.homeWriteBytes key pa (natBytes 4 new)).nextRec k.id

/-- SIG (07 R155): the record is kept as it was read (R138), for as long as its write waits. -/
def execSig (core : Nat) (r : SigRec) : State → Out :=
  reach core (.sig core r) fun s k =>
    checked s k (r.addr.toNat % 4 == 0) (!r.dsp || decide (r.addr.toNat + 4 ≤ s.chainCarve k)) none (sigBurst (s.latch k (.sig core r)) k r)

/-- END (07 R156): waits for every answer, then writes the token. -/
def execRecEnd (core : Nat) : State → Out :=
  reach core (.recEnd core) fun s k => (s.modChain k.id fun k => { k with endSeen := true }).settleChain k.id

/-! ### Requests of an engine to peers, 04 R75 -/

/-- The ranges that the next burst of a record accesses: whether in scratchpad, whether written, address, bytes. -/
def burstRanges (k : Chain) : Instr → List (Bool × Bool × Nat × Nat)
  | .move _ r =>
    [(r.ssp, false, moveFrom r k, moveLen r k), (r.dsp, true, moveTo r k, moveLen r k)]
  | .mcast _ r => [(r.ssp, false, r.src.toNat, r.len.toNat)]
  | .conv _ r =>
    let n := convLen r k
    [(r.ssp, false, (convSrc r k).toNat + elemBytes r.sfmt k.p0, elemBytes r.sfmt n),
     (r.dsp, true, (convDst r k).toNat + elemBytes r.dfmt k.p0, elemBytes r.dfmt n)]
  | .sample _ r =>
    let n := 4 * r.ncol.toNat
    (if r.out then [(r.dsp, true, r.dst.toNat + n * k.p0, n)] else []) ++ [(r.csp, true, r.crec.toNat + 128 * k.p0, 128)]
  | .csend _ r => [(r.ssp, false, r.src.toNat + 1024 * k.p0, 1024)]
  | .sig _ r => if r.ops == .notify then [] else [(r.dsp, true, r.addr.toNat, 4)]
  | _ => []

/-- The lines that the next burst of a chain accesses in memory: line, and whether it is written. -/
def State.burstLines (s : State) (k : Chain) : List (Nat × Bool) :=
  match k.now with
  | none => []
  | some i => (burstRanges k i).flatMap fun q => match (s.mapRange k q.1 q.2.1 q.2.2.1 q.2.2.2).1 with
    | .ok ps => (pieceLines q.1 ps).map fun l => (l, q.2.1)
    | _ => []

/-! ### Steps of an engine -/

/-- CHAIN_START (07 R137, R138): the chain at the head of the queue starts; its thread's stores were acknowledged at `cp.go` (R164). -/
def execChainStart (core : Nat) (s : State) : Out :=
  .next <|
    match s.activeChain core with
    | none => s
    | some k => if k.st == .queued then s.modChain k.id fun k => { k with st := .walking } else s

/-- COPY_BURST (07 R157 to R159): the next burst, row or block of the record that the chain of a core has reached. A chain that `cp.stop`
stopped ends here. -/
def execCopyBurst (core : Nat) (s : State) : Out :=
  .next <|
    match s.activeChain core with
    | none => s
    | some k =>
      match k.st, k.now with
      | .stopping, _ => s.settleChain k.id
      | .walking, some (.move _ r) => moveBurst s k r
      | .walking, some (.mcast _ r) => mcastBurst s k r
      | .walking, some (.conv _ r) => convBurst s k r
      | .walking, some (.sample _ r) => sampleBurst s k r
      | .walking, some (.csend _ r) => csendBurst s k r
      | .walking, some (.sig _ r) => sigBurst s k r
      | _, _ => s

/-- The record that the chain of a core comes to: four words of its scratchpad (07 R142); none is a chain error (R139). -/
def State.recordAt (s : State) (k : Chain) : Option Instr :=
  if s.chainCarve k < k.recOff + 32 then none
  else
    let w (i : Nat) : DWord := BitVec.ofNat 64 (bytesNat (scratchBytes (s.chainScratch k) (k.recOff + 8 * i) 8))
    decodeRecord k.core ⟨w 0, w 1, w 2, w 3⟩

/-! ### The rotation of an engine, R137 -/

/-- Whether the engine has something to do for the chain of a core. -/
def State.engineBusy (s : State) (core : Nat) : Bool := match s.activeChain core with
  | none => false
  | some k => s.placed k.ti && match k.st with
    | .queued => true
    | .walking => !k.endSeen
    | .stopping => k.waits.isEmpty
    | .parked _ => false

/-- The core that the engine of a cluster serves next: the first after the one served last whose chain has something to do. -/
def State.nextServed (s : State) (clu : Nat) : Option Nat :=
  ((List.range 4).map fun i => clu * 4 + (Sparse.get 0 s.served clu + i) % 4).find? s.engineBusy

/-! ### Instructions, R163 to R167 -/

/-- Chains in a core's queue. -/
def State.chainCount (s : State) (core : Nat) : Nat := (s.chains.filter (·.core == core)).length

/-- A new chain. -/
def newChain (s : State) (c : Cur) (l d off : Nat) : State :=
  let (id, s) := s.fresh
  let k : Chain :=
    { id := id, core := s.coreOf c.ti c.gi, ti := c.ti, gi := c.gi, lane := l, tok := d, level := (s.group c.ti c.gi).level,
      st := .queued, recOff := off, now := none, status := 0, count := 0, sb := 0, db := 0,
      act := [false, false, false, false], lc := [0, 0, 0, 0], p0 := 0, p1 := 0, p2 := 0, dests := [], waits := [], endSeen := false, sent := s.cycOf c.ti c.gi, img := 0 }
  ({ s with chains := s.chains ++ [k] }.modThread c.ti c.gi l fun t => t.addPend [d] id).modGroup c.ti c.gi fun g =>
    { g with copies := g.copies + 1 }

/-- Whether every atomic of a lane is performed: its write half is a write of the thread (13 R283, R286). -/
def State.atomicsDone (s : State) (ti gi l : Nat) : Bool :=
  s.loads.all fun d => !(d.ti == ti && d.gi == gi && d.op.isAtomic) || d.parts.all fun p => p.lane != l || p.st == .done

/-- `cp.go` (07 R164; 13 R286). -/
def execCpGo (g : Guard) (d : RegIx) (a : Src) : State → Out :=
  ordinary .all g (d.toNat :: srcRegs 64 a) fun c act s =>
    let off (l : Nat) : Nat := (operand (s.thread c.ti c.gi l) 64 a).toNat
    match act.find? fun l => off l % 32 != 0 || decide ((s.team c.ti).carve ≤ off l) with
    | some l => .trap 0x0D (BitVec.ofNat 64 (off l))
    | none =>
      let n := act.length
      if 8 < n then .trap 0x0D 0
      else if decide (Config.chainQueue < s.chainCount (s.coreOf c.ti c.gi) + n) || decide (63 < (s.group c.ti c.gi).copies + n)
          || !(act.all fun l => s.coreAcked c.ti c.gi l .clu && s.storesAcked c.ti c.gi l .clu s.nextId && s.atomicsDone c.ti c.gi l) then .stall act
      else .done (act.foldl (fun s' l => newChain s' c l d.toNat (off l)) s)

/-- The chain of a lane with a token register: where a handler's chain and one of the interrupted context have the same register, the older
one (log 76). -/
def State.laneChain (s : State) (c : Cur) (l tok : Nat) : Option Chain :=
  s.chains.find? fun k => k.ti == c.ti && k.gi == c.gi && k.lane == l && k.tok == tok

/-- `cp.stop` (07 R165). -/
def execCpStop (g : Guard) (a : RegIx) : State → Out :=
  named .all g [a.toNat] [] fun c act s =>
    .done (act.foldl (fun s l =>
      match s.laneChain c l a.toNat with
      | none => s
      | some k => match k.st with
        | .queued => s.endChain k 0x01 0
        | .walking => s.modChain k.id fun k => { k with st := .stopping, status := 0x01 }
        | .parked _ => s.stopChain k.id 0x01
        | .stopping => s) s)

/-- The status word of `cp.stat` (R166). -/
def statWord : Option Chain → Word
  | none => 0
  | some k =>
    let at' := k.recOff / 32 % 2 ^ 15 * 2 ^ 9
    BitVec.ofNat 32 <| match k.st with
      | .queued => 2 ^ 29
      | .walking => 2 * 2 ^ 29 + at'
      | .parked _ => 3 * 2 ^ 29 + at'
      | .stopping => 4 * 2 ^ 29 + at'

/-- `cp.stat` (07 R166). -/
def execCpStat (g : Guard) (d : RegIx) (a : RegIx) : State → Out :=
  named .all g [d.toNat, a.toNat] [d.toNat] fun c act s =>
    .done (s.modLanes c.ti c.gi act fun l t => t.setV d.toNat (statWord (s.laneChain c l a.toNat)))

/-- `waitc` (07 R167). -/
def execWaitc (l st cp t : BitVec 6) : State → Out :=
  ordinary .all .always [] fun c _ s =>
    let g := s.group c.ti c.gi
    if decide (g.loads ≤ l.toNat) && decide (g.stores ≤ st.toNat) && decide (g.copies ≤ cp.toNat) && decide (g.tiles ≤ t.toNat) then .done s
    else .stallAll

end Sys2Proof.Machine
end

