-- ==== Sys2Proof/Machine/Shuffle.lean ====
section
/-! DEFINITION. Coded shuffles: `shf.open`, `shf.side`, `shf.drop`, `shf.close`, and what arrives.

Rules of spec/: 04 R79 to R95; 16 R360, R365. -/

namespace Sys2Proof.Machine

/-! ### CRC-32C, R84 -/

/-- One bit of the checksum. -/
def crcBit (c : Word) : Word := if c.getLsbD 0 then (c >>> 1) ^^^ 0x82F63B78#32 else c >>> 1
/-- One byte. -/
def crcByte (c : Word) (b : Byte) : Word := (List.range 8).foldl (fun c _ => crcBit c) (c ^^^ b.setWidth 32)
/-- CRC-32C of bytes (log 21). -/
def crc32c (bs : List Byte) : Word := bs.foldl crcByte 0xFFFFFFFF#32 ^^^ 0xFFFFFFFF#32

/-! ### The table of shuffles, R79 -/

/-- The open shuffle of an id. -/
def State.shuffle (s : State) (id : Nat) : Option Shuffle := s.shuffles.find? (·.id == id)
/-- Changes it. -/
def State.modShuffle (s : State) (id : Nat) (f : Shuffle → Shuffle) : State := { s with shuffles := updIf s.shuffles (·.id == id) f }
/-- The shuffle of an id that is open to a group (R79). -/
def State.openTo (s : State) (ti gi id : Nat) : Option Shuffle :=
  match s.shuffle id with
  | some h => if (s.group ti gi).level != .u || h.asid == s.asidOf ti then some h else none
  | none => none
/-- Blocks delivered. -/
def Shuffle.delivered (h : Shuffle) : Nat := h.coded + h.uncoded + h.fallback
/-- Blocks accounted for. -/
def Shuffle.accounted (h : Shuffle) : Nat := h.delivered + h.missing
/-- The translation context of the opener's memory. -/
def State.shufAcx (s : State) (h : Shuffle) : Acx := ⟨h.ddie, none, h.asid, (s.rootOf h.ti).toNat, h.level⟩

/-! ### Reading as loads do -/

/-- What reading a range gives. -/
inductive Got where
  | ok (bs : List Byte)
  | park (va : Nat)
  | wait
  | trap (cause va : Nat)
deriving DecidableEq, Repr

/-- A lane's read of `n` bytes within its own instruction, as a load. -/
def readLoad (s : State) (ti gi n : Nat) : Load :=
  ⟨s.nextId, s.nextId, ti, gi, s.coreOf ti gi, (s.group ti gi).level, 0, .plain false, n, 0, []⟩

/-- Whether the lines of a range can be read by a core now: each through a port, or in a copy that `near` finds on its die (04 R72, 17 R384). -/
def State.linesOpenBy (s : State) (near : Nat → Bool) (core pa n : Nat) : Bool :=
  let die := dieOfCore core
  (linesOf pa n).all fun l => (s.reaches die (128 * l) || near (128 * l)) && !s.checkHolds die l true false

/-- The same for data. -/
def State.linesOpen (s : State) (core key pa n : Nat) : Bool := s.linesOpenBy (s.heldNear core key) core pa n

/-- What a core reads at a physical range, its lines brought to its L1. A device register is cached nowhere (03 R64). -/
def State.coreRead (s : State) (core key pa n : Nat) : List Byte × State :=
  if isDevice pa then (s.devBytes pa n, s)
  else
    let s := (s.settleRange key pa n).seeStores core pa n
    ((addrs pa n).map (s.visByte core key), (linesOf pa n).foldl (fun s l => s.record core key (128 * l)) s)

/-- Reads pages of a range as a load of a lane does: it waits for what a load waits for (06 R130, 13 R291), and parks and traps as one. -/
def State.loadPages (s : State) (ti gi l : Nat) : List (Nat × Nat) → Got × State
  | [] => (.ok [], s)
  | (va, n) :: rest =>
    match s.translate (s.acx ti gi) .load va with
    | (.miss, s) | (.dup, s) => (.park va, s)
    | (.later, s) => (.wait, s)
    | (.bad cause, s) => (.trap cause va, s)
    | (.ok pa key gen, s) =>
      if !s.frameLive gen pa then (.trap 0x08 va, s)
      else if s.acqOpen ti gi l || !partReady s (readLoad s ti gi n) ⟨l, va, pa, key, gen, 0, 0, .wait⟩ || !s.linesOpen (s.coreOf ti gi) key pa n then
        (.wait, s)
      else
        let (bs, s) := s.coreRead (s.coreOf ti gi) key pa n
        match s.loadPages ti gi l rest with
        | (.ok cs, s) => (.ok (bs ++ cs), s)
        | r => r

/-- Reads a range. -/
def State.loadRange (s : State) (ti gi l va n : Nat) : Got × State := s.loadPages ti gi l (pagePieces va n)

/-! ### `shf.open`, R80, R92 -/

/-- A number in bytes. -/
def numAt (bs : List Byte) (off n : Nat) : Nat := bytesNat ((bs.drop off).take n)

/-- Whether the 64 bytes of a descriptor are in form, apart from its participant list (R80). -/
def descOk (bs : List Byte) : Bool :=
  let w := numAt bs 0 4
  decide (2 ≤ w % 65536) && decide (w % 65536 ≤ 900) && w / 2 ^ 20 == 0 && numAt bs 0x10 8 % 1024 == 0 && numAt bs 0x18 4 % 1024 == 0
    && numAt bs 0x18 4 != 0 && numAt bs 0x1C 4 == 0

/-- The DEV numbers of a list. -/
def devList (bs : List Byte) (n : Nat) : List Nat := (List.range n).map fun i => numAt bs (2 * i) 2
/-- Whether a participant list is valid. -/
def listOk (devs : List Nat) (own : Nat) : Bool := devs.all (fun d => decide (d < 900)) && dedupNat devs == devs && devs.contains own

/-- What a lane's `shf.open` reads: its descriptor and, if that is in form, the participant list, which may stand at any address (log 81). -/
def readDesc (s : State) (ti gi l a : Nat) : Got × List Nat × State :=
  match s.loadRange ti gi l a 64 with
  | (.ok bs, s) =>
    if descOk bs then
      let n := numAt bs 0 2
      match s.loadRange ti gi l (numAt bs 8 8) (2 * n) with
      | (.ok ls, s) => (.ok bs, devList ls n, s)
      | (r, s) => (r, [], s)
    else (.ok bs, [], s)
  | (r, s) => (r, [], s)

/-- The status of `shf.open` for a lane, and what it opens. -/
def openStatus (s : State) (ti gi a id : Nat) (bs : List Byte) (devs : List Nat) : Nat × State :=
  let w := numAt bs 0 4
  let ddie := bitsN w 17 16
  if decide (0xFFFF < id) || !descOk bs || !listOk devs s.module.dev then (7, s)
  else if (s.shuffle id).isSome then (3, s)
  else if decide (64 ≤ s.shuffles.length) || decide (16 ≤ (s.shuffles.filter (·.ddie == ddie)).length) then (4, s)
  else
    let h : Shuffle :=
      { id := id, asid := s.asidOf ti, ti := ti, level := (s.group ti gi).level, desc := a, parts := devs, ddie := ddie,
        strict := bitN w 18, trapF := bitN w 19, expect := numAt bs 4 4, rxbase := numAt bs 0x10 8, rxlen := numAt bs 0x18 4,
        coded := 0, uncoded := 0, fallback := 0, missing := 0, check := 0, full := 0, high := s.occupancy ddie,
        closing := false, failed := false, closers := [] }
    (0, { s with shuffles := s.shuffles ++ [h] }.emit ddie true (.openAnnounce id))

/-- `shf.open` (04 R92). -/
def execShfOpen (g : Guard) (d : RegIx) (a : Src) (b : SrcB) : State → Out :=
  ordinary .all g (d.toNat :: srcRegs 64 a ++ srcBRegs 32 b) fun c act s =>
    let las := laneAddrs s c act fun t => ea0 t a
    match precheck 64 las with
    | some (cause, v) => .trap cause v
    | none =>
      let (gots, s1) := las.foldl (fun (r : List (Nat × Nat × Got × List Nat) × State) la =>
        let (got, devs, s) := readDesc r.2 c.ti c.gi la.1 la.2
        (r.1 ++ [(la.1, la.2, got, devs)], s)) ([], s)
      match gots.findSome? fun q => match q.2.2.1 with
        | .trap cause va => some (cause, va)
        | _ => none with
      | some (cause, va) => .trap cause (BitVec.ofNat 64 va)
      | none =>
        let parks := gots.filterMap fun q => match q.2.2.1 with
          | .park va => some (q.1, va)
          | _ => none
        let waits := gots.filterMap fun q => if q.2.2.1 == .wait then some q.1 else none
        if !parks.isEmpty then .moved (parkLanes s1 c parks .load)
        else if !waits.isEmpty then .stall waits
        else .done (gots.foldl (fun s' q =>
          match q.2.2.1 with
          | .ok bs =>
            let (st, s') := openStatus s' c.ti c.gi q.2.1 (srcB32 (s.thread c.ti c.gi q.1) b).toNat bs q.2.2.2
            s'.modThread c.ti c.gi q.1 fun t => t.setV d.toNat (BitVec.ofNat 32 st)
          | _ => s') s1)

/-! ### Arrivals, R84 to R88 -/

/-- Sends an answer to the sender of a block. -/
def State.answerBlock (s : State) (dst : Option Nat) (shid bn status : Nat) : State :=
  { s with sent := s.sent ++ [OutMsg.shfAnswer dst shid bn status] }

/-- Counts a delivered block: 0 by cancellation, 1 uncoded, 2 by resend. -/
def Shuffle.count (h : Shuffle) (kind : Nat) : Shuffle :=
  match kind with
  | 0 => { h with coded := h.coded + 1 }
  | 1 => { h with uncoded := h.uncoded + 1 }
  | _ => { h with fallback := h.fallback + 1 }

/-- The strainer of a die has changed: its level, and the highest occupancy of the shuffles decoded there. -/
def State.strainerChanged (s : State) (die : Nat) : State :=
  let occ := s.occupancy die
  { s with shuffles := updIf s.shuffles (·.ddie == die) fun h => { h with high := max h.high occ } }.strainerLevel die

/-- Where a block write stands. -/
inductive Wrote where
  | done
  | refused (status : Nat)
  | park (va : Nat)
  | wait
deriving DecidableEq, Repr

/-- Writes a block into the receive window of a shuffle (R87). -/
def State.writeBlock (s : State) (h : Shuffle) (off : Nat) (data : List Byte) : Wrote × State :=
  if h.rxlen ≤ off then (.refused 0x1A, s)
  else
    let x := s.shufAcx h
    let pages := pagePieces ((h.rxbase + off) % 2 ^ 64) data.length
    match s.mapPages x true pages with
    | (.park va, s) => (.park va, s)
    | (.later, s) => (.wait, s)
    | (.stop, s) => (.refused 0x06, s)
    | (.ok ps, s) =>
      if ps.any (·.dead) then (.refused 0x08, s)
      else match s.access h.ddie [] (pieceLines false ps) with
      | (false, s) => (.wait, s)
      | (true, s) =>
        let s := pages.foldl (fun s p => s.markDirty x p.1) s
        (.done, (ps.foldl (fun (r : Nat × State) p =>
          (r.1 + p.len, r.2.homeWriteBytes p.key p.addr ((data.drop r.1).take p.len))) (0, s)).2)

/-- Raises the fault of a write into the opener's memory whose page is not there (R87; 16 R360, KIND 4). -/
def State.arrivalFault (s : State) (h : Shuffle) (va : Nat) : Nat × State :=
  s.raiseFault
    { fid := 0, die := h.ddie, cause := 0x05, kind := 4, asid := spaceOf h.asid va, va := va, mask := 0, handle := s.handleOf h.ti,
      core := (s.team h.ti).cores.getD 0 0, grp := 0, accR := false, accW := true, accX := false, slot := 0, posted := false,
      check := false, ti := some h.ti, chain := none }

/-- A block takes a slot of the strainer. -/
def State.keepBlock (s : State) (h : Shuffle) (b : UncodedBlock) (kind : Nat) (fid : Option Nat) : State :=
  { s with strainer := s.strainer ++ [(⟨h.ddie, .block b kind, fid⟩ : StrainerSlot)] }.strainerChanged h.ddie

/-- A slot of the strainer is free again. -/
def State.leaveSlot (s : State) (slot : Option StrainerSlot) : State := match slot with
  | some x => { s with strainer := s.strainer.erase x }.strainerChanged x.die
  | none => s

/-- A block stays in its slot of the strainer, or takes one. -/
def State.stayBlock (s : State) (h : Shuffle) (b : UncodedBlock) (kind : Nat) (fid : Option Nat) (slot : Option StrainerSlot) : State :=
  match slot with
  | some x => { s with strainer := s.strainer.replace x { x with fid := fid } }
  | none => s.keepBlock h b kind fid

/-- Delivers a block, from its slot of the strainer if it has one, to its shuffle: written, refused, parked in the strainer (R87), or kept there
until its lines can be written (log 88). `kind` is the counter it counts in. -/
def State.deliverFrom (s : State) (slot : Option StrainerSlot) (h : Shuffle) (b : UncodedBlock) (kind : Nat) : State :=
  let dst := if kind = 0 then none else some b.sender
  match s.writeBlock h b.off b.data with
  | (.done, s) => ((s.leaveSlot slot).modShuffle h.id fun h => h.count kind).answerBlock dst b.shid b.bn 0
  | (.refused st, s) =>
    let s := s.leaveSlot slot
    let s := if st = 0x1A then s else s.modShuffle h.id fun h => { h with missing := h.missing + 1 }
    s.answerBlock dst b.shid b.bn st
  | (.park va, s) =>
    let (fid, s) := s.arrivalFault h va
    s.stayBlock h b kind (some fid) slot
  | (.wait, s) => s.stayBlock h b kind none slot

/-- Delivers a block that has no slot of the strainer. -/
def State.deliverBlock (s : State) (h : Shuffle) (b : UncodedBlock) (kind : Nat) : State := s.deliverFrom none h b kind

/-- The keys of the other components of a coded packet (R85). -/
inductive Keys where
  | absent
  | stale
  | held (es : List SideEntry)
deriving DecidableEq, Repr

/-- Looks the keys up. An entry whose block stands in a frame of no live arena any more is stale (R83; 05 R108). -/
def State.lookKeys (s : State) (h : Shuffle) (own : Nat) (p : CodedPacket) : Keys :=
  let others := p.comps.filter fun c => c.dev != own
  let found := others.map fun c => s.side.find? fun e => e.die == h.ddie && e.shid == h.id && e.bn == c.bn
  if found.any Option.isNone then .absent
  else
    let es := found.filterMap id
    if es.any fun e => !e.valid || !s.frameLive e.gen e.pa then .stale else .held es

/-- A missing side block (R86). -/
def State.sideMissing (s : State) (h : Shuffle) (bn : Nat) : State :=
  if h.strict then (s.modShuffle h.id fun h => { h with missing := h.missing + 1 }).answerBlock none h.id bn 0x0C
  else s.emit h.ddie false (.resendReq h.id bn)

/-- Decodes a coded packet if it can be decided now: the state after it has left the strainer, or none while it waits (R85). -/
def State.decodeCoded (s : State) (h : Shuffle) (p : CodedPacket) : Option State :=
  let own := s.module.dev
  match p.comps.find? (·.dev == own) with
  | none => some s
  | some me =>
    match s.lookKeys h own p with
    | .absent => if h.closing then some (s.sideMissing h me.bn) else none
    | .stale => some (s.sideMissing h me.bn)
    | .held es =>
      if !(es.all fun e => (addrs (e.pa / 128) 8).all fun l => s.open' h.ddie (128 * l) true false) then none
      else
        let s := es.foldl (fun s e => (addrs (e.pa / 128) 8).foldl (fun s l => s.settle l e.key) s) s
        let blocks := es.map fun e => s.cohBytes e.key e.pa 1024
        let out := blocks.foldl (fun acc b => (acc.zip b).map fun xy => xy.1 ^^^ xy.2) p.payload
        if crc32c out != me.crc then
          some ((s.modShuffle h.id fun h => { h with check := h.check + 1 }).sideMissing h me.bn)
        else some (s.deliverBlock h ⟨h.id, own, me.bn, me.off, false, out⟩ 0)

/-- A coded packet whose side blocks cannot be read now waits for those of peers (R75). -/
def State.awaitSides (s : State) (h : Shuffle) (p : CodedPacket) : State := match s.lookKeys h s.module.dev p with
  | .held es => es.foldl (fun s e => s.awaitRange h.ddie e.pa 1024) s
  | _ => s

/-- Tries the coded packets of a shuffle that wait in the strainer. -/
def State.retryCoded (s : State) (id : Nat) : State :=
  s.strainer.foldl (fun s slot =>
    match slot.arrival, s.shuffle id with
    | .coded p, some h =>
      if p.shid != id then s
      else
        match { s with strainer := s.strainer.erase slot }.decodeCoded h p with
        | none => s.awaitSides h p
        | some s => s.strainerChanged h.ddie
    | _, _ => s) s

/-- CODED_PACKET_ARRIVAL (04 R84 to R86, R88). -/
def execCodedPacketArrival (p : CodedPacket) (s : State) : Out :=
  .next <|
    match p.comps.find? (·.dev == s.module.dev), s.shuffle p.shid with
    | none, _ => s
    | some me, none => s.answerBlock none p.shid me.bn 0x18
    | some me, some h =>
      if h.failed then s.answerBlock none p.shid me.bn 0x18
      else if Config.strainerSlots ≤ s.occupancy h.ddie then
        (s.modShuffle h.id fun h => { h with full := h.full + 1 }).emit h.ddie false (.resendReq h.id me.bn)
      else
        let s := { s with strainer := s.strainer ++ [(⟨h.ddie, .coded p, none⟩ : StrainerSlot)] }.strainerChanged h.ddie
        s.retryCoded p.shid

/-- UNCODED_BLOCK_ARRIVAL (04 R87). -/
def execUncodedBlockArrival (b : UncodedBlock) (s : State) : Out :=
  .next <|
    match s.shuffle b.shid with
    | none => s.answerBlock (some b.sender) b.shid b.bn 0x18
    | some h =>
      if h.failed || !h.parts.contains b.sender then s.answerBlock (some b.sender) b.shid b.bn 0x18
      else s.deliverBlock h b (if b.resend then 2 else 1)

/-- A block that stands in the strainer: written again, or discarded (16 R365). It keeps its slot until then (R88). -/
def State.tryBlock (s : State) (slot : StrainerSlot) (retry : Bool) : State :=
  match slot.arrival with
  | .coded _ => s
  | .block b kind =>
    let dst := if kind = 0 then none else some b.sender
    match s.shuffle b.shid with
    | none => (s.leaveSlot (some slot)).answerBlock dst b.shid b.bn 0x18
    | some h =>
      if retry then s.deliverFrom (some slot) h b kind
      else ((s.leaveSlot (some slot)).modShuffle h.id fun h => { h with missing := h.missing + 1 }).answerBlock dst b.shid b.bn 0x06

/-- The arrivals parked on a fault go on. -/
def State.resolveArrivals (s : State) (fid : Nat) (retry : Bool) : State :=
  (s.strainer.filter fun x => x.fid == some fid).foldl (fun s slot => s.tryBlock slot retry) s

/-- What waits in the strainers for no fault is tried again. -/
def State.settleArrivals (s : State) : State :=
  let s := (s.strainer.filter fun x => x.fid == none).foldl (fun s slot => s.tryBlock slot true) s
  (dedupNat (s.strainer.filterMap fun x => match x.arrival with
    | .coded p => some p.shid
    | .block _ _ => none)).foldl State.retryCoded s

/-- Raises the fault of a source page that is not there when a block is to be sent again, as one of its chain (log 78). -/
def State.resendFault (s : State) (k : Chain) (va : Nat) : Nat × State :=
  s.raiseFault
    { fid := 0, die := dieOfCore (s.chainCore k), cause := 0x05, kind := 3, asid := spaceOf (s.asidOf k.ti) va, va := va, mask := maskOf [k.lane],
      handle := s.handleOf k.ti, core := s.chainCore k, grp := k.gi, accR := true, accW := false, accX := false, slot := 0, posted := false,
      check := false, ti := some k.ti, chain := some k.id }

/-- The sender's agent reads the source of a block again and sends it uncoded (R86, R89). It waits for the page, for the lines, and for the SHF
channel. A source that no longer can be read ends the block with a status. -/
def State.resend (s : State) (k : Chain) (w : SentBlock) : State :=
  let put (s : State) (w' : SentBlock) : State := s.modChain k.id fun k => { k with waits := updIf k.waits (· == w) fun _ => w' }
  let w0 := { w with fid := none }
  let gone (s : State) (st : Nat) : State := (s.modChain k.id fun k => k.answered w st).settleChain k.id
  match s.mapRange k w.ssp false w.addr 1024 with
  | (.park va, s) =>
    let (fid, s) := s.resendFault k va
    put s { w with fid := some fid }
  | (.later, s) => s
  | (.stop, s) => gone s 0x06
  | (.ok ps, s) =>
    match s.access (dieOfCore (s.chainCore k)) (pieceLines w.ssp ps) [] with
    | (false, s) => s
    | (true, s) =>
      if !s.shfReaches (dieOfCore (s.chainCore k)) w.dev then s
      else
        let (data, s) := s.readPieces k w.ssp ps
        match allBytes data with
        | none => gone s 0x08
        | some bs => { put s w0 with sent := s.sent ++ [OutMsg.shfBlock w.dev w.shid w.bn w.off false bs] }

/-- The blocks of running teams whose fault is over and that are not sent again yet: their resend found a channel paused, or a line or page not
open (R86). -/
def State.resendsDue (s : State) : List (Chain × SentBlock) :=
  (s.chains.filter fun k => s.placed k.ti).flatMap fun k =>
    (k.waits.filter fun w => match w.fid with
      | some fid => !s.faults.any fun f => f.fid == fid
      | none => false).map fun w => (k, w)

/-- They are sent again, as far as they can be. -/
def State.settleResends (s : State) : State := s.resendsDue.foldl (fun s kw => s.resend kw.1 kw.2) s

/-- RESEND_REQUEST (04 R86, R89): one that comes while its source is faulted waits for that fault. -/
def execResendRequest (receiver shid bn : Nat) (s : State) : Out :=
  .next <|
    match s.chains.findSome? fun k => (k.sentBlock receiver shid bn).map fun w => (k, w) with
    | none => s
    | some (k, w) => if w.fid.isSome then s else s.resend k w

/-! ### `shf.side` and `shf.drop`, R93, R94 -/

/-- The status that `shf.side` gives without looking at the table, if any; a closed-failed shuffle counts as closing (log 80). -/
def sideEarly (s : State) (ti gi a id : Nat) : Option Nat :=
  if 0xFFFF < id then some 7
  else match s.openTo ti gi id with
    | none => some 2
    | some h => if h.closing || h.failed then some 9 else if a % 1024 != 0 then some 6 else none

/-- Registers a block. -/
def State.addSide (s : State) (id bn pa key gen : Nat) : Nat × State :=
  match s.shuffle id with
  | none => (2, s)
  | some h =>
    let same (e : SideEntry) : Bool := e.die == h.ddie && e.shid == id && e.bn == bn
    let e : SideEntry := ⟨h.ddie, id, bn, pa, key, gen, true⟩
    let tell (s : State) : State := (s.emit h.ddie true (.sideAnnounce id bn)).retryCoded id
    if s.side.any same then (1, tell { s with side := s.side.map fun x => if same x then e else x })
    else if Config.sideEntries ≤ (s.side.filter (·.die == h.ddie)).length then (5, s)
    else (0, tell { s with side := s.side ++ [e] })

/-- `shf.side` (04 R82, R93). -/
def execShfSide (g : Guard) (d : RegIx) (a : Src) (b : SrcB) (n : Src) : State → Out :=
  ordinary .all g (d.toNat :: srcRegs 64 a ++ srcBRegs 32 b ++ srcRegs 32 n) fun c act s =>
    let th (l : Nat) : Thread := s.thread c.ti c.gi l
    let id (l : Nat) : Nat := (srcB32 (th l) b).toNat
    let early (l : Nat) : Option Nat := sideEarly s c.ti c.gi (ea0 (th l) a) (id l)
    let need := (act.filter fun l => (early l).isNone).map fun l => (l, ea0 (th l) a)
    match memChecks s (s.acx c.ti c.gi) .load 1024 need with
    | .trap cause v => .trap cause v
    | .later s1 => .later s1
    | .pass ps s1 =>
      let parks := missing ps ++ duplicated ps
      let w := act.filter fun l => !s.storesAcked c.ti c.gi l .dev s.nextId
      if !parks.isEmpty then .moved (parkLanes s1 c parks .load)
      else if !w.isEmpty then .stall w
      else .done (act.foldl (fun s' l =>
        let (st, s') := match early l, ps.find? (·.1 == l) with
          | some x, _ => (x, s')
          | none, some (_, _, .ok pa key gen) => s'.addSide (id l) (src32 (th l) n).toNat pa key gen
          | none, _ => (2, s')
        s'.modThread c.ti c.gi l fun t => t.setV d.toNat (BitVec.ofNat 32 st)) s1)

/-- The status of `shf.drop`, and the state after it (R94); a closed-failed shuffle counts as closing (log 80). -/
def State.dropSide (s : State) (ti gi id bn : Nat) : Nat × State :=
  if 0xFFFF < id then (7, s)
  else match s.openTo ti gi id with
    | none => (2, s)
    | some h =>
      let same (e : SideEntry) : Bool := e.die == h.ddie && e.shid == id && e.bn == bn
      if h.closing || h.failed then (9, s)
      else if s.side.any same then (0, { s with side := s.side.filter fun e => !same e })
      else (8, s)

/-- `shf.drop` (04 R94). -/
def execShfDrop (g : Guard) (d : RegIx) (a : Src) (b : SrcB) : State → Out :=
  ordinary .all g (d.toNat :: srcRegs 32 a ++ srcBRegs 32 b) fun c act s =>
    .done (act.foldl (fun s' l =>
      let t := s.thread c.ti c.gi l
      let (st, s') := s'.dropSide c.ti c.gi (srcB32 t b).toNat (src32 t a).toNat
      s'.modThread c.ti c.gi l fun t => t.setV d.toNat (BitVec.ofNat 32 st)) s)

/-! ### `shf.close`, R95 -/

/-- The token of `shf.close` (R90). -/
def Shuffle.token (h : Shuffle) : Word := tokenWord (if h.missing = 0 then 0 else 0x0C) h.delivered

/-- The completion record (R81). -/
def Shuffle.record (h : Shuffle) : List Byte :=
  [h.coded, h.uncoded, h.fallback, h.missing, h.check, h.full, h.high, 0].flatMap fun x => natBytes 4 (x % 2 ^ 32)

/-- Frees the side entries of a shuffle and what waits in the strainer for it: a block that stands there is answered as one for an id that is not
open (log 77). -/
def State.freeSide (s : State) (h : Shuffle) : State :=
  let mine (x : StrainerSlot) : Bool := match x.arrival with
    | .coded p => p.shid == h.id
    | .block b _ => b.shid == h.id
  let gone := s.strainer.filter mine
  let fids := gone.filterMap (·.fid)
  let s := { s with side := s.side.filter (fun e => e.shid != h.id), strainer := s.strainer.filter fun x => !mine x,
                    faults := s.faults.filter fun f => !fids.contains f.fid }
  (gone.foldl (fun s x => match x.arrival with
    | .coded _ => s
    | .block b kind => s.answerBlock (if kind = 0 then none else some b.sender) b.shid b.bn 0x18) s).strainerChanged h.ddie

/-- Whether a lane waits at its close. -/
def Shuffle.waits (h : Shuffle) : Bool := h.strict && h.trapF

/-- Ends a close: every closer gets the token. -/
def State.finishClose (s : State) (h : Shuffle) : State :=
  let s := { s.freeSide h with shuffles := s.shuffles.filter (·.id != h.id) }
  h.closers.foldl (fun s q =>
    if h.waits then s.modThread q.1 q.2.1 q.2.2.1 fun t => if t.hold == .shfClose h.id then (t.setV q.2.2.2 h.token).resume else t
    else (s.modThread q.1 q.2.1 q.2.2.1 fun t => (t.late q.2.2.2 0 h.token).clearPend q.2.2.2).modGroup q.1 q.2.1 fun g =>
      { g with copies := g.copies - 1 }) s

/-- The close of a shuffle ends: every closer gets its token, or, where the lanes wait and blocks are missing, each issues its `shf.close` again and
traps there. A lane that is saved meanwhile does so after its restore; of a close without missing blocks it then finds no such id open (log 79). -/
def State.endClose (s : State) (h : Shuffle) : State :=
  if h.waits && h.missing != 0 then
    h.closers.foldl (fun s q => s.modThread q.1 q.2.1 q.2.2.1 fun t => if t.hold == .shfClose h.id then { t with hold := .none } else t)
      ((s.freeSide h).modShuffle h.id fun h => { h with failed := true })
  else s.finishClose h

/-- SHF_CLOSE_COMPLETE (04 R95): every expected block is accounted for. The completion record is written into the opener's memory; while
its page is not there the close waits, with a fault raised (log 22). -/
def execShfCloseComplete (shid : Nat) (s : State) : Out :=
  .next <|
    match s.shuffle shid with
    | none => s
    | some h =>
      if !h.closing || h.failed || decide (h.accounted < h.expect) then s
      else
        let x := s.shufAcx h
        match s.mapPages x true [(h.desc + 0x20, 32)] with
        | (.park va, s) =>
          if s.faults.any fun f => f.kind == 4 && f.ti == some h.ti && f.va == va then s else (s.arrivalFault h va).2
        | (.later, s) => s
        | (.ok [p], s) =>
          if p.dead then s.endClose h
          else match s.access h.ddie [] (pieceLines false [p]) with
            | (false, s) => s
            | (true, s) => ((s.markDirty x (h.desc + 0x20)).homeWriteBytes p.key p.addr h.record).endClose h
        | (_, s) => s.endClose h

/-- Whether a closer is lane `l` of a group. -/
def closerIs (ti gi l : Nat) (q : Nat × Nat × Nat × Nat) : Bool := q.1 == ti && q.2.1 == gi && q.2.2.1 == l

/-- Whether a lane that waited at the close of a closed-failed shuffle has its trap still to come. -/
def State.closerDue (s : State) (q : Nat × Nat × Nat × Nat) : Bool := (s.team q.1).place != .gone && !(s.thread q.1 q.2.1 q.2.2.1).exited

/-- A closed-failed shuffle answers its token; its id is free once no other lane has its trap still to come. -/
def State.closeFailed (s : State) (h : Shuffle) : State :=
  if h.closers.any s.closerDue then s else { s.freeSide h with shuffles := s.shuffles.filter (·.id != h.id) }

/-- A lane's `shf.close` of a shuffle that is not closed-failed: it begins to close, or joins a close in progress. -/
def State.beginClose (s : State) (c : Cur) (l d : Nat) (h : Shuffle) : State :=
  let s := (s.modShuffle h.id fun h => { h with closing := true }).retryCoded h.id
  if h.waits then
    (s.modThread c.ti c.gi l fun t => t.wait c (.shfClose h.id)).modShuffle h.id fun h =>
      { h with closers := h.closers.filter (fun q => !closerIs c.ti c.gi l q) ++ [(c.ti, c.gi, l, d)] }
  else
    let (op, s) := s.fresh
    ((s.modThread c.ti c.gi l fun t => ((t.addPend [d] op).wait c .none).resume).modGroup c.ti c.gi fun g =>
      { g with copies := g.copies + 1 }).modShuffle h.id fun h => { h with closers := h.closers ++ [(c.ti, c.gi, l, op)] }

/-- `shf.close` (04 R95), lane by lane: one whose token counts as a copy waits while the counter of its group is full (08 R176). -/
def execShfClose (g : Guard) (d : RegIx) (b : SrcB) : State → Out :=
  ordinary .all g (d.toNat :: srcBRegs 32 b) fun c act s =>
    let id (l : Nat) : Nat := (srcB32 (s.thread c.ti c.gi l) b).toNat
    let mine (l : Nat) : Option Shuffle := s.openTo c.ti c.gi (id l)
    match act.find? fun l => match mine l with
      | some h => h.failed && h.closers.any (closerIs c.ti c.gi l)
      | none => false with
    | some l =>
      .trapIn (s.modShuffle (id l) fun h => { h with closers := h.closers.filter fun q => !act.any fun k => closerIs c.ti c.gi k q }) 0x0C
        (BitVec.ofNat 64 (id l))
    | none =>
      .moved (act.foldl (fun s' l =>
        let at' (s' : State) (x : Word) : State := s'.modThread c.ti c.gi l fun t => ((t.setV d.toNat x).wait c .none).resume
        match s'.openTo c.ti c.gi (id l) with
        | none => at' s' 0x98000000
        | some h =>
          if h.failed then at' (s'.closeFailed h) (tokenWord 0x0C h.delivered)
          else if !h.waits && decide (63 ≤ (s'.group c.ti c.gi).copies) then stallLanes s' c [l]
          else s'.beginClose c l d.toNat h) s)

end Sys2Proof.Machine
end

