-- ==== Sys2Proof/Machine/Arena.lean ====
section
/-! DEFINITION. Arenas: the queries of a program, creation with a node, death in five steps.

Rules of spec/: 05 R102 to R112; 15 R332 to R334. -/

namespace Sys2Proof.Machine

/-! ### Handles, 05 R102 -/

/-- The number of an arena's slot within the module. -/
def slotKey (die slot : Nat) : Nat := die * 65536 + slot
/-- The generation a translation is tagged with: slot and generation. -/
def Arena.tag (a : Arena) : Nat := slotKey a.die a.slot * 256 + a.gen
/-- The handle of an arena. -/
def Arena.handle (a : Arena) : Nat := a.gen * 2 ^ 24 + a.die * 2 ^ 22 + a.slot

/-- The entry that a handle names, if its generation matches and its reserved bits are zero. -/
def State.handleEntry (s : State) (h : Nat) : Option Arena :=
  if bitsN h 31 24 = 0 || bitsN h 21 16 != 0 then none
  else match s.arenaAt (bitsN h 23 22) (bitsN h 15 0) with
    | none => none
    | some a => if a.gen = bitsN h 31 24 then some a else none

/-- The status word of `arn.chk` (R112). -/
def State.arenaStatus (s : State) (asid h : Nat) : Nat :=
  match s.handleEntry h with
  | none => 0
  | some a =>
    if a.asid != asid then 2 ^ 29
    else (if a.live then 2 ^ 31 else 2 ^ 30) + bitsN h 23 22 * 2 ^ 22 + a.frames.length

/-- The window of `arn.win` (R103, R112). -/
def State.arenaWindow (s : State) (asid h : Nat) : Nat :=
  match s.handleEntry h with
  | none => 0
  | some a => if a.live && a.asid == asid then 2 ^ 56 + h * 2 ^ 24 else 0

/-- `arn.chk` (05 R112). -/
def execArnChk (g : Guard) (d : RegIx) (a : Src) : State → Out :=
  ordinary .all g (d.toNat :: srcRegs 32 a) fun c act s =>
    perLane (fun c _ t => t.setV d.toNat (BitVec.ofNat 32 (s.arenaStatus (s.asidOf c.ti) (src32 t a).toNat))) c act s

/-- `arn.win` (05 R112). -/
def execArnWin (g : Guard) (d : RegIx) (a : Src) : State → Out :=
  ordinary .all g (regRegs 64 d ++ srcRegs 32 a) fun c act s =>
    perLane (fun c _ t => t.setD d.toNat (BitVec.ofNat 64 (s.arenaWindow (s.asidOf c.ti) (src32 t a).toNat))) c act s

/-! ### Creation, R105, R106 -/

/-- The first `n` numbers from `x` on that are not in use, within a range. -/
def firstFree (used : List Nat) : Nat → Nat → Nat → List Nat
  | 0, _, _ => []
  | _ + 1, _, 0 => []
  | fuel + 1, x, n + 1 => if used.contains x then firstFree used fuel (x + 1) (n + 1) else x :: firstFree used fuel (x + 1) n

/-- The arena requests of a packet with frames: number i, frames, die. -/
def areqs (p : LaunchPkt) : List (Nat × Nat × Nat) :=
  ([p.areq0, p.areq1, p.areq2, p.areq3].zipIdx.map fun x => (x.2, x.1.frames.toNat, x.1.die.toNat)).filter fun x => x.2.1 != 0

/-- Frames that a packet asks of a die. -/
def framesAsked (p : LaunchPkt) (die : Nat) : Nat := sumNat (((areqs p).filter fun x => x.2.2 == die).map fun x => x.2.1)

/-- Whether the pools can never meet the requests of a packet (R106). -/
def State.arenasNever (s : State) (p : LaunchPkt) : Bool :=
  (areqs p).any fun x => !(s.die x.2.2).arnEn || decide ((s.die x.2.2).arnCount < framesAsked p x.2.2)

/-- The number of the first frame of a die's pool. -/
def State.poolFrame (s : State) (die : Nat) : Nat := (s.poolRange die).1 / 65536

/-- Creates one arena for a node: lowest free slot, next generation, lowest free frames. The first generation of a slot after reset is 1 (log 82). -/
def State.createArena (s : State) (node : Nat) (n : Node) (frames die : Nat) : Option (Arena × State) :=
  let mine := s.arenas.filter (·.die == die)
  match firstFree (mine.map (·.slot)) 65536 0 1, firstFree (mine.flatMap (·.frames)) (s.die die).arnCount (s.poolFrame die) frames with
  | [slot], fs =>
    if fs.length < frames then none
    else
      let gen := Sparse.get 0 s.arenaGen (slotKey die slot) % 255 + 1
      let a : Arena := ⟨die, slot, gen, true, n.asid, n.key, node, fs⟩
      let s := fs.foldl State.freshFrame s
      some (a, { s with arenas := s.arenas ++ [a], arenaGen := Sparse.put s.arenaGen (slotKey die slot) gen })
  | _, _ => none

/-- Creates the arenas of some requests together, or none of them. -/
def State.createArenas (s : State) (node : Nat) (n : Node) : List (Nat × Nat × Nat) → Option (List (Nat × Arena) × State)
  | [] => some ([], s)
  | (i, frames, die) :: rest =>
    match s.createArena node n frames die with
    | none => none
    | some (a, s) => match s.createArenas node n rest with
      | none => none
      | some (l, s) => some ((i, a) :: l, s)

/-- Writes bytes of one line in an address space at their home slice, once that owns the line (15 R332; 05 R98). Bytes for an arena that has died
are dropped. -/
def State.writeVia (s : State) (x : Acx) (va : Nat) (bytes : List Byte) : Via × State :=
  match s.translate x .store va with
  | (.ok pa key gen, s) =>
    if !s.open' x.die pa false true then (.later, s.awaitPeer x.die pa)
    else
      let s' := s.markDirty x va
      if isDevice pa then
        if s.isLocal pa then
          (.got [], s'.devWrite (if x.level == .u then .user else .kernel) (locOf pa) (bytes.map some))
        else (.got [], s'.rawWrite pa bytes)
      else if !s.frameLive gen pa then (.got [], s')
      else match s'.ownLines [lineOf pa] with
        | (s', true) => (.later, s')
        | (s', false) => (.got [], s'.homeWriteBytes key pa bytes)
  | (.later, s) => (.later, s)
  | (_, s) => (.fault, s)

/-- Writes handle i of each arena at ARGS + 4i (15 R334), until a write fails or must wait. -/
def State.writeHandles (s : State) (x : Acx) (args : Nat) : List (Nat × Arena) → Via × State
  | [] => (.got [], s)
  | (i, a) :: rest =>
    match s.writeVia x (args + 4 * i) (natBytes 4 a.handle) with
    | (.got _, s) => s.writeHandles x args rest
    | r => r

/-- Takes the arenas of a node away before any team of it is placed (15 R332). -/
def State.cancelArenas (s : State) (node : Nat) : State := { s with arenas := s.arenas.filter (·.node != node) }

/-! ### Death, R107 -/

/-- The arenas of a node. -/
def State.arenasOf (s : State) (node : Nat) : List Arena := s.arenas.filter (·.node == node)

/-- Step 1: the entries are dying, side entries on their frames are stale, TLB entries go. -/
def State.arenasDying (s : State) (node : Nat) : State :=
  let mine := s.arenasOf node
  let frames := mine.flatMap (·.frames)
  { s with arenas := updIf s.arenas (fun a => a.node == node) fun a => { a with live := false },
           side := updIf s.side (fun e => frames.contains (e.pa / 65536)) fun e => { e with valid := false },
           tlb := s.tlb.filter fun e => !(mine.any fun a => e.gen != 0 && e.slot * 256 + e.gen == a.tag) }

/-- Step 4: every cache drops the lines of the frames, unwritten. -/
def State.dropArenaLines (s : State) (node : Nat) : State :=
  let frames := (s.arenasOf node).flatMap (·.frames)
  let lines := dedupNat ((s.cache.map (·.line) ++ s.dir.map (·.line)).filter fun l => frames.contains (l / 512))
  lines.foldl State.discardLine s

/-- Whether a request that was translated for one of some arenas has not reached its home slice (R108). -/
def State.requestsLeft (s : State) (tags : List Nat) : Bool :=
  (s.loads.any fun d => d.parts.any fun p => tags.contains p.gen && p.st == .wait) ||
    s.stores.any fun o => o.parts.any fun p => tags.contains p.gen && p.st != .acked

/-- The next step of the death of a node's arenas. Bursts of engines are whole steps, so nothing is left to cut off in step 3. -/
def State.arenaStep (s : State) (node : Nat) (n : Node) : State :=
  let next (s : State) : State := s.modNode node fun n => { n with deathStep := n.deathStep + 1 }
  match n.deathStep with
  | 0 => next (s.arenasDying node)
  | 1 => if s.quiet node then next s else s
  | 2 => next s
  | 3 => next (s.dropArenaLines node)
  | _ =>
    if s.requestsLeft ((s.arenasOf node).map Arena.tag) then s
    else (s.cancelArenas node).modNode node fun n => { n with arenas := [], st := .complete }

/-- ARENA_DEATH (05 R107). -/
def execArenaDeath (node : Nat) (s : State) : Out :=
  .next <|
    match s.nodes[node]? with
    | none => s
    | some n => if n.st != .dying || n.arenas.isEmpty then s else s.arenaStep node n

end Sys2Proof.Machine
end

