-- ==== Sys2Proof/Machine/Launch.lean ====
section
/-! DEFINITION. Compute queues: the front-end, its packets, the start of a node, and the placement of teams.

Rules of spec/: 06 R119, R120; 15 R331 to R338, R340; 16 R350, R351, R367. -/

namespace Sys2Proof.Machine

/-! ### The front-end, 15 R331, R332 -/

/-- Whether the front-end of a queue takes packets: READY (17 R386), enabled, not stopped. -/
def State.queueRuns (s : State) (q : Nat) : Bool := s.module.ready && (s.queue q).en && !(s.queue q).halt

/-- The context of a queue's accesses: its address space, on its die, at the level of its teams (log 18). -/
def State.qAcx (s : State) (q : Nat) : Acx :=
  let x := s.queue q
  ⟨x.die, none, x.asid, x.ptroot.toNat, if x.fn = 0 && x.asid = 0 then .k else .u⟩

/-- Leaves the taken arms of PRED packets whose end HEAD has reached (R337). -/
def popArms : Word → List (Word × Word) → Word × List (Word × Word)
  | h, [] => (h, [])
  | h, (e, k) :: rest => if h == e then popArms (h + k) rest else (h, (e, k) :: rest)

/-- HEAD goes past `n` slots. -/
def Queue.pass (x : Queue) (n : Nat) : Queue :=
  let r := popArms (x.head + BitVec.ofNat 32 n) x.arms
  { x with head := r.1, arms := r.2, block := .free }

/-- HEAD of a queue goes past `n` slots. -/
def State.passSlots (s : State) (q n : Nat) : State := s.modQueue q fun x => x.pass n

/-- The address of slot `i` after HEAD. -/
def Queue.slotAddr (x : Queue) (i : Nat) : Nat := x.base.toNat + (x.head.toNat + i) % x.slots * 64

/-- The words in bytes. -/
def wordsOf (bs : List Byte) : List DWord := (List.range (bs.length / 8)).map fun i => BitVec.ofNat 64 (bytesNat ((bs.drop (8 * i)).take 8))

/-- What a front-end does next. -/
inductive FrontRes where
  | idle
  | stop (err : Nat)
  | run (i : Instr)
deriving DecidableEq, Repr

/-- The node of a queue that has not started yet. -/
def State.waitingNode (s : State) (q : Nat) : Option Nat := s.nodes.findIdx? fun n => n.q == q && n.st == .waiting

/-- Reads the packet at HEAD (R331 to R333), with the checks in the order of R332. -/
def State.readPacket (s : State) (q : Nat) : FrontRes × State :=
  let x := s.queue q
  if x.backlog = 0 then (.idle, s)
  else if x.slots < x.backlog then (.stop 0x07, s)
  else
    match s.readVia (s.qAcx q) (x.slotAddr 0) 64 with
    | (.fault, s) => (.stop 0x04, s)
    | (.later, s) => (.idle, s)
    | (.got bs, s) =>
      let two := bytesNat (bs.take 1) = 1
      match (if two && decide (2 ≤ x.backlog) then s.readVia (s.qAcx q) (x.slotAddr 1) 64 else (.got [], s)) with
      | (.fault, s) => (.stop 0x04, s)
      | (.later, s) => (.idle, s)
      | (.got cs, s) =>
        if two && decide (x.backlog < 2) then (.idle, s)
        else match decodePacket q (wordsOf bs ++ wordsOf cs) with
          | .error e => (.stop e.toNat, s)
          | .ok i => (.run i, s)

/-- The next turn of a front-end. -/
def State.frontNext (s : State) (q : Nat) : FrontRes × State :=
  if !s.queueRuns q then (.idle, s)
  else match s.waitingNode q with
    | some node => (.run (.nodeStart node), s)
    | none => match (s.queue q).block with
      | .waitWord _ _ _ => (.run (.waitRecheck q), s)
      | .free => s.readPacket q

/-- Runs what a front-end does for a packet, if the queue takes packets and no node of it still waits to start. -/
def fronted (q : Nat) (ok : Bool) (f : State → State) (s : State) : Out :=
  .next (if !s.queueRuns q || (s.waitingNode q).isSome then s else if ok then f s else s.stopQueue q 0x03)

/-! ### LAUNCH and the start of a node, R333, R334 -/

/-- Teams that the module can take: its published user cores, or their pairs. -/
def State.capacity (s : State) (pair : Bool) : Nat := if pair then s.module.ucores / 2 else s.module.ucores

/-- The node of a LAUNCH. -/
def State.newNode (s : State) (q : Nat) (p : LaunchPkt) : Node :=
  let x := s.queue q
  { q := q, pkt := x.head.toNat, p := p, st := .waiting, asid := x.asid, key := x.key, fn := x.fn, ptroot := x.ptroot, arenas := [],
    produced := 0, robin := 0, srcDone := false, blocked := none, deathStep := 0, terminated := false }

/-- LAUNCH (15 R333): checked, its node waits to start. HEAD goes past it when it has started. -/
def execLaunch (q : Nat) (p : LaunchPkt) (s : State) : Out :=
  fronted q (p.ok && decide (p.nteam.toNat ≤ s.capacity p.pair)) (fun s => { s with nodes := s.nodes ++ [s.newNode q p] }) s

/-- Whether every node that queue `q` launched before place `k` of the node list is complete. -/
def State.earlierDone (s : State) (q k : Nat) : Bool := (s.nodes.take k).all fun n => n.q != q || n.st == .complete

/-- A team that waits for a core (R338). -/
def freshTeam (node : Nat) (n : Node) (num : Nat) : Team :=
  { node := node, num := num, place := .waiting, cores := [], slot := 0, width := 16 * 2 ^ n.p.gw.toNat, groups := [], scr := n.p.scr.toNat,
    scratch0 := [], scratch1 := [], acc0 := 16 * n.p.acc.toNat, rows := [], cvs := List.replicate 16 .free,
    bars := List.replicate 16 ⟨0, 0, 0⟩, notify := List.replicate 16 0, caddy := [], reqs := [], flows := [], waitCount := 0,
    capf := n.p.capf, batchRows := 0, saving := none, savedAt := none, tried := false, begun := false }

/-- The node has started: its item source is open, its teams wait for placement, and the front-end goes on. -/
def State.startNode (s : State) (node : Nat) (n : Node) (arenas : List Nat) : State :=
  let s := s.modNode node fun n => { n with st := .running, arenas := arenas, srcDone := n.total = 0 }
  { s with teams := s.teams ++ (List.range n.nteam).map (freshTeam node n) }.passSlots n.q 2

/-- A node that could not start leaves its queue stopped. -/
def State.failNode (s : State) (node q err : Nat) : State :=
  ((s.cancelArenas node).stopQueue q err).modNode node fun n => { n with st := .complete, terminated := true }

/-- NODE_START (15 R334, 05 R106). -/
def execNodeStart (node : Nat) (s : State) : Out :=
  .next <|
    match s.nodes[node]? with
    | none => s
    | some n =>
      if n.st != .waiting || !s.queueRuns n.q then s
      else if n.p.after && !s.earlierDone n.q node then s
      else if s.arenasNever n.p then s.failNode node n.q 0x03
      else match s.createArenas node n (areqs n.p) with
        | none => s
        | some (made, s') =>
          match s'.writeHandles (n.acx (s.queue n.q).die) n.p.args.toNat made with
          | (.fault, s') => s'.failNode node n.q 0x04
          | (.later, s') => { s with invals := s'.invals, invalAt := s'.invalAt, unanswered := s'.unanswered }
          | (.got _, s') => s'.startNode node n (made.map fun x => slotKey x.2.die x.2.slot)

/-! ### WAIT, SIGNAL, PRED, R335 to R337 -/

/-- Reads the word of a WAIT; the queue goes on or stays blocked. -/
def State.tryWait (s : State) (q : Nat) (addr : DWord) (value : Word) : State :=
  match s.readVia (s.qAcx q) addr.toNat 4 with
  | (.fault, s) => s.stopQueue q 0x04
  | (.later, s) => s
  | (.got bs, s) =>
    if value.toNat ≤ bytesNat bs then s.passSlots q 1
    else s.modQueue q fun x => { x with block := .waitWord addr value (s.die x.die).cyc }

/-- WAIT (15 R335). -/
def execWait (q : Nat) (addr : DWord) (value : Word) (s : State) : Out :=
  fronted q (addr.toNat % 4 == 0) (fun s => s.tryWait q addr value) s

/-- WAIT_RECHECK (15 R335): the word is read again. -/
def execWaitRecheck (q : Nat) (s : State) : Out :=
  .next <|
    if !s.queueRuns q then s
    else match (s.queue q).block with
      | .free => s
      | .waitWord addr value _ => s.tryWait q addr value

/-- Whether a team belongs to a node of queue `q`. -/
def State.ofQueue (s : State) (q ti : Nat) : Bool := match s.nodeOf ti with
  | some n => n.q == q
  | none => false

/-- Whether every write of the nodes that queue `q` launched is acknowledged at a scope, the write halves of atomics are performed, and every token
is written (13 R286). -/
def State.nodesAcked (s : State) (q : Nat) (sc : Scope) : Bool :=
  (s.stores.all fun o => !s.ofQueue q o.ti || o.parts.all fun p => partAcked (s.onPair o.ti) sc o p) &&
  (s.loads.all fun d => !(s.ofQueue q d.ti && d.op.isAtomic) || d.parts.all fun p => p.st == .done) &&
  s.shuffles.all fun h => !h.closers.any fun k => s.ofQueue q k.1

/-- SIGNAL (15 R336). -/
def execSignal (q : Nat) (sys : Bool) (addr : DWord) (value : Word) (s : State) : Out :=
  fronted q (addr.toNat % 4 == 0)
    (fun s =>
      if !s.earlierDone q s.nodes.length || !s.nodesAcked q (if sys then .sys else .dom) then s
      else match s.writeVia (s.qAcx q) addr.toNat (natBytes 4 value.toNat) with
        | (.fault, s) => s.stopQueue q 0x04
        | (.later, s) => s
        | (.got _, s) => s.passSlots q 1) s

/-- The arm that a PRED takes: A goes on at the next slot and skips B at its end, B starts after A. -/
def Queue.takeArm (x : Queue) (armA : Bool) (na nb : Nat) : Queue :=
  if armA then { x with arms := (x.head + BitVec.ofNat 32 (1 + na), BitVec.ofNat 32 nb) :: x.arms }.pass 1 else x.pass (1 + na)

/-- PRED (15 R337). It waits until both arms lie before TAIL (log 31). -/
def execPred (q : Nat) (ne : Bool) (na nb : Nat) (addr : DWord) (value : Word) (s : State) : Out :=
  fronted q (addr.toNat % 4 == 0 && decide (na ≤ 127) && decide (nb ≤ 127))
    (fun s =>
      if (s.queue q).backlog < 1 + na + nb then s
      else
        match s.readVia (s.qAcx q) addr.toNat 4 with
        | (.fault, s) => s.stopQueue q 0x04
        | (.later, s) => s
        | (.got bs, s) => s.modQueue q fun x => x.takeArm ((bytesNat bs == value.toNat) != ne) na nb) s

/-! ### Placement, R338 -/

/-- What a team needs of its core, or of each core of its pair. -/
structure Need where
  node : Nat
  pair : Bool
  scr : Nat
  units : List Nat
  rows : Nat
deriving DecidableEq, Repr

/-- The groups of a launch. -/
def groupsOf (p : LaunchPkt) : Nat := p.ngrp.toNat + 1
/-- The core of a pair on which a group of a launch runs (log 9). -/
def pcoreOf (p : LaunchPkt) (gi : Nat) : Nat := if p.pair then (Config.pairCore (groupsOf p) gi).toNat else 0

/-- The needs of a team: of a fresh one by its packet, of a saved one as it was saved (16 R367). -/
def State.need (s : State) (ti : Nat) : Need :=
  let t := s.team ti
  let p := match s.nodes[t.node]? with
    | some n => some n.p
    | none => none
  let pair := match p with
    | some p => p.pair
    | none => false
  let cores := if pair then [0, 1] else [0]
  match t.place, p with
  | .waiting, some p =>
    let u := p.regs.toNat * 2 ^ p.gw.toNat
    ⟨t.node, pair, t.scr, cores.map fun c => u * ((List.range (groupsOf p)).filter fun gi => pcoreOf p gi == c).length, t.acc0⟩
  | _, _ => ⟨t.node, pair, t.scr, cores.map fun c => sumNat ((t.groups.filter fun g => g.pcore == c).map fun g => g.blocks * g.blockUnits), t.rows.length⟩

/-- The teams that a core holds. -/
def State.teamsOn (s : State) (core : Nat) : List Team := s.teams.filter fun t => t.place == .resident && t.cores.contains core

/-- Whether a core may hold another team with these needs: user core, working, at most three teams, carve-out (06 R119, R120), units,
and no team of the same grid ("one to a core"). -/
def State.coreFits (s : State) (nd : Need) (core units : Nat) : Bool :=
  let here := s.teamsOn core
  !isFwCore core && !s.module.outCores.contains core && !s.module.outClus.contains (cluOfCore core) && decide (here.length ≤ 3)
    && (here.isEmpty || (nd.scr == 0 && Sparse.get 0 s.carve core == 0)) && here.all (fun t => t.node != nd.node)
    && decide (units ≤ s.unitsFree core)

/-- The cores that a team would take at place `i` of a die. -/
def spotCores (nd : Need) (die i : Nat) : List Nat :=
  let c := die * Config.coresPerDie + i
  if nd.pair then [c, c + 1] else [c]

/-- The cycle in which a team was saved, which dates its request for rows (12 R266). -/
def State.saveAge (s : State) (ti : Nat) : Nat := match s.slots.find? (·.ti == ti) with
  | some c => c.savec
  | none => 0

/-- Whether the cores of a spot fit, but for the rows. -/
def State.coresFit (s : State) (nd : Need) (cores : List Nat) : Bool := (cores.zip nd.units).all fun cu => s.coreFits nd cu.1 cu.2

/-- Whether an engine has the rows that a team needs: a fresh team takes none of the reserve; those of a restore are one request, dated by its
save (R338; 12 R266). -/
def State.rowsFit (s : State) (ti : Nat) (nd : Need) (clu : Nat) : Bool := match (s.team ti).place with
  | .saved _ => (s.rowsForRestore ti clu (s.saveAge ti) nd.rows).isSome
  | _ => decide (nd.rows ≤ s.freeRows clu)

/-- Whether the cores of a spot fit a team. -/
def State.spotFits (s : State) (ti : Nat) (nd : Need) (cores : List Nat) : Bool := s.coresFit nd cores && s.rowsFit ti nd (cluOfCore (cores.headD 0))

/-- The spots of a die, ascending. -/
def dieSpots (nd : Need) (die : Nat) : List (List Nat) :=
  (List.range (if nd.pair then Config.coresPerDie / 2 else Config.coresPerDie)).map fun i => spotCores nd die (if nd.pair then 2 * i else i)

/-- The dies in the order that a team tries them. -/
def dieOrder (num : Nat) : List Nat := num % Config.nDies :: (List.range Config.nDies).filter (· != num % Config.nDies)

/-- The spots of the module in the order that a team tries them. -/
def State.spots (s : State) (ti : Nat) : List (List Nat) := (dieOrder (s.team ti).num).flatMap (dieSpots (s.need ti))

/-- The spot that a team would take now. -/
def State.spot (s : State) (ti : Nat) : Option (List Nat) := (s.spots ti).find? (s.spotFits ti (s.need ti))

/-- Whether a lane waits at `fwq.act`: no save or restore starts then (17 R388). -/
def State.activating (s : State) : Bool :=
  s.teams.any fun t => t.groups.any fun g => g.lanes.any fun x => match x.hold with
    | .activate _ _ => true
    | _ => false

/-- The die from which a saved team's slot is read: that of its last core. -/
def State.slotDie (s : State) (ti : Nat) : Nat := dieOfCore ((s.team ti).cores.getD 0 0)

/-- Whether a write to a slot waits still. -/
def State.slotBusy (s : State) (slot : Nat) : Bool := s.slotDue.any fun w => overlap w.va w.bytes.length (s.slotBase slot) (2 ^ 23)

/-- Whether a saved team may be restored: its slot is eligible, written, valid, and its layout readable (16 R367, R381). -/
def State.restorable (s : State) (ti : Nat) : Bool :=
  !s.activating && s.slots.any fun c => c.ti == ti && c.eligible && !s.slotBusy c.slot && s.slotValid (s.slotDie ti) c &&
    decide ((s.die 0).layOld ≤ s.slotLayout (s.slotDie ti) c) && decide (s.slotLayout (s.slotDie ti) c ≤ (s.die 0).layNew)

/-- Whether a team waits for a core: fresh, or to be restored. -/
def State.waitsForCore (s : State) (ti : Nat) : Bool :=
  let t := s.team ti
  match t.place with
  | .waiting => match s.nodes[t.node]? with
    | some n => n.st == .running
    | none => false
  | .saved _ => s.restorable ti
  | _ => false

/-- Its place in the order: teams that wait already before fresh ones, then higher PRIO, restores before others, earlier node, lower number. A team
waits already when it has been tried and fitted nowhere; DEDUCED (log 103): a team to be restored waits already too, so that it goes ahead of every
fresh team of its PRIO, tried or not. -/
def State.placeKey (s : State) (ti : Nat) : Nat :=
  let t := s.team ti
  let prio := match s.nodes[t.node]? with
    | some n => n.p.prio.toNat
    | none => 0
  let fresh := t.place == .waiting
  ((((if fresh && !t.tried then 1 else 0) * 4 + (3 - prio)) * 2 + if fresh then 1 else 0) * 2 ^ 32 + t.node) * 512 + t.num

/-- The spot for a team whose turn it is: no team ahead of it fits anywhere. -/
def State.placeNow (s : State) (ti : Nat) : Option (List Nat) :=
  if !s.waitsForCore ti then none
  else if (List.range s.teams.length).any fun o => s.waitsForCore o && decide (s.placeKey o < s.placeKey ti) && (s.spot o).isSome then none
  else s.spot ti

/-- A core changes its carve-out: the ways that become scratchpad write their dirty lines back and drop them all (06 R119). -/
def State.setCarve (s : State) (core scr : Nat) : State :=
  let s' := { s with carve := Sparse.set 0 s.carve core scr }
  let gone := s.cache.filter fun e => e.lvl == .l1 core && decide (s'.ways (.l1 core) ≤ e.way)
  gone.foldl (fun s e => s.loseL1 core e.line) s'

/-- The lowest team slot that is free on every one of some cores (R338, R341). -/
def State.slotOn (s : State) (cores : List Nat) : Nat :=
  ((List.range 4).find? fun i => !s.teams.any fun t => t.place == .resident && t.slot == i && t.cores.any cores.contains).getD 0

/-- The level of a team's groups (16 R350). -/
def Node.level (n : Node) : Level := if n.fn = 0 && n.asid = 0 then .k else .u

/-- A thread at placement; a PC is a multiple of 8 (02 R34). -/
def freshThread (pc : DWord) (claim : Nat) : Thread := { Thread.blank with pc := clearLow3 pc, exited := false, claim := claim }

/-- A group at placement (08 R170, 16 R351). -/
def freshGroup (lv : Level) (p : LaunchPkt) (gi : Nat) : Group :=
  { Group.blank with lanes := List.replicate (16 * 2 ^ p.gw.toNat) (freshThread p.entry p.regs.toNat), level := lv,
                     blocks := p.regs.toNat, pcore := pcoreOf p gi }

/-- A team as it is placed. -/
def Team.placed (t : Team) (n : Node) (slot : Nat) (cores rows : List Nat) : Team :=
  { t with place := .resident, cores := cores, slot := slot, rows := rows, waitCount := 0,
           groups := (List.range (groupsOf n.p)).map (freshGroup n.level n.p) }

/-- Places a fresh team: new empty rows, its carve-out, zero scratchpads. -/
def State.placeFresh (s : State) (ti : Nat) (n : Node) (cores : List Nat) : State :=
  let t := s.team ti
  let ids := addrs s.nextId t.acc0
  let s := cores.foldl (fun s c => s.setCarve c t.scr) { s with nextId := s.nextId + t.acc0 }
  (s.modTeam ti fun t => t.placed n (s.slotOn cores) cores ids).settleGrid t.node

/-- TEAM_PLACEMENT (15 R338). -/
def execTeamPlacement (ti : Nat) (s : State) : Out :=
  .next <|
    match s.nodes[(s.team ti).node]?, s.placeNow ti with
    | some n, some cores => if (s.team ti).place == .waiting then s.placeFresh ti n cores else s
    | some _, none => if s.waitsForCore ti && (s.spot ti).isNone then s.modTeam ti fun t => { t with tried := true } else s
    | _, _ => s

end Sys2Proof.Machine
end

