-- ==== Sys2Proof/Machine/Resolve.lean ====
section
/-! DEFINITION. Fetching; what happens to accesses whose fault is resolved; and the termination of a grid.

Rules of spec/: 02 R48; 03 R64; 04 R72, R92; 14 R311; 16 R354, R361, R362, R364, R365, R367, R379, R431, R432; 17 R385. -/

namespace Sys2Proof.Machine

/-! ### Translating again, 16 R431 -/

/-- The translation context of an access that was issued on a core at a level. -/
def State.acxAt (s : State) (ti core : Nat) (lv : Level) : Acx := ⟨dieOfCore core, some core, s.asidOf ti, (s.rootOf ti).toNat, lv⟩

/-- A generation that no arena has: a part with it fails the check of its home slice when its reply returns. -/
def deadGen : Nat := 2 ^ 30

/-- An address of this module where nothing stands: a part that met an arena fault waits there for the reply that brings its trap. -/
def State.deadPa (s : State) : Nat := s.module.dev * 2 ^ 50 + 2 ^ 40

/-- The KIND of the fault on which a lane is parked. -/
def LoadPart.kind (p : LoadPart) : Nat := match p.st with
  | .parked _ k => k
  | _ => 0

/-- One parked lane of a load translates again. A lane that meets an arena fault takes its deferred trap when its reply returns (R432). -/
def retryLoadPart (s : State) (ld : Load) (p : LoadPart) : LoadPart × State :=
  let x := s.acxAt ld.ti ld.core ld.level
  let acc : Acc := if ld.op.isAtomic then .atom else .load
  let again (s : State) (cause kind : Nat) : LoadPart × State :=
    let (fid, s) := s.laneFault ld.ti ld.gi cause kind p.va [p.lane] acc
    ({ p with st := .parked fid kind }, s)
  match s.translate x acc p.va with
  | (.ok pa key gen, s) => ({ p with pa := pa, key := key, gen := gen, st := .wait }, if ld.op.isAtomic then s.markDirty x p.va else s)
  | (.miss, s) => again s 0x05 0
  | (.dup, s) => again s 0x05 5
  | (.later, s) => (p, s)
  | (.bad cause, s) => if cause = 0x08 then ({ p with pa := s.deadPa, gen := deadGen, st := .wait }, s) else again s 0x06 p.kind

/-- Some lanes of a load translate again. -/
def State.retryLoad (s : State) (ld : Load) (which : LoadPart → Bool) : State :=
  let (ps, s) := ld.parts.foldl (fun (r : List LoadPart × State) p =>
    if which p then
      let (p', s) := retryLoadPart r.2 ld p
      (r.1 ++ [p'], s)
    else (r.1 ++ [p], r.2)) ([], s)
  { s with loads := updIf s.loads (·.id == ld.id) fun d => { d with parts := ps, sent := s.cycOf d.ti d.gi } }

/-- What an entry of a side log meets at its replay (R362, R431). -/
inductive Replayed where
  | goes (p : StPart)
  | stops (fid : Nat)
  /-- A walk must wait. -/
  | later
deriving DecidableEq, Repr

/-- One entry of a side log translates again; replayed, it comes after the loads of its team that were issued before `upTo`. -/
def replayPart (s : State) (st : Store) (p : StPart) (upTo : Nat) : Replayed × State :=
  let x := s.acxAt st.ti st.core st.level
  let stop (s : State) (cause kind : Nat) : Replayed × State :=
    let (fid, s) := s.laneFault st.ti st.gi cause kind p.va [p.lane] .store
    (.stops fid, s)
  match s.translate x (if st.op.isRed then .red else .store) p.va with
  | (.ok pa key gen, s) =>
    (.goes { p with pa := pa, key := key, gen := gen, untranslated := false, st := .replay p.logSeq upTo }, s.markDirty x p.va)
  | (.later, s) => (.later, s)
  | (.miss, s) => stop s 0x05 1
  | (.dup, s) => stop s 0x05 5
  | (.bad cause, s) => if cause = 0x08 then (.goes { p with st := .acked }, s) else stop s 0x06 1

/-- Replaces one part of a store, which leaves now if it is sent. -/
def State.setPart (s : State) (id : Nat) (p : StPart) : State :=
  { s with stores := updIf s.stores (·.id == id) fun o =>
      { o with sent := s.cycOf o.ti o.gi, parts := updIf o.parts (fun q => q.lane == p.lane && q.va == p.va) fun _ => p } }

/-- The entries of a team in side logs that wait for a fault, in log order: store and part. -/
def State.loggedOf (s : State) (ti : Nat) (which : Nat → Bool) : List (Store × StPart) :=
  sortBy (fun x => x.2.logSeq) ((s.stores.filter (·.ti == ti)).flatMap fun o =>
    (o.parts.filter fun p => match p.st with
      | .logged fid _ => which fid
      | _ => false).map fun p => (o, p))

/-- Replays entries of one page: the first that finds its page missing stops those after it. -/
def State.replayList (s : State) (upTo : Nat) : Option Nat → List (Store × StPart) → State
  | _, [] => s
  | some fid, (o, p) :: rest => (s.setPart o.id { p with st := .logged fid p.logSeq }).replayList upTo (some fid) rest
  | none, (o, p) :: rest =>
    match replayPart s o p upTo with
    | (.goes p', s) => ((s.setPart o.id p').storeClose o.id []).replayList upTo none rest
    | (.stops fid, s) => (s.setPart o.id { p with st := .logged fid p.logSeq }).replayList upTo (some fid) rest
    | (.later, s) => s

/-- Replays the entries of a team that wait for some faults, page by page. -/
def State.replayLog (s : State) (ti upTo : Nat) (which : Nat → Bool) : State :=
  let es := s.loggedOf ti which
  (dedupNat (es.map fun x => x.2.va / 65536)).foldl (fun s page => s.replayList upTo none (es.filter fun x => x.2.va / 65536 == page)) s

/-! ### Fetching, 02 R48, 16 R354 -/

/-- The 8 bytes of code at a physical address, as a core fetches them; the line comes to its instruction cache. -/
def State.codeAt (s : State) (core pa key : Nat) : DWord × State :=
  if isDevice pa then (BitVec.ofNat 64 (bytesNat (s.devBytes pa 8)), s)
  else
    let s := s.settle (lineOf pa) key
    (BitVec.ofNat 64 (bytesNat ((addrs pa 8).map (s.visByte core key))), s.recordCode core key pa)

/-- Whether a copy of a line on a die serves a fetch there without a request to a peer: its RDC, or the core's instruction cache. -/
def State.codeNear (s : State) (core key pa : Nat) : Bool :=
  let hit (lvl : Lvl) : Bool := match s.cline lvl (lineOf pa) with
    | some e => e.key == key
    | none => false
  hit (.l1i core) || hit (.rdc (dieOfCore core))

/-- The 8 bytes at an address as code: none where the page faults, or where no copy here and no port serves the line, a machine check holds it, a
walk waits, the check of a frame's tag fails (05 R108), or a store stands in the L1 on its line under another key id (03 R69). -/
def State.fetchOne (s : State) (ti gi va : Nat) : Option DWord × State :=
  let core := s.coreOf ti gi
  match s.translate (s.acx ti gi) .fetch va with
  | (.ok pa key gen, s) =>
    if s.linesOpenBy (s.codeNear core key) core pa 8 && s.frameLive gen pa && !s.keyClash core key (lineOf pa) s.nextId then
      let (w, s) := s.codeAt core pa key
      (some w, s)
    else (none, s)
  | (_, s) => (none, s)

/-- What a fetch gives: the word and the literal of an X-form, or how far it came. -/
inductive Fetched where
  | word (w lit : DWord)
  | fault (len : Nat) (w : DWord)
deriving DecidableEq, Repr

/-- Fetches the instruction at an address. -/
def State.fetch (s : State) (ti gi va : Nat) : Fetched × State :=
  match s.fetchOne ti gi va with
  | (none, _) => (.fault 8 0, s)
  | (some w, s') =>
    if isXForm w then
      match s'.fetchOne ti gi (va + 8) with
      | (none, _) => (.fault 16 w, s)
      | (some lit, s') => (.word w lit, s')
    else (.word w 0, s')

/-- The instruction that a word stands for; one that decode rejects raises its cause (02 R57). -/
def instrOf (w lit : DWord) : Instr :=
  match decode w lit with
  | .ok i => i
  | .error cause => .illegalInstruction cause w

/-- The level at which a thread fetches: its group's, or, while a handler of another run holds the thread, the one it returns to (R352, R431). -/
def Group.threadLevel (g : Group) (x : Thread) : Level := if x.heldK then g.bankK.pl else if x.heldF then g.bankF.pl else g.level

/-- A thread whose fetch parked translates again, and the literal of an X-form with it (R431). -/
def State.retryFetch (s : State) (ti gi l : Nat) : State :=
  let pc := (s.thread ti gi l).pc.toNat
  let x : Acx := { s.acx ti gi with level := (s.group ti gi).threadLevel (s.thread ti gi l) }
  let park (s : State) (cause va : Nat) : State :=
    let (fid, s) := s.laneFault ti gi cause 2 va [l] .fetch
    s.modThread ti gi l fun t => { t with fetchPark := some fid }
  let go (s : State) : State := s.modThread ti gi l fun t => { t with fetchPark := none }
  match s.translate x .fetch pc with
  | (.bad _, s) => park s 0x06 pc
  | (.miss, s) | (.dup, s) => park s 0x05 pc
  | (.later, s) => s
  | (.ok pa key _, s) =>
    if isXForm (s.codeAt (s.coreOf ti gi) pa key).1 then
      match s.translate x .fetch (pc + 8) with
      | (.bad _, s) => park s 0x06 (pc + 8)
      | (.miss, s) | (.dup, s) => park s 0x05 (pc + 8)
      | (.later, s) => s
      | (_, s) => go s
    else go s

/-- The addresses of the next word of a thread: its own, and that of its literal where the word can be read and is an X-form. -/
def State.fetchVas (s : State) (ti gi l : Nat) : List Nat :=
  let t := s.thread ti gi l
  let pc := t.pc.toNat
  match (s.translate { s.acx ti gi with level := (s.group ti gi).threadLevel t } .fetch pc).1 with
  | .ok pa key _ => if isXForm (s.codeAt (s.coreOf ti gi) pa key).1 then [pc, pc + 8] else [pc]
  | _ => [pc]

/-- The lines from which a thread fetches its next word. -/
def State.fetchLines (s : State) (ti gi l : Nat) : List Nat :=
  let pc := (s.thread ti gi l).pc.toNat
  [pc, pc + 8].filterMap fun va => match (s.translate (s.acx ti gi) .fetch va).1 with
    | .ok pa _ _ => if isDevice pa then none else some (lineOf pa)
    | _ => none

/-- The lines of memory in which a range of a group's addresses lies. -/
def State.rangeLines (s : State) (ti gi va n : Nat) : List Nat :=
  (pagePieces va n).flatMap fun p => match (s.translate (s.acx ti gi) .load p.1).1 with
    | .ok pa _ _ => if isDevice pa then [] else linesOf pa p.2
    | _ => []

/-- The lines that the next word of a thread reads as part of its own step, as loads do (04 R92; 17 R395, R396). -/
def State.stepReads (s : State) (ti gi l : Nat) : List Nat :=
  let x := s.thread ti gi l
  match (s.fetch ti gi x.pc.toNat).1 with
  | .fault _ _ => []
  | .word w lit => match instrOf w lit with
    | .shfOpen g _ a _ =>
      let va := ea0 x a
      if !guardPasses g x then []
      else s.rangeLines ti gi va 64 ++ match (s.loadRange ti gi l va 64).1 with
        | .ok bs => if descOk bs then s.rangeLines ti gi (numAt bs 8 8) (2 * numAt bs 0 2) else []
        | _ => []
    | .keyld g _ _ b => if guardPasses g x then s.rangeLines ti gi (operandB x 64 b).toNat 64 else []
    | .fwqPush g _ a => if guardPasses g x then s.rangeLines ti gi (x.d a.toNat).toNat 64 else []
    | _ => []

/-- The threads of a team, each with its group, whose next word is fetched from a line or reads it in its own step. -/
def State.fetchersOf (s : State) (ti line : Nat) : List (Nat × Nat) :=
  let t := s.team ti
  if t.place != .resident then []
  else (List.range t.groups.length).flatMap fun gi => ((t.group gi).live.filter fun l =>
    let x := (t.group gi).lane l
    (x.hold == .none || x.hold == .stall) && x.fetchPark.isNone && !x.heldK && !x.heldF &&
      ((s.fetchLines ti gi l).contains line || (s.stepReads ti gi l).contains line)).map fun l => (gi, l)

/-- The threads of a team whose fetch is parked on some faults. -/
def State.fetchers (s : State) (ti : Nat) (which : Nat → Bool) : List (Nat × Nat) :=
  let t := s.team ti
  (List.range t.groups.length).flatMap fun gi => ((t.group gi).live.filter fun l => match ((t.group gi).lane l).fetchPark with
    | some fid => which fid
    | none => false).map fun l => (gi, l)

/-- Whether a lane's part is parked on some faults. -/
def LoadPart.parkedOn (which : Nat → Bool) (p : LoadPart) : Bool := match p.st with
  | .parked fid _ => which fid
  | _ => false

/-- Whether a chain is parked on some faults. -/
def Chain.parkedOn (which : Nat → Bool) (k : Chain) : Bool := match k.st with
  | .parked fid => which fid
  | _ => false

/-- Whether a block to be sent again waits for some faults. -/
def SentBlock.on (which : Nat → Bool) (w : SentBlock) : Bool := match w.fid with
  | some fid => which fid
  | none => false

/-- The blocks of a team's chains whose resends wait for some faults. -/
def State.blocksOn (s : State) (ti : Nat) (which : Nat → Bool) : List (Chain × SentBlock) :=
  (s.chains.filter (·.ti == ti)).flatMap fun k => (k.waits.filter (SentBlock.on which)).map fun w => (k, w)

/-- The addresses that what a team has in some faults translates again. -/
def State.againPages (s : State) (ti : Nat) (which : Nat → Bool) : List (Level × Acc × Nat) :=
  ((s.loads.filter (·.ti == ti)).flatMap fun d => (d.parts.filter (LoadPart.parkedOn which)).map fun p =>
    (d.level, if d.op.isAtomic then Acc.atom else .load, p.va)) ++
  ((s.loggedOf ti which).map fun x => (x.1.level, if x.1.op.isRed then Acc.red else .store, x.2.va)) ++
  (s.fetchers ti which).flatMap fun gl => (s.fetchVas ti gl.1 gl.2).map fun va =>
    ((s.group ti gl.1).threadLevel (s.thread ti gl.1 gl.2), .fetch, va)

/-- Walks for some addresses of a team on a die, one after the other until one must wait: it tells whether all are done. -/
def State.walkAll (s : State) (ti die : Nat) : List (Level × Acc × Nat) → Bool × State
  | [] => (true, s)
  | (lv, acc, va) :: rest => match s.translate ⟨die, none, s.asidOf ti, (s.rootOf ti).toNat, lv⟩ acc va with
    | (.later, s) => (false, s)
    | (_, s) => s.walkAll ti die rest

/-- The accesses of one placed team that wait for some faults go on, each according to its kind (R365). Entries of the side log come after the loads
that were issued before `upTo`. -/
def State.resumeTeam (s : State) (ti upTo : Nat) (which : Nat → Bool) : State :=
  let s := (s.loads.filter fun d => d.ti == ti && d.parts.any (LoadPart.parkedOn which)).foldl
    (fun s d => s.retryLoad d (LoadPart.parkedOn which)) s
  let s := s.replayLog ti upTo which
  let s := (s.fetchers ti which).foldl (fun s gl => s.retryFetch ti gl.1 gl.2) s
  let s := (s.blocksOn ti which).foldl (fun s kw => s.resend kw.1 kw.2) s
  { s with chains := updIf s.chains (fun k => k.ti == ti && k.parkedOn which) fun k => { k with st := .walking } }

/-- Whether a running team has a load, an entry of a side log, or a fetch that waits for a fault that is over: it translates again (R431). -/
def State.retryDue (s : State) (ti : Nat) : Bool :=
  let over' (fid : Nat) : Bool := !s.faults.any fun f => f.fid == fid
  s.placed ti && ((s.loads.any fun d => d.ti == ti && d.parts.any (LoadPart.parkedOn over')) || !(s.loggedOf ti over').isEmpty ||
    !(s.fetchers ti over').isEmpty)

/-- What a walk kept from translating again tries once more. -/
def State.settleRetries (s : State) : State :=
  (List.range s.teams.length).foldl (fun s ti =>
    if s.retryDue ti then s.resumeTeam ti 0 fun fid => !s.faults.any fun f => f.fid == fid else s) s

/-- Whether a team has an access in a fault. -/
def State.inFault (s : State) (ti fid : Nat) : Bool :=
  let on (f : Nat) : Bool := f == fid
  (s.loads.any fun d => d.ti == ti && d.parts.any fun p => match p.st with
    | .parked f _ => f == fid
    | _ => false) ||
  (s.stores.any fun o => o.ti == ti && o.parts.any fun p => match p.st with
    | .logged f _ => f == fid
    | _ => false) ||
  !(s.fetchers ti on).isEmpty || !(s.blocksOn ti on).isEmpty || s.chains.any fun k => k.ti == ti && k.parkedOn on

/-- Whether a team has an access that an unresolved machine check keeps parked (17 R385): one under way, one that was saved under its number, a fetch
or read of a thread's next word, or one of a chain. -/
def State.inCheck (s : State) (ti : Nat) (f : FaultRec) : Bool :=
  let line := lineOf f.va
  s.inFault ti f.fid ||
  (s.loads.any fun d => d.ti == ti && d.parts.any fun p => p.st == .wait && f.holds (dieOfCore d.core) (lineOf p.pa) true d.op.isAtomic) ||
  (s.stores.any fun o => o.ti == ti && o.parts.any fun p => p.moves && f.holds (dieOfCore o.core) (lineOf p.pa) o.op.isRed true) ||
  (f.holds (dieOfCore ((s.team ti).cores.getD 0 0)) line true false && !(s.fetchersOf ti line).isEmpty) ||
  s.chains.any fun k => k.ti == ti && (s.burstLines k).any fun lw => f.holds (dieOfCore (s.chainCore k)) lw.1 (!lw.2) lw.2

/-! ### Termination, 14 R311, 16 R365 -/

/-- A store of a terminated grid: entries of the side log and held stores end unperformed; the others are performed (R311). -/
def Store.terminate (o : Store) : Store :=
  { o with parts := o.parts.map fun p => if p.inLog || p.st == .held then { p with st := .acked } else p }

/-- A load of a terminated grid: its parked lanes never complete. -/
def Load.terminate (d : Load) : Load :=
  { d with parts := d.parts.map fun p => if p.parked then { p with st := .done } else p }

/-- The pending writes of operations that are still under way. -/
def Shadow.keep (sh : Shadow) (under : Nat → Bool) : Shadow := { sh with pend := sh.pend.filter fun p => under p.op }

/-- A terminated thread: its registers stay pending on what is still under way only (08 R175). -/
def Thread.terminate (under : Nat → Bool) (t : Thread) : Thread :=
  { t with exited := true, claim := 0, item := none, hold := .none, yielded := false, fetchPark := none,
           pend := t.pend.filter (fun p => under p.op), shadowK := t.shadowK.keep under, shadowF := t.shadowF.keep under }

/-- A terminated team; one that is saved or not yet placed is gone, and holds no blocks. -/
def Team.terminate (under : Nat → Bool) (t : Team) : Team :=
  let t := t.mapThreads (Thread.terminate under)
  { t with groups := if t.place == .resident then t.groups else t.groups.map fun g => { g with blocks := 0 },
           caddy := [], reqs := [], flows := [], cvs := t.cvs.map fun _ => .free, saving := none,
           rows := if t.place == .resident then t.rows else [],
           place := if t.place == .resident then .resident else .gone }

/-- Empties a context slot (16 R370: VALID). -/
def State.freeSlot (s : State) (c : CtxSlot) : State :=
  { s with slots := s.slots.filter (·.slot != c.slot) }.slotWrite (dieOfCore ((s.team c.ti).cores.getD 0 0)) c.slot 4 (natBytes 4 0)

/-- Ends the chains of a team (16 R365). -/
def State.endChains (s : State) (ti : Nat) : State :=
  (s.chains.filter (·.ti == ti)).foldl (fun s k => s.endChain k 0x01 k.count) s

/-- Whether an operation that writes registers later is under way: a load, a stream of the matrix engine, a chain, a closing shuffle. -/
def State.underWay (s : State) (op : Nat) : Bool :=
  s.loads.any (·.id == op) || s.streams.any (·.id == op) || s.chains.any (·.id == op) || s.shuffles.any fun h => h.closers.any fun q => q.2.2.2 == op

/-- A queue without the takes, posters and batches of a team that is terminated. DESIGN CHOICE (log 116): a batch that it has taken ends with it, so that the rows'
posters may post again; one whose team exits without `bfq.done` stays open. -/
def Bfq.dropTeam (ti : Nat) (q : Bfq) : Bfq :=
  { q with takes := q.takes.filter (·.ti != ti), posters := q.posters.filter (fun p => p.1 != ti),
           batches := q.batches.filter (·.ti != ti) }

/-- A team leaves the batch-forming queues. -/
def State.leaveBatches (s : State) (ti : Nat) : State :=
  let s := { s with bfqs := s.bfqs.map (Bfq.dropTeam ti) }
  let keys := s.bfqs.map fun q => (q.die, q.key)
  let s := { s with bfqs := s.bfqs.filter fun q => q.bound || !q.takes.isEmpty }
  keys.foldl (fun s dk => s.examineBfq dk.1 dk.2) s

/-- Whether nothing of a load, or of a store, is left. -/
def Load.over (d : Load) : Bool := d.parts.all (·.st == .done)
/-- Whether every part of a store is acknowledged. -/
def Store.over (o : Store) : Bool := o.parts.all (·.st == .acked)

/-- Ends everything that a team has under way. -/
def State.terminateTeam (s : State) (ti : Nat) : State :=
  let s := (s.slots.filter (·.ti == ti)).foldl State.freeSlot s
  let s := s.endChains ti
  let s := { s with
    loads := (updIf s.loads (·.ti == ti) Load.terminate).filter (fun d => !(d.ti == ti && d.over)),
    stores := (updIf s.stores (·.ti == ti) Store.terminate).filter (fun o => !(o.ti == ti && o.over)),
    rgetQ := s.rgetQ.filter (·.ti != ti), acgQ := s.acgQ.filter (·.ti != ti), traps := s.traps.filter (·.ti != ti),
    retired := s.retired.filter (·.home != ti) }
  let s := (s.modTeam ti (Team.terminate s.underWay)).leaveBatches ti
  (s.team ti).cores.foldl (fun s core => (s.tryRegs core).tryRows (cluOfCore core)) s

/-- Faults in which no team has an access any more go: their grids have been terminated (R365). Shuffle arrivals (KIND 4) are the module's, the events
of KIND 6 and 7 are posted in any case (R360), and a record without a team belongs to none. -/
def State.dropFaults (s : State) : State :=
  { s with faults := s.faults.filter fun f => f.ti.isNone || (!f.check && (f.kind == 4 || f.kind == 6 || f.kind == 7)) ||
      (List.range s.teams.length).any fun o => if f.check then s.inCheck o f else s.inFault o f.fid }

/-- Terminates a grid (14 R311; 16 R365). -/
def State.terminateGrid (s : State) (node : Nat) : State :=
  let s := (s.gridTeams node).foldl State.terminateTeam s
  let s := (s.modNode node fun n =>
    { n with terminated := true, srcDone := true, blocked := none, st := if n.st == .waiting then .complete else n.st })
  s.dropFaults.settleEnds

/-! ### `pfack`, 16 R365, R379 -/

/-- The requests for the line of a check leave again, on the dies that it holds: their time without an answer starts anew (04 R75, 05 R98). -/
def State.restartLine (s : State) (f : FaultRec) : State :=
  let line := lineOf f.va
  let now := (s.die ((s.homeDie (128 * line)).getD 0)).cyc
  let dies := (List.range Config.nDies).filter fun d => f.holds d line true true
  { s with againAt := dies.foldl (fun m d => Sparse.set 0 m (line * 4 + d) (s.die d).cyc) s.againAt,
           invalAt := if Sparse.has s.invalAt line then Sparse.put s.invalAt line (now + 1) else s.invalAt }

/-- RETRY. What a saved team had in the fault translates again when it is restored (R367); the requesters of a machine check issue their
accesses again (17 R384). -/
def State.retryFault (s : State) (f : FaultRec) : State :=
  let s := { s with faults := s.faults.filter (·.fid != f.fid) }
  let on (x : Nat) : Bool := x == f.fid
  let s := if f.check then s.restartLine f else s
  let teams := (List.range s.teams.length).filter fun ti => s.inFault ti f.fid
  let s := teams.foldl (fun s ti => if s.placed ti then s.resumeTeam ti 0 on else s.touchSaved ti) s
  s.resolveArrivals f.fid true

/-- Whether the walks that RETRY needs are done: until then `pfack` waits. -/
def State.retryReady (s : State) (f : FaultRec) : Bool × State :=
  ((List.range s.teams.length).filter s.placed).foldl (fun (r : Bool × State) ti =>
    if r.1 then r.2.walkAll ti (dieOfCore ((s.team ti).cores.getD 0 0)) (r.2.againPages ti (· == f.fid)) else r) (true, s)

/-- ABORT: the grids with an access in the fault are terminated, a chain ends with status 0x06, a block is discarded. -/
def State.abortFault (s : State) (f : FaultRec) : State :=
  let hit := (List.range s.teams.length).filter fun ti => if f.check then s.inCheck ti f else s.inFault ti f.fid
  let s := if f.kind = 3 && !f.check then
      let s := (s.chains.filter fun k => k.parkedOn (· == f.fid)).foldl (fun s k => s.stopChain k.id 0x06) s
      ((List.range s.teams.length).flatMap fun ti => s.blocksOn ti (· == f.fid)).foldl (fun s kw =>
        (s.modChain kw.1.id fun k => k.answered kw.2 0x06).settleChain kw.1.id) s
    else (dedupNat (hit.map fun ti => (s.team ti).node)).foldl State.terminateGrid s
  { s with faults := s.faults.filter (·.fid != f.fid) }.resolveArrivals f.fid false

/-- The fault of a number that `pfack` can resolve. -/
def State.faultOf (s : State) (fid : Nat) : Option FaultRec := s.faults.find? fun f => f.fid == fid && f.kind != 6 && f.kind != 7

/-- `pfack` on a fault: its status, and what it does (R379); none while a walk that RETRY needs must wait. DESIGN CHOICE (log 117): of a FID that names no fault and a
disposition that is none the FID counts first. -/
def State.resolveFault (s : State) (fid : Nat) (disp : Word) : Option Nat × State :=
  match s.faultOf fid with
  | none => (some 0x01, s)
  | some f =>
    if disp = 0 then match s.retryReady f with
      | (true, s) => (some 0x00, s.retryFault f)
      | (false, s) => (none, s)
    else if disp = 1 then (some 0x00, s.abortFault f)
    else (some 0x02, s)

end Sys2Proof.Machine
end

