-- ==== Sys2Proof/Machine/Slot.lean ====
section
/-! DEFINITION. The bytes of a context slot: what a save writes there, and what a restore reads back.

Rules of spec/: 07 R160; 14 R312, R314; 16 R352, R367 to R371. Where a page of the slot does not translate, and for what the specification gives no
fields (flow entries, the entries of the steep buffer and of the side log, the operation of a parked access, pending registers, the launch), a
restore takes the state's own record of the team (log 15). -/

namespace Sys2Proof.Machine

/-! ### Writing a slot, R369 to R371 -/

/-- The code of a level (16 R352). -/
def Level.code : Level → Nat
  | .u => 0
  | .k => 1
  | .f => 2

/-- `sy.status` of a bank in a group that executes at level `cl`. -/
def Bank.status (b : Bank) (cl : Level) : Nat := b.pl.code + cl.code * 4 + bitAt b.inh 4

/-- A number that no fault has: what carries it translates again when its team is restored. -/
def noFault : Nat := 2 ^ 32

/-- Bytes at an offset of the slot. -/
abbrev Image' := List (Nat × List Byte)

/-- Lanes of a team with their group and lane numbers. -/
def Team.allLanes (t : Team) : List (Nat × Nat × Thread) :=
  (List.range t.groups.length).flatMap fun gi => (List.range (t.group gi).lanes.length).map fun l => (gi, l, (t.group gi).lane l)

/-- The loads of a team whose group runs on core `p` of the pair. -/
def State.loadsOn (s : State) (ti p : Nat) : List Load := s.loads.filter fun d => d.ti == ti && (s.group ti d.gi).pcore == p
/-- The store parts of a team on core `p` that satisfy `f`, in the order of `key`. -/
def State.partsOn (s : State) (ti p : Nat) (f : StPart → Bool) (key : Store × StPart → Nat) : List (Store × StPart) :=
  sortBy key ((s.stores.filter fun o => o.ti == ti && (s.group ti o.gi).pcore == p).flatMap fun o => (o.parts.filter f).map fun q => (o, q))
/-- Entries of the side log of core `p`. -/
def State.logOf (s : State) (ti p : Nat) : List (Store × StPart) := s.partsOn ti p StPart.inLog fun x => x.2.logSeq
/-- Entries of the steep buffer of core `p`, in the order of release: what is released already and not performed, then item after item, each in program order
(14 R307). A store of an oldest item has no entry there. -/
def State.steepOf (s : State) (ti p : Nat) : List (Store × StPart) :=
  s.partsOn ti p (fun q => q.buf && (q.st == .held || q.st == .released)) fun x =>
    if x.2.st == .released then x.2.place.1.toNat
    else ((2 ^ 64 + s.flowPlace (s.team ti).node x.2.label x.2.seq) * 2 ^ 64 + x.1.t) * 64 + x.2.lane

/-- The flags of the header at 0x004. -/
def headerFlags (t : Team) (p : LaunchPkt) (auto : Bool) : Nat :=
  1 + bitAt auto 1 + bitAt p.pair 2 + bitAt p.inv 3 + p.prio.toNat * 2 ^ 4 + p.ngrp.toNat * 2 ^ 6 + p.gw.toNat * 2 ^ 10
    + t.scr * 2 ^ 12 + t.rows.length / 16 * 2 ^ 15

/-- The header (R370), but for what can change while the team is saved. -/
def State.headerImage (s : State) (ti layout : Nat) (auto : Bool) : Image' :=
  let t := s.team ti
  match s.nodeOf ti with
  | none => []
  | some n =>
    [(0, natBytes 4 layout), (4, natBytes 4 (headerFlags t n.p auto)), (8, natBytes 8 (s.handleOf ti).toNat),
     (0x10, natBytes 4 (n.asid + n.key * 2 ^ 16)), (0x14, natBytes 4 n.fn), (0x18, natBytes 8 n.ptroot.toNat),
     (0x20, natBytes 4 t.capf.toNat), (0x24, natBytes 4 n.p.nexp.toNat),
     (0x30, natBytes 8 (s.die (dieOfCore (t.cores.getD 0 0))).cyc)] ++
    (List.range t.cores.length).map fun p =>
      (0x38 + 4 * p, natBytes 4 ((s.loadsOn ti p).length + (s.logOf ti p).length * 2 ^ 10 + (s.steepOf ti p).length * 2 ^ 20))

/-- Barriers, notify words, convergence registers. -/
def Team.syncImage (t : Team) : Image' :=
  (t.bars.zipIdx.map fun x => (0x100 + 16 * x.2, natBytes 8 (x.1.arrivals + x.1.count * 2 ^ 12 + x.1.phase % 2 ^ 32 * 2 ^ 32))) ++
  (t.notify.zipIdx.map fun x => (0x200 + 4 * x.2, natBytes 4 x.1.toNat)) ++
  (t.cvs.zipIdx.map fun x => (0x240 + 16 * x.2,
    natBytes 8 (bitAt x.1.declared 0 + bitAt x.1.masked 1 + x.1.grp * 4 + x.1.count * 2 ^ 8) ++ natBytes 8 x.1.mset.toNat))

/-- The barriers in whose current phase a lane has arrived. -/
def Team.arrivedBits (t : Team) (x : Thread) : Nat :=
  sumNat ((List.range 16).map fun b => bitAt (Sparse.get 0 x.arrived b == (t.bars.getD b ⟨0, 0, 0⟩).phase + 1) b)

/-- The bytes of a bank (R371). -/
def Bank.image (b : Bank) (cl : Level) : List Byte :=
  natBytes 8 (b.status cl) ++ natBytes 8 b.cause.toNat ++ natBytes 8 b.epc.toNat ++ natBytes 8 b.tval.toNat ++ natBytes 8 b.tmask.toNat
    ++ natBytes 8 b.kscr.toNat

/-- A group record (R371). -/
def Team.groupImage (t : Team) (gi : Nat) : Image' :=
  let g := t.group gi
  let base := 0x10000 + gi * 0x1000
  (g.lanes.zipIdx.flatMap fun x =>
    [(base + 8 * x.2, natBytes 8 (x.1.pc.toNat / 8 * 8 + bitAt x.1.yielded 0 + bitAt x.1.exited 1 + bitAt x.1.fetchPark.isSome 2)),
     (base + 0x200 + 8 * x.2, natBytes 8 x.1.lr.toNat), (base + 0xC00 + x.2, natBytes 1 x.1.claim),
     (base + 0xC80 + 2 * x.2, natBytes 2 (t.arrivedBits x.1))] ++
      x.1.qf.map fun e => (base + 0x400 + 32 * x.2 + 4 * e.1, natBytes 4 e.2.toNat)) ++
  [(base + 0xC40, natBytes 4 g.cnt), (base + 0xC44, natBytes 1 g.blocks), (base + 0xD00, g.bankK.image g.level),
   (base + 0xD40, g.bankF.image g.level)]

/-- The registers of a lane in its blocks, and its shadow banks. -/
def laneImage (gi l : Nat) (x : Thread) : Image' :=
  let shadow (b : Nat) (sh : Shadow) : Image' :=
    let base := 0x20000 + (2 * gi + b) * 0x2000
    (base + 0x1000 + 8 * l, natBytes 8 sh.lr.toNat) :: sh.regs.map fun e => (base + 256 * e.1 + 4 * l, natBytes 4 e.2.toNat)
  (x.regs.map fun e => (0x60000 + (16 * gi + e.1 / 16) * 0x1000 + 256 * (e.1 % 16) + 4 * l, natBytes 4 e.2.toNat)) ++
    shadow 0 x.shadowK ++ shadow 1 x.shadowF

/-- An item: payload, label and class, arrival number. -/
def itemBytes (payload : DWord) (label cls seq : Nat) : List Byte :=
  natBytes 8 payload.toNat ++ natBytes 4 (label + cls * 2 ^ 24) ++ natBytes 4 seq

/-- A flow entry: the oldest arrival number that is not retired, whether it is idle, label and class, next arrival number (20 R413; log 33). -/
def FlowEntry.bytes (e : FlowEntry) : List Byte :=
  itemBytes (BitVec.ofNat 64 (e.oldest % 2 ^ 32 + bitAt e.idleAt.isSome 32)) e.label e.cls (e.next % 2 ^ 31)

/-- Items and flow entries, a proxy in an entry of its own, marked by its top bit (log 33). -/
def Team.itemImage (t : Team) : Image' :=
  (t.allLanes.filterMap fun x => x.2.2.item.map fun i =>
    (0x3C2000 + 16 * (64 * x.1 + x.2.1), itemBytes i.payload i.label i.cls i.seq)) ++
  (t.caddy.zipIdx.map fun x => (0x3C6000 + 16 * x.2, itemBytes x.1.payload x.1.label x.1.cls x.1.seq)) ++
  ((t.flows.flatMap fun e => e.bytes :: e.proxies.map fun q => itemBytes 0 e.label e.cls (q % 2 ^ 31 + 2 ^ 31)).zipIdx.map fun x =>
    (0x3CA000 + 16 * x.2, x.1))

/-- The number of a store-class operation in an entry. -/
def StOp.code : StOp → Nat
  | .store => 0
  | .rel => 1
  | .ord => 2
  | .red _ _ => 3
  | .cwb _ _ => 4
  | .cinv _ => 5
  | .cdrop _ => 6

/-- A fault number as an entry of a slot shows it: zero once the fault is resolved (20 R412). -/
def State.shownFid (s : State) (fid : Nat) : Nat := if s.faults.any fun f => f.fid == fid then fid else 0

/-- The fault for which an entry of a side log waits. -/
def StPart.fid (p : StPart) : Nat := match p.st with
  | .logged f _ => f
  | _ => noFault

/-- An entry of a steep buffer or side log: address, data, flow, arrival number; then lane, group, width, scope, whether its address is still to be
translated, whether it is released, its operation, and its fault. The specification gives only its size (log 33). -/
def State.partBytes (s : State) (x : Store × StPart) : List Byte :=
  natBytes 8 x.2.va ++ natBytes 8 x.2.data.toNat ++ natBytes 4 (x.2.label + x.2.cls * 2 ^ 24) ++ natBytes 4 x.2.seq
    ++ natBytes 4 (x.2.lane + x.1.gi * 2 ^ 6 + x.1.n * 2 ^ 10 + x.1.sc.code.toNat * 2 ^ 18 + bitAt x.2.untranslated 21 + bitAt (x.2.st == .released) 22
        + x.1.op.code * 2 ^ 23)
    ++ natBytes 4 (s.shownFid x.2.fid)

/-- A parked part's fault. -/
def LoadPart.fid (p : LoadPart) : Option Nat := match p.st with
  | .parked f _ => some f
  | _ => none

/-- What a park-table entry says in the form of R360: the fault of the lowest parked lane, with the lanes of this access. -/
def State.parkRec (s : State) (d : Load) (p : LoadPart) (fid : Nat) : FaultRec :=
  { fid := s.shownFid fid, die := dieOfCore (s.coreOf d.ti d.gi), cause := (match s.faults.find? (·.fid == fid) with | some f => f.cause | none => 0x05), kind := p.kind,
    asid := spaceOf (s.asidOf d.ti) p.va, va := p.va, mask := maskOf ((d.parts.filter (·.parked)).map (·.lane)), handle := s.handleOf d.ti, core := s.coreOf d.ti d.gi, grp := d.gi,
    accR := true, accW := d.op.isAtomic, accX := false, slot := 0, posted := true, check := false, ti := some d.ti, chain := none }

/-- A park-table entry: the first 64 bytes as R360, then 64 lane addresses. -/
def State.parkBytes (s : State) (d : Load) : List Byte :=
  (match d.parts.findSome? fun p => p.fid.map fun f => (p, f) with
    | none => natBytes 64 0
    | some (p, fid) => (s.parkRec d p fid).bytes) ++
  (List.range 64).flatMap fun l => natBytes 8 (match d.parts.find? (·.lane == l) with
    | some p => p.va
    | none => 0)

/-- The state of a chain (07 R160). DESIGN CHOICE (logs 111, 112): COUNT is what its 32 bits hold of the running count, and REC what its 15 bits hold of the record
offset. -/
def Chain.image (k : Chain) : List Byte :=
  natBytes 4 (k.recOff / 32 % 2 ^ 15 + k.status % 128 * 2 ^ 16) ++ natBytes 4 k.count ++ natBytes 8 k.sb.toNat ++ natBytes 8 k.db.toNat ++
  ((List.range 4).flatMap fun i => natBytes 4 (k.lc.getD i 0 % 2 ^ 24 + bitAt (k.act.getD i false) 31)) ++
  natBytes 4 k.p0 ++ natBytes 4 k.p1 ++ natBytes 4 k.p2 ++ natBytes 8 0 ++
  natBytes 4 (bitAt (k.parkedOn fun _ => true) 0 + k.tok * 2 ^ 8 + k.lane * 2 ^ 16 + k.gi * 2 ^ 22)

/-- What stands per core of the pair: scratchpad, steep buffer, side log, park table, and chains, each where its save put it. -/
def State.coreImage (s : State) (ti p : Nat) : Image' :=
  (((s.team ti).scratch p).map fun e => (0x160000 + p * 0x100000 + e.1, [e.2])) ++
  ((s.steepOf ti p).zipIdx.map fun x => (0x3D2000 + p * 0x2000 + 32 * x.2, s.partBytes x.1)) ++
  ((s.logOf ti p).zipIdx.map fun x => (0x3D6000 + p * 0x4000 + 32 * x.2, s.partBytes x.1)) ++
  ((s.loadsOn ti p).zipIdx.map fun x => (0x3DE000 + p * 0x24000 + 576 * x.2, s.parkBytes x.1)) ++
  ((s.chains.filter fun k => k.ti == ti && (s.group ti k.gi).pcore == p).map fun k => (0x426000 + p * 0x200 + 64 * k.img, k.image))

/-- The parts of a slot that can change while the team is saved: B and the counts of the header, barriers and notify words, groups, lanes, rows,
items, and what stands per core. -/
def State.liveParts (s : State) (ti : Nat) : List Image' :=
  let t := s.team ti
  [(0x28, natBytes 4 t.batchRows), (0x40, natBytes 4 (t.caddy.length + t.flowUse * 2 ^ 11))] :: t.syncImage ::
    ((List.range t.groups.length).map t.groupImage ++ (t.allLanes.map fun x => laneImage x.1 x.2.1 x.2.2) ++
      (t.rows.zipIdx.map fun x => [(0x360000 + x.2 * 0x310, (s.accRow x.1).image)]) ++ [t.itemImage] ++
      (List.range t.cores.length).map fun p => s.coreImage ti p)

/-- The bytes of a slot that are not zero. -/
def State.saveImage (s : State) (ti layout : Nat) (auto : Bool) : Image' :=
  s.headerImage ti layout auto ++ (s.liveParts ti).flatten

/-- Writes bytes into a slot, page by page. -/
def State.slotPut (s : State) (die slot off : Nat) (bytes : List Byte) : State :=
  (pagePieces off bytes.length).foldl (fun s pc => s.slotWrite die slot pc.1 ((bytes.drop (pc.1 - off)).take pc.2)) s

/-- Writes a whole slot: unused entries are zero. -/
def State.writeSlot (s : State) (ti slot layout : Nat) (auto : Bool) : State :=
  let die := dieOfCore ((s.team ti).cores.getD 0 0)
  let image := s.saveImage ti layout auto
  let s := (List.range 67).foldl (fun s i => s.slotWrite die slot (i * 65536) (List.replicate 65536 0)) s
  image.foldl (fun s x => s.slotPut die slot x.1 x.2) s

/-- What turns one image into another: what is no longer there becomes zero. -/
def imageDiff (a b : Image') : Image' :=
  ((a.filter fun x => !b.contains x).map fun x => (x.1, List.replicate x.2.length 0)) ++ b.filter fun x => !a.contains x

/-- Whether nothing has changed of what the slot of a saved team shows. -/
def State.sameSaved (a b : State) (ti : Nat) : Bool :=
  a.team ti == b.team ti && a.chains.filter (·.ti == ti) == b.chains.filter (·.ti == ti) && a.loads.filter (·.ti == ti) == b.loads.filter (·.ti == ti) &&
    a.stores.filter (·.ti == ti) == b.stores.filter (·.ti == ti) && a.faults.map (·.fid) == b.faults.map (·.fid) && (b.team ti).rows.all fun r => a.accRow r == b.accRow r

/-- What a step has changed of a saved team is written into its slot (07 R147, R161; 14 R314; 15 R344; 20 R412): the step began at `before`. -/
def State.syncSlot (before s : State) (k : CtxSlot) : State :=
  let saved (x : State) : Bool := (x.team k.ti).place == .saved k.slot
  if !(before.slots.any fun c => c.slot == k.slot && c.ti == k.ti) || !saved before || !saved s || before.sameSaved s k.ti then s
  else
    let die := dieOfCore ((s.team k.ti).cores.getD 0 0)
    ((before.liveParts k.ti).zip (s.liveParts k.ti)).foldl (fun s ab =>
      if ab.1 == ab.2 then s else (imageDiff ab.1 ab.2).foldl (fun s x => s.slotPut die k.slot x.1 x.2) s) s

/-- The same for every saved team. -/
def State.syncSlots (before s : State) : State := s.slots.foldl (State.syncSlot before) s

/-! ### Reading a slot, R367 -/

/-- The line of a slot's header comes under the key of its translation where it stands in the caches under another: the hardware reads VALID and the layout
there (03 R69; R370). -/
def State.settleHeader (s : State) (k : CtxSlot) : State :=
  match s.translate (kernelAcx (dieOfCore ((s.team k.ti).cores.getD 0 0))) .load (s.slotBase k.slot) with
  | (.ok pa key gen, s') =>
    if s.frameLive gen pa && s.cache.any fun e => e.line == lineOf pa && e.key != key then s'.settle (lineOf pa) key else s
  | _ => s

/-- The same for every slot. -/
def State.settleHeaders (s : State) : State := s.slots.foldl State.settleHeader s

/-- The kernel addresses of the pages of a slot. -/
def State.slotVas (s : State) (slot : Nat) : List Nat := (List.range 67).map fun i => s.slotBase slot + i * 65536

/-- Whether the pages of a slot can be accessed now, to be written if `w`: no walk must wait, no port or check stands in the way, and to be written
their home slices own them (05 R98). Pages that do not translate stand in nobody's way (log 15). -/
def State.slotOpen (s : State) (die slot : Nat) (w : Bool) : Bool × State :=
  (s.slotVas slot).foldl (fun (r : Bool × State) va =>
    if !r.1 then r
    else match r.2.translate (kernelAcx die) (if w then .store else .load) va with
      | (.ok pa _ _, s) =>
        if !s.openRange die pa 65536 (!w) w then (false, s.awaitRange die pa 65536) else if w then s.ownRange pa 65536 else (true, s)
      | (.later, s) => (false, s)
      | (_, s) => (true, s)) (true, s)

/-- The pages of a slot: physical address and key id of each, where its kernel address translates and the check of its frame's tag passes (05 R108); its
lines come under that key (03 R69). -/
def State.slotPages (s : State) (die slot : Nat) : List (Option (Nat × Nat)) × State :=
  (s.slotVas slot).foldl (fun (r : List (Option (Nat × Nat)) × State) va =>
    match r.2.translate (kernelAcx die) .load va with
    | (.ok pa key gen, s) =>
      if s.frameLive gen pa then (r.1 ++ [some (pa, key)], s.settleCached key pa 65536) else (r.1 ++ [none], s)
    | (_, s) => (r.1 ++ [none], s)) ([], s)

/-- The number of `n` bytes at an offset of a slot; `d` where its page does not translate. -/
abbrev SlotGet := Nat → Nat → Nat → Nat

/-- Reads a slot through its pages. -/
def State.slotGet (s : State) (pages : List (Option (Nat × Nat))) : SlotGet := fun off n d =>
  match pages.getD (off / 65536) none with
  | some (pa, key) => bytesNat (s.cohBytes key (pa + off % 65536) n)
  | none => d

/-- Whether the page of an offset can be read. -/
def pageThere (pages : List (Option (Nat × Nat))) (off : Nat) : Bool := (pages.getD (off / 65536) none).isSome

/-- Words `0` to `n - 1` of a sparse map, read again. -/
def wordsBack (n : Nat) (m : Sparse Word) (f : Nat → Nat → Nat) : Sparse Word :=
  (List.range n).foldl (fun q i => Sparse.set 0#32 q i (BitVec.ofNat 32 (f i (Sparse.get 0#32 m i).toNat))) m

/-- A double word read at an offset. -/
def dwordBack (get : SlotGet) (off : Nat) (d : DWord) : DWord := BitVec.ofNat 64 (get off 8 d.toNat)

/-- The shadow of a bank, read again. -/
def Shadow.back (pages : List (Option (Nat × Nat))) (get : SlotGet) (gi b l : Nat) (sh : Shadow) : Shadow :=
  let base := 0x20000 + (2 * gi + b) * 0x2000
  if pageThere pages base then
    { sh with regs := wordsBack 16 sh.regs (fun i d => get (base + 256 * i + 4 * l) 4 d), lr := dwordBack get (base + 0x1000 + 8 * l) sh.lr }
  else sh

/-- An item read at an offset. -/
def itemBack (get : SlotGet) (off : Nat) (i : Item) : Item :=
  let w := get (off + 8) 4 (i.label + i.cls * 2 ^ 24)
  ⟨dwordBack get off i.payload, w % 2 ^ 24, bitsN w 25 24, get (off + 12) 4 (i.seq % 2 ^ 32)⟩

/-- The item that a lane holds, read again. -/
def HeldItem.back (get : SlotGet) (off : Nat) (i : HeldItem) : HeldItem :=
  let j := itemBack get off ⟨i.payload, i.label, i.cls, i.seq⟩
  { i with payload := j.payload, label := j.label, cls := j.cls, seq := j.seq }

/-- A lane's arrivals at barriers, read again: those in the current phase. -/
def arrivedBack (t : Team) (bits : Nat) (m : Sparse Nat) : Sparse Nat :=
  (List.range 16).foldl (fun m b =>
    let now := (t.bars.getD b ⟨0, 0, 0⟩).phase + 1
    if bitN bits b then Sparse.put m b now else if Sparse.get 0 m b == now then Sparse.drop m b else m) m

/-- A thread, read again. -/
def Thread.back (pages : List (Option (Nat × Nat))) (get : SlotGet) (t : Team) (gi l : Nat) (x : Thread) : Thread :=
  let base := 0x10000 + gi * 0x1000
  let w := get (base + 8 * l) 8 (x.pc.toNat / 8 * 8 + bitAt x.yielded 0 + bitAt x.exited 1 + bitAt x.fetchPark.isSome 2)
  { x with
    pc := BitVec.ofNat 64 (w / 8 * 8), yielded := bitN w 0, exited := bitN w 1, fetchPark := if bitN w 2 then x.fetchPark else none,
    lr := dwordBack get (base + 0x200 + 8 * l) x.lr, claim := get (base + 0xC00 + l) 1 x.claim,
    qf := if pageThere pages base then wordsBack 8 x.qf (fun i d => get (base + 0x400 + 32 * l + 4 * i) 4 d) else x.qf,
    arrived := arrivedBack t (get (base + 0xC80 + 2 * l) 2 (t.arrivedBits x)) x.arrived,
    regs := if pageThere pages (0x60000 + gi * 0x10000) then
        wordsBack 256 x.regs (fun i d => get (0x60000 + (16 * gi + i / 16) * 0x1000 + 256 * (i % 16) + 4 * l) 4 d) else x.regs,
    shadowK := x.shadowK.back pages get gi 0 l, shadowF := x.shadowF.back pages get gi 1 l,
    item := x.item.map (HeldItem.back get (0x3C2000 + 16 * (64 * gi + l))) }

/-- The level of a code (R352). -/
def levelOf : Nat → Level
  | 0 => .u
  | 1 => .k
  | _ => .f

/-- A bank, read again. -/
def Bank.back (get : SlotGet) (off : Nat) (cl : Level) (b : Bank) : Bank :=
  let st := get off 8 (b.status cl)
  { pl := levelOf (st % 4), inh := bitN st 4, cause := BitVec.ofNat 32 (get (off + 8) 8 b.cause.toNat), epc := clearLow3 (dwordBack get (off + 0x10) b.epc),
    tval := dwordBack get (off + 0x18) b.tval, tmask := dwordBack get (off + 0x20) b.tmask, kscr := dwordBack get (off + 0x28) b.kscr }

/-- A group, read again. -/
def Group.back (pages : List (Option (Nat × Nat))) (get : SlotGet) (t : Team) (gi : Nat) (g : Group) : Group :=
  let base := 0x10000 + gi * 0x1000
  let c := get (base + 0xC40) 4 g.cnt
  { g with
    lanes := g.lanes.mapIdx (Thread.back pages get t gi), level := levelOf (bitsN (get (base + 0xD00) 8 (g.bankK.status g.level)) 3 2),
    blocks := get (base + 0xC44) 1 g.blocks,
    loads := c % 2 ^ 8, stores := c / 2 ^ 8 % 2 ^ 8, copies := c / 2 ^ 16 % 2 ^ 8, tiles := c / 2 ^ 24 % 2 ^ 8,
    bankK := g.bankK.back get (base + 0xD00) g.level, bankF := g.bankF.back get (base + 0xD40) g.level }

/-- A barrier, read again; its phase number has 32 bits in the slot. -/
def Barrier.back (get : SlotGet) (b : Nat) (x : Barrier) : Barrier :=
  let w := get (0x100 + 16 * b) 8 (x.arrivals + x.count * 2 ^ 12 + x.phase % 2 ^ 32 * 2 ^ 32)
  ⟨if w / 2 ^ 32 = x.phase % 2 ^ 32 then x.phase else w / 2 ^ 32, w % 2 ^ 12, bitsN w 23 12⟩

/-- A convergence register, read again. -/
def CvReg.back (get : SlotGet) (i : Nat) (x : CvReg) : CvReg :=
  let w := get (0x240 + 16 * i) 8 (bitAt x.declared 0 + bitAt x.masked 1 + x.grp * 4 + x.count * 2 ^ 8)
  { x with declared := bitN w 0, masked := bitN w 1, grp := bitsN w 5 2, count := bitsN w 16 8, mset := dwordBack get (0x248 + 16 * i) x.mset }

/-- A scratchpad, read again. -/
def scratchBack (pages : List (Option (Nat × Nat))) (get : SlotGet) (p carve : Nat) (m : Sparse Byte) : Sparse Byte :=
  if pageThere pages (0x160000 + p * 0x100000) then
    (List.range carve).foldl (fun q i => Sparse.set 0#8 q i (BitVec.ofNat 8 (get (0x160000 + p * 0x100000 + i) 1 (Sparse.get 0#8 m i).toNat))) m
  else m

/-- A team, read again from its slot. -/
def Team.back (pages : List (Option (Nat × Nat))) (get : SlotGet) (t : Team) : Team :=
  let n := get 0x40 4 (t.caddy.length + t.flowUse * 2 ^ 11) % 2 ^ 11
  let bars := t.bars.mapIdx (Barrier.back get)
  { t with
    groups := t.groups.mapIdx (Group.back pages get { t with bars := bars }), bars := bars,
    notify := t.notify.mapIdx (fun i w => BitVec.ofNat 32 (get (0x200 + 4 * i) 4 w.toNat)), cvs := t.cvs.mapIdx (CvReg.back get),
    capf := BitVec.ofNat 32 (get 0x20 4 t.capf.toNat), batchRows := get 0x28 4 t.batchRows,
    scratch0 := scratchBack pages get 0 t.carve t.scratch0, scratch1 := scratchBack pages get 1 t.carve t.scratch1,
    caddy := (List.range n).map fun i => itemBack get (0x3C6000 + 16 * i) (t.caddy.getD i ⟨0, 0, 0, 0⟩) }

/-- The rows of a saved team, read again; an image out of form leaves its row as it was saved (09 R203). -/
def State.rowsBack (s : State) (pages : List (Option (Nat × Nat))) (ti : Nat) : State :=
  ((s.team ti).rows.zipIdx).foldl (fun s x =>
    let off := 0x360000 + x.2 * 0x310
    if pageThere pages off && pageThere pages (off + 0x30F) then
      let img := (addrs off 0x310).map fun o => BitVec.ofNat 8 (s.slotGet pages o 1 0)
      if imageOk img then s.setAccRow x.1 (AccRow.ofImage img) else s
    else s) s

/-- A chain, read again (07 R160). -/
def Chain.back (get : SlotGet) (off : Nat) (k : Chain) : Chain :=
  let w := get off 4 (k.recOff / 32 % 2 ^ 15 + k.status % 128 * 2 ^ 16)
  let lw (i : Nat) : Nat := get (off + 0x18 + 4 * i) 4 (k.lc.getD i 0 % 2 ^ 24 + bitAt (k.act.getD i false) 31)
  let flt := bitN (get (off + 0x3C) 4 (bitAt (k.parkedOn fun _ => true) 0)) 0
  { k with
    recOff := w % 2 ^ 15 * 32, status := bitsN w 22 16, count := get (off + 4) 4 k.count, sb := dwordBack get (off + 8) k.sb,
    db := dwordBack get (off + 0x10) k.db, act := (List.range 4).map fun i => bitN (lw i) 31, lc := (List.range 4).map fun i => lw i % 2 ^ 24,
    p0 := get (off + 0x28) 4 k.p0, p1 := get (off + 0x2C) 4 k.p1, p2 := get (off + 0x30) 4 k.p2,
    st := if !flt && k.parkedOn (fun _ => true) then .walking else k.st }

/-- The chains of a saved team, read again, each from where its save put it. -/
def State.chainsBack (s : State) (get : SlotGet) (ti : Nat) : State :=
  (s.chains.filter (·.ti == ti)).foldl (fun s k =>
    s.modChain k.id fun k => k.back get (0x426000 + (s.group ti k.gi).pcore * 0x200 + 64 * k.img)) s

/-- The addresses of the parked lanes of a saved team's loads, read again. -/
def State.loadsBack (s : State) (get : SlotGet) (ti : Nat) : State :=
  (List.range (s.team ti).cores.length).foldl (fun s p => ((s.loadsOn ti p).zipIdx).foldl (fun s x =>
    { s with loads := updIf s.loads (·.id == x.1.id) fun d => { d with parts := d.parts.map fun q =>
        if q.parked then { q with va := get (0x3DE000 + p * 0x24000 + 576 * x.2 + 64 + 8 * q.lane) 8 q.va } else q } }) s) s

/-- Everything of a saved team that its slot gives, read again. -/
def State.slotBack (s : State) (ti slot : Nat) : State :=
  let (pages, s) := s.slotPages (dieOfCore ((s.team ti).cores.getD 0 0)) slot
  let get := s.slotGet pages
  (((s.rowsBack pages ti).chainsBack get ti).loadsBack get ti).modTeam ti fun t => t.back pages get

end Sys2Proof.Machine
end

