-- ==== Sys2Proof/Machine/Save.lean ====
section
/-! DEFINITION. Saving a team, its context slot, and restoring it: `ctxsv`, `ctxld`, the long-wait swap.

Rules of spec/: 07 R161; 12 R266, R269; 14 R299, R310, R320, R329; 15 R340; 16 R366, R367, R380, R381; 17 R384, R388. -/

namespace Sys2Proof.Machine

/-! ### Saving, R366 -/

/-- The lowest free context slot (R369). -/
def State.freeSlotNo (s : State) : Option Nat :=
  match firstFree (s.slots.map (·.slot)) s.module.poolCount 0 1 with
  | [i] => some i
  | _ => none

/-- What the accesses under way could do next, taken as done: each part of a load or store whose turn has come and that no machine check holds
(17 R384). -/
def State.moved1 (s : State) : State :=
  let load (d : Load) : Load :=
    if !s.placed d.ti then d
    else { d with parts := d.parts.map fun p =>
      if p.st == .wait && (readyParts s d p.pa).contains p && !s.checkHolds (dieOfCore d.core) (lineOf p.pa) true d.op.isAtomic then { p with st := .done } else p }
  let store (o : Store) : Store :=
    if !s.placed o.ti then o
    else { o with parts := o.parts.map fun p =>
      if (p.moves || p.st == .released) && (turnParts s o (ackParts o p.pa)).contains p && !s.checkHolds (dieOfCore o.core) (lineOf p.pa) o.op.isRed true
      then { p with st := .acked } else p }
  { s with loads := s.loads.map load, stores := s.stores.map store }

/-- The same again and again: what is not done then waits for a fault, a machine check, or the release of a held store. -/
def State.movedAll : Nat → State → State
  | 0, s => s
  | fuel + 1, s =>
    let s' := s.moved1
    if s'.loads == s.loads && s'.stores == s.stores then s else State.movedAll fuel s'

/-- R366, step 2, and 06 R127: nothing that the team has issued can still be performed, so that the rest has parked, logged or waits behind what has; what its
threads may have read in the L1s of its cores has been brought home (13 R291); and the row streams hold nothing of the team. -/
def State.saveReady (s : State) (ti : Nat) : Bool :=
  let calm := s.movedAll (sumNat (s.loads.map (·.parts.length)) + sumNat (s.stores.map (·.parts.length)))
  let seen (x : State) : List Store := x.stores.filter fun o => o.seen && (s.team ti).cores.contains o.core
  calm.loads.filter (·.ti == ti) == s.loads.filter (·.ti == ti) && calm.stores.filter (·.ti == ti) == s.stores.filter (·.ti == ti) && seen calm == seen s &&
    s.streams.all fun e => e.ti != ti || match e.op with
      | .sample _ => true
      | _ => false

/-- The number of the machine check that holds an access of a die. -/
def State.holdFid (s : State) (die line : Nat) (reads writes : Bool) : Nat :=
  match s.faults.find? fun f => f.holds die line reads writes with
  | some f => f.fid
  | none => noFault

/-- A lane of a load that a machine check keeps parked is saved as one parked on the number of the check; one that waits behind what has parked or logged
translates again at the restore. -/
def State.saveLoad (s : State) (d : Load) : Load :=
  { d with parts := d.parts.map fun p =>
      if p.st == .wait then { p with st := .parked (s.holdFid (dieOfCore d.core) (lineOf p.pa) true d.op.isAtomic) 0 } else p }

/-- A part of a store that a machine check keeps back is saved as an entry of the side log under the number of the check, and so, under no number, is one that
waits behind what has parked or logged; a released one stays in the steep buffer where it has an entry. -/
def State.saveStore (s : State) (o : Store) : Store :=
  let fid (p : StPart) : Nat := s.holdFid (dieOfCore o.core) (lineOf p.pa) o.op.isRed true
  { o with parts := o.parts.map fun p => match p.st with
      | .wait => { p with st := .logged (fid p) (o.id * 64 + p.lane) }
      | .replay q _ => { p with st := .logged (fid p) q }
      | .released => if p.buf then p else { p with st := .logged (fid p) p.place.1.toNat }
      | _ => p }

/-- What a save does to a thread: a wait is abandoned with the PC on its instruction, but for an arrival at a barrier (14 R320) and the
steps of a relabel (R310); starvation counts and latches are not saved. -/
def Thread.save (t : Thread) : Thread :=
  { t with starve := 0, latch := [],
           hold := match t.hold with
             | .barrier _ _ | .joining _ _ | .exclusion _ _ | .abandoned _ | .passed | .dead => t.hold
             | _ => .none }

/-- The signatures of a set that is not posted are discarded; its declaration stays (12 R269). -/
def CvReg.unsign (v : CvReg) : CvReg := { v with desc := 0, fw := 0, sigs := [] }

/-- A saved team; `cyc` is the cycle of its die. -/
def Team.save (t : Team) (slot cyc : Nat) : Team :=
  let t := t.mapThreads Thread.save
  { t with place := .saved slot, reqs := [], cvs := t.cvs.map CvReg.unsign, waitCount := 0, saving := none, savedAt := some cyc, tried := false,
           groups := t.groups.map fun g => { g with offer := none, counts := [], waited := 0 } }

/-- The chains of a team are numbered as their save puts them: those of each core in the order of its queue (16 R371). -/
def State.numberChains (s : State) (ti : Nat) : State :=
  (List.range (s.team ti).cores.length).foldl (fun s p =>
    ((s.chains.filter fun k => k.ti == ti && (s.group ti k.gi).pcore == p).zipIdx).foldl (fun s x =>
      s.modChain x.1.id fun k => { k with img := x.2 }) s) s

/-- A chain of a saved team is in no core's queue; its record is read again after the restore (07 R161; log 34). -/
def Chain.save (k : Chain) : Chain := { k with core := Config.nCores, now := none, dests := [] }

/-- A queue without the waiting takes of a team. -/
def Bfq.dropTakes (ti : Nat) (q : Bfq) : Bfq := { q with takes := q.takes.filter (·.ti != ti) }

/-- What the oldest waiting request of a team asks for: units, or rows if true. -/
def State.oldestWant (s : State) (ti : Nat) : Option (Bool × Nat) :=
  let u := minBy (fun r : RgetReq => r.age) (s.rgetQ.filter (·.ti == ti))
  let r := minBy (fun r : AcgReq => r.age) (s.acgQ.filter (·.ti == ti))
  match u, r with
  | some u, some r => if u.age ≤ r.age then some (false, u.n * (s.group ti u.gi).blockUnits) else some (true, r.n)
  | some u, none => some (false, u.n * (s.group ti u.gi).blockUnits)
  | none, some r => some (true, r.n)
  | none, none => none

/-- Whether some user core has the units, or the rows, that a request asks for. -/
def State.someCoreHas (s : State) (w : Bool × Nat) : Bool :=
  (List.range Config.nCores).any fun core => !isFwCore core && !s.module.outCores.contains core &&
    decide (w.2 ≤ if w.1 then s.freeRows (cluOfCore core) else s.unitsFree core)

/-- A swapped team becomes eligible when its oldest waiting request could be met (15 R340). -/
def State.settleWants (s : State) : State :=
  { s with slots := s.slots.map fun k => match k.wants with
      | some w => if k.auto && !k.eligible && s.someCoreHas w then { k with eligible := true } else k
      | none => k }

/-- Whether a unit of a team has been mapped out: once saved it is restored elsewhere (17 R390). -/
def State.displaced (s : State) (ti : Nat) : Bool :=
  (s.team ti).cores.any fun c => s.module.outCores.contains c || s.module.outClus.contains (cluOfCore c)

/-- The accesses of a saved team hold no entry of any core's park table, side log or steep buffer: their slot has them (14 R310; 16 R369). -/
def State.leaveCore (s : State) (ti : Nat) : State :=
  { s with loads := updIf s.loads (·.ti == ti) (fun d => { d with core := Config.nCores }),
           stores := updIf s.stores (·.ti == ti) fun o => { o with core := Config.nCores } }

/-- Saves a team into a slot (R366, steps 1 to 4). A lane that waits at `shf.close` stays a closer, whose trap may still come (04 R95). -/
def State.saveTeam (s : State) (ti slot : Nat) (auto : Bool) : State :=
  let t := s.team ti
  let die := dieOfCore (t.cores.getD 0 0)
  let cyc := (s.die die).cyc
  let layout := (s.die die).layNew
  let wants := s.oldestWant ti
  let s := { s with loads := updIf s.loads (·.ti == ti) s.saveLoad, stores := updIf s.stores (·.ti == ti) s.saveStore }.numberChains ti
  let s := t.cvs.foldl (fun s v => s.tilesDown ti (sigGroups v.sigs)) s
  let s := (s.writeSlot ti slot layout auto).leaveCore ti
  let base := BitVec.ofNat 64 (s.module.poolBase.toNat + slot * 2 ^ 23)
  let s := { s with
    rgetQ := s.rgetQ.filter (·.ti != ti), acgQ := s.acgQ.filter (·.ti != ti),
    streams := s.streams.filter (·.ti != ti),
    chains := updIf s.chains (·.ti == ti) Chain.save, bfqs := s.bfqs.map (Bfq.dropTakes ti),
    slots := s.slots ++ [(⟨slot, base, ti, auto, layout, s.displaced ti, cyc, wants⟩ : CtxSlot)] }
  let s := s.modTeam ti fun t => t.save slot cyc
  let s := t.cores.foldl (fun s core => (s.tryRegs core).tryRows (cluOfCore core)) s
  s.eventFault ti 0x20 6 0 0 slot

/-- Gives the lanes that wait for the save of a team their status (R380). -/
def State.answerSavers (s : State) (ti : Nat) (x : Word) : State :=
  { s with teams := s.teams.map fun t => t.mapThreads fun y => match y.hold with
      | .ctxsv d o => if o = ti then (y.setV d x).resume else y
      | _ => y }

/-- A save ends without a slot: the sets that had to wait for its end may be posted (12 R252), and a team whose unit has been mapped out ends with its
grid (17 R390; log 53). -/
def State.noSlot (s : State) (ti : Nat) : State :=
  let clu := cluOfCore ((s.team ti).cores.getD 0 0)
  let s := ((s.modTeam ti fun t => { t with saving := none }).answerSavers ti 0x03).tryPosts clu
  if s.displaced ti then s.terminateGrid (s.team ti).node else s

/-- Ends a save that can end: when the team is quiet and its slot can be written, when no slot is free any more, when the team is gone. -/
def State.settleSave (s : State) (ti : Nat) : State :=
  match (s.team ti).saving with
  | none => s
  | some auto =>
    if (s.team ti).place != .resident then (s.modTeam ti fun t => { t with saving := none }).answerSavers ti 0x01
    else match s.freeSlotNo with
      | none => s.noSlot ti
      | some slot =>
        if !s.saveReady ti then s
        else match s.slotOpen (dieOfCore ((s.team ti).cores.getD 0 0)) slot true with
          | (true, s) => (s.saveTeam ti slot auto).answerSavers ti (BitVec.ofNat 32 (slot * 65536))
          | (false, s) => s

/-- Ends every save that can end, and answers the savers of a team that was terminated meanwhile. -/
def State.settleSaves (s : State) : State :=
  ((List.range s.teams.length).foldl (fun s ti =>
    if (s.team ti).saving.isSome then s.settleSave ti
    else if (s.team ti).place == .gone then s.answerSavers ti 0x01
    else s) s).settleWants

/-! ### `ctxsv`, `ctxld`, R380, R381 -/

/-- The team that a context handle names (R368). -/
def State.teamOfHandle (s : State) (h : DWord) : Option Nat :=
  (List.range s.teams.length).find? fun ti =>
    (s.team ti).place != .gone && !(s.dies.any fun d => d.fwTeam == some ti) && s.handleOf ti == h

/-- The header of a slot shows AUTO no more, and its team waits for `ctxld` (R380, R381). -/
def State.clearAuto (s : State) (slot : Nat) : State :=
  match s.slots.find? (·.slot == slot) with
  | none => s
  | some k =>
    let die := s.slotDie k.ti
    let s := { s with slots := updIf s.slots (fun c => c.slot == slot) fun c => { c with auto := false, eligible := c.eligible && !c.auto } }
    let w := s.slotWord die slot 4 0
    s.slotWrite die slot 4 (natBytes 4 (if bitN w 1 then w - 2 else w))

/-- The result of `ctxsv`: a status, the lane waits for the save of a team, or it cannot start yet. -/
inductive SaveRes where
  | later
  | status (x : Word) (s : State)
  | waits (ti : Nat) (s : State)
  | ended (s : State)
deriving Repr

/-- What `ctxsv` of team `own` does. A team that waits for its first core has nothing to save (log 35). -/
def State.ctxsv (s : State) (own : Nat) (h : DWord) (mode : Word) : SaveRes :=
  match s.teamOfHandle h with
  | none => .status 0x01 s
  | some ti =>
    if mode = 1 then
      let s' := s.terminateGrid (s.team ti).node
      if (s.team ti).node = (s.team own).node then .ended s' else .status 0x04 s'
    else if mode != 0 then .status 0x01 s
    else match (s.team ti).place with
      | .saved slot =>
        .status (BitVec.ofNat 32 (0x02 + slot * 65536)) (s.clearAuto slot)
      | .resident =>
        if ti = own then .status 0x05 s
        else if s.freeSlotNo.isNone then .status 0x03 s
        else if s.activating then .later
        else .waits ti (s.modTeam ti fun t => { t with saving := some false, groups := t.groups.map fun g => { g with offer := none } })
      | _ => .status 0x01 s

/-- The other active lanes go on at the next word: the instruction acts for the lowest one alone. -/
def onward (s : State) (c : Cur) (act : List Nat) (l : Nat) : State := advance s c (act.filter (· != l))

/-- One lane gets a status and all go on. -/
def statusTo (s : State) (c : Cur) (l : Nat) (d : RegIx) (x : Word) : Res :=
  .done (s.modThread c.ti c.gi l fun t => t.setV d.toNat x)

/-- `ctxsv` (16 R380). -/
def execCtxsv (g : Guard) (d : RegIx) (a b : Src) : State → Out :=
  ordinary .kf g (d.toNat :: srcRegs 64 a ++ srcRegs 32 b) fun c act s =>
    match act with
    | [] => .done s
    | l :: _ =>
      let t := s.thread c.ti c.gi l
      match s.ctxsv c.ti (operand t 64 a) (src32 t b) with
      | .status x s => statusTo s c l d x
      | .ended s => .moved s
      | .later => .stall act
      | .waits ti s => .moved (((onward s c act l).modThread c.ti c.gi l fun t => t.wait c (.ctxsv d.toNat ti)).settleSave ti)

/-- `ctxld` (16 R381). -/
def execCtxld (g : Guard) (d : RegIx) (a : Src) : State → Out :=
  ordinary .kf g (d.toNat :: srcRegs 32 a) fun c act s =>
    match act with
    | [] => .done s
    | l :: _ =>
      let n := (src32 (s.thread c.ti c.gi l) a).toNat
      let die := s.die (dieOfCore (s.coreOf c.ti c.gi))
      if s.module.poolCount ≤ n then statusTo s c l d 0x01
      else match s.slots.find? (·.slot == n) with
        | none => statusTo s c l d 0x01
        | some k =>
          let layout := s.slotLayout (s.slotDie k.ti) k
          if !s.slotValid (s.slotDie k.ti) k then statusTo s c l d 0x01
          else if layout < die.layOld || die.layNew < layout then statusTo s c l d 0x05
          else statusTo { s with slots := updIf s.slots (·.slot == n) fun k => { k with eligible := true } } c l d 0x00

/-! ### The long-wait swap, 15 R340 -/

/-- Whether a thread can be selected now: its group issues at all. -/
def State.canIssue (s : State) (ti gi l : Nat) : Bool :=
  (s.team ti).place == .resident && (s.team ti).saving.isNone && (s.thread ti gi l).ready

/-- Whether every group of a team waits. -/
def State.teamWaits (s : State) (ti : Nat) : Bool :=
  let t := s.team ti
  (List.range t.groups.length).all fun gi => (t.group gi).live.all fun l => !s.canIssue ti gi l

/-- Whether some team waits for the core of another: it fits one of its cores or their cluster once that team is out. -/
def State.wanted (s : State) (ti : Nat) : Bool :=
  let without := s.modTeam ti fun t => { t with place := .gone }
  (List.range s.teams.length).any fun o => o != ti && s.waitsForCore o && (s.spot o).isNone &&
    match without.spot o with
    | some cores => cores.any fun c => (s.team ti).cores.any fun c' => cluOfCore c == cluOfCore c'
    | none => false

/-- Whether the long-wait swap takes a team out. -/
def State.swaps (s : State) (ti : Nat) : Bool :=
  let t := s.team ti
  let thr := (s.die (dieOfCore (t.cores.getD 0 0))).swapthr.toNat
  t.place == .resident && t.saving.isNone && !s.activating && thr != 0 && decide (thr < t.waitCount) && s.teamWaits ti && s.freeSlotNo.isSome
    && !(s.dies.any fun d => d.fwTeam == some ti) && s.wanted ti

/-- LONG_WAIT_SWAP (15 R340). -/
def execLongWaitSwap (ti : Nat) (s : State) : Out :=
  .next (if s.swaps ti then
    (s.modTeam ti fun t => { t with saving := some true, groups := t.groups.map fun g => { g with offer := none } }).settleSave ti else s)

/-- SWAP_RESTORE_TIMEOUT (15 R340): 4 × `sy.swapthr` cycles after the swap. -/
def execSwapRestoreTimeout (slot : Nat) (s : State) : Out :=
  .next <|
    match s.slots.find? (·.slot == slot) with
    | none => s
    | some k =>
      let t := s.team k.ti
      let die := s.die (s.slotDie k.ti)
      match t.savedAt with
      | some at' => if k.auto && decide (at' + 4 * die.swapthr.toNat ≤ die.cyc) then s.touchSaved k.ti else s
      | none => s

/-! ### Restoring, R367 -/

/-- A restored team stands on its new cores. -/
def Team.restore (t : Team) (slot : Nat) (cores : List Nat) : Team :=
  { t with place := .resident, cores := cores, slot := slot, waitCount := 0, savedAt := none }

/-- What a store in the steep buffer of a restored team translates again: its address, when it is released; one that was released is released
again at once. -/
def StPart.restore (p : StPart) : StPart := if p.st == .held || p.st == .released then { p with st := .held, untranslated := true } else p

/-- The loads, stores and chains of a restored team go to the core of their group; chains come to the head of its queue at once, whatever stands there
(07 R161; log 83). -/
def State.bringAccesses (s : State) (ti : Nat) : State :=
  let place (gi : Nat) : Nat := s.coreOf ti gi
  let mine := (s.chains.filter (·.ti == ti)).map fun k => { k with core := place k.gi }
  { s with
    loads := updIf s.loads (·.ti == ti) (fun d => { d with core := place d.gi }),
    stores := updIf s.stores (·.ti == ti) (fun o => { o with core := place o.gi, parts := o.parts.map StPart.restore }),
    chains := mine ++ s.chains.filter (·.ti != ti) }

/-- The retirements that waited for a saved home team arrive (14 R310). -/
def State.bringRetired (s : State) (ti : Nat) : State :=
  let home := s.retired.filter (·.home == ti)
  home.foldl State.arriveRetired { s with retired := s.retired.filter (·.home != ti) }

/-- The rows of a restored team are granted: from the reserve where its request took them there (12 R266). -/
def State.takeRows (s : State) (ti clu : Nat) : State :=
  let s := { s with acgQ := s.acgQ.filter (·.ti != ti) }
  match s.rowsForRestore ti clu (s.saveAge ti) (s.team ti).rows.length with
  | some true => { s with reserve := Sparse.put s.reserve clu (ti + 1) }
  | _ => s

/-- Puts a saved team onto cores, with what its slot holds. What waited for a fault that was resolved meanwhile translates again at once. -/
def State.restoreTeam (s : State) (ti slot : Nat) (cores : List Nat) : State :=
  let s := (s.slotBack ti slot).takeRows ti (cluOfCore (cores.headD 0))
  let s := s.slotWrite (s.slotDie ti) slot 4 (natBytes 4 0)
  let s := { s with slots := s.slots.filter (·.slot != slot) }
  let s := cores.foldl (fun s c => s.setCarve c (s.team ti).scr) s
  let s := s.modTeam ti fun t => t.restore (s.slotOn cores) cores
  let s := s.bringAccesses ti
  let live := s.faults.map (·.fid)
  let s := (s.resumeTeam ti s.nextId fun fid => !live.contains fid).bringRetired ti
  ((s.modTeam ti fun t => t.passBarriers (s.nextId + 1)).settleGrid (s.team ti).node).tryRows (cluOfCore (cores.headD 0))

/-- A team that could be restored but for its rows asks for them, on the engine of the first spot whose cores fit; its request is dated by its
save, and the requests that stood behind one it takes back are examined (12 R266). -/
def State.askRows (s : State) (ti : Nat) : State :=
  let before := (s.acgQ.filter (·.ti == ti)).map (·.clu)
  let s := { s with acgQ := s.acgQ.filter (·.ti != ti) }
  let s :=
    if !s.waitsForCore ti || (s.spot ti).isSome then s
    else match (s.spots ti).find? (s.coresFit (s.need ti)) with
      | none => s
      | some cores =>
        let core := cores.headD 0
        { s with acgQ := s.acgQ ++ [(⟨cluOfCore core, s.saveAge ti, core, ti, 0, (s.team ti).rows.length, 0, []⟩ : AcgReq)] }
  before.foldl State.tryRows s

/-- Restores a team once its slot can be read and no walk that its accesses need must wait. -/
def State.restoreNow (s : State) (ti slot : Nat) (cores : List Nat) : State :=
  let live := s.faults.map (·.fid)
  match s.slotOpen (s.slotDie ti) slot false with
  | (false, s) => s
  | (true, s) => match s.walkAll ti (dieOfCore (cores.headD 0)) (s.againPages ti fun fid => !live.contains fid) with
    | (false, s) => s
    | (true, s) => s.restoreTeam ti slot cores

/-- TEAM_RESTORE (16 R367; 15 R338, R340): in its turn, on cores that meet its saved needs. A layout that the image cannot read leaves the
slot as it is. -/
def execTeamRestore (slot : Nat) (s : State) : Out :=
  .next <|
    match s.slots.find? (·.slot == slot) with
    | none => s
    | some k => match (s.team k.ti).place, s.placeNow k.ti with
      | .saved _, some cores => s.restoreNow k.ti slot cores
      | .saved _, none => s.askRows k.ti
      | _, _ => s

end Sys2Proof.Machine
end

