-- ==== Sys2Proof/Machine/Select.lean ====
section
/-! DEFINITION. The selection of a run: the sorted PC table, yield flags, starvation, gathered runs.

Rules of spec/: 11 R240; 14 R295 to R298; 15 R341; 16 R376. -/

namespace Sys2Proof.Machine

/-- The key of a thread (R296): yield flag, then PC. -/
def Thread.key (t : Thread) : Nat := (if t.yielded then 2 ^ 64 else 0) + t.pc.toNat

/-- The lane whose key the selection takes (R296, R298): of the threads with a count of 64 or more the one with the largest count, else
the one with the least key. -/
def pickLane (g : Group) (ready : List Nat) : Option Nat :=
  let starving := ready.filter fun l => decide (64 ≤ (g.lane l).starve)
  let top := maxNat (starving.map fun l => (g.lane l).starve)
  if starving.isEmpty then minBy (fun l => (g.lane l).key) ready
  else minBy (fun l => (g.lane l).key) (starving.filter fun l => (g.lane l).starve == top)

/-- The run of every ready thread with the selected key. -/
def pickRun (g : Group) (ready : List Nat) : List Nat :=
  match pickLane g ready with
  | none => []
  | some l => ready.filter fun k => (g.lane k).key == (g.lane l).key

/-- Whether a thread waits at a gathered word. DESIGN CHOICE (log 113): one that a trap bank holds there (16 R351) does not, until that bank returns. -/
def Thread.gathers (t : Thread) (h : Hold) : Bool := t.hold == h && !t.heldK && !t.heldF

/-- The gathered run of a group, once it is complete: every thread at its gathered word (11 R240), or every handler lane at its `kret` or
`fret` (16 R376). -/
def Group.gatheredRun (g : Group) : Option (List Nat) :=
  let live := g.live
  let rets (f : Bool) : List Nat := live.filter fun l => (g.lane l).gathers (.ret f)
  let handlers (f : Bool) : List Nat := (lanesOf (g.bank f).tmask).filter fun l => live.contains l
  let pcs (ls : List Nat) : List Nat := dedupNat (ls.map fun l => (g.lane l).pc.toNat)
  let full (f : Bool) : Bool := (pcs (rets f)).length == 1 && (handlers f).all fun l => (rets f).contains l
  if !live.isEmpty && live.all fun l => (g.lane l).gathers .gather then some live
  else if full true then some (rets true)
  else if full false then some (rets false)
  else none

/-- The ready lanes of a group. -/
def State.readyLanes (s : State) (ti gi : Nat) : List Nat := (s.group ti gi).live.filter fun l => s.canIssue ti gi l

/-- Whether a group may make a selection or issue at all. -/
def State.groupRuns (s : State) (ti : Nat) : Bool := (s.team ti).place == .resident && (s.team ti).saving.isNone

/-- Whether a thread of the group has waited 64 selections (R298). -/
def State.starving (s : State) (ti gi : Nat) : Bool :=
  (s.readyLanes ti gi).any fun l => decide (64 ≤ (s.thread ti gi l).starve)

/-- A selection (R296, R298): the run is offered until it issues (R341). The counts as they were are kept: a run that turns out not to issue was no
selection. -/
def State.selectRun (s : State) (ti gi : Nat) : State :=
  let g := s.group ti gi
  let ready := s.readyLanes ti gi
  match pickRun g ready with
  | [] => s
  | run => s.modGroup ti gi fun g =>
      { g.modLanes ready (fun l t => { t with starve := if run.contains l then 0 else t.starve + 1 }) with offer := some run, counts := g.lanes.map (·.starve) }

/-- STARVATION_SELECTION (14 R298). -/
def execStarvationSelection (ti gi : Nat) (s : State) : Out :=
  .next (if s.groupRuns ti && (s.group ti gi).offer.isNone && s.starving ti gi then s.selectRun ti gi else s)

end Sys2Proof.Machine
end

