-- ==== Sys2Proof/Machine/System.lean ====
section
/-! DEFINITION. The system instructions: traps and returns, system registers, `tlbi`, `pfack`, `halt`, and those of firmware.

Rules of spec/: 02 R58, R60; 16 R351 to R354, R357 to R360, R368, R372 to R379, R382, R430; 17 R383, R388, R394 to R396. -/

namespace Sys2Proof.Machine

/-! ### Traps and returns, 16 R351, R375, R376 -/

/-- A software trap: the active lanes alone are handler lanes (R351). -/
def softTrap (cause : Nat) (g : Guard) (b : SrcB) : State → Out :=
  ordinary .all g (srcBRegs 32 b) fun c act s =>
    match act with
    | [] => .done s
    | l :: _ => .moved (takeTrap s c.ti c.gi act cause c.pc ((srcB32 (s.thread c.ti c.gi l) b).setWidth 64))

/-- `trap` (16 R375). -/
def execTrap (g : Guard) (b : SrcB) : State → Out := softTrap 0x0E g b
/-- `brk` (16 R375). -/
def execBrk (g : Guard) (b : SrcB) : State → Out := softTrap 0x0F g b

/-- The handler lanes of a bank that have not exited. -/
def Group.handlers (g : Group) (f : Bool) : List Nat := (lanesOf (g.bank f).tmask).filter fun l => !(g.lane l).exited

/-- A return from a trap, gathered over the handler lanes of its bank (R376). After a return from F a waiting machine check enters
(17 R384). -/
def trapRet (p : Priv) (f : Bool) : State → Out :=
  ordinary p .always [] fun c _ s =>
    let g := s.group c.ti c.gi
    if !(g.bank f).inh then .trap 0x03 c.w0
    else if (g.handlers f).all fun l => c.lanes.contains l then
      let s := trapReturn s c.ti c.gi f
      .moved (if f then s.deliverCheck (dieOfCore (s.coreOf c.ti c.gi)) else s)
    else .moved (s.modLanes c.ti c.gi c.lanes fun _ t => { t with hold := .ret f })

/-- `kret` (16 R376). -/
def execKret : State → Out := trapRet .kf false
/-- `fret` (16 R376). -/
def execFret : State → Out := trapRet .f true

/-- ILLEGAL_INSTRUCTION (02 R57, R58; 16 R354): a word that decode rejects. -/
def execIllegalInstruction (cause : BitVec 8) (w0 : DWord) (s : State) : Out :=
  match s.cur with
  | none => .fault .noRun
  | some c => .next (trapRun s c cause.toNat w0)

/-- How the fetch of the 8 bytes at an address ends for a run. -/
inductive FetchEnd where
  /-- Nothing is wrong with the page. -/
  | fine
  /-- The run is parked or has trapped. -/
  | over' (s : State)
  /-- A walk must wait (16 R357). -/
  | waits (s : State)
deriving Repr

/-- The fetch of the 8 bytes at an address for a run. DEDUCED (log 104): one that fails the check of a frame's tag raises 0x08 as a load does (05 R108). -/
def fetchCheck (s : State) (c : Cur) (va : Nat) : FetchEnd :=
  match s.translate (s.acx c.ti c.gi) .fetch va with
  | (.ok pa _ gen, s) => if s.frameLive gen pa then .fine else .over' (trapRun s c 0x08 (BitVec.ofNat 64 va))
  | (.later, s) => .waits s
  | (.bad _, s) => .over' (trapRun s c 0x06 c.pc)
  | (_, s) =>
    let (fid, s) := s.laneFault c.ti c.gi 0x05 2 va c.lanes .fetch
    .over' (s.modLanes c.ti c.gi c.lanes fun _ t => { t with fetchPark := some fid })

/-- FETCH_FAULT (16 R354): the fetch of the run's word, or of the literal of an X-form, parks its threads or raises 0x06. While a walk waits the run stays
on offer (15 R341). Where nothing is wrong with either page its threads are not ready: no port carries their fetch, or an unresolved machine check
holds the line (04 R72, 17 R385). -/
def execFetchFault (s : State) : Out :=
  match s.cur with
  | none => .fault .noRun
  | some c => .next <|
    match fetchCheck s c c.pc.toNat with
    | .over' s => s
    | .waits s => stallGroup s c
    | .fine => match if c.len = 16 then fetchCheck s c (c.pc.toNat + 8) else .fine with
      | .over' s => s
      | .waits s => stallGroup s c
      | .fine => stallLanes s c c.lanes

/-! ### System registers, R372, R377 -/

/-- The levels that may read a register. -/
def sysReads : SySel → Priv
  | .kCause | .kEpc | .kTval | .kTmask | .kStatus | .kKscr | .fvec | .mcq | .mch | .mct => .f
  | _ => .kf

/-- The levels that may write a register. -/
def sysWrites : SySel → Priv
  | .tmask | .kTmask | .ptroot | .asid | .owner | .ctxh | .fltt | .layout | .mct => .none
  | .kCause | .kEpc | .kTval | .kStatus | .kKscr | .fvec | .ctxpool | .mcq | .mch => .f
  | _ => .kf

/-- A register of a bank by its selector of R372; `cl` is the level now executing. -/
def Bank.get (b : Bank) (cl : Level) : SySel → DWord
  | .cause | .kCause => b.cause.setWidth 64
  | .epc | .kEpc => b.epc
  | .tval | .kTval => b.tval
  | .tmask | .kTmask => b.tmask
  | .status | .kStatus => BitVec.ofNat 64 (b.status cl)
  | _ => b.kscr

/-- A write to a register of a bank: `sy.status` accepts PL alone, `sy.epc` clears bits [2:0]. -/
def Bank.set (b : Bank) (x : DWord) : SySel → Bank
  | .cause | .kCause => { b with cause := loWord x }
  | .epc | .kEpc => { b with epc := clearLow3 x }
  | .tval | .kTval => { b with tval := x }
  | .tmask | .kTmask => b
  | .status | .kStatus => { b with pl := match (x.extractLsb' 0 2).toNat with
      | 1 => .k
      | 2 => .f
      | _ => .u }
  | _ => { b with kscr := x }

/-- The value of a register of a die (R359, R372, 17 R385). -/
def Die.get (d : Die) : SySel → DWord
  | .kvec => d.kvec
  | .fvec => d.fvec
  | .kroot => d.kroot
  | .swapthr => d.swapthr.setWidth 64
  | .fltq => BitVec.ofNat 64 (d.fltSz + bitAt d.fltStall 4) ||| d.fltBase
  | .fltw => d.fltw.setWidth 64
  | .flth => d.flth.setWidth 64
  | .fltt => d.fltt.setWidth 64
  | .layout => BitVec.ofNat 64 (d.layNew + d.layOld * 2 ^ 16)
  | .mcq => BitVec.ofNat 64 d.mcSz ||| d.mcBase
  | .mch => d.mch.setWidth 64
  | _ => d.mct.setWidth 64

/-- Bits [63:12] of a value. -/
def page12 (x : DWord) : DWord := x &&& ~~~0xFFF#64

/-- A write to a register of a die, each field by its own rule (R377). After a write to `sy.fltq` or `sy.kroot` posting tries again (R430). -/
def Die.set (d : Die) (x : DWord) : SySel → Die
  | .kvec => { d with kvec := clearLow3 x }
  | .fvec => { d with fvec := clearLow3 x }
  | .kroot => { d with kroot := x, fltRetry := true }
  | .swapthr => { d with swapthr := loWord x }
  | .fltq =>
    if 10 < (x.extractLsb' 0 4).toNat then { d with fltRetry := true }
    else { d with fltSz := (x.extractLsb' 0 4).toNat, fltBase := page12 x, fltRetry := true }
  | .fltw => { d with fltw := loWord x &&& 0x1FFFFF#32 }
  | .flth => { d with flth := loWord x }
  | .mcq => { d with mcBase := page12 x, mcSz := if 8 < (x.extractLsb' 0 4).toNat then d.mcSz else (x.extractLsb' 0 4).toNat }
  | .mch => { d with mch := loWord x }
  | _ => d

/-- Where a register stands. -/
inductive SyHome where
  | bank (f : Bool)
  | die
  | team
  | module
deriving DecidableEq, Repr

/-- The place of a register, for a group that executes at a level. -/
def sysHome (lv : Level) : SySel → SyHome
  | .cause | .epc | .tval | .tmask | .status | .kscr => .bank (lv == .f)
  | .kCause | .kEpc | .kTval | .kTmask | .kStatus | .kKscr => .bank false
  | .ptroot | .asid | .owner | .capf | .ctxh => .team
  | .ctxpool => .module
  | _ => .die

/-- A register of a team. -/
def State.teamReg (s : State) (ti : Nat) : SySel → DWord
  | .ptroot => s.rootOf ti
  | .asid => BitVec.ofNat 64 (s.asidOf ti)
  | .owner => BitVec.ofNat 64 (s.keyOf ti + s.fnOf ti * 2 ^ 12)
  | .capf => (s.team ti).capf.setWidth 64
  | _ => s.handleOf ti

/-- The value that `syr` reads. -/
def State.sysRead (s : State) (ti gi : Nat) (sel : SySel) : DWord :=
  let g := s.group ti gi
  match sysHome g.level sel with
  | .bank f => (g.bank f).get g.level sel
  | .die => (s.die (dieOfCore (s.coreOf ti gi))).get sel
  | .team => s.teamReg ti sel
  | .module => BitVec.ofNat 64 s.module.poolCount ||| s.module.poolBase

/-- What `syw` writes. -/
def State.sysWrite (s : State) (ti gi : Nat) (sel : SySel) (x : DWord) : State :=
  let die := dieOfCore (s.coreOf ti gi)
  match sysHome (s.group ti gi).level sel with
  | .bank f => s.modGroup ti gi fun g => g.setBank f ((g.bank f).set x sel)
  | .die =>
    let s := s.modDie die fun d => d.set x sel
    if sel == .mcq || sel == .mch then s.deliverCheck die else s
  | .team => s.modTeam ti fun t => if sel == .capf then { t with capf := loWord x } else t
  | .module => { s with module := { s.module with poolCount := (x.extractLsb' 0 16).toNat, poolBase := x &&& ~~~0x7FFFFF#64 } }

/-- `syr` (16 R377). -/
def execSyr (g : Guard) (d : RegIx) (sel : SySel) : State → Out :=
  ordinary (sysReads sel) g (regRegs sel.w d) fun c act s =>
    .done (s.modLanes c.ti c.gi act fun _ t => t.setVW sel.w d.toNat (s.sysRead c.ti c.gi sel))

/-- `syw` (16 R377): the value of the lowest active lane. -/
def execSyw (g : Guard) (a : Src) (sel : SySel) : State → Out :=
  ordinary (sysWrites sel) g (srcRegs sel.w a) fun c act s =>
    match act with
    | [] => .done s
    | l :: _ => .done (s.sysWrite c.ti c.gi sel (operand (s.thread c.ti c.gi l) sel.w a))

/-! ### `tlbi`, R357, R378, R383 -/

/-- Whether an access that some entry translated has been performed, parked or logged. -/
def State.tlbQuiet (s : State) (upTo : Nat) (asid : Option Nat) (lo hi : Nat) (dies : List Nat) : Bool :=
  let hit (t ti core va : Nat) : Bool := decide (t < upTo) && dies.contains (dieOfCore core) && decide (lo ≤ va) && decide (va < hi) &&
    match asid with
    | none => true
    | some a => spaceOf (s.asidOf ti) va == a
  (s.loads.all fun d => d.parts.all fun p => !(p.st == .wait && s.placed d.ti && hit d.t d.ti d.core p.va)) &&
  s.stores.all fun o => o.parts.all fun p =>
    let moves := match p.st with
      | .wait | .released | .replay _ _ => true
      | .held => !p.untranslated
      | _ => false
    !(moves && s.placed o.ti && hit o.t o.ti o.core p.va)

/-- The lanes that wait at `tlbi` and whose condition holds get their status; posting tries again on their dies (R430). -/
def State.settleTlbi (s : State) : State :=
  (List.range s.teams.length).foldl (fun s ti =>
    ((s.team ti).allLanes).foldl (fun s x => match x.2.2.hold with
      | .tlbi d upTo asid lo hi dies =>
        if s.tlbQuiet upTo asid lo hi dies then
          let s := s.modThread ti x.1 x.2.1 fun t => (t.setV d 0).resume
          dies.foldl (fun s die => s.modDie die fun d => { d with fltRetry := true }) s
        else s
      | _ => s) s) s

/-- What `tlbi` names: the address space if one, and the range; none for an invalid control word. -/
def tlbiNames (ctl : Word) (va : DWord) : Option (Option Nat × Nat × Nat) :=
  let n := ctl.toNat
  let size := match bitsN n 3 2 with
    | 0 => 2 ^ 16
    | 1 => 2 ^ 21
    | _ => 2 ^ 30
  if bitsN n 1 0 = 3 || bitsN n 3 2 = 3 || bitsN n 15 4 != 0 then none
  else match bitsN n 1 0 with
    | 0 => some (some (bitsN n 31 16), va.toNat / size * size, va.toNat / size * size + size)
    | 1 => some (some (bitsN n 31 16), 0, 2 ^ 57)
    | _ => some (none, 0, 2 ^ 57)

/-- Whether a `tlbi` names an entry of a die: its address space, and its range that overlaps the named one. -/
def tlbNames (asid : Option Nat) (lo hi : Nat) (dies : List Nat) (die a va size : Nat) : Bool :=
  dies.contains die && decide (va < hi) && decide (lo < va + size) && match asid with
    | none => true
    | some x => a == x

/-- Invalidates the entries that a `tlbi` names on some dies, the cached pointer entries on the way to them too. -/
def State.tlbDrop (s : State) (asid : Option Nat) (lo hi : Nat) (dies : List Nat) : State :=
  let named := tlbNames asid lo hi dies
  { s with tlb := s.tlb.filter (fun e => !named e.die e.asid e.va e.size),
           walks := s.walks.filter fun e => !named e.die e.asid (e.page * 2 ^ e.shift) (2 ^ e.shift) }

/-- The range over which the entries that a `tlbi` names have translated: the named range, and what larger entries reach beyond it (R378). -/
def State.tlbReach (s : State) (asid : Option Nat) (lo hi : Nat) (dies : List Nat) : Nat × Nat :=
  (s.tlb.filter fun e => tlbNames asid lo hi dies e.die e.asid e.va e.size).foldl
    (fun r e => (min r.1 e.va, max r.2 (e.va + e.size))) (lo, hi)

/-- The companion filter: the dies that A names, with the issuing one; A becomes 0 (R357). -/
def State.takeCompanion (s : State) (pa key die : Nat) : List Nat × State :=
  let s := s.settle (lineOf pa) key
  let old := bytesNat (s.cohBytes key pa 8)
  ((List.range 4).filter (fun d => bitN old d || d == die), s.homeWriteBytes key pa (natBytes 8 (old / 16 * 16)))

/-- Runs a `tlbi` that names something on some dies. -/
def runTlbi (s : State) (c : Cur) (act : List Nat) (l : Nat) (d : RegIx) (n : Option Nat × Nat × Nat) (dies : List Nat) : Res :=
  let r := s.tlbReach n.1 n.2.1 n.2.2 dies
  let s := s.tlbDrop n.1 n.2.1 n.2.2 dies
  let s := (onward s c act l).modThread c.ti c.gi l fun t => t.wait c (.tlbi d.toNat s.nextId n.1 r.1 r.2 dies)
  .moved s.settleTlbi

/-- The exchange of a companion word as an atomic of a lane, for the orders that hold at it. -/
def exchangeLoad (s : State) (ti gi : Nat) : Load := { readLoad s ti gi 8 with op := .bnd .dom }

/-- Whether a lane may exchange a companion word now: it waits for what an atomic waits for (13 R285, R293). -/
def State.exchangeReady (s : State) (ti gi l va pa key gen : Nat) : Bool :=
  !s.acqOpen ti gi l && partReady s (exchangeLoad s ti gi) ⟨l, va, pa, key, gen, 0, 0, .wait⟩

/-- `tlbi` (16 R378). The exchange fails the check of a frame's tag as an atomic does (05 R108). DESIGN CHOICE (log 118): a lane whose companion's page is missing
issues its `tlbi` again once the fault is resolved, so that a protection fault met then is precise. -/
def execTlbi (g : Guard) (d : RegIx) (a : Src) (b : SrcB) (comp : Option RegIx) : State → Out :=
  ordinary .kf g (d.toNat :: srcRegs 64 a ++ srcBRegs 32 b ++ (match comp with | some r => [r.toNat, r.toNat + 1] | none => []))
    fun c act s =>
      match act with
      | [] => .done s
      | l :: _ =>
        let t := s.thread c.ti c.gi l
        let ctl := srcB32 t b
        match tlbiNames ctl (operand t 64 a) with
        | none => statusTo s c l d 0x01
        | some n =>
          match comp with
          | none => runTlbi s c act l d n [0, 1, 2, 3]
          | some r =>
            if bitsN ctl.toNat 1 0 != 0 then runTlbi s c act l d n [0, 1, 2, 3]
            else
              let ca := (t.d r.toNat).toNat
              match memChecks s (s.acx c.ti c.gi) .atom 8 [(l, ca)] with
              | .trap cause v => .trap cause v
              | .later s => .later s
              | .pass [(_, _, .ok pa key gen)] s =>
                let die := dieOfCore (s.coreOf c.ti c.gi)
                if !s.exchangeReady c.ti c.gi l ca pa key gen then .stall act
                else if !s.frameLive gen pa then .trap 0x08 (BitVec.ofNat 64 ca)
                else match s.access die [lineOf pa] [lineOf pa] with
                | (false, s) => .later s
                | (true, s) =>
                  let (dies, s) := (s.markDirty (s.acx c.ti c.gi) ca).takeCompanion pa key die
                  runTlbi s c act l d n dies
              | .pass _ s => .moved (parkLanes (onward s c act l) c [(l, ca)] .atom)

/-! ### `pfack`, `halt`, R379, R382 -/

/-- `pfack` (16 R379). -/
def execPfack (g : Guard) (d : RegIx) (a b : Src) : State → Out :=
  ordinary .kf g (d.toNat :: srcRegs 32 a ++ srcRegs 32 b) fun c act s =>
    match act with
    | [] => .done s
    | l :: _ =>
      let t := s.thread c.ti c.gi l
      match s.resolveFault (src32 t a).toNat (src32 t b) with
      | (some x, s) => statusTo s c l d (BitVec.ofNat 32 x)
      | (none, s) => .later s

/-- Whether a condition of `halt` holds already (R382). -/
def State.haltOver (s : State) (ti gi : Nat) : Bool :=
  let d := s.die (dieOfCore (s.coreOf ti gi))
  ((s.team ti).notify.any (· != 0)) || d.fltt != d.flth || ((s.group ti gi).level == .f && d.mct != d.mch)

/-- `halt` (16 R382): it waits at the next word. -/
def execHalt (g : Guard) : State → Out :=
  ordinary .kf g [] fun c act s =>
    if s.haltOver c.ti c.gi then .done s
    else .moved (s.modLanes c.ti c.gi act fun _ t => { t with pc := c.pc + BitVec.ofNat 64 c.len, hold := .halt })

/-! ### `keyld`, 17 R395 -/

/-- Every cache line of the module under a key id is written back, if it is dirty, and dropped. -/
def State.flushKey (s : State) (key : Nat) : State :=
  let lines := dedupNat ((s.cache.filter fun e => e.key == key).map (·.line))
  lines.foldl (fun s l => (s.recallL1 l).writeBackL2 l) s

/-- `keyld` (17 R395). -/
def execKeyld (g : Guard) (d : RegIx) (a : Src) (b : SrcB) : State → Out :=
  ordinary .f g (d.toNat :: srcRegs 32 a ++ srcBRegs 64 b) fun c act s =>
    match act with
    | [] => .done s
    | l :: _ =>
      let t := s.thread c.ti c.gi l
      let key := (src32 t a).toNat
      let va := (operandB t 64 b).toNat
      if 4095 < key then statusTo s c l d 0x01
      else if va % 64 != 0 then .trap 0x04 (BitVec.ofNat 64 va)
      else match s.loadRange c.ti c.gi l va 64 with
        | (.trap cause v, _) => .trap cause (BitVec.ofNat 64 v)
        | (.wait, _) => .stall act
        | (.park v, s) => .moved (parkLanes (onward s c act l) c [(l, v)] .load)
        | (.ok bs, s) =>
          let s := s.flushKey key
          statusTo { s with keys := Sparse.set 0 s.keys key (bytesNat bs) } c l d 0x00

/-! ### `fwq`, R388, R396 -/

/-- Translates the pages of a range for writing: the first that fails decides. -/
inductive Span where
  | ok (ps : List Piece)
  | park (va : Nat)
  /-- A walk must wait. -/
  | later
  | trap (cause va : Nat)
deriving DecidableEq, Repr

/-- Translates the pages of a range that an instruction writes as part of its own step. -/
def State.spanPages (s : State) (x : Acx) : List (Nat × Nat) → Span × State
  | [] => (.ok [], s)
  | (va, n) :: rest =>
    match s.translate x .store va with
    | (.miss, s) | (.dup, s) => (.park va, s)
    | (.later, s) => (.later, s)
    | (.bad cause, s) => (.trap cause va, s)
    | (.ok pa key gen, s) => match (s.markDirty x va).spanPages x rest with
      | (.ok ps, s) => (.ok (⟨pa, n, key, gen, !s.frameLive gen pa⟩ :: ps), s)
      | r => r

/-- Writes data over translated pages. -/
def State.spanWrite (s : State) : List Piece → List Byte → State
  | [], _ => s
  | p :: rest, data =>
    (if p.dead then s
      else if !isDevice p.addr then s.homeWriteBytes p.key p.addr (data.take p.len)
      else if s.isLocal p.addr then s.devWrite .kernel (locOf p.addr) ((data.take p.len).map some)
      else s.rawWrite p.addr (data.take p.len)).spanWrite rest (data.drop p.len)

/-- Whether a store of a core over translated pages is still to be performed, what the steep buffer holds apart: one that stands in its L1, or in its side log,
under which what is written at its home would go (13 R291; 16 R362). -/
def State.coreOver (s : State) (ti core va : Nat) (ps : List Piece) : Bool :=
  s.stores.any fun o => o.core == core && o.parts.any fun q => q.st != .acked && q.st != .held &&
    ((q.untranslated && spaceOf (s.asidOf o.ti) q.va == spaceOf (s.asidOf ti) va && overlap q.va (partLen o q) va 64) ||
      (!q.untranslated && ps.any fun p => overlap q.pa (partLen o q) p.addr p.len))

/-- Whether a thread has an access under way that its own step at a range of translated pages must follow: it would be overtaken (13 R291). -/
def State.ownOpen (s : State) (ti gi l va n : Nat) (ps : List Piece) : Bool :=
  let meets (a : Nat) (ap : Option Nat) (m : Nat) : Bool := overlap a m va n || ps.any fun p => meet a ap m va (some p.addr) p.len
  s.acqOpen ti gi l ||
    (s.loads.any fun d => d.ti == ti && d.gi == gi && d.parts.any fun p => p.lane == l && p.open' && meets p.va p.at? d.n) ||
    s.stores.any fun o => o.ti == ti && o.gi == gi && o.parts.any fun p => p.lane == l && p.st != .acked && meets p.va p.at? (partLen o p)

/-- `fwq.pull` (17 R396): the bytes are written as a store of its lane is, behind what the thread did before. -/
def execFwqPull (g : Guard) (d a : RegIx) : State → Out :=
  ordinary .f g [d.toNat, a.toNat, a.toNat + 1] fun c act s =>
    match act, s.mgmtIn with
    | [], _ => .done s
    | l :: _, [] => statusTo s c l d 0x01
    | l :: _, m :: rest =>
      let va := ((s.thread c.ti c.gi l).d a.toNat).toNat
      match s.spanPages (s.acx c.ti c.gi) (pagePieces va 64) with
      | (.trap cause v, _) => .trap cause (BitVec.ofNat 64 v)
      | (.park v, s) => .moved (parkLanes (onward s c act l) c [(l, v)] .store)
      | (.later, s) => .later s
      | (.ok ps, s) =>
        if s.ownOpen c.ti c.gi l va 64 ps || s.coreOver c.ti (s.coreOf c.ti c.gi) va ps then .stall act
        else match s.access (dieOfCore (s.coreOf c.ti c.gi)) [] (pieceLines false ps) with
          | (false, s) => .later s
          | (true, s) => statusTo ({ s with mgmtIn := rest, mgmtDue := s.mgmtDue ++ [m] }.spanWrite ps m) c l d 0x00

/-- The management requests without the oldest that is not answered: one that was copied, else one still pending. -/
def State.answerOldest (s : State) : Option State :=
  match s.mgmtDue, s.mgmtIn with
  | _ :: rest, _ => some { s with mgmtDue := rest }
  | [], _ :: rest => some { s with mgmtIn := rest }
  | [], [] => none

/-- `fwq.push` (17 R396). -/
def execFwqPush (g : Guard) (d a : RegIx) : State → Out :=
  ordinary .f g [d.toNat, a.toNat, a.toNat + 1] fun c act s =>
    match act, s.answerOldest with
    | [], _ => .done s
    | l :: _, none => statusTo s c l d 0x01
    | l :: _, some _ =>
      let va := ((s.thread c.ti c.gi l).d a.toNat).toNat
      match s.loadRange c.ti c.gi l va 64 with
      | (.trap cause v, _) => .trap cause (BitVec.ofNat 64 v)
      | (.wait, _) => .stall act
      | (.park v, s) => .moved (parkLanes (onward s c act l) c [(l, v)] .load)
      | (.ok bs, s) =>
        let s := s.answerOldest.getD s
        statusTo { s with sent := s.sent ++ [OutMsg.mgmtResponse bs] } c l d 0x00

/-- The valid slots that an image cannot read (17 R388). -/
def State.unreadable (s : State) (lo new : Nat) : List CtxSlot := s.slots.filter fun k =>
  let layout := s.slotLayout (s.slotDie k.ti) k
  s.slotValid (s.slotDie k.ti) k && (decide (layout < lo) || decide (new < layout))

/-- Every die runs the new image. -/
def State.activate (s : State) (lo new : Nat) : State :=
  { s with dies := s.dies.map fun d => { d with layNew := new, layOld := lo } }

/-- Terminates the grid of a slot that the new image cannot read, frees the slot, and stops its queue. -/
def State.dropUnreadable (s : State) (k : CtxSlot) : State :=
  let node := (s.team k.ti).node
  let s := match s.nodes[node]? with
    | some n => s.stopQueue n.q 0x05
    | none => s
  if (s.team k.ti).place == .gone then s else s.terminateGrid node

/-- The activation of an image once no save is in progress: its status and what it does (17 R388, R396). -/
def State.doActivate (s : State) (force : Bool) : Word × State :=
  let k := s.freeCtr
  let lo := (Config.imageOld k).toNat
  let new := (Config.imageNew k).toNat
  let s := { s with freeCtr := k + 1 }
  let bad := s.unreadable lo new
  if !Config.imageSigned k then (0x02, s)
  else if !bad.isEmpty && !force then (BitVec.ofNat 32 (0x03 + bad.length * 65536), s)
  else (0x00, (bad.foldl State.dropUnreadable s).activate lo new)

/-- Whether a save is in progress. -/
def State.savesRun (s : State) : Bool := s.teams.any (·.saving.isSome)

/-- `fwq.act` (17 R388, R396). While saves are in progress its lane waits, and no save or restore starts (`State.activating`). -/
def execFwqAct (g : Guard) (d a : RegIx) (force : Bool) : State → Out :=
  ordinary .f g [d.toNat, a.toNat, a.toNat + 1] fun c act s =>
    match act with
    | [] => .done s
    | l :: _ =>
      if s.savesRun then .moved ((onward s c act l).modThread c.ti c.gi l fun t => t.wait c (.activate d.toNat force))
      else
        let (x, s) := s.doActivate force
        statusTo s c l d x

/-- The lanes that wait at `fwq.act`: team, group, lane, destination, force. -/
def State.activators (s : State) : List (Nat × Nat × Nat × Nat × Bool) :=
  (List.range s.teams.length).flatMap fun ti => (s.team ti).allLanes.filterMap fun x => match x.2.2.hold with
    | .activate d force => some (ti, x.1, x.2.1, d, force)
    | _ => none

/-- Activations that waited go on once no save is in progress (17 R388). -/
def State.settleActivate (s : State) : State :=
  if s.savesRun then s
  else s.activators.foldl (fun s w =>
    let (x, s) := s.doActivate w.2.2.2.2
    s.modThread w.1 w.2.1 w.2.2.1 fun t => (t.setV w.2.2.2.1 x).resume) s

end Sys2Proof.Machine
end

