-- ==== Sys2Proof/Machine/Module.lean ====
section
/-! DEFINITION. The module as a system: machine checks, failing units, peers and links, the service port, boot.

Rules of spec/: 00 R2; 03 R65, R67; 04 R72 to R78; 05 R97, R98; 17 R384 to R392, R396. -/

namespace Sys2Proof.Machine

/-! ### Machine checks with requesters, 17 R384, R385 -/

/-- A requester of a failing access: team, group, core and lanes. One without a team is an agent that no thread stands behind (log 119). -/
structure Requester where
  ti : Option Nat
  gi : Nat
  core : Nat
  lanes : List Nat
  reads : Bool
  writes : Bool
deriving DecidableEq, Repr

/-- The loads that wait for a reply of a line. -/
def State.loadersOf (s : State) (line : Nat) (atomic : Bool) : List Requester :=
  (s.loads.filter fun d => !atomic || d.op.isAtomic).filterMap fun d =>
    let ls := (d.parts.filter fun p => p.st == .wait && lineOf p.pa == line).map (·.lane)
    if ls.isEmpty then none else some ⟨some d.ti, d.gi, d.core, ls, true, d.op.isAtomic⟩

/-- The groups whose threads fetch their next word from a line, or whose next word reads it in its own step. -/
def State.fetchReq (s : State) (line : Nat) : List Requester :=
  (List.range s.teams.length).flatMap fun ti =>
    let ls := s.fetchersOf ti line
    (dedupNat (ls.map (·.1))).map fun gi => ⟨some ti, gi, s.coreOf ti gi, (ls.filter (·.1 == gi)).map (·.2), true, false⟩

/-- The lanes of a store that waits for a line, entries of the side log that are replayed among them. -/
def Store.requester (o : Store) (line : Nat) : Option Requester :=
  let ls := (o.parts.filter fun p => p.moves && lineOf p.pa == line).map (·.lane)
  if ls.isEmpty then none else some ⟨some o.ti, o.gi, o.core, ls, o.op.isRed, true⟩

/-- The chain whose burst accesses a line, for the lane that started it. -/
def State.chainRequester (s : State) (k : Chain) (line : Nat) : Option Requester :=
  let ws := ((s.burstLines k).filter fun x => x.1 == line).map (·.2)
  if k.st != .walking || ws.isEmpty then none
  else some ⟨some k.ti, k.gi, s.chainCore k, [k.lane], ws.contains false, ws.contains true⟩

/-- Who waits for a line that fails a read: loads, reductions, chains, then fetches. -/
def State.readersOf (s : State) (line : Nat) : List Requester :=
  s.loadersOf line false ++ (s.stores.filter (·.op.isRed)).filterMap (·.requester line) ++
    ((s.chains.filterMap fun k => s.chainRequester k line).filter (·.reads)) ++ s.fetchReq line

/-- The stores that wait for the ownership of a line. -/
def State.writersOf (s : State) (line : Nat) : List Requester := s.stores.filterMap (·.requester line)

/-- An agent of a die that no thread stands behind: a peer, a front-end, a walker, a ring, a slot or a shuffle. -/
def agentOf (die : Nat) : Requester := ⟨none, 0, die * Config.coresPerDie, [], true, true⟩

/-- Whether a check is one of a die, a source and a line. -/
def FaultRec.isCheck (f : FaultRec) (die src pa : Nat) : Bool := f.check && f.die == die && f.cause == src && lineOf f.va == lineOf pa

/-- Raises a machine check of source `src` about a line; its requester, if one waits, is parked under a new fault number. A check of the
same die, line and source that is not resolved takes the requester in with its lanes, and no new record is written. The record keeps its unit. -/
def State.lineCheck (s : State) (die src pa unit : Nat) (r : Option Requester) : State :=
  match r with
  | none => s.raiseCheck die (McRec.plain src pa unit)
  | some q =>
    let mask := maskOf q.lanes
    let mine (f : FaultRec) : Bool := f.isCheck die src pa
    let handle := (q.ti.map s.handleOf).getD 0
    if s.faults.any mine then
      { s with faults := updIf s.faults (fun f => mine f && f.handle == handle && f.grp == q.gi) fun f => { f with mask := f.mask ||| mask } }
    else
      let asid := (q.ti.map s.asidOf).getD 0
      let (fid, s) := s.nextFid die
      let f : FaultRec :=
        { fid := fid, die := die, cause := src, kind := 0, asid := asid, va := pa, mask := mask, handle := handle, core := q.core,
          grp := q.gi, accR := q.reads, accW := q.writes, accX := false, slot := unit, posted := false, check := true, ti := q.ti,
          chain := none }
      { s with faults := s.faults ++ [f] }.raiseCheck die
        ⟨src, true, asid, fid, BitVec.ofNat 64 pa, mask, handle, q.core, q.gi, unit, 0⟩

/-- The number of an engine or copy engine as a failing unit. -/
def engineUnit (clu : Nat) : Nat := 0x10000 + clu

/-- SRC and UNIT of a check. -/
def checkCode : CheckSrc → Nat × Nat
  | .poison port => (1, port)
  | .unitError (.core c) => (4, c)
  | .unitError (.engine die clu) | .unitError (.copyEngine die clu) => (4, engineUnit (die * Config.cluPerDie + clu))
  | .dram die chan => (5, die * 256 + chan)

/-- The die whose firmware gets a check: of poison the home die of the line behind its CXL port (03 R67), else the die of the failing unit. A port or a DRAM
behind which the line does not stand reports nothing about it. -/
def State.checkDie (s : State) (src : CheckSrc) (pa : Nat) : Option Nat :=
  match src with
  | .poison port => if s.isLocal pa && (match locKind (locOf pa) with | .cxl p _ => p == port | _ => false) then s.homeDie pa else none
  | .unitError (.core c) => some (dieOfCore c)
  | .unitError (.engine die _) | .unitError (.copyEngine die _) => some die
  | .dram die _ => if s.isLocal pa && locKind (locOf pa) == .dram die then some die else none

/-- The requester that a check of a source parks: of a core's or an engine's error one on the die of the unit, which alone it holds; poison is met by a read,
and where State knows no reader of the line an agent has made it (log 119). -/
def State.checkRequester (s : State) (die src line : Nat) : Option Requester :=
  let rs := s.readersOf line
  if src = 4 then rs.find? fun q => dieOfCore q.core == die
  else if src = 1 then some (rs.headD (agentOf die))
  else rs.head?

/-- MACHINE_CHECK (17 R384, R385; 03 R67): a unit of a die reports an error on a line. -/
def execMachineCheck (die : Nat) (src : CheckSrc) (pa : Nat) (s : State) : Out :=
  let k := checkCode src
  .next (if s.checkDie src pa = some die then s.lineCheck die k.1 pa k.2 (s.checkRequester die k.1 (lineOf pa)) else s)

/-- The lanes of a load that waits for a line of a peer. -/
def Load.requester (d : Load) (line : Nat) : Option Requester :=
  let ls := (d.parts.filter fun p => p.st == .wait && lineOf p.pa == line).map (·.lane)
  if ls.isEmpty then none else some ⟨some d.ti, d.gi, d.core, ls, true, d.op.isAtomic⟩

/-- Whether no copy of a line on the die of a core serves its fetches and reads. -/
def State.farLine (s : State) (core line : Nat) : Bool :=
  !s.cache.any fun e => e.line == line && (e.lvl == .l1 core || e.lvl == .l1i core || e.lvl == .rdc (dieOfCore core))

/-- The thread whose next word stands on a line of a peer, or reads it in its own step. -/
def State.laneRemote (s : State) (ti gi l line : Nat) : Option Requester :=
  let core := s.coreOf ti gi
  if (s.fetchersOf ti line).contains (gi, l) && s.farLine core line then some ⟨some ti, gi, core, [l], true, false⟩ else none

/-- The address about which a response is waited for. -/
def waitedPa : PeerWait → Nat
  | .access _ pa | .chain _ pa | .lane _ _ _ pa | .agent _ pa => pa

/-- Who waits for a line of a peer, and since which cycle of its die: an access since its request left, a chain since it came to the burst, a thread
since its group issued last (log 105), an agent of a die since it asked first (log 119). -/
def State.remoteWait (s : State) (w : PeerWait) : Option (Requester × Nat) :=
  let line := lineOf (waitedPa w)
  if s.isLocal (waitedPa w) then none
  else match w with
    | .access id _ => match s.loads.find? (·.id == id) with
      | some d => (d.requester line).map fun r => (r, d.sent)
      | none => match s.stores.find? (·.id == id) with
        | some o => (o.requester line).map fun r => (r, o.sent)
        | none => none
    | .chain id _ => match s.chain id with
      | some k => (s.chainRequester k line).map fun r => (r, k.sent)
      | none => none
    | .lane ti gi l _ => (s.laneRemote ti gi l line).map fun r => (r, s.cycOf ti gi - (s.group ti gi).waited)
    | .agent die _ => (s.unanswered.find? fun u => u.die == die && u.line == line).map fun u => (agentOf die, u.since)

/-- The cycle from which the time of a request counts: after a RETRY, that of the RETRY on its die (17 R384). -/
def State.askedSince (s : State) (die pa since : Nat) : Nat := max since (Sparse.get 0 s.againAt (lineOf pa * 4 + die))

/-- REMOTE_TIMEOUT (04 R75): a request for a line of a peer has waited 4,000,000 cc. -/
def execRemoteTimeout (w : PeerWait) (s : State) : Out :=
  .next <|
    match s.remoteWait w with
    | none => s
    | some (q, since) =>
      let die := dieOfCore q.core
      let pa := waitedPa w
      if decide (s.askedSince die pa since + Config.requestLimit ≤ (s.die die).cyc) then s.lineCheck die 2 pa (devOf pa) (some q) else s

/-- UNIT of a holder (17 R385). -/
def holderUnit : Holder → Nat
  | .l1 c => c
  | .rdc d => d * Config.coresPerDie
  | .dev d => 0x8000 + d

/-- INVALIDATION_TIMEOUT (05 R98): a holder has not acknowledged in 4,000,000 cc of the home die. -/
def execInvalidationTimeout (line : Nat) (h : Holder) (s : State) : Out :=
  .next <|
    if !s.invals.contains (line, h) then s
    else match s.homeDie (128 * line) with
      | none => s
      | some die =>
        if decide (Sparse.get 0 s.invalAt line + Config.requestLimit ≤ (s.die die).cyc + 1) then
          s.lineCheck die 3 (128 * line) (holderUnit h) (s.writersOf line ++ s.loadersOf line true).head?
        else s

/-! ### Units mapped out, R390 -/

/-- The cores and clusters that go with a unit: an engine takes its whole cluster. -/
def unitScope : UnitId → List Nat × List Nat
  | .core c => ([c], [])
  | .engine die clu | .copyEngine die clu =>
    let k := die * Config.cluPerDie + clu
    ((List.range 4).map (4 * k + ·), [k])

/-- A team on a failing unit is saved, once its accesses have come so far as a save needs (16 R366), and may be restored elsewhere, or its grid is
terminated. -/
def State.evacuate (s : State) (saved : Bool) (ti : Nat) : State :=
  if (s.team ti).place != .resident then s
  else if saved && s.freeSlotNo.isSome then
    s.modTeam ti fun t => { t with saving := some true, groups := t.groups.map fun g => { g with offer := none } }
  else s.terminateGrid (s.team ti).node

/-- Mapping a unit out resolves the machine checks about it: what they kept parked goes on (17 R384). -/
def State.unitChecksGone (s : State) (cores clus : List Nat) : State :=
  let about (f : FaultRec) : Bool :=
    f.check && ((f.cause == 4 && (cores.contains f.slot || (clus.map engineUnit).contains f.slot)) || (f.cause == 3 && cores.contains f.slot))
  (s.faults.filter about).foldl State.retryFault s

/-- The teams that run on some cores, those of the firmware apart. -/
def State.teamsOver (s : State) (cores : List Nat) : List Nat :=
  (List.range s.teams.length).filter fun ti => (s.team ti).place == .resident && !(s.dies.any fun d => d.fwTeam == some ti)
    && (s.team ti).cores.any fun c => cores.contains c

/-- A unit is mapped out, and its teams leave it. -/
def State.mapOut (s : State) (u : UnitId) (saved : Bool) : State :=
  let (cores, clus) := unitScope u
  let newCores := cores.filter fun c => !s.module.outCores.contains c && decide (c < Config.nCores)
  let newClus := clus.filter fun k => !s.module.outClus.contains k && decide (k < Config.nDies * Config.cluPerDie)
  let m := s.module
  let s := { s with module := { m with outCores := m.outCores ++ newCores, outClus := m.outClus ++ newClus, repl := true,
                                       ucores := m.ucores - (newCores.filter fun c => !isFwCore c).length, clus := m.clus - newClus.length } }
  (((s.teamsOver cores).foldl (fun s ti => s.evacuate saved ti) s).unitChecksGone cores clus).settleSaves

/-- UNIT_MAP_OUT (17 R390): UCORES and CLUS fall, REPL is set, and the unit's teams leave it. One that would start a save waits while `fwq.act` does
(R388). -/
def execUnitMapOut (u : UnitId) (saved : Bool) (s : State) : Out :=
  .next (if saved && s.activating && !(s.teamsOver (unitScope u).1).isEmpty then s else s.mapOut u saved)

/-! ### Peers, 04 R72, R73, 05 R97, R98 -/

/-- The operations of a combined atomic, one after the other (06 R125): the bytes left, and each one's value before it, of `w` bytes. -/
def combined (op : LoadOp) (n w : Nat) (old : List Byte) (lanes : List (DWord × DWord)) : List Byte × List Byte :=
  lanes.foldl (fun r x => let q := rmwStep op n r.1 x.1 x.2
                          (q.1, r.2 ++ natBytes w q.2.toNat)) (old, [])

/-- Bytes of an atomic of a peer. -/
def atomBytes (w64 : Bool) : Nat := if w64 then 8 else 4

/-- A write of a peer, or an atomic, at the home slice: its new bytes and what it answers. -/
def remoteEffect (old : List Byte) (op : RemoteOp) : List (Option Byte) × List Byte :=
  let whole (r : List Byte × List Byte) : List (Option Byte) × List Byte := (r.1.map some, r.2)
  match op with
  | .load _ | .drop => ([], old)
  | .store bs => (bs, [])
  | .atom a sg w64 lanes => whole (combined (.rmw a sg .dom) (atomBytes w64) (atomBytes w64) old lanes)
  | .bound w64 lanes => whole (combined (.bnd .dom) (atomBytes w64) (atomBytes w64) old (lanes.map fun x => (x, 0)))
  | .topk norm k lanes => whole (combined (.topk norm k .dom) 64 4 old lanes)

/-- The bytes that a remote access touches. -/
def remoteLen : RemoteOp → Nat
  | .load n => n
  | .store bs => bs.length
  | .atom _ _ w64 _ | .bound w64 _ => atomBytes w64
  | .topk _ _ _ => 64
  | .drop => 0

/-- Whether a remote access writes. -/
def remoteWrites : RemoteOp → Bool
  | .load _ => false
  | _ => true

/-- The home answers a request of a peer. -/
def State.answerPeer (s : State) (dev pa : Nat) (bs : List Byte) : State := { s with sent := s.sent ++ [OutMsg.remoteReply dev pa bs] }

/-- Serves a remote access to memory that is homed here. The line comes to the home L2; a peer that has read it is a holder, and one that writes it stays
one. -/
def State.serveRemote (s : State) (dev pa key : Nat) (op : RemoteOp) : State :=
  let line := lineOf pa
  let s := s.settle line key
  let old := s.cohBytes key pa (remoteLen op)
  match op with
  | .load _ => ((s.touchL2 key line).recordHolder line (.dev dev)).answerPeer dev pa old
  | .drop => (s.discardLine line).answerPeer dev pa []
  | op =>
    let (new, reply) := remoteEffect old op
    let held := (s.holders line).contains (.dev dev)
    let s := (s.takeLine key line).homeWrite key (liveCells pa new)
    (if held then s.recordHolder line (.dev dev) else s).answerPeer dev pa reply

/-- The runs of bytes that a mask lets through: address and bytes. -/
def maskRuns (pa : Nat) : List (Option Byte) → List (Nat × List Byte)
  | [] => []
  | none :: rest => maskRuns (pa + 1) rest
  | some b :: rest => match maskRuns (pa + 1) rest with
    | (a, bs) :: more => if a = pa + 1 then (pa, b :: bs) :: more else (pa, [b]) :: (a, bs) :: more
    | [] => [(pa, [b])]

/-- An access of a peer to a pool frame fails the check of its tag: no arena is reached from another module (05 R104, R108). -/
def State.failPeer (s : State) (dev pa : Nat) : RemoteOp → State
  | .store _ | .drop => s.answerPeer dev pa []
  | _ => { s with sent := s.sent ++ [OutMsg.remoteFail dev pa 0x08] }

/-- An access of a peer to the device registers of this module. -/
def State.devPeer (s : State) (dev pa : Nat) : RemoteOp → State
  | .load n => s.answerPeer dev pa (s.devRead (locOf pa) n)
  | .store bs => (s.devWrite .kernel (locOf pa) bs).answerPeer dev pa []
  | _ => s

/-- REMOTE_REQUEST (04 R73): an access of module `dev` arrives; it is one request, so its bytes are of one line (06 R125). A write first
invalidates the other holders (05 R98); an access to a line of an unresolved machine check waits (17 R384). -/
def execRemoteRequest (dev pa key : Nat) (op : RemoteOp) (s : State) : Out :=
  .next <|
    if !s.isLocal pa || !s.populated pa || dev == s.module.dev || lineOf (pa + (remoteLen op - 1)) != lineOf pa then s
    else if isDevice pa then s.devPeer dev pa op
    else if s.meetsPool pa 1 then s.failPeer dev pa op
    else if s.checkHolds Config.nDies (lineOf pa) (match op with | .store _ | .drop => false | _ => true) (remoteWrites op) then s
    else if remoteWrites op then
      let (s', busy) := s.sendInvals (lineOf pa) (some (.dev dev))
      if busy then s' else s.serveRemote dev pa key op
    else s.serveRemote dev pa key op

/-- LINK_PAUSE (04 R76, R77): a channel's receive buffer of 64 KiB now holds `occKiB`. -/
def execLinkPause (port : Nat) (shf : Bool) (occKiB : Nat) (s : State) : Out :=
  .next (if 64 < occKiB then s
    else s.modPort port fun p => (if shf then { p with rxShf := occKiB } else { p with rxReq := occKiB }).measured)

/-- PORT_DOWN (04 R72): the port carries nothing any more; `State.portFor` chooses among the others. -/
def execPortDown (port : Nat) (s : State) : Out := .next (s.modPort port fun p => { p with up := false })

/-! ### Management and the service port -/

/-- MANAGEMENT_REQUEST (17 R396): a request of 64 bytes becomes pending, from a management port or the console; before READY nothing of a management
port takes effect (R386). A multi-step operation from a port that does not own SEM is refused with an MCTP error (R391). -/
def execManagementRequest (r : MgmtRequest) (s : State) : Out :=
  .next <|
    if !s.module.ready || r.bytes.length != 64 then s
    else match r.port with
      | some p => if r.multi && s.sem.owner != p + 1 then { s with sent := s.sent ++ [OutMsg.mctpError p] } else { s with mgmtIn := s.mgmtIn ++ [r.bytes] }
      | none => { s with mgmtIn := s.mgmtIn ++ [r.bytes] }

/-- SERVICE_PORT_WRITE (05 R98): a write from behind the service port, at the home slices, once every holder has acknowledged. Pool frames are not
reached (R104, R108). -/
def execServicePortWrite (pa : Nat) (bytes : List Byte) (s : State) : Out :=
  .next <|
    let lines := dedupNat ((addrs pa bytes.length).map lineOf)
    if !(s.module.ready && s.isLocal pa && s.populated pa && !isDevice pa) || lines.any (fun l => s.checkHolds Config.nDies l false true) then s
    else
      let (s', busy) := s.ownLines lines
      if busy then s'
      else
        let live := maskRuns pa (((addrs pa bytes.length).zip bytes).map fun c => if s.populated c.1 && !s.meetsPool c.1 1 then some c.2 else none)
        live.foldl (fun s r => s.rawWrite r.1 r.2) s'

/-- The queues of a function. -/
def State.queuesOf (s : State) (fn : Nat) : List Nat := (s.queues.filter fun e => e.2.fn == fn).map (·.1)

/-- FUNCTION_LEVEL_RESET (17 R389): queues stop, grids are terminated, batch rows are voided, the untaken ones before any queue forms a batch again
(15 R344); it completes with the last arena. The service port is not enabled before READY (R386). -/
def execFunctionLevelReset (fn : Nat) (s : State) : Out :=
  .next <|
    if fn = 0 || 63 < fn || !s.module.ready then s
    else
      let s := (s.queuesOf fn).foldl (fun s q => s.stopQueue q 0x06) s
      let nodes := (List.range s.nodes.length).filter fun k => match s.nodes[k]? with
        | some n => n.fn == fn && n.st != .complete && !n.terminated
        | none => false
      let s := (nodes.foldl State.terminateGrid (s.dropUntaken fn)).voidFunction fn
      { s with module := { s.module with resetting := addNat s.module.resetting fn } }

/-- A function reset is complete when every arena of its grids is dead. -/
def State.settleResets (s : State) : State :=
  let left (fn : Nat) : Bool := s.nodes.any fun n => n.fn == fn && n.terminated && !n.arenas.isEmpty
  { s with module := { s.module with resetting := s.module.resetting.filter left } }

/-! ### Boot, R386, R387 -/

/-- The packet that describes the firmware team of a die: one group of 16 lanes with every register block (log 32). -/
def fwPacket (entry : DWord) : LaunchPkt :=
  { after := false, pair := false, inv := false, prio := 0, hash := false, list := false, nteam := 1, gw := 0, ngrp := 0, regs := 16,
    scr := 0, acc := 0, entry := entry, args := 0, capf := 0, nexp := 1, areq0 := ⟨0, 0⟩, areq1 := ⟨0, 0⟩, areq2 := ⟨0, 0⟩, areq3 := ⟨0, 0⟩,
    isrc := 0, nx := 0, ny := 1, nz := 1, cls := 0, lsrc := 0, lbl := 0, sx := 0, sy := 0, sz := 0 }

/-- The node of the firmware teams. -/
def fwNode (im : Image) : Node :=
  { q := 256, pkt := 0, p := fwPacket im.entry, st := .running, asid := 0, key := 0, fn := 0, ptroot := im.root, arenas := [],
    produced := 0, robin := 0, srcDone := true, blocked := none, deathStep := 0, terminated := false }

/-- The firmware team of a die, on its firmware core at level F. -/
def fwTeamOf (node : Nat) (im : Image) (die : Nat) : Team :=
  { freshTeam node (fwNode im) 0 with
    place := .resident, cores := [die * Config.coresPerDie], groups := [freshGroup .f (fwPacket im.entry) 0] }

/-- A die with its firmware team. -/
def Die.withFw (d : Die) (ti : Nat) : Die := { d with fwTeam := some ti }

/-- The firmware teams are placed, one for each die. -/
def State.startFirmware (s : State) : State :=
  let im := s.pins.image
  let node := s.nodes.length
  let first := s.teams.length
  { s with nodes := s.nodes ++ [fwNode im], teams := s.teams ++ (List.range Config.nDies).map (fwTeamOf node im),
           dies := s.dies.mapIdx (fun d x => x.withFw (first + d)) }

/-- A port after the exchange of numbers: one whose partner announces the module's own number is left down and recorded as mis-cabled. -/
def Port.train (p : Port) (miscabled : Bool) : Port := { p with up := !miscabled, miscabled := miscabled }

/-- Boot step 3 on the Skepra ports. -/
def State.trainPorts (s : State) : State :=
  { s with ports := s.ports.mapIdx (fun i p => p.train (s.pins.partners.getD i 1024 == s.module.dev)) }

/-- A die with the vector that the boot image writes. -/
def Die.withVec (v : DWord) (d : Die) : Die := { d with fvec := clearLow3 v }
/-- A die with the layouts of an image. -/
def Die.withLayout (im : Image) (d : Die) : Die := { d with layNew := im.layNew, layOld := im.layOld }

/-- Shows a stage of boot in MODSTAT. -/
def State.stage (s : State) (n : Nat) : State := { s with module := { s.module with stage := n } }

/-- The next stage of boot. -/
def State.bootStep (s : State) : State :=
  let m := s.module
  let im := s.pins.image
  if m.ready || m.stage = 0xF then s
  else match m.stage with
    | 0 =>
      if !im.sigOk || decide (900 ≤ s.pins.devid) then s.stage 0xF
      else { s with module := { m with stage := 1, dev := s.pins.devid }, dies := s.dies.map (Die.withVec im.fvec) }
    | 1 => s.stage 2
    | 2 => { s with module := { m with stage := 3, published := true }, dies := s.dies.map (Die.withLayout im) }.trainPorts
    | _ => { s.startFirmware with module := { m with stage := 4, ready := true } }

/-- POWER_GOOD (17 R386, R387; 16 R373): one stage of boot at each execution. -/
def execPowerGood (s : State) : Out := .next s.bootStep

end Sys2Proof.Machine
end

