-- ==== Sys2Proof/Machine/Narrow.lean ====
section
/-! DEFINITION. Narrow dot products, block scales and the helpers of the range 0x180 to 0x1BF: spec/11 R235 to R248. -/

namespace Sys2Proof.Machine

/-- The element format of a narrow type. -/
def ntyElem : NTy → EFmt
  | .i8 => .i8
  | .n8 => .n8
  | .i4 => .i4
  | _ => .n4

/-- Element `i` of a register, by 09 R194. -/
def regElem (f : EFmt) (x : DWord) (i : Nat) : Nat := x.toNat / 2 ^ (ewidth f * i) % 2 ^ ewidth f

/-- The exact sum of values that are no infinities: none where one of them is a NaN. -/
def sumExact : List Num → Option (Int × Int)
  | [] => some (0, 0)
  | .fin m e :: t => (sumExact t).map fun (s, k) => addFin m e s k
  | .zero _ :: t => sumExact t
  | _ :: _ => none

/-- `dot4` and `dot8` (11 R237): `n` elements, exact sum, one rounding. DESIGN CHOICE (log 85): R237 gives an exactly zero float result no sign;
it is that of an exact zero sum in R226, +0, or -0 under RD. -/
def dotN (n : Nat) (t : NTy) (rm : Rnd) (a b c : DWord) : DWord :=
  let f := ntyElem t
  let prods := (List.range n).map fun i => (decodeElem f (regElem f a i)).mul (decodeElem f (regElem f b i))
  match sumExact prods with
  | none => f32Nan.setWidth 64
  | some (m, e) =>
    if (f == .i8) || (f == .i4) then patW 32 (m * 2 ^ e.toNat + sintW 32 c)
    else
      match fpIn ffF32 c with
      | .nan => f32Nan.setWidth 64
      | x => fpOut ffF32 rm ((numFin m e).add (isDown rm) x)

/-- `dot4` (11 R237). -/
def execDot4 (g : Guard) (t : NTy) (rm : Rnd) (d : Dst) (a : Src) (b : SrcB) (c : Src) : State → Out :=
  alu3 g 32 d 32 a 32 b 32 c (dotN 4 t rm)
/-- `dot8` (11 R237). -/
def execDot8 (g : Guard) (t : NTy) (rm : Rnd) (d : Dst) (a : Src) (b : SrcB) (c : Src) : State → Out :=
  alu3 g 32 d 32 a 32 b 32 c (dotN 8 t rm)

/-- m × 2^e times 2^k. -/
def Num.scale (k : Int) : Num → Num
  | .fin m e => .fin m (e + k)
  | x => x

/-- `bscl` (11 R238). -/
def bsclW (rm : Rnd) (a b c : DWord) : DWord :=
  let e := b.toNat % 256
  let mu := if b.getLsbD (8 + c.toNat % 8) then 1 else 0
  if e = 0xFF then f32Nan.setWidth 64
  else fpOut ffF32 rm ((fpIn ffF32 a).scale ((e : Int) - 127 - mu))
/-- `bscl` (11 R238). -/
def execBscl (g : Guard) (rm : Rnd) (d : Dst) (a : Src) (b : SrcB) (c : Src) : State → Out :=
  alu3 g 32 d 32 a 32 b 32 c (bsclW rm)

/-- emax and the largest value of a narrow type (11 R239). -/
def narrowLimits : NTy → Int × Int
  | .i8 => (6, 127)
  | .n8 => (7, 240)
  | .i4 => (2, 7)
  | _ => (2, 6)

/-- `bexp` (11 R239). -/
def bexpW (t : NTy) (a : DWord) : DWord :=
  match fpIn ffF32 a with
  | .nan | .inf _ => 0xFF
  | .zero _ => 0
  | .fin m e => BitVec.ofInt 64 (satInt ((Nat.log2 m.natAbs : Int) + e - (narrowLimits t).1 + 127) 0 254)
/-- `bexp` (11 R239). -/
def execBexp (g : Guard) (t : NTy) (d : Dst) (a : Src) : State → Out := alu1 g 32 d 32 a (bexpW t)

/-- `mexp` (11 R239). -/
def mexpW (t : NTy) (a b : DWord) : DWord :=
  let e := b.toNat % 256
  if e = 0xFF then 0
  else
    match fpIn ffF32 a with
    | .nan | .inf _ => 0
    | .zero _ => 1
    | .fin m k =>
      let (p, q) := pow2Q (k + 128 - e)
      bit01 (decide ((m.natAbs * p : Nat) ≤ ((narrowLimits t).2 * q : Int)))
/-- `mexp` (11 R239). -/
def execMexp (g : Guard) (t : NTy) (d : Dst) (a : Src) (b : SrcB) : State → Out := alu2 g 32 d 32 a 32 b (mexpW t)

/-! ### Gathered instructions -/

/-- The lanes of P with what each read: lane, A and B. -/
abbrev Gathered := List (Nat × DWord × DWord)

/-- What lane `l` of P read as A, if it is in P. -/
def Gathered.a (p : Gathered) (l : Nat) : Option DWord := (p.find? fun e => e.1 == l).map fun e => e.2.1

/-- The rank of a lane (11 R240). -/
def Gathered.rank (p : Gathered) (l : Nat) : Nat := (p.filter fun e => decide (e.1 < l)).length

/-- The A values of the lanes whose predicate bit in B is set. -/
def Gathered.picked (p : Gathered) : List DWord := (p.filter fun e => e.2.2.getLsbD 0).map fun e => e.2.1

/-- `cmpr` (11 R245). -/
def execCmpr (g : Guard) (t : NTy) (d : Dst) (a : Src) (b : SrcB) : State → Out :=
  crossLane g t.w d t.w a 32 b fun p l _ => (Gathered.picked p).getD (Gathered.rank p l) 0
/-- `expd` (11 R245). -/
def execExpd (g : Guard) (t : NTy) (d : Dst) (a : Src) (b : SrcB) : State → Out :=
  crossLane g t.w d t.w a 32 b fun p l x =>
    if x.2.getLsbD 0 then
      let k := (p.filter fun e => decide (e.1 < l) && e.2.2.getLsbD 0).length
      (p.map fun e => e.2.1).getD k 0
    else 0

/-- The source lane of `lxch`, as its A value; the lane's own where there is none (11 R241). -/
def lxchPick (w : Nat) (m : LxMode) (p : Gathered) (l : Nat) (x : DWord × DWord) : DWord :=
  let n := x.2.toNat % 64
  let at? (j : Nat) : Option DWord := if j < w then Gathered.a p j else none
  let r := match m with
    | .at => at? n
    | .rot => at? ((l + n) % w)
    | .bfly => at? (l ^^^ n)
    | .rank => (p[n]?).map fun (e : Nat × DWord × DWord) => e.2.1
  r.getD x.1

/-- `lxch` (11 R241): the group's width W bounds the source lane. -/
def execLxch (g : Guard) (m : LxMode) (t : NTy) (d : Dst) (a : Src) (b : SrcB) (s : State) : Out :=
  let w := match s.cur with | some c => (s.group c.ti c.gi).lanes.length | none => 0
  crossLane g t.w d t.w a 32 b (lxchPick w m) s

/-- `vote` (11 R242). -/
def voteW (op : VoteOp) (p : Gathered) : DWord :=
  let ones := p.filter fun e => e.2.1.getLsbD 0
  match op with
  | .all => bit01 (ones.length == p.length)
  | .any => bit01 (!ones.isEmpty)
  | .uni => bit01 (match p with | [] => true | e :: t => t.all fun x => x.2.1 == e.2.1)
  | .ballot => maskOf (ones.map fun e => e.1)
  | .cnt => BitVec.ofNat 64 ones.length
/-- `vote` (11 R242). -/
def execVote (g : Guard) (op : VoteOp) (d : Dst) (a : Src) : State → Out :=
  crossLane g (if op == .ballot then 64 else 32) d 32 a 32 (.src (.imm 0)) fun p _ _ => voteW op p

/-- The integer type of a scalar helper type. -/
def ntyInt : NTy → IntTy
  | .s32 => .s32
  | _ => .b32

/-- One step of `scan` (11 R243). -/
def scanStep (op : ScanOp) (t : NTy) (x y : DWord) : DWord :=
  if t == .f32 then
    match op with
    | .add => fpAdd ffF32 .rne x y
    | .min => fpMinMax false ffF32 x y
    | .max => fpMinMax true ffF32 x y
  else
    match op with
    | .add => low 32 (x + y)
    | .min => minW (ntyInt t) x y
    | .max => maxW (ntyInt t) x y

/-- The identities of `scan` (11 R243). -/
def scanIdent (op : ScanOp) (t : NTy) : DWord :=
  match op, t with
  | .add, _ => 0
  | .min, .s32 => 0x7FFFFFFF
  | .min, .f32 => 0x7F800000
  | .min, _ => 0xFFFFFFFF
  | .max, .s32 => 0x80000000
  | .max, .f32 => 0xFF800000
  | .max, _ => 0

/-- `scan` (11 R243). -/
def execScan (g : Guard) (op : ScanOp) (exc : Bool) (t : NTy) (d : Dst) (a : Src) : State → Out :=
  crossLane g 32 d 32 a 32 (.src (.imm 0)) fun p l _ =>
    (p.filter fun e => if exc then decide (e.1 < l) else decide (e.1 ≤ l)).foldl
      (fun acc e => scanStep op t acc e.2.1) (scanIdent op t)

/-- `match` (11 R244). -/
def execMatchL (g : Guard) (all : Bool) (t : NTy) (d : Dst) (a : Src) : State → Out :=
  crossLane g 64 d t.w a 32 (.src (.imm 0)) fun p _ x =>
    let same := (p.filter fun e => e.2.1 == x.1).map fun e => e.1
    if all then (if same.length = p.length then maskOf same else 0) else maskOf same

/-- The sort key of `cxch` (11 R246). -/
def cxchKey (t : NTy) (x : DWord) : Int :=
  match t with
  | .s32 => sintW 32 x
  | .f32 => scoreKey (loWord x)
  | _ => uintW 32 x

/-- `cxch` (11 R246). -/
def cxchW (w : Nat) (t : NTy) (p : Gathered) (l : Nat) (x : DWord × DWord) : DWord :=
  let dist := x.2.toNat % 64
  let k := x.2.toNat / 256 % 64
  let j := l ^^^ dist
  match (if j = l || decide (w ≤ j) then none else Gathered.a p j) with
  | none => x.1
  | some y =>
    let lo := if l < j then x.1 else y
    let hi := if l < j then y else x.1
    if cxchKey t lo = cxchKey t hi then x.1
    else
      let desc := l &&& k != 0
      let firstIsLo := decide (cxchKey t lo < cxchKey t hi) != desc
      if firstIsLo == decide (l < j) then lo else hi
/-- `cxch` (11 R246). -/
def execCxch (g : Guard) (t : NTy) (d : Dst) (a : Src) (b : SrcB) (s : State) : Out :=
  let w := match s.cur with | some c => (s.group c.ti c.gi).lanes.length | none => 0
  crossLane g 32 d 32 a 32 b (cxchW w t) s

/-! ### Sparse pairs and bit search -/

/-- The magnitude that `spk24` compares; a NaN ranks above every number (11 R247). -/
def spkMag (t : NTy) (e : Nat) : Nat :=
  if t == .n8 then (if e = 0x80 then 0x80 else e % 128) else (sintNat 8 e).natAbs

/-- Whether position `i` ranks above position `j`. -/
def spkBeats (t : NTy) (a : DWord) (i j : Nat) : Bool :=
  let x := spkMag t (regElem .i8 a i)
  let y := spkMag t (regElem .i8 a j)
  decide (y < x) || (x == y && decide (i < j))

/-- `spk24` (11 R247): the positions that fewer than two others beat. -/
def spk24W (t : NTy) (a : DWord) : DWord :=
  let kept := (List.range 4).filter fun i => decide (((List.range 4).filter fun j => spkBeats t a j i).length < 2)
  match kept with
  | [p, q] => BitVec.ofNat 64 (regElem .i8 a p + 256 * regElem .i8 a q + 65536 * p + 262144 * q)
  | _ => 0
/-- `spk24` (11 R247). -/
def execSpk24 (g : Guard) (t : NTy) (d : Dst) (a : Src) : State → Out := alu1 g 32 d 32 a (spk24W t)

/-- `sxp24` (11 R247). -/
def sxp24W (a : DWord) : DWord :=
  let e0 := a.toNat % 256
  let e1 := a.toNat / 256 % 256
  let p0 := a.toNat / 65536 % 4
  let p1 := a.toNat / 262144 % 4
  BitVec.ofNat 64 ((if p0 = p1 then 0 else e0 * 256 ^ p0) + e1 * 256 ^ p1)
/-- `sxp24` (11 R247). -/
def execSxp24 (g : Guard) (_t : NTy) (d : Dst) (a : Src) : State → Out := alu1 g 32 d 32 a sxp24W

/-- `ffs` (11 R248). -/
def ffsW (w : Nat) (a b : DWord) : DWord :=
  match ((List.range w).filter fun i => a.getLsbD i)[b.toNat % 2 ^ 32]? with
  | some i => BitVec.ofNat 64 i
  | none => 0xFFFFFFFF
/-- `ffs` (11 R248). -/
def execFfs (g : Guard) (t : NTy) (d : Dst) (a : Src) (b : SrcB) : State → Out := alu2 g 32 d t.w a 32 b (ffsW t.w)

end Sys2Proof.Machine
end

