-- ==== Sys2Proof/Machine/Dispatch.lean ====
section
/-! DEFINITION. One arm for each instruction: its meaning. -/

namespace Sys2Proof.Machine

/-- What an instruction does to the machine: `State.cur` holds the run that issues an encoded word. -/
def exec (i : Instr) (s : State) : Host.Outcome State Fault Refusal :=
  match i with
  | .nop => Sys2Proof.Machine.execNop s
  | .br g b => Sys2Proof.Machine.execBr g b s
  | .bri g a => Sys2Proof.Machine.execBri g a s
  | .call g d b => Sys2Proof.Machine.execCall g d b s
  | .calli g d a => Sys2Proof.Machine.execCalli g d a s
  | .ret g a => Sys2Proof.Machine.execRet g a s
  | .exit g => Sys2Proof.Machine.execExit g s
  | .yield g => Sys2Proof.Machine.execYield g s
  | .bar g n b => Sys2Proof.Machine.execBar g n b s
  | .barArr g n b => Sys2Proof.Machine.execBarArr g n b s
  | .barWt g b => Sys2Proof.Machine.execBarWt g b s
  | .nap g d lim ch => Sys2Proof.Machine.execNap g d lim ch s
  | .napTimeout ti gi lane => Sys2Proof.Machine.execNapTimeout ti gi lane s
  | .ntfy g t v ch => Sys2Proof.Machine.execNtfy g t v ch s
  | .take g d c => Sys2Proof.Machine.execTake g d c s
  | .takeG g d c => Sys2Proof.Machine.execTakeG g d c s
  | .relabel g b cls => Sys2Proof.Machine.execRelabel g b cls s
  | .done g => Sys2Proof.Machine.execDone g s
  | .stOrd g sc w a o c => Sys2Proof.Machine.execStOrd g sc w a o c s
  | .itemi g d a b cls => Sys2Proof.Machine.execItemi g d a b cls s
  | .flowi g d b cls => Sys2Proof.Machine.execFlowi g d b cls s
  | .iadd g t d a b => Sys2Proof.Machine.execIadd g t d a b s
  | .isub g t d a b => Sys2Proof.Machine.execIsub g t d a b s
  | .iaddc g op t d a b c => Sys2Proof.Machine.execIaddc g op t d a b c s
  | .imul g t d a b => Sys2Proof.Machine.execImul g t d a b s
  | .imulh g t d a b => Sys2Proof.Machine.execImulh g t d a b s
  | .imad g t d a b c => Sys2Proof.Machine.execImad g t d a b c s
  | .imadh g t d a b c => Sys2Proof.Machine.execImadh g t d a b c s
  | .idiv g t d a b => Sys2Proof.Machine.execIdiv g t d a b s
  | .irem g t d a b => Sys2Proof.Machine.execIrem g t d a b s
  | .imin g t d a b => Sys2Proof.Machine.execImin g t d a b s
  | .imax g t d a b => Sys2Proof.Machine.execImax g t d a b s
  | .iabs g t d a => Sys2Proof.Machine.execIabs g t d a s
  | .ineg g t d a => Sys2Proof.Machine.execIneg g t d a s
  | .and g t d a b => Sys2Proof.Machine.execAnd g t d a b s
  | .or g t d a b => Sys2Proof.Machine.execOr g t d a b s
  | .xor g t d a b => Sys2Proof.Machine.execXor g t d a b s
  | .andn g t d a b => Sys2Proof.Machine.execAndn g t d a b s
  | .shl g t d a b => Sys2Proof.Machine.execShl g t d a b s
  | .shr g t d a b => Sys2Proof.Machine.execShr g t d a b s
  | .sar g t d a b => Sys2Proof.Machine.execSar g t d a b s
  | .rol g t d a b => Sys2Proof.Machine.execRol g t d a b s
  | .clz g t d a => Sys2Proof.Machine.execClz g t d a s
  | .ctz g t d a => Sys2Proof.Machine.execCtz g t d a s
  | .popc g t d a => Sys2Proof.Machine.execPopc g t d a s
  | .brev g t d a => Sys2Proof.Machine.execBrev g t d a s
  | .bfe g t d a b => Sys2Proof.Machine.execBfe g t d a b s
  | .bfi g t d a b c => Sys2Proof.Machine.execBfi g t d a b c s
  | .bsel g t d a b c => Sys2Proof.Machine.execBsel g t d a b c s
  | .sel g t d a b c => Sys2Proof.Machine.execSel g t d a b c s
  | .icmp g cc t d a b => Sys2Proof.Machine.execIcmp g cc t d a b s
  | .isat g src t d a => Sys2Proof.Machine.execIsat g src t d a s
  | .add64 g d a b => Sys2Proof.Machine.execAdd64 g d a b s
  | .sub64 g d a b => Sys2Proof.Machine.execSub64 g d a b s
  | .lea64 g sx d a b sh => Sys2Proof.Machine.execLea64 g sx d a b sh s
  | .mov g t d a => Sys2Proof.Machine.execMov g t d a s
  | .movi g t d b => Sys2Proof.Machine.execMovi g t d b s
  | .pairWord a b => Sys2Proof.Machine.execPairWord a b s
  | .fadd g f rm d a b => Sys2Proof.Machine.execFadd g f rm d a b s
  | .fsub g f rm d a b => Sys2Proof.Machine.execFsub g f rm d a b s
  | .fmul g f rm d a b => Sys2Proof.Machine.execFmul g f rm d a b s
  | .ffma g f rm d a b c => Sys2Proof.Machine.execFfma g f rm d a b c s
  | .fmin g f d a b => Sys2Proof.Machine.execFmin g f d a b s
  | .fmax g f d a b => Sys2Proof.Machine.execFmax g f d a b s
  | .fcmp g cc f d a b => Sys2Proof.Machine.execFcmp g cc f d a b s
  | .fcls g f d a => Sys2Proof.Machine.execFcls g f d a s
  | .frnd g f rm d a => Sys2Proof.Machine.execFrnd g f rm d a s
  | .fcvt g df sf rm d a => Sys2Proof.Machine.execFcvt g df sf rm d a s
  | .fpk g f rm d a b => Sys2Proof.Machine.execFpk g f rm d a b s
  | .fpkN8 g hi rm d a b c => Sys2Proof.Machine.execFpkN8 g hi rm d a b c s
  | .hadd2 g f rm d a b => Sys2Proof.Machine.execHadd2 g f rm d a b s
  | .hmul2 g f rm d a b => Sys2Proof.Machine.execHmul2 g f rm d a b s
  | .hfma2 g f rm d a b c => Sys2Proof.Machine.execHfma2 g f rm d a b c s
  | .hmin2 g f d a b => Sys2Proof.Machine.execHmin2 g f d a b s
  | .hmax2 g f d a b => Sys2Proof.Machine.execHmax2 g f d a b s
  | .sfuRcp g d a => Sys2Proof.Machine.execSfuRcp g d a s
  | .sfuRsq g d a => Sys2Proof.Machine.execSfuRsq g d a s
  | .sfuSqrt g d a => Sys2Proof.Machine.execSfuSqrt g d a s
  | .sfuExp2 g d a => Sys2Proof.Machine.execSfuExp2 g d a s
  | .sfuLog2 g d a => Sys2Proof.Machine.execSfuLog2 g d a s
  | .sfuSin g d a => Sys2Proof.Machine.execSfuSin g d a s
  | .sfuCos g d a => Sys2Proof.Machine.execSfuCos g d a s
  | .sfuTanh g d a => Sys2Proof.Machine.execSfuTanh g d a s
  | .dot4 g t rm d a b c => Sys2Proof.Machine.execDot4 g t rm d a b c s
  | .dot8 g t rm d a b c => Sys2Proof.Machine.execDot8 g t rm d a b c s
  | .bscl g rm d a b c => Sys2Proof.Machine.execBscl g rm d a b c s
  | .bexp g t d a => Sys2Proof.Machine.execBexp g t d a s
  | .mexp g t d a b => Sys2Proof.Machine.execMexp g t d a b s
  | .cmpr g t d a b => Sys2Proof.Machine.execCmpr g t d a b s
  | .expd g t d a b => Sys2Proof.Machine.execExpd g t d a b s
  | .lxch g m t d a b => Sys2Proof.Machine.execLxch g m t d a b s
  | .vote g op d a => Sys2Proof.Machine.execVote g op d a s
  | .scan g op exc t d a => Sys2Proof.Machine.execScan g op exc t d a s
  | .matchL g all t d a => Sys2Proof.Machine.execMatchL g all t d a s
  | .cxch g t d a b => Sys2Proof.Machine.execCxch g t d a b s
  | .spk24 g t d a => Sys2Proof.Machine.execSpk24 g t d a s
  | .sxp24 g t d a => Sys2Proof.Machine.execSxp24 g t d a s
  | .ffs g t d a b => Sys2Proof.Machine.execFfs g t d a b s
  | .ld g w d a o => Sys2Proof.Machine.execLd g w d a o s
  | .st g w a o c => Sys2Proof.Machine.execSt g w a o c s
  | .lds g w d a o => Sys2Proof.Machine.execLds g w d a o s
  | .sts g w a o c => Sys2Proof.Machine.execSts g w a o c s
  | .ldAcq g sc w d a o => Sys2Proof.Machine.execLdAcq g sc w d a o s
  | .stRel g sc w a o c => Sys2Proof.Machine.execStRel g sc w a o c s
  | .atom g op sg sc w64 d a b => Sys2Proof.Machine.execAtom g op sg sc w64 d a b s
  | .atomBnd g sc w64 d a b => Sys2Proof.Machine.execAtomBnd g sc w64 d a b s
  | .atomTopk g norm km1 sc d a b => Sys2Proof.Machine.execAtomTopk g norm km1 sc d a b s
  | .red g op sg sc w64 a b => Sys2Proof.Machine.execRed g op sg sc w64 a b s
  | .pfL1 g a o => Sys2Proof.Machine.execPfL1 g a o s
  | .pfL2 g a o => Sys2Proof.Machine.execPfL2 g a o s
  | .fence sc => Sys2Proof.Machine.execFence sc s
  | .loadReply id pa => Sys2Proof.Machine.execLoadReply id pa s
  | .storeAck id line => Sys2Proof.Machine.execStoreAck id line s
  | .cpGo g d a => Sys2Proof.Machine.execCpGo g d a s
  | .cpStop g a => Sys2Proof.Machine.execCpStop g a s
  | .cpStat g d a => Sys2Proof.Machine.execCpStat g d a s
  | .waitc l st c t => Sys2Proof.Machine.execWaitc l st c t s
  | .chainStart core => Sys2Proof.Machine.execChainStart core s
  | .copyBurst core => Sys2Proof.Machine.execCopyBurst core s
  | .recEnd core => Sys2Proof.Machine.execRecEnd core s
  | .move core r => Sys2Proof.Machine.execMove core r s
  | .mcast core r => Sys2Proof.Machine.execMcast core r s
  | .loop core r => Sys2Proof.Machine.execLoop core r s
  | .cond core r => Sys2Proof.Machine.execCond core r s
  | .conv core r => Sys2Proof.Machine.execConv core r s
  | .sample core r => Sys2Proof.Machine.execSample core r s
  | .csend core r => Sys2Proof.Machine.execCsend core r s
  | .sig core r => Sys2Proof.Machine.execSig core r s
  | .csendAnswer chain block status => Sys2Proof.Machine.execCsendAnswer chain block status s
  | .shfOpen g d a b => Sys2Proof.Machine.execShfOpen g d a b s
  | .shfSide g d a b c => Sys2Proof.Machine.execShfSide g d a b c s
  | .shfDrop g d a b => Sys2Proof.Machine.execShfDrop g d a b s
  | .shfClose g d b => Sys2Proof.Machine.execShfClose g d b s
  | .shfCloseComplete shid => Sys2Proof.Machine.execShfCloseComplete shid s
  | .codedPacketArrival p => Sys2Proof.Machine.execCodedPacketArrival p s
  | .uncodedBlockArrival b => Sys2Proof.Machine.execUncodedBlockArrival b s
  | .resendRequest receiver shid bn => Sys2Proof.Machine.execResendRequest receiver shid bn s
  | .arnChk g d a => Sys2Proof.Machine.execArnChk g d a s
  | .arnWin g d a => Sys2Proof.Machine.execArnWin g d a s
  | .cwb g sys a b => Sys2Proof.Machine.execCwb g sys a b s
  | .cinv g a b => Sys2Proof.Machine.execCinv g a b s
  | .cdrop g a b => Sys2Proof.Machine.execCdrop g a b s
  | .cvd g cv b => Sys2Proof.Machine.execCvd g cv b s
  | .cvdMask g cv b => Sys2Proof.Machine.execCvdMask g cv b s
  | .mma g cv reuse a b c => Sys2Proof.Machine.execMma g cv reuse a b c s
  | .passGrant clu => Sys2Proof.Machine.execPassGrant clu s
  | .passAging clu pass => Sys2Proof.Machine.execPassAging clu pass s
  | .passApply clu => Sys2Proof.Machine.execPassApply clu s
  | .accStreamPerform clu => Sys2Proof.Machine.execAccStreamPerform clu s
  | .acg g d b => Sys2Proof.Machine.execAcg g d b s
  | .acp g b => Sys2Proof.Machine.execAcp g b s
  | .acz g a b => Sys2Proof.Machine.execAcz g a b s
  | .acn g a b => Sys2Proof.Machine.execAcn g a b s
  | .ach g d a => Sys2Proof.Machine.execAch g d a s
  | .acr g f d a b => Sys2Proof.Machine.execAcr g f d a b s
  | .acrImg g a b => Sys2Proof.Machine.execAcrImg g a b s
  | .acw g f a c b => Sys2Proof.Machine.execAcw g f a c b s
  | .acwImg g a b => Sys2Proof.Machine.execAcwImg g a b s
  | .rget g b => Sys2Proof.Machine.execRget g b s
  | .rput g b => Sys2Proof.Machine.execRput g b s
  | .srd g d sel => Sys2Proof.Machine.execSrd g d sel s
  | .bfqPost g d a b => Sys2Proof.Machine.execBfqPost g d a b s
  | .bfqTake g d a b c => Sys2Proof.Machine.execBfqTake g d a b c s
  | .bfqDone g d a => Sys2Proof.Machine.execBfqDone g d a s
  | .bfqDoneWd g d a => Sys2Proof.Machine.execBfqDoneWd g d a s
  | .trap g b => Sys2Proof.Machine.execTrap g b s
  | .brk g b => Sys2Proof.Machine.execBrk g b s
  | .kret => Sys2Proof.Machine.execKret s
  | .fret => Sys2Proof.Machine.execFret s
  | .syr g d sel => Sys2Proof.Machine.execSyr g d sel s
  | .syw g a sel => Sys2Proof.Machine.execSyw g a sel s
  | .tlbi g d a b c => Sys2Proof.Machine.execTlbi g d a b c s
  | .pfack g d a b => Sys2Proof.Machine.execPfack g d a b s
  | .ctxsv g d a b => Sys2Proof.Machine.execCtxsv g d a b s
  | .ctxld g d a => Sys2Proof.Machine.execCtxld g d a s
  | .halt g => Sys2Proof.Machine.execHalt g s
  | .keyld g d a b => Sys2Proof.Machine.execKeyld g d a b s
  | .fwqPull g d a => Sys2Proof.Machine.execFwqPull g d a s
  | .fwqPush g d a => Sys2Proof.Machine.execFwqPush g d a s
  | .fwqAct g d a force => Sys2Proof.Machine.execFwqAct g d a force s
  | .faultPost die => Sys2Proof.Machine.execFaultPost die s
  | .machineCheck die src pa => Sys2Proof.Machine.execMachineCheck die src pa s
  | .unitMapOut u saved => Sys2Proof.Machine.execUnitMapOut u saved s
  | .remoteTimeout w => Sys2Proof.Machine.execRemoteTimeout w s
  | .invalidationTimeout line h => Sys2Proof.Machine.execInvalidationTimeout line h s
  | .remoteRequest dev pa key op => Sys2Proof.Machine.execRemoteRequest dev pa key op s
  | .invalidation line h => Sys2Proof.Machine.execInvalidation line h s
  | .linkPause port shf occKiB => Sys2Proof.Machine.execLinkPause port shf occKiB s
  | .portDown port => Sys2Proof.Machine.execPortDown port s
  | .pauseWrite port v => Sys2Proof.Machine.execPauseWrite port v s
  | .strctlWrite die v => Sys2Proof.Machine.execStrctlWrite die v s
  | .arnpoolWrite die v => Sys2Proof.Machine.execArnpoolWrite die v s
  | .queueDoorbell q tail => Sys2Proof.Machine.execQueueDoorbell q tail s
  | .queueEnable q => Sys2Proof.Machine.execQueueEnable q s
  | .launch q p => Sys2Proof.Machine.execLaunch q p s
  | .nodeStart node => Sys2Proof.Machine.execNodeStart node s
  | .wait q addr value => Sys2Proof.Machine.execWait q addr value s
  | .waitRecheck q => Sys2Proof.Machine.execWaitRecheck q s
  | .signal q sys addr value => Sys2Proof.Machine.execSignal q sys addr value s
  | .pred q ne na nb addr value => Sys2Proof.Machine.execPred q ne na nb addr value s
  | .teamPlacement ti => Sys2Proof.Machine.execTeamPlacement ti s
  | .itemDispatch node => Sys2Proof.Machine.execItemDispatch node s
  | .arenaDeath node => Sys2Proof.Machine.execArenaDeath node s
  | .longWaitSwap ti => Sys2Proof.Machine.execLongWaitSwap ti s
  | .swapRestoreTimeout slot => Sys2Proof.Machine.execSwapRestoreTimeout slot s
  | .teamRestore slot => Sys2Proof.Machine.execTeamRestore slot s
  | .starvationSelection ti gi => Sys2Proof.Machine.execStarvationSelection ti gi s
  | .notifyApertureWrite q off bytes => Sys2Proof.Machine.execNotifyApertureWrite q off bytes s
  | .apertureGate die => Sys2Proof.Machine.execApertureGate die s
  | .kettleUngate die => Sys2Proof.Machine.execKettleUngate die s
  | .semClaim p0 p1 => Sys2Proof.Machine.execSemClaim p0 p1 s
  | .semTimeout => Sys2Proof.Machine.execSemTimeout s
  | .managementRequest r => Sys2Proof.Machine.execManagementRequest r s
  | .frzWrite => Sys2Proof.Machine.execFrzWrite s
  | .freeze => Sys2Proof.Machine.execFreeze s
  | .powerGood => Sys2Proof.Machine.execPowerGood s
  | .functionLevelReset fn => Sys2Proof.Machine.execFunctionLevelReset fn s
  | .powerThrottle => Sys2Proof.Machine.execPowerThrottle s
  | .registerWrite w loc bytes => Sys2Proof.Machine.execRegisterWrite w loc bytes s
  | .servicePortWrite pa bytes => Sys2Proof.Machine.execServicePortWrite pa bytes s
  | .illegalInstruction cause w0 => Sys2Proof.Machine.execIllegalInstruction cause w0 s
  | .fetchFault => Sys2Proof.Machine.execFetchFault s

end Sys2Proof.Machine
end

