-- ==== Sys2Proof/Machine/Turns.lean ====
section
/-! DEFINITION. Whose turn it is and what a turn does: issuing a run, an engine's record, a front-end's packet, hardware events,
and the passing of time.

Rules of spec/: 01 R18; 02 R48, R57, R58; 05 R97; 06 R117; 07 R137, R142; 11 R240; 14 R295 to R298, R316; 15 R331, R340, R341; 16 R354, R358.
The order of turns is the agenda's, and where it is empty the model's own (log 5). -/

namespace Sys2Proof.Machine

/-! ### Issuing a run, 14 R295 to R298, 15 R341 -/

/-- A state with its issuing run. -/
def State.withCur (s : State) (c : Cur) : State := { s with cur := some c }

/-- Fetches, decodes and executes the word of a run. -/
def State.issueRun (s : State) (ti gi : Nat) (run : List Nat) (pc : DWord) : Out :=
  match s.fetch ti gi pc.toNat with
  | (.fault len w, s') => exec .fetchFault (s'.withCur ⟨ti, gi, run, pc, len, w⟩)
  | (.word w lit, s') => exec (instrOf w lit) (s'.withCur ⟨ti, gi, run, pc, wordLen w, w⟩)

/-- Whether a lane is still at the word, which has not issued for it. -/
def Thread.stillAt (t : Thread) (pc : DWord) : Bool :=
  !t.exited && t.pc == pc && (t.fetchPark.isSome || match t.hold with
    | .stall | .gather | .ret _ => true
    | _ => false)

/-- Whether a lane is at the word and nothing has happened to it. -/
def Thread.stays (t : Thread) (pc : DWord) : Bool := !t.exited && t.pc == pc && t.hold == .none

/-- A thread that its own wait to try again no longer holds. -/
def Thread.freed (t : Thread) : Thread := match t.hold with
  | .stall | .gather | .ret _ => { t with hold := .none }
  | _ => t

/-- The lanes of a run are free to issue, and no run is on offer. -/
def Group.toIssue (g : Group) (run : List Nat) : Group := { g.modLanes run (fun _ t => { t with hold := .none }) with offer := none }

/-! ### Whether a thread's next instruction can issue, 14 R296 -/

/-- The lanes of a run at one word that an issue of the run now would leave waiting for it, each with the reason; none where the word can issue. A word
at which the whole group waits, or whose page is not yet translated, keeps its run on offer (06 R130, R136; 15 R341), so its threads can be selected, and
so can those of one whose attempt sends invalidations (05 R98). -/
def State.tryRun (s : State) (ti gi : Nat) (run : List Nat) : List (Nat × Hold) :=
  match run with
  | [] => []
  | l :: _ =>
    let pc := (s.thread ti gi l).pc
    match (s.modGroup ti gi fun g => g.toIssue run).issueRun ti gi run pc with
    | .next s' =>
      let g := s'.group ti gi
      let holds := run.map fun k => (k, g.lane k)
      if g.offer.isSome || s'.invals != s.invals || holds.any fun h => h.2.fetchPark.isSome || !(h.2.stillAt pc || h.2.stays pc) then []
      else (holds.filter fun h => h.2.hold != .none).map fun h => (h.1, h.2.hold)
    | _ => []

/-- Lanes are set aside from selection, each with its reason. -/
def Group.setAside (g : Group) (holds : List (Nat × Hold)) : Group :=
  holds.foldl (fun g h => g.modLanes [h.1] fun _ t => { t with hold := h.2 }) g

/-- The threads of a group that may be selected unless their next instruction cannot issue. -/
def Group.toTry (g : Group) : List Nat :=
  g.live.filter fun l =>
    let x := g.lane l
    { x with hold := if x.hold == Hold.stall then Hold.none else x.hold }.ready

/-- The threads of the run with a key that wait for it as a whole, though each could issue alone (room for all of them in a queue, a log or a
counter), are set aside with it (R296). -/
def State.probeKey (ti gi : Nat) : Nat → State → Nat → State
  | 0, s, _ => s
  | n + 1, s, key =>
    match s.tryRun ti gi ((s.readyLanes ti gi).filter fun l => (s.thread ti gi l).key == key) with
    | [] => s
    | holds => State.probeKey ti gi n (s.modGroup ti gi fun g => g.setAside holds) key

/-- Finds out which threads of a group can issue, first each alone, then the run of each key: the others are set aside, each with the reason. -/
def State.probe (s : State) (ti gi : Nat) : State :=
  if !s.groupRuns ti || (s.group ti gi).offer.isSome then s
  else
    let tried := (s.group ti gi).toTry
    let holds := tried.flatMap fun l => s.tryRun ti gi [l]
    let s := s.modGroup ti gi fun g => (g.modLanes tried fun _ t => { t with hold := .none }).setAside holds
    (dedupNat ((s.readyLanes ti gi).map fun l => (s.thread ti gi l).key)).foldl (State.probeKey ti gi tried.length) s

/-- Every group of the teams that run. -/
def State.allGroups (s : State) : List (Nat × Nat) :=
  (List.range s.teams.length).flatMap fun ti => (List.range (s.team ti).groups.length).map fun gi => (ti, gi)

/-- Finds out which threads of the module can issue. -/
def State.probeAll (s : State) : State := s.allGroups.foldl (fun s x => s.probe x.1 x.2) s

/-- The yield flags after an issue of a run that holds a thread with Y = 0: every flag is cleared, and those that the word set stay (R297). -/
def yieldsAfter (before after : Group) (run : List Nat) : Group :=
  if run.any fun l => !(before.lane l).yielded then
    { after with lanes := after.lanes.mapIdx fun l t => { t with yielded := t.yielded && !(before.lane l).yielded } }
  else after

/-- The group after an issue. -/
def Group.issued (before after : Group) (run : List Nat) : Group := { yieldsAfter before after run with offer := none, waited := 0 }

/-- The group after an attempt that did not issue: it was no selection, and the counts are as before it (R298). -/
def Group.notIssued (g : Group) : Group := { g with lanes := g.lanes.mapIdx fun l t => { t with starve := g.counts.getD l t.starve } }

/-- After the word of a run: `before` is the group before its selection. The word has issued unless some lanes of the run wait to issue and
nothing has happened to the others. -/
def State.afterIssue (s : State) (before : Group) (ti gi : Nat) (run : List Nat) (pc : DWord) : State :=
  let g := s.group ti gi
  if (run.any fun l => (g.lane l).stillAt pc) && run.all fun l => (g.lane l).stillAt pc || (g.lane l).stays pc then
    if g.offer.isSome then s else s.modGroup ti gi Group.notIssued
  else (s.modGroup ti gi fun g => before.issued g run).modTeam ti fun t => { t with waitCount := 0, begun := true }

/-- Maps the next state of an outcome. -/
def onNext (o : Out) (f : State → State) : Out :=
  match o with
  | .next s => .next (f s)
  | .fault x => .fault x
  | .refused r => .refused r

/-- A run that can issue still: its lanes are at one word and nothing but its own wait holds them. -/
def Group.runOk (g : Group) (run : List Nat) : Bool :=
  match run with
  | [] => false
  | l :: _ => run.all fun k => (g.lane k).freed.ready && (g.lane k).pc == (g.lane l).pc

/-- Issues a run of a group. -/
def State.runGroup (s : State) (before : Group) (ti gi : Nat) (run : List Nat) : Out :=
  let pc := match run with
    | l :: _ => (s.thread ti gi l).pc
    | [] => 0
  onNext ((s.modGroup ti gi fun g => g.toIssue run).issueRun ti gi run pc) fun s => s.afterIssue before ti gi run pc

/-- Gathered words at which the whole group waits, but not at the same one (11 R240): the lowest PC with its lanes, and the next PC. DESIGN CHOICE
(log 106): a thread that waits at `kret` or `fret`, whose gathering is that of its handler lanes (16 R376), is no thread at a gathered word here. -/
def Group.deadlock (g : Group) : Option (List Nat × DWord × DWord) :=
  let live := g.live
  if live.isEmpty || !(live.all fun l => (g.lane l).gathers .gather) then none
  else match sortBy id (dedupNat (live.map fun l => (g.lane l).pc.toNat)) with
    | p :: q :: _ => some (live.filter fun l => (g.lane l).pc.toNat == p, BitVec.ofNat 64 p, BitVec.ofNat 64 q)
    | _ => none

/-! ### Time -/

/-- Whether a thread of some user core of a die can issue (14 R316). -/
def State.dieBusy (s : State) (die : Nat) : Bool :=
  (List.range s.teams.length).any fun ti =>
    let t := s.team ti
    dieOfCore (t.cores.getD 0 0) == die && !isFwCore (t.cores.getD 0 0) && !s.teamWaits ti && t.place == .resident

/-- A die after `n` cycles. -/
def Die.later (d : Die) (n : Nat) (busy : Bool) : Die := { d with cyc := d.cyc + n, idle := if busy then 0 else d.idle + n }

/-- A team after `n` cycles (15 R340, R341). -/
def Team.later (t : Team) (n : Nat) (waits : Bool) : Team :=
  { t with waitCount := if waits then t.waitCount + n else t.waitCount,
           groups := t.groups.map fun g => { g with waited := g.waited + n } }

/-- `n` cycles pass on a die (13 R292: the dies have no common time base). The issue slots of its cores are free again. DESIGN CHOICE (log 107): the
cycles of SEM's limit (17 R391) are those of die 0. -/
def State.passTime (s : State) (die n : Nat) : State :=
  { s with
    dies := updAt s.dies die (fun x => x.later n (s.dieBusy die)),
    teams := s.teams.mapIdx (fun ti t =>
      if t.place == .resident && dieOfCore (t.cores.getD 0 0) == die then t.later n (s.teamWaits ti) else t),
    issued := s.issued.filter (fun k => dieOfCore k.core != die),
    sem := if s.sem.owner = 0 || die != 0 then s.sem else { s.sem with idle := s.sem.idle + n } }

/-! ### The two issue slots of a core, 15 R341 -/

/-- The main-file registers of the register run that a word reads: an A row with its scales, the columns of an `acw`, the payload of a
`take`, the operands of `atom.cas` and `atom.topk` (06 R131). -/
def runReads (t : Thread) : Instr → List Nat
  | .atom _ .cas _ _ w64 _ _ (.src (.v n)) => addrs n.toNat (if w64 then 4 else 2)
  | .atomTopk _ _ _ _ _ _ b => addrs b.toNat 2
  | .mma _ _ _ a b fw => let r := mmaRun t b fw; addrs a.toNat (r.1 + r.2)
  | .acw _ f _ v b => addrs v.toNat (ctlRun f (srcB32 t b))
  | .take _ d _ | .takeG _ d _ => [d.toNat, d.toNat + 1]
  | _ => []

/-- The engine port of a word: the matrix port, or that of copy, shuffle and arena instructions. -/
def enginePort (w : DWord) : Nat :=
  let op := w.toNat / 2 ^ 52
  if decide (0x280 ≤ op) && decide (op < 0x2C0) then 1 else if decide (0x240 ≤ op) && decide (op < 0x280) then 2 else 0

/-- What the offered word of a group needs, as far as it can be fetched. -/
def State.offerPorts (s : State) (ti gi : Nat) (run : List Nat) : List Nat × Nat :=
  match run with
  | [] => ([], 0)
  | l :: _ =>
    let x := s.thread ti gi l
    match (s.fetch ti gi x.pc.toNat).1 with
    | .word w lit => (dedupNat ((runReads x (instrOf w lit)).map (· % 4)), enginePort w)
    | .fault _ _ => ([], 0)

/-- Whether a word with banks and engine port `a` needs a port that `b` needs. -/
def portsClash (a b : List Nat × Nat) : Bool := (a.1.any fun x => b.1.contains x) || (a.2 != 0 && a.2 == b.2)

/-- The groups of the teams on a core that run there. -/
def State.coreGroups (s : State) (core : Nat) : List (Nat × Nat) :=
  s.allGroups.filter fun x => s.groupRuns x.1 && s.coreOf x.1 x.2 == core

/-- A complete gathered run on offer: its lanes are selected, and no other thread of the group is ready (11 R240; 14 R298). -/
def Group.offerGathered (run : List Nat) (g : Group) : Group :=
  { g.modLanes run (fun _ t => { t with starve := 0 }) with offer := some run, counts := g.lanes.map (·.starve) }

/-- Every group of a core that can issue offers a run: one it offers already, a complete gathered run, or a new selection. -/
def State.offerGroup (s : State) (ti gi : Nat) : State :=
  if !s.groupRuns ti || (s.group ti gi).offer.isSome then s
  else
    let s := s.probe ti gi
    match (s.group ti gi).gatheredRun with
    | some run => s.modGroup ti gi (Group.offerGathered run)
    | none => s.selectRun ti gi

/-- Every group of a core offers a run if it can. -/
def State.offerCore (s : State) (core : Nat) : State := (s.coreGroups core).foldl (fun s x => s.offerGroup x.1 x.2) s

/-- The place of an offer in the order of R341: wait descending, group number, PC, team slot. -/
def State.offerKey (s : State) (ti gi : Nat) : List Nat :=
  let g := s.group ti gi
  let pc := match g.offer with
    | some (l :: _) => (g.lane l).pc.toNat
    | _ => 0
  [2 ^ 64 - g.waited, gi, pc, (s.team ti).slot]

/-- Whether the first key orders strictly before the second. -/
def keyBefore : List Nat → List Nat → Bool
  | [], _ :: _ => true
  | _, [] => false
  | a :: as, b :: bs => decide (a < b) || (a == b && keyBefore as bs)

/-- The groups of a core with a run on offer that have not issued in this cycle. -/
def State.offers (s : State) (core : Nat) : List (Nat × Nat) :=
  (s.coreGroups core).filter fun x =>
    (s.group x.1 x.2).offer.isSome && !s.issued.any fun k => k.core == core && k.ti == x.1 && k.gi == x.2

/-- Whether a group may issue in this cycle of its core: in slot 0 as the first offer, in slot 1 as the first later offer that needs no port
that slot 0 needs. -/
def State.maySlot (s : State) (core ti gi : Nat) : Bool :=
  let earlier (x : Nat × Nat) : Bool := keyBefore (s.offerKey x.1 x.2) (s.offerKey ti gi)
  let ports (x : Nat × Nat) : List Nat × Nat := s.offerPorts x.1 x.2 ((s.group x.1 x.2).offer.getD [])
  (s.offers core).contains (ti, gi) &&
    match s.issued.filter (·.core == core) with
    | [] => !(s.offers core).any earlier
    | [k] => !portsClash (ports (ti, gi)) (k.banks, k.port) && !(s.offers core).any fun x => earlier x && !portsClash (ports x) (k.banks, k.port)
    | _ => false

/-- Before a group of a core issues: every group of the core offers, and a new cycle of the die begins where the slots of this one leave no
place for the group. -/
def State.toSlot (s : State) (ti gi : Nat) : State :=
  let core := s.coreOf ti gi
  let s := s.offerCore core
  if (s.group ti gi).offer.isNone || s.maySlot core ti gi then s else s.probeAll.passTime (dieOfCore core) 1

/-- Notes that a group issues in this cycle of its core. -/
def State.takeSlot (s : State) (ti gi : Nat) : State :=
  let p := s.offerPorts ti gi ((s.group ti gi).offer.getD [])
  { s with issued := s.issued ++ [⟨s.coreOf ti gi, ti, gi, p.1, p.2⟩] }

/-- The turn of a group, once the offers of its core stand: its run issues if it has a slot. -/
def State.issueOffer (s : State) (ti gi : Nat) : Out :=
  let g := s.group ti gi
  match g.deadlock with
  | some (lanes, pc, next) => .next (takeTrap s ti gi lanes 0x09 pc next)
  | none => match g.offer with
    | none => .next s
    | some run =>
      if !g.runOk run then .next (s.modGroup ti gi fun g => { g with offer := none })
      else if s.maySlot (s.coreOf ti gi) ti gi then (s.takeSlot ti gi).runGroup g ti gi run
      else .next s

/-- The turn of a group. -/
def State.issueTurn (s : State) (ti gi : Nat) : Out :=
  if !s.groupRuns ti then .next s else (s.toSlot ti gi).issueOffer ti gi

/-! ### Engines, front-ends, events -/

/-- What a copy engine does for the chain of a core (07 R142). -/
def State.serveChain (s : State) (core : Nat) : Out :=
  match s.activeChain core with
  | none => .next s
  | some k =>
    if !s.placed k.ti then .next s
    else match k.st with
      | .queued => exec (.chainStart core) s
      | .parked _ => .next s
      | .stopping => exec (.copyBurst core) s
      | .walking =>
        if k.endSeen then .next s
        else if k.now.isSome then exec (.copyBurst core) s
        else match s.recordAt k with
          | some i => exec i s
          | none => .next (s.stopChain k.id 0x0D)

/-- Notes which core an engine has served. -/
def State.markServed (s : State) (core : Nat) : State := { s with served := Sparse.set 0 s.served (cluOfCore core) (core % 4 + 1) }

/-- The turn of the copy engine of a core's cluster: it serves the chains of its four cores in rotation, a record or a burst at a time (07 R137). -/
def State.engineTurn (s : State) (core : Nat) : Out :=
  match s.nextServed (cluOfCore core) with
  | none => .next s
  | some k => (s.markServed k).serveChain k

/-- The turn of a front-end (15 R331, R332). -/
def State.frontTurn (s : State) (q : Nat) : Out :=
  match s.frontNext q with
  | (.idle, s) => .next s
  | (.stop err, s) => .next (s.stopQueue q err)
  | (.run i, s) => exec i s

/-- Whether no thread, engine or front-end fetches an instruction. -/
def isEvent (i : Instr) : Bool :=
  (encode i).isEmpty && i.record.isNone && (encodePacket i).isEmpty && match i with
    | .chainStart _ | .copyBurst _ | .illegalInstruction _ _ | .fetchFault => false
    | _ => true

/-! ### Events outside the table -/

/-- Whether a team is placed and no word of it has issued (01 R18). -/
def State.notBegun (s : State) (ti : Nat) : Bool := (s.team ti).place == .resident && !(s.team ti).begun

/-- Whether a line is the one used longest ago in a full set of its level: the one that makes place for another (06 R117). -/
def State.leastUsed (s : State) (lvl : Lvl) (line : Nat) : Bool :=
  let set := s.cache.filter fun e => e.lvl == lvl && decide (e.way < s.ways lvl) && s.sameSet lvl e.line line
  decide (s.ways lvl ≤ set.length) && (set.head?.map (·.line)) == some line

/-- A level loses a line: a dirty copy is written back; the L2 loses it once every recorded copy is invalidated (05 R97). An L1 loses none but the
least recently used one of a full set (06 R117); of the others log 69 leaves it open. -/
def State.evict (s : State) (lvl : Lvl) (line : Nat) : State :=
  match lvl with
  | .l1 core => if s.leastUsed lvl line then s.loseL1 core line else s
  | .l1i core => s.dropLine (.l1i core) line
  | .l2 =>
    let (s', busy) := s.sendInvals line none
    if busy then s' else s.loseL2 line
  | .rdc die => s.loseRdc die line

/-- What an event outside the table does. -/
def State.envStep (s : State) : EnvEvent → State
  | .tick die n => s.probeAll.passTime die n
  | .evict lvl line => s.evict lvl line
  | .dropTlb die core va => { s with tlb := s.tlb.filter fun e => !(e.die == die && e.core == core && decide (e.va ≤ va) && decide (va < e.va + e.size)) }
  | .dropWalk die va => { s with walks := s.walks.filter fun e => !(e.die == die && e.page == va / 2 ^ e.shift) }
  | .peerWrite pa key bytes =>
    let cells := (addrs pa bytes.length).zip bytes
    if cells.any fun c => s.isLocal c.1 || isDevice c.1 || s.cache.any fun e => e.line == lineOf c.1 then s
    else (splitLines cells).foldl (fun s cs => match cs with
      | [] => s
      | (a, _) :: _ => (s.memWrite (s.tagAt a key) cs).staleSide (lineOf a)) s
  | .peerKeyld dev key value =>
    if dev = s.module.dev then s else { s with peerKeys := Sparse.set 0 s.peerKeys (dev * 4096 + key % 4096) value }
  | .portRead port => s.portAccess port
  | .partnerPause port req shf => s.modPort port fun p => { p with hreq := req, hshf := shf }
  | .rspBuffer port occKiB => if decide (65536 < 1024 * occKiB + 128 * s.rspReserved port) then s else s.modPort port fun p => { p with rxRsp := occKiB }
  | .loadScratch ti pcore off bytes =>
    if s.notBegun ti && decide (off + bytes.length ≤ (s.team ti).carve) then s.scratchWrite ti pcore off bytes else s

/-! ### Turns -/

/-- A step of the hardware. A selection is made of the threads that can issue (R298). -/
def State.hwTurn (s : State) (i : Instr) : Out :=
  if !isEvent i then .refused .notAnEvent
  else match i with
    | .starvationSelection ti gi => exec i (s.probe ti gi)
    | _ => exec i s

/-- Runs one turn. -/
def State.runTurn (s : State) : Turn → Out
  | .select ti gi => .next (s.offerGroup ti gi)
  | .issue ti gi => s.issueTurn ti gi
  | .engine core => s.engineTurn core
  | .front q => s.frontTurn q
  | .hw i => s.hwTurn i
  | .env e => .next (s.envStep e)

/-- Where a chain stands in its work. -/
def Chain.mark (k : Chain) : Nat × Nat × Nat × Nat × Nat × Bool := (k.core, k.recOff, k.p0, k.p1, k.p2, k.now.isSome)

/-- The chains that have come to another burst in a step: the time without an answer of their requests starts (04 R75). -/
def State.settleSent (before s : State) : State :=
  { s with chains := s.chains.map fun k =>
      if (before.chain k.id).map Chain.mark == some k.mark then k else { k with sent := (s.die (dieOfCore (s.chainCore k))).cyc } }

/-- Requests for accumulator rows that can be granted are: what stood before them may have been withdrawn (12 R266). -/
def State.settleRows (s : State) : State := (dedupNat (s.acgQ.map (·.clu))).foldl State.tryRows s

/-- What follows every turn: what waited and can go on does; saves, teams, nodes and resets that can end do; what the turn, which began at `before`,
changed of saved teams reaches their slots. -/
def State.settleStep (before s : State) : State :=
  let s := s.settleRetries.settleTraps.settleArrivals.settleResends.settleRegs.settleWakes.settleHeld.settleAbandoned.settleTlbi.settleChecks
  let s := s.settleHeaders.drainSlots.settleSaves.settleRows.settleActivate.settleEnds.settleResets.settleOut.settleUnanswered.settleAsks
  { State.settleSent before (State.syncSlots before s) with cur := none, clock := s.clock + 1 }

/-! ### The model's own order of turns (log 5) -/

/-- Whether the run that a group offers would issue now. -/
def State.offerIssues (s : State) (ti gi : Nat) : Bool :=
  let g := s.group ti gi
  match g.offer with
  | none => g.deadlock.isSome
  | some run => match s.runGroup g ti gi run with
    | .next s' => (s'.group ti gi).offer.isNone
    | _ => true

/-- The group whose run comes first in the order of R341, over the module. -/
def State.nextIssue (s : State) : Option Turn :=
  let s := s.allGroups.foldl (fun s x => s.offerGroup x.1 x.2) s
  ((s.allGroups.filter fun x => s.groupRuns x.1 && s.offerIssues x.1 x.2).foldl (fun (r : Option (Nat × Nat)) x => match r with
    | none => some x
    | some y => if keyBefore (s.offerKey x.1 x.2) (s.offerKey y.1 y.2) then some x else some y) none).map fun x => .issue x.1 x.2

/-- Replies and acknowledgements that may come. -/
def State.memoryTurns (s : State) : List Turn :=
  (s.loads.flatMap fun d => (d.parts.filter (·.st == .wait)).map fun p => .hw (.loadReply d.id p.pa)) ++
  (s.stores.flatMap fun o => (o.parts.filter fun p => match p.st with
    | .wait | .replay _ _ | .released => true
    | _ => false).map fun p => .hw (.storeAck o.id p.pa)) ++
  s.invals.map fun x => .hw (.invalidation x.1 x.2)

/-- Engines with something to do. -/
def State.engineTurns (s : State) : List Turn :=
  ((dedupNat (s.chains.map (·.core))).filter s.engineBusy).map .engine ++
  (dedupNat (s.streams.map (·.clu))).flatMap (fun clu => [.hw (.passGrant clu), .hw (.passApply clu), .hw (.accStreamPerform clu)]) ++
  s.shuffles.map fun h => .hw (.shfCloseComplete h.id)

/-- Queues, nodes, teams and dies with something to do. -/
def State.launchTurns (s : State) : List Turn :=
  (s.queues.filterMap fun e => if s.queueRuns e.1 && e.2.backlog != 0 then some (.front e.1) else none) ++
  ((List.range s.nodes.length).filterMap fun k => match s.nodes[k]? with
    | some n => if n.st == .running && (!n.srcDone || n.blocked.isSome) then some (.hw (.itemDispatch k))
        else if n.st == .dying && !n.arenas.isEmpty then some (.hw (.arenaDeath k)) else none
    | none => none) ++
  ((List.range s.teams.length).filterMap fun ti =>
    if (s.team ti).place == .waiting && ((s.placeNow ti).isSome || (!(s.team ti).tried && s.waitsForCore ti && (s.spot ti).isNone)) then some (.hw (.teamPlacement ti))
    else if s.swaps ti then some (.hw (.longWaitSwap ti)) else none) ++
  (s.slots.map fun k => .hw (if k.eligible then .teamRestore k.slot else .swapRestoreTimeout k.slot)) ++
  ((List.range Config.nDies).filterMap fun d =>
    if s.faults.any fun f => f.die == d && !f.posted && !f.check then some (.hw (.faultPost d))
    else if !(s.die d).kettle.isEmpty || !(s.die d).entry.isEmpty then some (.hw (.kettleUngate d)) else none)

/-- Naps whose limit has passed. -/
def State.napTurns (s : State) : List Turn :=
  (List.range s.teams.length).flatMap fun ti => (s.team ti).allLanes.filterMap fun x => match x.2.2.hold with
    | .nap _ _ (some dl) => if dl ≤ s.cycOf ti x.1 then some (.hw (.napTimeout ti x.1 x.2.1)) else none
    | _ => none

/-- The turn that the model takes when the agenda names none: boot; then groups and the other agents in turn, the longest wait first, and a
cycle of each die. -/
def State.defaultTurn (s : State) : Turn :=
  if !s.module.ready && s.module.stage != 0xF && s.teams.isEmpty then .hw .powerGood
  else
    let others := s.memoryTurns ++ s.engineTurns ++ s.launchTurns ++ s.napTurns ++ (List.range Config.nDies).map fun d => .env (.tick d 1)
    let event := others[s.clock / 2 % max 1 others.length]?
    match (if s.clock % 2 = 0 then s.nextIssue.orElse fun _ => event else event) with
    | some t => t
    | none => .env (.tick 0 1)

/-- The turn that comes next, and what is left of the agenda. -/
def State.nextTurn (s : State) : Turn × State :=
  match s.agenda with
  | t :: rest => (t, { s with agenda := rest })
  | [] => (s.defaultTurn, s)

/-! ### A word placed for a run (log 36) -/

/-- The virtual address at which `State.withFetchWord` places its word. -/
def fetchVa : Nat := 0x100000

/-- The frame of that word, in the DRAM of die 0 of this module. -/
def State.fetchPa (s : State) : Nat := s.module.dev * 2 ^ 50 + fetchVa

/-- The translation of the page of that word, for core 1 and address space 0. -/
def State.fetchEntry (s : State) : TlbEntry :=
  { die := 0, core := some 1, asid := 0, va := fetchVa, size := 65536, pa := s.fetchPa, r := true, w := true, x := true, u := false,
    rd := false, key := 0, comp := 0, dirtySet := true, slot := 0, gen := 0 }

/-- The bytes of the word and of the literal after it, as the hardware stores them. -/
def fetchBytes (nbits w : Nat) : List Byte := natBytes 16 (w % 2 ^ nbits)

/-- The node of the team that runs the word. -/
def fetchNode : Node := fwNode ⟨true, 1, 1, 0, BitVec.ofNat 64 fetchVa, 0⟩

/-- The team that runs the word: one group of 16 lanes at level F, on core 1. -/
def fetchTeam (node : Nat) : Team := { fwTeamOf node ⟨true, 1, 1, 0, BitVec.ofNat 64 fetchVa, 0⟩ 0 with cores := [1] }

/-- The word in memory, under key id 0, with no cached copy of its line. -/
def State.placeWord (s : State) (nbits w : Nat) : State :=
  (s.discardLine (lineOf s.fetchPa)).memWrite (s.keyTag 0) ((addrs s.fetchPa 16).zip (fetchBytes nbits w))

/-- The team, its page and its turn. -/
def State.placeRunner (s : State) : State :=
  { s with
    teams := s.teams ++ [{ fetchTeam s.nodes.length with groups := (fetchTeam s.nodes.length).groups.map fun g =>
      { g with offer := some (List.range 16), waited := maxNat (s.teams.flatMap fun t => t.groups.map (·.waited)) + 1 } }],
    nodes := s.nodes ++ [fetchNode],
    tlb := s.fetchEntry :: s.tlb,
    module := { s.module with frozen := false },
    agenda := .issue s.teams.length 0 :: s.agenda }

end Sys2Proof.Machine
end

