-- ==== Sys2Proof/Machine/Step.lean ====
section
/-! DEFINITION. One step of the machine, and the placing of a word for it.

A step runs the first turn of the agenda, or the model's own choice where the agenda is empty (log 5); what follows every turn is
`State.settleStep`. A frozen module takes no step (17 R392). -/

namespace Sys2Proof.Machine

/-- One step. -/
def step (s : State) : Host.Outcome State Fault Refusal :=
  if s.module.frozen then .fault .frozen else onNext (s.nextTurn.2.runTurn s.nextTurn.1) (State.settleStep s)

/-- The state with an instruction of `nbits` bits placed where the next step fetches (log 36): a team of one group of 16 lanes on core 1 at
level F with PC at the word, its page in the TLB of its core, and its turn at the head of the agenda. -/
def State.withFetchWord (s : State) (nbits w : Nat) : State := (s.placeWord nbits w).placeRunner

end Sys2Proof.Machine
end

