-- ==== Sys2Proof/Safety.lean ====
section
/-! DEFINITION. The notions in which claims about runs are stated: when a word issues, what it leaves, what counts as a good state.

Rules of spec/: 08 R172, R175; 16 R353; 17 R392. -/

namespace Sys2Proof.Machine

/-! ### When a word issues -/

/-- The conditions of 16 R353 under which the word of the issuing run `c` gets to its own part: the level is allowed, no register that the guard
reads is pending, every register named lies within the claims of the active lanes, and no register used is pending there. -/
structure Issues (s : State) (c : Cur) (p : Priv) (g : Guard) (names uses : List Nat) : Prop where
  cur : s.cur = some c
  level : p.allows (s.group c.ti c.gi).level = true
  guard : pendingLanes s c c.lanes (guardRegs g) = []
  claims : claimFail s c (activeLanes s c g) (guardRegs g ++ names) = none
  board : pendingLanes s c (activeLanes s c g) uses = []

/-- `Issues` for a word at any level that uses every register it names. -/
abbrev Ready (s : State) (c : Cur) (g : Guard) (regs : List Nat) : Prop := Issues s c .all g regs regs

/-- The state after a word that changed its active lanes, each by `f`: every lane of the run is at the next word. -/
def afterLanes (s : State) (c : Cur) (g : Guard) (f : Nat → Thread → Thread) : State :=
  advance (s.modLanes c.ti c.gi (activeLanes s c g) f) c c.lanes

/-- The state after a word that set the PCs and holds of the active lanes `act` itself, in `s'`: the other lanes of the run are at the next
word. -/
def afterMoved (s' : State) (c : Cur) (act : List Nat) : State := advance s' c (c.lanes.filter fun l => !act.contains l)

/-- Every lane of the run is a lane of its group. -/
def Here (s : State) (c : Cur) : Prop := ∀ l ∈ c.lanes, l < (s.group c.ti c.gi).lanes.length

/-- Instruction `i`, when it issues and `cond` holds of the state, the run and the active lanes, answers the next state `t`. -/
def Does (i : Instr) (p : Priv) (g : Guard) (names uses : List Nat) (cond : State → Cur → List Nat → Prop)
    (t : State → Cur → List Nat → State) : Prop :=
  ∀ s c, Issues s c p g names uses → cond s c (activeLanes s c g) → exec i s = .next (t s c (activeLanes s c g))

/-- `Does` for a word at any level that uses every register it names. -/
abbrev Acts (i : Instr) (g : Guard) (regs : List Nat) (cond : State → Cur → List Nat → Prop) (t : State → Cur → List Nat → State) : Prop :=
  Does i .all g regs regs cond t

/-- No condition. -/
def Always : State → Cur → List Nat → Prop := fun _ _ _ => True

/-- Instruction `i` names `names`, its guard register apart (08 R172): where its level is allowed, its guard register is not pending, and `cond` holds, a
register named at or above 16 times the claim of an active lane raises 0x0B, with the lowest such register. -/
def ClaimTraps (i : Instr) (p : Priv) (g : Guard) (names : List Nat) (cond : State → Cur → Prop) : Prop :=
  ∀ s c x, s.cur = some c → p.allows (s.group c.ti c.gi).level = true → pendingLanes s c c.lanes (guardRegs g) = [] → cond s c →
    x ∈ guardRegs g ++ names → (∃ l ∈ activeLanes s c g, 16 * (s.thread c.ti c.gi l).claim ≤ x) →
    (∀ y ∈ guardRegs g ++ names, y < x → ∀ l ∈ activeLanes s c g, y < 16 * (s.thread c.ti c.gi l).claim) →
    exec i s = .next (takeTrap s c.ti c.gi c.lanes 0x0B c.pc (BitVec.ofNat 64 x))

/-- The same of a word whose active lane `l` also names the run `run t` of its thread `t`, whose length is read at issue: no such register is above 255,
and none of `statics`, the registers named outright, is pending. -/
def RunClaimTraps (i : Instr) (g : Guard) (statics : List Nat) (run : Thread → List Nat) : Prop :=
  ∀ s c x, Ready s c g [] → isFwCore (s.coreOf c.ti c.gi) = false → pendingLanes s c (activeLanes s c g) statics = [] →
    let th (l : Nat) : Thread := s.thread c.ti c.gi l
    (∀ l ∈ activeLanes s c g, ∀ r ∈ run (th l), r ≤ 255) →
    (∃ l ∈ activeLanes s c g, x ∈ statics ++ run (th l) ∧ 16 * (th l).claim ≤ x) →
    (∀ l ∈ activeLanes s c g, ∀ y ∈ statics ++ run (th l), y < x → y < 16 * (th l).claim) →
    exec i s = .next (takeTrap s c.ti c.gi c.lanes 0x0B c.pc (BitVec.ofNat 64 x))

/-- The gathered instruction `i` (11 R240), once its run holds every thread of the group that has not exited, gives each active lane `l` a
result of `wd` bits that `f` computes from the state before it. -/
def GatherComputes (i : Instr) (g : Guard) (regs : List Nat) (wd : Nat) (d : Dst) (f : State → Cur → Nat → DWord) : Prop :=
  ∀ s c, Ready s c g regs → (∀ l ∈ gatherSet s c, l ∈ c.lanes) →
    exec i s = .next (afterLanes s c g fun l t => writeback t d wd (f s c l) true)

/-- The gathered instruction `i` waits while a thread of the group that has not exited is not in its run: its lanes are set aside, and
nothing else changes (11 R240). -/
def GatherWaits (i : Instr) : Prop :=
  ∀ s c l, s.cur = some c → l ∈ gatherSet s c → l ∉ c.lanes →
    exec i s = .next (s.modLanes c.ti c.gi c.lanes fun _ t => { t with hold := .gather })

/-- Instruction `i` computes one result of `wd` bits for each active lane from that lane alone, and writes it to `d` and to `lr`. -/
def Computes (i : Instr) (g : Guard) (regs : List Nat) (wd : Nat) (d : Dst) (f : Thread → DWord) : Prop :=
  ∀ s c, Ready s c g regs → exec i s = .next (afterLanes s c g fun _ t => writeback t d wd (f t) true)

/-- The registers that a word with one source names. -/
def regs1 (wd : Nat) (d : Dst) (wa : Nat) (a : Src) : List Nat := dstRegs wd d ++ srcRegs wa a
/-- The registers that a word with two sources names. -/
def regs2 (wd : Nat) (d : Dst) (wa : Nat) (a : Src) (wb : Nat) (b : SrcB) : List Nat := regs1 wd d wa a ++ srcBRegs wb b
/-- The registers that a word with three sources names. -/
def regs3 (wd : Nat) (d : Dst) (wa : Nat) (a : Src) (wb : Nat) (b : SrcB) (wc : Nat) (c : Src) : List Nat :=
  regs2 wd d wa a wb b ++ srcRegs wc c

/-! ### Loads and stores at issue, 06 R122 to R126 -/

/-- A load-class instruction, once its checks pass and no order holds it back, leaves one outstanding load with one part for each active
lane: at the translated address, or parked where the page is missing. Its destination registers are pending, and the counter is one up. -/
def LoadIssues (i : Instr) (g : Guard) (regs : List Nat) (op : LoadOp) (n align : Nat) (acc : Acc) (dst : List Nat)
    (addr : Thread → Nat) (x y : Thread → DWord) : Prop :=
  ∀ s c ps s', Ready s c g regs → Here s c → activeLanes s c g ≠ [] →
    memChecks s (s.acx c.ti c.gi) acc align (laneAddrs s c (activeLanes s c g) addr) = .pass ps s' →
    loadWaits s c (activeLanes s c g) = [] →
    ∃ t ld, exec i s = .next t ∧ t.loads = s.loads ++ [ld] ∧ t.stores = s.stores ∧
      ld.op = op ∧ ld.n = n ∧ ld.ti = c.ti ∧ ld.gi = c.gi ∧ ld.core = s.coreOf c.ti c.gi ∧ ld.epc = c.pc ∧ ld.id = s.nextId ∧
      (ld.parts.map fun p => (p.lane, p.va, p.x, p.y)) =
        (activeLanes s c g).map (fun l => let t := s.thread c.ti c.gi l; (l, addr t, x t, y t)) ∧
      (∀ l va pa key gen, (l, va, Tr.ok pa key gen) ∈ ps →
        ∃ p ∈ ld.parts, p.lane = l ∧ p.va = va ∧ p.pa = pa ∧ p.key = key ∧ p.gen = gen ∧ p.st = .wait) ∧
      (∀ l va, (l, va, Tr.miss) ∈ ps → ∃ p ∈ ld.parts, p.lane = l ∧ p.va = va ∧ p.parked = true) ∧
      (∀ l ∈ activeLanes s c g, t.thread c.ti c.gi l =
        { (s.thread c.ti c.gi l).addPend dst ld.id with pc := c.pc + BitVec.ofNat 64 c.len, hold := .none }) ∧
      (∀ ti gi l, (t.thread ti gi l).regs = (s.thread ti gi l).regs ∧ (t.thread ti gi l).lr = (s.thread ti gi l).lr) ∧
      (t.group c.ti c.gi).loads = (s.group c.ti c.gi).loads + 1 ∧
      (acc ≠ .atom → t.mem = s'.mem ∧ t.memTag = s'.memTag ∧ t.cache = s'.cache)

/-- The kind of access of a store-class instruction: a reduction has checks of its own (06 R132). -/
def StOp.acc (op : StOp) : Acc := if op.isRed then .red else .store

/-- What the issue of a release publishes to its core first. -/
def State.beforeStore (s : State) (c : Cur) (act : List Nat) (op : StOp) : State := if op = .rel then s.publish c.ti c.gi act else s

/-- Whether a store of a core to a line leaves no copy `e`: of a line that is homed on another die, the RDC's copy goes and every other L1's on the
core's die, and with a reduction the core's own (05 R100). -/
def PassesBy (s : State) (core line : Nat) (red : Bool) (e : CLine) : Prop :=
  e.line = line ∧ s.homeDie (128 * line) ≠ some (dieOfCore core) ∧
    (e.lvl = .rdc (dieOfCore core) ∨ (e.lvl.onDie (dieOfCore core) = true ∧ (red = true ∨ e.lvl ≠ .l1 core)))

/-- A store-class instruction, once its checks pass and no order holds it back, leaves one outstanding store with one part for each active
lane, with that lane's data: visible in the L1, or in the side log where the page is missing or has an entry there. The counter is one up.
Memory itself changes when the store is acknowledged; at issue only the dirty bits of the pages may be set, and of a line homed on another die the
copies that the store passes by go. -/
def StoreIssues (i : Instr) (g : Guard) (regs : List Nat) (op : StOp) (sc : Scope) (n : Nat)
    (addr : Thread → Nat) (data : Thread → DWord) (cond : State → Cur → List Nat → Prop) : Prop :=
  ∀ s c ps s', Ready s c g regs → Here s c → activeLanes s c g ≠ [] →
    memChecks s (s.acx c.ti c.gi) op.acc n (laneAddrs s c (activeLanes s c g) addr) = .pass ps s' →
    storeWaits s c n (logNeed s c ps) ps = [] → cond s c (activeLanes s c g) →
    ∃ t st, exec i s = .next t ∧ t.stores = (s.beforeStore c (activeLanes s c g) op).stores ++ [st] ∧ t.loads = s.loads ∧
      st.op = op ∧ st.sc = sc ∧ st.n = n ∧ st.ti = c.ti ∧ st.gi = c.gi ∧ st.core = s.coreOf c.ti c.gi ∧ st.id = s.nextId ∧
      (st.parts.map fun p => (p.lane, p.va, p.data)) =
        (activeLanes s c g).map (fun l => let t := s.thread c.ti c.gi l; (l, addr t, data t)) ∧
      (∀ l va pa key gen, (l, va, Tr.ok pa key gen) ∈ ps → ∃ p ∈ st.parts, p.lane = l ∧ p.va = va ∧ p.pa = pa ∧ p.key = key ∧ p.gen = gen ∧
        ((s.logOnPage (s.coreOf c.ti c.gi) (s.asidOf c.ti) va = none → p.st = .wait) ∧
          (s.logOnPage (s.coreOf c.ti c.gi) (s.asidOf c.ti) va ≠ none → p.inLog = true))) ∧
      (∀ l va, (l, va, Tr.miss) ∈ ps → ∃ p ∈ st.parts, p.lane = l ∧ p.va = va ∧ p.inLog = true) ∧
      (∀ l ∈ activeLanes s c g, t.thread c.ti c.gi l =
        { s.thread c.ti c.gi l with pc := c.pc + BitVec.ofNat 64 c.len, hold := .none }) ∧
      (∀ ti gi l, (t.thread ti gi l).regs = (s.thread ti gi l).regs ∧ (t.thread ti gi l).lr = (s.thread ti gi l).lr) ∧
      (t.group c.ti c.gi).stores = (s.group c.ti c.gi).stores + 1 ∧
      ((∀ e ∈ s'.tlb, e.dirtySet = true) → t.mem = s'.mem ∧ t.memTag = s'.memTag ∧
        ∀ e, e ∈ t.cache ↔ e ∈ s'.cache ∧ ¬∃ l va pa key gen, (l, va, Tr.ok pa key gen) ∈ ps ∧
          s.logOnPage (s.coreOf c.ti c.gi) (s.asidOf c.ti) va = none ∧ PassesBy s' (s.coreOf c.ti c.gi) (lineOf pa) op.isRed e)

/-- A word with memory addresses traps where an address is not a multiple of `align`: 0x04 with the address of the lowest such lane, no lane
having had any effect. -/
def Misaligns (i : Instr) (g : Guard) (regs : List Nat) (align : Nat) (addr : Thread → Nat) : Prop :=
  ∀ s c p l q, Ready s c g regs → activeLanes s c g = p ++ l :: q → (∀ k ∈ p, addr (s.thread c.ti c.gi k) % align = 0) →
    addr (s.thread c.ti c.gi l) % align ≠ 0 →
    exec i s = .next (takeTrap s c.ti c.gi c.lanes 0x04 c.pc (BitVec.ofNat 64 (addr (s.thread c.ti c.gi l))))

/-- A word with memory addresses traps where they are aligned and one has a bit above 56 set: 0x06 with the address of the lowest such lane. -/
def Overreaches (i : Instr) (g : Guard) (regs : List Nat) (align : Nat) (addr : Thread → Nat) : Prop :=
  ∀ s c p l q, Ready s c g regs → activeLanes s c g = p ++ l :: q → (∀ k ∈ p ++ l :: q, addr (s.thread c.ti c.gi k) % align = 0) →
    (∀ k ∈ p, addr (s.thread c.ti c.gi k) < 2 ^ 57) → 2 ^ 57 ≤ addr (s.thread c.ti c.gi l) →
    exec i s = .next (takeTrap s c.ti c.gi c.lanes 0x06 c.pc (BitVec.ofNat 64 (addr (s.thread c.ti c.gi l))))

/-! ### Values of number formats, 09 R184 to R193 -/

/-- The rational number that a finite value stands for. -/
def Num.rat : Num → ℚ
  | .fin m e => m * (2 : ℚ) ^ e
  | _ => 0

/-- Whether a value is a number of finite size. -/
def Num.isFin : Num → Bool
  | .zero _ | .fin _ _ => true
  | _ => false

/-- Strictly below, as numbers: the two zeros are equal, a NaN stands below nothing and above nothing. -/
def Num.lt : Num → Num → Prop
  | .nan, _ | _, .nan => False
  | .inf true, y => y ≠ .inf true
  | _, .inf true => False
  | .inf false, _ => False
  | _, .inf false => True
  | x, y => x.rat < y.rat

/-- The integer to which a mode rounds the magnitude `x` of a number with sign `neg` (09 R190). -/
def roundedBy (mode : Rnd) (neg : Bool) (x : ℚ) (q : ℕ) : Prop :=
  let dist : ℚ := if x ≤ q then q - x else x - q
  match mode with
  | .rne => dist < 1 / 2 ∨ (dist = 1 / 2 ∧ q % 2 = 0)
  | .rz => (q : ℚ) ≤ x ∧ x < q + 1
  | .ru => if neg then (q : ℚ) ≤ x ∧ x < q + 1 else x ≤ q ∧ (q : ℚ) < x + 1
  | .rd => if neg then x ≤ q ∧ (q : ℚ) < x + 1 else (q : ℚ) ≤ x ∧ x < q + 1

/-- The F-form of a slot's mnemonic with first source `x` and second source `y` (02 R52, R55). -/
def slotForm (o : Slot) (g : Guard) (d : Dst) (x y : Src) : Instr :=
  let t := slotInt o.ty
  let h : Fmt := if o.ty = .bf16x2 then .bf16x2 else .f16x2
  match o.op with
  | .fadd => .fadd g .f32 o.rm d x (.src y)
  | .fsub => .fsub g .f32 o.rm d x (.src y)
  | .fmul => .fmul g .f32 o.rm d x (.src y)
  | .fmin => .fmin g .f32 d x (.src y)
  | .fmax => .fmax g .f32 d x (.src y)
  | .hadd2 => .hadd2 g h o.rm d x (.src y)
  | .hmul2 => .hmul2 g h o.rm d x (.src y)
  | .hmin2 => .hmin2 g h d x (.src y)
  | .hmax2 => .hmax2 g h d x (.src y)
  | .imul => .imul g t d x (.src y)
  | .imulh => .imulh g t d x (.src y)
  | .imin => .imin g t d x (.src y)
  | .imax => .imax g t d x (.src y)
  | .iadd => .iadd g t d x (.src y)
  | .isub => .isub g t d x (.src y)
  | .and => .and g .b32 d x (.src y)
  | .or => .or g .b32 d x (.src y)
  | .xor => .xor g .b32 d x (.src y)
  | .andn => .andn g .b32 d x (.src y)
  | .shl => .shl g .b32 d x (.src y)
  | .shr => .shr g .b32 d x (.src y)
  | .sar => .sar g .s32 d x (.src y)
  | .rol => .rol g .b32 d x (.src y)
  | .mov => .mov g .b32 d y
  | .ineg => .ineg g .s32 d y
  | .iabs => .iabs g .s32 d y
  | .clz => .clz g .b32 d y
  | .popc => .popc g .b32 d y
  | .brev => .brev g .b32 d y
  | .cvtF32S32 => .fcvt g .f32 .i32 o.rm d y
  | .cvtS32F32 => .fcvt g .i32 .f32 o.rm d y
  | .cvtF32B32 => .fcvt g .f32 .u32 o.rm d y
  | .cvtB32F32 => .fcvt g .u32 .f32 o.rm d y
  | .cvtF32Bf16 => .fcvt g .f32 .bf16 o.rm d y
  | .cvtBf16F32 => .fcvt g .bf16 .f32 o.rm d y
  | .cvtF32F16 => .fcvt g .f32 .f16 o.rm d y
  | .cvtF16F32 => .fcvt g .f16 .f32 o.rm d y

/-! ### Good states and runs -/

/-- The caches as accesses leave them: the cells of a copy rise and lie in its line, a clean copy in an L1 lists none, the copies of a line are
under one key, a dirty copy in an L1 is the only one of its level and the only dirty one above the L2, and no RDC of its die holds that line
(03 R69, 05 R97 to R99). -/
def State.tidy (s : State) : Prop := ∀ e ∈ s.cache,
  Sparse.risingFrom none e.data = true ∧ (∀ x ∈ e.data, lineOf x.1 = e.line) ∧ (isL1 e.lvl = true → e.dirty = false → e.data = []) ∧
  ∀ e' ∈ s.cache, e'.line = e.line → e'.key = e.key ∧ ∀ c, e.lvl = .l1 c → e.dirty = true →
    (isL1 e'.lvl = true → e'.dirty = true ∨ e'.lvl = e.lvl → e' = e) ∧ e'.lvl ≠ .rdc (dieOfCore c)

/-- Memory is in its canonical form. -/
def State.memOk (s : State) : Prop := Memory.wf s.mem = true

/-- `t` follows from `s` by some number of steps. -/
inductive Reaches : State → State → Prop where
  | refl (s : State) : Reaches s s
  | tail {s t u : State} : Reaches s t → step t = .next u → Reaches s u

/-- A run from `s` is safe for a property of states if every state that it reaches has it. -/
def SafeFor (P : State → Prop) (s : State) : Prop := ∀ t, Reaches s t → P t

end Sys2Proof.Machine
end

