-- ==== Sys2Proof/Certificates/Slice0/Obligations.lean ====
section
/-! DEFINITION. The statements about the model, for the provers.

A statement about an instruction says that `exec` answers a next state and which one: `Ready` and `Issues` (Safety.lean) are conditions on the
state and the operands alone. `OBLIGATIONS.json` names for each the rules of spec/ that it formalises. -/

open Sys2Proof Sys2Proof.Machine

/-! ### Integer and address instructions, spec/10 -/

/-- R208: with v(x) signed for a `.s` type and unsigned for a `.b` type, the exact result is written modulo 2^w. -/
def Obligations.IntegerArithmeticResults : Prop :=
  ∀ (g : Guard) (t : IntTy) (d : Dst) (a : Src) (b : SrcB),
    let va (th : Thread) : Int := valW t.signed t.w (operand th t.w a)
    let vb (th : Thread) : Int := valW t.signed t.w (operandB th t.w b)
    let sa (th : Thread) : Int := sintW t.w (operand th t.w a)
    let r2 := regs2 t.w d t.w a t.w b
    Computes (.iadd g t d a b) g r2 t.w d (fun th => patW t.w (va th + vb th)) ∧
    Computes (.isub g t d a b) g r2 t.w d (fun th => patW t.w (va th - vb th)) ∧
    Computes (.imul g t d a b) g r2 t.w d (fun th => patW t.w (va th * vb th)) ∧
    Computes (.imulh g t d a b) g r2 t.w d (fun th => patW t.w (va th * vb th / 2 ^ t.w)) ∧
    Computes (.imin g t d a b) g r2 t.w d (fun th => patW t.w (min (va th) (vb th))) ∧
    Computes (.imax g t d a b) g r2 t.w d (fun th => patW t.w (max (va th) (vb th))) ∧
    Computes (.iabs g t d a) g (regs1 t.w d t.w a) t.w d (fun th => patW t.w |sa th|) ∧
    Computes (.ineg g t d a) g (regs1 t.w d t.w a) t.w d (fun th => patW t.w (-sa th))

/-- R209: bit 0 of the third source is the carry or borrow in; the sum or difference and its carry or borrow read the same sources.
R210: `imad` and `imadh` write the low and the high half of the exact v(a) × v(b) + v(c); together they give it whole, and it does not
overflow 2w bits.
R211: quotient and remainder with truncation towards zero, the two exceptional cases, and a = q × b + m modulo 2^w in all of them. -/
def Obligations.WideArithmeticResults : Prop :=
  (∀ (g : Guard) (t : IntTy) (d : Dst) (a : Src) (b : SrcB) (c : Src),
    let ua (th : Thread) : Int := uintW t.w (operand th t.w a)
    let ub (th : Thread) : Int := uintW t.w (operandB th t.w b)
    let ci (th : Thread) : Int := ((src32 th c).toNat % 2 : Nat)
    let regs (op : AddcOp) := regs3 (op.w t) d t.w a t.w b 32 c
    Computes (.iaddc g .sum t d a b c) g (regs .sum) t.w d (fun th => patW t.w (ua th + ub th + ci th)) ∧
    Computes (.iaddc g .co t d a b c) g (regs .co) 32 d (fun th => BitVec.ofInt 64 ((ua th + ub th + ci th) / 2 ^ t.w)) ∧
    Computes (.iaddc g .dif t d a b c) g (regs .dif) t.w d (fun th => patW t.w (ua th - ub th - ci th)) ∧
    Computes (.iaddc g .bo t d a b c) g (regs .bo) 32 d (fun th => if ua th - ub th - ci th < 0 then 1 else 0)) ∧
  (∀ (g : Guard) (t : IntTy) (d : Dst) (a : Src) (b : SrcB) (c : Src),
    let p (th : Thread) : Int :=
      valW t.signed t.w (operand th t.w a) * valW t.signed t.w (operandB th t.w b) + valW t.signed t.w (operand th t.w c)
    let regs := regs3 t.w d t.w a t.w b t.w c
    ∃ lo hi : Thread → DWord,
      Computes (.imad g t d a b c) g regs t.w d lo ∧ Computes (.imadh g t d a b c) g regs t.w d hi ∧
      (∀ th, lo th = patW t.w (p th)) ∧
      (∀ th, ((uintW t.w (hi th) : Int) * 2 ^ t.w + uintW t.w (lo th)) % 2 ^ (2 * t.w) = p th % 2 ^ (2 * t.w)) ∧
      ∀ th, if t.signed then -2 ^ (2 * t.w - 1) ≤ p th ∧ p th < 2 ^ (2 * t.w - 1) else 0 ≤ p th ∧ p th < 2 ^ (2 * t.w)) ∧
  (∀ (g : Guard) (t : IntTy) (d : Dst) (a : Src) (b : SrcB),
    let va (th : Thread) : Int := valW t.signed t.w (operand th t.w a)
    let vb (th : Thread) : Int := valW t.signed t.w (operandB th t.w b)
    let regs := regs2 t.w d t.w a t.w b
    ∃ q m : Thread → Int,
      Computes (.idiv g t d a b) g regs t.w d (fun th => patW t.w (q th)) ∧
      Computes (.irem g t d a b) g regs t.w d (fun th => patW t.w (m th)) ∧
      (∀ th, vb th = 0 → q th = -1 ∧ m th = va th) ∧
      (∀ th, t.signed = true → va th = -2 ^ (t.w - 1) → vb th = -1 → q th = va th ∧ m th = 0) ∧
      (∀ th, vb th ≠ 0 → ¬(t.signed = true ∧ va th = -2 ^ (t.w - 1) ∧ vb th = -1) →
        q th = (va th).tdiv (vb th) ∧ m th = va th - q th * vb th) ∧
      ∀ th, (q th * vb th + m th - va th) % 2 ^ t.w = 0)

/-- R212, R213: bitwise logic, and shifts by the low eight bits of the count; a count of w or more shifts everything out, `rol` takes it
modulo w.
R214: the counts are those of bits within w, w where there is none; `brev` mirrors the bits. -/
def Obligations.LogicShiftAndCountResults : Prop :=
  (∀ (g : Guard) (t : IntTy) (d : Dst) (a : Src) (b : SrcB),
    let x (th : Thread) : DWord := operand th t.w a
    let y (th : Thread) : DWord := operandB th t.w b
    let ux (th : Thread) : Int := uintW t.w (x th)
    let n (th : Thread) : Nat := (srcB32 th b).toNat % 256
    let r := regs2 t.w d t.w a t.w b
    let rs := regs2 t.w d t.w a 32 b
    Computes (.and g t d a b) g r t.w d (fun th => x th &&& y th) ∧
    Computes (.or g t d a b) g r t.w d (fun th => x th ||| y th) ∧
    Computes (.xor g t d a b) g r t.w d (fun th => x th ^^^ y th) ∧
    Computes (.andn g t d a b) g r t.w d (fun th => x th &&& ~~~y th) ∧
    Computes (.shl g t d a b) g rs t.w d (fun th => if n th < t.w then patW t.w (ux th * 2 ^ n th) else 0) ∧
    Computes (.shr g t d a b) g rs t.w d (fun th => patW t.w (ux th / 2 ^ n th)) ∧
    Computes (.sar g t d a b) g rs t.w d (fun th =>
      if n th < t.w then patW t.w (sintW t.w (x th) / 2 ^ n th) else if sintW t.w (x th) < 0 then patW t.w (-1) else 0) ∧
    Computes (.rol g t d a b) g rs t.w d (fun th =>
      patW t.w (ux th * 2 ^ (n th % t.w) + ux th / 2 ^ (t.w - n th % t.w)))) ∧
  (∀ (g : Guard) (t : IntTy) (d : Dst) (a : Src),
    let r := regs1 32 d t.w a
    ∃ lead trail ones : DWord → Nat, ∃ rev : DWord → DWord,
      Computes (.clz g t d a) g r 32 d (fun th => BitVec.ofNat 64 (lead (operand th t.w a))) ∧
      Computes (.ctz g t d a) g r 32 d (fun th => BitVec.ofNat 64 (trail (operand th t.w a))) ∧
      Computes (.popc g t d a) g r 32 d (fun th => BitVec.ofNat 64 (ones (operand th t.w a))) ∧
      Computes (.brev g t d a) g (regs1 t.w d t.w a) t.w d (fun th => rev (operand th t.w a)) ∧
      (∀ x, lead x ≤ t.w ∧ (∀ i, i < lead x → x.getLsbD (t.w - 1 - i) = false) ∧
        (lead x < t.w → x.getLsbD (t.w - 1 - lead x) = true)) ∧
      (∀ x, trail x ≤ t.w ∧ (∀ i, i < trail x → x.getLsbD i = false) ∧ (trail x < t.w → x.getLsbD (trail x) = true)) ∧
      (∀ x, ones x = ((Finset.range t.w).filter fun i => x.getLsbD i = true).card) ∧
      ∀ x i, (rev x).getLsbD i = (decide (i < t.w) && x.getLsbD (t.w - 1 - i)))

/-- R215 to R217: `bfe` takes a field of n bits from bit p, `bfi` puts one there, `bsel` picks and transforms source bytes.
R218 to R223: selection, comparison, clamping, 64-bit address arithmetic, moves. -/
def Obligations.FieldSelectionAndAddressResults : Prop :=
  (∀ (g : Guard) (t : IntTy) (d : Dst) (a : Src) (b : SrcB) (c : Src),
    let p (th : Thread) : Nat := (srcB32 th b).toNat % 256
    let n (th : Thread) : Nat := min ((srcB32 th b).toNat / 256 % 256) t.w
    let f (th : Thread) : Int := valW t.signed t.w (operand th t.w a) / 2 ^ p th % 2 ^ n th
    Computes (.bfe g t d a b) g (regs2 t.w d t.w a 32 b) t.w d (fun th =>
      patW t.w (if t.signed = true ∧ 0 < n th ∧ 2 ^ (n th - 1) ≤ f th then f th - 2 ^ n th else f th)) ∧
    (∃ ins : Thread → DWord,
      Computes (.bfi g t d a b c) g (regs3 t.w d t.w a 32 b t.w c) t.w d ins ∧
      ∀ th i, i < t.w → (ins th).getLsbD i =
        if p th ≤ i ∧ i < p th + n th then (operand th t.w a).getLsbD (i - p th) else (operand th t.w c).getLsbD i) ∧
    ∃ pick : Thread → DWord,
      Computes (.bsel g t d a b c) g (regs3 32 d 32 a 32 b 32 c) 32 d pick ∧
      ∀ th i j, i < 4 → j < 8 →
        let k := (srcB32 th b).extractLsb' (8 * i) 8
        let src : DWord := src32 th c ++ src32 th a
        let bit (m : Nat) : Bool := src.getLsbD (8 * (k.toNat % 8) + m)
        (pick th).getLsbD (8 * i + j) =
          match k.toNat / 8 % 4 with
          | 0 => bit j
          | 1 => bit (7 - j)
          | 2 => !bit j
          | _ => false) ∧
  (∀ (g : Guard) (t : IntTy) (d : Dst) (a : Src) (b : SrcB) (c : Src) (cc : ICmp) (ss : SatSrc) (sx : Bool) (sh : BitVec 6),
    let va (th : Thread) : Int := valW t.signed t.w (operand th t.w a)
    let vb (th : Thread) : Int := valW t.signed t.w (operandB th t.w b)
    let holds (x y : Int) : Bool := match cc with
      | .eq => x == y
      | .ne => x != y
      | .lt => decide (x < y)
      | .le => decide (x ≤ y)
      | .gt => decide (x > y)
      | .ge => decide (x ≥ y)
    let read (th : Thread) : Int := match ss with
      | .ws => (src32 th a).toInt
      | .wu => (src32 th a).toNat
      | .ds => (operand th 64 a).toInt
      | .du => (operand th 64 a).toNat
    let limits : Int × Int := match t with
      | .s8 => (-2 ^ 7, 2 ^ 7 - 1)
      | .s16 => (-2 ^ 15, 2 ^ 15 - 1)
      | .s32 | .s64 => (-2 ^ 31, 2 ^ 31 - 1)
      | .b8 => (0, 2 ^ 8 - 1)
      | .b16 => (0, 2 ^ 16 - 1)
      | .b32 | .b64 => (0, 2 ^ 32 - 1)
    Computes (.sel g t d a b c) g (regs3 t.w d t.w a t.w b 32 c) t.w d (fun th =>
      if (src32 th c).getLsbD 0 then operand th t.w a else operandB th t.w b) ∧
    Computes (.icmp g cc t d a b) g (regs2 32 d t.w a t.w b) 32 d (fun th => if holds (va th) (vb th) then 1 else 0) ∧
    Computes (.isat g ss t d a) g (regs1 32 d ss.w a) 32 d (fun th => patW 32 (max limits.1 (min limits.2 (read th)))) ∧
    Computes (.add64 g d a b) g (regs2 64 d 64 a 64 b) 64 d (fun th => operand th 64 a + operandB th 64 b) ∧
    Computes (.sub64 g d a b) g (regs2 64 d 64 a 64 b) 64 d (fun th => operand th 64 a - operandB th 64 b) ∧
    Computes (.lea64 g sx d a b sh) g (regs2 64 d 64 a 32 b) 64 d (fun th =>
      operand th 64 a + BitVec.ofInt 64 ((if sx then (srcB32 th b).toInt else (srcB32 th b).toNat) * 2 ^ sh.toNat)) ∧
    Computes (.mov g t d a) g (regs1 t.w d t.w a) t.w d (fun th => operand th t.w a) ∧
    Computes (.movi g t d b) g (dstRegs t.w d ++ srcBRegs t.w b) t.w d (fun th => operandB th t.w b))

/-! ### Floating point, narrow and cross-lane instructions, spec/09 and spec/11 -/

/-- R190: `roundUnit` rounds the magnitude n ÷ d × 2^(e − u) to an integer as its mode says.
R190 to R193: `FF.round` gives, of the finite values of its format, the one that its mode chooses, the nearest, the nearest of no larger magnitude, or
the next above or below; beyond the largest finite value what the table says of the destination and the mode, with saturation in N8 and N4; a
zero with the sign of the value, or +0 in N8 and N4; and of NaN, infinities and zeros the patterns of their tables, NaN the canonical one of R187.
`encodeElem` does so for the float formats; to an integer format it rounds to an integer and saturates. -/
def Obligations.RoundingModes : Prop :=
  (∀ (mode : Rnd) (neg : Bool) (n d : ℕ) (e u : ℤ), 0 < d →
    roundedBy mode neg ((n : ℚ) / d * (2 : ℚ) ^ (e - u)) (roundUnit mode neg n d e u)) ∧
  -- finite values to the float formats: each with its largest finite value, and that value's unit in the last place
  (∀ (F : FF) (top ulp : ℚ), (F, top, ulp) ∈ [(ffF32, (2 - (2 : ℚ) ^ (-23 : ℤ)) * 2 ^ 127, (2 : ℚ) ^ 104), (ffF16, 65504, 32),
      (ffBf16, (2 - (2 : ℚ) ^ (-7 : ℤ)) * 2 ^ 127, (2 : ℚ) ^ 120), (ffN8, 240, 16), (ffN4, 6, 2)] →
    ∀ (mode : Rnd) (m e : ℤ), m ≠ 0 →
      let x : ℚ := m * (2 : ℚ) ^ e
      let r := F.round mode (.fin m e)
      let v := (F.decode r).rat
      let values : Set ℚ := { w | ∃ p, p < 2 ^ F.width ∧ (F.decode p).isFin = true ∧ (F.decode p).rat = w }
      let over' : Prop := F.ieee = true ∧ match mode with
        | .rne => top + ulp / 2 ≤ |x|
        | .rz => False
        | .ru => 0 < x
        | .rd => x < 0
      r < 2 ^ F.width ∧
      (|x| ≤ top → (F.decode r).isFin = true ∧ match mode with
        | .rne => ∀ w ∈ values, |x - v| ≤ |x - w| ∧ (w ≠ v → |x - v| = |x - w| → r % 2 = 0)
        | .rz => 0 ≤ v * x ∧ |v| ≤ |x| ∧ ∀ w ∈ values, |w| ≤ |x| → |w| ≤ |v|
        | .ru => x ≤ v ∧ ∀ w ∈ values, x ≤ w → v ≤ w
        | .rd => v ≤ x ∧ ∀ w ∈ values, w ≤ x → w ≤ v) ∧
      (top < |x| → over' → F.decode r = .inf (decide (m < 0))) ∧
      (top < |x| → ¬over' → (F.decode r).isFin = true ∧ v = if 0 < x then top else -top) ∧
      ((F.decode r).isFin = true → v = 0 → r = if F.ieee = true ∧ m < 0 then F.signBit else 0)) ∧
  -- the special values: NaN, +∞, −∞, +0 and −0
  (∀ F nan inf ninf nzero, (F, nan, inf, ninf, nzero) ∈ [(ffF32, 0x7FC00000, 0x7F800000, 0xFF800000, 0x80000000),
      (ffF16, 0x7E00, 0x7C00, 0xFC00, 0x8000), (ffBf16, 0x7FC0, 0x7F80, 0xFF80, 0x8000), (ffN8, 0x80, 0x7F, 0xFF, 0), (ffN4, 0, 0x7, 0xF, 0)] →
    ∀ mode, F.round mode .nan = nan ∧ F.round mode (.inf false) = inf ∧ F.round mode (.inf true) = ninf ∧ F.round mode (.zero false) = 0 ∧
      F.round mode (.zero true) = nzero) ∧
  (∀ f F, (f, F) ∈ [(EFmt.f32, ffF32), (.f16, ffF16), (.bf16, ffBf16), (.n8, ffN8), (.n4, ffN4)] →
    ∀ mode x, encodeElem f mode x = F.round mode x) ∧
  -- conversion to integers of w bits, from lo to hi
  ∀ f w lo hi, (f, w, lo, hi) ∈ [(EFmt.i4, 4, (-8 : ℤ), (7 : ℤ)), (.i8, 8, -128, 127), (.i16, 16, -32768, 32767),
      (.i32, 32, -2147483648, 2147483647), (.u32, 32, 0, 4294967295)] → ∀ mode : Rnd,
    encodeElem f mode .nan = 0 ∧ encodeElem f mode (.inf false) = (hi % 2 ^ w).toNat ∧ encodeElem f mode (.inf true) = (lo % 2 ^ w).toNat ∧
    (∀ n, encodeElem f mode (.zero n) = 0) ∧
    ∀ (m e : ℤ) (q : ℕ), roundedBy mode (decide (m < 0)) (|(m : ℚ)| * (2 : ℚ) ^ e) q →
      encodeElem f mode (.fin m e) = (max lo (min hi (if m < 0 then -(q : ℤ) else q)) % 2 ^ w).toNat

/-- R226: the exact sum, difference, product or multiply-add, rounded once, with the special cases of its table: the values themselves first,
then what the table says of them, then the zero to which a result that is not zero may round.
R233: each half is what the scalar instruction of the 16-bit format gives for that half. -/
def Obligations.FloatArithmeticResults : Prop :=
  (∀ (g : Guard) (f : Fmt) (rm : Rnd) (d : Dst) (a : Src) (b : SrcB) (c : Src),
    let F := fmtFF f
    let x (th : Thread) : Machine.Num := F.decode (operand th 32 a).toNat
    let y (th : Thread) : Machine.Num := F.decode (operandB th 32 b).toNat
    let z (th : Thread) : Machine.Num := F.decode (operand th 32 c).toNat
    let sum (th : Thread) : Machine.Num := (x th).add (isDown rm) (y th)
    let dif (th : Thread) : Machine.Num := (x th).add (isDown rm) (y th).neg
    let prod (th : Thread) : Machine.Num := (x th).mul (y th)
    let fma (th : Thread) : Machine.Num := ((x th).mul (y th)).add (isDown rm) (z th)
    let out (v : Thread → Machine.Num) (th : Thread) : DWord := BitVec.ofNat 64 (F.round rm (v th))
    let r2 := regs2 32 d 32 a 32 b
    Computes (.fadd g f rm d a b) g r2 32 d (out sum) ∧
    Computes (.fsub g f rm d a b) g r2 32 d (out dif) ∧
    Computes (.fmul g f rm d a b) g r2 32 d (out prod) ∧
    Computes (.ffma g f rm d a b c) g (regs3 32 d 32 a 32 b 32 c) 32 d (out fma) ∧
    ∀ th,
      -- any NaN operand
      (x th = .nan ∨ y th = .nan → sum th = .nan ∧ dif th = .nan ∧ prod th = .nan ∧ fma th = .nan) ∧
      (z th = .nan → fma th = .nan) ∧
      -- infinities that cancel, and zero times infinity
      (∀ n, x th = .inf n → y th = .inf (!n) → sum th = .nan) ∧
      (∀ n, x th = .inf n → y th = .inf n → dif th = .nan) ∧
      (∀ n m, (x th = .inf n ∧ y th = .zero m) ∨ (x th = .zero m ∧ y th = .inf n) → prod th = .nan ∧ fma th = .nan) ∧
      (∀ n, prod th = .inf n → z th = .inf (!n) → fma th = .nan) ∧
      -- the other infinities
      (∀ n, x th = .inf n → ((y th).isFin = true ∨ y th = .inf n) → sum th = .inf n) ∧
      (∀ n, x th = .inf n → ((y th).isFin = true ∨ y th = .inf (!n)) → dif th = .inf n) ∧
      (∀ n, (x th).isFin = true → y th = .inf n → sum th = .inf n ∧ dif th = .inf (!n)) ∧
      (∀ n m e, (x th = .inf n ∧ y th = .fin m e) ∨ (x th = .fin m e ∧ y th = .inf n) → prod th = .inf (n != decide (m < 0))) ∧
      (∀ n m, x th = .inf n → y th = .inf m → prod th = .inf (n != m)) ∧
      (∀ n, prod th = .inf n → ((z th).isFin = true ∨ z th = .inf n) → fma th = .inf n) ∧
      (∀ n, (prod th).isFin = true → z th = .inf n → fma th = .inf n) ∧
      -- finite operands: the exact value
      ((x th).isFin = true → (y th).isFin = true →
        (sum th).isFin = true ∧ (sum th).rat = (x th).rat + (y th).rat ∧
        (dif th).isFin = true ∧ (dif th).rat = (x th).rat - (y th).rat ∧
        (prod th).isFin = true ∧ (prod th).rat = (x th).rat * (y th).rat ∧
        ((z th).isFin = true → (fma th).isFin = true ∧ (fma th).rat = (x th).rat * (y th).rat + (z th).rat)) ∧
      -- signs of exact zeros
      (∀ n, x th = .zero n → y th = .zero n → sum th = .zero n ∧ dif th = .zero (rm == .rd)) ∧
      (∀ n, x th = .zero n → y th = .zero (!n) → sum th = .zero (rm == .rd) ∧ dif th = .zero n) ∧
      (∀ m e m' e', x th = .fin m e → y th = .fin m' e' →
        ((sum th).rat = 0 → sum th = .zero (rm == .rd)) ∧ ((dif th).rat = 0 → dif th = .zero (rm == .rd))) ∧
      (∀ n, (x th = .zero n → (y th).isFin = true → prod th = .zero (n != (y th).isNeg)) ∧
        (y th = .zero n → (x th).isFin = true → prod th = .zero ((x th).isNeg != n))) ∧
      (∀ n, prod th = .zero n → z th = .zero n → fma th = .zero n) ∧
      (∀ n, prod th = .zero n → z th = .zero (!n) → fma th = .zero (rm == .rd)) ∧
      (∀ m e m' e', prod th = .fin m e → m ≠ 0 → z th = .fin m' e' → (fma th).rat = 0 → fma th = .zero (rm == .rd)) ∧
      -- a result that is not zero and rounds to zero keeps its sign
      ∀ (m e : ℤ) n, F.ieee = true → m ≠ 0 → F.decode (F.round rm (.fin m e)) = .zero n → n = decide (m < 0)) ∧
  (∀ (g : Guard) (f : Fmt) (rm : Rnd) (d : Dst) (a : Src) (b : SrcB) (c : Src),
    let h : Fmt := match f with
      | .f16x2 => .f16
      | .bf16x2 => .bf16
      | scalar => scalar
    let F := fmtFF h
    let x (th : Thread) : DWord := operand th 32 a
    let y (th : Thread) : DWord := operandB th 32 b
    let z (th : Thread) : DWord := operand th 32 c
    let half (w : DWord) (i : ℕ) : DWord := (w.extractLsb' (16 * i) 16).setWidth 64
    let two (r : ℕ → DWord) : DWord := (r 1).setWidth 16 ++ (r 0).setWidth 16 |>.setWidth 64
    let r2 := regs2 32 d 32 a 32 b
    let r3 := regs3 32 d 32 a 32 b 32 c
    Computes (.fadd g h rm d a b) g r2 32 d (fun th => fpAdd F rm (x th) (y th)) ∧
    Computes (.hadd2 g f rm d a b) g r2 32 d (fun th => two fun i => fpAdd F rm (half (x th) i) (half (y th) i)) ∧
    Computes (.fmul g h rm d a b) g r2 32 d (fun th => fpMul F rm (x th) (y th)) ∧
    Computes (.hmul2 g f rm d a b) g r2 32 d (fun th => two fun i => fpMul F rm (half (x th) i) (half (y th) i)) ∧
    Computes (.ffma g h rm d a b c) g r3 32 d (fun th => fpFma F rm (x th) (y th) (z th)) ∧
    Computes (.hfma2 g f rm d a b c) g r3 32 d (fun th => two fun i => fpFma F rm (half (x th) i) (half (y th) i) (half (z th) i)) ∧
    Computes (.fmin g h d a b) g r2 32 d (fun th => fpMinMax false F (x th) (y th)) ∧
    Computes (.hmin2 g f d a b) g r2 32 d (fun th => two fun i => fpMinMax false F (half (x th) i) (half (y th) i)) ∧
    Computes (.fmax g h d a b) g r2 32 d (fun th => fpMinMax true F (x th) (y th)) ∧
    Computes (.hmax2 g f d a b) g r2 32 d (fun th => two fun i => fpMinMax true F (half (x th) i) (half (y th) i)))

/-- R227 to R229: lesser and greater with −0 below +0 and NaN ignored, comparisons with the zeros equal, classes.
R230 to R232: rounding to an integral value, conversion with one rounding, packing. -/
def Obligations.FloatOrderAndConversionResults : Prop :=
  (∀ (g : Guard) (f : Fmt) (cc : FCmp) (d : Dst) (a : Src) (b : SrcB), f.packed = false →
    let F := fmtFF f
    let p (th : Thread) : ℕ := (operand th 32 a).toNat % 2 ^ F.width
    let q (th : Thread) : ℕ := (operandB th 32 b).toNat % 2 ^ F.width
    let x (th : Thread) : Machine.Num := F.decode (p th)
    let y (th : Thread) : Machine.Num := F.decode (q th)
    let r2 := regs2 32 d 32 a 32 b
    ∃ (lo hi cls : Thread → ℕ) (holds : Thread → Bool),
      Computes (.fmin g f d a b) g r2 32 d (fun th => BitVec.ofNat 64 (lo th)) ∧
      Computes (.fmax g f d a b) g r2 32 d (fun th => BitVec.ofNat 64 (hi th)) ∧
      Computes (.fcmp g cc f d a b) g r2 32 d (fun th => if holds th then 1 else 0) ∧
      Computes (.fcls g f d a) g (regs1 32 d 32 a) 32 d (fun th => BitVec.ofNat 64 (cls th)) ∧
      (f.scalar = true →
        (∀ th, x th = .nan → y th = .nan → lo th = F.nanBits ∧ hi th = F.nanBits) ∧
        (∀ th, x th = .nan → y th ≠ .nan → lo th = q th ∧ hi th = q th) ∧
        (∀ th, x th ≠ .nan → y th = .nan → lo th = p th ∧ hi th = p th) ∧
        (∀ th, x th ≠ .nan → p th = q th → lo th = p th ∧ hi th = p th) ∧
        (∀ th, (x th).lt (y th) → lo th = p th ∧ hi th = q th) ∧
        (∀ th, (y th).lt (x th) → lo th = q th ∧ hi th = p th) ∧
        (∀ th m n, x th = .zero m → y th = .zero n → F.decode (lo th) = .zero (m || n) ∧ F.decode (hi th) = .zero (m && n)) ∧
        ∀ th, holds th = true ↔
          let un := x th = .nan ∨ y th = .nan
          match cc with
          | .eq => ¬un ∧ ¬(x th).lt (y th) ∧ ¬(y th).lt (x th)
          | .ne => un ∨ (x th).lt (y th) ∨ (y th).lt (x th)
          | .lt => (x th).lt (y th)
          | .le => ¬un ∧ ¬(y th).lt (x th)
          | .un => un
          | .ord => ¬un) ∧
      ∀ th, cls th = match x th with
        | .inf true => 2 ^ 0
        | .zero true => 2 ^ 3
        | .zero false => 2 ^ 4
        | .inf false => 2 ^ 7
        | .nan => 2 ^ 8
        | .fin m e =>
          if |(Machine.Num.fin m e).rat| < (2 : ℚ) ^ (1 - (F.bias : ℤ)) then (if m < 0 then 2 ^ 2 else 2 ^ 5)
          else (if m < 0 then 2 ^ 1 else 2 ^ 6)) ∧
  (∀ (g : Guard) (f : Fmt) (df sf : EFmt) (rm : Rnd) (hi : Bool) (d : Dst) (a : Src) (b : SrcB) (c : Src),
    let F := fmtFF f
    let x (th : Thread) : Machine.Num := F.decode (operand th 32 a).toNat
    let ra (G : FF) (th : Thread) : ℕ := G.round rm (ffF32.decode (operand th 32 a).toNat)
    let rb (G : FF) (th : Thread) : ℕ := G.round rm (ffF32.decode (operandB th 32 b).toNat)
    (∃ v : Thread → Machine.Num,
      Computes (.frnd g f rm d a) g (regs1 32 d 32 a) 32 d (fun th => BitVec.ofNat 64 (F.round rm (v th))) ∧
      (∀ th, (x th).isFin = false → v th = x th) ∧
      (∀ th n, x th = .zero n → v th = .zero n) ∧
      ∀ th m e, x th = .fin m e → ∃ q : ℕ, roundedBy rm (decide (m < 0)) |(x th).rat| q ∧
        (v th).isFin = true ∧ (v th).isNeg = decide (m < 0) ∧ |(v th).rat| = q) ∧
    Computes (.fcvt g df sf rm d a) g (regs1 32 d 32 a) 32 d (fun th =>
      let r := encodeElem df rm (decodeElem sf (operand th 32 a).toNat)
      match df with
      | .i8 => ((BitVec.ofNat 8 r).signExtend 32).setWidth 64
      | .i4 => ((BitVec.ofNat 4 r).signExtend 32).setWidth 64
      | .i16 => ((BitVec.ofNat 16 r).signExtend 32).setWidth 64
      | _ => BitVec.ofNat 64 r) ∧
    Computes (.fpk g f rm d a b) g (regs2 32 d 32 a 32 b) 32 d (fun th => BitVec.ofNat 64 (ra F th + 2 ^ 16 * rb F th)) ∧
    ∃ pack : Thread → DWord,
      Computes (.fpkN8 g hi rm d a b c) g (regs3 32 d 32 a 32 b 32 c) 32 d pack ∧
      ∀ th i, i < 4 → (pack th).extractLsb' (8 * i) 8 =
        if i = 2 * hi.toNat then BitVec.ofNat 8 (ra ffN8 th) else if i = 2 * hi.toNat + 1 then BitVec.ofNat 8 (rb ffN8 th)
        else (operand th 32 c).extractLsb' (8 * i) 8)

/-- R234: each special function is one function of its input, whatever the lane or core, with the results of the table for special inputs. -/
def Obligations.SpecialFunctionResults : Prop :=
  ∃ F : SfuFn → Word → Word,
    (∀ (g : Guard) (d : Dst) (a : Src),
      let is (fn : SfuFn) (i : Instr) : Prop := Computes i g (regs1 32 d 32 a) 32 d (fun th => (F fn (src32 th a)).setWidth 64)
      is .rcp (.sfuRcp g d a) ∧ is .rsq (.sfuRsq g d a) ∧ is .sqrt (.sfuSqrt g d a) ∧ is .exp2 (.sfuExp2 g d a) ∧
      is .log2 (.sfuLog2 g d a) ∧ is .sin (.sfuSin g d a) ∧ is .cos (.sfuCos g d a) ∧ is .tanh (.sfuTanh g d a)) ∧
    (∀ fn x, ffF32.decode x.toNat = .nan → F fn x = 0x7FC00000) ∧
    (F .rcp 0 = 0x7F800000 ∧ F .rcp 0x80000000 = 0xFF800000 ∧ F .rcp 0x7F800000 = 0 ∧ F .rcp 0xFF800000 = 0x80000000) ∧
    (F .rsq 0 = 0x7F800000 ∧ F .rsq 0x80000000 = 0xFF800000 ∧ F .rsq 0x7F800000 = 0 ∧ F .rsq 0xFF800000 = 0x7FC00000) ∧
    (F .sqrt 0 = 0 ∧ F .sqrt 0x80000000 = 0x80000000 ∧ F .sqrt 0x7F800000 = 0x7F800000 ∧ F .sqrt 0xFF800000 = 0x7FC00000) ∧
    (F .exp2 0 = 0x3F800000 ∧ F .exp2 0x80000000 = 0x3F800000 ∧ F .exp2 0x7F800000 = 0x7F800000 ∧ F .exp2 0xFF800000 = 0) ∧
    (F .log2 0 = 0xFF800000 ∧ F .log2 0x80000000 = 0xFF800000 ∧ F .log2 0x7F800000 = 0x7F800000 ∧ F .log2 0xFF800000 = 0x7FC00000 ∧
      F .log2 0x3F800000 = 0) ∧
    (F .sin 0 = 0 ∧ F .sin 0x80000000 = 0x80000000 ∧ F .sin 0x7F800000 = 0x7FC00000 ∧ F .sin 0xFF800000 = 0x7FC00000) ∧
    (F .cos 0 = 0x3F800000 ∧ F .cos 0x80000000 = 0x3F800000 ∧ F .cos 0x7F800000 = 0x7FC00000 ∧ F .cos 0xFF800000 = 0x7FC00000) ∧
    (F .tanh 0 = 0 ∧ F .tanh 0x80000000 = 0x80000000 ∧ F .tanh 0x7F800000 = 0x3F800000 ∧ F .tanh 0xFF800000 = 0xBF800000) ∧
    ∀ x m e, ffF32.decode x.toNat = .fin m e → m < 0 → F .rsq x = 0x7FC00000 ∧ F .sqrt x = 0x7FC00000 ∧ F .log2 x = 0x7FC00000

/-- R52, R55: both slots read the thread as it stood before the word, each with v(d) as its first source, each computes what the F-form of
its mnemonic gives, and `lr` holds slot B's result. -/
def Obligations.PairWordResults : Prop :=
  (∀ (a b : Slot) (s : State) (c : Cur), Ready s c .always (slotRegs a ++ slotRegs b) →
    exec (.pairWord a b) s = .next (afterLanes s c .always fun _ th =>
      let r (o : Slot) : Word := loWord (slotResult o ((th.v o.d.toNat).setWidth 64) (operand th 32 o.s))
      { (th.setV a.d.toNat (r a)).setV b.d.toNat (r b) with lr := (r b).setWidth 64 })) ∧
  ∀ (o : Slot) (g : Guard) (d : Dst) (x y : Src), o.ok = true →
    Computes (slotForm o g d x y) g (if o.op.unary then regs1 32 d 32 y else regs2 32 d 32 x 32 (.src y)) 32 d
      (fun th => slotResult o (operand th 32 x) (operand th 32 y))

/-- R237: the exact sum of the products of four 8-bit or eight 4-bit elements, then the accumulator, then one rounding; integers wrap.
R238, R239: the nested-block factor, and the scales for quantising. -/
def Obligations.NarrowDotAndScaleResults : Prop :=
  (∀ (g : Guard) (rm : Rnd) (d : Dst) (a : Src) (b : SrcB) (c : Src),
    let el (f : EFmt) (x : DWord) (i : ℕ) : Machine.Num := decodeElem f (x.toNat / 2 ^ (ewidth f * i) % 2 ^ ewidth f)
    let sum (f : EFmt) (n : ℕ) (th : Thread) : ℚ :=
      ((List.range n).map fun i => (el f (operand th 32 a) i).rat * (el f (operandB th 32 b) i).rat).sum
    let bad (f : EFmt) (n : ℕ) (th : Thread) : Prop :=
      ∃ i, i < n ∧ (el f (operand th 32 a) i = .nan ∨ el f (operandB th 32 b) i = .nan)
    let acc (th : Thread) : Machine.Num := ffF32.decode (operand th 32 c).toNat
    let regs := regs3 32 d 32 a 32 b 32 c
    let ints (i : Instr) (f : EFmt) (n : ℕ) : Prop := ∃ s : Thread → ℤ,
      Computes i g regs 32 d (fun th => patW 32 (s th + (src32 th c).toInt)) ∧ ∀ th, (s th : ℚ) = sum f n th
    let floats (i : Instr) (f : EFmt) (n : ℕ) : Prop := ∃ v : Thread → Machine.Num,
      Computes i g regs 32 d (fun th => BitVec.ofNat 64 (ffF32.round rm (v th))) ∧
      (∀ th, bad f n th ∨ acc th = .nan → v th = .nan) ∧
      (∀ th m, ¬bad f n th → acc th = .inf m → v th = .inf m) ∧
      ∀ th, ¬bad f n th → (acc th).isFin = true → (v th).isFin = true ∧ (v th).rat = sum f n th + (acc th).rat
    ints (.dot4 g .i8 rm d a b c) .i8 4 ∧ ints (.dot8 g .i4 rm d a b c) .i4 8 ∧
    floats (.dot4 g .n8 rm d a b c) .n8 4 ∧ floats (.dot8 g .n4 rm d a b c) .n4 8) ∧
  (∀ (g : Guard) (t : NTy) (rm : Rnd) (d : Dst) (a : Src) (b : SrcB) (c : Src), t.narrow = true →
    let x (th : Thread) : Machine.Num := ffF32.decode (operand th 32 a).toNat
    let e (th : Thread) : ℕ := (srcB32 th b).toNat % 256
    let mu (th : Thread) : ℕ := if (srcB32 th b).getLsbD (8 + (src32 th c).toNat % 8) then 1 else 0
    let emax : ℤ := match t with
      | .i8 => 6
      | .n8 => 7
      | _ => 2
    let largest : ℚ := match t with
      | .i8 => 127
      | .n8 => 240
      | .i4 => 7
      | _ => 6
    (∃ v : Thread → Machine.Num,
      Computes (.bscl g rm d a b c) g (regs3 32 d 32 a 32 b 32 c) 32 d (fun th => BitVec.ofNat 64 (ffF32.round rm (v th))) ∧
      (∀ th, e th = 0xFF ∨ x th = .nan → v th = .nan) ∧
      (∀ th n, e th ≠ 0xFF → x th = .inf n → v th = .inf n) ∧
      ∀ th, e th ≠ 0xFF → x th ≠ .nan → (v th).isFin = (x th).isFin ∧ (v th).isNeg = (x th).isNeg ∧
        (v th).rat = (x th).rat * (2 : ℚ) ^ ((e th : ℤ) - 127 - mu th)) ∧
    (∃ r : Thread → ℤ,
      Computes (.bexp g t d a) g (regs1 32 d 32 a) 32 d (fun th => BitVec.ofInt 64 (r th)) ∧
      (∀ th n, x th = .zero n → r th = 0) ∧
      (∀ th, (x th).isFin = false → r th = 0xFF) ∧
      ∀ th m k, x th = .fin m k → ∃ l : ℤ, (2 : ℚ) ^ l ≤ |(x th).rat| ∧ |(x th).rat| < (2 : ℚ) ^ (l + 1) ∧
        r th = max 0 (min 254 (l - emax + 127))) ∧
    ∃ m : Thread → Bool,
      Computes (.mexp g t d a b) g (regs2 32 d 32 a 32 b) 32 d (fun th => if m th then 1 else 0) ∧
      ∀ th, m th = true ↔ e th ≠ 0xFF ∧ (x th).isFin = true ∧ |(x th).rat| * (2 : ℚ) ^ (128 - (e th : ℤ)) ≤ largest)

/-- R247, R248: the two elements of largest magnitude with their positions, their inverse, and the n-th set bit. -/
def Obligations.SparsePairAndBitSearchResults : Prop :=
  ∀ (g : Guard) (t : NTy) (d : Dst) (a : Src) (b : SrcB),
    let byte (th : Thread) (i : ℕ) : ℕ := (operand th 32 a).toNat / 256 ^ i % 256
    let mag (th : Thread) (i : ℕ) : ℕ :=
      if t = .n8 then (if byte th i = 0x80 then 0x80 else byte th i % 128) else ((BitVec.ofNat 8 (byte th i)).toInt).natAbs
    let above (th : Thread) (i j : ℕ) : Prop := mag th j < mag th i ∨ (mag th i = mag th j ∧ i < j)
    (∃ p q : Thread → ℕ,
      Computes (.spk24 g t d a) g (regs1 32 d 32 a) 32 d (fun th =>
        BitVec.ofNat 64 (byte th (p th) + 2 ^ 8 * byte th (q th) + 2 ^ 16 * p th + 2 ^ 18 * q th)) ∧
      ∀ th, p th < q th ∧ q th < 4 ∧ ∀ i, i < 4 → i ≠ p th → i ≠ q th → above th (p th) i ∧ above th (q th) i) ∧
    (∃ w : Thread → DWord,
      Computes (.sxp24 g t d a) g (regs1 32 d 32 a) 32 d w ∧
      ∀ th k, k < 4 →
        let x := (operand th 32 a).toNat
        ((w th).extractLsb' (8 * k) 8).toNat =
          if k = x / 2 ^ 18 % 4 then byte th 1 else if k = x / 2 ^ 16 % 4 then byte th 0 else 0) ∧
    ∃ f : Thread → ℕ,
      Computes (.ffs g t d a b) g (regs2 32 d t.w a 32 b) 32 d (fun th => BitVec.ofNat 64 (f th)) ∧
      ∀ th,
        let x := operand th t.w a
        let ones (i : ℕ) : ℕ := ((Finset.range i).filter fun j => x.getLsbD j = true).card
        (∀ i, i < t.w → x.getLsbD i = true → ones i = (srcB32 th b).toNat → f th = i) ∧
        (ones t.w ≤ (srcB32 th b).toNat → f th = 0xFFFFFFFF)

/-- R241 to R246: what each lane of P receives, from the sources that all lanes of P read before any write.
R242, R243: votes over P, and the step by step combination of the lanes of P in ascending order from the identity. -/
def Obligations.CrossLaneResults : Prop :=
  (∀ (g : Guard) (t : NTy) (d : Dst) (a : Src) (b : SrcB),
    let A (w : ℕ) (s : State) (c : Cur) (l : ℕ) : DWord := operand (s.thread c.ti c.gi l) w a
    let B (s : State) (c : Cur) (l : ℕ) : Word := srcB32 (s.thread c.ti c.gi l) b
    let P (s : State) (c : Cur) : List ℕ := activeLanes s c g
    let W (s : State) (c : Cur) : ℕ := (s.group c.ti c.gi).lanes.length
    let rank (s : State) (c : Cur) (l : ℕ) : ℕ := ((P s c).filter fun j => decide (j < l)).length
    let pred (s : State) (c : Cur) (l : ℕ) : Bool := (B s c l).getLsbD 0
    let from' (w : ℕ) (s : State) (c : Cur) (l j : ℕ) : DWord := if j < W s c ∧ j ∈ P s c then A w s c j else A w s c l
    let r := regs2 t.w d t.w a 32 b
    GatherComputes (.lxch g .at t d a b) g r t.w d (fun s c l => from' t.w s c l ((B s c l).toNat % 64)) ∧
    GatherComputes (.lxch g .rot t d a b) g r t.w d (fun s c l => from' t.w s c l ((l + (B s c l).toNat % 64) % W s c)) ∧
    GatherComputes (.lxch g .bfly t d a b) g r t.w d (fun s c l => from' t.w s c l (l ^^^ ((B s c l).toNat % 64))) ∧
    GatherComputes (.lxch g .rank t d a b) g r t.w d (fun s c l => A t.w s c (((P s c)[(B s c l).toNat % 64]?).getD l)) ∧
    (∀ all, GatherComputes (.matchL g all t d a) g (regs1 64 d t.w a) 64 d (fun s c l =>
      let same := (P s c).filter fun j => A t.w s c j == A t.w s c l
      if all = true ∧ same.length ≠ (P s c).length then 0 else maskOf same)) ∧
    GatherComputes (.cmpr g t d a b) g r t.w d (fun s c l =>
      (((P s c).filter fun j => pred s c j).map (A t.w s c)).getD (rank s c l) 0) ∧
    GatherComputes (.expd g t d a b) g r t.w d (fun s c l =>
      if pred s c l then ((P s c).map (A t.w s c)).getD ((P s c).filter fun j => decide (j < l) && pred s c j).length 0 else 0) ∧
    GatherComputes (.cxch g t d a b) g (regs2 32 d 32 a 32 b) 32 d (fun s c l =>
      let j := l ^^^ ((B s c l).toNat % 64)
      let x := A 32 s c (min l j)
      let y := A 32 s c (max l j)
      let desc := l &&& ((B s c l).toNat / 256 % 64) ≠ 0
      if j = l ∨ j ∉ P s c ∨ W s c ≤ j ∨ cxchKey t x = cxchKey t y then A 32 s c l
      else
        let small := if cxchKey t x < cxchKey t y then x else y
        let large := if cxchKey t x < cxchKey t y then y else x
        if (l < j) = ¬desc then small else large)) ∧
  (∀ (g : Guard) (d : Dst) (a : Src),
    let A (s : State) (c : Cur) (l : ℕ) : DWord := operand (s.thread c.ti c.gi l) 32 a
    let P (s : State) (c : Cur) : List ℕ := activeLanes s c g
    let ones (s : State) (c : Cur) : List ℕ := (P s c).filter fun j => (A s c j).getLsbD 0
    let r := regs1 32 d 32 a
    let below (exc : Bool) (l j : ℕ) : Bool := if exc then decide (j < l) else decide (j ≤ l)
    let scan (t : NTy) (op : ScanOp) (one : DWord) (f : DWord → DWord → DWord) : Prop :=
      ∀ exc, GatherComputes (.scan g op exc t d a) g r 32 d (fun s c l =>
        (((P s c).filter (below exc l)).map (A s c)).foldl f one)
    (GatherComputes (.vote g .all d a) g r 32 d (fun s c _ => if (ones s c).length = (P s c).length then 1 else 0) ∧
     GatherComputes (.vote g .any d a) g r 32 d (fun s c _ => if ones s c = [] then 0 else 1) ∧
     GatherComputes (.vote g .uni d a) g r 32 d (fun s c _ => if ∀ i ∈ P s c, ∀ j ∈ P s c, A s c i = A s c j then 1 else 0) ∧
     GatherComputes (.vote g .ballot d a) g (regs1 64 d 32 a) 64 d (fun s c _ => maskOf (ones s c)) ∧
     GatherComputes (.vote g .cnt d a) g r 32 d (fun s c _ => BitVec.ofNat 64 (ones s c).length)) ∧
    scan .s32 .add 0 (fun x y => patW 32 (sintW 32 x + sintW 32 y)) ∧
    scan .b32 .add 0 (fun x y => patW 32 (uintW 32 x + uintW 32 y)) ∧
    scan .s32 .min 0x7FFFFFFF (fun x y => patW 32 (min (sintW 32 x) (sintW 32 y))) ∧
    scan .b32 .min 0xFFFFFFFF (fun x y => patW 32 (min (uintW 32 x) (uintW 32 y))) ∧
    scan .s32 .max 0x80000000 (fun x y => patW 32 (max (sintW 32 x) (sintW 32 y))) ∧
    scan .b32 .max 0 (fun x y => patW 32 (max (uintW 32 x) (uintW 32 y))) ∧
    scan .f32 .add 0 (fpAdd ffF32 .rne) ∧
    scan .f32 .min 0x7F800000 (fpMinMax false ffF32) ∧
    scan .f32 .max 0xFF800000 (fpMinMax true ffF32))

/-- R240: until every thread of the group that has not exited is in its run, a gathered instruction sets its lanes aside, whatever its
guard. -/
def Obligations.GatheredWordsWait : Prop :=
  ∀ (g : Guard) (t : NTy) (rm : LxMode) (vo : VoteOp) (so : ScanOp) (x : Bool) (d : Dst) (a : Src) (b : SrcB) (dr cr : RegIx),
    GatherWaits (.cmpr g t d a b) ∧ GatherWaits (.expd g t d a b) ∧ GatherWaits (.lxch g rm t d a b) ∧
    GatherWaits (.vote g vo d a) ∧ GatherWaits (.scan g so x t d a) ∧ GatherWaits (.matchL g x t d a) ∧
    GatherWaits (.cxch g t d a b) ∧ GatherWaits (.takeG g dr cr)

/-! ### Control flow, barriers, naps and items, spec/14 -/

/-- R318, R319: where each branch leaves its active lanes and its other lanes; a misaligned target traps and no lane branches.
R297, R319: `yield` sets the flag of its active lanes; `exit` ends them, each without claim and without item, once what R305 makes them
wait for is acknowledged. -/
def Obligations.BranchYieldAndExitResults : Prop :=
  (∀ (g : Guard) (d : RegIx) (a : Src) (b : SrcB),
    let ret (c : Cur) : DWord := c.pc + BitVec.ofNat 64 c.len
    let goes (link : Bool) (f : Cur → Thread → DWord) (s : State) (c : Cur) (act : List ℕ) : State :=
      afterMoved (s.modLanes c.ti c.gi act fun _ t =>
        { (if link then t.setD d.toNat (ret c) else t) with pc := f c t, hold := .none }) c act
    let rel (c : Cur) (t : Thread) : DWord := c.pc + 8 * (srcB32 t b).signExtend 64
    let target (_ : Cur) (t : Thread) : DWord := operand t 64 a
    let ok (s : State) (c : Cur) (act : List ℕ) : Prop := ∀ l ∈ act, (operand (s.thread c.ti c.gi l) 64 a).toNat % 8 = 0
    let traps (i : Instr) (regs : List ℕ) : Prop := ∀ s c p l q, Ready s c g regs → activeLanes s c g = p ++ l :: q → ok s c p →
      (operand (s.thread c.ti c.gi l) 64 a).toNat % 8 ≠ 0 →
      exec i s = .next (takeTrap s c.ti c.gi c.lanes 0x04 c.pc (operand (s.thread c.ti c.gi l) 64 a))
    Acts .nop .always [] Always (fun s c _ => advance s c c.lanes) ∧
    Acts (.br g b) g (srcBRegs 32 b) Always (goes false rel) ∧
    Acts (.call g d b) g (regRegs 64 d ++ srcBRegs 32 b) Always (goes true rel) ∧
    Acts (.bri g a) g (srcRegs 64 a) ok (goes false target) ∧
    Acts (.calli g d a) g (regRegs 64 d ++ srcRegs 64 a) ok (goes true target) ∧
    Acts (.ret g a) g (srcRegs 64 a) ok (goes false target) ∧
    traps (.bri g a) (srcRegs 64 a) ∧ traps (.calli g d a) (regRegs 64 d ++ srcRegs 64 a) ∧ traps (.ret g a) (srcRegs 64 a)) ∧
  (∀ (g : Guard),
    Acts (.yield g) g [] Always (fun s c act => advance (s.modLanes c.ti c.gi act fun _ t => { t with yielded := true }) c c.lanes) ∧
    ∀ s c, Ready s c g [] → retireWaits s c (activeLanes s c g) = [] → ∃ t, exec (.exit g) s = .next t ∧
      ∀ l ∈ activeLanes s c g, l < (s.group c.ti c.gi).lanes.length → (∀ r ∈ (s.team c.ti).reqs, r.gi = c.gi → l ∉ r.lanes) →
        (t.thread c.ti c.gi l).exited = true ∧ (t.thread c.ti c.gi l).claim = 0 ∧ (t.thread c.ti c.gi l).item = none)

/-- R312, R320: an arrival fixes the count, completes the phase at the count, and counts towards the next phase beyond it; `bar.arr` goes on,
`bar` and `bar.wt` wait; a count out of range, or another count than the one fixed, traps with 0x09 and no lane arrives.
R313: an arrival waits for the earlier accesses of its thread.
R320: a lane passes its wait exactly when the phase exceeds the one recorded, and then stands at the next word; a lane that a trap bank holds
(R351) keeps its PC until that bank returns. That every issue whose lanes name different counts traps whole (log 63), and that a passed wait is an
acquire at the place `acqT` (log 70), are the model's choices. -/
def Obligations.BarrierResults : Prop :=
  ((∀ (r : Barrier) (n : ℕ), 0 < n → (r.count = 0 ∨ r.count = n) →
    r.arrive (some n) = if r.arrivals + 1 < n then ⟨r.phase, r.arrivals + 1, n⟩ else ⟨r.phase + 1, r.arrivals + 1 - n, 0⟩) ∧
  (∀ r : Barrier, r.arrive none =
    if 0 < r.count ∧ r.count ≤ r.arrivals + 1 then ⟨r.phase + 1, r.arrivals + 1 - r.count, 0⟩ else ⟨r.phase, r.arrivals + 1, r.count⟩) ∧
  ∀ (g : Guard) (n : SrcB) (b : BitVec 4),
    let count (s : State) (c : Cur) (l : ℕ) : ℕ := (srcB32 (s.thread c.ti c.gi l) n).toNat
    let fits (s : State) (c : Cur) (act : List ℕ) : Prop := ∃ k, 1 ≤ k ∧ k ≤ 4095 ∧ (∀ l ∈ act, count s c l = k) ∧
      (act ≠ [] → ((s.team c.ti).bar b.toNat).count = 0 ∨ ((s.team c.ti).bar b.toNat).count = k)
    let free (s : State) (c : Cur) (act : List ℕ) : Prop := ∀ l ∈ act, s.releaseOk c.ti c.gi l .team s.nextId = true
    let arrived (s : State) (c : Cur) (act : List ℕ) : State := act.foldl (fun s' l => s'.laneArrives c.ti c.gi l b.toNat (count s c l))
      (s.publish c.ti c.gi act)
    let both (s : State) (c : Cur) (act : List ℕ) : Prop := fits s c act ∧ free s c act
    let waits (s : State) (c : Cur) (act : List ℕ) : State := afterMoved (s.waitBarrier c act b.toNat) c act
    Acts (.barArr g n b) g (srcBRegs 32 n) both (fun s c act => 
      advance ((arrived s c act).modTeam c.ti fun t => t.passBarriers (s.nextId + 1)) c c.lanes) ∧
    Acts (.bar g n b) g (srcBRegs 32 n) both (fun s c act => waits (arrived s c act) c act) ∧
    Acts (.barWt g b) g [] Always waits ∧
    Acts (.barArr g n b) g (srcBRegs 32 n) (fun s c act => ¬fits s c act)
      (fun s c _ => takeTrap s c.ti c.gi c.lanes 0x09 c.pc (BitVec.ofNat 64 b.toNat)) ∧
    Acts (.bar g n b) g (srcBRegs 32 n) (fun s c act => ¬fits s c act)
      (fun s c _ => takeTrap s c.ti c.gi c.lanes 0x09 c.pc (BitVec.ofNat 64 b.toNat))) ∧
  (∀ x : Thread, x.resume =
    if x.heldK = true ∨ x.heldF = true then { x with hold := .passed } else { x with pc := x.pc + BitVec.ofNat 64 x.waitLen, hold := .none }) ∧
  (∀ (t : Team) (gi l b ph now : ℕ), ((t.group gi).lane l).hold = .barrier b ph →
    ((t.passBarriers now).group gi).lane l =
      if ph < (t.bar b).phase then { ((t.group gi).lane l).resume with acqT := now } else (t.group gi).lane l)

/-- R314, R321: `nap` waits, or takes a word that is pending already, which is cleared once; a limit that has passed gives 0.
R314, R316, R322: the wakes of an `ntfy`, lane by lane, each on its way at once or once the release that it is has been performed; those of a
write to a notify aperture, each sent or, where it finds a kettle full, waiting at the entry of its die; and those of a kettle that ungates, of which none
is lost. That ungating restarts the idle count (log 94) is the model's choice. -/
def Obligations.NapAndWakeResults : Prop :=
  ((∀ (g : Guard) (d : RegIx) (lim : SrcB) (ch : BitVec 4) (s : State) (c : Cur), Ready s c g (d.toNat :: srcBRegs 32 lim) → Here s c →
    ∃ t, exec (.nap g d lim ch) s = .next t ∧
      ∀ l ∈ activeLanes s c g,
        let x := s.thread c.ti c.gi l
        let w := (s.team c.ti).notify.getD ch.toNat 0
        let n := (srcB32 x lim).toNat
        if w = 0 then
          t.thread c.ti c.gi l =
            { x with hold := .nap ch.toNat d.toNat (if n = 0 then none else some (s.cycOf c.ti c.gi + n)), waitLen := c.len } ∧
          (t.team c.ti).notify = (s.team c.ti).notify
        else
          t.thread c.ti c.gi l = ({ x.setV d.toNat w with waitLen := c.len } : Thread).resume ∧
          (t.team c.ti).notify.getD ch.toNat 0 = 0) ∧
  ∀ (ti gi l ch d dl : ℕ) (s : State), (s.thread ti gi l).hold = .nap ch d (some dl) → dl ≤ s.cycOf ti gi → (s.team ti).place = .resident →
    exec (.napTimeout ti gi l) s = .next (s.modThread ti gi l fun x => (x.setV d 0).resume)) ∧
  ((∀ (g : Guard) (a : Src) (v : SrcB) (ch : BitVec 4),
    let wake (s : State) (c : Cur) (l : ℕ) : Option Wake :=
      (s.gridTeam (s.team c.ti).node (src32 (s.thread c.ti c.gi l) a).toNat).map fun ti => ⟨ti, ch.toNat, srcB32 (s.thread c.ti c.gi l) v⟩
    let sent (s : State) (c : Cur) (ls : List ℕ) : State := ls.foldl (fun s' l =>
      let s' := s'.modThread c.ti c.gi l fun t => ({ t with hold := .none, waitLen := c.len } : Thread).resume
      match wake s c l with
      | some w =>
        if s.releaseOk c.ti c.gi l .dev s.nextId then s'.sendWake w
        else { s' with wakes := s'.wakes ++ [⟨c.ti, c.gi, l, s.nextId, w⟩] }
      | none => s') s
    Acts (.ntfy g a v ch) g (srcRegs 32 a ++ srcBRegs 32 v)
      (fun s c act => ∀ p l q w, act = p ++ l :: q → wake s c l = some w → (sent s c p).kettleFull w = false)
      (fun s c act => afterMoved (sent s c act) c act)) ∧
  (∀ (q off : ℕ) (bytes : List Byte) (s : State),
    let wakes := s.apertureWakes q off (bytes.map some)
    exec (.notifyApertureWrite q off bytes) s = .next (wakes.foldl State.sendOrWait s)) ∧
  (∀ (w : Wake) (s : State),
    s.sendOrWait w =
      if s.kettleFull w = true ∨ ((s.die (s.wakeDie w.ti)).entry ≠ [] ∧ (s.team w.ti).place = .resident) then
        s.modDie (s.wakeDie w.ti) fun d => { d with entry := d.entry ++ [w] }
      else s.sendWake w) ∧
  (∀ (die : ℕ) (s : State), 16384 ≤ (s.die die).idle →
    exec (.apertureGate die) s = .next (s.modDie die fun d => { d with gated := true })) ∧
  (∀ (die : ℕ) (s : State), (s.die die).kettle ++ (s.die die).entry ≠ [] → exec (.kettleUngate die) s =
    .next (((s.die die).kettle ++ (s.die die).entry).foldl State.deliverWake
      (s.modDie die fun d => { d with gated := false, idle := 0, kettle := [], entry := [] }))) ∧
  (∀ (w : Wake) (s : State), w.value = 0 → s.sendWake w = s ∧ s.deliverWake w = s) ∧
  ∀ (w : Wake) (s : State), (s.team w.ti).place = .waiting → w.ti < s.teams.length →
    ((s.deliverWake w).team w.ti).notify =
      if w.value = 0 then (s.team w.ti).notify else updAt (s.team w.ti).notify w.ch fun x => x ||| w.value)

/-- R303, R304, R323 to R325: `take` and `take.g` retire, request and wait; `done` retires; `relabel` retires and joins, or traps with
0x10 and leaves every lane as it was.
R308: the second step of a relabel. An unordered item is at the new label at once; otherwise it gets the next arrival number of the flow
at its home team, and its lane goes on unless the exclusion of an atomic flow is not its own yet. -/
def Obligations.ItemRequestResults : Prop :=
  (∀ (g : Guard) (d cr : RegIx) (b : SrcB) (cls : BitVec 2),
    let regs := [d.toNat, d.toNat + 1, cr.toNat]
    let free (s : State) (c : Cur) (act : List ℕ) : Prop := retireWaits s c act = []
    let retired (s : State) (c : Cur) (act : List ℕ) : State := act.foldl (fun s l => s.retire c.ti c.gi l) s
    let asks (rs : List Req) (s : State) (c : Cur) (act : List ℕ) : State :=
      ((retired s c act).modLanes c.ti c.gi act fun _ t => { t with hold := .take, waitLen := c.len }).modTeam c.ti
        fun t => { t with reqs := t.reqs ++ rs }
    let label (s : State) (c : Cur) (l : ℕ) : ℕ := (srcB32 (s.thread c.ti c.gi l) b).toNat
    let bad (s : State) (c : Cur) (l : ℕ) : Prop :=
      cls = 3 ∨ 0xFFFFFF < label s c l ∨ ∀ i, (s.thread c.ti c.gi l).item = some i →
        i.tg ≠ none ∨ (i.label = label s c l ∧ i.cls = cls.toNat)
    Acts (.take g d cr) g regs free (fun s c act =>
      afterMoved ((asks (act.map fun l => ⟨c.gi, [l], d.toNat, cr.toNat, false⟩) s c act).settleGrid (s.team c.ti).node) c act) ∧
    Acts (.takeG g d cr) g regs (fun s c act => free s c act ∧ ∀ l ∈ gatherSet s c, l ∈ c.lanes) (fun s c act =>
      if act = [] then advance s c c.lanes else
      afterMoved ((asks [⟨c.gi, act, d.toNat, cr.toNat, true⟩] s c act).settleGrid (s.team c.ti).node) c act) ∧
    Acts (.done g) g [] free (fun s c act => advance ((retired s c act).settleGrid (s.team c.ti).node) c c.lanes) ∧
    (∀ s c p l q, Ready s c g (srcBRegs 32 b) → activeLanes s c g = p ++ l :: q → (∀ k ∈ p, ¬bad s c k) → bad s c l →
      exec (.relabel g b cls) s = .next (takeTrap s c.ti c.gi c.lanes 0x10 c.pc (BitVec.ofNat 64 (label s c l)))) ∧
    ∀ s c, Ready s c g (srcBRegs 32 b) → (∀ l ∈ activeLanes s c g, ¬bad s c l) → free s c (activeLanes s c g) →
      ∃ s1, exec (.relabel g b cls) s = .next (afterMoved (s1.settleGrid (s.team c.ti).node) c (activeLanes s c g)) ∧
        s1 = (activeLanes s c g).foldl (fun s' l =>
          ((s'.retire c.ti c.gi l).modThread c.ti c.gi l fun t =>
            { t with hold := .joining (label s c l) cls.toNat, waitLen := c.len, item := (s'.thread c.ti c.gi l).item }).tryJoin
              (s.team c.ti).node c.ti c.gi l (label s c l) cls.toNat) s) ∧
  (∀ (s : State) (node ti gi l label cls : ℕ) (i : HeldItem), (s.thread ti gi l).item = some i → l < (s.group ti gi).lanes.length →
    (cls = 0 → ((s.tryJoin node ti gi l label cls).thread ti gi l).item = some ⟨i.payload, label, 0, 0, none⟩) ∧
    (∀ h e, cls ≠ 0 → s.homeTeam node label = some h → (s.team h).place = .resident → (s.team h).flow label cls = some e →
      (s.team h).flowUse < Config.flowEntries → e.unret.length < 2 ^ 31 →
      ((s.tryJoin node ti gi l label cls).thread ti gi l).item = some ⟨i.payload, label, cls, e.next, none⟩ ∧
      ((s.tryJoin node ti gi l label cls).thread ti gi l).hold =
        if cls = 2 ∧ (e.inFlight ≠ none ∨ (e.unret ++ [e.next]).head? ≠ some e.next) then .exclusion label cls
        else if (s.thread ti gi l).heldK = true ∨ (s.thread ti gi l).heldF = true then .passed else .none))

/-- R302, R327, R328: `itemi` writes its status, entering the item of an accepted lane by R302; a lane that must wait holds back the items of the
higher lanes of its issue, then and when they try again; `flowi` writes the snapshot of the flow. -/
def Obligations.ItemEnqueueResults : Prop :=
  ∀ (g : Guard) (d : RegIx) (a : Src) (b : SrcB) (cls : BitVec 2),
    let label (s : State) (c : Cur) (l : ℕ) : ℕ := (srcB32 (s.thread c.ti c.gi l) b).toNat
    let home (s : State) (c : Cur) (l : ℕ) : Option ℕ := s.homeTeam (s.team c.ti).node (label s c l)
    let fin (s' : State) (c : Cur) (l : ℕ) (x : Word) : State := s'.modThread c.ti c.gi l fun t =>
      { ({ t.setV d.toNat x with hold := .none, waitLen := c.len } : Thread).resume with enq := 0 }
    let stay (n : ℕ) (s' : State) (c : Cur) (l : ℕ) : State := s'.modThread c.ti c.gi l fun t =>
      { t with hold := .stall, enq := if t.enq = 0 then n else t.enq }
    let refused (s : State) (c : Cur) (l : ℕ) : Option Word :=
      if cls = 3 then some 1 else if 0xFFFFFF < label s c l then some 2 else if (s.thread c.ti c.gi l).item = none then some 3 else none
    (∀ s c, Ready s c g (d.toNat :: srcRegs 64 a ++ srcBRegs 32 b) → ∀ st : ℕ → Bool × State,
      st 0 = (false, { s with nextId := s.nextId + 1 }) →
      (∀ k l, (activeLanes s c g)[k]? = some l → st (k + 1) =
        match refused s c l with
        | some x => ((st k).1, fin (st k).2 c l x)
        | none =>
          if (st k).1 = true ∨ (s.group c.ti c.gi).enqAhead l c.pc = true ∨ s.releaseOk c.ti c.gi l .dev s.nextId = false then
            (true, stay (s.nextId + 1) (st k).2 c l)
          else match (st k).2.route (s.team c.ti).node (s.team c.ti).num (operand (s.thread c.ti c.gi l) 64 a) (label s c l) cls.toNat with
            | some s' => (false, fin s' c l 0)
            | none => (true, stay (s.nextId + 1) ((st k).2.callBack (s.team c.ti).node (s.team c.ti).num (label s c l) cls.toNat) c l)) →
      exec (.itemi g d a b cls) s =
        .next (afterMoved ((st (activeLanes s c g).length).2.settleGrid (s.team c.ti).node) c (activeLanes s c g))) ∧
    Acts (.flowi g d b cls) g (d.toNat :: srcBRegs 32 b)
      (fun s c act => ∀ l ∈ act, label s c l ≤ 0xFFFFFF → cls ≠ 0 →
        ∀ h, home s c l = some h → (s.team h).place = .resident ∨ (s.team h).place = .gone)
      (fun s c act => advance (s.modLanes c.ti c.gi act fun l t => t.setV d.toNat
        (if label s c l ≤ 0xFFFFFF ∧ cls ≠ 0 then
          match (home s c l).bind fun h => (s.team h).flow (label s c l) cls.toNat with
          | some e => BitVec.ofNat 32 (min e.unret.length 0xFFFF + (if e.inFlight = none then 0 else 2 ^ 30) + 2 ^ 31)
          | none => 0
        else 0)) c c.lanes)

/-- R307, R309, R326: every active lane holds an item, or the word traps with 0x10; the stores of the oldest items are released at issue, those of
unordered and atomic items are stores of a `st.rel`, those of other ordered items are held with the item's flow and arrival number.
A lane that must wait for a place in the steep buffer waits alone: the others issue, and of the lanes that hold their stores no more than there are
places for. -/
def Obligations.OrderedStoreResults : Prop :=
  ∀ (g : Guard) (sc : Scope) (w : MemW) (a : Src) (o : Off) (v : Src) (s : State) (c : Cur),
    Ready s c g (srcRegs 64 a ++ srcRegs w.w v) → Here s c →
    let act := activeLanes s c g
    let core := s.coreOf c.ti c.gi
    let node := (s.team c.ti).node
    let th (l : ℕ) : Thread := s.thread c.ti c.gi l
    let item (l : ℕ) : HeldItem := (th l).item.getD ⟨0, 0, 0, 0, none⟩
    let rel (l : ℕ) : Prop := (item l).cls ≠ 1
    let oldest (l : ℕ) : Prop := (item l).cls = 1 ∧ s.isOldest node (item l).label (item l).seq = true
    let holds (l : ℕ) : Prop := (item l).cls = 1 ∧ s.isOldest node (item l).label (item l).seq = false
    (∀ p l q, act = p ++ l :: q → (∀ k ∈ p, (th k).item ≠ none) → (th l).item = none →
      exec (.stOrd g sc w a o v) s = .next (takeTrap s c.ti c.gi c.lanes 0x10 c.pc (BitVec.ofNat 64 (ea (th l) a o)))) ∧
    ∀ ps s', act ≠ [] → (∀ l ∈ act, (th l).item ≠ none) →
      memChecks s (s.acx c.ti c.gi) .store w.bytes (laneAddrs s c act fun t => ea t a o) = .pass ps s' →
      let rels := ps.filter fun p => (item p.1).cls != 1
      let ords := ps.filter fun p => (item p.1).cls == 1
      let ready : Prop := storeWaits s c w.bytes (logNeed s c rels) rels = [] ∧
        ∀ p ∈ rels, s.releaseOk c.ti c.gi p.1 sc s.nextId = true
      let go := ordIssues s c w.bytes (logNeed s c rels) item ords
      (ready → ((s.group c.ti c.gi).stores < 63 ∨ ords = []) → (rels ≠ [] ∨ go ≠ []) →
        ∃ t st, exec (.stOrd g sc w a o v) s = .next t ∧ t.stores = (s.publish c.ti c.gi (rels.map (·.1))).stores ++ [st] ∧
          st.op = .ord ∧ st.n = w.bytes ∧ st.sc = sc ∧ st.ti = c.ti ∧ st.gi = c.gi ∧ (t.group c.ti c.gi).stores = (s.group c.ti c.gi).stores + 1 ∧
          (∀ ti gi l, (t.thread ti gi l).regs = (s.thread ti gi l).regs) ∧
          (∀ l ∈ act, (rel l ∨ l ∈ go) → (t.thread c.ti c.gi l).pc = c.pc + BitVec.ofNat 64 c.len ∧
            ∃ q ∈ st.parts, q.lane = l ∧ q.va = ea (th l) a o ∧ q.data = operand (th l) w.w v ∧
              q.label = (item l).label ∧ q.cls = (item l).cls ∧ q.seq = (item l).seq ∧
              (holds l → q.st = .held) ∧ (oldest l → q.st = .released ∨ q.inLog = true) ∧ (rel l → q.st = .wait ∨ q.inLog = true)) ∧
          ∀ l ∈ act, ¬(rel l ∨ l ∈ go) → t.thread c.ti c.gi l = { th l with hold := .stall } ∧ ∀ q ∈ st.parts, q.lane ≠ l) ∧
      -- who issues of the lanes whose store is no release: at most one for each free place of the steep buffer holds its store
      (act.Nodup → ∀ hs, List.Sublist hs go → (∀ l ∈ hs, holds l) → s.steepUsed core + hs.length ≤ max Config.steepEntries (s.steepUsed core)) ∧
      (s.steepUsed core + ords.length ≤ Config.steepEntries → s.logUsed core + logNeed s c rels + ords.length ≤ Config.logEntries →
        ∀ p ∈ ords, s.acqOpen c.ti c.gi p.1 = false →
          (holds p.1 → s.heldOver c.ti c.gi p.1 p.2.1 p.2.2.at? w.bytes (some ((item p.1).label, 1)) = false) →
          (oldest p.1 → s.heldOver c.ti c.gi p.1 p.2.1 p.2.2.at? w.bytes none = false ∧ s.ordBehind c.ti c.gi p.1 = false) → p.1 ∈ go)

/-! ### Memory instructions, spec/05 and spec/06 -/

/-- R122, R126, R129, R132, R134: what each load-class instruction leaves at issue.
R122, R126, R129, R130, R132: what each store-class instruction leaves at issue. A release has its thread's earlier accesses behind it. -/
def Obligations.LoadsAndStoresIssue : Prop :=
  (∀ (g : Guard) (sc : Scope) (w : MemW) (d : RegIx) (a : Src) (o : Off) (op : AtomOp) (sg norm w64 : Bool) (b : SrcB) (r : RegIx) (k : BitVec 3),
    let sx := decide (w = .s8 ∨ w = .s16)
    let at' (t : Thread) : ℕ := (operand t 64 a + offset 64 o).toNat
    let base (t : Thread) : ℕ := (operand t 64 a).toNat
    let wd := if w64 then 64 else 32
    let zero (_ : Thread) : DWord := 0
    let cas (t : Thread) : DWord := match b with
      | .src (.v n) => if w64 then t.d (n.toNat + 2) else (t.v (n.toNat + 1)).setWidth 64
      | _ => 0
    LoadIssues (.ld g w d a o) g (regRegs w.w d ++ srcRegs 64 a) (.plain sx) w.bytes w.bytes .load (regRegs w.w d) at' zero zero ∧
    LoadIssues (.ldAcq g sc w d a o) g (regRegs w.w d ++ srcRegs 64 a) (.acq sx sc) w.bytes w.bytes .load (regRegs w.w d) at' zero zero ∧
    LoadIssues (.atom g op sg sc w64 d a b) g (regRegs wd d ++ srcRegs 64 a ++ atomRegs op w64 b) (.rmw op sg sc) (wd / 8) (wd / 8) .atom
      (regRegs wd d) base (fun t => operandB t wd b) cas ∧
    LoadIssues (.atomBnd g sc w64 d a b) g (regRegs wd d ++ srcRegs 64 a ++ srcBRegs wd b) (.bnd sc) (wd / 8) (wd / 8) .atom
      (regRegs wd d) base (fun t => operandB t wd b) zero ∧
    LoadIssues (.atomTopk g norm k sc d a r) g (regRegs 32 d ++ srcRegs 64 a ++ [r.toNat, r.toNat + 1]) (.topk norm (k.toNat + 1) sc) 64 64 .atom
      (regRegs 32 d) base (fun t => (t.v r.toNat).setWidth 64) (fun t => ((t.v (r.toNat + 1)).setWidth 16).setWidth 64)) ∧
  (∀ (g : Guard) (sc : Scope) (w : MemW) (a : Src) (o : Off) (v : Src) (op : AtomOp) (sg w64 : Bool) (b : SrcB),
    let at' (t : Thread) : ℕ := (operand t 64 a + offset 64 o).toNat
    let base (t : Thread) : ℕ := (operand t 64 a).toNat
    let wd := if w64 then 64 else 32
    StoreIssues (.st g w a o v) g (srcRegs 64 a ++ srcRegs w.w v) .store .grp w.bytes at' (fun t => operand t w.w v) Always ∧
    StoreIssues (.stRel g sc w a o v) g (srcRegs 64 a ++ srcRegs w.w v) .rel sc w.bytes at' (fun t => operand t w.w v)
      (fun s c act => ∀ l ∈ act, s.releaseOk c.ti c.gi l sc s.nextId = true) ∧
    StoreIssues (.red g op sg sc w64 a b) g (srcRegs 64 a ++ srcBRegs wd b) (.red op sg) .grp (wd / 8) base (fun t => operandB t wd b) Always)

/-- R123: alignment is checked for every lane before anything else of the access, then the bits above the address space. -/
def Obligations.AddressChecksTrap : Prop :=
  ∀ (g : Guard) (sc : Scope) (w : MemW) (d : RegIx) (a : Src) (o : Off) (v : Src) (op : AtomOp) (sg norm w64 : Bool) (b : SrcB) (r : RegIx)
    (k : BitVec 3),
    let at' (t : Thread) : ℕ := (operand t 64 a + offset 64 o).toNat
    let base (t : Thread) : ℕ := (operand t 64 a).toNat
    let so' (t : Thread) : ℕ := (loWord (operand t 32 a) + loWord (offset 32 o)).toNat
    let wd := if w64 then 64 else 32
    let both (i : Instr) (regs : List ℕ) (n : ℕ) (f : Thread → ℕ) : Prop := Misaligns i g regs n f ∧ Overreaches i g regs n f
    both (.ld g w d a o) (regRegs w.w d ++ srcRegs 64 a) w.bytes at' ∧
    both (.ldAcq g sc w d a o) (regRegs w.w d ++ srcRegs 64 a) w.bytes at' ∧
    both (.st g w a o v) (srcRegs 64 a ++ srcRegs w.w v) w.bytes at' ∧
    both (.stRel g sc w a o v) (srcRegs 64 a ++ srcRegs w.w v) w.bytes at' ∧
    both (.atom g op sg sc w64 d a b) (regRegs wd d ++ srcRegs 64 a ++ atomRegs op w64 b) (wd / 8) base ∧
    both (.atomBnd g sc w64 d a b) (regRegs wd d ++ srcRegs 64 a ++ srcBRegs wd b) (wd / 8) base ∧
    both (.atomTopk g norm k sc d a r) (regRegs 32 d ++ srcRegs 64 a ++ [r.toNat, r.toNat + 1]) 64 base ∧
    both (.red g op sg sc w64 a b) (srcRegs 64 a ++ srcBRegs wd b) (wd / 8) base ∧
    Misaligns (.lds g w d a o) g (regRegs w.w d ++ srcRegs 32 a) w.bytes so' ∧
    Misaligns (.sts g w a o v) g (srcRegs 32 a ++ srcRegs w.w v) w.bytes so'

/-- R120, R121, R123, R129: scratchpad accesses are performed at issue, little-endian, within the team's carve-out; of lanes that store to
one byte the highest stands, and no other byte of it changes. -/
def Obligations.ScratchpadResults : Prop :=
  ∀ (g : Guard) (w : MemW) (d : RegIx) (a : Src) (o : Off) (v : Src),
    let off (s : State) (c : Cur) (l : ℕ) : ℕ :=
      (loWord (operand (s.thread c.ti c.gi l) 32 a) + loWord (offset 32 o)).toNat
    let n := w.bytes
    let fits (s : State) (c : Cur) (act : List ℕ) : Prop := ∀ l ∈ act,
      off s c l % n = 0 ∧ off s c l + n ≤ (s.team c.ti).scr * 2 ^ 18 ∧ s.acqOpen c.ti c.gi l = false
    let byte (s : State) (c : Cur) (i : ℕ) : Byte := Sparse.get 0 ((s.team c.ti).scratch (s.group c.ti c.gi).pcore) i
    let value (s : State) (c : Cur) (l : ℕ) : ℕ := bytesNat ((List.range n).map fun i => byte s c (off s c l + i))
    let loaded (x : ℕ) : DWord := match w with
      | .s8 => ((BitVec.ofNat 8 x).signExtend 32).setWidth 64
      | .s16 => ((BitVec.ofNat 16 x).signExtend 32).setWidth 64
      | _ => BitVec.ofNat 64 x
    let beyond (s : State) (c : Cur) (regs : List ℕ) (i : Instr) : Prop := ∀ p l q, Ready s c g regs → activeLanes s c g = p ++ l :: q →
      (∀ k ∈ p ++ l :: q, off s c k % n = 0) → (∀ k ∈ p, off s c k + n ≤ (s.team c.ti).scr * 2 ^ 18) →
      (s.team c.ti).scr * 2 ^ 18 < off s c l + n →
      exec i s = .next (takeTrap s c.ti c.gi c.lanes 0x06 c.pc (BitVec.ofNat 64 (off s c l)))
    Acts (.lds g w d a o) g (regRegs w.w d ++ srcRegs 32 a) (fun s c act =>
        fits s c act ∧ (s.group c.ti c.gi).loads < 63 ∧ s.parkUsed (s.coreOf c.ti c.gi) < Config.parkEntries)
      (fun s c act => advance (s.modLanes c.ti c.gi act fun l t => t.setVW w.w d.toNat (loaded (value s c l))) c c.lanes) ∧
    (∀ s c, Ready s c g (srcRegs 32 a ++ srcRegs w.w v) → Here s c → fits s c (activeLanes s c g) →
      ∃ t, exec (.sts g w a o v) s = .next t ∧ t.mem = s.mem ∧ t.cache = s.cache ∧
        (∀ ti gi l, (t.thread ti gi l).regs = (s.thread ti gi l).regs) ∧
        (∀ ti, ti ≠ c.ti → t.team ti = s.team ti) ∧
        ∀ i, ((∀ l ∈ activeLanes s c g, i < off s c l ∨ off s c l + n ≤ i) → byte t c i = byte s c i) ∧
          ∀ p l q, activeLanes s c g = p ++ l :: q → off s c l ≤ i → i < off s c l + n →
            (∀ k ∈ q, i < off s c k ∨ off s c k + n ≤ i) →
            byte t c i = BitVec.ofNat 8 ((operand (s.thread c.ti c.gi l) w.w v).toNat / 256 ^ (i - off s c l))) ∧
    ∀ s c, beyond s c (regRegs w.w d ++ srcRegs 32 a) (.lds g w d a o) ∧ beyond s c (srcRegs 32 a ++ srcRegs w.w v) (.sts g w a o v)

/-- R126, R129, R132, R134: a reply performs the parts it answers, those of a load's lanes that nothing holds back, and until then nothing happens. A lane of a
plain load receives the bytes visible to its core, or may read under unpublished ones of other threads (log 121); an atomic leaves the new value at its location and gives the lane the old one. A load whose
parts are all done is gone, and its counter is one down.
R98, R118, R126: an acknowledged store has written exactly its bytes, the part of the highest lane standing, and a reduction its result; until
every other holder of the line has acknowledged its invalidation, only invalidations are sent. No other byte changes.
That a reply or acknowledgement whose condition does not hold is a next state equal to the old one is the model's choice (log 65). -/
def Obligations.LoadsAndStoresPerform : Prop :=
  -- when a reply performs, and when it waits
  (∀ (s : State) (ld : Load) (pa : ℕ), s.loads.find? (fun d => d.id == ld.id) = some ld →
    let all := replyParts ld pa
    let ps := if ld.op.isAtomic || isDevice pa then (if all.all (partReady s ld) then all else []) else all.filter (partReady s ld)
    let free : Prop := s.placed ld.ti = true ∧ s.checkHolds (dieOfCore ld.core) (lineOf pa) true ld.op.isAtomic = false ∧ ps ≠ [] ∧
      (s.reachesAt ld.id (dieOfCore ld.core) pa = true ∨ (ld.op.isAtomic = false ∧ ∀ p ∈ ps, s.heldNear ld.core p.key p.pa = true))
    let alone : Prop := (∀ h ∈ s.holders (lineOf pa), h = s.ownCopy ld.core (lineOf pa)) ∧ ∀ i ∈ s.invals, i.1 ≠ lineOf pa
    (free → (ld.op.isAtomic = true → alone) → exec (.loadReply ld.id pa) s = .next (performLoad s ld ps)) ∧
    (free → ld.op.isAtomic = true → ¬alone → ∃ t, exec (.loadReply ld.id pa) s = .next t ∧
      (∀ h ∈ s.holders (lineOf pa), h ≠ s.ownCopy ld.core (lineOf pa) → (lineOf pa, h) ∈ t.invals) ∧ t = { s with invals := t.invals, invalAt := t.invalAt }) ∧
    (¬free → exec (.loadReply ld.id pa) s = .next s)) ∧
  -- what a load or an atomic of one lane does
  (∀ (s : State) (ld : Load) (pa : ℕ) (p : LoadPart),
    s.loads.find? (fun d => d.id == ld.id) = some ld → ld.parts = [p] → p.st = .wait → p.pa = pa → s.tidy →
    s.placed ld.ti = true → s.checkHolds (dieOfCore ld.core) (lineOf pa) true ld.op.isAtomic = false →
    (s.reachesAt ld.id (dieOfCore ld.core) pa = true ∨ (ld.op.isAtomic = false ∧ s.heldNear ld.core p.key pa = true)) →
    partReady s ld p = true → s.frameLive p.gen p.pa = true → isDevice pa = false → p.lane < (s.group ld.ti ld.gi).lanes.length →
    let under := s.settle (lineOf pa) p.key
    let old := under.cohBytes p.key pa ld.n
    (ld.op.isAtomic = true → (∀ h ∈ s.holders (lineOf pa), h = s.ownCopy ld.core (lineOf pa)) ∧ ∀ i ∈ s.invals, i.1 ≠ lineOf pa) →
    0 < ld.n → ld.n ∣ 128 → pa % ld.n = 0 →
    ∃ t, exec (.loadReply ld.id pa) s = .next t ∧
      (∀ d ∈ t.loads, d.id ≠ ld.id) ∧ (t.group ld.ti ld.gi).loads = (s.group ld.ti ld.gi).loads - 1 ∧
      t.thread ld.ti ld.gi p.lane =
        { (s.thread ld.ti ld.gi p.lane).lateW ld.id (loadWd ld) (match ld.op with
            | .plain sx | .acq sx _ => loadedValue sx ld.n ((addrs pa ld.n).map
                (if Config.readUnder ld.id && s.mayUnder ld.core ld.ti ld.gi ld.n p.lane p.key pa then under.cohByte p.key
                 else under.visByte ld.core p.key))
            | op => (rmwStep op ld.n old p.x p.y).2) with
          acqT := if ld.op.isAcq then s.nextId + 1 else (s.thread ld.ti ld.gi p.lane).acqT } ∧
      (∀ ti gi l, (ti, gi, l) ≠ (ld.ti, ld.gi, p.lane) → t.thread ti gi l = s.thread ti gi l) ∧
      (ld.op.isAtomic = true → (s.homeDie pa).isSome = true → (rmwStep ld.op ld.n old p.x p.y).1.length = ld.n →
        t.cohBytes p.key pa ld.n = (rmwStep ld.op ld.n old p.x p.y).1) ∧
      ∀ a, (lineOf a = lineOf pa → (ld.op.isAtomic = true → a < pa ∨ pa + ld.n ≤ a) → t.cohByte p.key a = under.cohByte p.key a) ∧
        ∀ k, lineOf a ≠ lineOf pa → (∀ e ∈ s.cache, e.line = lineOf a → e.key = k) → t.cohByte k a = s.cohByte k a) ∧
  -- when a store is performed, and when it waits
  (∀ (s : State) (st : Store) (pa : ℕ), s.stores.find? (fun o => o.id == st.id) = some st →
    let ps := turnParts s st (ackParts st pa)
    let late := ps.filter (·.st == .released)
    let lines := if st.op.isCache then ps.flatMap fun p => linesOf p.pa p.data.toNat else [lineOf pa]
    let free : Prop := s.placed st.ti = true ∧ ps ≠ []
    let open' : Prop := ∀ l ∈ lines, s.reachesAt st.id (dieOfCore st.core) (128 * l) = true ∧
      s.checkHolds (dieOfCore st.core) l st.op.isRed true = false
    let quiet : Prop := st.op.isCache = true ∨
      ((∀ h ∈ s.holders (lineOf pa), h = s.ownCopy st.core (lineOf pa)) ∧ ∀ i ∈ s.invals, i.1 ≠ lineOf pa)
    (free → late ≠ [] → exec (.storeAck st.id pa) s = .next (s.enterL1 st late)) ∧
    (free → late = [] → open' → quiet → exec (.storeAck st.id pa) s = .next (performStore s st ps)) ∧
    (¬free ∨ (late = [] ∧ ¬open') → exec (.storeAck st.id pa) s = .next s)) ∧
  -- what a store does
  (∀ (s : State) (st : Store) (pa line key : ℕ),
    s.stores.find? (fun o => o.id == st.id) = some st → st.op.inL1 = true → 0 < st.n → st.parts ≠ [] → lineOf pa = line → s.tidy →
    (∀ p ∈ st.parts, p.st = .wait ∧ lineOf p.pa = line ∧ lineOf (p.pa + st.n - 1) = line ∧ p.key = key ∧ s.frameLive p.gen p.pa = true) →
    isDevice (128 * line) = false → (s.homeDie (128 * line)).isSome = true →
    s.placed st.ti = true → s.checkHolds (dieOfCore st.core) line false true = false → (∀ p ∈ st.parts, storeTurn s st p = true) →
    let hs := s.holders line
    ((∀ h ∈ hs, h = s.ownCopy st.core line) → (∀ i ∈ s.invals, i.1 ≠ line) →
      ∃ t, exec (.storeAck st.id pa) s = .next t ∧ (∀ o ∈ t.stores, o.id ≠ st.id) ∧
        (t.group st.ti st.gi).stores = (s.group st.ti st.gi).stores - 1 ∧
        (∀ ti gi l, t.thread ti gi l = s.thread ti gi l) ∧
        ∀ a, (∀ k, lineOf a ≠ line → (∀ e ∈ s.cache, e.line = lineOf a → e.key = k) → t.cohByte k a = s.cohByte k a) ∧
          (lineOf a = line → (∀ p ∈ st.parts, a < p.pa ∨ p.pa + st.n ≤ a) → t.cohByte key a = (s.settle line key).cohByte key a) ∧
          ∀ l p q, st.parts = l ++ p :: q → p.pa ≤ a → a < p.pa + st.n → (∀ r ∈ q, a < r.pa ∨ r.pa + st.n ≤ a) →
            t.cohByte key a = BitVec.ofNat 8 (p.data.toNat / 256 ^ (a - p.pa))) ∧
    ((∃ h ∈ hs, h ≠ s.ownCopy st.core line) →
      ∃ t, exec (.storeAck st.id pa) s = .next t ∧ (∀ h ∈ hs, h ≠ s.ownCopy st.core line → (line, h) ∈ t.invals) ∧
        t = { s with invals := t.invals, invalAt := t.invalAt })) ∧
  -- what a reduction of one lane does
  ∀ (s : State) (st : Store) (p : StPart) (op : AtomOp) (sg : Bool),
    s.stores.find? (fun o => o.id == st.id) = some st → st.op = .red op sg → st.parts = [p] → p.st = .wait → s.tidy →
    0 < st.n → st.n ∣ 128 → p.pa % st.n = 0 → isDevice p.pa = false → (s.homeDie p.pa).isSome = true → s.frameLive p.gen p.pa = true →
    s.placed st.ti = true → s.checkHolds (dieOfCore st.core) (lineOf p.pa) true true = false → storeTurn s st p = true →
    (∀ h ∈ s.holders (lineOf p.pa), h = s.ownCopy st.core (lineOf p.pa)) → (∀ i ∈ s.invals, i.1 ≠ lineOf p.pa) →
    let under := s.settle (lineOf p.pa) p.key
    let old : DWord := BitVec.ofNat 64 (bytesNat (under.cohBytes p.key p.pa st.n))
    ∃ t, exec (.storeAck st.id p.pa) s = .next t ∧ (∀ o ∈ t.stores, o.id ≠ st.id) ∧
      (t.group st.ti st.gi).stores = (s.group st.ti st.gi).stores - 1 ∧ (∀ ti gi l, t.thread ti gi l = s.thread ti gi l) ∧
      t.cohBytes p.key p.pa st.n = natBytes st.n (applyAtom op sg (8 * st.n) old p.data 0).toNat ∧
      ∀ a, (lineOf a = lineOf p.pa → (a < p.pa ∨ p.pa + st.n ≤ a) → t.cohByte p.key a = under.cohByte p.key a) ∧
        ∀ k, lineOf a ≠ lineOf p.pa → (∀ e ∈ s.cache, e.line = lineOf a → e.key = k) → t.cohByte k a = s.cohByte k a

/-- R135: a prefetch brings each active lane's line to the L1 of its core, or to the L2 or RDC, where a copy near or a port serves it and no machine
check holds it, and changes nothing else: no team, access, fault, chain, node or register of a die. R136: a fence lets its lanes go on once the accesses of the group are acknowledged, and until then sets them
aside.
R114: each distinct range of a cache-control operation counts as one store until it completes, with one part for each page it meets and each lane that names it. -/
def Obligations.CacheControlPrefetchAndFenceResults : Prop :=
  (∀ (g : Guard) (a : Src) (o : Off) (sc : Scope),
    let at' (t : Thread) : ℕ := (operand t 64 a + offset 64 o).toNat
    let fetched (l1 : Bool) (s : State) (c : Cur) (act : List ℕ) : State :=
      act.foldl (fun s' l => prefetchLane l1 c s' (at' (s.thread c.ti c.gi l))) s
    Acts (.pfL1 g a o) g (srcRegs 64 a) Always (fun s c act => advance (fetched true s c act) c c.lanes) ∧
    Acts (.pfL2 g a o) g (srcRegs 64 a) Always (fun s c act => advance (fetched false s c act) c c.lanes) ∧
    (∀ l1 s c act, let u := fetched l1 s c act
      u.teams = s.teams ∧ u.loads = s.loads ∧ u.stores = s.stores ∧ u.faults = s.faults ∧ u.chains = s.chains ∧ u.nodes = s.nodes ∧
      u.dies = s.dies ∧ u.module = s.module) ∧
    (∀ l1 s c va pa key gen s', s.translate (s.acx c.ti c.gi) .load va = (.ok pa key gen, s') → isDevice pa = false → s'.frameLive gen pa = true →
      let core := s.coreOf c.ti c.gi
      let free : Prop := (s'.reaches (dieOfCore core) pa = true ∨ s'.heldNear core key pa = true) ∧
        s'.checkHolds (dieOfCore core) (lineOf pa) true false = false
      let here : Lvl := if l1 then .l1 core else if s.homeDie pa = some (dieOfCore core) then .l2 else .rdc (dieOfCore core)
      (free → ((prefetchLane l1 c s va).cline here (lineOf pa)).isSome = true) ∧ (¬free → prefetchLane l1 c s va = s')) ∧
    (∀ l1 s c va, (∀ pa key gen s', s.translate (s.acx c.ti c.gi) .load va ≠ (.ok pa key gen, s')) →
      prefetchLane l1 c s va = (s.translate (s.acx c.ti c.gi) .load va).2) ∧
    Acts (.fence sc) .always [] (fun s c _ => s.fenceOk c.ti c.gi sc = true) (fun s c _ => advance (s.fencePassed c.ti c.gi) c c.lanes) ∧
    ∀ s c, Ready s c .always [] → Here s c → s.fenceOk c.ti c.gi sc = false → ∃ t, exec (.fence sc) s = .next t ∧
      ∀ l ∈ c.lanes, (s.thread c.ti c.gi l).exited = false →
        (t.thread c.ti c.gi l).hold = .stall ∧ (t.thread c.ti c.gi l).pc = (s.thread c.ti c.gi l).pc) ∧
  (∀ (g : Guard) (sys : Bool) (a : Src) (b : SrcB),
    let issues (i : Instr) (op : StOp) (acc : Acc) (aligned : Bool) : Prop :=
      ∀ s c ps s', Ready s c g (srcRegs 64 a ++ srcBRegs 32 b) → Here s c →
        let act := activeLanes s c g
        let range (l : ℕ) : ℕ × ℕ :=
          let t := s.thread c.ti c.gi l
          ((operand t 64 a).toNat, (srcB32 t b).toNat)
        let ranges := (laneRanges (act.map fun l => (l, range l))).filter fun r => r.2.2 != 0
        (∀ s1, rangesLater s (s.acx c.ti c.gi) acc ranges = (false, s1) → rangeCheck s1 (s1.acx c.ti c.gi) acc aligned ranges = (none, ps, s')) →
        (rangesLater s (s.acx c.ti c.gi) acc ranges).1 = false →
        (∀ l ∈ act, s.acqOpen c.ti c.gi l = false) → (s.group c.ti c.gi).stores + ranges.length ≤ 63 →
        ∃ t new, exec i s = .next t ∧ t.stores = s.stores ++ new ∧ (∀ st ∈ new, st.op = op ∧ st.ti = c.ti ∧ st.gi = c.gi) ∧
          (new.map fun st => st.parts.map fun q => (q.lane, q.va, q.pa, q.data, q.key, q.gen, q.st)) =
            (ps.filter fun p => !p.2.isEmpty).map (fun p => p.2.flatMap fun q => (act.filter fun l => range l == range p.1).map fun l =>
              (l, q.1, q.2.1, BitVec.ofNat 64 q.2.2.1, q.2.2.2.1, q.2.2.2.2, StSt.wait)) ∧
          (act ≠ [] → (t.group c.ti c.gi).stores = (s.group c.ti c.gi).stores + new.length) ∧
          t.mem = s'.mem ∧ t.cache = s'.cache ∧ ∀ ti gi l, (t.thread ti gi l).regs = (s.thread ti gi l).regs
    issues (.cwb g sys a b) (.cwb sys 0) .cread false ∧ issues (.cinv g a b) (.cinv 0) .cwrite true ∧
    issues (.cdrop g a b) (.cdrop 0) .cwrite true)

/-! ### The copy engine, spec/07 -/

/-- R139, R141, R164 to R167: `cp.go` enqueues one chain for each active lane with its token register pending, or traps with 0x0D; `cp.stop`,
`cp.stat` and `waitc` act on them. -/
def Obligations.CopyInstructionResults : Prop :=
  ∀ (g : Guard) (d a : RegIx) (src : Src),
    let off (s : State) (c : Cur) (l : ℕ) : ℕ := (operand (s.thread c.ti c.gi l) 64 src).toNat
    let good (s : State) (c : Cur) (l : ℕ) : Prop := off s c l % 32 = 0 ∧ off s c l < (s.team c.ti).scr * 2 ^ 18
    let room (s : State) (c : Cur) (n : ℕ) : Prop :=
      s.chainCount (s.coreOf c.ti c.gi) + n ≤ 8 ∧ (s.group c.ti c.gi).copies + n ≤ 63
    let regs := d.toNat :: srcRegs 64 src
    (∀ s c, Ready s c g regs → Here s c → (activeLanes s c g).Nodup →
      (∀ l ∈ activeLanes s c g, good s c l ∧ s.coreAcked c.ti c.gi l .clu = true ∧ s.storesAcked c.ti c.gi l .clu s.nextId = true ∧ s.atomicsDone c.ti c.gi l = true) → room s c (activeLanes s c g).length →
      ∃ t new, exec (.cpGo g d src) s = .next t ∧ t.chains = s.chains ++ new ∧
        (new.map fun k => (k.lane, k.recOff)) = (activeLanes s c g).map (fun l => (l, off s c l)) ∧
        (∀ k ∈ new, k.core = s.coreOf c.ti c.gi ∧ k.ti = c.ti ∧ k.gi = c.gi ∧ k.tok = d.toNat ∧ k.st = .queued ∧ k.sb = 0 ∧ k.db = 0 ∧
          k.count = 0 ∧ k.status = 0 ∧ k.act = List.replicate 4 false ∧ ((t.thread c.ti c.gi k.lane).pend.any fun p => p == ⟨d.toNat, k.id, 0⟩)) ∧
        (activeLanes s c g ≠ [] → (t.group c.ti c.gi).copies = (s.group c.ti c.gi).copies + (activeLanes s c g).length) ∧
        (∀ ti gi l, (t.thread ti gi l).regs = (s.thread ti gi l).regs) ∧ t.mem = s.mem) ∧
    (∀ s c p l q, Ready s c g regs → activeLanes s c g = p ++ l :: q → (∀ k ∈ p, good s c k) → ¬good s c l →
      exec (.cpGo g d src) s = .next (takeTrap s c.ti c.gi c.lanes 0x0D c.pc (BitVec.ofNat 64 (off s c l)))) ∧
    (∀ s c, Ready s c g regs → (∀ l ∈ activeLanes s c g, good s c l) → 8 < (activeLanes s c g).length →
      exec (.cpGo g d src) s = .next (takeTrap s c.ti c.gi c.lanes 0x0D c.pc 0)) ∧
    (∃ stop : Cur → State → ℕ → State,
      Does (.cpStop g a) .all g [a.toNat] [] Always (fun s c act => advance (act.foldl (stop c) s) c c.lanes) ∧
      ∀ c s l,
        (s.laneChain c l a.toNat = none → stop c s l = s) ∧
        ∀ k, s.laneChain c l a.toNat = some k →
          (k.st = .queued → stop c s l = s.endChain k 0x01 0) ∧
          (k.st = .walking → stop c s l = s.modChain k.id fun k => { k with st := .stopping, status := 0x01 }) ∧
          (∀ f, k.st = .parked f → s.chain k.id = some k → k.waits = [] → stop c s l = s.endChain k 0x01 k.count) ∧
          (k.st = .stopping → stop c s l = s)) ∧
    Does (.cpStat g d a) .all g [d.toNat, a.toNat] [d.toNat] Always (fun s c act => advance (s.modLanes c.ti c.gi act fun l t =>
      t.setV d.toNat (match s.laneChain c l a.toNat with
        | none => 0
        | some k =>
          let at' := k.recOff / 32 % 2 ^ 15 * 2 ^ 9
          BitVec.ofNat 32 (match k.st with
            | .queued => 1 * 2 ^ 29
            | .walking => 2 * 2 ^ 29 + at'
            | .parked _ => 3 * 2 ^ 29 + at'
            | .stopping => 4 * 2 ^ 29 + at'))) c c.lanes) ∧
    ∀ l st cp t : BitVec 6,
      let holds (s : State) (c : Cur) : Prop :=
        let r := s.group c.ti c.gi
        r.loads ≤ l.toNat ∧ r.stores ≤ st.toNat ∧ r.copies ≤ cp.toNat ∧ r.tiles ≤ t.toNat
      Acts (.waitc l st cp t) .always [] (fun s c _ => holds s c) (fun s c _ => advance s c c.lanes) ∧
      Acts (.waitc l st cp t) .always [] (fun s c _ => ¬holds s c) (fun s c _ => stallGroup s c)

/-- R139 to R141: the token that ends a chain: DONE, the status, the saturated count; its register is pending no longer, the counter of the
group is one down, the chain is gone.
R142: a record whose fields are ill-formed stops its chain with 0x0D before any effect, whatever its kind. -/
def Obligations.ChainsEndAndStop : Prop :=
  (∀ (s : State) (k : Chain) (st n : ℕ), st < 128 → k.lane < (s.group k.ti k.gi).lanes.length →
    (∀ p ∈ (s.thread k.ti k.gi k.lane).pend, p.op = k.id → p = ⟨k.tok, k.id, 0⟩) → ⟨k.tok, k.id, 0⟩ ∈ (s.thread k.ti k.gi k.lane).pend →
    s.acgQ = [] →
    let t := s.endChain k st n
    (t.thread k.ti k.gi k.lane).v k.tok = BitVec.ofNat 32 (2 ^ 31 + st * 2 ^ 24 + min n 0xFFFFFF) ∧
    (∀ p ∈ (t.thread k.ti k.gi k.lane).pend, p.op ≠ k.id) ∧
    (t.group k.ti k.gi).copies = (s.group k.ti k.gi).copies - 1 ∧
    (∀ r, r ≠ k.tok → (t.thread k.ti k.gi k.lane).v r = (s.thread k.ti k.gi k.lane).v r) ∧
    (∀ j ∈ t.chains, j.id ≠ k.id) ∧ t.mem = s.mem) ∧
  (∀ (s : State) (core : ℕ) (k : Chain) (mv : MoveRec) (mc : McastRec) (lo : LoopRec) (co : CondRec) (cv : ConvRec) (sa : SampleRec)
    (cs : CsendRec) (sg : SigRec),
    s.activeChain core = some k → s.chain k.id = some k → k.st = .walking → k.now = none → k.endSeen = false → k.waits = [] →
    ∀ i ∈ [Instr.move core mv, .mcast core mc, .loop core lo, .cond core co, .conv core cv, .sample core sa, .csend core cs, .sig core sg],
      i.wf = false → exec i s = .next (s.endChain k 0x0D k.count))

/-- R137, R138, R142, R144, R150, R151, R154, R156: a chain at the head of its queue starts; the records that move data are reached, their
alignment and scratchpad ranges checked before anything is written; END ends the chain.
R146, R148, R149: MCAST keeps its destinations; LOOP counts, advances the biases and jumps back, and restores the biases at its end; COND
skips records when its test holds. That the addresses of a CONV are checked after SB and DB have been added (log 45), and that the 0x0A of a SAMPLE comes
after 0x04 and 0x06 (log 75), are the model's choices. -/
def Obligations.RecordsReached : Prop :=
  (∀ (s : State) (core : ℕ) (k : Chain), s.activeChain core = some k → s.chain k.id = some k →
    (k.st = .queued → exec (.chainStart core) s = .next (s.modChain k.id fun k => { k with st := .walking })) ∧
    (k.st = .walking → k.now = none → k.endSeen = false → k.waits = [] →
      let carve : ℕ := (s.team k.ti).scr * 2 ^ 18
      let kept (i : Instr) : Prop := exec i s = .next (s.modChain k.id fun k => { k with now := some i })
      let stops (i : Instr) (st : ℕ) : Prop := exec i s = .next (s.endChain k st k.count)
      exec (.recEnd core) s = .next ((s.modChain k.id fun k => { k with endSeen := true }).endChain { k with endSeen := true } k.status k.count) ∧
      (∀ r : MoveRec, (Instr.move core r).wf = true →
        let row (base bias : DWord) (s1 s2 : BitVec 16) (sh : BitVec 4) : Prop := ∀ k1 k2 : ℕ, k1 < r.cnt1.toNat → k2 < r.cnt2.toNat →
          let a : ℤ := bias.toInt + base.toNat + (s1.toInt * (k1 : ℤ) + s2.toInt * (k2 : ℤ)) * (2 : ℤ) ^ sh.toNat
          0 ≤ a ∧ a + r.len0.toNat ≤ carve
        let fits : Prop := (r.ssp = true → row r.src k.sb r.sstep1 r.sstep2 r.ssh) ∧ (r.dsp = true → row r.dst k.db r.dstep1 r.dstep2 r.dsh)
        (fits → kept (.move core r)) ∧ (¬fits → stops (.move core r) 0x06)) ∧
      (∀ r : ConvRec, (Instr.conv core r).wf = true →
        let sa := (k.sb + r.src).toNat
        let da := (k.db + r.dst).toNat
        let aligned : Prop := sa % elemAlign r.sfmt = 0 ∧ da % elemAlign r.dfmt = 0
        let fits : Prop := (r.ssp = true → sa + elemBytes r.sfmt r.cnt.toNat ≤ carve) ∧ (r.dsp = true → da + elemBytes r.dfmt r.cnt.toNat ≤ carve)
        (¬aligned → stops (.conv core r) 0x04) ∧ (aligned → ¬fits → stops (.conv core r) 0x06) ∧ (aligned → fits → kept (.conv core r))) ∧
      (∀ r : CsendRec, (Instr.csend core r).wf = true →
        let aligned : Prop := r.src.toNat % 1024 = 0 ∧ r.roff.toNat % 1024 = 0
        let fits : Prop := r.ssp = true → r.src.toNat + 1024 * r.nblk.toNat ≤ carve
        (¬aligned → stops (.csend core r) 0x04) ∧ (aligned → ¬fits → stops (.csend core r) 0x06) ∧ (aligned → fits → kept (.csend core r))) ∧
      (∀ r : SampleRec, (Instr.sample core r).wf = true →
        let aligned : Prop := (r.out = true → r.dst.toNat % 4 = 0) ∧ r.crec.toNat % 128 = 0
        let fits : Prop := (r.out = true → r.dsp = true → r.dst.toNat + 4 * r.ncol.toNat * r.nr.toNat ≤ carve) ∧
          (r.csp = true → r.crec.toNat + 128 * r.nr.toNat ≤ carve)
        let held : Prop := r.row.toNat + r.nr.toNat ≤ (s.team k.ti).rows.length
        (¬aligned → stops (.sample core r) 0x04) ∧ (aligned → ¬fits → stops (.sample core r) 0x06) ∧
        (aligned → fits → ¬held → stops (.sample core r) 0x0A) ∧
        (aligned → fits → held → k.p0 = 0 → ∃ t e, exec (.sample core r) s = .next t ∧ t.streams = s.streams ++ [e] ∧
          e.op = .sample k.id ∧ e.rows = ((s.team k.ti).rows.drop r.row.toNat).take r.nr.toNat ∧
          (t.activeChain core).bind (·.now) = some (.sample core r))) ∧
      ∀ r : McastRec, (Instr.mcast core r).wf = true →
        let cores := ((List.range 4).filter fun i => r.mask.getLsbD i).map fun i => core / 4 * 4 + i
        (∃ x ∈ cores, s.mcastTeam k x = none) → stops (.mcast core r) 0x0D)) ∧
  (∀ (s : State) (core : ℕ) (k : Chain), s.activeChain core = some k → s.chain k.id = some k → k.st = .walking → k.now = none → k.endSeen = false →
    k.waits = [] →
    let carve : ℕ := (s.team k.ti).scr * 2 ^ 18
    let becomes (i : Instr) (f : Chain → Chain) : Prop := exec i s = .next (s.modChain k.id f)
    let at' (k : Chain) (off : ℕ) : Chain := { k with recOff := off, now := none, p0 := 0, p1 := 0, p2 := 0, dests := [] }
    (∀ (r : McastRec) (dests : List (ℕ × ℕ)), (Instr.mcast core r).wf = true →
      (((List.range 4).filter fun i => r.mask.getLsbD i).map fun i => s.mcastTeam k (core / 4 * 4 + i)) = dests.map some →
      r.len.toNat ≤ carve → (r.ssp = true → r.src.toNat + r.len.toNat ≤ carve) →
      (∀ d ∈ dests, r.doff.toNat + r.len.toNat ≤ (s.team d.1).scr * 2 ^ 18) →
      becomes (.mcast core r) fun k => { k with now := some (.mcast core r), dests := dests }) ∧
    (∀ r : LoopRec, (Instr.loop core r).wf = true → k.act.length = 4 → k.lc.length = 4 →
      let ix := r.ix.toNat
      let n := (if k.act.getD ix false then k.lc.getD ix 0 else r.cnt.toNat) - 1
      let back := 32 * r.back.toNat
      (n ≠ 0 → back ≤ k.recOff → ∃ k', exec (.loop core r) s = .next (s.modChain k.id fun _ => k') ∧
        k'.recOff = k.recOff - back ∧ k'.sb = k.sb + r.sadv ∧ k'.db = k.db + r.dadv ∧ k'.lc.getD ix 0 = n ∧ k'.act.getD ix false = true) ∧
      (n ≠ 0 → k.recOff < back → exec (.loop core r) s = .next (s.endChain k 0x0D k.count)) ∧
      (n = 0 → ∃ k', exec (.loop core r) s = .next (s.modChain k.id fun _ => k') ∧ k'.recOff = k.recOff + 32 ∧
        k'.sb = k.sb - r.sadv * BitVec.ofNat 64 (r.cnt.toNat - 1) ∧ k'.db = k.db - r.dadv * BitVec.ofNat 64 (r.cnt.toNat - 1) ∧
        k'.act.getD ix false = false)) ∧
    ∀ r : CondRec, (Instr.cond core r).wf = true →
      let w : Word := BitVec.ofNat 32 (bytesNat ((List.range 4).map fun i =>
        Sparse.get 0 ((s.team k.ti).scratch (s.group k.ti k.gi).pcore) (r.woff.toNat + i)))
      let x := w &&& r.mask
      let holds : Bool := match r.test with
        | .eq => x == r.value
        | .ne => x != r.value
        | .below => x.ult r.value
        | .aboveEq => !x.ult r.value
      (r.woff.toNat % 4 ≠ 0 → exec (.cond core r) s = .next (s.endChain k 0x04 k.count)) ∧
      (r.woff.toNat % 4 = 0 → carve < r.woff.toNat + 4 → exec (.cond core r) s = .next (s.endChain k 0x06 k.count)) ∧
      (r.woff.toNat % 4 = 0 → r.woff.toNat + 4 ≤ carve →
        becomes (.cond core r) fun k => at' k (k.recOff + 32 * (if holds then r.skip.toNat + 1 else 1))))

/-- R139, R145 to R147, R150, R151, R154, R157, R158: what one burst of each data record copies, counts and leaves for the next, once the lines it
reads can be read and those it writes are owned (R98). A MOVE within one space copies its bytes one after another, between scratchpad and memory
the bytes of its row; a CONV converts its elements one after another; a SAMPLE reads one row, writes its values where OUT is set, and its completion
record, which it continues where CONT is set. That a burst is 4,096 bytes, 1,024 elements or one row, less what would cut an aligned unit of the scratchpad, is the model's choice (log 64). -/
def Obligations.CopyBurstsPerform : Prop :=
  ∀ (s : State) (core : ℕ) (k : Chain), s.activeChain core = some k → (∀ j ∈ s.chains, j.id = k.id → j = k) → k.st = .walking →
    let goes (t : State) : Prop := exec (.copyBurst core) s = .next t
    let pc := (s.group k.ti k.gi).pcore
    let after (t : State) (n : ℕ) (m : ℕ) (last : Bool) : State :=
      let t := t.modChain k.id fun k => { k with count := k.count + m }
      if last then t.modChain k.id fun k => { k with recOff := k.recOff + 32, now := none, p0 := 0, p1 := 0, p2 := 0, dests := [] }
      else t.modChain k.id fun k => { k with p0 := k.p0 + n }
    -- what a burst takes of a row or run: in the scratchpad it leaves no aligned unit of 8 bytes half written
    let moveN (r : MoveRec) : ℕ :=
      if r.dsp = true ∧ 4096 < r.len0.toNat - k.p0 then 4096 - (((moveDst r k k.p1 k.p2 + k.p0) % 2 ^ 64).toNat + 4096) % 8
      else min 4096 (r.len0.toNat - k.p0)
    let convN (r : ConvRec) : ℕ :=
      if r.dsp = true ∧ 1024 < r.cnt.toNat - k.p0 then
        (elemBytes r.dfmt 1024 - ((k.db + r.dst).toNat + elemBytes r.dfmt k.p0 + elemBytes r.dfmt 1024) % 8) * 8 / ewidth r.dfmt
      else min 1024 (r.cnt.toNat - k.p0)
    -- a MOVE of any spaces
    (∀ c r sps s1 dps s2 s3, k.now = some (.move c r) →
      let n := moveN r
      s.mapRange k r.ssp false ((moveSrc r k k.p1 k.p2 + k.p0) % 2 ^ 64).toNat n = (.ok sps, s1) →
      s1.mapRange k r.dsp true ((moveDst r k k.p1 k.p2 + k.p0) % 2 ^ 64).toNat n = (.ok dps, s2) →
      s2.reachRanges k (pieceLines r.ssp sps) (pieceLines r.dsp dps) = (true, s3) → (∀ p ∈ sps ++ dps, p.dead = false) →
      let copied : ℕ × State := if r.ssp = r.dsp then s3.copyBytes k r.ssp n sps dps
        else (s3.readPieces k r.ssp sps).2.writePieces k r.dsp dps (s3.readPieces k r.ssp sps).1
      let counted : State := copied.2.modChain k.id fun k => { k with count := k.count + copied.1 }
      goes (if k.p0 + n < r.len0.toNat then counted.modChain k.id fun j => { j with p0 := k.p0 + n, p1 := k.p1, p2 := k.p2 }
        else if k.p1 + 1 < r.cnt1.toNat then counted.modChain k.id fun j => { j with p0 := 0, p1 := k.p1 + 1, p2 := k.p2 }
        else if k.p2 + 1 < r.cnt2.toNat then counted.modChain k.id fun j => { j with p0 := 0, p1 := 0, p2 := k.p2 + 1 }
        else after copied.2 0 copied.1 true)) ∧
    -- what it copies where each range lies in one page: from memory to memory, from scratchpad to memory, from memory to scratchpad
    (∀ (u : State) (n a b akey bkey agen bgen : ℕ),
      let v : State := (dedupNat ((addrs a n).map lineOf)).foldl (fun s l => s.settle l akey) u
      let put (m : Sparse Byte) (bs : List Byte) : Sparse Byte := ((addrs b n).zip bs).foldl (fun m c => Sparse.set 0 m c.1 c.2) m
      u.copyBytes k false n [⟨a, n, akey, agen, false⟩] [⟨b, n, bkey, bgen, false⟩] = (n, (List.range n).foldl (fun u i =>
        let w := u.settle (lineOf (a + i)) akey
        w.homeWrite bkey [(b + i, w.cohByte akey (a + i))]) u) ∧
      (let bs := (List.range n).map fun i => Sparse.get 0 ((u.team k.ti).scratch ((u.group k.ti k.gi).pcore)) (a + i)
       (u.readPieces k true [⟨a, n, 0, 0, false⟩]).2.writePieces k false [⟨b, n, bkey, bgen, false⟩] (u.readPieces k true [⟨a, n, 0, 0, false⟩]).1 =
         (n, u.homeWriteBytes bkey b bs)) ∧
      let w := (u.readPieces k false [⟨a, n, akey, agen, false⟩]).2.writePieces k true [⟨b, n, 0, 0, false⟩]
        (u.readPieces k false [⟨a, n, akey, agen, false⟩]).1
      w.1 = n ∧ w.2.mem = v.mem ∧ w.2.cache = v.cache ∧ (k.ti < v.teams.length →
        (w.2.team k.ti).scratch ((v.group k.ti k.gi).pcore) =
          put ((v.team k.ti).scratch ((v.group k.ti k.gi).pcore)) ((List.range n).map fun i => v.cohByte akey (a + i)))) ∧
    -- a MOVE within one scratchpad
    (∀ c r, k.now = some (.move c r) → r.ssp = true → r.dsp = true → k.p0 < r.len0.toNat → k.ti < s.teams.length →
      let n := moveN r
      let sa := (moveSrc r k k.p1 k.p2 + k.p0).toNat
      let da := (moveDst r k k.p1 k.p2 + k.p0).toNat
      0 ≤ moveSrc r k k.p1 k.p2 → moveSrc r k k.p1 k.p2 < 2 ^ 32 → 0 ≤ moveDst r k k.p1 k.p2 → moveDst r k k.p1 k.p2 < 2 ^ 32 →
      ∃ t, goes t ∧ (t.team k.ti).scratch pc = (List.range n).foldl (fun m b =>
          Sparse.set 0 m (da + b) (Sparse.get 0 m (sa + b))) ((s.team k.ti).scratch pc) ∧
        (∀ k', t.activeChain core = some k' → k'.count = k.count + n ∧
          (k.p0 + n < r.len0.toNat → k'.p0 = k.p0 + n ∧ k'.p1 = k.p1 ∧ k'.p2 = k.p2 ∧ k'.recOff = k.recOff) ∧
          (k.p0 + n = r.len0.toNat → k.p1 + 1 = r.cnt1.toNat → k.p2 + 1 = r.cnt2.toNat → k'.recOff = k.recOff + 32 ∧ k'.now = none))) ∧
    (∀ c r ps s1 s2 data s3, k.now = some (.mcast c r) → s.mapRange k r.ssp false r.src.toNat r.len.toNat = (.ok ps, s1) →
      s1.reachRanges k (pieceLines r.ssp ps) [] = (true, s2) →
      s2.readPieces k r.ssp ps = (data, s3) → (∀ b ∈ data, b ≠ none) → (∀ p ∈ ps, p.dead = false) →
      goes (after (k.dests.foldl (fun s d => s.mcastTo r data d) s3) 0 (k.dests.length * data.length) true)) ∧
    (∀ (t : State) (r : McastRec) (data : List Byte) (d : ℕ × ℕ), (t.team d.1).place = .resident → d.1 < t.teams.length →
      let u := t.mcastTo r (data.map some) d
      (∀ i, Sparse.get 0 ((u.team d.1).scratch d.2) (r.doff.toNat + i) =
        if i < data.length then data.getD i 0 else Sparse.get 0 ((t.team d.1).scratch d.2) (r.doff.toNat + i)) ∧
      (u.team d.1).bars = if r.nosig then (t.team d.1).bars else updAt (t.team d.1).bars r.bar.toNat fun b => b.arrive none) ∧
    (∀ c r sps s1 dps s2 s3 m x s4, k.now = some (.conv c r) →
      let n := convN r
      s.mapRange k r.ssp false ((k.sb + r.src).toNat + elemBytes r.sfmt k.p0) (elemBytes r.sfmt n) = (.ok sps, s1) →
      s1.mapRange k r.dsp true ((k.db + r.dst).toNat + elemBytes r.dfmt k.p0) (elemBytes r.dfmt n) = (.ok dps, s2) →
      s2.reachRanges k (pieceLines r.ssp sps) (pieceLines r.dsp dps) = (true, s3) →
      (List.range n).foldl (convStep k r sps dps) (0, 0, s3) = (m, x, s4) → (∀ p ∈ sps ++ dps, p.dead = false) →
      goes (after s4 n m (decide (r.cnt.toNat ≤ k.p0 + n)))) ∧
    (∀ c r, k.now = some (.conv c r) → r.ssp = true → r.dsp = true → 8 ≤ ewidth r.sfmt → 8 ≤ ewidth r.dfmt → k.ti < s.teams.length →
      let n := convN r
      let a := elemAlign r.sfmt
      let b := elemAlign r.dfmt
      let sa := (k.sb + r.src).toNat + a * k.p0
      let da := (k.db + r.dst).toNat + b * k.p0
      ∃ t, goes t ∧ (t.team k.ti).scratch pc = (List.range n).foldl (fun m j =>
        let x := bytesNat ((List.range a).map fun i => Sparse.get 0 m (sa + a * j + i))
        (List.range b).foldl (fun m i =>
          Sparse.set 0 m (da + b * j + i) (BitVec.ofNat 8 (encodeElem r.dfmt r.rnd (decodeElem r.sfmt x) / 256 ^ i))) m)
        ((s.team k.ti).scratch pc)) ∧
    (∀ (r : ConvRec) (j x : ℕ) (bs : List Byte) (b : Byte) (i : ℕ),
      convElem r j bs = encodeElem r.dfmt r.rnd (decodeElem r.sfmt
        (if ewidth r.sfmt = 4 then (if j % 2 = 0 then bytesNat bs % 16 else bytesNat bs / 16 % 16) else bytesNat bs)) ∧
      (8 ≤ ewidth r.dfmt → convPut r j x [b] = natBytes (ewidth r.dfmt / 8) x) ∧
      (ewidth r.dfmt = 4 → i < 8 → ((convPut r j x [b]).map fun y => y.getLsbD i) =
        [if i / 4 = j % 2 then (BitVec.ofNat 4 x).getLsbD (i % 4) else b.getLsbD i])) ∧
    (∀ c r ps s1 s2 bs s3, k.now = some (.csend c r) → s.mapRange k r.ssp false (r.src.toNat + 1024 * k.p0) 1024 = (.ok ps, s1) →
      s1.reachRanges k (pieceLines r.ssp ps) [] = (true, s2) → s2.shfReaches (dieOfCore (s2.chainCore k)) r.dev.toNat = true →
      s2.readPieces k r.ssp ps = (bs.map some, s3) →
      let bn := (r.bn0.toNat + k.p0) % 2 ^ 32
      let off := (r.roff.toNat + 1024 * k.p0) % 2 ^ 32
      ∃ t, goes t ∧ t.sent = s3.sent ++ [.shfBlock r.dev.toNat r.shid.toNat bn off true bs] ∧
        ∀ k', t.activeChain core = some k' →
          k'.waits = k.waits ++ [⟨r.dev.toNat, r.shid.toNat, bn, r.ssp, (r.src.toNat + 1024 * k.p0) % 2 ^ 64, off, none⟩] ∧ k'.count = k.count ∧
          if k.p0 + 1 < r.nblk.toNat then k'.p0 = k.p0 + 1 else k'.recOff = k.recOff + 32) ∧
    ∀ c r e id ops s0 cps s1 s2, k.now = some (.sample c r) → s.sampleHead k = some (e, id) →
      (if r.out then s.mapRange k r.dsp true (r.dst.toNat + 4 * r.ncol.toNat * k.p0) (4 * r.ncol.toNat) else (.ok [], s)) = (.ok ops, s0) →
      s0.mapRange k r.csp true (r.crec.toNat + 128 * k.p0) 128 = (.ok cps, s1) → (∀ p ∈ ops ++ cps, p.dead = false) →
      s1.reachRanges k (if r.cont then pieceLines r.csp cps else []) (pieceLines r.dsp ops ++ pieceLines r.csp cps) = (true, s2) →
      let u := s2.rowRead e
      let ends (t : State) (m : ℕ) : Prop := goes ((after t 1 m (decide (r.nr.toNat ≤ k.p0 + 1))).tryRows (cluOfCore k.core))
      (u.idVoided k.ti id = true → ends u 0) ∧
      ∀ start u1 ys rec m1 u2 m2 u3, u.idVoided k.ti id = false →
        (if r.cont then u.readPieces k r.csp cps else (crecInit.map some, u)) = (start.map some, u1) →
        sampleRow (s2.accRow id) r start = (ys, rec) →
        u1.writePieces k r.dsp ops ((ys.flatMap fun y => natBytes 4 y.toNat).map some) = (m1, u2) →
        u2.writePieces k r.csp cps (rec.map some) = (m2, u3) → ends u3 (m1 + m2)

/-- R138, R139, R140, R154, R155, 04 R89: SIG writes its word, at its reach or, where it had to wait, as a burst of the record that was read;
an answer to a block that the chain waits for counts it as delivered or keeps the worse status, and the last one ends a chain that waits for
it. That an answer which names no such block is a next state equal to the old one is the model's choice (log 65). -/
def Obligations.SignalsAndAnswers : Prop :=
  ∀ (s : State) (core : ℕ) (k : Chain), s.activeChain core = some k → s.chain k.id = some k →
    let next (t : State) : State := t.modChain k.id fun k => { k with recOff := k.recOff + 32, now := none, p0 := 0, p1 := 0, p2 := 0, dests := [] }
    let writes (i : Instr) (s0 : State) (r : SigRec) : Prop :=
      (r.ops ≠ .notify → r.dsp = true → k.ti < s0.teams.length →
        ∃ t, exec i s = .next t ∧ (∀ j, j < 4 →
          Sparse.get 0 ((t.team k.ti).scratch (s0.group k.ti k.gi).pcore) (r.addr.toNat + j) = BitVec.ofNat 8 (r.value.toNat / 256 ^ j)) ∧
          ∀ a, (a < r.addr.toNat ∨ r.addr.toNat + 4 ≤ a) → Sparse.get 0 ((t.team k.ti).scratch (s0.group k.ti k.gi).pcore) a =
            Sparse.get 0 ((s0.team k.ti).scratch (s0.group k.ti k.gi).pcore) a) ∧
      (∀ pa key gen s1 s2, r.ops ≠ .notify → r.dsp = false →
        s0.translate (s0.chainAcx k) (if r.ops = .add then .atom else .store) r.addr.toNat = (.ok pa key gen, s1) →
        isDevice pa = false → s1.frameLive gen pa = true →
        s1.reachRanges k (if r.ops = .add then [lineOf pa] else []) [lineOf pa] = (true, s2) →
        let u := (s2.markDirty (s2.chainAcx k) r.addr.toNat).settle (lineOf pa) key
        let old := bytesNat (u.cohBytes key pa 4)
        exec i s = .next (next (u.homeWriteBytes key pa
          (natBytes 4 (if r.ops = .add then (old + r.value.toNat) % 2 ^ 32 else r.value.toNat))))) ∧
      (∀ ti, r.ops = .notify → s0.gridTeam (s0.team k.ti).node (r.addr.toNat % 2 ^ 16 / 0x40) = some ti →
        let w : Wake := ⟨ti, r.addr.toNat / 4 % 16, r.value⟩
        exec i s = .next ((next s0).sendOrWait w))
    (k.st = .walking → k.now = none → k.endSeen = false → ∀ r : SigRec, (Instr.sig core r).wf = true → r.addr.toNat % 4 = 0 →
      (r.dsp = true → r.addr.toNat + 4 ≤ (s.team k.ti).scr * 2 ^ 18) →
      writes (.sig core r) (s.modChain k.id fun k => { k with now := some (.sig core r) }) r) ∧
    (k.st = .walking → ∀ c r, k.now = some (.sig c r) → writes (.copyBurst core) s r) ∧
    ∀ (dev shid bn : ℕ) (st : BitVec 7),
      let named := k.waits.find? fun w => w.dev == dev && w.shid == shid && w.bn == bn
      (named = none → exec (.csendAnswer k.id ⟨dev, shid, bn⟩ st) s = .next s) ∧
      ∀ w, named = some w →
        (k.st = .walking → k.endSeen = false → exec (.csendAnswer k.id ⟨dev, shid, bn⟩ st) s = .next (s.modChain k.id fun k =>
          { k with waits := k.waits.erase w, count := if st = 0 then k.count + 1024 else k.count,
                   status := if k.st = .stopping then k.status else worse k.status st.toNat })) ∧
        (k.waits = [w] → k.endSeen = true → ∃ t, exec (.csendAnswer k.id ⟨dev, shid, bn⟩ st) s = .next t ∧ ∀ j ∈ t.chains, j.id ≠ k.id)

/-! ### The matrix engine and registers, spec/08 and spec/12 -/

/-- R249: on a firmware core an instruction of the matrix range is an illegal instruction.
R251, R271: `cvd` declares a free register with the operand of its lowest active lane, or traps with 0x09. -/
def Obligations.ConvergenceSetsDeclared : Prop :=
  (∀ (g : Guard) (cv : BitVec 4) (x : Bool) (f : EFmt) (r : RegIx) (a c' : Src) (b : SrcB) (s : State) (c : Cur),
    s.cur = some c → s.coreOf c.ti c.gi % 96 = 0 →
    ∀ i ∈ [Instr.cvd g cv b, .cvdMask g cv b, .mma g cv x r b c', .acg g r b, .acp g b, .acz g a b, .acn g a b, .ach g r a, .acr g f r a b,
      .acrImg g a b, .acw g f a r b, .acwImg g a b],
      exec i s = .next (takeTrap s c.ti c.gi c.lanes 0x01 c.pc c.w0)) ∧
  (∀ (g : Guard) (cv : BitVec 4) (b : SrcB) (s : State) (c : Cur) (l : ℕ) (ls : List ℕ),
    isFwCore (s.coreOf c.ti c.gi) = false → activeLanes s c g = l :: ls →
    let free : Prop := ((s.team c.ti).cvs.getD cv.toNat .free).declared = false
    let n := (srcB32 (s.thread c.ti c.gi l) b).toNat
    let m := operandB (s.thread c.ti c.gi l) 64 b
    let live := ((s.team c.ti).groups.map fun g => g.live.length).sum
    let width := (s.group c.ti c.gi).lanes.length
    let sets (v : CvReg) : State := advance (s.modTeam c.ti fun t => { t with cvs := t.cvs.set cv.toNat v }) c c.lanes
    let traps : State := takeTrap s c.ti c.gi c.lanes 0x09 c.pc (BitVec.ofNat 64 cv.toNat)
    (Ready s c g (srcBRegs 32 b) →
      let good : Prop := free ∧ 1 ≤ n ∧ n ≤ 256 ∧ n ≤ live
      (good → exec (.cvd g cv b) s = .next (sets ⟨true, false, 0, n, 0, 0, 0, []⟩)) ∧ (¬good → exec (.cvd g cv b) s = .next traps)) ∧
    (Ready s c g (srcBRegs 64 b) →
      let good : Prop := free ∧ m ≠ 0 ∧ m.toNat < 2 ^ width
      (good → exec (.cvdMask g cv b) s = .next (sets ⟨true, true, c.gi, 0, m, 0, 0, []⟩)) ∧
      (¬good → exec (.cvdMask g cv b) s = .next traps)))

/-- R252, R255, R273: an `mma` whose checks pass records one signature for each active lane, with the registers it reads now, counts its
group once, and waits; a set that is complete is posted.
R252, R254, R257 to R259, R274: posting a complete set. The pass stands last in the stream of each row held, ranked by place in the pair,
group and lane, with B as it stands; the register is free. -/
def Obligations.MmaSignsAndPosts : Prop :=
  (∀ (g : Guard) (cv : BitVec 4) (reuse : Bool) (a : RegIx) (b : SrcB) (fw : Src) (s : State) (c : Cur) (l : ℕ) (ls : List ℕ),
    isFwCore (s.coreOf c.ti c.gi) = false → Ready s c g [] → Here s c → activeLanes s c g = l :: ls →
    let act := activeLanes s c g
    let th (l : ℕ) : Thread := s.thread c.ti c.gi l
    let len (l : ℕ) : ℕ × ℕ := mmaRun (th l) b fw
    let v := (s.team c.ti).cvs.getD cv.toNat .free
    let signed := v.sigs.any fun x => x.gi == c.gi
    runChecks s c act (srcBRegs 32 b ++ srcRegs 32 fw) (fun l => addrs a.toNat ((len l).1 + (len l).2)) = none →
    (∀ cause tval, mmaChecks s c act cv.toNat (fun l => srcB32 (th l) b) (fun l => src32 (th l) fw) = some (cause, tval) →
      exec (.mma g cv reuse a b fw) s = .next (takeTrap s c.ti c.gi c.lanes cause c.pc tval)) ∧
    (mmaChecks s c act cv.toNat (fun l => srcB32 (th l) b) (fun l => src32 (th l) fw) = none → (signed = true ∨ (s.group c.ti c.gi).tiles < 63) →
      ∃ u : State, exec (.mma g cv reuse a b fw) s = .next (afterMoved ((u.tryPost c.ti cv.toNat).abandonAll c.ti) c act) ∧
        u.streams = s.streams ∧ u.mem = s.mem ∧
        (cv.toNat < (s.team c.ti).cvs.length → (u.team c.ti).cvs = (s.team c.ti).cvs.set cv.toNat
          { v with sigs := v.sigs ++ act.map fun l => ⟨c.gi, l, (s.group c.ti c.gi).pcore, readRun (th l) a.toNat (len l).1,
                     readRun (th l) (a.toNat + (len l).1) (len l).2⟩,
                   desc := if v.sigs = [] then srcB32 (th l) b else v.desc, fw := if v.sigs = [] then src32 (th l) fw else v.fw }) ∧
        (u.group c.ti c.gi).tiles = (s.group c.ti c.gi).tiles + (if signed then 0 else 1) ∧
        ∀ k, (u.thread c.ti c.gi k).regs = (th k).regs ∧
          (k ∈ act → (u.thread c.ti c.gi k).hold = .sign cv.toNat ∧ (u.thread c.ti c.gi k).pc = (th k).pc))) ∧
  (∀ (s : State) (ti cv : ℕ) (f : FwInfo),
    let t := s.team ti
    let v := t.cvs.getD cv .free
    let clu := t.cores.getD 0 0 / 4
    let m := t.scratch (match rankSigs v.sigs with
      | x :: _ => x.pcore
      | [] => 0)
    v.declared = true → v.sigs.length = v.m → 0 < v.m → t.place = .resident → t.saving = none → s.tableUsed clu < 32 → fwInfo v.fw = some f → cv < t.cvs.length →
    ∃ (p : Pass) (e : Stream), (s.tryPost ti cv).streams = s.streams ++ [e] ∧ e.op = .pass p ∧ e.clu = clu ∧ p.granted = false ∧ p.posted = (s.die (clu / 24)).cyc ∧
      p.desc = v.desc ∧ p.fw = v.fw ∧ List.Perm p.rank v.sigs ∧
      (List.Pairwise (fun x y => (x.pcore * 16 + x.gi) * 64 + x.lane ≤ (y.pcore * 16 + y.gi) * 64 + y.lane) p.rank) ∧
      p.dest = (List.range (v.m * if descN v.desc ≤ 128 then 1 else 2)).map (fun i => t.rows[descRow v.desc + i]?) ∧
      e.rows = p.dest.filterMap id ∧
      p.b = (List.range (bBytes f (descK v.desc f.w) (descN v.desc))).map (fun i => Sparse.get 0 m (descB v.desc + i)) ∧
      ((s.tryPost ti cv).team ti).cvs.getD cv .free = .free)

/-- R257: the arbiter grants the eligible pass of highest priority, an aged one counting as priority 3, then the one posted earlier, then that of
the lower core of its rank-0 signer; a granted pass is applied to every row held, leaves its streams, and its tile counts fall. R262: passes are
fused with it only where they name the same rows, N, format word and register of one team, and it is not invariant.
R260: with one bit to spare and a pass that fits, no renormalisation happens: the exponent stays, and each element gains the sum of its
products, each rounded to the row's unit; none leaves the 48-bit range. H is the least count of redundant sign bits. -/
def Obligations.PassesGrantedAndApplied : Prop :=
  ((∀ (s : State) (clu : ℕ), (∀ e ∈ s.streamsOf clu, ∀ p, e.op = .pass p → p.granted = false) →
    (∃ e ∈ heads [] (s.streamsOf clu), ∃ p, e.op = .pass p) →
    let now := s.cluCyc clu
    (∀ e ∈ s.streams, ∀ p, e.op = .pass p → p.posted ≤ now ∧ p.prio ≤ 3 ∧ p.core < 2 ^ 16 ∧
      ∀ e' ∈ s.streams, ∀ p', e'.op = .pass p' → e'.id = e.id → e' = e) →
    ∃ (t : State) (x : Stream) (q : Pass), exec (.passGrant clu) s = .next t ∧ x ∈ heads [] (s.streamsOf clu) ∧ x.op = .pass q ∧
      (∀ y ∈ heads [] (s.streamsOf clu), ∀ r, y.op = .pass r → r.rankNow now < q.rankNow now ∨
        (r.rankNow now = q.rankNow now ∧ (q.posted < r.posted ∨ (q.posted = r.posted ∧ q.core ≤ r.core)))) ∧
      (∀ y ∈ t.streams, y.id = x.id → ∀ r, y.op = .pass r → r.granted = true) ∧
      (∀ y ∈ t.streams, y.id ≠ x.id → y.clu = clu → ∀ r, y.op = .pass r → r.granted = true →
        q.inv = false ∧ y.rows = x.rows ∧ r.dest = q.dest ∧ descN r.desc = descN q.desc ∧ r.fw = q.fw ∧ r.cv = q.cv ∧ r.ti = q.ti)) ∧
  (∀ (s : State) (clu pass : ℕ), ∃ t : State, exec (.passAging clu pass) s = .next t ∧ t.streams.length = s.streams.length ∧
    ∀ (k : ℕ) (e : Stream), s.streams[k]? = some e → t.streams[k]? = some (match e.op with
      | .pass p => if e.clu = clu ∧ e.id = pass ∧ p.posted + 4096 ≤ s.cluCyc clu then { e with op := .pass { p with aged := true } } else e
      | _ => e)) ∧
  ∀ (s : State) (clu : ℕ) (e : Stream) (p : Pass), e.op = .pass p → p.granted = true → e.clu = clu → e ∈ s.streams →
    (∀ x ∈ s.streams, x.clu = clu → ∀ q, x.op = .pass q → q.granted = true → x = e) → (s.streams.filter fun x => x == e).length = 1 →
    ∃ u : State, exec (.passApply clu) s = .next ((u.tryPosts clu).tryRows clu) ∧ u.streams = s.streams.filter (fun x => x.id != e.id) ∧
      u.mem = s.mem ∧
      ∀ i h id, (∀ x y, p.dest.getD x none = some id → p.dest.getD y none = some id → x = y) → i < p.rank.length → h < rowsPer (descN p.desc) → p.dest.getD (i * rowsPer (descN p.desc) + h) none = some id →
        u.accRow id = (s.accRow id).apply (passTerms s p e.id i h) (min 128 (descN p.desc - 128 * h))) ∧
  (∀ (row : AccRow) (ts : List Term) (cols : ℕ) (fa fb : ℤ), cols ≤ 128 → ts.length ≤ 4096 → row.e ≠ -32768 →
    1 ≤ row.h → (∀ j, j < 128 → row.h ≤ rb (row.at j) ∧ -2 ^ 47 ≤ row.at j ∧ row.at j < 2 ^ 47) →
    (∀ t ∈ ts, t.a.special = false ∧ t.b.length = cols ∧ ∀ x ∈ t.b, x.special = false) →
    maxFlog (ts.map (·.a)) = some fa → maxFlog (ts.flatMap (·.b)) = some fb → fa + fb + 2 + clog2 ts.length - row.e ≤ 46 →
    let r := row.apply ts cols
    r.e = row.e ∧ r.rc = row.rc ∧ r.l = row.l ∧ r.s = row.s ∧ r.h = r.minRb ∧
    (∀ j, cols ≤ j → r.at j = row.at j) ∧
    ∀ j, j < cols → -2 ^ 47 ≤ r.at j ∧ r.at j < 2 ^ 47 ∧ ∃ us : List ℤ, us.length = ts.length ∧ r.at j = row.at j + us.sum ∧
      ∀ (k : ℕ) (t : Term) (u : ℤ), ts[k]? = some t → us[k]? = some u →
        let x : ℚ := t.a.rat * (t.b.getD j (.zero false)).rat / (2 : ℚ) ^ row.e
        abs ((u : ℚ) - x) ≤ 1 / 2 ∧ (abs ((u : ℚ) - x) = 1 / 2 → u % 2 = 0))

/-- R265, R266, R274: `acg` traps on a bad count, else asks; with no other request and 256 rows to spare the grant is at once: new empty rows
at the top, their first number in vD of every active lane. `acp` keeps k rows. -/
def Obligations.AccumulatorRowRequests : Prop :=
  ∀ (g : Guard) (d : RegIx) (b : SrcB) (s : State) (c : Cur) (l : ℕ) (ls : List ℕ),
    isFwCore (s.coreOf c.ti c.gi) = false → activeLanes s c g = l :: ls →
    let n := (srcB32 (s.thread c.ti c.gi l) b).toNat
    let rows := (s.team c.ti).rows
    let h := rows.length + ((s.acgQ.filter fun r => r.ti == c.ti).map (·.n)).sum
    let clu := s.coreOf c.ti c.gi / 4
    let traps (i : Instr) (x : ℕ) : Prop := exec i s = .next (takeTrap s c.ti c.gi c.lanes 0x0A c.pc (BitVec.ofNat 64 x))
    (Ready s c g (d.toNat :: srcBRegs 32 b) →
      (n = 0 ∨ n % 16 ≠ 0 ∨ 256 < n → traps (.acg g d b) n) ∧
      (n ≠ 0 → n % 16 = 0 → n ≤ 256 → 256 * (s.team c.ti).cores.length < h + n → traps (.acg g d b) (h + n)) ∧
      (n ≠ 0 → n % 16 = 0 → n ≤ 256 → h + n ≤ 256 * (s.team c.ti).cores.length → Here s c → s.acgQ = [] → Sparse.get 0 s.reserve clu = 0 →
        256 + n ≤ s.freeRows clu →
        ∃ t : State, exec (.acg g d b) s = .next t ∧ (t.team c.ti).rows = rows ++ (List.range n).map (s.nextId + ·) ∧ t.acgQ = [] ∧
          (∀ i, i < n → t.accRow (s.nextId + i) = .empty) ∧
          ∀ k ∈ activeLanes s c g, t.thread c.ti c.gi k =
            ({ (s.thread c.ti c.gi k).setV d.toNat (BitVec.ofNat 32 rows.length) with hold := .acg, waitLen := c.len } : Thread).resume)) ∧
    (Ready s c g (srcBRegs 32 b) →
      (n % 16 ≠ 0 ∨ rows.length < n → traps (.acp g b) n) ∧
      (n % 16 = 0 → n ≤ rows.length → ∃ t : State, exec (.acp g b) s = .next (advance (t.tryRows clu) c c.lanes) ∧
        t = s.modTeam c.ti fun t => { t with rows := t.rows.take n }))

/-- R258, R275 to R280: each accumulator instruction enters one entry for each active lane into the streams of the rows it names, counts as
one tile operation, and leaves the registers it writes pending; a row that the team does not hold traps with 0x0A, in `acz` and `acn` with the
lowest such row that an active lane names, in the others with the row of the lowest failing lane. So do, in `acr` and `acw`, a count or columns out
of range or an exponent of -32768, and in `acw.img` an image that no row has; an image's offset is checked before its row. That `sy.tval` of `ach`,
`acw` and the image forms is that row is the model's choice (log 100). -/
def Obligations.AccumulatorInstructionsEnter : Prop :=
  ∀ (g : Guard) (f : EFmt) (d : RegIx) (a : Src) (b : SrcB),
    let row (s : State) (c : Cur) (l : ℕ) : ℕ := (src32 (s.thread c.ti c.gi l) a).toNat
    let x (s : State) (c : Cur) (l : ℕ) : Word := srcB32 (s.thread c.ti c.gi l) b
    let held (s : State) (c : Cur) : ℕ := (s.team c.ti).rows.length
    let run (s : State) (c : Cur) (l : ℕ) : List ℕ := addrs d.toNat (max 1 (((x s c l).toNat % 256 * ewidth f + 31) / 32))
    let good (s : State) (c : Cur) (l : ℕ) : Prop := row s c l < held s c
    let ctl (s : State) (c : Cur) (l : ℕ) : Prop :=
      let n := (x s c l).toNat % 256
      good s c l ∧ 1 ≤ n ∧ n ≤ 128 ∧ (x s c l).toNat / 256 % 128 + n ≤ 128
    let image (s : State) (c : Cur) (l : ℕ) : Prop := (x s c l).toNat % 16 = 0 ∧ (x s c l).toNat + 784 ≤ (s.team c.ti).scr * 2 ^ 18
    let bytes (s : State) (c : Cur) (l : ℕ) : List Byte := (List.range 784).map fun i =>
      Sparse.get 0 ((s.team c.ti).scratch (s.group c.ti c.gi).pcore) ((x s c l).toNat + i)
    let regs := srcRegs 32 a ++ srcBRegs 32 b
    let exp (s : State) (c : Cur) (l : ℕ) : ℤ := ((x s c l).extractLsb' 16 16).toInt
    let enters (i : Instr) (names : List ℕ) (cond : State → Cur → List ℕ → Prop) (lane : State → Cur → ℕ → Prop)
        (rows : State → Cur → ℕ → List ℕ) (op : State → Cur → ℕ → StreamOp) (pend : State → Cur → ℕ → List ℕ) : Prop :=
      ∀ s c, Ready s c g names → Here s c → isFwCore (s.coreOf c.ti c.gi) = false → cond s c (activeLanes s c g) →
        (∀ l ∈ activeLanes s c g, lane s c l) → activeLanes s c g ≠ [] → (s.group c.ti c.gi).tiles < 63 →
        ∃ t : State, exec i s = .next t ∧ t.mem = s.mem ∧ t.accRows = s.accRows ∧ (t.group c.ti c.gi).tiles = (s.group c.ti c.gi).tiles + 1 ∧
          t.streams = s.streams ++ (activeLanes s c g).map (fun l => ⟨s.nextId, s.coreOf c.ti c.gi / 4, c.ti, c.gi, l,
            (rows s c l).filterMap fun r => (s.team c.ti).rows[r]?, op s c l⟩) ∧
          (∀ ti gi l, (t.thread ti gi l).regs = (s.thread ti gi l).regs) ∧
          ∀ l ∈ activeLanes s c g, t.thread c.ti c.gi l =
            { (s.thread c.ti c.gi l).addPend (pend s c l) s.nextId with pc := c.pc + BitVec.ofNat 64 c.len, hold := .none }
    let runs (s : State) (c : Cur) (act : List ℕ) : Prop := runChecks s c act regs (run s c) = none
    let one (s : State) (c : Cur) (l : ℕ) : List ℕ := [row s c l]
    let none' (_ : State) (_ : Cur) (_ : ℕ) : List ℕ := []
    -- once `before` holds of every active lane, the lowest one that `ok` fails traps
    let fails (i : Instr) (names : List ℕ) (cond : State → Cur → List ℕ → Prop) (before ok : State → Cur → ℕ → Prop) (cause : ℕ)
        (tval : State → Cur → ℕ → ℕ) : Prop :=
      ∀ s c p l q, Ready s c g names → isFwCore (s.coreOf c.ti c.gi) = false → activeLanes s c g = p ++ l :: q → cond s c (activeLanes s c g) →
        (∀ k ∈ activeLanes s c g, before s c k) → (∀ k ∈ p, ok s c k) → ¬ok s c l →
        exec i s = .next (takeTrap s c.ti c.gi c.lanes cause c.pc (BitVec.ofNat 64 (tval s c l)))
    let lowest (i : Instr) (n : State → Cur → ℕ → ℕ) : Prop := ∀ s c r, Ready s c g regs → isFwCore (s.coreOf c.ti c.gi) = false →
      (∀ l ∈ activeLanes s c g, 1 ≤ n s c l ∧ n s c l ≤ 256) →
      (∃ l ∈ activeLanes s c g, row s c l ≤ r ∧ r < row s c l + n s c l) → held s c ≤ r →
      (∀ l ∈ activeLanes s c g, ∀ q, row s c l ≤ q → q < row s c l + n s c l → held s c ≤ q → r ≤ q) →
      exec i s = .next (takeTrap s c.ti c.gi c.lanes 0x0A c.pc (BitVec.ofNat 64 r))
    enters (.acz g a b) regs Always (fun s c l => 1 ≤ (x s c l).toNat ∧ (x s c l).toNat ≤ 256 ∧ row s c l + (x s c l).toNat ≤ held s c)
      (fun s c l => addrs (row s c l) (x s c l).toNat) (fun _ _ _ => .acz) none' ∧
    enters (.acn g a b) regs Always good one (fun s c l => .acn (min 47 ((x s c l).toNat % 64))) none' ∧
    enters (.ach g d a) (d.toNat :: srcRegs 32 a) Always good one (fun _ _ _ => .ach) (fun _ _ _ => [d.toNat]) ∧
    enters (.acr g f d a b) [] runs ctl one (fun s c l => .acr f ((x s c l).toNat % 256) ((x s c l).toNat / 256 % 128)) run ∧
    enters (.acrImg g a b) regs Always (fun s c l => image s c l ∧ good s c l) one (fun s c l => .acrImg (x s c l).toNat) none' ∧
    enters (.acw g f a d b) [] runs (fun s c l => ctl s c l ∧ exp s c l ≠ -32768) one
      (fun s c l => .acw f ((x s c l).toNat % 256) ((x s c l).toNat / 256 % 128) (exp s c l)
        ((run s c l).map fun r => (s.thread c.ti c.gi l).v r)) none' ∧
    enters (.acwImg g a b) regs Always (fun s c l => image s c l ∧ good s c l ∧ imageOk (bytes s c l) = true) one
      (fun s c l => .acwImg (bytes s c l)) none' ∧
    lowest (.acz g a b) (fun s c l => (x s c l).toNat) ∧ lowest (.acn g a b) (fun _ _ _ => 1) ∧
    fails (.ach g d a) (d.toNat :: srcRegs 32 a) Always (fun _ _ _ => True) good 0x0A row ∧
    fails (.acr g f d a b) [] runs (fun _ _ _ => True) ctl 0x0A row ∧
    fails (.acw g f a d b) [] runs (fun _ _ _ => True) (fun s c l => ctl s c l ∧ exp s c l ≠ -32768) 0x0A row ∧
    (∀ i ∈ [Instr.acrImg g a b, .acwImg g a b],
      fails i regs Always (fun _ _ _ => True) (fun s c l => (x s c l).toNat % 16 = 0) 0x04 (fun s c l => (x s c l).toNat) ∧
      fails i regs Always (fun s c l => (x s c l).toNat % 16 = 0) (fun s c l => (x s c l).toNat + 784 ≤ (s.team c.ti).scr * 2 ^ 18) 0x06
        (fun s c l => max ((s.team c.ti).scr * 2 ^ 18) (x s c l).toNat) ∧
      fails i regs Always image good 0x0A row) ∧
    fails (.acwImg g a b) regs Always (fun s c l => image s c l ∧ good s c l) (fun s c l => imageOk (bytes s c l) = true) 0x0A row

/-- R202, R203, R275 to R279: the first accumulator entry of the streams does to its rows, or writes to its thread, what its page says, leaves
the streams, and the tile count of its group falls with the last entry of its instruction. `acr` converts its columns, rounding to nearest even, and
packs them in its run, whose registers are pending no longer; that it reads a voided row as empty, and `acr.img` gives it as held, is the model's
reading of R264 (log 74). -/
def Obligations.AccumulatorEntriesPerform : Prop :=
  (∀ (s : State) (clu : ℕ) (e : Stream), (heads [] (s.streamsOf clu)).find? Stream.isAcc = some e → exec (.accStreamPerform clu) s =
    .next (State.tryRows (
      let u := { performEntry s e with streams := s.streams.erase e }
      if e.op ≠ .void ∧ ∀ x ∈ u.streams, x.id ≠ e.id then u.modGroup e.ti e.gi fun g => { g with tiles := g.tiles - 1 } else u) clu)) ∧
  (∀ (s : State) (e : Stream) (id : ℕ), id ∈ e.rows → (e.op = .acz ∨ e.op = .void) → (performEntry s e).accRow id = .empty) ∧
  (∀ (s : State) (e : Stream) (r k : ℕ), e.rows = [r] → e.op = .acn k → (s.accRow r).e ≠ -32768 → (s.accRow r).e + k ≤ 32767 → k ≠ 0 →
    let a := s.accRow r
    let u := (performEntry s e).accRow r
    u.e = a.e + k ∧ u.rc = min 15 (a.rc + 1) ∧ u.s = a.s ∧ u.h = u.minRb ∧
    (∀ j, j < 128 → abs ((u.at j : ℚ) - a.at j / 2 ^ k) ≤ 1 / 2 ∧ (abs ((u.at j : ℚ) - a.at j / 2 ^ k) = 1 / 2 → u.at j % 2 = 0)) ∧
    (u.l = true ↔ a.l = true ∨ ∃ j, j < 128 ∧ a.at j % 2 ^ k ≠ 0)) ∧
  (∀ (s : State) (e : Stream) (r : ℕ) (bs : List Byte), e.rows = [r] → e.op = .acwImg bs → (performEntry s e).accRow r = .ofImage bs) ∧
  (∀ (s : State) (e : Stream) (r off i : ℕ), e.rows = [r] → e.op = .acrImg off → e.ti < s.teams.length → i < 784 →
    let pc := (s.group e.ti e.gi).pcore
    Sparse.get 0 (((performEntry s e).team e.ti).scratch pc) (off + i) = (s.accRow r).image.getD i 0) ∧
  (∀ (s : State) (e : Stream) (r d : ℕ), e.rows = [r] → e.op = .ach → e.lane < (s.group e.ti e.gi).lanes.length →
    (∀ p ∈ (s.thread e.ti e.gi e.lane).pend, p.op = e.id → p = ⟨d, e.id, 0⟩) → ⟨d, e.id, 0⟩ ∈ (s.thread e.ti e.gi e.lane).pend →
    let u := (performEntry s e).thread e.ti e.gi e.lane
    u.v d = BitVec.ofNat 32 (s.accRow r).header ∧ ∀ p ∈ u.pend, p.op ≠ e.id) ∧
  (∀ (s : State) (e : Stream) (r n c0 d : ℕ) (f : EFmt), e.rows = [r] → e.op = .acr f n c0 → e.lane < (s.group e.ti e.gi).lanes.length → 1 ≤ n →
    let w := ewidth f
    let m := (n * w + 31) / 32
    (s.thread e.ti e.gi e.lane).pend.filter (fun p => p.op == e.id) = (List.range m).map (fun i => ⟨d + i, e.id, i⟩) →
    let row := s.accRow r
    let num (j : ℕ) : Machine.Num := if s.idVoided e.ti r = true ∨ row.e = -32768 then .zero false else numFin (row.at (c0 + j)) row.e
    let u := (performEntry s e).thread e.ti e.gi e.lane
    (∀ p ∈ u.pend, p.op ≠ e.id) ∧
    (∀ j k, j < n → k < w → (u.v (d + j * w / 32)).getLsbD (j * w % 32 + k) = (encodeElem f .rne (num j)).testBit k) ∧
    (∀ i, n * w ≤ i → i < 32 * m → (u.v (d + i / 32)).getLsbD (i % 32) = false) ∧
    ∀ q, (q < d ∨ d + m ≤ q) → u.v q = (s.thread e.ti e.gi e.lane).v q) ∧
  ∀ (s : State) (e : Stream) (r n c0 : ℕ) (f : EFmt) (x : ℤ) (run : List Word), e.rows = [r] → e.op = .acw f n c0 x run → 1 ≤ n → c0 + n ≤ 128 →
    let u := (performEntry s e).accRow r
    let el (j : ℕ) : Machine.Num := packedElem f (wordByte run) (j - c0)
    u.e = x ∧ u.rc = 0 ∧ u.h = u.minRb ∧ (∀ j, j < c0 ∨ c0 + n ≤ j → u.at j = 0) ∧
    (∀ j, c0 ≤ j → j < c0 + n → el j = .inf false → u.at j = 2 ^ 47 - 1) ∧
    (∀ j, c0 ≤ j → j < c0 + n → (el j = .inf true ∨ el j = .nan) → u.at j = -2 ^ 47) ∧
    ∀ j, c0 ≤ j → j < c0 + n → (el j).isFin = true →
      let q : ℚ := (el j).rat / (2 : ℚ) ^ x
      (-2 ^ 47 ≤ q) → q ≤ 2 ^ 47 - 1 → abs ((u.at j : ℚ) - q) ≤ 1 / 2 ∧ (abs ((u.at j : ℚ) - q) = 1 / 2 → u.at j % 2 = 0)

/-- R171, R173, R179, R180: `rget` raises claims over blocks that the group holds, or waits for them, a grant clearing them; `rput` lowers
claims. A count out of range traps with 0x0B.
R182, R183: the value of each selector, written to the destination and to `lr`. -/
def Obligations.RegisterBlockAndValueResults : Prop :=
  (∀ (g : Guard) (b : SrcB) (s : State) (c : Cur), Ready s c g (srcBRegs 32 b) →
    let act := activeLanes s c g
    let want (l : ℕ) : ℕ := (srcB32 (s.thread c.ti c.gi l) b).toNat
    let h := (s.group c.ti c.gi).blocks
    let r := s.asked c.ti c.gi
    let t := (act.map want).foldl max 0
    let traps (i : Instr) (x : ℕ) : Prop := exec i s = .next (takeTrap s c.ti c.gi c.lanes 0x0B c.pc (BitVec.ofNat 64 x))
    (∀ p l q, act = p ++ l :: q → (∀ k ∈ p, 1 ≤ want k ∧ want k ≤ 16) → ¬(1 ≤ want l ∧ want l ≤ 16) → traps (.rget g b) (want l)) ∧
    ((∀ l ∈ act, 1 ≤ want l ∧ want l ≤ 16) →
      (h + r + 4 < t → traps (.rget g b) t) ∧
      (t ≤ h → exec (.rget g b) s =
        .next (advance (s.modLanes c.ti c.gi act fun l x => { x with claim := max x.claim (want l) }) c c.lanes)) ∧
      (h < t → r = 0 → t ≤ h + 4 → Here s c → (∀ q ∈ s.rgetQ, q.core ≠ s.coreOf c.ti c.gi) →
        (t - h) * ((s.group c.ti c.gi).lanes.length / 16) + 16 ≤ s.unitsFree (s.coreOf c.ti c.gi) →
        (∀ l, (s.thread c.ti c.gi l).hold = .none) →
        ∃ v, exec (.rget g b) s = .next v ∧ (v.group c.ti c.gi).blocks = t ∧
          ∀ l ∈ act, (v.thread c.ti c.gi l).claim = max (s.thread c.ti c.gi l).claim (want l) ∧
            (v.thread c.ti c.gi l).pc = (if (s.thread c.ti c.gi l).heldK || (s.thread c.ti c.gi l).heldF then (s.thread c.ti c.gi l).pc
              else (s.thread c.ti c.gi l).pc + BitVec.ofNat 64 c.len) ∧
            ∀ n, (v.thread c.ti c.gi l).v n = if 16 * h ≤ n ∧ n < 16 * t then 0 else (s.thread c.ti c.gi l).v n)) ∧
    (∀ p l q, act = p ++ l :: q → (∀ k ∈ p, 1 ≤ want k ∧ want k ≤ (s.thread c.ti c.gi k).claim) →
      ¬(1 ≤ want l ∧ want l ≤ (s.thread c.ti c.gi l).claim) → traps (.rput g b) (want l)) ∧
    ((∀ l ∈ act, 1 ≤ want l ∧ want l ≤ (s.thread c.ti c.gi l).claim) → exec (.rput g b) s =
      .next (advance ((s.modLanes c.ti c.gi act fun l x => { x with claim := want l }).releaseRegs c.ti c.gi) c c.lanes))) ∧
  (∀ (g : Guard) (d : Dst),
    let n (x : ℕ) : DWord := BitVec.ofNat 64 x
    let reads (sel : SrdSel) (w : ℕ) (f : State → Cur → ℕ → DWord) : Prop :=
      Acts (.srd g d sel) g (dstRegs w d) Always (fun s c act => advance (s.modLanes c.ti c.gi act fun l t =>
        writeback t d w (f s c l) true) c c.lanes)
    let item (none' : DWord) (f : HeldItem → DWord) (s : State) (c : Cur) (l : ℕ) : DWord := match (s.thread c.ti c.gi l).item with
      | some i => f i
      | none => none'
    reads .lane 32 (fun _ _ l => n l) ∧ reads .nlane 32 (fun s c _ => n (s.group c.ti c.gi).lanes.length) ∧
    reads .grp 32 (fun _ c _ => n c.gi) ∧ reads .ngrp 32 (fun s c _ => n (s.team c.ti).groups.length) ∧
    reads .team 32 (fun s c _ => n (s.team c.ti).num) ∧
    reads .nteam 32 (fun s c _ => n (match s.nodes[(s.team c.ti).node]? with
      | some nd => nd.p.nteam.toNat
      | none => 1)) ∧
    reads .core 32 (fun s c _ => n (s.coreOf c.ti c.gi)) ∧ reads .clu 32 (fun s c _ => n (s.coreOf c.ti c.gi % 96 / 4)) ∧
    reads .die 32 (fun s c _ => n (s.coreOf c.ti c.gi / 96)) ∧ reads .dev 32 (fun s _ _ => n s.module.dev) ∧
    reads .pcore 32 (fun s c _ => n (s.group c.ti c.gi).pcore) ∧
    reads .accb 32 (fun s c _ => if (s.team c.ti).acc0 = 0 then 0xFFFFFFFF else 0) ∧
    reads .regs 32 (fun s c l => n (s.thread c.ti c.gi l).claim) ∧ reads .scratch 32 (fun s c _ => n ((s.team c.ti).scr * 256)) ∧
    reads .item 64 (item 0 fun i => i.payload) ∧ reads .flow 32 (item 0xFFFFFFFF fun i => n (i.label + 2 ^ 24 * i.cls)) ∧
    reads .iseq 32 (item 0xFFFFFFFF fun i => n (i.seq % 2 ^ 32)) ∧
    reads .capn 32 (fun s c _ => n (capn (s.team c.ti).capf.toNat (s.team c.ti).batchRows (match s.nodes[(s.team c.ti).node]? with
      | some nd => nd.p.nexp.toNat
      | none => 1))) ∧
    reads .cyc 64 (fun s c _ => n (s.die (s.coreOf c.ti c.gi / 96)).cyc) ∧
    reads .cnt 32 (fun s c _ =>
      let r := s.group c.ti c.gi
      n (r.loads + 2 ^ 8 * r.stores + 2 ^ 16 * r.copies + 2 ^ 24 * r.tiles)))

/-! ### Shuffles, arenas and ports, spec/04 and spec/05 -/

/-- R79, R80, R90, R92: `shf.open`, once the descriptors and participant lists of its active lanes are read, opens a shuffle for each lane in
ascending order or gives the status that says why not.
R82, R90, R93, R94: `shf.side` registers the block of each active lane, `shf.drop` frees an entry, each with its status; the entry that
`shf.side` registers is announced, and coded packets that wait for it are tried again. R72, R76, R77: a packet leaves by the port that the hash of R72
gives for the module's own number, a port of its die where one works there; it starts at once where that port is not paused on its channel and none
waits there before it, and else waits.
That a closed-failed shuffle gives 0x09 (log 80), that a die of a module without a working port counts an announcement as sent (log 51), and the
number that the hash takes where no module is named (log 92), are the model's choices. -/
def Obligations.ShuffleOpenAndSideResults : Prop :=
  (∀ (g : Guard) (d : RegIx) (a : Src) (b : SrcB),
    let regs := d.toNat :: srcRegs 64 a ++ srcBRegs 32 b
    let addr (s : State) (c : Cur) (l : ℕ) : ℕ := (operand (s.thread c.ti c.gi l) 64 a).toNat
    let reads (s : State) (c : Cur) (act : List ℕ) : List (ℕ × Got × List ℕ) × State := act.foldl (fun r l =>
      let x := readDesc r.2 c.ti c.gi l (addr s c l)
      (r.1 ++ [(l, x.1, x.2.1)], x.2.2)) ([], s)
    Misaligns (.shfOpen g d a b) g regs 64 (fun t => (operand t 64 a).toNat) ∧
    Overreaches (.shfOpen g d a b) g regs 64 (fun t => (operand t 64 a).toNat) ∧
    ∃ opened : State → Cur → State → ℕ × Got × List ℕ → State,
      Acts (.shfOpen g d a b) g regs
        (fun s c act => (∀ l ∈ act, addr s c l % 64 = 0 ∧ addr s c l < 2 ^ 57) ∧ ∀ q ∈ (reads s c act).1, ∃ bs, q.2.1 = .ok bs)
        (fun s c act => advance ((reads s c act).1.foldl (opened s c) (reads s c act).2) c c.lanes) ∧
      ∀ (s u : State) (c : Cur) (l : ℕ) (bs : List Byte) (devs : List ℕ),
        let id := (srcB32 (s.thread c.ti c.gi l) b).toNat
        let n := bytesNat (bs.take 4)
        let die := n / 2 ^ 16 % 4
        let answers (st : ℕ) (v : State) : Prop :=
          opened s c u (l, .ok bs, devs) = v.modThread c.ti c.gi l fun t => t.setV d.toNat (BitVec.ofNat 32 st)
        let good : Prop := id ≤ 0xFFFF ∧ descOk bs = true ∧ (∀ x ∈ devs, x < 900) ∧ devs.Nodup ∧ s.module.dev ∈ devs
        let free : Prop := u.shuffle id = none
        let room : Prop := u.shuffles.length < 64 ∧ (u.shuffles.filter fun h => h.ddie == die).length < 16
        u.module.dev = s.module.dev →
        (¬good → answers 0x07 u) ∧ (good → ¬free → answers 0x03 u) ∧ (good → free → ¬room → answers 0x04 u) ∧
        (good → free → room → ∃ h, answers 0x00 (State.emit { u with shuffles := u.shuffles ++ [h] } die true (.openAnnounce id)) ∧
          h.id = id ∧ h.asid = u.asidOf c.ti ∧ h.ddie = die ∧ h.parts = devs ∧ h.strict = (bs.getD 2 0).getLsbD 2 ∧
          h.trapF = (bs.getD 2 0).getLsbD 3 ∧ h.expect = bytesNat ((bs.drop 4).take 4) ∧ h.rxbase = bytesNat ((bs.drop 16).take 8) ∧
          h.rxlen = bytesNat ((bs.drop 24).take 4) ∧ h.closing = false ∧ h.failed = false ∧
          h.coded = 0 ∧ h.uncoded = 0 ∧ h.fallback = 0 ∧ h.missing = 0 ∧ h.check = 0 ∧ h.full = 0)) ∧
  (∀ (g : Guard) (d : RegIx) (a n : Src) (b : SrcB),
    let th (s : State) (c : Cur) (l : ℕ) : Thread := s.thread c.ti c.gi l
    let id (s : State) (c : Cur) (l : ℕ) : ℕ := (srcB32 (th s c l) b).toNat
    let mine (h : Shuffle) (i k : ℕ) (e : SideEntry) : Prop := e.die = h.ddie ∧ e.shid = i ∧ e.bn = k
    let early (s : State) (c : Cur) (l : ℕ) : Option ℕ := sideEarly s c.ti c.gi (operand (th s c l) 64 a).toNat (id s c l)
    (∀ (s : State) (ti gi x i : ℕ),
      (0xFFFF < i → sideEarly s ti gi x i = some 0x07) ∧
      (i ≤ 0xFFFF → s.openTo ti gi i = none → sideEarly s ti gi x i = some 0x02) ∧
      ∀ h, i ≤ 0xFFFF → s.openTo ti gi i = some h → (h.closing = true ∨ h.failed = true → sideEarly s ti gi x i = some 0x09) ∧
        (h.closing = false → h.failed = false → sideEarly s ti gi x i = if x % 1024 = 0 then none else some 0x06)) ∧
    (∃ side : State → Cur → List (ℕ × ℕ × Tr) → State → ℕ → State,
      (∀ s c ps s', Ready s c g (d.toNat :: srcRegs 64 a ++ srcBRegs 32 b ++ srcRegs 32 n) →
        memChecks s (s.acx c.ti c.gi) .load 1024 (laneAddrs s c ((activeLanes s c g).filter fun l => (early s c l).isNone)
          fun t => (operand t 64 a).toNat) = .pass ps s' → (∀ q ∈ ps, ∃ pa key gen, q.2.2 = .ok pa key gen) →
        (∀ l ∈ activeLanes s c g, s.storesAcked c.ti c.gi l .dev s.nextId = true) →
        exec (.shfSide g d a b n) s = .next (advance ((activeLanes s c g).foldl (side s c ps) s') c c.lanes)) ∧
      ∀ s c ps u l,
        let k := (operand (th s c l) 32 n).toNat
        let answers (st : ℕ) (v : State) : Prop := side s c ps u l = v.modThread c.ti c.gi l fun t => t.setV d.toNat (BitVec.ofNat 32 st)
        (∀ x, early s c l = some x → answers x u) ∧
        ∀ va pa key gen h, early s c l = none → ps.find? (fun q => q.1 == l) = some (l, va, .ok pa key gen) → u.shuffle (id s c l) = some h →
          let e : SideEntry := ⟨h.ddie, id s c l, k, pa, key, gen, true⟩
          let told (es : List SideEntry) : State :=
            ((State.emit { u with side := es } h.ddie true (.sideAnnounce (id s c l) k))).retryCoded (id s c l)
          ((∃ x ∈ u.side, mine h (id s c l) k x) → ∃ es, answers 0x01 (told es) ∧ es.length = u.side.length ∧ e ∈ es ∧
            (∀ x ∈ es, mine h (id s c l) k x → x = e) ∧ ∀ x, ¬mine h (id s c l) k x → (x ∈ es ↔ x ∈ u.side)) ∧
          ((∀ x ∈ u.side, ¬mine h (id s c l) k x) → ((u.side.filter fun x => x.die == h.ddie).length < 65536 → answers 0x00 (told (u.side ++ [e]))) ∧
            (65536 ≤ (u.side.filter fun x => x.die == h.ddie).length → answers 0x05 u))) ∧
    (∀ (s : State) (die : ℕ) (shf : Bool) (m : OutMsg),
      (s.ownPort die = none → s.emit die shf m = { s with sent := s.sent ++ [m] }) ∧
      (∀ p, s.ownPort die = some p →
        let free : Prop := (if shf then (s.port p).hshf else (s.port p).hreq) = false ∧ ∀ x ∈ s.outbox, ¬(x.1 = p ∧ x.2.1 = shf)
        (free → s.emit die shf m = { s with sent := s.sent ++ [m] }) ∧
        (¬free → s.emit die shf m = { s with outbox := s.outbox ++ [(p, shf, m)] })) ∧
      (die < 4 → (s.ownPort die = none ↔ ∀ p, p < 32 → (s.port p).up = false) ∧
        ∀ p, s.ownPort die = some p → p < 32 ∧ (s.port p).up = true ∧ ((∃ i, i < 8 ∧ (s.port (8 * die + i)).up = true) → p / 8 = die))) ∧
    ∃ drop : State → Cur → State → ℕ → State,
      Acts (.shfDrop g d a b) g (d.toNat :: srcRegs 32 a ++ srcBRegs 32 b) Always
        (fun s c act => advance (act.foldl (drop s c) s) c c.lanes) ∧
      ∀ s c u l,
        let k := (operand (th s c l) 32 a).toNat
        let answers (st : ℕ) (v : State) : Prop := drop s c u l = v.modThread c.ti c.gi l fun t => t.setV d.toNat (BitVec.ofNat 32 st)
        (0xFFFF < id s c l → answers 0x07 u) ∧
        (id s c l ≤ 0xFFFF → u.openTo c.ti c.gi (id s c l) = none → answers 0x02 u) ∧
        ∀ h, id s c l ≤ 0xFFFF → u.openTo c.ti c.gi (id s c l) = some h →
          (h.closing = true ∨ h.failed = true → answers 0x09 u) ∧
          (h.closing = false → h.failed = false → (∀ x ∈ u.side, ¬mine h (id s c l) k x) → answers 0x08 u) ∧
          (h.closing = false → h.failed = false → (∃ x ∈ u.side, mine h (id s c l) k x) →
            answers 0x00 { u with side := u.side.filter fun x => !(x.die == h.ddie && x.shid == id s c l && x.bn == k) }))

/-- R90, R95: `shf.close` closes the shuffle of each active lane, or gives its token at once; a lane whose token counts as a copy waits while that
counter is full; a closed-failed shuffle traps with 0x0C. When
every expected block is accounted for the completion record is written, once its line is owned, and the closers get the token; with TRAP and
blocks missing, their waiting lanes issue the instruction again, each of them then trapping once; the id is free once no other waiting lane has its
trap still to come and one closes it again.
That a close which is not complete is a next state equal to the old one (log 65), and that the waiting lanes issue again (log 79), are the model's
choices. -/
def Obligations.ShuffleCloseResults : Prop :=
  (∀ (g : Guard) (d : RegIx) (b : SrcB),
    let regs := d.toNat :: srcBRegs 32 b
    let id (s : State) (c : Cur) (l : ℕ) : ℕ := (srcB32 (s.thread c.ti c.gi l) b).toNat
    let its (c : Cur) (l : ℕ) (q : ℕ × ℕ × ℕ × ℕ) : Bool := q.1 == c.ti && q.2.1 == c.gi && q.2.2.1 == l
    let dead (s : State) (c : Cur) (l : ℕ) : Prop := ∃ h, s.openTo c.ti c.gi (id s c l) = some h ∧ h.failed = true ∧ ∃ q ∈ h.closers, its c l q = true
    (∀ s c p l q, Ready s c g regs → activeLanes s c g = p ++ l :: q → (∀ k ∈ p, ¬dead s c k) → dead s c l →
      exec (.shfClose g d b) s = .next (takeTrap (s.modShuffle (id s c l) fun h =>
        { h with closers := h.closers.filter fun q => !(activeLanes s c g).any fun k => its c k q })
        c.ti c.gi c.lanes 0x0C c.pc (BitVec.ofNat 64 (id s c l)))) ∧
    ∃ close : State → Cur → State → ℕ → State,
      Acts (.shfClose g d b) g regs (fun s c act => ∀ l ∈ act, ¬dead s c l)
        (fun s c act => afterMoved (act.foldl (close s c) s) c act) ∧
      ∀ s c u l,
        let gets (x : Word) (v : State) : Prop := close s c u l = v.modThread c.ti c.gi l fun t =>
          ({ t.setV d.toNat x with hold := .none, waitLen := c.len } : Thread).resume
        (u.openTo c.ti c.gi (id s c l) = none → gets 0x98000000 u) ∧
        ∀ h, u.openTo c.ti c.gi (id s c l) = some h →
          (h.failed = true →
            let due : Prop := ∃ q ∈ h.closers, (u.team q.1).place ≠ .gone ∧ (u.thread q.1 q.2.1 q.2.2.1).exited = false
            let token : Word := BitVec.ofNat 32 (2 ^ 31 + 0x0C * 2 ^ 24 + min h.delivered 0xFFFFFF)
            (due → gets token u) ∧ (¬due → gets token { u.freeSide h with shuffles := u.shuffles.filter fun x => x.id != h.id })) ∧
          (h.failed = false →
            let v := (u.modShuffle h.id fun h => { h with closing := true }).retryCoded h.id
            ((h.strict && h.trapF) = true → close s c u l =
              (v.modThread c.ti c.gi l fun t => { t with hold := .shfClose h.id, waitLen := c.len }).modShuffle h.id fun h =>
                { h with closers := h.closers.filter (fun q => !its c l q) ++ [(c.ti, c.gi, l, d.toNat)] }) ∧
            ((h.strict && h.trapF) = false → 63 ≤ (u.group c.ti c.gi).copies → close s c u l = stallLanes u c [l]) ∧
            ((h.strict && h.trapF) = false → (u.group c.ti c.gi).copies < 63 → l < (v.group c.ti c.gi).lanes.length →
              let w := close s c u l
              ∃ op, w.thread c.ti c.gi l = ({ (v.thread c.ti c.gi l).addPend [d.toNat] op with hold := .none, waitLen := c.len } : Thread).resume ∧
                w.shuffles = (v.modShuffle h.id fun h => { h with closers := h.closers ++ [(c.ti, c.gi, l, op)] }).shuffles ∧
                (w.group c.ti c.gi).copies = (v.group c.ti c.gi).copies + 1))) ∧
  ∀ (s : State) (shid : ℕ) (h : Shuffle), s.shuffle shid = some h → h.closing = true → h.failed = false →
    (h.coded + h.uncoded + h.fallback + h.missing < h.expect → exec (.shfCloseComplete shid) s = .next s) ∧
    (h.expect ≤ h.coded + h.uncoded + h.fallback + h.missing →
      ∀ p s1 s', s.mapPages (s.shufAcx h) true [(h.desc + 0x20, 32)] = (.ok [p], s1) → p.dead = false →
        s1.access h.ddie [] (pieceLines false [p]) = (true, s') →
        let rec' := [h.coded, h.uncoded, h.fallback, h.missing, h.check, h.full, h.high, 0].flatMap fun x => natBytes 4 (x % 2 ^ 32)
        let u := (s'.markDirty (s.shufAcx h) (h.desc + 0x20)).homeWriteBytes p.key p.addr rec'
        ((h.strict && h.trapF && h.missing != 0) = true → ∃ v : State, exec (.shfCloseComplete shid) s = .next v ∧
          (∀ x ∈ v.side, x.shid ≠ shid) ∧ ((∀ x ∈ u.shuffles, x.id = shid → x = h) → ∀ x, v.shuffle shid = some x → x.failed = true ∧ x.closing = true) ∧
          ∀ ti gi l k, (ti, gi, l, k) ∈ h.closers → (v.thread ti gi l).hold ≠ .shfClose shid) ∧
        ((h.strict && h.trapF && h.missing != 0) = false → ∃ v : State, exec (.shfCloseComplete shid) s = .next v ∧ v.shuffle shid = none ∧
          (∀ x ∈ v.side, x.shid ≠ shid) ∧ v.mem = u.mem ∧
          ∀ ti gi l k, h.closers = [(ti, gi, l, k)] → l < (u.group ti gi).lanes.length →
            let token : Word := BitVec.ofNat 32 (2 ^ 31 + (if h.missing = 0 then 0 else 0x0C) * 2 ^ 24 + min h.delivered 0xFFFFFF)
            let t := u.thread ti gi l
            ((h.strict && h.trapF) = true → t.hold = .shfClose shid →
              v.thread ti gi l = (t.setV k token).resume) ∧
            ((h.strict && h.trapF) = false → ∀ r, (∀ p ∈ t.pend, p.op = k → p = ⟨r, k, 0⟩) → ⟨r, k, 0⟩ ∈ t.pend →
              (v.thread ti gi l).v r = token ∧ (∀ p ∈ (v.thread ti gi l).pend, p.op ≠ k) ∧
              (v.group ti gi).copies = (u.group ti gi).copies - 1)))

/-- R84 to R88: what an arrival does. A coded packet waits in the strainer, or is refused where the strainer is full; with every key valid it
is decoded and checked. An uncoded block is written into the window, refused, or discarded.
R86, R89: on a resend request the sender's agent reads the source block of the record again and sends it uncoded, not codeable; it waits for the
source's page and lines and for its channel.
That an uncoded block is parked whatever the strainer holds (log 46), that one whose lines cannot be written yet waits under no fault (log 88), that a
resend whose page is missing raises a fault of its chain (log 78), and that an event before its condition is a next state equal to the old one
(log 65), are the model's choices. -/
def Obligations.ShuffleArrivals : Prop :=
  (∀ (s : State),
    let answered (t : State) (dst : Option ℕ) (shid bn st : ℕ) : State := { t with sent := t.sent ++ [.shfAnswer dst shid bn st] }
    (∀ (p : CodedPacket) (me : CodedComp), p.comps.find? (fun x => x.dev == s.module.dev) = some me →
      (s.shuffle p.shid = none → exec (.codedPacketArrival p) s = .next (answered s none p.shid me.bn 0x18)) ∧
      ∀ h, s.shuffle p.shid = some h →
        (h.failed = true → exec (.codedPacketArrival p) s = .next (answered s none p.shid me.bn 0x18)) ∧
        (h.failed = false → 8192 ≤ s.occupancy h.ddie → exec (.codedPacketArrival p) s = .next
          ((s.modShuffle h.id fun h => { h with full := h.full + 1 }).emit h.ddie false (.resendReq h.id me.bn))) ∧
        (h.failed = false → s.occupancy h.ddie < 8192 → exec (.codedPacketArrival p) s =
          .next ((State.strainerChanged { s with strainer := s.strainer ++ [⟨h.ddie, .coded p, none⟩] } h.ddie).retryCoded p.shid))) ∧
    (∀ (p : CodedPacket), p.comps.find? (fun x => x.dev == s.module.dev) = none → exec (.codedPacketArrival p) s = .next s) ∧
    (∀ (h : Shuffle) (p : CodedPacket) (me : CodedComp), p.comps.find? (fun x => x.dev == s.module.dev) = some me →
      (s.lookKeys h s.module.dev p = .absent → s.decodeCoded h p = if h.closing then some (s.sideMissing h me.bn) else none) ∧
      (s.lookKeys h s.module.dev p = .stale → s.decodeCoded h p = some (s.sideMissing h me.bn)) ∧
      ∀ es, s.lookKeys h s.module.dev p = .held es →
        let open' (e : SideEntry) : Prop := ∀ l ∈ addrs (e.pa / 128) 8, s.open' h.ddie (128 * l) true false = true
        ((∃ e ∈ es, ¬open' e) → s.decodeCoded h p = none) ∧
        ((∀ e ∈ es, open' e) → (∀ e ∈ es, ∀ l ∈ addrs (e.pa / 128) 8, s.settle l e.key = s) →
        let out := es.foldl (fun acc e => (acc.zip (s.cohBytes e.key e.pa 1024)).map fun x => x.1 ^^^ x.2) p.payload
        s.decodeCoded h p = some (if crc32c out = me.crc then s.deliverBlock h ⟨h.id, s.module.dev, me.bn, me.off, false, out⟩ 0
          else (s.modShuffle h.id fun h => { h with check := h.check + 1 }).sideMissing h me.bn))) ∧
    (∀ (h : Shuffle) (bn : ℕ), (h.strict = false → s.sideMissing h bn = s.emit h.ddie false (.resendReq h.id bn)) ∧
      (h.strict = true → s.sideMissing h bn = answered (s.modShuffle h.id fun h => { h with missing := h.missing + 1 }) none h.id bn 0x0C)) ∧
    (∀ (b : UncodedBlock),
      (s.shuffle b.shid = none → exec (.uncodedBlockArrival b) s = .next (answered s (some b.sender) b.shid b.bn 0x18)) ∧
      ∀ h, s.shuffle b.shid = some h →
        (b.sender ∉ h.parts ∨ h.failed = true → exec (.uncodedBlockArrival b) s = .next (answered s (some b.sender) b.shid b.bn 0x18)) ∧
        (b.sender ∈ h.parts → h.failed = false → h.rxlen ≤ b.off →
          exec (.uncodedBlockArrival b) s = .next (answered s (some b.sender) b.shid b.bn 0x1A)) ∧
        (b.sender ∈ h.parts → h.failed = false → b.off < h.rxlen →
          let pages := pagePieces ((h.rxbase + b.off) % 2 ^ 64) b.data.length
          (∀ s', s.mapPages (s.shufAcx h) true pages = (.stop, s') → exec (.uncodedBlockArrival b) s =
            .next (answered (s'.modShuffle h.id fun h => { h with missing := h.missing + 1 }) (some b.sender) b.shid b.bn 0x06)) ∧
          (∀ ps s', s.mapPages (s.shufAcx h) true pages = (.ok ps, s') → (∃ p ∈ ps, p.dead = true) → exec (.uncodedBlockArrival b) s =
            .next (answered (s'.modShuffle h.id fun h => { h with missing := h.missing + 1 }) (some b.sender) b.shid b.bn 0x08)) ∧
          (∀ ps s1 s', s.mapPages (s.shufAcx h) true pages = (.ok ps, s1) → (∀ p ∈ ps, p.dead = false) →
            s1.access h.ddie [] (pieceLines false ps) = (false, s') →
            exec (.uncodedBlockArrival b) s = .next (s'.keepBlock h b (if b.resend then 2 else 1) none)) ∧
          (∀ s', s.mapPages (s.shufAcx h) true pages = (.later, s') →
            exec (.uncodedBlockArrival b) s = .next (s'.keepBlock h b (if b.resend then 2 else 1) none)) ∧
          (∀ p s1 s', s.mapPages (s.shufAcx h) true pages = (.ok [p], s1) → pages.length = 1 → p.dead = false → p.len = b.data.length →
            s1.access h.ddie [] (pieceLines false [p]) = (true, s') →
            ∃ t, t = (s'.markDirty (s.shufAcx h) ((h.rxbase + b.off) % 2 ^ 64)).homeWriteBytes p.key p.addr b.data ∧
              exec (.uncodedBlockArrival b) s = .next (answered (t.modShuffle h.id fun h =>
                if b.resend then { h with fallback := h.fallback + 1 } else { h with uncoded := h.uncoded + 1 }) (some b.sender) b.shid b.bn 0x00)) ∧
          ∀ va s', s.mapPages (s.shufAcx h) true pages = (.park va, s') → ∃ t fid, exec (.uncodedBlockArrival b) s = .next t ∧
            t.strainer = s'.strainer ++ [⟨h.ddie, .block b (if b.resend then 2 else 1), some fid⟩] ∧
            ∃ f ∈ t.faults, f.fid = fid ∧ f.die = h.ddie ∧ f.cause = 0x05 ∧ f.asid = spaceOf h.asid va ∧ f.va / 65536 = va / 65536)) ∧
    ∀ (receiver shid bn : ℕ), (∀ k ∈ s.chains, k.sentBlock receiver shid bn = none) → exec (.resendRequest receiver shid bn) s = .next s) ∧
  (∀ (s : State) (receiver shid bn : ℕ) (k : Chain) (w : SentBlock),
    (s.chains.findSome? fun k => (k.sentBlock receiver shid bn).map fun w => (k, w)) = some (k, w) →
    let marks (t : State) (f : Option ℕ) : State := t.modChain k.id fun k => { k with waits := updIf k.waits (· == w) fun _ => { w with fid := f } }
    (w.fid ≠ none → exec (.resendRequest receiver shid bn) s = .next s) ∧
    (∀ va s', w.fid = none → s.mapRange k w.ssp false w.addr 1024 = (.park va, s') →
      ∃ t fid, exec (.resendRequest receiver shid bn) s = .next t ∧ t.sent = s'.sent ∧ t.chains = (marks s' (some fid)).chains ∧
        ∃ f ∈ t.faults, f.fid = fid ∧ f.cause = 0x05 ∧ f.va / 65536 = va / 65536) ∧
    ∀ ps s', w.fid = none → s.mapRange k w.ssp false w.addr 1024 = (.ok ps, s') →
      let a := s'.access (dieOfCore (s'.chainCore k)) (pieceLines w.ssp ps) []
      let reach : Prop := a.1 = true ∧ a.2.shfReaches (dieOfCore (a.2.chainCore k)) w.dev = true
      (¬reach → exec (.resendRequest receiver shid bn) s = .next a.2) ∧
      ∀ bs, reach → allBytes (a.2.readPieces k w.ssp ps).1 = some bs →
        let u := marks (a.2.readPieces k w.ssp ps).2 none
        exec (.resendRequest receiver shid bn) s = .next { u with sent := u.sent ++ [.shfBlock w.dev w.shid w.bn w.off false bs] })

/-- R103, R105, R107, R112: `arn.chk` and `arn.win` answer about a handle for the issuing address space; an arena dies in five steps.
R72, R77, R78, R88, R105: writes of the PAUSE, STRCTL and ARNPOOL registers take effect when their fields are in range, else they only set
BADW; a channel pauses at XOFF and goes on at XON; a packet for a paused channel waits at its port, in order; each working port of a die tells that
coding stops or goes on; a port that is down carries nothing.
That new thresholds of a strainer are compared with its occupancy at once (log 89), and that a LINK_PAUSE of more than 64 KiB is a next state equal to
the old one (log 65), are the model's choices. -/
def Obligations.ArenaAndThresholdResults : Prop :=
  ((∀ (g : Guard) (d : RegIx) (a : Src),
    let chk (s : State) (c : Cur) (t : Thread) : ℕ :=
      let h := (operand t 32 a).toNat
      match s.handleEntry h with
      | none => 0
      | some x => if x.asid = s.asidOf c.ti then (if x.live then 2 ^ 31 else 2 ^ 30) + h / 2 ^ 22 % 4 * 2 ^ 22 + x.frames.length else 2 ^ 29
    let win (s : State) (c : Cur) (t : Thread) : ℕ :=
      let h := (operand t 32 a).toNat
      match s.handleEntry h with
      | none => 0
      | some x => if x.live = true ∧ x.asid = s.asidOf c.ti then 2 ^ 56 + h * 2 ^ 24 else 0
    Acts (.arnChk g d a) g (d.toNat :: srcRegs 32 a) Always (fun s c _ => afterLanes s c g fun _ t => t.setV d.toNat (BitVec.ofNat 32 (chk s c t))) ∧
    Acts (.arnWin g d a) g (regRegs 64 d ++ srcRegs 32 a) Always
      (fun s c _ => afterLanes s c g fun _ t => t.setD d.toNat (BitVec.ofNat 64 (win s c t)))) ∧
  (∀ (s : State) (h : ℕ) (x : Arena), s.handleEntry h = some x ↔
    (h / 2 ^ 24 % 256 ≠ 0 ∧ h / 2 ^ 16 % 64 = 0 ∧ s.arenaAt (h / 2 ^ 22 % 4) (h % 2 ^ 16) = some x ∧ x.gen = h / 2 ^ 24 % 256)) ∧
  ∀ (s : State) (k : ℕ) (n : Node), s.nodes[k]? = some n → n.st = .dying → n.arenas ≠ [] →
    ∃ t : State, exec (.arenaDeath k) s = .next t ∧
      (n.deathStep = 0 → (∀ a ∈ t.arenas, a.node = k → a.live = false) ∧ t.mem = s.mem ∧
        (∀ a ∈ s.arenas, a.node = k → ∀ e ∈ t.side, e.pa / 65536 ∈ a.frames → e.valid = false) ∧
        (∀ a ∈ s.arenas, a.node = k → ∀ e ∈ t.tlb, ¬(e.gen ≠ 0 ∧ e.slot = a.die * 65536 + a.slot ∧ e.gen = a.gen ∧ a.gen < 256)) ∧
        ∀ m, t.nodes[k]? = some m → m.deathStep = 1) ∧
      (n.deathStep = 1 → s.quiet k = true → t = s.modNode k fun n => { n with deathStep := 2 }) ∧
      (n.deathStep = 1 → s.quiet k = false → t = s) ∧
      (n.deathStep = 2 → t = s.modNode k fun n => { n with deathStep := 3 }) ∧
      (n.deathStep = 3 → (∀ a ∈ s.arenas, a.node = k → ∀ e ∈ t.cache, e.line / 512 ∉ a.frames) ∧
        ∀ m, t.nodes[k]? = some m → m.deathStep = 4) ∧
      (4 ≤ n.deathStep → s.requestsLeft ((s.arenasOf k).map Arena.tag) = false → (∀ a ∈ t.arenas, a.node ≠ k) ∧
        ∀ m, t.nodes[k]? = some m → m.st = .complete ∧ m.arenas = []) ∧
      (4 ≤ n.deathStep → s.requestsLeft ((s.arenasOf k).map Arena.tag) = true → t = s)) ∧
  ((∀ (s : State) (p : ℕ) (v : Word),
    let xoff := v.toNat % 2 ^ 7
    let xon := v.toNat / 2 ^ 8 % 2 ^ 7
    let level (n : ℕ) (b : Bool) : Bool := if xoff ≤ n then true else if n ≤ xon then false else b
    exec (.pauseWrite p v) s = .next (s.modPort p fun q => if 1 ≤ xon ∧ xon < xoff ∧ xoff ≤ 48 then
      { q with xoff := xoff, xon := xon, badw := q.badw && !v.getLsbD 16, preq := level q.rxReq q.preq, pshf := level q.rxShf q.pshf }
      else { q with badw := true })) ∧
  (∀ (s : State) (d : ℕ) (v : Word),
    let stop := v.toNat % 2 ^ 6
    let resume := v.toNat / 2 ^ 8 % 2 ^ 6
    exec (.strctlWrite d v) s = .next ((s.modDie d fun q => if resume < stop ∧ stop ≤ 31 then
      { q with strStop := stop, strResume := resume, strBadw := q.strBadw && !v.getLsbD 31 } else { q with strBadw := true }).strainerLevel d)) ∧
  (∀ (s : State) (d : ℕ), let t := s.strainerLevel d
    let x := s.die d
    (x.strStop * 256 ≤ s.occupancy d → d < s.dies.length → (t.die d).strStopped = true ∧
      (x.strStopped = false → t = (s.modDie d fun q => { q with strStopped := true }).tellCoding d true)) ∧
    (s.occupancy d ≤ x.strResume * 256 → s.occupancy d < x.strStop * 256 → d < s.dies.length →
      (t.die d).strStopped = false ∧
      (x.strStopped = true → t = (s.modDie d fun q => { q with strStopped := false }).tellCoding d false)) ∧
    (x.strResume * 256 < s.occupancy d → s.occupancy d < x.strStop * 256 → t = s)) ∧
  (∀ (s : State) (d : ℕ) (v : DWord),
    let base := v.toNat % 2 ^ 20
    let count := v.toNat / 2 ^ 20 % 2 ^ 20
    exec (.arnpoolWrite d v) s = .next (s.modDie d fun q =>
      if base + count ≤ 2 ^ 20 ∧ ((base = q.arnBase ∧ count = q.arnCount) ∨ ∀ a ∈ s.arenas, a.die ≠ d) then
        { q with arnBase := base, arnCount := count, arnEn := v.getLsbD 40, arnBadw := q.arnBadw && !v.getLsbD 41 }
      else { q with arnBadw := true })) ∧
  (∀ (s : State) (p n : ℕ) (shf : Bool), (64 < n → exec (.linkPause p shf n) s = .next s) ∧
    (n ≤ 64 → exec (.linkPause p shf n) s = .next (s.modPort p fun q =>
      let req := if shf then q.rxReq else n
      let hf := if shf then n else q.rxShf
      let level (k : ℕ) (b : Bool) : Bool := if q.xoff ≤ k then true else if k ≤ q.xon then false else b
      { q with rxReq := req, rxShf := hf, preq := level req q.preq, pshf := level hf q.pshf }))) ∧
  (∀ (s : State) (d : ℕ) (b : Bool), s.tellCoding d b = ((List.range 8).map (8 * d + ·)).foldl (fun t p =>
    if (s.port p).up then t.emitBy p true (.stopCoding p b) else t) s) ∧
  (∀ (s : State) (p : ℕ) (shf : Bool) (m : OutMsg),
    let free : Prop := (if shf then (s.port p).hshf else (s.port p).hreq) = false ∧ ∀ x ∈ s.outbox, ¬(x.1 = p ∧ x.2.1 = shf)
    (free → s.emitBy p shf m = { s with sent := s.sent ++ [m] }) ∧ (¬free → s.emitBy p shf m = { s with outbox := s.outbox ++ [(p, shf, m)] })) ∧
  ∀ (s : State) (p : ℕ), exec (.portDown p) s = .next (s.modPort p fun q => { q with up := false }) ∧
    ∀ t die pa x, exec (.portDown p) s = .next t → t.portFor die pa = some x → (t.port x).up = true)

/-! ### Batch-forming queues, spec/15 -/

/-- R342, R346, R347, R349, R417: the rows of the active lanes of one `bfq.post` join their queues in one step, in ascending lane order, once no
lane has an earlier row left, and a round is examined only after the last of them has joined; `bfq.done` ends the batch of a key; `bfq.done.wd`
withdraws each active lane. The model's choice: of a lane to which status 2 and status 1 both apply 2 is written (log 122).
R342, R346, R348: `bfq.take` checks its control word and waits; a round forms for the oldest of the waiting takes when enough rows are posted, or
when every poster has one, and its batch is written into the scratchpad, counted and handed over; the next take is examined then, with the rows that
are left. -/
def Obligations.BatchQueueResults : Prop :=
  (∀ (g : Guard) (d : RegIx) (a : Src) (b : SrcB),
    let die (s : State) (c : Cur) : ℕ := s.coreOf c.ti c.gi / 96
    let sets (c : Cur) (l : ℕ) (v : State) (x : ℕ) : State := v.modThread c.ti c.gi l fun t => t.setV d.toNat (BitVec.ofNat 32 x)
    (let key (s : State) (c : Cur) (l : ℕ) : ℕ := (srcB32 (s.thread c.ti c.gi l) b).toNat
      let regs := d.toNat :: srcRegs 64 a ++ srcBRegs 32 b
      let wait (s : State) (c : Cur) (l : ℕ) : Prop :=
        s.releaseOk c.ti c.gi l .dev s.nextId = false ∨
          ∃ q ∈ s.bfqs, ∃ r : BRow, (r ∈ q.rows ∨ ∃ k ∈ q.batches, r ∈ k.rows) ∧ r.ti = c.ti ∧ r.gi = c.gi ∧ r.lane = l
      (∀ (s : State) (c : Cur), Ready s c g regs → (∃ l ∈ activeLanes s c g, wait s c l) → ∃ ls : List ℕ,
        exec (.bfqPost g d a b) s = .next (stallLanes s c ls) ∧ ∀ l, l ∈ ls ↔ l ∈ activeLanes s c g ∧ wait s c l) ∧
      ∃ post : State → Cur → State → ℕ → State,
        Acts (.bfqPost g d a b) g regs (fun s c act => ∀ l ∈ act, ¬wait s c l) (fun s c act =>
          advance ((dedupNat (act.map (key s c))).foldl (fun u k => u.examineBfq (die s c) k) (act.foldl (post s c) s)) c c.lanes) ∧
        ∀ s c u l,
          let q := u.bfq (die s c) (key s c l)
          let p := (c.ti, c.gi, l)
          let row : BRow := ⟨operand (s.thread c.ti c.gi l) 64 a, c.ti, c.gi, l, s.coreOf c.ti c.gi, s.fnOf c.ti, false⟩
          let resetting : Prop := s.fnOf c.ti ∈ u.module.resetting
          let full : Prop := q.bound = false ∧ 16 ≤ (u.bfqs.filter fun x => x.die == die s c && x.bound).length
          (resetting → post s c u l = sets c l u 2) ∧ (¬resetting → full → post s c u l = sets c l u 1) ∧
          (¬resetting → ¬full → post s c u l = sets c l (u.setBfq
            { q with rows := q.rows ++ [row], posters := if p ∈ q.posters then q.posters else q.posters ++ [p] }) 0)) ∧
    (∀ (s : State) (c : Cur) (l : ℕ) (ls : List ℕ), Ready s c g (d.toNat :: srcRegs 32 a) → activeLanes s c g = l :: ls →
      let key := (operand (s.thread c.ti c.gi l) 32 a).toNat
      let gives (v : State) (x : ℕ) : Prop := exec (.bfqDone g d a) s = .next (advance (v.modLanes c.ti c.gi (activeLanes s c g) fun _ t =>
        t.setV d.toNat (BitVec.ofNat 32 x)) c c.lanes)
      (s.batchOf c.ti key = none → gives s 0x80000000) ∧
      ∀ q k, s.batchOf c.ti key = some (q, k) → gives ((s.setBfq { q with batches := q.batches.erase k }).modTeam c.ti fun t => { t with batchRows := 0 })
        ((k.rows.filter fun r => !r.void).length + if ∃ r ∈ k.rows, r.void = true then 512 else 0)) ∧
    ∃ leave : State → Cur → State → ℕ → State,
      Acts (.bfqDoneWd g d a) g (d.toNat :: srcRegs 32 a) Always (fun s c act => advance (act.foldl (leave s c) s) c c.lanes) ∧
      ∀ s c u l,
        let key := (operand (s.thread c.ti c.gi l) 32 a).toNat
        let p := (c.ti, c.gi, l)
        ((∀ q ∈ u.bfqs, q.key = key → p ∉ q.posters) → leave s c u l = sets c l u 0) ∧
        ∀ n, (∀ q ∈ u.bfqs, q.key = key → q.die = n) → (u.bfqs.filter fun q => q.key == key).length = 1 → p ∈ (u.bfq n key).posters →
          leave s c u l = sets c l ((u.setBfq { u.bfq n key with posters := (u.bfq n key).posters.erase p }).examineBfq n key) 0) ∧
  ((∀ (g : Guard) (d : RegIx) (a : Src) (b : SrcB) (r : Src) (s : State) (c : Cur) (l : ℕ) (ls : List ℕ),
    Ready s c g (d.toNat :: srcRegs 32 a ++ srcBRegs 32 b ++ srcRegs 32 r) → activeLanes s c g = l :: ls →
    let th := s.thread c.ti c.gi l
    let key := (operand th 32 a).toNat
    let ctl := (srcB32 th b).toNat
    let base := (operand th 32 r).toNat
    let n := ctl % 512
    let step := if ctl / 512 % 2 = 1 then 2 else 1
    let so' := ctl / 2 ^ 16
    let i : Instr := .bfqTake g d a b r
    let traps (cause : ℕ) : Prop := ∃ v, exec i s = .next (takeTrap s c.ti c.gi c.lanes cause c.pc v)
    let bad : Prop := ctl / 2 ^ 10 % 64 ≠ 0 ∨ n = 0 ∨ 256 < n
    let holds : Prop := ∃ q ∈ s.bfqs, q.key = key ∧ ∃ k ∈ q.batches, k.ti = c.ti
    let long : Prop := (s.team c.ti).scr * 2 ^ 18 < so' * 16 + 16 * n
    let rows : Prop := base = 0xFFFFFFFF ∨ base + step * (n - 1) < (s.team c.ti).rows.length
    (bad → exec i s = .next (takeTrap s c.ti c.gi c.lanes 0x0A c.pc (BitVec.ofNat 64 ctl))) ∧
    (¬bad → holds → traps 0x10) ∧ (¬bad → ¬holds → long → traps 0x06) ∧ (¬bad → ¬holds → ¬long → ¬rows → traps 0x0A) ∧
    (¬bad → ¬holds → ¬long → rows →
      let u := s.modLanes c.ti c.gi (activeLanes s c g) fun _ t => { t with hold := .bfqTake, waitLen := c.len }
      let die := s.coreOf c.ti c.gi / 96
      let q := u.bfq die key
      exec i s = .next (afterMoved ((u.setBfq { q with takes := q.takes ++
        [⟨c.ti, c.gi, activeLanes s c g, d.toNat, n, so', if base = 0xFFFFFFFF then none else some base, step⟩] }).examineBfq die key) c
          (activeLanes s c g)))) ∧
  (∀ (s : State) (die key : ℕ), (s.bfq die key).takes = [] → s.examineBfq die key = s) ∧
  ∀ (s : State) (die key : ℕ) (k : BTake) (rest : List BTake), (s.bfq die key).takes = k :: rest →
    let q := s.bfq die key
    let ready : Prop := k.target ≤ q.rows.length ∨ (q.rows ≠ [] ∧ ∀ p ∈ q.posters, ∃ r ∈ q.rows, (r.ti, r.gi, r.lane) = p)
    (¬ready → s.examineBfq die key = s) ∧
    (ready → k.ti < s.teams.length →
      let rows := q.rows.take k.target
      ∃ u : State, s.examineBfq die key = u.examineBfq die key ∧ (u.bfq die key).takes = rest ∧ (u.bfq die key).rows = q.rows.drop k.target ∧ (u.bfq die key).posters = q.posters ∧
      (∃ x ∈ (u.bfq die key).batches, x.ti = k.ti ∧ x.rows = rows ∧ x.so = k.so ∧ x.base = k.base ∧ x.step = k.step ∧ x.cur = true) ∧
      (u.team k.ti).batchRows = rows.length ∧
      (∀ l ∈ k.lanes, l < (s.group k.ti k.gi).lanes.length →
        let t := s.thread k.ti k.gi l
        let t' := u.thread k.ti k.gi l
        t' = (t.setV k.d (BitVec.ofNat 32 rows.length)).resume) ∧
      ∀ (i : ℕ) (r : BRow) (j : ℕ), rows[i]? = some r → j < 16 → r.core * 1024 + r.gi * 64 + r.lane < 2 ^ 32 → r.fn < 64 →
        Sparse.get 0 ((u.team k.ti).scratch (s.group k.ti k.gi).pcore) (16 * k.so + 16 * i + j) =
          BitVec.ofNat 8 ((r.value.toNat + (r.core * 1024 + r.gi * 64 + r.lane) * 2 ^ 64 + r.fn * 2 ^ 96 + if r.void then 2 ^ 102 else 0) / 256 ^ j)))

/-! ### Traps and system instructions, spec/16 and spec/17 -/

/-- R350 to R352, R373: what taking a trap saves, which bank and vector it uses, what its handler lanes and the other lanes of the group
become, and what happens at F with no vector: STAGE reads 0xF. That READY is cleared then and the lanes issue nothing more is the model's choice
(log 30). -/
def Obligations.TrapsEnterTheirBank : Prop :=
  ∀ (s : State) (ti gi : ℕ) (lanes : List ℕ) (cause : ℕ) (epc tval : DWord), gi < (s.team ti).groups.length →
    let g := s.group ti gi
    let die := s.die (s.coreOf ti gi / 96)
    let f := decide (g.level ≠ .u ∨ die.kvec = 0)
    let t := takeTrap s ti gi lanes cause epc tval
    let g' := t.group ti gi
    (f = true → die.fvec = 0 → t.module.stage = 0xF ∧ t.module.ready = false ∧
      ∀ l ∈ lanes, l < g.lanes.length → (t.thread ti gi l).hold = .dead) ∧
    ((f = false ∨ die.fvec ≠ 0) →
      let b := g'.bank f
      let sh (x : Thread) : Shadow := if f then x.shadowF else x.shadowK
      b.cause = BitVec.ofNat 32 cause ∧ b.epc = epc ∧ b.tval = tval ∧ b.tmask = maskOf lanes ∧ b.pl = g.level ∧ b.inh = true ∧
      b.kscr = (g.bank f).kscr ∧ g'.bank (!f) = g.bank (!f) ∧ g'.level = (if f then .f else .k) ∧ g'.lanes.length = g.lanes.length ∧
      g'.blocks = g.blocks ∧ t.mem = s.mem ∧ t.loads = s.loads ∧ t.stores = s.stores ∧ t.module = s.module ∧ t.dies = s.dies ∧
      (∀ gj, gj ≠ gi → t.group ti gj = s.group ti gj) ∧ (∀ tj, tj ≠ ti → t.team tj = s.team tj) ∧
      ∀ l, l < g.lanes.length →
        let x := s.thread ti gi l
        let y := t.thread ti gi l
        (l ∉ lanes → y.regs = x.regs ∧ y.lr = x.lr ∧ y.pc = x.pc ∧ y.hold = x.hold ∧
          (y.heldK = true ∨ y.heldF = true) ∧ (x.heldK = true ∨ x.heldF = true → y = x)) ∧
        (l ∈ lanes → y.pc = ((if f then die.fvec else die.kvec) &&& 0xFFFFFFFFFFFFFFF8) ∧ y.hold = .none ∧ y.qf = x.qf ∧ y.claim = x.claim ∧
          y.lr = (sh x).lr ∧ (sh y).lr = x.lr ∧ ((∀ e ∈ (sh x).regs, e.1 < 16) →
            ∀ r, (r < 16 → y.v r = Sparse.get 0 (sh x).regs r ∧ Sparse.get 0 (sh y).regs r = x.v r) ∧ (16 ≤ r → y.v r = x.v r)) ∧
          ((∀ p ∈ (sh x).pend, p.reg < 16) → ∀ p : Pend, p ∈ y.pend ↔ if p.reg < 16 then p ∈ (sh x).pend else p ∈ x.pend)))

/-- R351, R354, R375: `trap` and `brk` trap their active lanes alone, with the code; a word that decode rejects traps its run with its cause
and the word; a fetch whose page is missing parks the run, and one that protection refuses traps it with 0x06 at its address.
R376: `kret` and `fret` trap with 0x03 where their bank has no handler, wait until every handler lane stands there, and then return: the
level and the PC come from the bank, the handler lanes get their registers back, and the lanes that the entry held are free; one whose wait
ended while it was held goes on at its next word. The model's choice: a machine check that waited for the F bank enters in the same step as the
`fret` that frees it (log 61). -/
def Obligations.TrapWordsAndReturns : Prop :=
  ((∀ (g : Guard) (b : SrcB),
    let code (s : State) (c : Cur) (act : List ℕ) : DWord := (srcB32 (s.thread c.ti c.gi (act.headD 0)) b).setWidth 64
    let regs := srcBRegs 32 b
    let takes (cause : ℕ) (s : State) (c : Cur) (act : List ℕ) : State := afterMoved (takeTrap s c.ti c.gi act cause c.pc (code s c act)) c act
    Acts (.trap g b) g regs (fun _ _ act => act ≠ []) (takes 0x0E) ∧ Acts (.brk g b) g regs (fun _ _ act => act ≠ []) (takes 0x0F) ∧
    Acts (.trap g b) g regs (fun _ _ act => act = []) (fun s c _ => advance s c c.lanes) ∧
    Acts (.brk g b) g regs (fun _ _ act => act = []) (fun s c _ => advance s c c.lanes)) ∧
  (∀ (s : State) (c : Cur) (cause : BitVec 8) (w : DWord), s.cur = some c →
    exec (.illegalInstruction cause w) s = .next (takeTrap s c.ti c.gi c.lanes cause.toNat c.pc w)) ∧
  ∀ (s : State) (c : Cur), s.cur = some c →
    let x := s.acx c.ti c.gi
    (∀ k u, s.translate x .fetch c.pc.toNat = (.bad k, u) → exec .fetchFault s = .next (takeTrap u c.ti c.gi c.lanes 0x06 c.pc c.pc)) ∧
    (∀ u, s.translate x .fetch c.pc.toNat = (.miss, u) → ∃ (t : State) (fid : ℕ), exec .fetchFault s = .next t ∧
      (∃ f ∈ t.faults, f.fid = fid ∧ f.cause = 0x05 ∧ f.va / 65536 = c.pc.toNat / 65536) ∧
      ∀ l ∈ c.lanes, l < (s.group c.ti c.gi).lanes.length → (t.thread c.ti c.gi l).fetchPark = some fid ∧
        (t.thread c.ti c.gi l).pc = (u.thread c.ti c.gi l).pc)) ∧
  ((∀ (f : Bool) (s : State) (c : Cur), Issues s c (if f then .f else .kf) .always [] [] → Here s c →
    let i : Instr := if f then .fret else .kret
    let g := s.group c.ti c.gi
    let b := g.bank f
    let handlers := (lanesOf b.tmask).filter fun l => !(g.lane l).exited
    (b.inh = false → exec i s = .next (takeTrap s c.ti c.gi c.lanes 0x03 c.pc c.w0)) ∧
    (b.inh = true → (∃ l ∈ handlers, l ∉ c.lanes) → exec i s =
      .next (afterMoved (s.modLanes c.ti c.gi c.lanes fun _ t => { t with hold := .ret f }) c c.lanes)) ∧
    (b.inh = true → (∀ l ∈ handlers, l ∈ c.lanes) →
      let r := trapReturn s c.ti c.gi f
      exec i s = .next (afterMoved (if f then r.deliverCheck (s.coreOf c.ti c.gi / 96) else r) c c.lanes))) ∧
  ∀ (s : State) (ti gi : ℕ) (f : Bool), gi < (s.team ti).groups.length →
    let g := s.group ti gi
    let b := g.bank f
    let t := trapReturn s ti gi f
    let g' := t.group ti gi
    let sh (x : Thread) : Shadow := if f then x.shadowF else x.shadowK
    g'.level = b.pl ∧ (g'.bank f).inh = false ∧ (g'.bank f).cause = b.cause ∧ (g'.bank f).epc = b.epc ∧ (g'.bank f).tval = b.tval ∧
    g'.bank (!f) = g.bank (!f) ∧ t.mem = s.mem ∧ t.dies = s.dies ∧
    ∀ l, l < g.lanes.length →
      let x := s.thread ti gi l
      let y := t.thread ti gi l
      (if f then y.heldF else y.heldK) = false ∧ (if f then y.heldK = x.heldK else y.heldF = x.heldF) ∧
      (l ∈ lanesOf b.tmask → x.exited = false → y.pc = b.epc ∧ y.hold = .none ∧ y.lr = (sh x).lr ∧ (sh y).lr = x.lr ∧
        ((∀ e ∈ (sh x).regs, e.1 < 16) → ∀ r, (r < 16 → y.v r = Sparse.get 0 (sh x).regs r ∧ Sparse.get 0 (sh y).regs r = x.v r) ∧
          (16 ≤ r → y.v r = x.v r))) ∧
      (l ∉ lanesOf b.tmask ∨ x.exited = true → y.regs = x.regs ∧ y.lr = x.lr ∧
        (x.hold ≠ .passed ∨ (if f then x.heldK else x.heldF) = true → y.pc = x.pc ∧ y.hold = x.hold) ∧
        (x.hold = .passed → (if f then x.heldK else x.heldF) = false → y.pc = x.pc + BitVec.ofNat 64 x.waitLen ∧ y.hold = .none)))

/-- R60, R172, R353, R372: the checks that come before a word's own part. A level that is not allowed traps first, with 0x03 and the word; then a
register outside the claim of an active lane, with 0x0B and the lowest such register: of every word that names registers, a source, a destination, the guard,
both halves of a pair, every register of a run, a token register, and the runs of `mma`, `acr` and `acw`, whose length is read at issue. -/
def Obligations.LevelAndClaimChecks : Prop :=
  (∀ (g : Guard) (d : RegIx) (a b' : Src) (b : SrcB) (sel : SySel) (r : Option RegIx) (force : Bool) (s : State) (c : Cur), s.cur = some c →
    let lv := (s.group c.ti c.gi).level
    let traps (i : Instr) : Prop := exec i s = .next (takeTrap s c.ti c.gi c.lanes 0x03 c.pc c.w0)
    (lv = .u → ∀ i ∈ [Instr.kret, .fret, .syr g d sel, .syw g a sel, .tlbi g d a b r, .pfack g d a b', .ctxsv g d a b', .ctxld g d a, .halt g,
      .keyld g d a b, .fwqPull g d d, .fwqPush g d d, .fwqAct g d d force], traps i) ∧
    (lv = .k → ∀ i ∈ [Instr.fret, .syr g d .kCause, .syr g d .kEpc, .syr g d .kTval, .syr g d .kTmask, .syr g d .kStatus, .syr g d .kKscr,
      .syr g d .fvec, .syr g d .mcq, .syr g d .mch, .syr g d .mct, .syw g a .kCause, .syw g a .kEpc, .syw g a .kTval, .syw g a .kStatus,
      .syw g a .kKscr, .syw g a .fvec, .syw g a .ctxpool, .syw g a .mcq, .syw g a .mch,
      .keyld g d a b, .fwqPull g d d, .fwqPush g d d, .fwqAct g d d force], traps i) ∧
    (∀ i ∈ [Instr.syw g a .tmask, .syw g a .kTmask, .syw g a .ptroot, .syw g a .asid, .syw g a .owner, .syw g a .ctxh, .syw g a .fltt,
      .syw g a .layout, .syw g a .mct], traps i)) ∧
  (∀ (g : Guard) (t : IntTy) (D : Dst) (a r : Src) (b : SrcB) (o : AddcOp) (cc : ICmp) (ss : SatSrc) (x : Bool) (k : BitVec 6),
    let w := t.w
    let claims (l : List (Instr × List ℕ)) : Prop := ∀ e ∈ l, ClaimTraps e.1 .all g e.2 fun _ _ => True
    claims [(.iadd g t D a b, regs2 w D w a w b), (.isub g t D a b, regs2 w D w a w b), (.iaddc g o t D a b r, regs3 (o.w t) D w a w b 32 r),
      (.imul g t D a b, regs2 w D w a w b), (.imulh g t D a b, regs2 w D w a w b), (.imad g t D a b r, regs3 w D w a w b w r),
      (.imadh g t D a b r, regs3 w D w a w b w r), (.idiv g t D a b, regs2 w D w a w b), (.irem g t D a b, regs2 w D w a w b),
      (.imin g t D a b, regs2 w D w a w b), (.imax g t D a b, regs2 w D w a w b), (.iabs g t D a, regs1 w D w a), (.ineg g t D a, regs1 w D w a),
      (.and g t D a b, regs2 w D w a w b), (.or g t D a b, regs2 w D w a w b), (.xor g t D a b, regs2 w D w a w b), (.andn g t D a b, regs2 w D w a w b)] ∧
    claims [(.shl g t D a b, regs2 w D w a 32 b), (.shr g t D a b, regs2 w D w a 32 b), (.sar g t D a b, regs2 w D w a 32 b),
      (.rol g t D a b, regs2 w D w a 32 b), (.clz g t D a, regs1 32 D w a), (.ctz g t D a, regs1 32 D w a), (.popc g t D a, regs1 32 D w a),
      (.brev g t D a, regs1 w D w a), (.bfe g t D a b, regs2 w D w a 32 b), (.bfi g t D a b r, regs3 w D w a 32 b w r),
      (.bsel g t D a b r, regs3 32 D 32 a 32 b 32 r), (.sel g t D a b r, regs3 w D w a w b 32 r), (.icmp g cc t D a b, regs2 32 D w a w b),
      (.isat g ss t D a, regs1 32 D ss.w a), (.add64 g D a b, regs2 64 D 64 a 64 b), (.sub64 g D a b, regs2 64 D 64 a 64 b),
      (.lea64 g x D a b k, regs2 64 D 64 a 32 b), (.mov g t D a, regs1 w D w a), (.movi g t D b, dstRegs w D ++ srcBRegs w b)]) ∧
  (∀ (g : Guard) (f : Fmt) (ef eg : EFmt) (rm : Rnd) (n : NTy) (D : Dst) (a r : Src) (b : SrcB) (fc : FCmp) (x : Bool),
    let claims (l : List (Instr × List ℕ)) : Prop := ∀ e ∈ l, ClaimTraps e.1 .all g e.2 fun _ _ => True
    let n1 := regs1 32 D 32 a
    let n2 := regs2 32 D 32 a 32 b
    let n3 := regs3 32 D 32 a 32 b 32 r
    claims [(.fadd g f rm D a b, n2), (.fsub g f rm D a b, n2), (.fmul g f rm D a b, n2), (.ffma g f rm D a b r, n3), (.fmin g f D a b, n2),
      (.fmax g f D a b, n2), (.fcmp g fc f D a b, n2), (.fcls g f D a, n1), (.frnd g f rm D a, n1), (.fcvt g ef eg rm D a, n1),
      (.fpk g f rm D a b, n2), (.fpkN8 g x rm D a b r, n3), (.hadd2 g f rm D a b, n2), (.hmul2 g f rm D a b, n2), (.hfma2 g f rm D a b r, n3),
      (.hmin2 g f D a b, n2), (.hmax2 g f D a b, n2)] ∧
    claims [(.sfuRcp g D a, n1), (.sfuRsq g D a, n1), (.sfuSqrt g D a, n1), (.sfuExp2 g D a, n1), (.sfuLog2 g D a, n1), (.sfuSin g D a, n1),
      (.sfuCos g D a, n1), (.sfuTanh g D a, n1), (.dot4 g n rm D a b r, n3), (.dot8 g n rm D a b r, n3), (.bscl g rm D a b r, n3), (.bexp g n D a, n1),
      (.mexp g n D a b, n2), (.spk24 g n D a, n1), (.sxp24 g n D a, n1), (.ffs g n D a b, regs2 32 D n.w a 32 b)]) ∧
  (∀ p q : Slot, ClaimTraps (.pairWord p q) .all .always (p.d.toNat :: srcRegs 32 p.s ++ q.d.toNat :: srcRegs 32 q.s) fun _ _ => True) ∧
  -- the gathered words, once their run is complete
  (∀ (g : Guard) (D : Dst) (d e : RegIx) (a : Src) (b : SrcB) (n : NTy) (m : LxMode) (vo : VoteOp) (sc : ScanOp) (x : Bool),
    let w := n.w
    ∀ y ∈ ([(.lxch g m n D a b, regs2 w D w a 32 b), (.vote g vo D a, regs1 (if vo = .ballot then 64 else 32) D 32 a), (.scan g sc x n D a, regs1 32 D 32 a),
        (.matchL g x n D a, regs1 64 D w a), (.cmpr g n D a b, regs2 w D w a 32 b), (.expd g n D a b, regs2 w D w a 32 b),
        (.cxch g n D a b, regs2 32 D 32 a 32 b), (.takeG g d e, [d.toNat, d.toNat + 1, e.toNat])] : List (Instr × List ℕ)),
      ClaimTraps y.1 .all g y.2 fun s c => ∀ l ∈ gatherSet s c, l ∈ c.lanes) ∧
  -- memory, control flow, items, copies, shuffles, arenas, registers, batches
  (∀ (g : Guard) (sc : Scope) (w : MemW) (E : Dst) (d e : RegIx) (a v : Src) (b : SrcB) (o : Off) (op : AtomOp) (sg sys w64 : Bool) (k : BitVec 3)
      (ch cv : BitVec 4) (cls : BitVec 2) (sel : SrdSel),
    let claims (l : List (Instr × List ℕ)) : Prop := ∀ e ∈ l, ClaimTraps e.1 .all g e.2 fun _ _ => True
    let wd := if w64 then 64 else 32
    let at' := srcRegs 64 a
    let D := d.toNat
    claims [(.ld g w d a o, regRegs w.w d ++ at'), (.ldAcq g sc w d a o, regRegs w.w d ++ at'), (.st g w a o v, at' ++ srcRegs w.w v),
      (.stRel g sc w a o v, at' ++ srcRegs w.w v), (.stOrd g sc w a o v, at' ++ srcRegs w.w v), (.lds g w d a o, regRegs w.w d ++ srcRegs 32 a),
      (.sts g w a o v, srcRegs 32 a ++ srcRegs w.w v), (.atom g op sg sc w64 d a b, regRegs wd d ++ at' ++ atomRegs op w64 b),
      (.atomBnd g sc w64 d a b, regRegs wd d ++ at' ++ srcBRegs wd b), (.atomTopk g sg k sc d a e, regRegs 32 d ++ at' ++ [e.toNat, e.toNat + 1]),
      (.red g op sg sc w64 a b, at' ++ srcBRegs wd b), (.pfL1 g a o, at'), (.pfL2 g a o, at'), (.cwb g sys a b, at' ++ srcBRegs 32 b),
      (.cinv g a b, at' ++ srcBRegs 32 b), (.cdrop g a b, at' ++ srcBRegs 32 b)] ∧
    claims [(.br g b, srcBRegs 32 b), (.bri g a, at'), (.call g d b, regRegs 64 d ++ srcBRegs 32 b), (.calli g d a, regRegs 64 d ++ at'), (.ret g a, at'),
      (.exit g, []), (.yield g, []), (.bar g b ch, srcBRegs 32 b), (.barArr g b ch, srcBRegs 32 b), (.barWt g ch, []), (.nap g d b ch, D :: srcBRegs 32 b),
      (.ntfy g a b ch, srcRegs 32 a ++ srcBRegs 32 b), (.take g d e, [D, D + 1, e.toNat]), (.relabel g b cls, srcBRegs 32 b), (.done g, []),
      (.itemi g d a b cls, D :: at' ++ srcBRegs 32 b), (.flowi g d b cls, D :: srcBRegs 32 b), (.trap g b, srcBRegs 32 b), (.brk g b, srcBRegs 32 b)] ∧
    claims [(.cpGo g d a, D :: at'), (.cpStop g d, [D]), (.cpStat g d e, [D, e.toNat]), (.shfOpen g d a b, D :: at' ++ srcBRegs 32 b),
      (.shfSide g d a b v, D :: at' ++ srcBRegs 32 b ++ srcRegs 32 v), (.shfDrop g d a b, D :: srcRegs 32 a ++ srcBRegs 32 b),
      (.shfClose g d b, D :: srcBRegs 32 b), (.arnChk g d a, D :: srcRegs 32 a), (.arnWin g d a, regRegs 64 d ++ srcRegs 32 a),
      (.rget g b, srcBRegs 32 b), (.rput g b, srcBRegs 32 b), (.srd g E sel, dstRegs sel.w E), (.bfqPost g d a b, D :: at' ++ srcBRegs 32 b),
      (.bfqTake g d a b v, D :: srcRegs 32 a ++ srcBRegs 32 b ++ srcRegs 32 v), (.bfqDone g d a, D :: srcRegs 32 a),
      (.bfqDoneWd g d a, D :: srcRegs 32 a)] ∧
    -- the matrix engine, which a firmware core has not
    (∀ y ∈ ([(.cvd g cv b, srcBRegs 32 b), (.cvdMask g cv b, srcBRegs 64 b), (.acg g d b, D :: srcBRegs 32 b), (.acp g b, srcBRegs 32 b),
        (.acz g a b, srcRegs 32 a ++ srcBRegs 32 b), (.acn g a b, srcRegs 32 a ++ srcBRegs 32 b), (.ach g d a, D :: srcRegs 32 a),
        (.acrImg g a b, srcRegs 32 a ++ srcBRegs 32 b), (.acwImg g a b, srcRegs 32 a ++ srcBRegs 32 b)] : List (Instr × List ℕ)),
      ClaimTraps y.1 .all g y.2 fun s c => isFwCore (s.coreOf c.ti c.gi) = false) ∧
    ∀ (f : EFmt) (reuse : Bool),
      let count (t : Thread) : ℕ := (srcB32 t b).toNat % 256
      RunClaimTraps (.acr g f d a b) g (srcRegs 32 a ++ srcBRegs 32 b) (fun t => addrs D (max 1 ((count t * ewidth f + 31) / 32))) ∧
      RunClaimTraps (.acw g f a d b) g (srcRegs 32 a ++ srcBRegs 32 b) (fun t => addrs D (max 1 ((count t * ewidth f + 31) / 32))) ∧
      RunClaimTraps (.mma g cv reuse d b v) g (srcBRegs 32 b ++ srcRegs 32 v) (fun t => addrs D ((mmaRun t b v).1 + (mmaRun t b v).2))) ∧
  -- the words of levels K and F
  ∀ (g : Guard) (d e : RegIx) (a v : Src) (b : SrcB) (sel : SySel) (force : Bool),
    let claims (p : Priv) (l : List (Instr × List ℕ)) : Prop := ∀ e ∈ l, ClaimTraps e.1 p g e.2 fun _ _ => True
    let D := d.toNat
    claims (sysReads sel) [(.syr g d sel, regRegs sel.w d)] ∧ claims (sysWrites sel) [(.syw g a sel, srcRegs sel.w a)] ∧
    claims .kf [(.tlbi g d a b none, D :: srcRegs 64 a ++ srcBRegs 32 b), (.tlbi g d a b (some e), D :: srcRegs 64 a ++ srcBRegs 32 b ++ [e.toNat, e.toNat + 1]),
      (.pfack g d a v, D :: srcRegs 32 a ++ srcRegs 32 v), (.ctxsv g d a v, D :: srcRegs 64 a ++ srcRegs 32 v), (.ctxld g d a, D :: srcRegs 32 a), (.halt g, [])] ∧
    claims .f [(.keyld g d a b, D :: srcRegs 32 a ++ srcBRegs 64 b), (.fwqPull g d e, [D, e.toNat, e.toNat + 1]), (.fwqPush g d e, [D, e.toNat, e.toNat + 1]),
      (.fwqAct g d e force, [D, e.toNat, e.toNat + 1])]

/-- R352, R359, R369, R372, R377, R385: what `syr` reads by each selector and what `syw` writes, each field by its own rule. The model's choice:
a write of `sy.mcq` with SZ above 8 sets BASE and leaves SZ (log 47). -/
def Obligations.SystemRegisterResults : Prop :=
  ∀ (g : Guard) (d : RegIx) (a : Src),
    let n (x : ℕ) : DWord := BitVec.ofNat 64 x
    let die (s : State) (c : Cur) : Die := s.die (s.coreOf c.ti c.gi / 96)
    let own (s : State) (c : Cur) : Bank := if (s.group c.ti c.gi).level = .f then (s.group c.ti c.gi).bankF else (s.group c.ti c.gi).bankK
    let kb (s : State) (c : Cur) : Bank := (s.group c.ti c.gi).bankK
    let code (l : Level) : ℕ := match l with
      | .u => 0
      | .k => 1
      | .f => 2
    let status (s : State) (c : Cur) (b : Bank) : DWord := n (code b.pl + code (s.group c.ti c.gi).level * 4 + if b.inh then 16 else 0)
    let reads (sel : SySel) (p : Priv) (w : ℕ) (f : State → Cur → DWord) : Prop := Does (.syr g d sel) p g (regRegs w d) (regRegs w d) Always
      (fun s c _ => afterLanes s c g fun _ t => if w = 64 then t.setD d.toNat (f s c) else t.setV d.toNat (BitVec.ofNat 32 (f s c).toNat))
    let writes (sel : SySel) (p : Priv) (w : ℕ) (f : State → Cur → DWord → State) : Prop :=
      ∀ s c l ls, Issues s c p g (srcRegs w a) (srcRegs w a) → activeLanes s c g = l :: ls →
        exec (.syw g a sel) s = .next (advance (f s c (operand (s.thread c.ti c.gi l) w a)) c c.lanes)
    let onDie (f : DWord → Die → Die) (s : State) (c : Cur) (x : DWord) : State := s.modDie (s.coreOf c.ti c.gi / 96) (f x)
    let onOwn (f : DWord → Bank → Bank) (s : State) (c : Cur) (x : DWord) : State := s.modGroup c.ti c.gi fun g =>
      if g.level = .f then { g with bankF := f x g.bankF } else { g with bankK := f x g.bankK }
    let onK (f : DWord → Bank → Bank) (s : State) (c : Cur) (x : DWord) : State := s.modGroup c.ti c.gi fun g => { g with bankK := f x g.bankK }
    let lo (x : DWord) : Word := BitVec.ofNat 32 x.toNat
    let low8 (x : DWord) : DWord := n (x.toNat / 8 * 8)
    let pl (x : DWord) : Level := match x.toNat % 4 with
      | 1 => .k
      | 2 => .f
      | _ => .u
    (reads .cause .kf 32 (fun s c => (own s c).cause.setWidth 64) ∧ reads .epc .kf 64 (fun s c => (own s c).epc) ∧
      reads .tval .kf 64 (fun s c => (own s c).tval) ∧ reads .tmask .kf 64 (fun s c => (own s c).tmask) ∧
      reads .status .kf 32 (fun s c => status s c (own s c)) ∧ reads .kscr .kf 64 (fun s c => (own s c).kscr) ∧
      reads .kCause .f 32 (fun s c => (kb s c).cause.setWidth 64) ∧ reads .kEpc .f 64 (fun s c => (kb s c).epc) ∧
      reads .kTval .f 64 (fun s c => (kb s c).tval) ∧ reads .kTmask .f 64 (fun s c => (kb s c).tmask) ∧
      reads .kStatus .f 32 (fun s c => status s c (kb s c)) ∧ reads .kKscr .f 64 (fun s c => (kb s c).kscr) ∧
      reads .kvec .kf 64 (fun s c => (die s c).kvec) ∧ reads .fvec .f 64 (fun s c => (die s c).fvec) ∧
      reads .kroot .kf 64 (fun s c => (die s c).kroot) ∧ reads .swapthr .kf 32 (fun s c => (die s c).swapthr.setWidth 64) ∧
      reads .fltw .kf 32 (fun s c => (die s c).fltw.setWidth 64) ∧ reads .flth .kf 32 (fun s c => (die s c).flth.setWidth 64) ∧
      reads .fltt .kf 32 (fun s c => (die s c).fltt.setWidth 64) ∧
      reads .layout .kf 32 (fun s c => n ((die s c).layNew + (die s c).layOld * 2 ^ 16)) ∧
      reads .mch .f 32 (fun s c => (die s c).mch.setWidth 64) ∧ reads .mct .f 32 (fun s c => (die s c).mct.setWidth 64) ∧
      reads .fltq .kf 64 (fun s c => n ((die s c).fltSz + if (die s c).fltStall then 16 else 0) ||| (die s c).fltBase) ∧
      reads .mcq .f 64 (fun s c => n (die s c).mcSz ||| (die s c).mcBase) ∧
      reads .ctxpool .kf 64 (fun s _ => n s.module.poolCount ||| s.module.poolBase) ∧
      reads .ptroot .kf 64 (fun s c => s.rootOf c.ti) ∧ reads .asid .kf 32 (fun s c => n (s.asidOf c.ti)) ∧
      reads .owner .kf 32 (fun s c => n (s.keyOf c.ti + s.fnOf c.ti * 2 ^ 12)) ∧
      reads .capf .kf 32 (fun s c => (s.team c.ti).capf.setWidth 64) ∧ reads .ctxh .kf 64 (fun s c => s.handleOf c.ti)) ∧
    writes .cause .kf 32 (onOwn fun x b => { b with cause := lo x }) ∧ writes .epc .kf 64 (onOwn fun x b => { b with epc := low8 x }) ∧
    writes .tval .kf 64 (onOwn fun x b => { b with tval := x }) ∧ writes .status .kf 32 (onOwn fun x b => { b with pl := pl x }) ∧
    writes .kscr .kf 64 (onOwn fun x b => { b with kscr := x }) ∧
    writes .kCause .f 32 (onK fun x b => { b with cause := lo x }) ∧ writes .kEpc .f 64 (onK fun x b => { b with epc := low8 x }) ∧
    writes .kTval .f 64 (onK fun x b => { b with tval := x }) ∧ writes .kStatus .f 32 (onK fun x b => { b with pl := pl x }) ∧
    writes .kKscr .f 64 (onK fun x b => { b with kscr := x }) ∧
    writes .kvec .kf 64 (onDie fun x d => { d with kvec := low8 x }) ∧ writes .fvec .f 64 (onDie fun x d => { d with fvec := low8 x }) ∧
    writes .kroot .kf 64 (onDie fun x d => { d with kroot := x, fltRetry := true }) ∧
    writes .swapthr .kf 32 (onDie fun x d => { d with swapthr := lo x }) ∧
    writes .fltq .kf 64 (onDie fun x d => if x.toNat % 16 ≤ 10 then
      { d with fltSz := x.toNat % 16, fltBase := n (x.toNat / 4096 * 4096), fltRetry := true } else { d with fltRetry := true }) ∧
    writes .fltw .kf 32 (onDie fun x d => { d with fltw := BitVec.ofNat 32 (x.toNat % 2 ^ 21) }) ∧
    writes .flth .kf 32 (onDie fun x d => { d with flth := lo x }) ∧
    writes .capf .kf 32 (fun s c x => s.modTeam c.ti fun t => { t with capf := lo x }) ∧
    writes .ctxpool .f 64 (fun s _ x => { s with module := { s.module with poolCount := x.toNat % 2 ^ 16, poolBase := n (x.toNat / 2 ^ 23 * 2 ^ 23) } }) ∧
    writes .mch .f 32 (fun s c x => (onDie (fun x d => { d with mch := lo x }) s c x).deliverCheck (s.coreOf c.ti c.gi / 96)) ∧
    writes .mcq .f 64 (fun s c x => (onDie (fun x d =>
      { d with mcBase := n (x.toNat / 4096 * 4096), mcSz := if x.toNat % 16 ≤ 8 then x.toNat % 16 else d.mcSz }) s c x).deliverCheck
        (s.coreOf c.ti c.gi / 96))

/-- R357, R365, R378 to R382: `pfack`, `ctxsv`, `ctxld`, `tlbi` and `halt`, each for its lowest active lane but `halt`.
R388, R395, R396: `keyld` loads a key once the cached lines of its key id are out, and the `fwq` instructions pull a management request, push
its response, and activate an image. The model's choices: the other active lanes go on at once (log 48), `keyld` checks the key id before the
alignment (log 49), a halted lane stands at the next word (log 62), and what `fwq.act` finds in its image is free (log 26). -/
def Obligations.SystemAndFirmwareInstructionResults : Prop :=
  (∀ (g : Guard) (d : RegIx) (a b' : Src) (b : SrcB),
    let gives (i : Instr) (s : State) (c : Cur) (l x : ℕ) (v : State) : Prop :=
      exec i s = .next (advance (v.modThread c.ti c.gi l fun t => t.setV d.toNat (BitVec.ofNat 32 x)) c c.lanes)
    let lowest (regs : List ℕ) (claim : State → Cur → ℕ → Prop) : Prop :=
      ∀ s c l ls, Issues s c .kf g regs regs → Here s c → activeLanes s c g = l :: ls → claim s c l
    lowest (d.toNat :: srcRegs 32 a ++ srcRegs 32 b') (fun s c l =>
      let i : Instr := .pfack g d a b'
      let fid := (operand (s.thread c.ti c.gi l) 32 a).toNat
      let disp := (operand (s.thread c.ti c.gi l) 32 b').toNat
      let found := s.faults.find? fun f => f.fid == fid && f.kind != 6 && f.kind != 7
      (found = none → gives i s c l 0x01 s) ∧ ∀ f, found = some f →
        (∀ u, disp = 0 → s.retryReady f = (true, u) → gives i s c l 0x00 (u.retryFault f)) ∧
        (∀ u, disp = 0 → s.retryReady f = (false, u) → exec i s = .next (stallGroup u c)) ∧
        (disp = 1 → gives i s c l 0x00 (s.abortFault f)) ∧
        (1 < disp → gives i s c l 0x02 s)) ∧
    lowest (d.toNat :: srcRegs 64 a ++ srcRegs 32 b') (fun s c l =>
      let i : Instr := .ctxsv g d a b'
      let mode := (operand (s.thread c.ti c.gi l) 32 b').toNat
      let named := s.teamOfHandle (operand (s.thread c.ti c.gi l) 64 a)
      (named = none → gives i s c l 0x01 s) ∧ ∀ ti, named = some ti →
        let t := s.team ti
        (1 < mode → gives i s c l 0x01 s) ∧
        (mode = 1 → t.node ≠ (s.team c.ti).node → gives i s c l 0x04 (s.terminateGrid t.node)) ∧
        (mode = 1 → t.node = (s.team c.ti).node → exec i s = .next (afterMoved (s.terminateGrid t.node) c (activeLanes s c g))) ∧
        (∀ slot, mode = 0 → t.place = .saved slot → gives i s c l (0x02 + slot * 65536) (s.clearAuto slot)) ∧
        (mode = 0 → t.place = .resident → ti = c.ti → gives i s c l 0x05 s) ∧
        (mode = 0 → t.place = .resident → ti ≠ c.ti → s.freeSlotNo = none → gives i s c l 0x03 s) ∧
        (mode = 0 → t.place = .resident → ti ≠ c.ti → s.freeSlotNo ≠ none → s.activating = true →
          exec i s = .next (stallLanes s c (activeLanes s c g))) ∧
        (∀ slot, mode = 0 → t.place = .resident → ti ≠ c.ti → s.freeSlotNo = some slot → s.activating = false →
          let stopped := s.modTeam ti fun t => { t with saving := some false, groups := t.groups.map fun (g : Group) => { g with offer := none } }
          let v := (advance stopped c ((activeLanes s c g).filter fun x => x != l)).modThread c.ti c.gi l fun t =>
            { t with hold := .ctxsv d.toNat ti, waitLen := c.len }
          let pages := v.slotOpen (t.cores.getD 0 0 / 96) slot true
          (v.saveReady ti = false → exec i s = .next (afterMoved v c (activeLanes s c g))) ∧
          (v.saveReady ti = true → pages.1 = false → exec i s = .next (afterMoved pages.2 c (activeLanes s c g))) ∧
          (v.saveReady ti = true → pages.1 = true →
            ∃ u : State, exec i s = .next u ∧ (u.team ti).place = .saved slot ∧ (∃ k ∈ u.slots, k.slot = slot ∧ k.ti = ti ∧ k.auto = false)))) ∧
    lowest (d.toNat :: srcRegs 32 a) (fun s c l =>
      let i : Instr := .ctxld g d a
      let k := (operand (s.thread c.ti c.gi l) 32 a).toNat
      let die := s.die (s.coreOf c.ti c.gi / 96)
      let found := s.slots.find? fun x => x.slot == k
      (s.module.poolCount ≤ k ∨ found = none → gives i s c l 0x01 s) ∧
      ∀ x, k < s.module.poolCount → found = some x →
        let layout := s.slotLayout (s.slotDie x.ti) x
        let valid := s.slotValid (s.slotDie x.ti) x
        (valid = false → gives i s c l 0x01 s) ∧
        (valid = true → ¬(die.layOld ≤ layout ∧ layout ≤ die.layNew) → gives i s c l 0x05 s) ∧
        (valid = true → die.layOld ≤ layout → layout ≤ die.layNew → gives i s c l 0x00
          { s with slots := s.slots.map fun (x : CtxSlot) => if x.slot == k then { x with eligible := true } else x })) ∧
    (∀ (s : State) (slot : ℕ) (k : CtxSlot), (s.slots.find? fun x => x.slot == slot) = some k →
      let u : State := { s with slots := s.slots.map fun (x : CtxSlot) =>
        if x.slot == slot then { x with auto := false, eligible := x.eligible && !x.auto } else x }
      let w := u.slotWord (s.slotDie k.ti) slot 4 0
      s.clearAuto slot = u.slotWrite (s.slotDie k.ti) slot 4 (natBytes 4 (if w / 2 % 2 = 1 then w - 2 else w))) ∧
    (let ends (s : State) (c : Cur) : Prop :=
        let die := s.die (s.coreOf c.ti c.gi / 96)
        (∃ w ∈ (s.team c.ti).notify, w ≠ 0) ∨ die.fltt ≠ die.flth ∨ ((s.group c.ti c.gi).level = .f ∧ die.mct ≠ die.mch);
      Does (.halt g) .kf g [] [] (fun s c _ => ends s c) (fun s c _ => advance s c c.lanes) ∧
      Does (.halt g) .kf g [] [] (fun s c _ => ¬ends s c) (fun s c act => afterMoved (s.modLanes c.ti c.gi act fun _ t =>
        { t with pc := c.pc + BitVec.ofNat 64 c.len, hold := .halt }) c act)) ∧
    ∀ r : RegIx,
      let ctl (s : State) (c : Cur) (l : ℕ) : ℕ := (srcB32 (s.thread c.ti c.gi l) b).toNat
      let va (s : State) (c : Cur) (l : ℕ) : ℕ := (operand (s.thread c.ti c.gi l) 64 a).toNat
      let bad (n : ℕ) : Prop := n % 4 = 3 ∨ n / 4 % 4 = 3 ∨ n / 16 % 2 ^ 12 ≠ 0
      let size (n : ℕ) : ℕ := if n / 4 % 4 = 0 then 2 ^ 16 else if n / 4 % 4 = 1 then 2 ^ 21 else 2 ^ 30
      let hit (n va asid base sz : ℕ) : Prop :=
        if n % 4 = 0 then asid = n / 2 ^ 16 ∧ base < va / size n * size n + size n ∧ va / size n * size n < base + sz
        else base < 2 ^ 57 ∧ 0 < base + sz ∧ (n % 4 = 1 → asid = n / 2 ^ 16)
      let runs (s t : State) (c : Cur) (l n va : ℕ) (dies : List ℕ) : Prop :=
        (∀ e, e ∈ t.tlb ↔ e ∈ s.tlb ∧ ¬(e.die ∈ dies ∧ hit n va e.asid e.va e.size)) ∧
        (∀ e, e ∈ t.walks ↔ e ∈ s.walks ∧ ¬(e.die ∈ dies ∧ hit n va e.asid (e.page * 2 ^ e.shift) (2 ^ e.shift))) ∧
        (s.loads = [] → s.stores = [] →
          t.thread c.ti c.gi l = (({ s.thread c.ti c.gi l with waitLen := c.len } : Thread).setV d.toNat 0).resume)
      let regs := d.toNat :: srcRegs 64 a ++ srcBRegs 32 b
      lowest (regs ++ []) (fun s c l =>
        let i : Instr := .tlbi g d a b none
        (bad (ctl s c l) → gives i s c l 0x01 s) ∧
        (¬bad (ctl s c l) → ∃ t : State, exec i s = .next t ∧ runs s t c l (ctl s c l) (va s c l) [0, 1, 2, 3])) ∧
      lowest (regs ++ [r.toNat, r.toNat + 1]) (fun s c l =>
        let i : Instr := .tlbi g d a b (some r)
        let ca := ((s.thread c.ti c.gi l).d r.toNat).toNat
        (bad (ctl s c l) → gives i s c l 0x01 s) ∧
        (¬bad (ctl s c l) → ctl s c l % 4 ≠ 0 → ∃ t : State, exec i s = .next t ∧ runs s t c l (ctl s c l) (va s c l) [0, 1, 2, 3]) ∧
        (¬bad (ctl s c l) → ctl s c l % 4 = 0 →
          (∀ cause v, memChecks s (s.acx c.ti c.gi) .atom 8 [(l, ca)] = .trap cause v →
            exec i s = .next (takeTrap s c.ti c.gi c.lanes cause c.pc v)) ∧
          ∀ pa key gen s', memChecks s (s.acx c.ti c.gi) .atom 8 [(l, ca)] = .pass [(l, ca, .ok pa key gen)] s' →
            let die := s'.coreOf c.ti c.gi / 96
            let ready := s'.exchangeReady c.ti c.gi l ca pa key gen
            (ready = false → exec i s = .next (stallLanes s c (activeLanes s c g))) ∧
            (ready = true → s'.frameLive gen pa = false →
              exec i s = .next (takeTrap s c.ti c.gi c.lanes 0x08 c.pc (BitVec.ofNat 64 ca))) ∧
            (∀ v, ready = true → s'.frameLive gen pa = true → s'.access die [lineOf pa] [lineOf pa] = (false, v) → exec i s = .next (stallGroup v c)) ∧
            ∀ v, ready = true → s'.frameLive gen pa = true → s'.access die [lineOf pa] [lineOf pa] = (true, v) →
              let x := (v.markDirty (v.acx c.ti c.gi) ca).takeCompanion pa key die
              ∃ t : State, exec i s = .next t ∧
                (∀ e, e ∈ t.tlb ↔ e ∈ x.2.tlb ∧ ¬(e.die ∈ x.1 ∧ hit (ctl s c l) (va s c l) e.asid e.va e.size)))) ∧
      ∀ (s : State) (pa key die : ℕ), s.settle (lineOf pa) key = s →
        let old := bytesNat (s.cohBytes key pa 8)
        (s.takeCompanion pa key die).1 = ((List.range 4).filter fun x => old / 2 ^ x % 2 == 1 || x == die) ∧
        (s.takeCompanion pa key die).2 = s.homeWriteBytes key pa (natBytes 8 (old / 16 * 16))) ∧
  (∀ (g : Guard) (d r : RegIx) (a : Src) (b : SrcB) (force : Bool) (s : State) (c : Cur) (l : ℕ) (ls : List ℕ), activeLanes s c g = l :: ls →
    let th := s.thread c.ti c.gi l
    let x := s.acx c.ti c.gi
    let issues (regs : List ℕ) : Prop := Issues s c .f g regs regs
    let gives (i : Instr) (n : ℕ) (v : State) : Prop :=
      exec i s = .next (advance (v.modThread c.ti c.gi l fun t => t.setV d.toNat (BitVec.ofNat 32 n)) c c.lanes)
    let at' := (th.d r.toNat).toNat
    (issues (d.toNat :: srcRegs 32 a ++ srcBRegs 64 b) →
      let i : Instr := .keyld g d a b
      let key := (operand th 32 a).toNat
      let va := (operandB th 64 b).toNat
      (4095 < key → gives i 0x01 s) ∧
      (key ≤ 4095 → va % 64 ≠ 0 → exec i s = .next (takeTrap s c.ti c.gi c.lanes 0x04 c.pc (BitVec.ofNat 64 va))) ∧
      (key ≤ 4095 → va % 64 = 0 → ∀ s', s.loadRange c.ti c.gi l va 64 = (.wait, s') → exec i s = .next (stallLanes s c (activeLanes s c g))) ∧
      (key ≤ 4095 → va % 64 = 0 → ∀ cause v s', s.loadRange c.ti c.gi l va 64 = (.trap cause v, s') →
        exec i s = .next (takeTrap s c.ti c.gi c.lanes cause c.pc (BitVec.ofNat 64 v))) ∧
      (key ≤ 4095 → va % 64 = 0 → ∀ bs s', s.loadRange c.ti c.gi l va 64 = (.ok bs, s') →
        gives i 0x00 { s'.flushKey key with keys := Sparse.set 0 (s'.flushKey key).keys key (bytesNat bs) } ∧
        ((∀ e ∈ s'.cache, ∀ x ∈ e.data, lineOf x.1 = e.line) → ∀ e ∈ (s'.flushKey key).cache, e.key ≠ key))) ∧
    (issues [d.toNat, r.toNat, r.toNat + 1] →
      (s.mgmtIn = [] → gives (.fwqPull g d r) 0x01 s) ∧
      (∀ m rest ps s', s.mgmtIn = m :: rest → s.spanPages x (pagePieces at' 64) = (.ok ps, s') →
        let waits : Prop := s'.ownOpen c.ti c.gi l at' 64 ps = true ∨ s'.coreOver c.ti (s'.coreOf c.ti c.gi) at' ps = true
        (waits → exec (.fwqPull g d r) s = .next (stallLanes s c (activeLanes s c g))) ∧
        (¬waits → ∀ v, s'.access (s'.coreOf c.ti c.gi / 96) [] (pieceLines false ps) = (false, v) → exec (.fwqPull g d r) s = .next (stallGroup v c)) ∧
        (¬waits → ∀ v, s'.access (s'.coreOf c.ti c.gi / 96) [] (pieceLines false ps) = (true, v) →
          gives (.fwqPull g d r) 0x00 (State.spanWrite { v with mgmtIn := rest, mgmtDue := v.mgmtDue ++ [m] } ps m))) ∧
      (s.mgmtDue = [] → s.mgmtIn = [] → gives (.fwqPush g d r) 0x01 s) ∧
      (∀ m rest bs s', s.mgmtDue = m :: rest → s.loadRange c.ti c.gi l at' 64 = (.ok bs, s') →
        gives (.fwqPush g d r) 0x00 { s' with mgmtDue := rest, sent := s'.sent ++ [.mgmtResponse bs] }) ∧
      (∀ m rest bs s', s.mgmtDue = [] → s.mgmtIn = m :: rest → s.loadRange c.ti c.gi l at' 64 = (.ok bs, s') →
        gives (.fwqPush g d r) 0x00 { s' with mgmtIn := rest, sent := s'.sent ++ [.mgmtResponse bs] }) ∧
      ((∃ t ∈ s.teams, t.saving ≠ none) → exec (.fwqAct g d r force) s = .next (afterMoved
        ((advance s c ((activeLanes s c g).filter fun x => x != l)).modThread c.ti c.gi l fun t =>
          { t with hold := .activate d.toNat force, waitLen := c.len }) c (activeLanes s c g))) ∧
      ((∀ t ∈ s.teams, t.saving = none) →
        let k := s.freeCtr
        let old := (Config.imageOld k).toNat
        let new := (Config.imageNew k).toNat
        let u := { s with freeCtr := k + 1 }
        let bad := s.slots.filter fun e => u.slotValid (u.slotDie e.ti) e &&
          (decide (u.slotLayout (u.slotDie e.ti) e < old) || decide (new < u.slotLayout (u.slotDie e.ti) e))
        (Config.imageSigned k = false → gives (.fwqAct g d r force) 0x02 u) ∧
        (Config.imageSigned k = true → bad ≠ [] → force = false → gives (.fwqAct g d r force) (0x03 + bad.length * 65536) u) ∧
        (Config.imageSigned k = true → bad = [] → gives (.fwqAct g d r force) 0x00
          { u with dies := u.dies.map fun e => { e with layNew := new, layOld := old } }) ∧
        (Config.imageSigned k = true → bad ≠ [] → force = true → gives (.fwqAct g d r force) 0x00
          (let v := bad.foldl State.dropUnreadable u
           { v with dies := v.dies.map fun e => { e with layNew := new, layOld := old } })))))

/-! ### Events of the module, spec/15 to spec/17 -/

/-- R359, R384, R385, R430: a fault is posted when the ring is enabled, has a place and its entry can be written; an entry that lies outside the
kernel region or does not translate sets STALL and raises a check, and one whose walk or line must wait leaves the fault to a later post; a wake of a
post that finds its kettle full waits at the entry of the die. A check writes down what failed and parks its requester; it enters group 0 of the
firmware team at F, whatever its level. The model's choices: requesters that join a check get no record of their own (log 50), a report that fits
neither its die nor its line is no event (log 72), and a post or a timeout before its condition leaves the state as it is (log 65). -/
def Obligations.FaultsAndChecksPosted : Prop :=
  (∀ (s : State) (die : ℕ) (f : FaultRec), (s.faults.find? fun f => f.die == die && !f.posted && !f.check) = some f → die < s.dies.length →
    let d := s.die die
    let size := 2 ^ (d.fltSz + 6)
    let va := d.fltBase.toNat + d.fltt.toNat % size * 64
    let waits : Prop := d.fltBase = 0 ∨ (d.fltt - d.flth).toNat = size ∨ (d.fltStall = true ∧ d.fltRetry = false)
    let kernel : Prop := 2 ^ 56 ≤ va ∧ va / 2 ^ 48 % 256 = 0
    let stalls (v : State) : State :=
      let w := v.modDie die fun d => { d with fltStall := true, fltRetry := false }
      if (v.die die).fltStall then w else w.raiseCheck die (McRec.plain 6 va die)
    (waits → exec (.faultPost die) s = .next s) ∧
    (¬waits → ¬kernel → exec (.faultPost die) s = .next (stalls s)) ∧
    (∀ v, ¬waits → kernel → s.hwWrite (kernelAcx die) va f.bytes = (.none, v) → exec (.faultPost die) s = .next (stalls v)) ∧
    (∀ v, ¬waits → kernel → s.hwWrite (kernelAcx die) va f.bytes = (.later, v) → exec (.faultPost die) s = .next v) ∧
    (∀ v, ¬waits → kernel → s.hwWrite (kernelAcx die) va f.bytes = (.done, v) → die < v.dies.length →
      let told (ti : ℕ) : Wake := ⟨ti, (v.die die).fltw.toNat / 2 ^ 17 % 16, 1⟩
      ∃ t : State, exec (.faultPost die) s = .next
          ((((v.queueTeams ((v.die die).fltw.toNat % 256) ((v.die die).fltw.toNat / 256 % 512)).map told).foldl State.sendOrWait t).wakeHalted die) ∧
        t.mem = v.mem ∧ t.cache = v.cache ∧ t.teams = v.teams ∧
        t.die die = { v.die die with fltt := (v.die die).fltt + 1, fltStall := false, fltRetry := false } ∧
        (f.kind = 6 ∨ f.kind = 7 → ∀ x ∈ t.faults, x.fid ≠ f.fid) ∧
        (f.kind ≠ 6 → f.kind ≠ 7 → ∀ x ∈ t.faults, x.fid = f.fid → x.posted = true))) ∧
  (∀ (s : State) (ti ch : ℕ) (v : Word), (s.team ti).place = .resident →
    let die := (s.team ti).cores.getD 0 0 / 96
    (s.die die).gated = false → (s.die die).entry = [] → ti < s.teams.length → ch < (s.team ti).notify.length → v ≠ 0 →
    s.sendOrWait ⟨ti, ch, v⟩ = s.modTeam ti fun t =>
      ({ t with notify := t.notify.set ch (t.notify.getD ch 0 ||| v) } : Team).serveNaps ch) ∧
  (∀ (s : State) (w : Wake), s.kettleFull w = true →
    s.sendOrWait w = s.modDie ((s.team w.ti).cores.getD 0 0 / 96) fun d => { d with entry := d.entry ++ [w] }) ∧
  (∀ (s : State) (die : ℕ) (r : McRec), (s.die die).mcBase = 0 → die < s.dies.length →
    ((s.raiseCheck die r).die die).mcWait = (s.die die).mcWait ++ [{ r with syn := Config.syndrome s.freeCtr }] ∧
    (s.raiseCheck die r).mem = s.mem ∧ (s.raiseCheck die r).teams = s.teams ∧ (s.raiseCheck die r).faults = s.faults) ∧
  (let parks (s t : State) (die src pa unit : ℕ) (q : Requester) : Prop :=
      let mine (f : FaultRec) : Bool := decide (f.check = true ∧ f.die = die ∧ f.cause = src ∧ lineOf f.va = lineOf pa)
      let joined (f : FaultRec) : FaultRec :=
        if mine f = true ∧ f.handle = (q.ti.map s.handleOf).getD 0 ∧ f.grp = q.gi then { f with mask := f.mask ||| maskOf q.lanes } else f
      ((∃ f ∈ s.faults, mine f = true) ∧ t = { s with faults := s.faults.map joined }) ∨
      ((∀ f ∈ s.faults, mine f = false) ∧ ((s.die die).mcBase = 0 → die < s.dies.length →
        ∃ f r, t.faults = s.faults ++ [f] ∧ f.check = true ∧ f.fid = die * 2 ^ 30 + (s.die die).fidSeq % 2 ^ 30 ∧
          f.die = die ∧ f.cause = src ∧ f.va = pa ∧ f.mask = maskOf q.lanes ∧
          (t.die die).mcWait = (s.die die).mcWait ++ [r] ∧ r.src = src ∧ r.park = true ∧ r.fid = f.fid ∧ r.addr = BitVec.ofNat 64 pa ∧
          r.mask = maskOf q.lanes ∧ r.asid = (q.ti.map s.asidOf).getD 0 ∧ r.core = q.core ∧ r.grp = q.gi ∧ r.unit = unit))
    ∀ (s : State) (die pa : ℕ),
      (∀ src : CheckSrc,
        let code : ℕ × ℕ := match src with
          | .poison port => (1, port)
          | .unitError (.core c) => (4, c)
          | .unitError (.engine d k) => (4, 0x10000 + (d * 24 + k))
          | .unitError (.copyEngine d k) => (4, 0x10000 + (d * 24 + k))
          | .dram d ch => (5, d * 256 + ch)
        let fits : Prop := match src with
          | .poison port => s.homeDie pa = some die ∧ match locKind (locOf pa) with
            | .cxl p _ => p = port
            | _ => False
          | .unitError (.core c) => c / 96 = die
          | .unitError (.engine d _) => d = die
          | .unitError (.copyEngine d _) => d = die
          | .dram d _ => d = die ∧ devOf pa = s.module.dev ∧ locKind (locOf pa) = .dram d
        let rs := s.readersOf (lineOf pa)
        let q := match src with
          | .poison _ => some (rs.headD ⟨none, 0, 96 * die, [], true, true⟩)
          | .unitError _ => rs.find? fun q => decide (q.core / 96 = die)
          | .dram _ _ => rs.head?
        (¬fits → exec (.machineCheck die src pa) s = .next s) ∧
        (fits → q = none → exec (.machineCheck die src pa) s =
          .next (s.raiseCheck die ⟨code.1, false, 0, 0, BitVec.ofNat 64 pa, 0, 0, 0, 0, code.2, 0⟩)) ∧
        ∀ r, fits → q = some r → ∃ t, exec (.machineCheck die src pa) s = .next t ∧ parks s t die code.1 pa code.2 r) ∧
      (∀ w : PeerWait, (s.remoteWait w = none → exec (.remoteTimeout w) s = .next s) ∧ ∀ r since, s.remoteWait w = some (r, since) →
        let pa := match w with
          | .access _ pa => pa
          | .chain _ pa => pa
          | .lane _ _ _ pa => pa
          | .agent _ pa => pa
        let asked := max since (Sparse.get 0 s.againAt (lineOf pa * 4 + r.core / 96))
        ((s.die (r.core / 96)).cyc < asked + 4000000 → exec (.remoteTimeout w) s = .next s) ∧
        (asked + 4000000 ≤ (s.die (r.core / 96)).cyc →
          ∃ t, exec (.remoteTimeout w) s = .next t ∧ parks s t (r.core / 96) 2 pa (devOf pa) r)) ∧
      ∀ line h, ((line, h) ∉ s.invals → exec (.invalidationTimeout line h) s = .next s) ∧
        ((line, h) ∈ s.invals → s.homeDie (128 * line) = some die →
          let since := Sparse.get 0 s.invalAt line
          ((s.die die).cyc + 1 < since + 4000000 → exec (.invalidationTimeout line h) s = .next s) ∧
          ∀ r, since + 4000000 ≤ (s.die die).cyc + 1 → (s.writersOf line ++ s.loadersOf line true).head? = some r →
            ∃ t, exec (.invalidationTimeout line h) s = .next t ∧ parks s t die 3 (128 * line) (match h with
              | .l1 c => c
              | .rdc d => d * 96
              | .dev d => 0x8000 + d) r)) ∧
  ∀ (s : State) (die ti : ℕ) (r : McRec) (rest : List McRec) (lanes : List ℕ) (pc : DWord) (u : State),
    let d := s.die die
    let g := s.group ti 0
    let va := d.mcBase.toNat + d.mct.toNat % 2 ^ (d.mcSz + 4) * 64
    d.mcWait = r :: rest → d.fwTeam = some ti → d.mcBase ≠ 0 → (d.mct - d.mch).toNat ≠ 2 ^ (d.mcSz + 4) → g.bankF.inh = false →
    checkLanes g = some (lanes, pc) → s.hwWrite { s.acx ti 0 with level := .f } va r.bytes = (.done, u) → die < u.dies.length →
    (u.die (u.coreOf ti 0 / 96)).fvec ≠ 0 → 0 < (u.team ti).groups.length →
    let t := s.deliverCheck die
    let b := (t.group ti 0).bankF
    b.cause = 0x30 ∧ b.tval = BitVec.ofNat 64 va ∧ b.epc = pc ∧ b.tmask = maskOf lanes ∧ b.inh = true ∧ b.pl = (u.group ti 0).level ∧
    (t.group ti 0).level = .f ∧ (t.die die).mct = (u.die die).mct + 1 ∧ (t.die die).mcWait = rest ∧ t.mem = u.mem ∧
    ∀ l ∈ lanes, l < (u.group ti 0).lanes.length → (t.thread ti 0 l).pc = (u.die (u.coreOf ti 0 / 96)).fvec &&& 0xFFFFFFFFFFFFFFF8

/-- R73, R97, R98, R384, R390: an access of another module at the home slice, once the other holders of a line that it writes have acknowledged, an
invalidation, a write from behind the service port, and a unit that is mapped out: its teams are saved or their grids terminated, and the
checks about it are resolved; a map-out that would save a team waits while `fwq.act` does (R388). The model's choices: a peer's write of a register
counts as level K (log 41), a team without a slot to be saved in ends with its grid (log 53), a request over two lines is no event (log 90), and what
comes before its condition leaves the state as it is (log 65). -/
def Obligations.PeerAndUnitEvents : Prop :=
  (∀ (s : State) (dev pa key : ℕ) (op : RemoteOp),
    let i : Instr := .remoteRequest dev pa key op
    let line := lineOf pa
    let foreign : Prop := devOf pa ≠ s.module.dev ∨ s.populated pa = false ∨ dev = s.module.dev ∨ lineOf (pa + (remoteLen op - 1)) ≠ line
    let pool : Prop := isDevice pa = false ∧ s.meetsPool pa 1 = true
    let u := s.settle line key
    let old := u.cohBytes key pa
    let replies (v : State) (bs : List Byte) : Prop := exec i s = .next { v with sent := v.sent ++ [.remoteReply dev pa bs] }
    let writes : Prop := ∀ n, op ≠ .load n
    let held : Prop := s.checkHolds 4 line (match op with
      | .store _ => false
      | .drop => false
      | _ => true) (match op with
      | .load _ => false
      | _ => true) = true
    (foreign → exec i s = .next s) ∧
    (¬foreign → pool → (∀ bs, op = .store bs → replies s []) ∧ (op = .drop → replies s []) ∧
      ((∀ bs, op ≠ .store bs) → op ≠ .drop → exec i s = .next { s with sent := s.sent ++ [.remoteFail dev pa 0x08] })) ∧
    (¬foreign → isDevice pa = true → (∀ n, op = .load n → replies s (s.devRead (locOf pa) n)) ∧
      ∀ bs, op = .store bs → replies (s.devWrite .kernel (locOf pa) bs) []) ∧
    (¬foreign → isDevice pa = true → writes → (∀ bs, op ≠ .store bs) → exec i s = .next s) ∧
    (¬foreign → isDevice pa = false → ¬pool → held → exec i s = .next s) ∧
    (¬foreign → isDevice pa = false → ¬pool → ¬held →
      (∀ n, op = .load n → replies ((u.touchL2 key line).recordHolder line (.dev dev)) (old n)) ∧
      ((∃ h ∈ s.holders line, h ≠ .dev dev) → writes → ∃ t : State, exec i s = .next t ∧
        t.mem = s.mem ∧ t.cache = s.cache ∧ t.sent = s.sent ∧ ∀ h ∈ s.holders line, h ≠ .dev dev → (line, h) ∈ t.invals) ∧
      ((∀ h ∈ s.holders line, h = .dev dev) → (∀ i ∈ s.invals, i.1 ≠ line) →
        let put (bs : List (Option Byte)) : State :=
          let v := (u.takeLine key line).homeWrite key (liveCells pa bs)
          if .dev dev ∈ u.holders line then v.recordHolder line (.dev dev) else v
        (∀ bs, op = .store bs → replies (put bs) []) ∧
        (∀ a sg w ls, op = .atom a sg w ls →
          let n := if w then 8 else 4
          let r := ls.foldl (fun (r : List Byte × List Byte) x =>
            (natBytes n (applyAtom a sg (8 * n) (BitVec.ofNat 64 (bytesNat r.1)) x.1 x.2).toNat, r.2 ++ natBytes n (BitVec.ofNat 64 (bytesNat r.1)).toNat))
            (old n, [])
          replies (put (r.1.map some)) r.2) ∧
        (∀ w ls, op = .bound w ls →
          let n := if w then 8 else 4
          let r := ls.foldl (fun (r : List Byte × List Byte) x =>
            (if bytesNat r.1 % 2 ^ (8 * n) < x.toNat % 2 ^ (8 * n) then natBytes n ((BitVec.ofNat 64 (bytesNat r.1)).toNat + 1) else r.1,
              r.2 ++ natBytes n (BitVec.ofNat 64 (bytesNat r.1)).toNat)) (old n, [])
          replies (put (r.1.map some)) r.2) ∧
        (∀ norm k ls, op = .topk norm k ls →
          let r := ls.foldl (fun (r : List Byte × List Byte) x =>
            let q := topkStep norm k r.1 (BitVec.ofNat 32 x.1.toNat) x.2.toNat
            (q.1, r.2 ++ natBytes 4 q.2.toNat)) (old 64, [])
          replies (put (r.1.map some)) r.2) ∧
        (op = .drop → replies (u.discardLine line) [])))) ∧
  (∀ (s : State) (line : ℕ) (h : Holder),
    ((line, h) ∈ s.invals → ∃ t : State, exec (.invalidation line h) s = .next t ∧ (∀ x ∈ s.invals.erase (line, h), x ∈ t.invals) ∧
      ((∀ e ∈ s.cache, e.line = line → e.dirty = false) → s.evicting line = false → t.invals = s.invals.erase (line, h)) ∧ t.teams = s.teams ∧
      (∀ c, h = .l1 c → ∀ e ∈ t.cache, e.lvl = .l1 c → e.line ≠ line) ∧
      (∀ d, h = .rdc d → ∀ e ∈ t.cache, e.line = line → e.lvl ≠ .rdc d ∧ ∀ c, c / 96 = d → e.lvl ≠ .l1 c)) ∧
    ((line, h) ∉ s.invals → devOf (128 * line) = s.module.dev → exec (.invalidation line h) s = .next s) ∧
    ((line, h) ∉ s.invals → devOf (128 * line) ≠ s.module.dev →
      exec (.invalidation line h) s = .next { s with sent := s.sent ++ [.invalAck line h], cache := s.cache.filter fun e => e.line != line })) ∧
  (∀ (s : State) (pa : ℕ) (bs : List Byte),
    let lines := dedupNat ((addrs pa bs.length).map lineOf)
    let own := s.ownLines lines
    let good : Prop := s.module.ready = true ∧ devOf pa = s.module.dev ∧ s.populated pa = true ∧ isDevice pa = false ∧
      ∀ l ∈ lines, s.checkHolds 4 l false true = false
    (¬good → exec (.servicePortWrite pa bs) s = .next s) ∧ (good → own.2 = true → exec (.servicePortWrite pa bs) s = .next own.1) ∧
    (good → own.2 = false → (∀ j, j < bs.length → s.populated (pa + j) = true ∧ s.meetsPool (pa + j) 1 = false) →
      exec (.servicePortWrite pa bs) s = .next (own.1.rawWrite pa bs)) ∧
    (good → own.2 = false → (∀ j, j < bs.length → s.meetsPool (pa + j) 1 = true) → exec (.servicePortWrite pa bs) s = .next own.1) ∧
    (own.2 = true ↔ ∃ l ∈ lines, s.holders l ≠ [] ∨ ∃ i ∈ s.invals, i.1 = l) ∧ (∀ l ∈ lines, ∀ h ∈ s.holders l, (l, h) ∈ own.1.invals) ∧
    own.1.mem = s.mem ∧ own.1.cache = s.cache) ∧
  ∀ (s : State) (u : UnitId) (saved : Bool),
    let cores : List ℕ := match u with
      | .core c => [c]
      | .engine d k => (List.range 4).map (4 * (24 * d + k) + ·)
      | .copyEngine d k => (List.range 4).map (4 * (24 * d + k) + ·)
    let clus : List ℕ := match u with
      | .core _ => []
      | .engine d k => [24 * d + k]
      | .copyEngine d k => [24 * d + k]
    let m := s.module
    let newCores := cores.filter fun c => decide (c ∉ m.outCores ∧ c < 384)
    let newClus := clus.filter fun k => decide (k ∉ m.outClus ∧ k < 96)
    let v : State := { s with module := { m with
      outCores := m.outCores ++ newCores, outClus := m.outClus ++ newClus, repl := true,
      ucores := m.ucores - (newCores.filter fun c => decide (c % 96 ≠ 0)).length, clus := m.clus - newClus.length } }
    let leaving := (List.range s.teams.length).filter fun ti =>
      decide ((s.team ti).place = .resident ∧ (∀ d ∈ s.dies, d.fwTeam ≠ some ti) ∧ ∃ c ∈ (s.team ti).cores, c ∈ cores)
    let held : Prop := saved = true ∧ s.activating = true ∧ leaving ≠ []
    (held → exec (.unitMapOut u saved) s = .next s) ∧
    (¬held → exec (.unitMapOut u saved) s = .next (State.settleSaves (State.unitChecksGone (leaving.foldl
      (fun t ti => t.evacuate saved ti) v) cores clus))) ∧
    ∀ t : State,
      (∀ ti, (t.team ti).place = .resident →
        (t.freeSlotNo ≠ none → saved = true → t.evacuate saved ti = t.modTeam ti fun x =>
          { x with saving := some true, groups := x.groups.map fun (g : Group) => { g with offer := none } }) ∧
        (t.freeSlotNo = none ∨ saved = false → t.evacuate saved ti = t.terminateGrid (t.team ti).node)) ∧
      t.unitChecksGone cores clus = (t.faults.filter fun f => decide (f.check = true ∧
        ((f.cause = 4 ∧ (f.slot ∈ cores ∨ ∃ k ∈ clus, f.slot = 0x10000 + k)) ∨ (f.cause = 3 ∧ f.slot ∈ cores)))).foldl State.retryFault t

/-- R330 to R337: the doorbell and the enabling of a queue, who may write its registers, and what each packet does at the head of a queue that
runs: LAUNCH makes a node, which starts in its turn, WAIT and SIGNAL wait for their conditions, PRED takes one arm. The model's choices: PRED waits
until its arms lie before TAIL (log 31), a grid of pairs may have half of UCORES teams (log 44), a write of BASE drops its low six bits (log 93), and a
packet out of its turn leaves the state as it is (log 65). -/
def Obligations.QueueAndPacketResults : Prop :=
  ∀ (s : State) (q : ℕ),
    let x := s.queue q
    (∀ tail, let long : Prop := x.en = true ∧ x.halt = false ∧ 2 ^ (x.qsz + 6) < (tail - x.head).toNat
      (long → exec (.queueDoorbell q tail) s = .next (s.modQueue q fun x => { x with tail := tail, halt := true, err := 0x07 })) ∧
      (¬long → exec (.queueDoorbell q tail) s = .next (s.modQueue q fun x => { x with tail := tail }))) ∧
    (x.en = false → (x.tail - x.head).toNat ≤ 2 ^ (x.qsz + 6) → ∃ t : State, exec (.queueEnable q) s = .next t ∧
      t.queue q = { x with en := true, halt := false, block := .free } ∧ t.teams = s.teams ∧
      ∀ n ∈ t.nodes, n.q = q → n.st ≠ .waiting) ∧
    (∀ w loc bytes,
      (∀ off f, devBlock loc = some (.queue q off) → w = .tenant f → x.fn ≠ f → exec (.registerWrite w loc bytes) s = .next s) ∧
      (devBlock loc = some (.queue q 0) → bytes.length = 8 → (w = .kernel ∧ x.en = false → exec (.registerWrite w loc bytes) s =
          .next (s.modQueue q fun x => { x with base := BitVec.ofNat 64 (bytesNat bytes / 64 * 64) })) ∧
        ((w = .phys ∨ w = .user ∨ (w = .kernel ∧ x.en = true)) → exec (.registerWrite w loc bytes) s = .next s)) ∧
      (devBlock loc = some (.queue q 0x14) → bytes.length = 4 → (w = .kernel ∨ (w = .tenant x.fn ∧ x.fn ≠ 0 ∧ s.module.ready = true)) →
        exec (.registerWrite w loc bytes) s = exec (.queueDoorbell q (BitVec.ofNat 32 (bytesNat bytes))) s) ∧
      (devBlock loc = none → exec (.registerWrite w loc bytes) s = .next s)) ∧
    (let stop (i : Instr) (u : State) (err : ℕ) : Prop := exec i s = .next (u.modQueue q fun x => { x with halt := true, err := err })
      let turn : Prop := s.module.ready = true ∧ x.en = true ∧ x.halt = false ∧ ∀ n ∈ s.nodes, n.q = q → n.st ≠ .waiting
      let goes (i : Instr) (u : State) (n : ℕ) : Prop :=
        exec i s = .next (u.modQueue q fun x => { x with head := x.head + BitVec.ofNat 32 n, block := .free })
      let reads (addr : DWord) (v : Via) (u : State) : Prop := s.readVia (s.qAcx q) addr.toNat 4 = (v, u)
      (∀ p, let i : Instr := .launch q p
        (¬turn → exec i s = .next s) ∧
        (turn → p.ok = true → p.nteam.toNat ≤ (if p.pair then s.module.ucores / 2 else s.module.ucores) → ∃ n : Node,
          exec i s = .next { s with nodes := s.nodes ++ [n] } ∧ n.q = q ∧ n.p = p ∧ n.st = .waiting ∧ n.asid = x.asid ∧ n.key = x.key ∧
          n.fn = x.fn ∧ n.ptroot = x.ptroot) ∧
        (turn → p.ok = false ∨ (if p.pair then s.module.ucores / 2 else s.module.ucores) < p.nteam.toNat → stop i s 0x03)) ∧
      ∀ (addr : DWord) (value : Word) (sys ne : Bool) (na nb : ℕ), turn →
        let w : Instr := .wait q addr value
        let sg : Instr := .signal q sys addr value
        let pr : Instr := .pred q ne na nb addr value
        let ends (b : Via) (i : Instr) : Prop := ∀ u, reads addr b u → u.queue q = x → x.arms = [] →
          match b with
          | .fault => stop i u 0x04
          | .later => exec i s = .next u
          | .got bs => (value.toNat ≤ bytesNat bs → goes i u 1) ∧
              (bytesNat bs < value.toNat → exec i s = .next (u.modQueue q fun x => { x with block := .waitWord addr value (u.die x.die).cyc }))
        (addr.toNat % 4 ≠ 0 → stop w s 0x03 ∧ stop sg s 0x03 ∧ stop pr s 0x03) ∧
        (addr.toNat % 4 = 0 → ∀ b, ends b w ∧ (∀ c, x.block = .waitWord addr value c → ends b (.waitRecheck q))) ∧
        (x.block = .free → exec (.waitRecheck q) s = .next s) ∧
        (addr.toNat % 4 = 0 →
          let due : Prop := (∀ n ∈ s.nodes, n.q = q → n.st = .complete) ∧ s.nodesAcked q (if sys then .sys else .dom) = true
          (¬due → exec sg s = .next s) ∧
          ∀ v u, due → s.writeVia (s.qAcx q) addr.toNat (natBytes 4 value.toNat) = (v, u) →
            (v = .fault → stop sg u 0x04) ∧ (v = .later → exec sg s = .next u) ∧
            ∀ bs, v = .got bs → u.queue q = x → x.arms = [] → goes sg u 1) ∧
        (addr.toNat % 4 = 0 → na ≤ 127 → nb ≤ 127 → (x.backlog < 1 + na + nb → exec pr s = .next s) ∧
          (1 + na + nb ≤ x.backlog → ∀ u, (reads addr .fault u → stop pr u 0x04) ∧ (reads addr .later u → exec pr s = .next u)) ∧
          (1 + na + nb ≤ x.backlog → ∀ bs u, reads addr (.got bs) u → u.queue q = x → x.arms = [] →
            let takeA : Prop := (bytesNat bs = value.toNat) ≠ (ne = true)
            (takeA → 0 < na → exec pr s = .next (u.modQueue q fun x =>
              { x with head := x.head + 1, block := .free, arms := [(x.head + BitVec.ofNat 32 (1 + na), BitVec.ofNat 32 nb)] })) ∧
            (takeA → na = 0 → goes pr u (1 + nb)) ∧ (¬takeA → goes pr u (1 + na)))))

/-- R106, R333, R334, R338, R340: a node starts when its turn has come and its arenas exist: its teams wait for placement, numbered from 0. A team is
placed only where its core, or both of a pair, can hold it, and no team ahead of it fits anywhere, with empty rows, its entry PC and its claims. One
that has been tried is ahead of a fresh one that has not, and one to be restored is ahead of every fresh team whose PRIO is no higher. The model's
choices: a node that cannot start counts as complete and terminated (log 66), one team of a grid to a core (log 43), a team to be restored counts as
one that waits already (log 103), and an event before its condition leaves the state as it is (log 65). -/
def Obligations.NodesStartedAndTeamsPlaced : Prop :=
  (∀ (s : State) (k : ℕ) (n : Node), s.nodes[k]? = some n → n.st = .waiting → s.queueRuns n.q = true →
    let early : Prop := n.p.after = true ∧ ∃ i m, i < k ∧ s.nodes[i]? = some m ∧ m.q = n.q ∧ m.st ≠ .complete
    (early → exec (.nodeStart k) s = .next s) ∧
    (¬early → s.arenasNever n.p = true → ∃ t : State, exec (.nodeStart k) s = .next t ∧ (t.queue n.q).halt = true ∧ (t.queue n.q).err = 0x03 ∧
      t.teams = s.teams ∧ ∀ m, t.nodes[k]? = some m → m.st = .complete ∧ m.terminated = true) ∧
    (¬early → s.arenasNever n.p = false → s.createArenas k n (areqs n.p) = none → exec (.nodeStart k) s = .next s) ∧
    ∀ made u v, ¬early → s.arenasNever n.p = false → s.createArenas k n (areqs n.p) = some (made, u) →
      (u.writeHandles (n.acx (s.queue n.q).die) n.p.args.toNat made = (.later, v) →
        exec (.nodeStart k) s = .next { s with invals := v.invals, invalAt := v.invalAt, unanswered := v.unanswered }) ∧
      (u.writeHandles (n.acx (s.queue n.q).die) n.p.args.toNat made = (.fault, v) → ∃ t : State, exec (.nodeStart k) s = .next t ∧
        (t.queue n.q).halt = true ∧ (t.queue n.q).err = 0x04 ∧ t.teams = v.teams ∧ ∀ a ∈ t.arenas, a.node ≠ k) ∧
      (∀ bs, u.writeHandles (n.acx (s.queue n.q).die) n.p.args.toNat made = (.got bs, v) → v.nodes = s.nodes → ∃ (t : State) (new : List Team),
        exec (.nodeStart k) s = .next t ∧ t.teams = v.teams ++ new ∧ new.length = n.p.nteam.toNat ∧ t.mem = v.mem ∧
        (∀ (i : ℕ) (x : Team), new[i]? = some x → x.num = i ∧ x.node = k ∧ x.place = .waiting ∧ x.scr = n.p.scr.toNat ∧ x.acc0 = 16 * n.p.acc.toNat ∧
          x.capf = n.p.capf ∧ x.groups = [] ∧ x.tried = false) ∧
        ∀ m, t.nodes[k]? = some m → m.st = .running ∧ m.arenas = made.map fun y => y.2.die * 65536 + y.2.slot)) ∧
  (∀ (s : State) (a b : ℕ), (s.team b).place = .waiting → (s.team a).node < 2 ^ 32 → (s.team a).num < 512 →
    let prio (ti : ℕ) : ℕ := match s.nodes[(s.team ti).node]? with
      | some n => n.p.prio.toNat
      | none => 0
    ((s.team b).tried = false → (s.team a).place = .waiting → (s.team a).tried = true → s.placeKey a < s.placeKey b) ∧
    ((s.team a).place ≠ .waiting → (s.team b).tried = false ∨ prio b ≤ prio a → s.placeKey a < s.placeKey b) ∧
    ((s.team a).place = .waiting → (s.team a).tried = (s.team b).tried → prio b < prio a → s.placeKey a < s.placeKey b)) ∧
  ∀ (s : State) (ti : ℕ) (n : Node) (cores : List ℕ), s.nodes[(s.team ti).node]? = some n → (s.team ti).place = .waiting →
    s.placeNow ti = some cores → ti < s.teams.length →
    let t := s.team ti
    n.st = .running ∧ (∀ o, o < s.teams.length → s.waitsForCore o = true → s.placeKey o < s.placeKey ti → s.spot o = none) ∧
    (∀ c ∈ cores, c % 96 ≠ 0 ∧ c ∉ s.module.outCores ∧ c / 4 ∉ s.module.outClus ∧
      (s.teams.filter fun o => decide (o.place = .resident ∧ c ∈ o.cores)).length ≤ 3 ∧
      (∀ o ∈ s.teams, o.place = .resident → c ∈ o.cores → o.node ≠ t.node ∧ t.scr = 0 ∧ Sparse.get 0 s.carve c = 0)) ∧
    t.acc0 ≤ s.freeRows (cores.headD 0 / 4) ∧ (n.p.pair = true → ∃ c, cores = [c, c + 1]) ∧ (n.p.pair = false → ∃ c, cores = [c]) ∧
    ∃ u : State, exec (.teamPlacement ti) s = .next (u.settleGrid t.node) ∧
      let x := u.team ti
      x.place = .resident ∧ x.cores = cores ∧ x.rows = addrs s.nextId t.acc0 ∧ x.groups.length = n.p.ngrp.toNat + 1 ∧ x.num = t.num ∧
      (∀ c ∈ cores, Sparse.get 0 u.carve c = t.scr) ∧
      ∀ g ∈ x.groups, g.level = (if n.fn = 0 ∧ n.asid = 0 then .k else .u) ∧ g.blocks = n.p.regs.toNat ∧ g.lanes.length = 16 * 2 ^ n.p.gw.toNat ∧
        ∀ l ∈ g.lanes, l.pc = n.p.entry &&& 0xFFFFFFFFFFFFFFF8 ∧ l.regs = [] ∧ l.qf = [] ∧ l.lr = 0 ∧ l.claim = n.p.regs.toNat ∧ l.exited = false ∧ l.hold = .none

/-- R298, R302, R339, R340, R366 to R371: the dispenser gives the next item of a node to a team, or keeps it at its source; a team that waits too long
is swapped out and becomes eligible after a time; a saved team is restored in its turn once its slot can be read, and asks for rows where they alone
are missing. A save writes registers, `lr`, PCs, held items, bank registers and accumulator rows at their places of the slot, and a restore takes
them from there: they come back as they were saved. A selection picks a starving thread first. The model's choices: the items of a list go round
robin whatever AFN is (log 38), and an event before its condition leaves the state as it is (log 65). -/
def Obligations.ItemsTeamsAndRunsChosen : Prop :=
  (∀ (s : State) (k : ℕ) (n : Node), s.nodes[k]? = some n →
    (n.st ≠ .running ∨ (n.blocked = none ∧ n.srcDone = true) → exec (.itemDispatch k) s = .next s) ∧
    (∀ it, n.st = .running → n.blocked = some it → exec (.itemDispatch k) s = .next ((s.dispatchItem k it).settleGrid k)) ∧
    (n.st = .running → n.blocked = none → n.srcDone = false → n.p.list = false →
      let i := n.produced
      let x := i % n.p.nx.toNat
      let y := i / n.p.nx.toNat % n.p.ny.toNat
      let z := i / n.p.nx.toNat / n.p.ny.toNat
      let coord := if n.p.lsrc = 0 then 0 else if n.p.lsrc = 1 then x else if n.p.lsrc = 2 then y else z
      exec (.itemDispatch k) s = .next ((s.dispatchItem k
        ⟨BitVec.ofNat 64 (z % 2 ^ 16 * 2 ^ 48 + y % 2 ^ 24 * 2 ^ 24 + x % 2 ^ 24), (n.p.lbl.toNat + coord) % 2 ^ 24, n.p.cls.toNat,
          if n.p.hash then s.hashTeam k n x y z else n.robin % n.p.nteam.toNat⟩).settleGrid k)) ∧
    (n.st = .running → n.blocked = none → n.srcDone = false → n.p.list = true →
      let read := s.readRange (n.acx (s.queue n.q).die) (n.p.isrc.toNat + 16 * n.produced) 16
      (∀ u, read = (.later, u) → exec (.itemDispatch k) s = .next u) ∧
      (∀ u, read = (.fault, u) → ∃ t : State, exec (.itemDispatch k) s = .next (t.settleGrid k) ∧ (t.queue n.q).halt = true ∧
        (t.queue n.q).err = 0x04 ∧ ∀ m, t.nodes[k]? = some m → m.srcDone = true) ∧
      ∀ bs u, read = (.got bs, u) →
        let w := bytesNat (bs.drop 8)
        let cls := w / 2 ^ 24 % 4
        (2 ^ 26 ≤ w → ∃ t : State, exec (.itemDispatch k) s = .next (t.settleGrid k) ∧ (t.queue n.q).halt = true ∧ (t.queue n.q).err = 0x02 ∧
          ∀ m, t.nodes[k]? = some m → m.srcDone = true) ∧
        (w < 2 ^ 26 → cls ≠ 3 → exec (.itemDispatch k) s = .next ((u.dispatchItem k
          ⟨BitVec.ofNat 64 (bytesNat (bs.take 8)), w % 2 ^ 24, cls, n.robin % n.p.nteam.toNat⟩).settleGrid k)) ∧
        (w < 2 ^ 26 → cls = 3 → ∃ t : State, exec (.itemDispatch k) s = .next (t.settleGrid k) ∧ t.teams = u.teams ∧
          (u.nodes[k]? = some n → ∀ m, t.nodes[k]? = some m → m.produced = n.produced + 1 ∧ m.robin = n.robin)))) ∧
  (∀ (s : State) (k : ℕ) (it : Item) (n : Node), s.nodes[k]? = some n →
    let team := if it.cls = 0 then it.seq else it.label * 0x9E3779B1 % 2 ^ 32 * n.p.nteam.toNat / 2 ^ 32
    ((∀ x ∈ s.teams, x.node = k → x.num ≠ team) → s.dispatchItem k it = s.modNode k fun n => { n with blocked := some it }) ∧
    ∀ u, s.route k it.seq it.payload it.label it.cls = some u → u.nodes = s.nodes → ∀ m, (s.dispatchItem k it).nodes[k]? = some m →
      m.produced = n.produced + 1 ∧ m.blocked = none ∧ m.robin = (if it.cls = 0 then n.robin + 1 else n.robin)) ∧
  (∀ (s : State) (ti : ℕ),
    let t := s.team ti
    let thr := (s.die (t.cores.getD 0 0 / 96)).swapthr.toNat
    (s.swaps ti = true → t.place = .resident ∧ thr ≠ 0 ∧ thr < t.waitCount ∧ s.wanted ti = true ∧ ∀ gi l, gi < t.groups.length →
      l < (t.group gi).lanes.length → (s.thread ti gi l).exited = true ∨ s.canIssue ti gi l = false) ∧
    (s.swaps ti = false → exec (.longWaitSwap ti) s = .next s) ∧
    (∀ slot, s.swaps ti = true → s.freeSlotNo = some slot →
      let v := s.modTeam ti fun t => { t with saving := some true, groups := t.groups.map fun (g : Group) => { g with offer := none } }
      let pages := v.slotOpen (t.cores.getD 0 0 / 96) slot true
      (v.saveReady ti = false → exec (.longWaitSwap ti) s = .next v) ∧
      (v.saveReady ti = true → pages.1 = false → exec (.longWaitSwap ti) s = .next pages.2) ∧
      (v.saveReady ti = true → pages.1 = true → ∃ u : State, exec (.longWaitSwap ti) s = .next u ∧
        (u.team ti).place = .saved slot ∧ ∃ k ∈ u.slots, k.slot = slot ∧ k.ti = ti ∧ k.auto = true))) ∧
  (∀ (s : State) (slot : ℕ), (s.slots.find? fun k => k.slot == slot) = none →
    exec (.swapRestoreTimeout slot) s = .next s ∧ exec (.teamRestore slot) s = .next s) ∧
  (∀ (s : State) (slot : ℕ) (k : CtxSlot), (s.slots.find? fun k => k.slot == slot) = some k →
    let t := s.team k.ti
    let thr := (s.die (t.cores.getD 0 0 / 96)).swapthr.toNat
    let now := (s.die (t.cores.getD 0 0 / 96)).cyc
    (∀ c, t.savedAt = some c → k.auto = true → c + 4 * thr ≤ now → ∃ u : State, exec (.swapRestoreTimeout slot) s = .next u ∧
      (∀ x ∈ u.slots, x.ti = k.ti → x.auto = true → x.eligible = true) ∧ u.teams = s.teams) ∧
    (∀ c, t.savedAt = some c → now < c + 4 * thr → exec (.swapRestoreTimeout slot) s = .next s) ∧
    ((∀ old, t.place ≠ .saved old) → exec (.teamRestore slot) s = .next s) ∧
    (∀ old, t.place = .saved old → s.placeNow k.ti = none →
      let v := { s with acgQ := s.acgQ.filter fun r => r.ti != k.ti }
      let asked := (v.spots k.ti).find? (v.coresFit (v.need k.ti))
      let looked (x : State) : State := ((s.acgQ.filter fun r => r.ti == k.ti).map fun r => r.clu).foldl State.tryRows x
      (v.waitsForCore k.ti = false ∨ v.spot k.ti ≠ none ∨ asked = none → exec (.teamRestore slot) s = .next (looked v)) ∧
      ∀ cores, v.waitsForCore k.ti = true → v.spot k.ti = none → asked = some cores → exec (.teamRestore slot) s = .next (looked { v with
        acgQ := v.acgQ ++ [⟨cores.headD 0 / 4, v.saveAge k.ti, cores.headD 0, k.ti, 0, (v.team k.ti).rows.length, 0, []⟩] })) ∧
    (∀ old cores, t.place = .saved old → s.placeNow k.ti = some cores →
      let live := s.faults.map fun f => f.fid
      let pages := s.slotOpen (t.cores.getD 0 0 / 96) slot false
      let walked := pages.2.walkAll k.ti (cores.headD 0 / 96) (pages.2.againPages k.ti fun fid => !live.contains fid)
      s.restorable k.ti = true ∧ (pages.1 = false → exec (.teamRestore slot) s = .next pages.2) ∧
      (pages.1 = true → walked.1 = false → exec (.teamRestore slot) s = .next walked.2) ∧
      (pages.1 = true → walked.1 = true → exec (.teamRestore slot) s = .next (walked.2.restoreTeam k.ti slot cores)))) ∧
  (let vAt (gi l r : ℕ) : ℕ := 0x60000 + (16 * gi + r / 16) * 0x1000 + 256 * (r % 16) + 4 * l
    let shAt (gi b l r : ℕ) : ℕ := 0x20000 + (2 * gi + b) * 0x2000 + 256 * r + 4 * l
    let code (l : Level) : ℕ := match l with
      | .u => 0
      | .k => 1
      | .f => 2
    let bank (g : Group) (b : Bank) : List Byte :=
      natBytes 8 (code b.pl + code g.level * 4 + if b.inh then 16 else 0) ++ natBytes 8 b.cause.toNat ++ natBytes 8 b.epc.toNat ++
        natBytes 8 b.tval.toNat ++ natBytes 8 b.tmask.toNat ++ natBytes 8 b.kscr.toNat
    (∀ (s : State) (ti layout : ℕ) (auto : Bool) (gi l : ℕ), gi < (s.team ti).groups.length → l < (s.group ti gi).lanes.length →
      let image := s.saveImage ti layout auto
      let x := s.thread ti gi l
      let g := s.group ti gi
      (∀ e ∈ x.regs, (vAt gi l e.1, natBytes 4 e.2.toNat) ∈ image) ∧ (0x10200 + gi * 0x1000 + 8 * l, natBytes 8 x.lr.toNat) ∈ image ∧
      (∀ e ∈ x.shadowK.regs, (shAt gi 0 l e.1, natBytes 4 e.2.toNat) ∈ image) ∧ (∀ e ∈ x.shadowF.regs, (shAt gi 1 l e.1, natBytes 4 e.2.toNat) ∈ image) ∧
      (0x10000 + gi * 0x1000 + 8 * l, natBytes 8 (x.pc.toNat / 8 * 8 + (if x.yielded then 1 else 0) + (if x.exited then 2 else 0) +
        if x.fetchPark.isSome then 4 else 0)) ∈ image ∧
      (∀ i, x.item = some i → (0x3C2000 + 16 * (64 * gi + l), natBytes 8 i.payload.toNat ++ natBytes 4 (i.label + i.cls * 2 ^ 24) ++
        natBytes 4 i.seq) ∈ image) ∧
      (0x10D00 + gi * 0x1000, bank g g.bankK) ∈ image ∧ (0x10D40 + gi * 0x1000, bank g g.bankF) ∈ image ∧
      ∀ k id, (s.team ti).rows[k]? = some id → (0x360000 + k * 0x310, (s.accRow id).image) ∈ image) ∧
    (∀ (s : State) (ti slot : ℕ) (auto : Bool), ti < s.teams.length →
      let u := s.saveTeam ti slot auto
      (u.team ti).place = .saved slot ∧ (∃ k ∈ u.slots, k.slot = slot ∧ k.ti = ti ∧ k.auto = auto) ∧ (u.team ti).rows = (s.team ti).rows ∧
      (∀ id ∈ (s.team ti).rows, id < s.nextId → u.accRow id = s.accRow id) ∧
      ∀ gi, (u.group ti gi).level = (s.group ti gi).level ∧ (u.group ti gi).bankK = (s.group ti gi).bankK ∧
        (u.group ti gi).bankF = (s.group ti gi).bankF ∧ ∀ l,
          let x := s.thread ti gi l
          let y := u.thread ti gi l
          y.regs = x.regs ∧ y.qf = x.qf ∧ y.lr = x.lr ∧ y.pc = x.pc ∧ y.item = x.item ∧ y.shadowK = x.shadowK ∧ y.shadowF = x.shadowF) ∧
    (∀ (s : State) (ti slot : ℕ),
      let p := s.slotPages ((s.team ti).cores.getD 0 0 / 96) slot
      let v := p.2
      let get := v.slotGet p.1
      let image := (v.liveParts ti).flatten
      let back := s.slotBack ti slot
      (∀ k, k < 67 → (p.1.getD k none).isSome = true) → (v.team ti).groups.length ≤ 16 →
      (∀ x ∈ image, ∀ j n, j + n ≤ x.2.length → get (x.1 + j) n 0 = bytesNat ((x.2.drop j).take n)) →
      (∀ gi l, gi < (v.team ti).groups.length → l < (v.group ti gi).lanes.length →
        let x := v.thread ti gi l
        let y := back.thread ti gi l
        (∀ r, r < 256 → (x.v r ≠ 0 ∨ get (vAt gi l r) 4 0 = 0) → y.v r = x.v r) ∧
        (∀ r, r < 16 → (Sparse.get 0 x.shadowK.regs r ≠ 0 ∨ get (shAt gi 0 l r) 4 0 = 0) → Sparse.get 0 y.shadowK.regs r = Sparse.get 0 x.shadowK.regs r) ∧
        (∀ r, r < 16 → (Sparse.get 0 x.shadowF.regs r ≠ 0 ∨ get (shAt gi 1 l r) 4 0 = 0) → Sparse.get 0 y.shadowF.regs r = Sparse.get 0 x.shadowF.regs r) ∧
        y.lr = x.lr ∧ (x.pc.toNat % 8 = 0 → y.pc = x.pc) ∧ y.yielded = x.yielded ∧ y.exited = x.exited ∧
        (∀ i, x.item = some i → i.label < 2 ^ 24 → i.cls < 4 → i.seq < 2 ^ 32 → y.item = some i)) ∧
      (∀ gi, gi < (v.team ti).groups.length →
        let g := v.group ti gi
        let h := back.group ti gi
        let same (a b : Bank) : Prop := a.pl = b.pl ∧ a.inh = b.inh ∧ a.cause = b.cause ∧ (b.epc.toNat % 8 = 0 → a.epc = b.epc) ∧ a.tval = b.tval ∧
          a.tmask = b.tmask ∧ a.kscr = b.kscr
        h.level = g.level ∧ same h.bankK g.bankK ∧ same h.bankF g.bankF) ∧
      ((v.team ti).rows.Nodup → (v.team ti).rows.length ≤ 256 → ∀ id ∈ (v.team ti).rows, imageOk (v.accRow id).image = true →
        back.accRow id = AccRow.ofImage (v.accRow id).image)) ∧
    ∀ (s : State) (ti slot : ℕ) (cores : List ℕ), ti < s.teams.length → (s.team ti).reqs = [] →
      let back := s.slotBack ti slot
      let t := s.restoreTeam ti slot cores
      (t.team ti).place = .resident ∧ (t.team ti).cores = cores ∧ (t.team ti).rows = (back.team ti).rows ∧ ∀ gi,
        (t.group ti gi).bankK = (back.group ti gi).bankK ∧ (t.group ti gi).bankF = (back.group ti gi).bankF ∧ ∀ l,
          let x := back.thread ti gi l
          let y := t.thread ti gi l
          y.regs = x.regs ∧ y.lr = x.lr ∧ y.shadowK = x.shadowK ∧ y.shadowF = x.shadowF ∧
            (x.hold = .none → y.pc = x.pc)) ∧
  ∀ (s : State) (ti gi : ℕ),
    let g := s.group ti gi
    let ready := s.readyLanes ti gi
    let run := (((s.selectRun ti gi).group ti gi).offer).getD []
    (s.groupRuns ti = true → g.offer = none → (∃ l ∈ ready, 64 ≤ (g.lane l).starve) →
      exec (.starvationSelection ti gi) s = .next (s.selectRun ti gi) ∧ (gi < (s.team ti).groups.length →
        (∃ l ∈ run, ∀ k ∈ ready, (g.lane k).starve ≤ (g.lane l).starve) ∧
        (∀ l ∈ run, l ∈ ready ∧ ∀ k, k ∈ run ↔ k ∈ ready ∧ (g.lane k).pc = (g.lane l).pc ∧ (g.lane k).yielded = (g.lane l).yielded) ∧
        ∀ l ∈ ready, ((s.selectRun ti gi).thread ti gi l).starve = if l ∈ run then 0 else (g.lane l).starve + 1)) ∧
    ((s.groupRuns ti = false ∨ g.offer ≠ none ∨ ∀ l ∈ ready, (g.lane l).starve < 64) → exec (.starvationSelection ti gi) s = .next s)

/-- R386, R387, R389, R391 to R393, R396: boot goes on by one stage at a time; the semaphore, whose owner's time starts again with each access of its
port to a device register; freezing, requests and throttling. R264, R344, R389: a function level reset stops the queues of the function, ends their grids,
takes its untaken rows away and voids the taken ones, each with its bit and in the row it is bound to, and no others. The model's choices: one stage for each POWER_GOOD, and a request, a claim or a reset before READY is lost (log 52); what comes before its
condition leaves the state as it is (log 65). -/
def Obligations.BootAndManagement : Prop :=
  (∀ s : State,
    let m := s.module
    let im := s.pins.image
    (m.ready = true ∨ m.stage = 0xF → exec .powerGood s = .next s) ∧
    (m.ready = false → m.stage = 0 → im.sigOk = false ∨ 900 ≤ s.pins.devid → exec .powerGood s = .next { s with module := { m with stage := 0xF } }) ∧
    (m.ready = false → m.stage = 0 → im.sigOk = true → s.pins.devid < 900 → ∃ t : State, exec .powerGood s = .next t ∧ t.module.stage = 1 ∧
      t.module.dev = s.pins.devid ∧ t.dies.length = s.dies.length ∧ ∀ d ∈ t.dies, d.fvec = im.fvec &&& 0xFFFFFFFFFFFFFFF8) ∧
    (m.ready = false → m.stage = 1 → exec .powerGood s = .next { s with module := { m with stage := 2 } }) ∧
    (m.ready = false → m.stage = 2 → ∃ t : State, exec .powerGood s = .next t ∧ t.module.stage = 3 ∧ t.module.published = true ∧
      (∀ d ∈ t.dies, d.layNew = im.layNew ∧ d.layOld = im.layOld) ∧ t.ports.length = s.ports.length ∧
      ∀ i p, t.ports[i]? = some p → p.up = !decide (s.pins.partners.getD i 1024 = m.dev) ∧ p.miscabled = decide (s.pins.partners.getD i 1024 = m.dev)) ∧
    (m.ready = false → m.stage = 3 → ∃ t : State, exec .powerGood s = .next t ∧ t.module.stage = 4 ∧ t.module.ready = true ∧
      t.teams.length = s.teams.length + 4 ∧ ∀ d, d < 4 → d < s.dies.length →
        let ti := s.teams.length + d
        (t.die d).fwTeam = some ti ∧ (t.team ti).cores = [96 * d] ∧ (t.team ti).place = .resident ∧ (t.group ti 0).level = .f)) ∧
  (∀ s : State, exec .frzWrite s = .next { s with module := { s.module with frozen := true } } ∧
    exec .freeze s = .next { s with module := { s.module with frozen := true } }) ∧
  (∀ s : State, s.module.frozen = true → step s = .fault .frozen) ∧
  (∀ s : State, ∃ t : State, exec .powerThrottle s = .next t ∧ t = { s with module := t.module } ∧ t.module = { s.module with clkSteps := t.module.clkSteps }) ∧
  (∀ (s : State) (port : Option ℕ) (multi : Bool) (bs : List Byte),
    let i : Instr := .managementRequest ⟨port, multi, bs⟩
    let refused : Prop := ∃ p, port = some p ∧ multi = true ∧ s.sem.owner ≠ p + 1
    (s.module.ready = false ∨ bs.length ≠ 64 → exec i s = .next s) ∧
    (s.module.ready = true → bs.length = 64 → ¬refused → exec i s = .next { s with mgmtIn := s.mgmtIn ++ [bs] }) ∧
    ∀ p, s.module.ready = true → bs.length = 64 → port = some p → multi = true → s.sem.owner ≠ p + 1 →
      exec i s = .next { s with sent := s.sent ++ [.mctpError p] }) ∧
  (∀ s : State,
    let m := s.sem
    let sem (p0 p1 : Option (BitVec 2)) (n : Sem) : Prop := exec (.semClaim p0 p1) s = .next { s with sem := n }
    (s.module.ready = true →
      (m.owner = 0 → sem (some 1) none { m with owner := 1, last := 0, idle := 0 } ∧ sem none (some 2) { m with owner := 2, last := 1, idle := 0 } ∧
        (m.last = 0 → sem (some 1) (some 2) { m with owner := 2, last := 1, idle := 0 }) ∧
        (m.last = 1 → sem (some 1) (some 2) { m with owner := 1, last := 0, idle := 0 })) ∧
      (m.owner = 1 → sem none (some 2) m ∧ sem none (some 0) m ∧ sem (some 0) none { m with owner := 0, last := 0, idle := 0 }) ∧
      (m.owner = 2 → sem (some 1) none m ∧ sem (some 0) none m ∧ sem none (some 0) { m with owner := 0, last := 1, idle := 0 }) ∧
      sem none none m ∧ (m.owner = 0 ∨ m.owner = 2 → sem (some 3) none m) ∧ (m.owner = 1 → sem (some 3) none { m with idle := 0 })) ∧
    (∀ p loc bytes, m.owner = p + 1 → devBlock loc ≠ none → ∃ t : State, exec (.registerWrite (.port p) loc bytes) s = .next t ∧ t.sem.idle = 0) ∧
    (∀ p loc bytes, m.owner ≠ p + 1 → (∀ off, devBlock loc ≠ some (.modreg off)) → ∃ t : State, exec (.registerWrite (.port p) loc bytes) s = .next t ∧
      t.sem = m) ∧
    (m.owner ≠ 0 → 400000000 ≤ m.idle → ∃ t : State, exec .semTimeout s = .next t ∧ t.sem.owner = 0 ∧ t.sem.lost = true ∧ t.sem.last = m.owner - 1) ∧
    (m.owner = 0 ∨ m.idle < 400000000 → exec .semTimeout s = .next s)) ∧
  ∀ (s : State) (fn : ℕ),
    (fn = 0 ∨ 63 < fn ∨ s.module.ready = false → exec (.functionLevelReset fn) s = .next s) ∧
    (1 ≤ fn → fn ≤ 63 → s.module.ready = true → (s.queues.map (·.1)).Nodup → ∃ t : State,
      exec (.functionLevelReset fn) s = .next t ∧ fn ∈ t.module.resetting ∧
      (∀ q, ((s.queue q).fn = fn → (t.queue q).halt = true ∧ (t.queue q).err = 0x06) ∧ ((s.queue q).fn ≠ fn → t.queue q = s.queue q)) ∧
      -- the grids of the function end
      (∀ k n, s.nodes[k]? = some n → n.fn = fn → n.st ≠ .complete → n.terminated = false →
        (∃ m, t.nodes[k]? = some m ∧ m.terminated = true ∧ m.srcDone = true ∧ m.st ≠ .waiting) ∧
        ∀ ti, ti < s.teams.length → (s.team ti).node = k → ((s.team ti).place ≠ .resident → (t.team ti).place = .gone) ∧
          ∀ gi l, gi < (t.team ti).groups.length → l < (t.group ti gi).lanes.length → (t.thread ti gi l).exited = true) ∧
      -- no row of the function can be taken any more, and those that are taken are void
      (∀ q ∈ t.bfqs, (∀ r ∈ q.rows, r.fn ≠ fn) ∧ ∀ k ∈ q.batches, ∀ r ∈ k.rows, r.fn = fn → r.void = true) ∧
      (s.bfqs = [] → (∀ n ∈ s.nodes, n.fn = fn → n.st = .complete) → t.teams = s.teams ∧ t.mem = s.mem)) ∧
    -- what voiding does to a row, and that it touches no other
    let t := s.voidFunction fn
    let hit (k : Batch) (i : ℕ) : Prop := (∃ q ∈ s.bfqs, k ∈ q.batches) ∧ ∃ r, k.rows[i]? = some r ∧ r.fn = fn ∧ r.void = false
    let bound (k : Batch) (i : ℕ) : Option ℕ := k.base.bind fun base => (s.team k.ti).rows[base + k.step * i]?
    t.mem = s.mem ∧ t.cache = s.cache ∧ t.queues = s.queues ∧ t.nodes = s.nodes ∧
    (∀ q ∈ t.bfqs, ∃ p ∈ s.bfqs, q = { p with
      rows := p.rows.filter fun r => decide (r.fn ≠ fn)
      batches := p.batches.map fun k => { k with rows := k.rows.map fun r => if r.fn = fn then { r with void := true } else r } }) ∧
    (∀ ti core a, ti < s.teams.length →
      let here : Prop := ∃ k i, hit k i ∧ k.ti = ti ∧ (k.pcore = 0 ↔ core = 0) ∧ a = 16 * k.so + 16 * i + 12
      let old := Sparse.get 0 ((s.team ti).scratch core) a
      (here → Sparse.get 0 ((t.team ti).scratch core) a = old ||| 0x40) ∧ (¬here → Sparse.get 0 ((t.team ti).scratch core) a = old)) ∧
    (∀ k i id, hit k i → bound k i = some id → ((∃ n, (s.team k.ti).place = .saved n) → t.accRow id = .empty) ∧
      ((∀ n, (s.team k.ti).place ≠ .saved n) → ∃ e ∈ t.streams, e.op = .void ∧ e.rows = [id] ∧ e.ti = k.ti)) ∧
    ∀ id, (∀ k i, hit k i → bound k i ≠ some id) → t.accRow id = s.accRow id ∧ ∀ e ∈ t.streams, e ∈ s.streams ∨ id ∉ e.rows

/-! ### The machine as a whole, spec/02, spec/03, spec/14 -/

/-- R77, R88, R105, R330, R373, R390, R391: the registers for which the specification gives a reset value hold it, and nothing is placed. The model's
choice: no byte of memory is listed, so that every one reads as 0 (log 1). -/
def Obligations.ResetState : Prop :=
  let s := State.reset
  let m := s.module
  (m.ready = false ∧ m.repl = false ∧ m.stage = 0 ∧ m.ucores = 380 ∧ m.clus = 96 ∧ m.frozen = false ∧ m.poolCount = 0 ∧ m.poolBase = 0) ∧
  s.dies.length = 4 ∧ s.ports.length = 32 ∧
  (∀ d, d < 4 →
    let x := s.die d
    x.kvec = 0 ∧ x.fvec = 0 ∧ x.kroot = 0 ∧ x.swapthr = 20000 ∧ x.fltSz = 0 ∧ x.fltStall = false ∧ x.fltBase = 0 ∧ x.fltw = 0 ∧ x.flth = 0 ∧
    x.fltt = 0 ∧ x.layNew = 0 ∧ x.layOld = 0 ∧ x.mcSz = 0 ∧ x.mcBase = 0 ∧ x.mch = 0 ∧ x.mct = 0 ∧ x.arnBase = 0 ∧ x.arnCount = 0 ∧
    x.arnEn = false ∧ x.arnBadw = false ∧ x.strStop = 28 ∧ x.strResume = 20 ∧ x.strBadw = false ∧ x.strStopped = false ∧ s.occupancy d = 0) ∧
  (∀ p, p < 32 → (s.port p).xoff = 40 ∧ (s.port p).xon = 24 ∧ (s.port p).badw = false ∧ (s.port p).reg = 40 + 24 * 256) ∧
  (∀ q, (s.queue q).en = false ∧ (s.queue q).halt = false ∧ (s.queue q).ctl = 0 ∧ (s.queue q).base = 0 ∧ (s.queue q).head = 0 ∧
    (s.queue q).tail = 0 ∧ (s.queue q).ptroot = 0) ∧
  s.sem.owner = 0 ∧ s.sem.last = 0 ∧ s.sem.lost = false ∧ s.teams = [] ∧ s.nodes = [] ∧ s.shuffles = [] ∧ s.arenas = [] ∧ s.mem = []

/-- R63: memory keeps its canonical form, addresses strictly rising and no listed byte equal to what an unlisted one reads as, in every step; and in every step
the cached copies stay in order (`State.tidy`): R69, the copies of a line stand under one key; R97, R98, a dirty one of an L1 is the only one of its level and the
only dirty one above the L2; R99, no RDC of its die holds that line. -/
def Obligations.MemoryStaysCanonical : Prop :=
  (∀ s t : State, s.memOk → step s = .next t → t.memOk) ∧ ∀ s t : State, s.tidy → step s = .next t → t.tidy

/-- R63: the memory after reset has that form; R69: no cached copy is out of order (`State.tidy`, the premise of some statements about the caches). -/
def Obligations.MemoryStartsCanonical : Prop := State.reset.memOk ∧ State.reset.tidy

/-- R33 to R61: the words of every well-formed instruction decode to it, and a word that decodes to an instruction is its encoding. -/
def Obligations.WordsRoundTrip : Prop :=
  (∀ i : Instr, i.wf = true →
    (∀ w, encode i = [w] → isXForm w = false ∧ decode w 0 = .ok i) ∧ (∀ w lit, encode i = [w, lit] → isXForm w = true ∧ decode w lit = .ok i)) ∧
  (∀ i : Instr, (encode i).length ≤ 2) ∧
  (∀ (w lit : DWord) (i : Instr), (isXForm w = false → lit = 0) → decode w lit = .ok i →
    i.wf = true ∧ encode i = if isXForm w then [w, lit] else [w]) ∧
  ∀ w lit : DWord, 3 * 2 ^ 62 ≤ w.toNat → decode w lit = .error 0x01

/-- R142 to R156 and R333 to R337: the words of a well-formed copy record, or queue packet, decode to it. -/
def Obligations.RecordsAndPacketsRoundTrip : Prop :=
  (∀ (core : ℕ) (r : RecWords), ∀ i ∈ decodeRecord core r, i.wf = true ∧ i.record = some r) ∧
  (∀ (core : ℕ) (mv : MoveRec) (mc : McastRec) (lo : LoopRec) (co : CondRec) (cv : ConvRec) (sa : SampleRec) (cs : CsendRec) (sg : SigRec),
    ∀ i ∈ [Instr.recEnd core, .move core mv, .mcast core mc, .loop core lo, .cond core co, .conv core cv, .sample core sa, .csend core cs,
      .sig core sg], i.wf = true → i.record.bind (decodeRecord core) = some i) ∧
  ∀ (q : ℕ) (p : LaunchPkt) (sys ne : Bool) (na nb : ℕ) (a : DWord) (v : Word),
    ∀ i ∈ [Instr.launch q p, .wait q a v, .signal q sys a v, .pred q ne na nb a v], i.wf = true → decodePacket q (encodePacket i) = .ok i

/-- Worked encodings of spec/02 to spec/17, each decoding to the instruction it stands for. -/
def Obligations.WorkedEncodings : Prop :=
  decode 0x0A00003033000010 0 = .ok (.icmp .always .eq .s32 (.v 3) (.v 12) (.src (.imm 0))) ∧
  decode 0x094002408F0E0030 0 = .ok (.shl .always .b32 (.v 36) (.v 35) (.src (.imm 14))) ∧
  decode 0x8910028030000030 0x100 = .ok (.or .always .b32 (.v 40) (.v 12) (.lit 0x100)) ∧
  decode 0x10300080240A40C2 0 = .ok (.ffma .always .f32 .rz (.v 8) (.v 9) (.src (.v 10)) (.q 3)) ∧
  decode 0x0A60029003550030 0 = .ok (.movi .always .b32 (.v 41) (.src (.imm 0x55))) ∧
  decode 0x0910024803100030 0 = .ok (.or .always .b32 (.v 36) .lr (.src (.imm 16))) ∧
  decode 0x001C800003030000 0 = .ok (.br (.when true 2) (.src (.imm 3))) ∧
  decode 0x1D000100500A102A 0 = .ok (.atom .always .add true .dev false 16 (.v 20) (.src (.v 10))) ∧
  decode 0x2408C1B070000000 0 = .ok (.cpGo (.when false 3) 27 (.v 28)) ∧
  decode 0x28100000A0240A40 0 = .ok (.mma .always 0 false 40 (.src (.v 36)) (.v 41)) ∧
  decode 0x2C2000C000000000 0 = .ok (.srd .always (.v 12) .lane) ∧
  decode 0x3040008000000040 0 = .ok (.syr .always 8 .epc) ∧
  decode 0x0000000000000000 0 = .ok .nop

/-- R34, R48, R296, R341, R354: a step in which a group has its turn, and a run on offer that has an issue slot, fetches the words at the PC of its
run, decodes them and executes the instruction for that run; a word that decode rejects runs as an illegal instruction, a fetch that fails as a
fetch fault. The offer that issues in the first slot of a cycle is the first one of its core. -/
def Obligations.StepsRunDecodedWords : Prop :=
  (∀ (s : State) (ti gi : ℕ) (rest : List Turn), s.module.frozen = false → s.agenda = .issue ti gi :: rest → s.groupRuns ti = true →
    let u : State := ({ s with agenda := rest } : State).toSlot ti gi
    let g := u.group ti gi
    g.deadlock = none → u.maySlot (u.coreOf ti gi) ti gi = true →
    ∀ (run : List ℕ) (l : ℕ) (ls : List ℕ), g.offer = some run → run = l :: ls → g.runOk run = true →
      let pc := (u.thread ti gi l).pc
      let after (o : Out) : Out := match o with
        | .next t => .next (State.settleStep s (t.afterIssue g ti gi run pc))
        | .fault f => .fault f
        | .refused r => .refused r
      let v := (u.takeSlot ti gi).modGroup ti gi fun g => g.toIssue run
      (∀ w lit x i, v.fetch ti gi pc.toNat = (.word w lit, x) → decode w lit = .ok i →
        step s = after (exec i (x.withCur ⟨ti, gi, run, pc, wordLen w, w⟩))) ∧
      (∀ w lit x cause, v.fetch ti gi pc.toNat = (.word w lit, x) → decode w lit = .error cause →
        step s = after (exec (.illegalInstruction cause w) (x.withCur ⟨ti, gi, run, pc, wordLen w, w⟩))) ∧
      (∀ n w x, v.fetch ti gi pc.toNat = (.fault n w, x) → step s = after (exec .fetchFault (x.withCur ⟨ti, gi, run, pc, n, w⟩)))) ∧
  (∀ (s : State) (core ti gi : ℕ), s.maySlot core ti gi = true → (∀ k ∈ s.issued, k.core ≠ core) →
    (ti, gi) ∈ s.offers core ∧ ∀ x ∈ s.offers core, keyBefore (s.offerKey x.1 x.2) (s.offerKey ti gi) = false) ∧
  (∀ (s : State) (ti gi va pa key gen : ℕ) (x : State), s.translate (s.acx ti gi) .fetch va = (.ok pa key gen, x) → isDevice pa = false →
    let core := s.coreOf ti gi
    let y := x.settle (lineOf pa) key
    let w := BitVec.ofNat 64 (bytesNat ((addrs pa 8).map (y.visByte core key)))
    x.linesOpenBy (x.codeNear core key) core pa 8 = true → x.frameLive gen pa = true → x.keyClash core key (lineOf pa) x.nextId = false →
      isXForm w = false →
      s.fetch ti gi va = (.word w 0, y.recordCode core key pa)) ∧
  ∀ (s : State) (ti gi l : ℕ) (run : List ℕ), (s.group ti gi).offer = none → ((s.selectRun ti gi).group ti gi).offer = some run → l ∈ run →
    let ready := s.readyLanes ti gi
    let x := s.thread ti gi l
    l ∈ ready ∧ (∀ k, k ∈ run ↔ k ∈ ready ∧ (s.thread ti gi k).pc = x.pc ∧ (s.thread ti gi k).yielded = x.yielded) ∧
    ((∀ k ∈ ready, (s.thread ti gi k).starve < 64) → ∀ k ∈ ready, (x.yielded = true → (s.thread ti gi k).yielded = true) ∧
      ((s.thread ti gi k).yielded = x.yielded → x.pc.toNat ≤ (s.thread ti gi k).pc.toNat))

/-- R52, R205, R224, R240, R353: a word that computes on registers alone leaves memory, every outstanding access, every other group and every other
unit as they were, whether it completes, waits or traps; the other threads of its group keep all their registers where it completes. -/
def Obligations.RegisterWordsTouchRegistersOnly : Prop :=
  ∀ (g : Guard) (t : IntTy) (d : Dst) (a : Src) (b : SrcB) (c : Src) (f : Fmt) (ef eg : EFmt) (rm : Rnd) (n : NTy) (p q : Slot) (x y : Bool)
      (o : AddcOp) (cc : ICmp) (fc : FCmp) (ss : SatSrc) (vo : VoteOp) (sc : ScanOp) (lx : LxMode) (k : BitVec 6),
    ∀ i ∈ [Instr.iadd g t d a b, .isub g t d a b, .iaddc g o t d a b c, .imul g t d a b, .imulh g t d a b, .imad g t d a b c, .imadh g t d a b c,
      .idiv g t d a b, .irem g t d a b, .imin g t d a b, .imax g t d a b, .iabs g t d a, .ineg g t d a, .and g t d a b, .or g t d a b,
      .xor g t d a b, .andn g t d a b, .shl g t d a b, .shr g t d a b, .sar g t d a b, .rol g t d a b, .clz g t d a, .ctz g t d a, .popc g t d a,
      .brev g t d a, .bfe g t d a b, .bfi g t d a b c, .bsel g t d a b c, .sel g t d a b c, .icmp g cc t d a b, .isat g ss t d a, .add64 g d a b,
      .sub64 g d a b, .lea64 g x d a b k, .mov g t d a, .movi g t d b, .pairWord p q, .fadd g f rm d a b, .fsub g f rm d a b, .fmul g f rm d a b,
      .ffma g f rm d a b c, .fmin g f d a b, .fmax g f d a b, .fcmp g fc f d a b, .fcls g f d a, .frnd g f rm d a, .fcvt g ef eg rm d a,
      .fpk g f rm d a b, .fpkN8 g x rm d a b c, .hadd2 g f rm d a b, .hmul2 g f rm d a b, .hfma2 g f rm d a b c, .hmin2 g f d a b,
      .hmax2 g f d a b, .sfuRcp g d a, .sfuRsq g d a, .sfuSqrt g d a, .sfuExp2 g d a, .sfuLog2 g d a, .sfuSin g d a, .sfuCos g d a,
      .sfuTanh g d a, .dot4 g n rm d a b c, .dot8 g n rm d a b c, .bscl g rm d a b c, .bexp g n d a, .mexp g n d a b, .cmpr g n d a b,
      .expd g n d a b, .lxch g lx n d a b, .vote g vo d a, .scan g sc y n d a, .matchL g x n d a, .cxch g n d a b, .spk24 g n d a, .sxp24 g n d a,
      .ffs g n d a b],
    ∀ (s u : State) (r : Cur), s.cur = some r → exec i s = .next u →
      u = { s with teams := u.teams, module := u.module } ∧
      (u.module = s.module ∨ u.module = { s.module with stage := 0xF, ready := false }) ∧
      (∀ tj, tj ≠ r.ti → u.team tj = s.team tj) ∧ u.team r.ti = { s.team r.ti with groups := (u.team r.ti).groups } ∧
      (∀ gj, gj ≠ r.gi → u.group r.ti gj = s.group r.ti gj) ∧
      (u.group r.ti r.gi).blocks = (s.group r.ti r.gi).blocks ∧ (u.group r.ti r.gi).loads = (s.group r.ti r.gi).loads ∧
      (u.group r.ti r.gi).stores = (s.group r.ti r.gi).stores ∧
      ∀ l, l ∉ r.lanes → (u.thread r.ti r.gi l).regs = (s.thread r.ti r.gi l).regs ∧ (u.thread r.ti r.gi l).pc = (s.thread r.ti r.gi l).pc
end

