-- ==== Sys2Proof/Laws/Memory.lean ====
section
/-! SUPPORT. Sparse maps and memory: a read after a write, and the canonical form that every memory operation keeps. -/

namespace Sys2Proof.Machine

section
variable {α : Type}

/-! ### Reading after writing -/

theorem Sparse.get_of_lt (d : α) (m : Sparse α) (lo k : ℕ) (h : Sparse.risingFrom (some lo) m = true) (hk : k ≤ lo) :
    Sparse.get d m k = d := by
  induction m generalizing lo with
  | nil => rfl
  | cons e t ih =>
    simp only [Sparse.risingFrom, Bool.and_eq_true, decide_eq_true_eq] at h
    rw [Sparse.get, if_neg (by omega)]
    exact ih e.1 h.2 (by omega)

theorem Sparse.get_put (d : α) (m : Sparse α) (k j : ℕ) (v : α) :
    Sparse.get d (Sparse.put m k v) j = if j = k then v else Sparse.get d m j := by
  induction m with
  | nil => simp [Sparse.put, Sparse.get, eq_comm]
  | cons e t ih =>
    obtain ⟨k', v'⟩ := e
    simp only [Sparse.put]
    split
    · subst_vars; simp only [Sparse.get, eq_comm (a := j)]; split <;> simp_all
    · split
      · simp only [Sparse.get, eq_comm (a := j)]
      · simp only [Sparse.get, ih, eq_comm (a := j)]
        split <;> split <;> simp_all

theorem Sparse.get_drop (d : α) (m : Sparse α) (k j : ℕ) :
    Sparse.get d (Sparse.drop m k) j = if j = k then d else Sparse.get d m j := by
  induction m with
  | nil => simp [Sparse.drop, Sparse.get]
  | cons e t ih =>
    obtain ⟨k', v'⟩ := e
    simp only [Sparse.drop] at ih
    simp only [Sparse.drop, List.filter_cons, bne_iff_ne, ne_eq]
    by_cases h : k' = k
    · subst h
      simp only [not_true, if_false, Sparse.get, ih]
      by_cases hj : j = k'
      · simp [hj]
      · simp [hj, Ne.symm hj]
    · simp only [h, not_false_iff, if_true, Sparse.get, ih]
      split <;> simp_all

variable [DecidableEq α]

/-- A read after a write gives the value written there, and what it gave before elsewhere. -/
theorem Sparse.get_set (d : α) (m : Sparse α) (k j : ℕ) (v : α) :
    Sparse.get d (Sparse.set d m k v) j = if j = k then v else Sparse.get d m j := by
  rw [Sparse.set]
  split
  · subst_vars; rw [Sparse.get_drop]
  · rw [Sparse.get_put]

/-! ### The canonical form -/

omit [DecidableEq α] in
theorem Sparse.risingFrom_weaken {m : Sparse α} {lo : ℕ} (b : Option ℕ) (h : Sparse.risingFrom (some lo) m = true)
    (hb : ∀ x ∈ b, x ≤ lo) : Sparse.risingFrom b m = true := by
  cases m with
  | nil => cases b <;> rfl
  | cons e t =>
    simp only [Sparse.risingFrom, Bool.and_eq_true, decide_eq_true_eq] at h
    cases b with
    | none => exact h.2
    | some x =>
      have := hb x rfl
      simp only [Sparse.risingFrom, Bool.and_eq_true, decide_eq_true_eq]
      exact ⟨by omega, h.2⟩

omit [DecidableEq α] in
theorem Sparse.risingFrom_filter {m : Sparse α} (p : ℕ × α → Bool) (b : Option ℕ) (h : Sparse.risingFrom b m = true) :
    Sparse.risingFrom b (m.filter p) = true := by
  induction m generalizing b with
  | nil => cases b <;> rfl
  | cons e t ih =>
    have ht : Sparse.risingFrom (some e.1) t = true := by
      cases b with
      | none => exact h
      | some x => simp only [Sparse.risingFrom, Bool.and_eq_true] at h; exact h.2
    rw [List.filter_cons]
    split
    · cases b with
      | none => exact ih _ ht
      | some x =>
        simp only [Sparse.risingFrom, Bool.and_eq_true] at h ⊢
        exact ⟨h.1, ih _ ht⟩
    · refine Sparse.risingFrom_weaken b (ih _ ht) fun x hx => ?_
      cases hx
      simp only [Sparse.risingFrom, Bool.and_eq_true, decide_eq_true_eq] at h
      omega

omit [DecidableEq α] in
theorem Sparse.risingFrom_put {m : Sparse α} (k : ℕ) (v : α) (b : Option ℕ) (h : Sparse.risingFrom b m = true)
    (hb : ∀ x ∈ b, x < k) : Sparse.risingFrom b (Sparse.put m k v) = true := by
  induction m generalizing b with
  | nil =>
    cases b with
    | none => rfl
    | some x => simp [Sparse.put, Sparse.risingFrom, hb x rfl]
  | cons e t ih =>
    obtain ⟨k', v'⟩ := e
    have ht : Sparse.risingFrom (some k') t = true := by
      cases b with
      | none => exact h
      | some x => simp only [Sparse.risingFrom, Bool.and_eq_true] at h; exact h.2
    have cons : ∀ {c : Sparse α} {j : ℕ} {w : α}, (∀ x ∈ b, x < j) → Sparse.risingFrom (some j) c = true →
        Sparse.risingFrom b ((j, w) :: c) = true := by
      intro c j w hj hc
      cases b with
      | none => exact hc
      | some x => simp [Sparse.risingFrom, hj x rfl, hc]
    have hk' : ∀ x ∈ b, x < k' := by
      intro x hx; cases hx
      simp only [Sparse.risingFrom, Bool.and_eq_true, decide_eq_true_eq] at h
      exact h.1
    simp only [Sparse.put]
    split
    · subst_vars; exact cons hb ht
    · split
      · refine cons hb ?_
        simp [Sparse.risingFrom, *]
      · exact cons hk' (ih _ ht fun x hx => by cases hx; omega)

/-- A write keeps the canonical form. -/
theorem Sparse.wf_set {d : α} {m : Sparse α} (k : ℕ) (v : α) (h : Sparse.wf d m = true) : Sparse.wf d (Sparse.set d m k v) = true := by
  simp only [Sparse.wf, Bool.and_eq_true, List.all_eq_true, decide_eq_true_eq] at h ⊢
  rw [Sparse.set]
  split
  · exact ⟨Sparse.risingFrom_filter _ _ h.1, fun e he => h.2 e (List.mem_of_mem_filter he)⟩
  · rename_i hv
    refine ⟨Sparse.risingFrom_put k v _ h.1 (by simp), ?_⟩
    have : ∀ (l : Sparse α) (e : ℕ × α), e ∈ Sparse.put l k v → e = (k, v) ∨ e ∈ l := by
      intro l
      induction l with
      | nil => simp [Sparse.put]
      | cons x t ih =>
        obtain ⟨k', v'⟩ := x
        intro e
        simp only [Sparse.put]
        split
        · simp only [List.mem_cons]; tauto
        · split
          · simp only [List.mem_cons]; tauto
          · simp only [List.mem_cons]
            rintro (rfl | he)
            · tauto
            · rcases ih e he with r | r <;> tauto
    intro e he
    rcases this m e he with rfl | he
    · exact hv
    · exact h.2 e he

end

/-! ### Memory -/

/-- A byte read after a byte written. -/
theorem Memory.read_write (m : Memory) (a b : ℕ) (x : Byte) : (m.write a x).read b = if b = a then x else m.read b :=
  Sparse.get_set ..

theorem Memory.wf_write {m : Memory} (a : ℕ) (x : Byte) (h : m.wf = true) : (m.write a x).wf = true := Sparse.wf_set a x h

theorem Memory.wf_writeList {m : Memory} (a : ℕ) (xs : List Byte) (h : m.wf = true) : (m.writeList a xs).wf = true := by
  induction xs generalizing m a with
  | nil => exact h
  | cons x t ih => exact ih (a + 1) (Memory.wf_write a x h)

/-- A byte read after bytes written at rising addresses. -/
theorem Memory.read_writeList (m : Memory) (a b : ℕ) (xs : List Byte) :
    (m.writeList a xs).read b = if a ≤ b ∧ b < a + xs.length then xs.getD (b - a) 0 else m.read b := by
  induction xs generalizing m a with
  | nil => rw [Memory.writeList, if_neg]; simp
  | cons x t ih =>
    rw [Memory.writeList, ih, Memory.read_write]
    rcases Nat.lt_trichotomy b a with h | h | h
    · rw [if_neg (by omega), if_neg (by omega), if_neg (by omega)]
    · subst h; rw [if_neg (by omega), if_pos rfl, if_pos (by simp)]; simp
    · have e : b - a = (b - (a + 1)) + 1 := by omega
      by_cases hb : b < a + 1 + t.length
      · rw [if_pos (by omega), if_pos (by simp; omega), e]; simp
      · rw [if_neg (by omega), if_neg (by omega), if_neg (by simp; omega)]

theorem Memory.wf_foldl_write {m : Memory} (cells : List Host.Cell) (h : m.wf = true) :
    (cells.foldl (fun m c => m.write c.1 c.2) m).wf = true := by
  induction cells generalizing m with
  | nil => exact h
  | cons c t ih => exact ih (Memory.wf_write c.1 c.2 h)

/-! ### The state operations that write memory -/

theorem State.memOk_retag {s : State} (line tag : ℕ) (h : s.memOk) : (s.retag line tag).memOk := by
  rw [State.retag]
  split
  · exact h
  · exact Memory.wf_writeList _ _ h

theorem State.memOk_memWrite {s : State} (tag : ℕ) (cells : List Host.Cell) (h : s.memOk) : (s.memWrite tag cells).memOk := by
  cases cells with
  | nil => exact h
  | cons c t => exact Memory.wf_foldl_write _ (State.memOk_retag _ _ h)

theorem State.memOk_of_mem {s t : State} (e : t.mem = s.mem) (h : s.memOk) : t.memOk := by
  rw [State.memOk, e]; exact h

theorem State.memOk_foldl {β : Type} {f : State → β → State} (hf : ∀ s b, s.memOk → (f s b).memOk) (l : List β) {s : State} (h : s.memOk) :
    (l.foldl f s).memOk := by
  induction l generalizing s with
  | nil => exact h
  | cons b t ih => exact ih (hf s b h)

@[simp] theorem State.dropLine_mem (s : State) (lvl : Lvl) (line : ℕ) : (s.dropLine lvl line).mem = s.mem := rfl
@[simp] theorem State.setLine_mem (s : State) (e : CLine) : (s.setLine e).mem = s.mem := rfl
@[simp] theorem State.setDir_mem (s : State) (e : DirEntry) : (s.setDir e).mem = s.mem := rfl
@[simp] theorem State.staleSide_mem (s : State) (line : ℕ) : (s.staleSide line).mem = s.mem := rfl
@[simp] theorem State.loseRdc_mem (s : State) (die line : ℕ) : (s.loseRdc die line).mem = s.mem := rfl

@[simp] theorem State.discardLine_mem (s : State) (line : ℕ) : (s.discardLine line).mem = s.mem := by
  rw [State.discardLine]; split <;> rfl

/-! #### A level that gives up a line, or takes one in -/

theorem State.memOk_writeBackL2 {s : State} (line : ℕ) (h : s.memOk) : (s.writeBackL2 line).memOk := by
  rw [State.writeBackL2]
  split
  · exact h
  · exact State.memOk_memWrite _ _ h

theorem State.memOk_mergeL1 {s : State} (line : ℕ) (h : s.memOk) : (s.mergeL1 line).memOk := by
  refine State.memOk_foldl (fun u e hu => ?_) _ ?_
  · exact hu
  · exact h

theorem State.memOk_loseL2 {s : State} (line : ℕ) (h : s.memOk) : (s.loseL2 line).memOk :=
  State.memOk_writeBackL2 line (State.memOk_mergeL1 line h)

theorem State.memOk_evictL2 {s : State} (line : ℕ) (h : s.memOk) : (s.evictL2 line).memOk := by
  rw [State.evictL2]
  split
  · exact State.memOk_loseL2 _ h
  · exact State.memOk_mergeL1 line h

theorem State.memOk_placeL2 {s : State} (line : ℕ) (h : s.memOk) : (s.placeL2 line).2.memOk := by
  rw [State.placeL2]
  split
  · exact State.memOk_evictL2 _ h
  · exact h

theorem State.memOk_putL2 {s : State} (key : ℕ) (cells : List Host.Cell) (h : s.memOk) : (s.putL2 key cells).memOk := by
  cases cells with
  | nil => exact h
  | cons c t => exact State.memOk_placeL2 (lineOf c.1) h

theorem State.memOk_touchL2 {s : State} (key line : ℕ) (h : s.memOk) : (s.touchL2 key line).memOk := by
  rw [State.touchL2]
  split
  · exact h
  · exact State.memOk_placeL2 line h

theorem State.memOk_loseL1 {s : State} (core line : ℕ) (h : s.memOk) : (s.loseL1 core line).memOk := by
  rw [State.loseL1]
  split
  · exact h
  · split
    · exact State.memOk_putL2 _ _ h
    · exact h

theorem State.memOk_placeL1 {s : State} (core line : ℕ) (h : s.memOk) : (s.placeL1 core line).2.memOk := by
  rw [State.placeL1]
  split
  · exact State.memOk_loseL1 _ _ h
  · exact h

theorem State.memOk_putL1 {s : State} (core key : ℕ) (cells : List Host.Cell) (h : s.memOk) : (s.putL1 core key cells).memOk := by
  cases cells with
  | nil => exact h
  | cons c t => exact State.memOk_placeL1 core (lineOf c.1) h

theorem State.memOk_touchL1 {s : State} (core key line : ℕ) (h : s.memOk) : (s.touchL1 core key line).memOk := by
  rw [State.touchL1]
  split
  · exact h
  · exact State.memOk_placeL1 core line h

theorem State.memOk_recallL1 {s : State} (line : ℕ) (h : s.memOk) : (s.recallL1 line).memOk := by
  refine State.memOk_foldl (fun u e hu => State.memOk_putL2 _ _ hu) _ ?_
  exact h

theorem State.memOk_cleanL1 {s : State} (line : ℕ) (h : s.memOk) : (s.cleanL1 line).memOk := by
  refine State.memOk_foldl (fun u e hu => State.memOk_putL2 _ _ hu) _ ?_
  exact h

theorem State.memOk_touchRdc {s : State} (die key line : ℕ) (h : s.memOk) : (s.touchRdc die key line).memOk := by
  have hr : State.memOk (if (s.l1Dirty line).isSome then s.cleanL1 line else s) := by
    split
    · exact State.memOk_cleanL1 _ h
    · exact h
  simp only [State.touchRdc]
  split
  · exact State.memOk_of_mem (State.setLine_mem ..) hr
  · split <;> exact State.memOk_of_mem rfl hr

theorem State.memOk_recordHolder {s : State} (line : ℕ) (hd : Holder) (h : s.memOk) : (s.recordHolder line hd).memOk := by
  refine State.memOk_of_mem (State.setDir_mem ..) ?_
  show State.memOk (match s.l1Dirty line, hd with
    | some e, .l1 c => if e.lvl == Lvl.l1 c then s else s.cleanL1 line
    | some _, _ => s.cleanL1 line
    | none, _ => s)
  split
  · split
    · exact h
    · exact State.memOk_cleanL1 line h
  · exact State.memOk_cleanL1 line h
  · exact h

theorem State.memOk_cleanL2 {s : State} (line : ℕ) (h : s.memOk) : (s.cleanL2 line).memOk := by
  rw [State.cleanL2]
  split
  · exact h
  · exact State.memOk_memWrite _ _ h

/-! #### Accesses to a line -/

theorem State.memOk_settle {s : State} (line key : ℕ) (h : s.memOk) : (s.settle line key).memOk := by
  have hr : State.memOk (if (s.cache.any fun e => e.lvl != .l2 && e.line == line && e.key != key) then s.recallL1 line else s) := by
    split
    · exact State.memOk_recallL1 _ h
    · exact h
  rw [State.settle]
  split
  · split
    · exact hr
    · exact State.memOk_writeBackL2 _ hr
  · exact hr

theorem State.memOk_fetchShared {s : State} (die key pa : ℕ) (h : s.memOk) : (s.fetchShared die key pa).memOk := by
  rw [State.fetchShared]
  split
  · split
    · exact State.memOk_touchL2 _ _ h
    · exact State.memOk_touchRdc _ _ _ (State.memOk_recordHolder _ _ (State.memOk_touchL2 _ _ h))
  · exact State.memOk_touchRdc _ _ _ h

theorem State.memOk_record {s : State} (core key pa : ℕ) (h : s.memOk) : (s.record core key pa).memOk := by
  have h1 := State.memOk_fetchShared (dieOfCore core) key pa h
  rw [State.record]
  split
  · exact State.memOk_touchL1 _ _ _ (State.memOk_recordHolder _ _ h1)
  · exact State.memOk_touchL1 _ _ _ h1

theorem State.memOk_takeLine {s : State} (key line : ℕ) (h : s.memOk) : (s.takeLine key line).memOk :=
  State.memOk_recallL1 line (State.memOk_settle line key h)

theorem State.memOk_homeWrite {s : State} (key : ℕ) (cells : List Host.Cell) (h : s.memOk) : (s.homeWrite key cells).memOk := by
  cases cells with
  | nil => exact h
  | cons c t =>
    obtain ⟨a, b⟩ := c
    have h1 := State.memOk_takeLine key (lineOf a) h
    simp only [State.homeWrite]
    split
    · exact State.memOk_putL2 _ _ h1
    · exact State.memOk_memWrite _ _ h1

theorem State.memOk_homeWriteBytes {s : State} (key pa : ℕ) (bytes : List Byte) (h : s.memOk) : (s.homeWriteBytes key pa bytes).memOk :=
  State.memOk_foldl (fun _ cs hs => State.memOk_homeWrite key cs hs) _ h

theorem State.memOk_rawPut {s : State} (cells : List Host.Cell) (h : s.memOk) : (s.rawPut cells).memOk := by
  cases cells with
  | nil => exact h
  | cons c t =>
    simp only [State.rawPut]
    split
    · exact State.memOk_homeWrite _ _ h
    · exact Memory.wf_foldl_write _ (State.memOk_recallL1 _ (State.memOk_of_mem (State.staleSide_mem ..) h))

theorem State.memOk_rawWrite {s : State} (pa : ℕ) (bytes : List Byte) (h : s.memOk) : (s.rawWrite pa bytes).memOk :=
  State.memOk_foldl (fun _ cs hs => State.memOk_rawPut cs hs) _ h

theorem State.memOk_grantWrite {s : State} (core key : ℕ) (cells : List Host.Cell) (h : s.memOk) : (s.grantWrite core key cells).memOk := by
  cases cells with
  | nil => exact h
  | cons c t =>
    obtain ⟨a, b⟩ := c
    have h2 : ((s.staleSide (lineOf a)).settle (lineOf a) key).memOk := State.memOk_settle _ _ h
    have h3 := State.memOk_homeWrite key ((a, b) :: t) h
    simp only [State.grantWrite]
    split
    · refine State.memOk_putL1 core key _ (State.memOk_of_mem (State.setDir_mem ..) (State.memOk_touchL2 _ _ ?_))
      show State.memOk (if _ then _ else _)
      split
      · exact h2
      · exact State.memOk_recallL1 _ h2
    · split
      · exact h3
      · split
        · exact State.memOk_touchL1 _ _ _ (State.memOk_recordHolder _ _ h3)
        · exact State.memOk_touchL1 _ _ _ h3

/-- Memory right after reset. -/
theorem memOk_of_empty {s : State} (h : s.mem = []) : s.memOk := by rw [State.memOk, h]; rfl

end Sys2Proof.Machine
end

