-- ==== Sys2Proof/Laws/Caches.lean ====
section
/-! SUPPORT. The caches: every operation on cached lines keeps `State.tidy`. -/

namespace Sys2Proof.Machine

/-! ### Entries -/

/-- What tidiness asks of one entry. -/
def CLine.ok (e : CLine) : Prop :=
  Sparse.risingFrom none e.data = true ∧ (∀ x ∈ e.data, lineOf x.1 = e.line) ∧ (isL1 e.lvl = true → e.dirty = false → e.data = [])

/-- What a dirty copy in an L1 asks of another entry for its line. -/
def CLine.fits (a b : CLine) : Prop :=
  ∀ c, a.lvl = .l1 c → a.dirty = true → (isL1 b.lvl = true → b.dirty = false ∧ b.lvl ≠ a.lvl) ∧ b.lvl ≠ .rdc (dieOfCore c)

theorem CLine.fits_of_low {a b : CLine} (h : isL1 a.lvl = false) : a.fits b := by
  intro c hc; rw [hc] at h; cases h

theorem CLine.fits_of_clean {a b : CLine} (h : a.dirty = false) : a.fits b := by
  intro c _ hd; rw [h] at hd; cases hd

theorem State.tidy_ok {s : State} (h : s.tidy) {e : CLine} (he : e ∈ s.cache) : e.ok := ⟨(h e he).1, (h e he).2.1, (h e he).2.2.1⟩

theorem State.tidy_key {s : State} (h : s.tidy) {e x : CLine} (he : e ∈ s.cache) (hx : x ∈ s.cache) (hl : x.line = e.line) : x.key = e.key :=
  ((h e he).2.2.2 x hx hl).1

/-- Fewer entries are as tidy. -/
theorem State.tidy_of_subset {s t : State} (h : s.tidy) (hs : ∀ e ∈ t.cache, e ∈ s.cache) : t.tidy := fun e he =>
  ⟨(h e (hs e he)).1, (h e (hs e he)).2.1, (h e (hs e he)).2.2.1, fun x hx => (h e (hs e he)).2.2.2 x (hs x hx)⟩

theorem State.tidy_of_cache {s t : State} (h : s.tidy) (e : t.cache = s.cache) : t.tidy := State.tidy_of_subset h fun _ hx => e ▸ hx

theorem State.tidy_foldl {β : Type} {f : State → β → State} (hf : ∀ s b, s.tidy → (f s b).tidy) (l : List β) {s : State} (h : s.tidy) :
    (l.foldl f s).tidy := by
  induction l generalizing s with
  | nil => exact h
  | cons b t ih => exact ih (hf s b h)

theorem State.tidy_dropLine {s : State} (lvl : Lvl) (line : ℕ) (h : s.tidy) : (s.dropLine lvl line).tidy :=
  State.tidy_of_subset h fun _ he => List.mem_of_mem_filter he

/-- An entry comes to its level: sound itself, and in order beside the others of its line. -/
theorem State.tidy_setLine {s : State} {e : CLine} (h : s.tidy) (ho : e.ok)
    (hf : ∀ x ∈ s.cache, x.line = e.line → x.lvl ≠ e.lvl → e.fits x ∧ x.fits e) : (s.setLine e).tidy := by
  have hd := State.tidy_dropLine e.lvl e.line h
  obtain ⟨k, hc, key⟩ : ∃ k, (s.setLine e).cache = (s.dropLine e.lvl e.line).cache ++ [{ e with key := k }] ∧
      ∀ x ∈ (s.dropLine e.lvl e.line).cache, x.line = e.line → x.key = k := by
    refine ⟨_, rfl, fun x hx hl => ?_⟩
    split
    · rename_i y hg
      have hy := List.find?_some hg
      exact State.tidy_key hd (List.mem_of_find?_eq_some hg) hx (by rw [hl]; simpa using (eq_of_beq hy).symm)
    · rename_i hg
      exact absurd (List.find?_eq_none.1 hg x hx) (by simp [hl])
  have other : ∀ x ∈ (s.dropLine e.lvl e.line).cache, x.line = e.line → e.fits x ∧ x.fits e := by
    intro x hx hl
    simp only [State.dropLine, List.mem_filter, Bool.not_eq_true', Bool.and_eq_false_iff, beq_eq_false_iff_ne] at hx
    exact hf x hx.1 hl (hx.2.resolve_right fun hn => hn hl)
  intro x hx
  rw [hc] at hx
  simp only [List.mem_append, List.mem_singleton] at hx
  rcases hx with hx | rfl
  · refine ⟨(hd x hx).1, (hd x hx).2.1, (hd x hx).2.2.1, fun y hy hl => ?_⟩
    rw [hc] at hy
    simp only [List.mem_append, List.mem_singleton] at hy
    rcases hy with hy | rfl
    · exact (hd x hx).2.2.2 y hy hl
    · refine ⟨(key x hx hl.symm).symm, fun c hl1 hdy => ?_⟩
      obtain ⟨h1, h2⟩ := (other x hx hl.symm).2 c hl1 hdy
      refine ⟨fun hi hor => ?_, h2⟩
      obtain ⟨h3, h4⟩ := h1 hi
      rcases hor with hor | hor
      · exact absurd hor (by simp [h3])
      · exact absurd hor h4
  · refine ⟨ho.1, ho.2.1, ho.2.2, fun y hy hl => ?_⟩
    rw [hc] at hy
    simp only [List.mem_append, List.mem_singleton] at hy
    rcases hy with hy | rfl
    · refine ⟨key y hy hl, fun c hl1 hdy => ?_⟩
      obtain ⟨h1, h2⟩ := (other y hy hl).1 c hl1 hdy
      refine ⟨fun hi hor => ?_, h2⟩
      obtain ⟨h3, h4⟩ := h1 hi
      rcases hor with hor | hor
      · exact absurd hor (by simp [h3])
      · exact absurd hor h4
    · refine ⟨rfl, fun c hl1 _ => ⟨fun _ _ => rfl, ?_⟩⟩
      rw [hl1]; simp

theorem Sparse.mem_put {α : Type} {m : Sparse α} {k : ℕ} {v : α} {x : ℕ × α} (h : x ∈ Sparse.put m k v) : x = (k, v) ∨ x ∈ m := by
  induction m with
  | nil => simpa [Sparse.put] using h
  | cons e t ih =>
    simp only [Sparse.put] at h
    split at h
    · simp only [List.mem_cons] at h ⊢; tauto
    · split at h
      · simpa only [List.mem_cons] using h
      · simp only [List.mem_cons] at h ⊢
        rcases h with h | h
        · exact Or.inr (Or.inl h)
        · exact (ih h).imp_right Or.inr

@[simp] theorem State.retag_cache (s : State) (line tag : ℕ) : (s.retag line tag).cache = s.cache := by
  rw [State.retag]; split <;> rfl

@[simp] theorem State.memWrite_cache (s : State) (tag : ℕ) (cells : List Host.Cell) : (s.memWrite tag cells).cache = s.cache := by
  cases cells with
  | nil => rfl
  | cons c t => exact State.retag_cache ..

@[simp] theorem State.sendInvals_cache (s : State) (line : ℕ) (self : Option Holder) : (s.sendInvals line self).1.cache = s.cache := rfl

/-- Entries that change by what keeps their level, line and key and makes nothing dirty. -/
theorem State.tidy_updIf {s t : State} {p : CLine → Bool} {f : CLine → CLine} (h : s.tidy) (ht : t.cache = updIf s.cache p f)
    (hf : ∀ e, e.ok → p e = true → (f e).lvl = e.lvl ∧ (f e).line = e.line ∧ (f e).key = e.key ∧ ((f e).dirty = true → e.dirty = true ∧ isL1 e.lvl = false) ∧ (f e).ok) :
    t.tidy := by
  have hg : ∀ e, e.ok → ∀ g, g = (if p e then f e else e) → g.lvl = e.lvl ∧ g.line = e.line ∧ g.key = e.key ∧
      (g.dirty = true → e.dirty = true ∧ (g = e ∨ isL1 e.lvl = false)) ∧ g.ok := by
    intro e ho g hg
    subst hg
    split
    next hp =>
      obtain ⟨a, b, c, d, e⟩ := hf e ho hp
      exact ⟨a, b, c, fun x => ⟨(d x).1, Or.inr (d x).2⟩, e⟩
    next => exact ⟨rfl, rfl, rfl, fun x => ⟨x, Or.inl rfl⟩, ho⟩
  intro e he
  rw [ht, updIf, List.mem_map] at he
  obtain ⟨e0, he0, rfl⟩ := he
  obtain ⟨h1, h2, h3, h4, h5⟩ := hg e0 (State.tidy_ok h he0) _ rfl
  refine ⟨h5.1, h5.2.1, h5.2.2, fun x hx hl => ?_⟩
  rw [ht, updIf, List.mem_map] at hx
  obtain ⟨x0, hx0, rfl⟩ := hx
  obtain ⟨k1, k2, k3, k4, k5⟩ := hg x0 (State.tidy_ok h hx0) _ rfl
  rw [k2, h2] at hl
  obtain ⟨m1, m2⟩ := (h e0 he0).2.2.2 x0 hx0 hl
  refine ⟨by rw [k3, h3, m1], fun c hc hd => ?_⟩
  obtain ⟨n1, n2⟩ := h4 hd
  rw [h1] at hc
  obtain ⟨o1, o2⟩ := m2 c hc n1
  rw [k1]
  refine ⟨fun hi hor => ?_, o2⟩
  have same : x0 = e0 := o1 hi (hor.imp (fun hxd => (k4 hxd).1) (fun hv => hv.trans h1))
  rw [same]

/-- The cells written to a copy: its data stay in order, and in its line. -/
theorem CLine.wrote_ok {old : Option CLine} (lvl : Lvl) (line key way : ℕ) (cells : List Host.Cell)
    (ho : ∀ e, old = some e → e.ok ∧ e.line = line) : (CLine.wrote old lvl line key way cells).ok := by
  have base : Sparse.risingFrom none (match old with | some e => e.data | none => []) = true ∧
      ∀ x ∈ (match old with | some e => e.data | none => []), lineOf x.1 = line := by
    cases old with
    | none => exact ⟨rfl, by simp⟩
    | some e => exact ⟨(ho e rfl).1.1, fun x hx => ((ho e rfl).1.2.1 x hx).trans (ho e rfl).2⟩
  have go : ∀ (cs d : List Host.Cell), (∀ c ∈ cs, lineOf c.1 = line) → (Sparse.risingFrom none d = true ∧ ∀ x ∈ d, lineOf x.1 = line) →
      Sparse.risingFrom none (cs.foldl (fun d c => putCell d c.1 c.2) d) = true ∧ ∀ x ∈ cs.foldl (fun d c => putCell d c.1 c.2) d, lineOf x.1 = line := by
    intro cs
    induction cs with
    | nil => exact fun d _ hd => hd
    | cons c t ih =>
      intro d hc hd
      refine ih _ (fun x hx => hc x (List.mem_cons_of_mem _ hx)) ⟨Sparse.risingFrom_put _ _ _ hd.1 (by simp), fun x hx => ?_⟩
      rcases Sparse.mem_put hx with rfl | hx
      · exact hc c (List.mem_cons_self ..)
      · exact hd.2 x hx
  have := go (cells.filter fun c => lineOf c.1 == line) _ (fun c hc => by simpa using (List.mem_filter.1 hc).2) base
  exact ⟨this.1, this.2, fun _ hd => by cases hd⟩

theorem State.cline_mem {s : State} {lvl : Lvl} {line : ℕ} {e : CLine} (h : s.cline lvl line = some e) :
    e ∈ s.cache ∧ e.lvl = lvl ∧ e.line = line := by
  have h2 := List.find?_some h
  simp only [Bool.and_eq_true, beq_iff_eq] at h2
  exact ⟨List.mem_of_find?_eq_some h, h2.1, h2.2⟩

theorem State.cline_none {s : State} {lvl : Lvl} {line : ℕ} (h : s.cline lvl line = none) : ∀ e ∈ s.cache, e.line = line → e.lvl ≠ lvl := by
  intro e he hl hv
  exact absurd (List.find?_eq_none.1 h e he) (by simp [hl, hv])

theorem State.tidy_wrote {s : State} (h : s.tidy) (lvl lvl' : Lvl) (line key way : ℕ) (cells : List Host.Cell) :
    (CLine.wrote (s.cline lvl line) lvl' line key way cells).ok :=
  CLine.wrote_ok _ _ _ _ _ fun _ he => ⟨State.tidy_ok h (State.cline_mem he).1, (State.cline_mem he).2.2⟩

/-- An entry of a level that is no L1 and no RDC. -/
theorem State.tidy_setLow {s : State} {e : CLine} (h : s.tidy) (ho : e.ok) (hl : isL1 e.lvl = false) (hr : ∀ d, e.lvl ≠ .rdc d) :
    (s.setLine e).tidy :=
  State.tidy_setLine h ho fun x _ _ _ => ⟨CLine.fits_of_low hl, fun c _ _ => ⟨fun hi => absurd hi (by simp [hl]), hr _⟩⟩

/-- An entry that stands already is the one used last. -/
theorem State.tidy_again {s : State} {e : CLine} (h : s.tidy) (he : e ∈ s.cache) : (s.setLine e).tidy := by
  refine State.tidy_setLine h (State.tidy_ok h he) fun x hx hl hv => ⟨fun c hc hd => ?_, fun c hc hd => ?_⟩
  · obtain ⟨h1, h2⟩ := ((h e he).2.2.2 x hx hl).2 c hc hd
    refine ⟨fun hi => ⟨?_, hv⟩, h2⟩
    cases hxd : x.dirty with
    | false => rfl
    | true => exact absurd (congrArg CLine.lvl (h1 hi (Or.inl hxd))) hv
  · obtain ⟨h1, h2⟩ := ((h x hx).2.2.2 e he hl.symm).2 c hc hd
    refine ⟨fun hi => ⟨?_, Ne.symm hv⟩, h2⟩
    cases hxd : e.dirty with
    | false => rfl
    | true => exact absurd (congrArg CLine.lvl (h1 hi (Or.inl hxd))).symm hv

/-- A clean entry of an L1 that has none of its line. -/
theorem State.tidy_setL1 {s : State} {core line key way : ℕ} (h : s.tidy) : (s.setLine ⟨.l1 core, line, key, way, false, []⟩).tidy :=
  State.tidy_setLine h ⟨rfl, by simp, fun _ _ => rfl⟩ fun x _ _ hv =>
    ⟨CLine.fits_of_clean rfl, fun c _ _ => ⟨fun _ => ⟨rfl, Ne.symm hv⟩, by simp⟩⟩

/-! ### A level that gives up a line, or takes one in -/

theorem State.tidy_writeBackL2 {s : State} (line : ℕ) (h : s.tidy) : (s.writeBackL2 line).tidy := by
  rw [State.writeBackL2]
  split
  · exact h
  · exact State.tidy_of_cache (State.tidy_dropLine _ _ h) (State.memWrite_cache ..)

theorem State.tidy_mergeL1 {s : State} (line : ℕ) (h : s.tidy) : (s.mergeL1 line).tidy := by
  refine State.tidy_foldl (fun u e hu => ?_) _ (State.tidy_of_subset h fun _ he => List.mem_of_mem_filter he)
  exact State.tidy_setLow hu (State.tidy_wrote hu ..) rfl (by simp [CLine.wrote])

theorem State.tidy_loseL2 {s : State} (line : ℕ) (h : s.tidy) : (s.loseL2 line).tidy :=
  State.tidy_of_cache (State.tidy_writeBackL2 line (State.tidy_mergeL1 line h)) rfl

theorem State.tidy_evictL2 {s : State} (line : ℕ) (h : s.tidy) : (s.evictL2 line).tidy := by
  simp only [State.evictL2]
  split
  · exact State.tidy_loseL2 _ h
  · have h2 : ((s.mergeL1 line).setDir { s.dirOf line with cores := [], dies := [] }).tidy := State.tidy_of_cache (State.tidy_mergeL1 line h) rfl
    refine State.tidy_updIf h2 rfl fun e ho hp => ⟨rfl, rfl, rfl, fun hd => ⟨hd, ?_⟩, ho⟩
    simp only [Bool.and_eq_true, beq_iff_eq] at hp
    rw [hp.1]; rfl

theorem State.tidy_placeL2 {s : State} (line : ℕ) (h : s.tidy) : (s.placeL2 line).2.tidy := by
  rw [State.placeL2]
  split
  · exact State.tidy_evictL2 _ h
  · exact h

theorem State.tidy_putL2 {s : State} (key : ℕ) (cells : List Host.Cell) (h : s.tidy) : (s.putL2 key cells).tidy := by
  cases cells with
  | nil => exact h
  | cons c t =>
    have h2 := State.tidy_placeL2 (lineOf c.1) h
    exact State.tidy_setLow h2 (State.tidy_wrote h2 ..) rfl (by simp [CLine.wrote])

theorem State.tidy_touchL2 {s : State} (key line : ℕ) (h : s.tidy) : (s.touchL2 key line).tidy := by
  rw [State.touchL2]
  split
  · next e he => exact State.tidy_again h (State.cline_mem he).1
  · exact State.tidy_setLow (State.tidy_placeL2 line h) ⟨rfl, by simp, fun _ _ => rfl⟩ rfl (by simp)

theorem State.tidy_loseL1 {s : State} (core line : ℕ) (h : s.tidy) : (s.loseL1 core line).tidy := by
  have hd := State.tidy_dropLine (.l1 core) line h
  rw [State.loseL1]
  split
  · exact h
  · split
    · exact State.tidy_putL2 _ _ hd
    · exact hd

theorem State.tidy_placeL1 {s : State} (core line : ℕ) (h : s.tidy) : (s.placeL1 core line).2.tidy := by
  rw [State.placeL1]
  split
  · exact State.tidy_loseL1 _ _ h
  · exact h

theorem State.tidy_touchL1 {s : State} (core key line : ℕ) (h : s.tidy) : (s.touchL1 core key line).tidy := by
  rw [State.touchL1]
  split
  · next e he => exact State.tidy_again h (State.cline_mem he).1
  · exact State.tidy_setL1 (State.tidy_placeL1 core line h)

theorem State.tidy_touchL1i {s : State} (core key line : ℕ) (h : s.tidy) : (s.touchL1i core key line).tidy := by
  rw [State.touchL1i]
  split
  · next e he => exact State.tidy_again h (State.cline_mem he).1
  · split
    next w u hu =>
      refine State.tidy_setLow ?_ ⟨rfl, by simp, fun _ _ => rfl⟩ rfl (by simp)
      split at hu <;> obtain ⟨-, rfl⟩ := Prod.mk.inj hu
      · exact State.tidy_dropLine _ _ h
      · exact h

theorem State.tidy_recallL1 {s : State} (line : ℕ) (h : s.tidy) : (s.recallL1 line).tidy :=
  State.tidy_foldl (fun _ _ hu => State.tidy_putL2 _ _ hu) _ (State.tidy_of_subset h fun _ he => List.mem_of_mem_filter he)

theorem State.tidy_cleanL1 {s : State} (line : ℕ) (h : s.tidy) : (s.cleanL1 line).tidy :=
  State.tidy_foldl (fun _ _ hu => State.tidy_putL2 _ _ hu) _
    (State.tidy_updIf (t := { s with cache := _ }) h rfl fun e _ _ => ⟨rfl, rfl, rfl, fun hd => (by cases hd), rfl, by simp, fun _ _ => rfl⟩)

theorem State.tidy_recordHolder {s : State} (line : ℕ) (hd : Holder) (h : s.tidy) : (s.recordHolder line hd).tidy := by
  refine State.tidy_of_cache (s := match s.l1Dirty line, hd with
    | some e, .l1 c => if e.lvl == Lvl.l1 c then s else s.cleanL1 line
    | some _, _ => s.cleanL1 line
    | none, _ => s) ?_ rfl
  split
  · split
    · exact h
    · exact State.tidy_cleanL1 line h
  · exact State.tidy_cleanL1 line h
  · exact h

/-! ### What stands above the L2s -/

/-- Above the L2s a state holds nothing that another one does not. -/
def State.above (s t : State) : Prop := ∀ e ∈ t.cache, e.lvl ≠ .l2 → e ∈ s.cache

theorem State.above_refl (s : State) : s.above s := fun _ he _ => he

theorem State.above_trans {s t u : State} (h : s.above t) (k : t.above u) : s.above u := fun e he hl => h e (k e he hl) hl

theorem State.above_of_subset {s t : State} (h : ∀ e ∈ t.cache, e ∈ s.cache) : s.above t := fun e he _ => h e he

theorem State.above_foldl {β : Type} {f : State → β → State} (hf : ∀ (s : State) b, s.above (f s b)) (l : List β) (s : State) : s.above (l.foldl f s) := by
  induction l generalizing s with
  | nil => exact State.above_refl s
  | cons b t ih => exact State.above_trans (hf s b) (ih (f s b))

theorem State.above_setLine {s : State} {e : CLine} (h : e.lvl = .l2) : s.above (s.setLine e) := by
  intro x hx hl
  simp only [State.setLine, List.mem_append, List.mem_singleton] at hx
  rcases hx with hx | rfl
  · exact List.mem_of_mem_filter hx
  · exact absurd h hl

theorem State.above_writeBackL2 (s : State) (line : ℕ) : s.above (s.writeBackL2 line) := by
  rw [State.writeBackL2]
  split
  · exact State.above_refl s
  · exact State.above_of_subset fun e he => List.mem_of_mem_filter (p := fun e => !(e.lvl == .l2 && e.line == line)) (by rwa [State.memWrite_cache] at he)

theorem State.above_mergeL1 (s : State) (line : ℕ) : s.above (s.mergeL1 line) :=
  State.above_trans (State.above_of_subset (t := { s with cache := _ }) fun _ he => List.mem_of_mem_filter he)
    (State.above_foldl (fun _ _ => State.above_setLine (by rfl)) _ _)

theorem State.above_evictL2 (s : State) (line : ℕ) : s.above (s.evictL2 line) := by
  simp only [State.evictL2]
  split
  · exact State.above_trans (State.above_mergeL1 s line) (State.above_writeBackL2 _ line)
  · refine State.above_trans (State.above_mergeL1 s line) fun e he hl => ?_
    simp only [State.sendInvals_cache, updIf, List.mem_map] at he
    obtain ⟨x, hx, rfl⟩ := he
    split at hl
    next hp =>
      simp only [Bool.and_eq_true, beq_iff_eq] at hp
      exact absurd hp.1 hl
    next hp => rw [if_neg hp]; exact hx

theorem State.above_placeL2 (s : State) (line : ℕ) : s.above (s.placeL2 line).2 := by
  rw [State.placeL2]
  split
  · exact State.above_evictL2 _ _
  · exact State.above_refl s

theorem State.above_putL2 (s : State) (key : ℕ) (cells : List Host.Cell) : s.above (s.putL2 key cells) := by
  cases cells with
  | nil => exact State.above_refl s
  | cons c t => exact State.above_trans (State.above_placeL2 s (lineOf c.1)) (State.above_setLine rfl)

theorem State.above_touchL2 (s : State) (key line : ℕ) : s.above (s.touchL2 key line) := by
  rw [State.touchL2]
  split
  · next e he => exact State.above_setLine (State.cline_mem he).2.1
  · exact State.above_trans (State.above_placeL2 s line) (State.above_setLine rfl)

theorem State.above_placeL1 (s : State) (core line : ℕ) : s.above (s.placeL1 core line).2 := by
  have hd : ∀ l, s.above (s.dropLine (.l1 core) l) := fun l => State.above_of_subset fun _ he => List.mem_of_mem_filter he
  have go : ∀ l, s.above (s.loseL1 core l) := by
    intro l
    rw [State.loseL1]
    split
    · exact State.above_refl s
    · split
      · exact State.above_trans (hd l) (State.above_putL2 _ _ _)
      · exact hd l
  rw [State.placeL1]
  split
  · exact go _
  · exact State.above_refl s

/-- After it is cleaned a line is dirty in no L1. -/
theorem State.cleanL1_clean (s : State) (line : ℕ) : ∀ e ∈ (s.cleanL1 line).cache, isL1 e.lvl = true → e.line = line → e.dirty = false := by
  intro e he hi hl
  have := State.above_foldl (fun (s : State) (e : CLine) => State.above_putL2 s e.key e.data) _ _ e he (by rintro h; rw [h] at hi; cases hi)
  simp only [updIf, List.mem_map] at this
  obtain ⟨x, hx, rfl⟩ := this
  split
  · rfl
  · next hp =>
    rw [if_neg hp] at hi hl
    exact absurd (by simp [hi, hl]) hp

/-! ### Accesses to a line -/

theorem State.tidy_touchRdc {s : State} (die key line : ℕ) (h : s.tidy) : (s.touchRdc die key line).tidy := by
  have hr : ∀ u : State, u = (if (s.l1Dirty line).isSome then s.cleanL1 line else s) →
      u.tidy ∧ ∀ e ∈ u.cache, isL1 e.lvl = true → e.line = line → e.dirty = false := by
    rintro u rfl
    split
    · exact ⟨State.tidy_cleanL1 _ h, State.cleanL1_clean s line⟩
    · next hn =>
      refine ⟨h, fun e he hi hl => ?_⟩
      cases hd : e.dirty with
      | false => rfl
      | true => exact absurd (List.find?_isSome.2 ⟨e, he, by simp [hi, hl, hd]⟩) hn
  have put : ∀ (u : State) (w : ℕ), u.tidy → (∀ e ∈ u.cache, isL1 e.lvl = true → e.line = line → e.dirty = false) →
      (u.setLine ⟨.rdc die, line, key, w, false, []⟩).tidy := fun u w hu hc =>
    State.tidy_setLine hu ⟨rfl, by simp, fun _ _ => rfl⟩ fun x hx hl _ => ⟨CLine.fits_of_low rfl, fun c hxc hxd =>
      absurd hxd (by rw [hc x hx (by rw [hxc]; rfl) hl]; simp)⟩
  obtain ⟨h1, h2⟩ := hr _ rfl
  simp only [State.touchRdc]
  split
  · next e he => exact State.tidy_again h1 (State.cline_mem he).1
  · split
    · exact put _ _ (State.tidy_of_subset h1 fun _ he => List.mem_of_mem_filter he) fun e he => h2 e (List.mem_of_mem_filter he)
    · exact put _ _ h1 h2

theorem State.tidy_cleanL2 {s : State} (line : ℕ) (h : s.tidy) : (s.cleanL2 line).tidy := by
  rw [State.cleanL2]
  split
  · exact h
  · exact State.tidy_updIf h rfl fun e _ _ => ⟨rfl, rfl, rfl, fun hd => (by cases hd), rfl, by simp, fun _ _ => rfl⟩

theorem State.tidy_settle {s : State} (line key : ℕ) (h : s.tidy) : (s.settle line key).tidy := by
  have hr : State.tidy (if (s.cache.any fun e => e.lvl != .l2 && e.line == line && e.key != key) then s.recallL1 line else s) := by
    split
    · exact State.tidy_recallL1 _ h
    · exact h
  rw [State.settle]
  split
  · split
    · exact hr
    · exact State.tidy_writeBackL2 _ hr
  · exact hr

theorem State.tidy_fetchShared {s : State} (die key pa : ℕ) (h : s.tidy) : (s.fetchShared die key pa).tidy := by
  rw [State.fetchShared]
  split
  · split
    · exact State.tidy_touchL2 _ _ h
    · exact State.tidy_touchRdc _ _ _ (State.tidy_recordHolder _ _ (State.tidy_touchL2 _ _ h))
  · exact State.tidy_touchRdc _ _ _ h

theorem State.tidy_record {s : State} (core key pa : ℕ) (h : s.tidy) : (s.record core key pa).tidy := by
  have h1 := State.tidy_fetchShared (dieOfCore core) key pa h
  rw [State.record]
  split
  · exact State.tidy_touchL1 _ _ _ (State.tidy_recordHolder _ _ h1)
  · exact State.tidy_touchL1 _ _ _ h1

theorem State.tidy_recordCode {s : State} (core key pa : ℕ) (h : s.tidy) : (s.recordCode core key pa).tidy := by
  have h1 := State.tidy_fetchShared (dieOfCore core) key pa h
  rw [State.recordCode]
  split
  · exact State.tidy_touchL1i _ _ _ (State.tidy_recordHolder _ _ h1)
  · exact State.tidy_touchL1i _ _ _ h1

theorem State.tidy_takeLine {s : State} (key line : ℕ) (h : s.tidy) : (s.takeLine key line).tidy :=
  State.tidy_of_cache (State.tidy_recallL1 line (State.tidy_settle line key (State.tidy_of_cache (t := s.staleSide line) h rfl))) rfl

theorem State.tidy_homeWrite {s : State} (key : ℕ) (cells : List Host.Cell) (h : s.tidy) : (s.homeWrite key cells).tidy := by
  cases cells with
  | nil => exact h
  | cons c t =>
    obtain ⟨a, b⟩ := c
    have h1 := State.tidy_takeLine key (lineOf a) h
    simp only [State.homeWrite]
    split
    · exact State.tidy_putL2 _ _ h1
    · exact State.tidy_of_cache h1 (State.memWrite_cache ..)

theorem State.tidy_homeWriteBytes {s : State} (key pa : ℕ) (bytes : List Byte) (h : s.tidy) : (s.homeWriteBytes key pa bytes).tidy :=
  State.tidy_foldl (fun _ cs hs => State.tidy_homeWrite key cs hs) _ h

theorem State.tidy_rawPut {s : State} (cells : List Host.Cell) (h : s.tidy) : (s.rawPut cells).tidy := by
  cases cells with
  | nil => exact h
  | cons c t =>
    simp only [State.rawPut]
    split
    · exact State.tidy_homeWrite _ _ h
    · exact State.tidy_of_cache (State.tidy_recallL1 (lineOf c.1) (State.tidy_of_cache (t := s.staleSide (lineOf c.1)) h rfl)) rfl

theorem State.tidy_rawWrite {s : State} (pa : ℕ) (bytes : List Byte) (h : s.tidy) : (s.rawWrite pa bytes).tidy :=
  State.tidy_foldl (fun _ cs hs => State.tidy_rawPut cs hs) _ h

theorem State.tidy_discardLine {s : State} (line : ℕ) (h : s.tidy) : (s.discardLine line).tidy := by
  simp only [State.discardLine]
  split <;> exact State.tidy_of_subset h fun _ he => List.mem_of_mem_filter he

theorem State.tidy_loseRdc {s : State} (die line : ℕ) (h : s.tidy) : (s.loseRdc die line).tidy :=
  State.tidy_of_subset h fun _ he => List.mem_of_mem_filter he

theorem State.tidy_passRdc {s : State} (core line : ℕ) (atomic : Bool) (h : s.tidy) : (s.passRdc core line atomic).tidy := by
  simp only [State.passRdc]
  split
  · exact h
  · exact State.tidy_of_subset h fun _ he => List.mem_of_mem_filter he

/-- A core writes cells in its L1, where no other level above the L2 holds the line. -/
theorem State.tidy_putL1 {s : State} (core key : ℕ) (cells : List Host.Cell) (h : s.tidy)
    (ha : ∀ c ∈ cells.head?, ∀ e ∈ s.cache, e.line = lineOf c.1 → e.lvl = .l2 ∨ e.lvl = .l1 core) : (s.putL1 core key cells).tidy := by
  cases cells with
  | nil => exact h
  | cons c t =>
    have h1 := State.tidy_placeL1 core (lineOf c.1) h
    have h2 := State.above_placeL1 s core (lineOf c.1)
    refine State.tidy_setLine h1 (State.tidy_wrote h1 ..) fun x hx hl hv => ?_
    have : x.lvl = .l2 := by
      by_cases hn : x.lvl = .l2
      · exact hn
      · exact (ha c rfl x (h2 x hx hn) hl).resolve_right hv
    exact ⟨fun d _ _ => ⟨fun hi => absurd hi (by rw [this]; simp [isL1]), by rw [this]; simp⟩, CLine.fits_of_low (by rw [this]; rfl)⟩

theorem State.tidy_grantWrite {s : State} (core key : ℕ) (cells : List Host.Cell) (h : s.tidy) : (s.grantWrite core key cells).tidy := by
  cases cells with
  | nil => exact h
  | cons c t =>
    obtain ⟨a, b⟩ := c
    have h2 : ((s.staleSide (lineOf a)).settle (lineOf a) key).tidy := State.tidy_settle _ _ (State.tidy_of_cache (t := s.staleSide (lineOf a)) h rfl)
    have h3 := State.tidy_homeWrite key ((a, b) :: t) h
    simp only [State.grantWrite]
    split
    · generalize hu : (if ((s.staleSide (lineOf a)).settle (lineOf a) key).l1Dirty (lineOf a) =
          ((s.staleSide (lineOf a)).settle (lineOf a) key).cline (.l1 core) (lineOf a)
        then (s.staleSide (lineOf a)).settle (lineOf a) key else ((s.staleSide (lineOf a)).settle (lineOf a) key).recallL1 (lineOf a)) = u
      have h4 : u.tidy := by
        rw [← hu]
        split
        · exact h2
        · exact State.tidy_recallL1 _ h2
      refine State.tidy_putL1 core key _ (State.tidy_of_cache (State.tidy_touchL2 key (lineOf a)
        (State.tidy_of_subset h4 fun _ he => List.mem_of_mem_filter he)) rfl) ?_
      intro c hc e he hl
      simp only [List.head?_cons, Option.mem_def, Option.some.injEq] at hc
      subst hc
      by_cases hn : e.lvl = .l2
      · exact Or.inl hn
      · have := State.above_touchL2 _ key (lineOf a) e he hn
        simp only [List.mem_filter, Bool.not_eq_true', Bool.and_eq_false_iff, beq_eq_false_iff_ne, bne_eq_false_iff_eq] at this
        tauto
    · split
      · exact h3
      · split
        · exact State.tidy_touchL1 _ _ _ (State.tidy_recordHolder _ _ h3)
        · exact State.tidy_touchL1 _ _ _ h3

end Sys2Proof.Machine
end

