-- ==== Sys2Proof/Laws/Issue.lean ====
section
/-! SUPPORT. What the shared frames of an instruction do: one lemma for each of them, for words that issue and for words that do not. -/

namespace Sys2Proof.Machine

/-! ### The order of checks, 16 R353 -/

/-- A word whose level is not allowed traps with 0x03, before every other check. -/
theorem issueNamed_privilege {s : State} {c : Cur} {p : Priv} (g : Guard) (names uses : List Nat) (body : Cur → List Nat → State → Res)
    (h : p.allows (s.group c.ti c.gi).level = false) : issueNamed p g names uses body c s = trapRun s c 0x03 c.w0 := by
  simp [issueNamed, h]

/-- A word that issues ends as its own part says. -/
theorem issueNamed_issues {s : State} {c : Cur} {p : Priv} {g : Guard} {names uses : List Nat} (body : Cur → List Nat → State → Res)
    (h : Issues s c p g names uses) :
    issueNamed p g names uses body c s = finish s c (activeLanes s c g) (body c (activeLanes s c g) s) := by
  simp [issueNamed, h.level, h.guard, h.claims, h.board]

/-- A register beyond the claim of an active lane traps with 0x0B and the register number (08 R172). -/
theorem issueNamed_claim {s : State} {c : Cur} {p : Priv} {g : Guard} {names : List Nat} (uses : List Nat)
    (body : Cur → List Nat → State → Res) {r : Nat} (hl : p.allows (s.group c.ti c.gi).level = true)
    (hg : pendingLanes s c c.lanes (guardRegs g) = []) (hc : claimFail s c (activeLanes s c g) (guardRegs g ++ names) = some r) :
    issueNamed p g names uses body c s = trapRun s c 0x0B (BitVec.ofNat 64 r) := by
  simp [issueNamed, hl, hg, hc]

/-- `named` on a word that issues. -/
theorem named_issues {s : State} {c : Cur} {p : Priv} {g : Guard} {names uses : List Nat} (body : Cur → List Nat → State → Res)
    (h : Issues s c p g names uses) :
    named p g names uses body s = .next (finish s c (activeLanes s c g) (body c (activeLanes s c g) s)) := by
  simp [named, h.cur, issueNamed_issues body h]

/-- `ordinary` on a word that issues. -/
theorem ordinary_issues {s : State} {c : Cur} {p : Priv} {g : Guard} {regs : List Nat} (body : Cur → List Nat → State → Res)
    (h : Issues s c p g regs regs) :
    ordinary p g regs body s = .next (finish s c (activeLanes s c g) (body c (activeLanes s c g) s)) := by
  simp [ordinary, issueWord, h.cur, issueNamed_issues body h]

/-- `ordinary` in a mode that may not run the word. -/
theorem ordinary_privilege {s : State} {c : Cur} {p : Priv} (g : Guard) (regs : List Nat) (body : Cur → List Nat → State → Res)
    (hc : s.cur = some c) (h : p.allows (s.group c.ti c.gi).level = false) :
    ordinary p g regs body s = .next (trapRun s c 0x03 c.w0) := by
  simp [ordinary, issueWord, hc, issueNamed_privilege g regs regs body h]

/-- `ordinary` without an issuing run. -/
theorem ordinary_noRun {s : State} (p : Priv) (g : Guard) (regs : List Nat) (body : Cur → List Nat → State → Res) (hc : s.cur = none) :
    ordinary p g regs body s = .fault .noRun := by
  simp [ordinary, hc]

/-- `ordinary` with a run answers a next state, whatever happens. -/
theorem ordinary_next {s : State} {c : Cur} (p : Priv) (g : Guard) (regs : List Nat) (body : Cur → List Nat → State → Res)
    (hc : s.cur = some c) : ordinary p g regs body s = .next (issueWord p g regs body c s) := by
  simp [ordinary, hc]

/-! ### Gathered words, 11 R240 -/

/-- A gathered word issues when its run holds every thread of the group that has not exited. -/
theorem gathered_issues {s : State} {c : Cur} {g : Guard} {regs : List Nat} (body : Cur → List Nat → State → Res)
    (h : Ready s c g regs) (all : ∀ l ∈ gatherSet s c, l ∈ c.lanes) :
    gathered g regs body s = .next (finish s c (activeLanes s c g) (body c (activeLanes s c g) s)) := by
  simp only [gathered, h.cur, List.all_eq_true, List.contains_iff_mem]
  rw [if_pos all, issueWord, issueNamed_issues body h]

/-- Until then its lanes wait. -/
theorem gathered_waits {s : State} {c : Cur} (g : Guard) (regs : List Nat) (body : Cur → List Nat → State → Res) (hc : s.cur = some c)
    {l : Nat} (hl : l ∈ gatherSet s c) (hn : l ∉ c.lanes) :
    gathered g regs body s = .next (s.modLanes c.ti c.gi c.lanes fun _ t => { t with hold := .gather }) := by
  simp only [gathered, hc, List.all_eq_true, List.contains_iff_mem]
  rw [if_neg fun ha => hn (ha l hl)]

/-! ### Lane by lane -/

/-- A word that computes each active lane from that lane alone. -/
theorem perLane_issues {s : State} {c : Cur} {g : Guard} {regs : List Nat} (f : Cur → Nat → Thread → Thread) (h : Ready s c g regs) :
    ordinary .all g regs (perLane f) s = .next (afterLanes s c g (f c)) := by
  rw [ordinary_issues _ h]; rfl

/-- `alu1` computes. -/
theorem alu1_issues {s : State} {c : Cur} {g : Guard} {wd : Nat} {d : Dst} {wa : Nat} {a : Src} (f : DWord → DWord)
    (h : Ready s c g (regs1 wd d wa a)) :
    alu1 g wd d wa a f s = .next (afterLanes s c g fun _ t => writeback t d wd (f (operand t wa a)) true) := by
  rw [alu1]; exact perLane_issues _ h

/-- `alu2` computes. -/
theorem alu2_issues {s : State} {c : Cur} {g : Guard} {wd : Nat} {d : Dst} {wa : Nat} {a : Src} {wb : Nat} {b : SrcB}
    (f : DWord → DWord → DWord) (h : Ready s c g (regs2 wd d wa a wb b)) :
    alu2 g wd d wa a wb b f s =
      .next (afterLanes s c g fun _ t => writeback t d wd (f (operand t wa a) (operandB t wb b)) true) := by
  rw [alu2]; exact perLane_issues _ h

/-- `alu3` computes. -/
theorem alu3_issues {s : State} {c : Cur} {g : Guard} {wd : Nat} {d : Dst} {wa : Nat} {a : Src} {wb : Nat} {b : SrcB} {wc : Nat} {r : Src}
    (f : DWord → DWord → DWord → DWord) (h : Ready s c g (regs3 wd d wa a wb b wc r)) :
    alu3 g wd d wa a wb b wc r f s =
      .next (afterLanes s c g fun _ t => writeback t d wd (f (operand t wa a) (operandB t wb b) (operand t wc r)) true) := by
  rw [alu3]; exact perLane_issues _ h

end Sys2Proof.Machine
end

