-- ==== Sys2Proof/Laws/State.lean ====
section
/-! SUPPORT. Each field of a record after each small update of it: true by definition, so that no proof unfolds an update. -/

namespace Sys2Proof.Machine

/-! ### `State.modTeam` -/

section
variable (s : State) (ti : ℕ) (f : Team → Team)

@[simp] theorem State.modTeam_agenda : (s.modTeam ti f).agenda = s.agenda := rfl
@[simp] theorem State.modTeam_cur : (s.modTeam ti f).cur = s.cur := rfl
@[simp] theorem State.modTeam_issued : (s.modTeam ti f).issued = s.issued := rfl
@[simp] theorem State.modTeam_mem : (s.modTeam ti f).mem = s.mem := rfl
@[simp] theorem State.modTeam_memTag : (s.modTeam ti f).memTag = s.memTag := rfl
@[simp] theorem State.modTeam_frameTag : (s.modTeam ti f).frameTag = s.frameTag := rfl
@[simp] theorem State.modTeam_cache : (s.modTeam ti f).cache = s.cache := rfl
@[simp] theorem State.modTeam_dir : (s.modTeam ti f).dir = s.dir := rfl
@[simp] theorem State.modTeam_invals : (s.modTeam ti f).invals = s.invals := rfl
@[simp] theorem State.modTeam_invalAt : (s.modTeam ti f).invalAt = s.invalAt := rfl
@[simp] theorem State.modTeam_againAt : (s.modTeam ti f).againAt = s.againAt := rfl
@[simp] theorem State.modTeam_loads : (s.modTeam ti f).loads = s.loads := rfl
@[simp] theorem State.modTeam_stores : (s.modTeam ti f).stores = s.stores := rfl
@[simp] theorem State.modTeam_tlb : (s.modTeam ti f).tlb = s.tlb := rfl
@[simp] theorem State.modTeam_walks : (s.modTeam ti f).walks = s.walks := rfl
@[simp] theorem State.modTeam_faults : (s.modTeam ti f).faults = s.faults := rfl
@[simp] theorem State.modTeam_arenas : (s.modTeam ti f).arenas = s.arenas := rfl
@[simp] theorem State.modTeam_arenaGen : (s.modTeam ti f).arenaGen = s.arenaGen := rfl
@[simp] theorem State.modTeam_keys : (s.modTeam ti f).keys = s.keys := rfl
@[simp] theorem State.modTeam_peerKeys : (s.modTeam ti f).peerKeys = s.peerKeys := rfl
@[simp] theorem State.modTeam_nodes : (s.modTeam ti f).nodes = s.nodes := rfl
@[simp] theorem State.modTeam_slots : (s.modTeam ti f).slots = s.slots := rfl
@[simp] theorem State.modTeam_slotDue : (s.modTeam ti f).slotDue = s.slotDue := rfl
@[simp] theorem State.modTeam_retired : (s.modTeam ti f).retired = s.retired := rfl
@[simp] theorem State.modTeam_chains : (s.modTeam ti f).chains = s.chains := rfl
@[simp] theorem State.modTeam_served : (s.modTeam ti f).served = s.served := rfl
@[simp] theorem State.modTeam_accRows : (s.modTeam ti f).accRows = s.accRows := rfl
@[simp] theorem State.modTeam_streams : (s.modTeam ti f).streams = s.streams := rfl
@[simp] theorem State.modTeam_rgetQ : (s.modTeam ti f).rgetQ = s.rgetQ := rfl
@[simp] theorem State.modTeam_acgQ : (s.modTeam ti f).acgQ = s.acgQ := rfl
@[simp] theorem State.modTeam_reserve : (s.modTeam ti f).reserve = s.reserve := rfl
@[simp] theorem State.modTeam_shuffles : (s.modTeam ti f).shuffles = s.shuffles := rfl
@[simp] theorem State.modTeam_side : (s.modTeam ti f).side = s.side := rfl
@[simp] theorem State.modTeam_strainer : (s.modTeam ti f).strainer = s.strainer := rfl
@[simp] theorem State.modTeam_bfqs : (s.modTeam ti f).bfqs = s.bfqs := rfl
@[simp] theorem State.modTeam_wakes : (s.modTeam ti f).wakes = s.wakes := rfl
@[simp] theorem State.modTeam_dies : (s.modTeam ti f).dies = s.dies := rfl
@[simp] theorem State.modTeam_ports : (s.modTeam ti f).ports = s.ports := rfl
@[simp] theorem State.modTeam_queues : (s.modTeam ti f).queues = s.queues := rfl
@[simp] theorem State.modTeam_mgmtIn : (s.modTeam ti f).mgmtIn = s.mgmtIn := rfl
@[simp] theorem State.modTeam_mgmtDue : (s.modTeam ti f).mgmtDue = s.mgmtDue := rfl
@[simp] theorem State.modTeam_sent : (s.modTeam ti f).sent = s.sent := rfl
@[simp] theorem State.modTeam_outbox : (s.modTeam ti f).outbox = s.outbox := rfl
@[simp] theorem State.modTeam_carve : (s.modTeam ti f).carve = s.carve := rfl
@[simp] theorem State.modTeam_module : (s.modTeam ti f).module = s.module := rfl
@[simp] theorem State.modTeam_sem : (s.modTeam ti f).sem = s.sem := rfl
@[simp] theorem State.modTeam_pins : (s.modTeam ti f).pins = s.pins := rfl
@[simp] theorem State.modTeam_nextId : (s.modTeam ti f).nextId = s.nextId := rfl
@[simp] theorem State.modTeam_clock : (s.modTeam ti f).clock = s.clock := rfl
@[simp] theorem State.modTeam_freeCtr : (s.modTeam ti f).freeCtr = s.freeCtr := rfl
@[simp] theorem State.modTeam_traps : (s.modTeam ti f).traps = s.traps := rfl
@[simp] theorem State.modTeam_asks : (s.modTeam ti f).asks = s.asks := rfl
@[simp] theorem State.modTeam_unanswered : (s.modTeam ti f).unanswered = s.unanswered := rfl
end

/-! ### `State.modGroup` -/

section
variable (s : State) (ti gi : ℕ) (f : Group → Group)

@[simp] theorem State.modGroup_agenda : (s.modGroup ti gi f).agenda = s.agenda := rfl
@[simp] theorem State.modGroup_cur : (s.modGroup ti gi f).cur = s.cur := rfl
@[simp] theorem State.modGroup_issued : (s.modGroup ti gi f).issued = s.issued := rfl
@[simp] theorem State.modGroup_mem : (s.modGroup ti gi f).mem = s.mem := rfl
@[simp] theorem State.modGroup_memTag : (s.modGroup ti gi f).memTag = s.memTag := rfl
@[simp] theorem State.modGroup_frameTag : (s.modGroup ti gi f).frameTag = s.frameTag := rfl
@[simp] theorem State.modGroup_cache : (s.modGroup ti gi f).cache = s.cache := rfl
@[simp] theorem State.modGroup_dir : (s.modGroup ti gi f).dir = s.dir := rfl
@[simp] theorem State.modGroup_invals : (s.modGroup ti gi f).invals = s.invals := rfl
@[simp] theorem State.modGroup_invalAt : (s.modGroup ti gi f).invalAt = s.invalAt := rfl
@[simp] theorem State.modGroup_againAt : (s.modGroup ti gi f).againAt = s.againAt := rfl
@[simp] theorem State.modGroup_loads : (s.modGroup ti gi f).loads = s.loads := rfl
@[simp] theorem State.modGroup_stores : (s.modGroup ti gi f).stores = s.stores := rfl
@[simp] theorem State.modGroup_tlb : (s.modGroup ti gi f).tlb = s.tlb := rfl
@[simp] theorem State.modGroup_walks : (s.modGroup ti gi f).walks = s.walks := rfl
@[simp] theorem State.modGroup_faults : (s.modGroup ti gi f).faults = s.faults := rfl
@[simp] theorem State.modGroup_arenas : (s.modGroup ti gi f).arenas = s.arenas := rfl
@[simp] theorem State.modGroup_arenaGen : (s.modGroup ti gi f).arenaGen = s.arenaGen := rfl
@[simp] theorem State.modGroup_keys : (s.modGroup ti gi f).keys = s.keys := rfl
@[simp] theorem State.modGroup_peerKeys : (s.modGroup ti gi f).peerKeys = s.peerKeys := rfl
@[simp] theorem State.modGroup_nodes : (s.modGroup ti gi f).nodes = s.nodes := rfl
@[simp] theorem State.modGroup_slots : (s.modGroup ti gi f).slots = s.slots := rfl
@[simp] theorem State.modGroup_slotDue : (s.modGroup ti gi f).slotDue = s.slotDue := rfl
@[simp] theorem State.modGroup_retired : (s.modGroup ti gi f).retired = s.retired := rfl
@[simp] theorem State.modGroup_chains : (s.modGroup ti gi f).chains = s.chains := rfl
@[simp] theorem State.modGroup_served : (s.modGroup ti gi f).served = s.served := rfl
@[simp] theorem State.modGroup_accRows : (s.modGroup ti gi f).accRows = s.accRows := rfl
@[simp] theorem State.modGroup_streams : (s.modGroup ti gi f).streams = s.streams := rfl
@[simp] theorem State.modGroup_rgetQ : (s.modGroup ti gi f).rgetQ = s.rgetQ := rfl
@[simp] theorem State.modGroup_acgQ : (s.modGroup ti gi f).acgQ = s.acgQ := rfl
@[simp] theorem State.modGroup_reserve : (s.modGroup ti gi f).reserve = s.reserve := rfl
@[simp] theorem State.modGroup_shuffles : (s.modGroup ti gi f).shuffles = s.shuffles := rfl
@[simp] theorem State.modGroup_side : (s.modGroup ti gi f).side = s.side := rfl
@[simp] theorem State.modGroup_strainer : (s.modGroup ti gi f).strainer = s.strainer := rfl
@[simp] theorem State.modGroup_bfqs : (s.modGroup ti gi f).bfqs = s.bfqs := rfl
@[simp] theorem State.modGroup_wakes : (s.modGroup ti gi f).wakes = s.wakes := rfl
@[simp] theorem State.modGroup_dies : (s.modGroup ti gi f).dies = s.dies := rfl
@[simp] theorem State.modGroup_ports : (s.modGroup ti gi f).ports = s.ports := rfl
@[simp] theorem State.modGroup_queues : (s.modGroup ti gi f).queues = s.queues := rfl
@[simp] theorem State.modGroup_mgmtIn : (s.modGroup ti gi f).mgmtIn = s.mgmtIn := rfl
@[simp] theorem State.modGroup_mgmtDue : (s.modGroup ti gi f).mgmtDue = s.mgmtDue := rfl
@[simp] theorem State.modGroup_sent : (s.modGroup ti gi f).sent = s.sent := rfl
@[simp] theorem State.modGroup_outbox : (s.modGroup ti gi f).outbox = s.outbox := rfl
@[simp] theorem State.modGroup_carve : (s.modGroup ti gi f).carve = s.carve := rfl
@[simp] theorem State.modGroup_module : (s.modGroup ti gi f).module = s.module := rfl
@[simp] theorem State.modGroup_sem : (s.modGroup ti gi f).sem = s.sem := rfl
@[simp] theorem State.modGroup_pins : (s.modGroup ti gi f).pins = s.pins := rfl
@[simp] theorem State.modGroup_nextId : (s.modGroup ti gi f).nextId = s.nextId := rfl
@[simp] theorem State.modGroup_clock : (s.modGroup ti gi f).clock = s.clock := rfl
@[simp] theorem State.modGroup_freeCtr : (s.modGroup ti gi f).freeCtr = s.freeCtr := rfl
@[simp] theorem State.modGroup_traps : (s.modGroup ti gi f).traps = s.traps := rfl
@[simp] theorem State.modGroup_asks : (s.modGroup ti gi f).asks = s.asks := rfl
@[simp] theorem State.modGroup_unanswered : (s.modGroup ti gi f).unanswered = s.unanswered := rfl
end

/-! ### `State.modThread` -/

section
variable (s : State) (ti gi l : ℕ) (f : Thread → Thread)

@[simp] theorem State.modThread_agenda : (s.modThread ti gi l f).agenda = s.agenda := rfl
@[simp] theorem State.modThread_cur : (s.modThread ti gi l f).cur = s.cur := rfl
@[simp] theorem State.modThread_issued : (s.modThread ti gi l f).issued = s.issued := rfl
@[simp] theorem State.modThread_mem : (s.modThread ti gi l f).mem = s.mem := rfl
@[simp] theorem State.modThread_memTag : (s.modThread ti gi l f).memTag = s.memTag := rfl
@[simp] theorem State.modThread_frameTag : (s.modThread ti gi l f).frameTag = s.frameTag := rfl
@[simp] theorem State.modThread_cache : (s.modThread ti gi l f).cache = s.cache := rfl
@[simp] theorem State.modThread_dir : (s.modThread ti gi l f).dir = s.dir := rfl
@[simp] theorem State.modThread_invals : (s.modThread ti gi l f).invals = s.invals := rfl
@[simp] theorem State.modThread_invalAt : (s.modThread ti gi l f).invalAt = s.invalAt := rfl
@[simp] theorem State.modThread_againAt : (s.modThread ti gi l f).againAt = s.againAt := rfl
@[simp] theorem State.modThread_loads : (s.modThread ti gi l f).loads = s.loads := rfl
@[simp] theorem State.modThread_stores : (s.modThread ti gi l f).stores = s.stores := rfl
@[simp] theorem State.modThread_tlb : (s.modThread ti gi l f).tlb = s.tlb := rfl
@[simp] theorem State.modThread_walks : (s.modThread ti gi l f).walks = s.walks := rfl
@[simp] theorem State.modThread_faults : (s.modThread ti gi l f).faults = s.faults := rfl
@[simp] theorem State.modThread_arenas : (s.modThread ti gi l f).arenas = s.arenas := rfl
@[simp] theorem State.modThread_arenaGen : (s.modThread ti gi l f).arenaGen = s.arenaGen := rfl
@[simp] theorem State.modThread_keys : (s.modThread ti gi l f).keys = s.keys := rfl
@[simp] theorem State.modThread_peerKeys : (s.modThread ti gi l f).peerKeys = s.peerKeys := rfl
@[simp] theorem State.modThread_nodes : (s.modThread ti gi l f).nodes = s.nodes := rfl
@[simp] theorem State.modThread_slots : (s.modThread ti gi l f).slots = s.slots := rfl
@[simp] theorem State.modThread_slotDue : (s.modThread ti gi l f).slotDue = s.slotDue := rfl
@[simp] theorem State.modThread_retired : (s.modThread ti gi l f).retired = s.retired := rfl
@[simp] theorem State.modThread_chains : (s.modThread ti gi l f).chains = s.chains := rfl
@[simp] theorem State.modThread_served : (s.modThread ti gi l f).served = s.served := rfl
@[simp] theorem State.modThread_accRows : (s.modThread ti gi l f).accRows = s.accRows := rfl
@[simp] theorem State.modThread_streams : (s.modThread ti gi l f).streams = s.streams := rfl
@[simp] theorem State.modThread_rgetQ : (s.modThread ti gi l f).rgetQ = s.rgetQ := rfl
@[simp] theorem State.modThread_acgQ : (s.modThread ti gi l f).acgQ = s.acgQ := rfl
@[simp] theorem State.modThread_reserve : (s.modThread ti gi l f).reserve = s.reserve := rfl
@[simp] theorem State.modThread_shuffles : (s.modThread ti gi l f).shuffles = s.shuffles := rfl
@[simp] theorem State.modThread_side : (s.modThread ti gi l f).side = s.side := rfl
@[simp] theorem State.modThread_strainer : (s.modThread ti gi l f).strainer = s.strainer := rfl
@[simp] theorem State.modThread_bfqs : (s.modThread ti gi l f).bfqs = s.bfqs := rfl
@[simp] theorem State.modThread_wakes : (s.modThread ti gi l f).wakes = s.wakes := rfl
@[simp] theorem State.modThread_dies : (s.modThread ti gi l f).dies = s.dies := rfl
@[simp] theorem State.modThread_ports : (s.modThread ti gi l f).ports = s.ports := rfl
@[simp] theorem State.modThread_queues : (s.modThread ti gi l f).queues = s.queues := rfl
@[simp] theorem State.modThread_mgmtIn : (s.modThread ti gi l f).mgmtIn = s.mgmtIn := rfl
@[simp] theorem State.modThread_mgmtDue : (s.modThread ti gi l f).mgmtDue = s.mgmtDue := rfl
@[simp] theorem State.modThread_sent : (s.modThread ti gi l f).sent = s.sent := rfl
@[simp] theorem State.modThread_outbox : (s.modThread ti gi l f).outbox = s.outbox := rfl
@[simp] theorem State.modThread_carve : (s.modThread ti gi l f).carve = s.carve := rfl
@[simp] theorem State.modThread_module : (s.modThread ti gi l f).module = s.module := rfl
@[simp] theorem State.modThread_sem : (s.modThread ti gi l f).sem = s.sem := rfl
@[simp] theorem State.modThread_pins : (s.modThread ti gi l f).pins = s.pins := rfl
@[simp] theorem State.modThread_nextId : (s.modThread ti gi l f).nextId = s.nextId := rfl
@[simp] theorem State.modThread_clock : (s.modThread ti gi l f).clock = s.clock := rfl
@[simp] theorem State.modThread_freeCtr : (s.modThread ti gi l f).freeCtr = s.freeCtr := rfl
@[simp] theorem State.modThread_traps : (s.modThread ti gi l f).traps = s.traps := rfl
@[simp] theorem State.modThread_asks : (s.modThread ti gi l f).asks = s.asks := rfl
@[simp] theorem State.modThread_unanswered : (s.modThread ti gi l f).unanswered = s.unanswered := rfl
end

/-! ### `State.modLanes` -/

section
variable (s : State) (ti gi : ℕ) (ls : List ℕ) (f : ℕ → Thread → Thread)

@[simp] theorem State.modLanes_agenda : (s.modLanes ti gi ls f).agenda = s.agenda := rfl
@[simp] theorem State.modLanes_cur : (s.modLanes ti gi ls f).cur = s.cur := rfl
@[simp] theorem State.modLanes_issued : (s.modLanes ti gi ls f).issued = s.issued := rfl
@[simp] theorem State.modLanes_mem : (s.modLanes ti gi ls f).mem = s.mem := rfl
@[simp] theorem State.modLanes_memTag : (s.modLanes ti gi ls f).memTag = s.memTag := rfl
@[simp] theorem State.modLanes_frameTag : (s.modLanes ti gi ls f).frameTag = s.frameTag := rfl
@[simp] theorem State.modLanes_cache : (s.modLanes ti gi ls f).cache = s.cache := rfl
@[simp] theorem State.modLanes_dir : (s.modLanes ti gi ls f).dir = s.dir := rfl
@[simp] theorem State.modLanes_invals : (s.modLanes ti gi ls f).invals = s.invals := rfl
@[simp] theorem State.modLanes_invalAt : (s.modLanes ti gi ls f).invalAt = s.invalAt := rfl
@[simp] theorem State.modLanes_againAt : (s.modLanes ti gi ls f).againAt = s.againAt := rfl
@[simp] theorem State.modLanes_loads : (s.modLanes ti gi ls f).loads = s.loads := rfl
@[simp] theorem State.modLanes_stores : (s.modLanes ti gi ls f).stores = s.stores := rfl
@[simp] theorem State.modLanes_tlb : (s.modLanes ti gi ls f).tlb = s.tlb := rfl
@[simp] theorem State.modLanes_walks : (s.modLanes ti gi ls f).walks = s.walks := rfl
@[simp] theorem State.modLanes_faults : (s.modLanes ti gi ls f).faults = s.faults := rfl
@[simp] theorem State.modLanes_arenas : (s.modLanes ti gi ls f).arenas = s.arenas := rfl
@[simp] theorem State.modLanes_arenaGen : (s.modLanes ti gi ls f).arenaGen = s.arenaGen := rfl
@[simp] theorem State.modLanes_keys : (s.modLanes ti gi ls f).keys = s.keys := rfl
@[simp] theorem State.modLanes_peerKeys : (s.modLanes ti gi ls f).peerKeys = s.peerKeys := rfl
@[simp] theorem State.modLanes_nodes : (s.modLanes ti gi ls f).nodes = s.nodes := rfl
@[simp] theorem State.modLanes_slots : (s.modLanes ti gi ls f).slots = s.slots := rfl
@[simp] theorem State.modLanes_slotDue : (s.modLanes ti gi ls f).slotDue = s.slotDue := rfl
@[simp] theorem State.modLanes_retired : (s.modLanes ti gi ls f).retired = s.retired := rfl
@[simp] theorem State.modLanes_chains : (s.modLanes ti gi ls f).chains = s.chains := rfl
@[simp] theorem State.modLanes_served : (s.modLanes ti gi ls f).served = s.served := rfl
@[simp] theorem State.modLanes_accRows : (s.modLanes ti gi ls f).accRows = s.accRows := rfl
@[simp] theorem State.modLanes_streams : (s.modLanes ti gi ls f).streams = s.streams := rfl
@[simp] theorem State.modLanes_rgetQ : (s.modLanes ti gi ls f).rgetQ = s.rgetQ := rfl
@[simp] theorem State.modLanes_acgQ : (s.modLanes ti gi ls f).acgQ = s.acgQ := rfl
@[simp] theorem State.modLanes_reserve : (s.modLanes ti gi ls f).reserve = s.reserve := rfl
@[simp] theorem State.modLanes_shuffles : (s.modLanes ti gi ls f).shuffles = s.shuffles := rfl
@[simp] theorem State.modLanes_side : (s.modLanes ti gi ls f).side = s.side := rfl
@[simp] theorem State.modLanes_strainer : (s.modLanes ti gi ls f).strainer = s.strainer := rfl
@[simp] theorem State.modLanes_bfqs : (s.modLanes ti gi ls f).bfqs = s.bfqs := rfl
@[simp] theorem State.modLanes_wakes : (s.modLanes ti gi ls f).wakes = s.wakes := rfl
@[simp] theorem State.modLanes_dies : (s.modLanes ti gi ls f).dies = s.dies := rfl
@[simp] theorem State.modLanes_ports : (s.modLanes ti gi ls f).ports = s.ports := rfl
@[simp] theorem State.modLanes_queues : (s.modLanes ti gi ls f).queues = s.queues := rfl
@[simp] theorem State.modLanes_mgmtIn : (s.modLanes ti gi ls f).mgmtIn = s.mgmtIn := rfl
@[simp] theorem State.modLanes_mgmtDue : (s.modLanes ti gi ls f).mgmtDue = s.mgmtDue := rfl
@[simp] theorem State.modLanes_sent : (s.modLanes ti gi ls f).sent = s.sent := rfl
@[simp] theorem State.modLanes_outbox : (s.modLanes ti gi ls f).outbox = s.outbox := rfl
@[simp] theorem State.modLanes_carve : (s.modLanes ti gi ls f).carve = s.carve := rfl
@[simp] theorem State.modLanes_module : (s.modLanes ti gi ls f).module = s.module := rfl
@[simp] theorem State.modLanes_sem : (s.modLanes ti gi ls f).sem = s.sem := rfl
@[simp] theorem State.modLanes_pins : (s.modLanes ti gi ls f).pins = s.pins := rfl
@[simp] theorem State.modLanes_nextId : (s.modLanes ti gi ls f).nextId = s.nextId := rfl
@[simp] theorem State.modLanes_clock : (s.modLanes ti gi ls f).clock = s.clock := rfl
@[simp] theorem State.modLanes_freeCtr : (s.modLanes ti gi ls f).freeCtr = s.freeCtr := rfl
@[simp] theorem State.modLanes_traps : (s.modLanes ti gi ls f).traps = s.traps := rfl
@[simp] theorem State.modLanes_asks : (s.modLanes ti gi ls f).asks = s.asks := rfl
@[simp] theorem State.modLanes_unanswered : (s.modLanes ti gi ls f).unanswered = s.unanswered := rfl
end

/-! ### `State.modDie` -/

section
variable (s : State) (d : ℕ) (f : Die → Die)

@[simp] theorem State.modDie_agenda : (s.modDie d f).agenda = s.agenda := rfl
@[simp] theorem State.modDie_cur : (s.modDie d f).cur = s.cur := rfl
@[simp] theorem State.modDie_issued : (s.modDie d f).issued = s.issued := rfl
@[simp] theorem State.modDie_mem : (s.modDie d f).mem = s.mem := rfl
@[simp] theorem State.modDie_memTag : (s.modDie d f).memTag = s.memTag := rfl
@[simp] theorem State.modDie_frameTag : (s.modDie d f).frameTag = s.frameTag := rfl
@[simp] theorem State.modDie_cache : (s.modDie d f).cache = s.cache := rfl
@[simp] theorem State.modDie_dir : (s.modDie d f).dir = s.dir := rfl
@[simp] theorem State.modDie_invals : (s.modDie d f).invals = s.invals := rfl
@[simp] theorem State.modDie_invalAt : (s.modDie d f).invalAt = s.invalAt := rfl
@[simp] theorem State.modDie_againAt : (s.modDie d f).againAt = s.againAt := rfl
@[simp] theorem State.modDie_loads : (s.modDie d f).loads = s.loads := rfl
@[simp] theorem State.modDie_stores : (s.modDie d f).stores = s.stores := rfl
@[simp] theorem State.modDie_tlb : (s.modDie d f).tlb = s.tlb := rfl
@[simp] theorem State.modDie_walks : (s.modDie d f).walks = s.walks := rfl
@[simp] theorem State.modDie_faults : (s.modDie d f).faults = s.faults := rfl
@[simp] theorem State.modDie_arenas : (s.modDie d f).arenas = s.arenas := rfl
@[simp] theorem State.modDie_arenaGen : (s.modDie d f).arenaGen = s.arenaGen := rfl
@[simp] theorem State.modDie_keys : (s.modDie d f).keys = s.keys := rfl
@[simp] theorem State.modDie_peerKeys : (s.modDie d f).peerKeys = s.peerKeys := rfl
@[simp] theorem State.modDie_teams : (s.modDie d f).teams = s.teams := rfl
@[simp] theorem State.modDie_nodes : (s.modDie d f).nodes = s.nodes := rfl
@[simp] theorem State.modDie_slots : (s.modDie d f).slots = s.slots := rfl
@[simp] theorem State.modDie_slotDue : (s.modDie d f).slotDue = s.slotDue := rfl
@[simp] theorem State.modDie_retired : (s.modDie d f).retired = s.retired := rfl
@[simp] theorem State.modDie_chains : (s.modDie d f).chains = s.chains := rfl
@[simp] theorem State.modDie_served : (s.modDie d f).served = s.served := rfl
@[simp] theorem State.modDie_accRows : (s.modDie d f).accRows = s.accRows := rfl
@[simp] theorem State.modDie_streams : (s.modDie d f).streams = s.streams := rfl
@[simp] theorem State.modDie_rgetQ : (s.modDie d f).rgetQ = s.rgetQ := rfl
@[simp] theorem State.modDie_acgQ : (s.modDie d f).acgQ = s.acgQ := rfl
@[simp] theorem State.modDie_reserve : (s.modDie d f).reserve = s.reserve := rfl
@[simp] theorem State.modDie_shuffles : (s.modDie d f).shuffles = s.shuffles := rfl
@[simp] theorem State.modDie_side : (s.modDie d f).side = s.side := rfl
@[simp] theorem State.modDie_strainer : (s.modDie d f).strainer = s.strainer := rfl
@[simp] theorem State.modDie_bfqs : (s.modDie d f).bfqs = s.bfqs := rfl
@[simp] theorem State.modDie_wakes : (s.modDie d f).wakes = s.wakes := rfl
@[simp] theorem State.modDie_ports : (s.modDie d f).ports = s.ports := rfl
@[simp] theorem State.modDie_queues : (s.modDie d f).queues = s.queues := rfl
@[simp] theorem State.modDie_mgmtIn : (s.modDie d f).mgmtIn = s.mgmtIn := rfl
@[simp] theorem State.modDie_mgmtDue : (s.modDie d f).mgmtDue = s.mgmtDue := rfl
@[simp] theorem State.modDie_sent : (s.modDie d f).sent = s.sent := rfl
@[simp] theorem State.modDie_outbox : (s.modDie d f).outbox = s.outbox := rfl
@[simp] theorem State.modDie_carve : (s.modDie d f).carve = s.carve := rfl
@[simp] theorem State.modDie_module : (s.modDie d f).module = s.module := rfl
@[simp] theorem State.modDie_sem : (s.modDie d f).sem = s.sem := rfl
@[simp] theorem State.modDie_pins : (s.modDie d f).pins = s.pins := rfl
@[simp] theorem State.modDie_nextId : (s.modDie d f).nextId = s.nextId := rfl
@[simp] theorem State.modDie_clock : (s.modDie d f).clock = s.clock := rfl
@[simp] theorem State.modDie_freeCtr : (s.modDie d f).freeCtr = s.freeCtr := rfl
@[simp] theorem State.modDie_traps : (s.modDie d f).traps = s.traps := rfl
@[simp] theorem State.modDie_asks : (s.modDie d f).asks = s.asks := rfl
@[simp] theorem State.modDie_unanswered : (s.modDie d f).unanswered = s.unanswered := rfl
end

/-! ### `State.advance` -/

section
variable (s : State) (c : Cur) (ls : List ℕ)

@[simp] theorem State.advance_agenda : (advance s c ls).agenda = s.agenda := rfl
@[simp] theorem State.advance_cur : (advance s c ls).cur = s.cur := rfl
@[simp] theorem State.advance_issued : (advance s c ls).issued = s.issued := rfl
@[simp] theorem State.advance_mem : (advance s c ls).mem = s.mem := rfl
@[simp] theorem State.advance_memTag : (advance s c ls).memTag = s.memTag := rfl
@[simp] theorem State.advance_frameTag : (advance s c ls).frameTag = s.frameTag := rfl
@[simp] theorem State.advance_cache : (advance s c ls).cache = s.cache := rfl
@[simp] theorem State.advance_dir : (advance s c ls).dir = s.dir := rfl
@[simp] theorem State.advance_invals : (advance s c ls).invals = s.invals := rfl
@[simp] theorem State.advance_invalAt : (advance s c ls).invalAt = s.invalAt := rfl
@[simp] theorem State.advance_againAt : (advance s c ls).againAt = s.againAt := rfl
@[simp] theorem State.advance_loads : (advance s c ls).loads = s.loads := rfl
@[simp] theorem State.advance_stores : (advance s c ls).stores = s.stores := rfl
@[simp] theorem State.advance_tlb : (advance s c ls).tlb = s.tlb := rfl
@[simp] theorem State.advance_walks : (advance s c ls).walks = s.walks := rfl
@[simp] theorem State.advance_faults : (advance s c ls).faults = s.faults := rfl
@[simp] theorem State.advance_arenas : (advance s c ls).arenas = s.arenas := rfl
@[simp] theorem State.advance_arenaGen : (advance s c ls).arenaGen = s.arenaGen := rfl
@[simp] theorem State.advance_keys : (advance s c ls).keys = s.keys := rfl
@[simp] theorem State.advance_peerKeys : (advance s c ls).peerKeys = s.peerKeys := rfl
@[simp] theorem State.advance_nodes : (advance s c ls).nodes = s.nodes := rfl
@[simp] theorem State.advance_slots : (advance s c ls).slots = s.slots := rfl
@[simp] theorem State.advance_slotDue : (advance s c ls).slotDue = s.slotDue := rfl
@[simp] theorem State.advance_retired : (advance s c ls).retired = s.retired := rfl
@[simp] theorem State.advance_chains : (advance s c ls).chains = s.chains := rfl
@[simp] theorem State.advance_served : (advance s c ls).served = s.served := rfl
@[simp] theorem State.advance_accRows : (advance s c ls).accRows = s.accRows := rfl
@[simp] theorem State.advance_streams : (advance s c ls).streams = s.streams := rfl
@[simp] theorem State.advance_rgetQ : (advance s c ls).rgetQ = s.rgetQ := rfl
@[simp] theorem State.advance_acgQ : (advance s c ls).acgQ = s.acgQ := rfl
@[simp] theorem State.advance_reserve : (advance s c ls).reserve = s.reserve := rfl
@[simp] theorem State.advance_shuffles : (advance s c ls).shuffles = s.shuffles := rfl
@[simp] theorem State.advance_side : (advance s c ls).side = s.side := rfl
@[simp] theorem State.advance_strainer : (advance s c ls).strainer = s.strainer := rfl
@[simp] theorem State.advance_bfqs : (advance s c ls).bfqs = s.bfqs := rfl
@[simp] theorem State.advance_wakes : (advance s c ls).wakes = s.wakes := rfl
@[simp] theorem State.advance_dies : (advance s c ls).dies = s.dies := rfl
@[simp] theorem State.advance_ports : (advance s c ls).ports = s.ports := rfl
@[simp] theorem State.advance_queues : (advance s c ls).queues = s.queues := rfl
@[simp] theorem State.advance_mgmtIn : (advance s c ls).mgmtIn = s.mgmtIn := rfl
@[simp] theorem State.advance_mgmtDue : (advance s c ls).mgmtDue = s.mgmtDue := rfl
@[simp] theorem State.advance_sent : (advance s c ls).sent = s.sent := rfl
@[simp] theorem State.advance_outbox : (advance s c ls).outbox = s.outbox := rfl
@[simp] theorem State.advance_carve : (advance s c ls).carve = s.carve := rfl
@[simp] theorem State.advance_module : (advance s c ls).module = s.module := rfl
@[simp] theorem State.advance_sem : (advance s c ls).sem = s.sem := rfl
@[simp] theorem State.advance_pins : (advance s c ls).pins = s.pins := rfl
@[simp] theorem State.advance_nextId : (advance s c ls).nextId = s.nextId := rfl
@[simp] theorem State.advance_clock : (advance s c ls).clock = s.clock := rfl
@[simp] theorem State.advance_freeCtr : (advance s c ls).freeCtr = s.freeCtr := rfl
@[simp] theorem State.advance_traps : (advance s c ls).traps = s.traps := rfl
@[simp] theorem State.advance_asks : (advance s c ls).asks = s.asks := rfl
@[simp] theorem State.advance_unanswered : (advance s c ls).unanswered = s.unanswered := rfl
end

/-! ### `State.stallLanes` -/

section
variable (s : State) (c : Cur) (ls : List ℕ)

@[simp] theorem State.stallLanes_agenda : (stallLanes s c ls).agenda = s.agenda := rfl
@[simp] theorem State.stallLanes_cur : (stallLanes s c ls).cur = s.cur := rfl
@[simp] theorem State.stallLanes_issued : (stallLanes s c ls).issued = s.issued := rfl
@[simp] theorem State.stallLanes_mem : (stallLanes s c ls).mem = s.mem := rfl
@[simp] theorem State.stallLanes_memTag : (stallLanes s c ls).memTag = s.memTag := rfl
@[simp] theorem State.stallLanes_frameTag : (stallLanes s c ls).frameTag = s.frameTag := rfl
@[simp] theorem State.stallLanes_cache : (stallLanes s c ls).cache = s.cache := rfl
@[simp] theorem State.stallLanes_dir : (stallLanes s c ls).dir = s.dir := rfl
@[simp] theorem State.stallLanes_invals : (stallLanes s c ls).invals = s.invals := rfl
@[simp] theorem State.stallLanes_invalAt : (stallLanes s c ls).invalAt = s.invalAt := rfl
@[simp] theorem State.stallLanes_againAt : (stallLanes s c ls).againAt = s.againAt := rfl
@[simp] theorem State.stallLanes_loads : (stallLanes s c ls).loads = s.loads := rfl
@[simp] theorem State.stallLanes_stores : (stallLanes s c ls).stores = s.stores := rfl
@[simp] theorem State.stallLanes_tlb : (stallLanes s c ls).tlb = s.tlb := rfl
@[simp] theorem State.stallLanes_walks : (stallLanes s c ls).walks = s.walks := rfl
@[simp] theorem State.stallLanes_faults : (stallLanes s c ls).faults = s.faults := rfl
@[simp] theorem State.stallLanes_arenas : (stallLanes s c ls).arenas = s.arenas := rfl
@[simp] theorem State.stallLanes_arenaGen : (stallLanes s c ls).arenaGen = s.arenaGen := rfl
@[simp] theorem State.stallLanes_keys : (stallLanes s c ls).keys = s.keys := rfl
@[simp] theorem State.stallLanes_peerKeys : (stallLanes s c ls).peerKeys = s.peerKeys := rfl
@[simp] theorem State.stallLanes_nodes : (stallLanes s c ls).nodes = s.nodes := rfl
@[simp] theorem State.stallLanes_slots : (stallLanes s c ls).slots = s.slots := rfl
@[simp] theorem State.stallLanes_slotDue : (stallLanes s c ls).slotDue = s.slotDue := rfl
@[simp] theorem State.stallLanes_retired : (stallLanes s c ls).retired = s.retired := rfl
@[simp] theorem State.stallLanes_chains : (stallLanes s c ls).chains = s.chains := rfl
@[simp] theorem State.stallLanes_served : (stallLanes s c ls).served = s.served := rfl
@[simp] theorem State.stallLanes_accRows : (stallLanes s c ls).accRows = s.accRows := rfl
@[simp] theorem State.stallLanes_streams : (stallLanes s c ls).streams = s.streams := rfl
@[simp] theorem State.stallLanes_rgetQ : (stallLanes s c ls).rgetQ = s.rgetQ := rfl
@[simp] theorem State.stallLanes_acgQ : (stallLanes s c ls).acgQ = s.acgQ := rfl
@[simp] theorem State.stallLanes_reserve : (stallLanes s c ls).reserve = s.reserve := rfl
@[simp] theorem State.stallLanes_shuffles : (stallLanes s c ls).shuffles = s.shuffles := rfl
@[simp] theorem State.stallLanes_side : (stallLanes s c ls).side = s.side := rfl
@[simp] theorem State.stallLanes_strainer : (stallLanes s c ls).strainer = s.strainer := rfl
@[simp] theorem State.stallLanes_bfqs : (stallLanes s c ls).bfqs = s.bfqs := rfl
@[simp] theorem State.stallLanes_wakes : (stallLanes s c ls).wakes = s.wakes := rfl
@[simp] theorem State.stallLanes_dies : (stallLanes s c ls).dies = s.dies := rfl
@[simp] theorem State.stallLanes_ports : (stallLanes s c ls).ports = s.ports := rfl
@[simp] theorem State.stallLanes_queues : (stallLanes s c ls).queues = s.queues := rfl
@[simp] theorem State.stallLanes_mgmtIn : (stallLanes s c ls).mgmtIn = s.mgmtIn := rfl
@[simp] theorem State.stallLanes_mgmtDue : (stallLanes s c ls).mgmtDue = s.mgmtDue := rfl
@[simp] theorem State.stallLanes_sent : (stallLanes s c ls).sent = s.sent := rfl
@[simp] theorem State.stallLanes_outbox : (stallLanes s c ls).outbox = s.outbox := rfl
@[simp] theorem State.stallLanes_carve : (stallLanes s c ls).carve = s.carve := rfl
@[simp] theorem State.stallLanes_module : (stallLanes s c ls).module = s.module := rfl
@[simp] theorem State.stallLanes_sem : (stallLanes s c ls).sem = s.sem := rfl
@[simp] theorem State.stallLanes_pins : (stallLanes s c ls).pins = s.pins := rfl
@[simp] theorem State.stallLanes_nextId : (stallLanes s c ls).nextId = s.nextId := rfl
@[simp] theorem State.stallLanes_clock : (stallLanes s c ls).clock = s.clock := rfl
@[simp] theorem State.stallLanes_freeCtr : (stallLanes s c ls).freeCtr = s.freeCtr := rfl
@[simp] theorem State.stallLanes_traps : (stallLanes s c ls).traps = s.traps := rfl
@[simp] theorem State.stallLanes_asks : (stallLanes s c ls).asks = s.asks := rfl
@[simp] theorem State.stallLanes_unanswered : (stallLanes s c ls).unanswered = s.unanswered := rfl
end

/-! ### `State.stallGroup` -/

section
variable (s : State) (c : Cur)

@[simp] theorem State.stallGroup_agenda : (stallGroup s c).agenda = s.agenda := rfl
@[simp] theorem State.stallGroup_cur : (stallGroup s c).cur = s.cur := rfl
@[simp] theorem State.stallGroup_issued : (stallGroup s c).issued = s.issued := rfl
@[simp] theorem State.stallGroup_mem : (stallGroup s c).mem = s.mem := rfl
@[simp] theorem State.stallGroup_memTag : (stallGroup s c).memTag = s.memTag := rfl
@[simp] theorem State.stallGroup_frameTag : (stallGroup s c).frameTag = s.frameTag := rfl
@[simp] theorem State.stallGroup_cache : (stallGroup s c).cache = s.cache := rfl
@[simp] theorem State.stallGroup_dir : (stallGroup s c).dir = s.dir := rfl
@[simp] theorem State.stallGroup_invals : (stallGroup s c).invals = s.invals := rfl
@[simp] theorem State.stallGroup_invalAt : (stallGroup s c).invalAt = s.invalAt := rfl
@[simp] theorem State.stallGroup_againAt : (stallGroup s c).againAt = s.againAt := rfl
@[simp] theorem State.stallGroup_loads : (stallGroup s c).loads = s.loads := rfl
@[simp] theorem State.stallGroup_stores : (stallGroup s c).stores = s.stores := rfl
@[simp] theorem State.stallGroup_tlb : (stallGroup s c).tlb = s.tlb := rfl
@[simp] theorem State.stallGroup_walks : (stallGroup s c).walks = s.walks := rfl
@[simp] theorem State.stallGroup_faults : (stallGroup s c).faults = s.faults := rfl
@[simp] theorem State.stallGroup_arenas : (stallGroup s c).arenas = s.arenas := rfl
@[simp] theorem State.stallGroup_arenaGen : (stallGroup s c).arenaGen = s.arenaGen := rfl
@[simp] theorem State.stallGroup_keys : (stallGroup s c).keys = s.keys := rfl
@[simp] theorem State.stallGroup_peerKeys : (stallGroup s c).peerKeys = s.peerKeys := rfl
@[simp] theorem State.stallGroup_nodes : (stallGroup s c).nodes = s.nodes := rfl
@[simp] theorem State.stallGroup_slots : (stallGroup s c).slots = s.slots := rfl
@[simp] theorem State.stallGroup_slotDue : (stallGroup s c).slotDue = s.slotDue := rfl
@[simp] theorem State.stallGroup_retired : (stallGroup s c).retired = s.retired := rfl
@[simp] theorem State.stallGroup_chains : (stallGroup s c).chains = s.chains := rfl
@[simp] theorem State.stallGroup_served : (stallGroup s c).served = s.served := rfl
@[simp] theorem State.stallGroup_accRows : (stallGroup s c).accRows = s.accRows := rfl
@[simp] theorem State.stallGroup_streams : (stallGroup s c).streams = s.streams := rfl
@[simp] theorem State.stallGroup_rgetQ : (stallGroup s c).rgetQ = s.rgetQ := rfl
@[simp] theorem State.stallGroup_acgQ : (stallGroup s c).acgQ = s.acgQ := rfl
@[simp] theorem State.stallGroup_reserve : (stallGroup s c).reserve = s.reserve := rfl
@[simp] theorem State.stallGroup_shuffles : (stallGroup s c).shuffles = s.shuffles := rfl
@[simp] theorem State.stallGroup_side : (stallGroup s c).side = s.side := rfl
@[simp] theorem State.stallGroup_strainer : (stallGroup s c).strainer = s.strainer := rfl
@[simp] theorem State.stallGroup_bfqs : (stallGroup s c).bfqs = s.bfqs := rfl
@[simp] theorem State.stallGroup_wakes : (stallGroup s c).wakes = s.wakes := rfl
@[simp] theorem State.stallGroup_dies : (stallGroup s c).dies = s.dies := rfl
@[simp] theorem State.stallGroup_ports : (stallGroup s c).ports = s.ports := rfl
@[simp] theorem State.stallGroup_queues : (stallGroup s c).queues = s.queues := rfl
@[simp] theorem State.stallGroup_mgmtIn : (stallGroup s c).mgmtIn = s.mgmtIn := rfl
@[simp] theorem State.stallGroup_mgmtDue : (stallGroup s c).mgmtDue = s.mgmtDue := rfl
@[simp] theorem State.stallGroup_sent : (stallGroup s c).sent = s.sent := rfl
@[simp] theorem State.stallGroup_outbox : (stallGroup s c).outbox = s.outbox := rfl
@[simp] theorem State.stallGroup_carve : (stallGroup s c).carve = s.carve := rfl
@[simp] theorem State.stallGroup_module : (stallGroup s c).module = s.module := rfl
@[simp] theorem State.stallGroup_sem : (stallGroup s c).sem = s.sem := rfl
@[simp] theorem State.stallGroup_pins : (stallGroup s c).pins = s.pins := rfl
@[simp] theorem State.stallGroup_nextId : (stallGroup s c).nextId = s.nextId := rfl
@[simp] theorem State.stallGroup_clock : (stallGroup s c).clock = s.clock := rfl
@[simp] theorem State.stallGroup_freeCtr : (stallGroup s c).freeCtr = s.freeCtr := rfl
@[simp] theorem State.stallGroup_traps : (stallGroup s c).traps = s.traps := rfl
@[simp] theorem State.stallGroup_asks : (stallGroup s c).asks = s.asks := rfl
@[simp] theorem State.stallGroup_unanswered : (stallGroup s c).unanswered = s.unanswered := rfl
end

/-! ### `State.trapReturn` -/

section
variable (s : State) (ti gi : ℕ) (f : Bool)

@[simp] theorem State.trapReturn_agenda : (trapReturn s ti gi f).agenda = s.agenda := rfl
@[simp] theorem State.trapReturn_cur : (trapReturn s ti gi f).cur = s.cur := rfl
@[simp] theorem State.trapReturn_issued : (trapReturn s ti gi f).issued = s.issued := rfl
@[simp] theorem State.trapReturn_mem : (trapReturn s ti gi f).mem = s.mem := rfl
@[simp] theorem State.trapReturn_memTag : (trapReturn s ti gi f).memTag = s.memTag := rfl
@[simp] theorem State.trapReturn_frameTag : (trapReturn s ti gi f).frameTag = s.frameTag := rfl
@[simp] theorem State.trapReturn_cache : (trapReturn s ti gi f).cache = s.cache := rfl
@[simp] theorem State.trapReturn_dir : (trapReturn s ti gi f).dir = s.dir := rfl
@[simp] theorem State.trapReturn_invals : (trapReturn s ti gi f).invals = s.invals := rfl
@[simp] theorem State.trapReturn_invalAt : (trapReturn s ti gi f).invalAt = s.invalAt := rfl
@[simp] theorem State.trapReturn_againAt : (trapReturn s ti gi f).againAt = s.againAt := rfl
@[simp] theorem State.trapReturn_loads : (trapReturn s ti gi f).loads = s.loads := rfl
@[simp] theorem State.trapReturn_stores : (trapReturn s ti gi f).stores = s.stores := rfl
@[simp] theorem State.trapReturn_tlb : (trapReturn s ti gi f).tlb = s.tlb := rfl
@[simp] theorem State.trapReturn_walks : (trapReturn s ti gi f).walks = s.walks := rfl
@[simp] theorem State.trapReturn_faults : (trapReturn s ti gi f).faults = s.faults := rfl
@[simp] theorem State.trapReturn_arenas : (trapReturn s ti gi f).arenas = s.arenas := rfl
@[simp] theorem State.trapReturn_arenaGen : (trapReturn s ti gi f).arenaGen = s.arenaGen := rfl
@[simp] theorem State.trapReturn_keys : (trapReturn s ti gi f).keys = s.keys := rfl
@[simp] theorem State.trapReturn_peerKeys : (trapReturn s ti gi f).peerKeys = s.peerKeys := rfl
@[simp] theorem State.trapReturn_nodes : (trapReturn s ti gi f).nodes = s.nodes := rfl
@[simp] theorem State.trapReturn_slots : (trapReturn s ti gi f).slots = s.slots := rfl
@[simp] theorem State.trapReturn_slotDue : (trapReturn s ti gi f).slotDue = s.slotDue := rfl
@[simp] theorem State.trapReturn_retired : (trapReturn s ti gi f).retired = s.retired := rfl
@[simp] theorem State.trapReturn_chains : (trapReturn s ti gi f).chains = s.chains := rfl
@[simp] theorem State.trapReturn_served : (trapReturn s ti gi f).served = s.served := rfl
@[simp] theorem State.trapReturn_accRows : (trapReturn s ti gi f).accRows = s.accRows := rfl
@[simp] theorem State.trapReturn_streams : (trapReturn s ti gi f).streams = s.streams := rfl
@[simp] theorem State.trapReturn_rgetQ : (trapReturn s ti gi f).rgetQ = s.rgetQ := rfl
@[simp] theorem State.trapReturn_acgQ : (trapReturn s ti gi f).acgQ = s.acgQ := rfl
@[simp] theorem State.trapReturn_reserve : (trapReturn s ti gi f).reserve = s.reserve := rfl
@[simp] theorem State.trapReturn_shuffles : (trapReturn s ti gi f).shuffles = s.shuffles := rfl
@[simp] theorem State.trapReturn_side : (trapReturn s ti gi f).side = s.side := rfl
@[simp] theorem State.trapReturn_strainer : (trapReturn s ti gi f).strainer = s.strainer := rfl
@[simp] theorem State.trapReturn_bfqs : (trapReturn s ti gi f).bfqs = s.bfqs := rfl
@[simp] theorem State.trapReturn_wakes : (trapReturn s ti gi f).wakes = s.wakes := rfl
@[simp] theorem State.trapReturn_dies : (trapReturn s ti gi f).dies = s.dies := rfl
@[simp] theorem State.trapReturn_ports : (trapReturn s ti gi f).ports = s.ports := rfl
@[simp] theorem State.trapReturn_queues : (trapReturn s ti gi f).queues = s.queues := rfl
@[simp] theorem State.trapReturn_mgmtIn : (trapReturn s ti gi f).mgmtIn = s.mgmtIn := rfl
@[simp] theorem State.trapReturn_mgmtDue : (trapReturn s ti gi f).mgmtDue = s.mgmtDue := rfl
@[simp] theorem State.trapReturn_sent : (trapReturn s ti gi f).sent = s.sent := rfl
@[simp] theorem State.trapReturn_outbox : (trapReturn s ti gi f).outbox = s.outbox := rfl
@[simp] theorem State.trapReturn_carve : (trapReturn s ti gi f).carve = s.carve := rfl
@[simp] theorem State.trapReturn_module : (trapReturn s ti gi f).module = s.module := rfl
@[simp] theorem State.trapReturn_sem : (trapReturn s ti gi f).sem = s.sem := rfl
@[simp] theorem State.trapReturn_pins : (trapReturn s ti gi f).pins = s.pins := rfl
@[simp] theorem State.trapReturn_nextId : (trapReturn s ti gi f).nextId = s.nextId := rfl
@[simp] theorem State.trapReturn_clock : (trapReturn s ti gi f).clock = s.clock := rfl
@[simp] theorem State.trapReturn_freeCtr : (trapReturn s ti gi f).freeCtr = s.freeCtr := rfl
@[simp] theorem State.trapReturn_traps : (trapReturn s ti gi f).traps = s.traps := rfl
@[simp] theorem State.trapReturn_asks : (trapReturn s ti gi f).asks = s.asks := rfl
@[simp] theorem State.trapReturn_unanswered : (trapReturn s ti gi f).unanswered = s.unanswered := rfl
end

/-! ### `State.withCur` -/

section
variable (s : State) (c : Cur)

@[simp] theorem State.withCur_agenda : (s.withCur c).agenda = s.agenda := rfl
@[simp] theorem State.withCur_issued : (s.withCur c).issued = s.issued := rfl
@[simp] theorem State.withCur_mem : (s.withCur c).mem = s.mem := rfl
@[simp] theorem State.withCur_memTag : (s.withCur c).memTag = s.memTag := rfl
@[simp] theorem State.withCur_frameTag : (s.withCur c).frameTag = s.frameTag := rfl
@[simp] theorem State.withCur_cache : (s.withCur c).cache = s.cache := rfl
@[simp] theorem State.withCur_dir : (s.withCur c).dir = s.dir := rfl
@[simp] theorem State.withCur_invals : (s.withCur c).invals = s.invals := rfl
@[simp] theorem State.withCur_invalAt : (s.withCur c).invalAt = s.invalAt := rfl
@[simp] theorem State.withCur_againAt : (s.withCur c).againAt = s.againAt := rfl
@[simp] theorem State.withCur_loads : (s.withCur c).loads = s.loads := rfl
@[simp] theorem State.withCur_stores : (s.withCur c).stores = s.stores := rfl
@[simp] theorem State.withCur_tlb : (s.withCur c).tlb = s.tlb := rfl
@[simp] theorem State.withCur_walks : (s.withCur c).walks = s.walks := rfl
@[simp] theorem State.withCur_faults : (s.withCur c).faults = s.faults := rfl
@[simp] theorem State.withCur_arenas : (s.withCur c).arenas = s.arenas := rfl
@[simp] theorem State.withCur_arenaGen : (s.withCur c).arenaGen = s.arenaGen := rfl
@[simp] theorem State.withCur_keys : (s.withCur c).keys = s.keys := rfl
@[simp] theorem State.withCur_peerKeys : (s.withCur c).peerKeys = s.peerKeys := rfl
@[simp] theorem State.withCur_teams : (s.withCur c).teams = s.teams := rfl
@[simp] theorem State.withCur_nodes : (s.withCur c).nodes = s.nodes := rfl
@[simp] theorem State.withCur_slots : (s.withCur c).slots = s.slots := rfl
@[simp] theorem State.withCur_slotDue : (s.withCur c).slotDue = s.slotDue := rfl
@[simp] theorem State.withCur_retired : (s.withCur c).retired = s.retired := rfl
@[simp] theorem State.withCur_chains : (s.withCur c).chains = s.chains := rfl
@[simp] theorem State.withCur_served : (s.withCur c).served = s.served := rfl
@[simp] theorem State.withCur_accRows : (s.withCur c).accRows = s.accRows := rfl
@[simp] theorem State.withCur_streams : (s.withCur c).streams = s.streams := rfl
@[simp] theorem State.withCur_rgetQ : (s.withCur c).rgetQ = s.rgetQ := rfl
@[simp] theorem State.withCur_acgQ : (s.withCur c).acgQ = s.acgQ := rfl
@[simp] theorem State.withCur_reserve : (s.withCur c).reserve = s.reserve := rfl
@[simp] theorem State.withCur_shuffles : (s.withCur c).shuffles = s.shuffles := rfl
@[simp] theorem State.withCur_side : (s.withCur c).side = s.side := rfl
@[simp] theorem State.withCur_strainer : (s.withCur c).strainer = s.strainer := rfl
@[simp] theorem State.withCur_bfqs : (s.withCur c).bfqs = s.bfqs := rfl
@[simp] theorem State.withCur_wakes : (s.withCur c).wakes = s.wakes := rfl
@[simp] theorem State.withCur_dies : (s.withCur c).dies = s.dies := rfl
@[simp] theorem State.withCur_ports : (s.withCur c).ports = s.ports := rfl
@[simp] theorem State.withCur_queues : (s.withCur c).queues = s.queues := rfl
@[simp] theorem State.withCur_mgmtIn : (s.withCur c).mgmtIn = s.mgmtIn := rfl
@[simp] theorem State.withCur_mgmtDue : (s.withCur c).mgmtDue = s.mgmtDue := rfl
@[simp] theorem State.withCur_sent : (s.withCur c).sent = s.sent := rfl
@[simp] theorem State.withCur_outbox : (s.withCur c).outbox = s.outbox := rfl
@[simp] theorem State.withCur_carve : (s.withCur c).carve = s.carve := rfl
@[simp] theorem State.withCur_module : (s.withCur c).module = s.module := rfl
@[simp] theorem State.withCur_sem : (s.withCur c).sem = s.sem := rfl
@[simp] theorem State.withCur_pins : (s.withCur c).pins = s.pins := rfl
@[simp] theorem State.withCur_nextId : (s.withCur c).nextId = s.nextId := rfl
@[simp] theorem State.withCur_clock : (s.withCur c).clock = s.clock := rfl
@[simp] theorem State.withCur_freeCtr : (s.withCur c).freeCtr = s.freeCtr := rfl
@[simp] theorem State.withCur_traps : (s.withCur c).traps = s.traps := rfl
@[simp] theorem State.withCur_asks : (s.withCur c).asks = s.asks := rfl
@[simp] theorem State.withCur_unanswered : (s.withCur c).unanswered = s.unanswered := rfl
end

/-! ### `State.fresh_snd` -/

section
variable (s : State)

@[simp] theorem State.fresh_snd_agenda : (s.fresh.2).agenda = s.agenda := rfl
@[simp] theorem State.fresh_snd_cur : (s.fresh.2).cur = s.cur := rfl
@[simp] theorem State.fresh_snd_issued : (s.fresh.2).issued = s.issued := rfl
@[simp] theorem State.fresh_snd_mem : (s.fresh.2).mem = s.mem := rfl
@[simp] theorem State.fresh_snd_memTag : (s.fresh.2).memTag = s.memTag := rfl
@[simp] theorem State.fresh_snd_frameTag : (s.fresh.2).frameTag = s.frameTag := rfl
@[simp] theorem State.fresh_snd_cache : (s.fresh.2).cache = s.cache := rfl
@[simp] theorem State.fresh_snd_dir : (s.fresh.2).dir = s.dir := rfl
@[simp] theorem State.fresh_snd_invals : (s.fresh.2).invals = s.invals := rfl
@[simp] theorem State.fresh_snd_invalAt : (s.fresh.2).invalAt = s.invalAt := rfl
@[simp] theorem State.fresh_snd_againAt : (s.fresh.2).againAt = s.againAt := rfl
@[simp] theorem State.fresh_snd_loads : (s.fresh.2).loads = s.loads := rfl
@[simp] theorem State.fresh_snd_stores : (s.fresh.2).stores = s.stores := rfl
@[simp] theorem State.fresh_snd_tlb : (s.fresh.2).tlb = s.tlb := rfl
@[simp] theorem State.fresh_snd_walks : (s.fresh.2).walks = s.walks := rfl
@[simp] theorem State.fresh_snd_faults : (s.fresh.2).faults = s.faults := rfl
@[simp] theorem State.fresh_snd_arenas : (s.fresh.2).arenas = s.arenas := rfl
@[simp] theorem State.fresh_snd_arenaGen : (s.fresh.2).arenaGen = s.arenaGen := rfl
@[simp] theorem State.fresh_snd_keys : (s.fresh.2).keys = s.keys := rfl
@[simp] theorem State.fresh_snd_peerKeys : (s.fresh.2).peerKeys = s.peerKeys := rfl
@[simp] theorem State.fresh_snd_teams : (s.fresh.2).teams = s.teams := rfl
@[simp] theorem State.fresh_snd_nodes : (s.fresh.2).nodes = s.nodes := rfl
@[simp] theorem State.fresh_snd_slots : (s.fresh.2).slots = s.slots := rfl
@[simp] theorem State.fresh_snd_slotDue : (s.fresh.2).slotDue = s.slotDue := rfl
@[simp] theorem State.fresh_snd_retired : (s.fresh.2).retired = s.retired := rfl
@[simp] theorem State.fresh_snd_chains : (s.fresh.2).chains = s.chains := rfl
@[simp] theorem State.fresh_snd_served : (s.fresh.2).served = s.served := rfl
@[simp] theorem State.fresh_snd_accRows : (s.fresh.2).accRows = s.accRows := rfl
@[simp] theorem State.fresh_snd_streams : (s.fresh.2).streams = s.streams := rfl
@[simp] theorem State.fresh_snd_rgetQ : (s.fresh.2).rgetQ = s.rgetQ := rfl
@[simp] theorem State.fresh_snd_acgQ : (s.fresh.2).acgQ = s.acgQ := rfl
@[simp] theorem State.fresh_snd_reserve : (s.fresh.2).reserve = s.reserve := rfl
@[simp] theorem State.fresh_snd_shuffles : (s.fresh.2).shuffles = s.shuffles := rfl
@[simp] theorem State.fresh_snd_side : (s.fresh.2).side = s.side := rfl
@[simp] theorem State.fresh_snd_strainer : (s.fresh.2).strainer = s.strainer := rfl
@[simp] theorem State.fresh_snd_bfqs : (s.fresh.2).bfqs = s.bfqs := rfl
@[simp] theorem State.fresh_snd_wakes : (s.fresh.2).wakes = s.wakes := rfl
@[simp] theorem State.fresh_snd_dies : (s.fresh.2).dies = s.dies := rfl
@[simp] theorem State.fresh_snd_ports : (s.fresh.2).ports = s.ports := rfl
@[simp] theorem State.fresh_snd_queues : (s.fresh.2).queues = s.queues := rfl
@[simp] theorem State.fresh_snd_mgmtIn : (s.fresh.2).mgmtIn = s.mgmtIn := rfl
@[simp] theorem State.fresh_snd_mgmtDue : (s.fresh.2).mgmtDue = s.mgmtDue := rfl
@[simp] theorem State.fresh_snd_sent : (s.fresh.2).sent = s.sent := rfl
@[simp] theorem State.fresh_snd_outbox : (s.fresh.2).outbox = s.outbox := rfl
@[simp] theorem State.fresh_snd_carve : (s.fresh.2).carve = s.carve := rfl
@[simp] theorem State.fresh_snd_module : (s.fresh.2).module = s.module := rfl
@[simp] theorem State.fresh_snd_sem : (s.fresh.2).sem = s.sem := rfl
@[simp] theorem State.fresh_snd_pins : (s.fresh.2).pins = s.pins := rfl
@[simp] theorem State.fresh_snd_clock : (s.fresh.2).clock = s.clock := rfl
@[simp] theorem State.fresh_snd_freeCtr : (s.fresh.2).freeCtr = s.freeCtr := rfl
@[simp] theorem State.fresh_snd_traps : (s.fresh.2).traps = s.traps := rfl
@[simp] theorem State.fresh_snd_asks : (s.fresh.2).asks = s.asks := rfl
@[simp] theorem State.fresh_snd_unanswered : (s.fresh.2).unanswered = s.unanswered := rfl
end

/-! ### `Thread.setV` -/

section
variable (t : Thread) (n : ℕ) (x : Word)

@[simp] theorem Thread.setV_pc : (t.setV n x).pc = t.pc := rfl
@[simp] theorem Thread.setV_yielded : (t.setV n x).yielded = t.yielded := rfl
@[simp] theorem Thread.setV_exited : (t.setV n x).exited = t.exited := rfl
@[simp] theorem Thread.setV_starve : (t.setV n x).starve = t.starve := rfl
@[simp] theorem Thread.setV_acqT : (t.setV n x).acqT = t.acqT := rfl
@[simp] theorem Thread.setV_enq : (t.setV n x).enq = t.enq := rfl
@[simp] theorem Thread.setV_qf : (t.setV n x).qf = t.qf := rfl
@[simp] theorem Thread.setV_lr : (t.setV n x).lr = t.lr := rfl
@[simp] theorem Thread.setV_claim : (t.setV n x).claim = t.claim := rfl
@[simp] theorem Thread.setV_pend : (t.setV n x).pend = t.pend := rfl
@[simp] theorem Thread.setV_item : (t.setV n x).item = t.item := rfl
@[simp] theorem Thread.setV_hold : (t.setV n x).hold = t.hold := rfl
@[simp] theorem Thread.setV_waitLen : (t.setV n x).waitLen = t.waitLen := rfl
@[simp] theorem Thread.setV_heldK : (t.setV n x).heldK = t.heldK := rfl
@[simp] theorem Thread.setV_heldF : (t.setV n x).heldF = t.heldF := rfl
@[simp] theorem Thread.setV_fetchPark : (t.setV n x).fetchPark = t.fetchPark := rfl
@[simp] theorem Thread.setV_arrived : (t.setV n x).arrived = t.arrived := rfl
@[simp] theorem Thread.setV_shadowK : (t.setV n x).shadowK = t.shadowK := rfl
@[simp] theorem Thread.setV_shadowF : (t.setV n x).shadowF = t.shadowF := rfl
end

/-! ### `Thread.setQ` -/

section
variable (t : Thread) (n : ℕ) (x : Word)

@[simp] theorem Thread.setQ_pc : (t.setQ n x).pc = t.pc := rfl
@[simp] theorem Thread.setQ_yielded : (t.setQ n x).yielded = t.yielded := rfl
@[simp] theorem Thread.setQ_exited : (t.setQ n x).exited = t.exited := rfl
@[simp] theorem Thread.setQ_starve : (t.setQ n x).starve = t.starve := rfl
@[simp] theorem Thread.setQ_acqT : (t.setQ n x).acqT = t.acqT := rfl
@[simp] theorem Thread.setQ_enq : (t.setQ n x).enq = t.enq := rfl
@[simp] theorem Thread.setQ_regs : (t.setQ n x).regs = t.regs := rfl
@[simp] theorem Thread.setQ_lr : (t.setQ n x).lr = t.lr := rfl
@[simp] theorem Thread.setQ_claim : (t.setQ n x).claim = t.claim := rfl
@[simp] theorem Thread.setQ_pend : (t.setQ n x).pend = t.pend := rfl
@[simp] theorem Thread.setQ_item : (t.setQ n x).item = t.item := rfl
@[simp] theorem Thread.setQ_hold : (t.setQ n x).hold = t.hold := rfl
@[simp] theorem Thread.setQ_waitLen : (t.setQ n x).waitLen = t.waitLen := rfl
@[simp] theorem Thread.setQ_heldK : (t.setQ n x).heldK = t.heldK := rfl
@[simp] theorem Thread.setQ_heldF : (t.setQ n x).heldF = t.heldF := rfl
@[simp] theorem Thread.setQ_fetchPark : (t.setQ n x).fetchPark = t.fetchPark := rfl
@[simp] theorem Thread.setQ_arrived : (t.setQ n x).arrived = t.arrived := rfl
@[simp] theorem Thread.setQ_latch : (t.setQ n x).latch = t.latch := rfl
@[simp] theorem Thread.setQ_shadowK : (t.setQ n x).shadowK = t.shadowK := rfl
@[simp] theorem Thread.setQ_shadowF : (t.setQ n x).shadowF = t.shadowF := rfl
end

/-! ### `Thread.setD` -/

section
variable (t : Thread) (n : ℕ) (x : DWord)

@[simp] theorem Thread.setD_pc : (t.setD n x).pc = t.pc := rfl
@[simp] theorem Thread.setD_yielded : (t.setD n x).yielded = t.yielded := rfl
@[simp] theorem Thread.setD_exited : (t.setD n x).exited = t.exited := rfl
@[simp] theorem Thread.setD_starve : (t.setD n x).starve = t.starve := rfl
@[simp] theorem Thread.setD_acqT : (t.setD n x).acqT = t.acqT := rfl
@[simp] theorem Thread.setD_enq : (t.setD n x).enq = t.enq := rfl
@[simp] theorem Thread.setD_qf : (t.setD n x).qf = t.qf := rfl
@[simp] theorem Thread.setD_lr : (t.setD n x).lr = t.lr := rfl
@[simp] theorem Thread.setD_claim : (t.setD n x).claim = t.claim := rfl
@[simp] theorem Thread.setD_pend : (t.setD n x).pend = t.pend := rfl
@[simp] theorem Thread.setD_item : (t.setD n x).item = t.item := rfl
@[simp] theorem Thread.setD_hold : (t.setD n x).hold = t.hold := rfl
@[simp] theorem Thread.setD_waitLen : (t.setD n x).waitLen = t.waitLen := rfl
@[simp] theorem Thread.setD_heldK : (t.setD n x).heldK = t.heldK := rfl
@[simp] theorem Thread.setD_heldF : (t.setD n x).heldF = t.heldF := rfl
@[simp] theorem Thread.setD_fetchPark : (t.setD n x).fetchPark = t.fetchPark := rfl
@[simp] theorem Thread.setD_arrived : (t.setD n x).arrived = t.arrived := rfl
@[simp] theorem Thread.setD_shadowK : (t.setD n x).shadowK = t.shadowK := rfl
@[simp] theorem Thread.setD_shadowF : (t.setD n x).shadowF = t.shadowF := rfl
end

/-! ### `Thread.addPend` -/

section
variable (t : Thread) (rs : List ℕ) (op : ℕ)

@[simp] theorem Thread.addPend_pc : (t.addPend rs op).pc = t.pc := rfl
@[simp] theorem Thread.addPend_yielded : (t.addPend rs op).yielded = t.yielded := rfl
@[simp] theorem Thread.addPend_exited : (t.addPend rs op).exited = t.exited := rfl
@[simp] theorem Thread.addPend_starve : (t.addPend rs op).starve = t.starve := rfl
@[simp] theorem Thread.addPend_acqT : (t.addPend rs op).acqT = t.acqT := rfl
@[simp] theorem Thread.addPend_enq : (t.addPend rs op).enq = t.enq := rfl
@[simp] theorem Thread.addPend_regs : (t.addPend rs op).regs = t.regs := rfl
@[simp] theorem Thread.addPend_qf : (t.addPend rs op).qf = t.qf := rfl
@[simp] theorem Thread.addPend_lr : (t.addPend rs op).lr = t.lr := rfl
@[simp] theorem Thread.addPend_claim : (t.addPend rs op).claim = t.claim := rfl
@[simp] theorem Thread.addPend_item : (t.addPend rs op).item = t.item := rfl
@[simp] theorem Thread.addPend_hold : (t.addPend rs op).hold = t.hold := rfl
@[simp] theorem Thread.addPend_waitLen : (t.addPend rs op).waitLen = t.waitLen := rfl
@[simp] theorem Thread.addPend_heldK : (t.addPend rs op).heldK = t.heldK := rfl
@[simp] theorem Thread.addPend_heldF : (t.addPend rs op).heldF = t.heldF := rfl
@[simp] theorem Thread.addPend_fetchPark : (t.addPend rs op).fetchPark = t.fetchPark := rfl
@[simp] theorem Thread.addPend_arrived : (t.addPend rs op).arrived = t.arrived := rfl
@[simp] theorem Thread.addPend_latch : (t.addPend rs op).latch = t.latch := rfl
@[simp] theorem Thread.addPend_shadowK : (t.addPend rs op).shadowK = t.shadowK := rfl
@[simp] theorem Thread.addPend_shadowF : (t.addPend rs op).shadowF = t.shadowF := rfl
end

/-! ### `Thread.resume` -/

section
variable (t : Thread)

@[simp] theorem Thread.resume_yielded : (t.resume).yielded = t.yielded := by unfold Thread.resume; split <;> rfl
@[simp] theorem Thread.resume_exited : (t.resume).exited = t.exited := by unfold Thread.resume; split <;> rfl
@[simp] theorem Thread.resume_starve : (t.resume).starve = t.starve := by unfold Thread.resume; split <;> rfl
@[simp] theorem Thread.resume_acqT : (t.resume).acqT = t.acqT := by unfold Thread.resume; split <;> rfl
@[simp] theorem Thread.resume_enq : (t.resume).enq = t.enq := by unfold Thread.resume; split <;> rfl
@[simp] theorem Thread.resume_regs : (t.resume).regs = t.regs := by unfold Thread.resume; split <;> rfl
@[simp] theorem Thread.resume_qf : (t.resume).qf = t.qf := by unfold Thread.resume; split <;> rfl
@[simp] theorem Thread.resume_lr : (t.resume).lr = t.lr := by unfold Thread.resume; split <;> rfl
@[simp] theorem Thread.resume_claim : (t.resume).claim = t.claim := by unfold Thread.resume; split <;> rfl
@[simp] theorem Thread.resume_pend : (t.resume).pend = t.pend := by unfold Thread.resume; split <;> rfl
@[simp] theorem Thread.resume_item : (t.resume).item = t.item := by unfold Thread.resume; split <;> rfl
@[simp] theorem Thread.resume_waitLen : (t.resume).waitLen = t.waitLen := by unfold Thread.resume; split <;> rfl
@[simp] theorem Thread.resume_heldK : (t.resume).heldK = t.heldK := by unfold Thread.resume; split <;> rfl
@[simp] theorem Thread.resume_heldF : (t.resume).heldF = t.heldF := by unfold Thread.resume; split <;> rfl
@[simp] theorem Thread.resume_fetchPark : (t.resume).fetchPark = t.fetchPark := by unfold Thread.resume; split <;> rfl
@[simp] theorem Thread.resume_arrived : (t.resume).arrived = t.arrived := by unfold Thread.resume; split <;> rfl
@[simp] theorem Thread.resume_latch : (t.resume).latch = t.latch := by unfold Thread.resume; split <;> rfl
@[simp] theorem Thread.resume_shadowK : (t.resume).shadowK = t.shadowK := by unfold Thread.resume; split <;> rfl
@[simp] theorem Thread.resume_shadowF : (t.resume).shadowF = t.shadowF := by unfold Thread.resume; split <;> rfl
end

/-! ### `Thread.wait` -/

section
variable (t : Thread) (c : Cur) (h : Hold)

@[simp] theorem Thread.wait_pc : (t.wait c h).pc = t.pc := rfl
@[simp] theorem Thread.wait_yielded : (t.wait c h).yielded = t.yielded := rfl
@[simp] theorem Thread.wait_exited : (t.wait c h).exited = t.exited := rfl
@[simp] theorem Thread.wait_starve : (t.wait c h).starve = t.starve := rfl
@[simp] theorem Thread.wait_acqT : (t.wait c h).acqT = t.acqT := rfl
@[simp] theorem Thread.wait_enq : (t.wait c h).enq = t.enq := rfl
@[simp] theorem Thread.wait_regs : (t.wait c h).regs = t.regs := rfl
@[simp] theorem Thread.wait_qf : (t.wait c h).qf = t.qf := rfl
@[simp] theorem Thread.wait_lr : (t.wait c h).lr = t.lr := rfl
@[simp] theorem Thread.wait_claim : (t.wait c h).claim = t.claim := rfl
@[simp] theorem Thread.wait_pend : (t.wait c h).pend = t.pend := rfl
@[simp] theorem Thread.wait_item : (t.wait c h).item = t.item := rfl
@[simp] theorem Thread.wait_heldK : (t.wait c h).heldK = t.heldK := rfl
@[simp] theorem Thread.wait_heldF : (t.wait c h).heldF = t.heldF := rfl
@[simp] theorem Thread.wait_fetchPark : (t.wait c h).fetchPark = t.fetchPark := rfl
@[simp] theorem Thread.wait_arrived : (t.wait c h).arrived = t.arrived := rfl
@[simp] theorem Thread.wait_latch : (t.wait c h).latch = t.latch := rfl
@[simp] theorem Thread.wait_shadowK : (t.wait c h).shadowK = t.shadowK := rfl
@[simp] theorem Thread.wait_shadowF : (t.wait c h).shadowF = t.shadowF := rfl
end

/-! ### `Thread.clearPend` -/

section
variable (t : Thread) (op : ℕ)

@[simp] theorem Thread.clearPend_pc : (t.clearPend op).pc = t.pc := rfl
@[simp] theorem Thread.clearPend_yielded : (t.clearPend op).yielded = t.yielded := rfl
@[simp] theorem Thread.clearPend_exited : (t.clearPend op).exited = t.exited := rfl
@[simp] theorem Thread.clearPend_starve : (t.clearPend op).starve = t.starve := rfl
@[simp] theorem Thread.clearPend_acqT : (t.clearPend op).acqT = t.acqT := rfl
@[simp] theorem Thread.clearPend_enq : (t.clearPend op).enq = t.enq := rfl
@[simp] theorem Thread.clearPend_regs : (t.clearPend op).regs = t.regs := rfl
@[simp] theorem Thread.clearPend_qf : (t.clearPend op).qf = t.qf := rfl
@[simp] theorem Thread.clearPend_lr : (t.clearPend op).lr = t.lr := rfl
@[simp] theorem Thread.clearPend_claim : (t.clearPend op).claim = t.claim := rfl
@[simp] theorem Thread.clearPend_item : (t.clearPend op).item = t.item := rfl
@[simp] theorem Thread.clearPend_hold : (t.clearPend op).hold = t.hold := rfl
@[simp] theorem Thread.clearPend_waitLen : (t.clearPend op).waitLen = t.waitLen := rfl
@[simp] theorem Thread.clearPend_heldK : (t.clearPend op).heldK = t.heldK := rfl
@[simp] theorem Thread.clearPend_heldF : (t.clearPend op).heldF = t.heldF := rfl
@[simp] theorem Thread.clearPend_fetchPark : (t.clearPend op).fetchPark = t.fetchPark := rfl
@[simp] theorem Thread.clearPend_arrived : (t.clearPend op).arrived = t.arrived := rfl
@[simp] theorem Thread.clearPend_latch : (t.clearPend op).latch = t.latch := rfl
end

/-! ### `Group.modLane` -/

section
variable (g : Group) (l : ℕ) (f : Thread → Thread)

@[simp] theorem Group.modLane_level : (g.modLane l f).level = g.level := rfl
@[simp] theorem Group.modLane_blocks : (g.modLane l f).blocks = g.blocks := rfl
@[simp] theorem Group.modLane_loads : (g.modLane l f).loads = g.loads := rfl
@[simp] theorem Group.modLane_stores : (g.modLane l f).stores = g.stores := rfl
@[simp] theorem Group.modLane_copies : (g.modLane l f).copies = g.copies := rfl
@[simp] theorem Group.modLane_tiles : (g.modLane l f).tiles = g.tiles := rfl
@[simp] theorem Group.modLane_bankK : (g.modLane l f).bankK = g.bankK := rfl
@[simp] theorem Group.modLane_bankF : (g.modLane l f).bankF = g.bankF := rfl
@[simp] theorem Group.modLane_offer : (g.modLane l f).offer = g.offer := rfl
@[simp] theorem Group.modLane_counts : (g.modLane l f).counts = g.counts := rfl
@[simp] theorem Group.modLane_waited : (g.modLane l f).waited = g.waited := rfl
@[simp] theorem Group.modLane_pcore : (g.modLane l f).pcore = g.pcore := rfl
@[simp] theorem Group.modLane_fenced : (g.modLane l f).fenced = g.fenced := rfl
end

/-! ### `Group.modLanes` -/

section
variable (g : Group) (ls : List ℕ) (f : ℕ → Thread → Thread)

@[simp] theorem Group.modLanes_level : (g.modLanes ls f).level = g.level := rfl
@[simp] theorem Group.modLanes_blocks : (g.modLanes ls f).blocks = g.blocks := rfl
@[simp] theorem Group.modLanes_loads : (g.modLanes ls f).loads = g.loads := rfl
@[simp] theorem Group.modLanes_stores : (g.modLanes ls f).stores = g.stores := rfl
@[simp] theorem Group.modLanes_copies : (g.modLanes ls f).copies = g.copies := rfl
@[simp] theorem Group.modLanes_tiles : (g.modLanes ls f).tiles = g.tiles := rfl
@[simp] theorem Group.modLanes_bankK : (g.modLanes ls f).bankK = g.bankK := rfl
@[simp] theorem Group.modLanes_bankF : (g.modLanes ls f).bankF = g.bankF := rfl
@[simp] theorem Group.modLanes_offer : (g.modLanes ls f).offer = g.offer := rfl
@[simp] theorem Group.modLanes_counts : (g.modLanes ls f).counts = g.counts := rfl
@[simp] theorem Group.modLanes_waited : (g.modLanes ls f).waited = g.waited := rfl
@[simp] theorem Group.modLanes_pcore : (g.modLanes ls f).pcore = g.pcore := rfl
@[simp] theorem Group.modLanes_fenced : (g.modLanes ls f).fenced = g.fenced := rfl
end

end Sys2Proof.Machine
end

