-- ==== Sys2Proof/Laws/Lookup.lean ====
section
/-! SUPPORT. What teams, groups and threads read as after an update of one of them, of lanes, or of a die. -/

namespace Sys2Proof.Machine

/-! ### Lists -/

@[simp] theorem length_updAt {α : Type} (l : List α) (i : ℕ) (f : α → α) : (updAt l i f).length = l.length := by
  induction l generalizing i with
  | nil => rfl
  | cons x t ih => cases i with
    | zero => rfl
    | succ n => simp [updAt, ih]

theorem getElem?_updAt {α : Type} (l : List α) (i j : ℕ) (f : α → α) :
    (updAt l i f)[j]? = if j = i then (l[j]?).map f else l[j]? := by
  induction l generalizing i j with
  | nil => simp [updAt]
  | cons x t ih =>
    cases i with
    | zero => cases j <;> simp [updAt]
    | succ n => cases j with
      | zero => simp [updAt]
      | succ m => simp [updAt, ih]

/-- The updated element, when there is one. -/
theorem getD_updAt_self {α : Type} {l : List α} {i : ℕ} (f : α → α) (d : α) (h : i < l.length) :
    (updAt l i f).getD i d = f (l.getD i d) := by
  simp [List.getD, getElem?_updAt, List.getElem?_eq_getElem h]

/-- Every other element stays. -/
theorem getD_updAt_ne {α : Type} (l : List α) {i j : ℕ} (f : α → α) (d : α) (h : j ≠ i) :
    (updAt l i f).getD j d = l.getD j d := by
  simp [List.getD, getElem?_updAt, h]

/-- An update that keeps the default commutes with reading. -/
theorem getD_updAt {α : Type} (l : List α) (i j : ℕ) (f : α → α) (d : α) (h : i < l.length ∨ f d = d) :
    (updAt l i f).getD j d = if j = i then f (l.getD j d) else l.getD j d := by
  by_cases e : j = i
  · subst e
    rcases Nat.lt_or_ge j l.length with hl | hl
    · rw [if_pos rfl]; exact getD_updAt_self f d hl
    · rw [or_iff_right (by omega)] at h
      simp [List.getD, getElem?_updAt, List.getElem?_eq_none hl, h]
  · rw [if_neg e]; exact getD_updAt_ne l f d e

/-! ### Teams and dies -/

theorem State.team_modTeam_self {s : State} {ti : ℕ} (f : Team → Team) (h : ti < s.teams.length) :
    (s.modTeam ti f).team ti = f (s.team ti) := getD_updAt_self f _ h

theorem State.team_modTeam_ne (s : State) {ti tj : ℕ} (f : Team → Team) (h : tj ≠ ti) :
    (s.modTeam ti f).team tj = s.team tj := getD_updAt_ne _ f _ h

theorem State.die_modDie_self {s : State} {d : ℕ} (f : Die → Die) (h : d < s.dies.length) :
    (s.modDie d f).die d = f (s.die d) := getD_updAt_self f _ h

theorem State.die_modDie_ne (s : State) {d e : ℕ} (f : Die → Die) (h : e ≠ d) : (s.modDie d f).die e = s.die e :=
  getD_updAt_ne _ f _ h

@[simp] theorem State.teams_length_modTeam (s : State) (ti : ℕ) (f : Team → Team) :
    (s.modTeam ti f).teams.length = s.teams.length := length_updAt ..
@[simp] theorem State.dies_length_modDie (s : State) (d : ℕ) (f : Die → Die) :
    (s.modDie d f).dies.length = s.dies.length := length_updAt ..
@[simp] theorem State.die_modTeam (s : State) (ti d : ℕ) (f : Team → Team) : (s.modTeam ti f).die d = s.die d := rfl
@[simp] theorem State.die_modGroup (s : State) (ti gi d : ℕ) (f : Group → Group) : (s.modGroup ti gi f).die d = s.die d := rfl
@[simp] theorem State.die_modLanes (s : State) (ti gi d : ℕ) (ls : List ℕ) (f : ℕ → Thread → Thread) :
    (s.modLanes ti gi ls f).die d = s.die d := rfl
@[simp] theorem State.team_modDie (s : State) (d ti : ℕ) (f : Die → Die) : (s.modDie d f).team ti = s.team ti := rfl

/-- A team outside the list has no groups. -/
theorem State.team_lt {s : State} {ti gi : ℕ} (h : gi < (s.team ti).groups.length) : ti < s.teams.length := by
  by_contra hn
  have : s.team ti = Team.blank := by simp [State.team, List.getD, List.getElem?_eq_none (Nat.le_of_not_lt hn)]
  simp [this, Team.blank] at h

/-- A group outside the list has no lanes. -/
theorem State.group_lt {s : State} {ti gi l : ℕ} (h : l < (s.group ti gi).lanes.length) : gi < (s.team ti).groups.length := by
  by_contra hn
  have : s.group ti gi = Group.blank := by
    simp [State.group, Team.group, List.getD, List.getElem?_eq_none (Nat.le_of_not_lt hn)]
  simp [this, Group.blank] at h

/-! ### Groups -/

theorem State.group_modGroup_self {s : State} {ti gi : ℕ} (f : Group → Group) (h : gi < (s.team ti).groups.length) :
    (s.modGroup ti gi f).group ti gi = f (s.group ti gi) := by
  rw [State.group, State.modGroup, State.team_modTeam_self _ (State.team_lt h)]
  exact getD_updAt_self f _ h

theorem State.group_modGroup_ne (s : State) {ti gi tj gj : ℕ} (f : Group → Group) (h : (tj, gj) ≠ (ti, gi)) :
    (s.modGroup ti gi f).group tj gj = s.group tj gj := by
  by_cases ht : tj = ti
  · subst ht
    have hg : gj ≠ gi := fun e => h (by rw [e])
    rcases Nat.lt_or_ge tj s.teams.length with hl | hl
    · rw [State.group, State.modGroup, State.team_modTeam_self _ hl]
      exact getD_updAt_ne _ f _ hg
    · rw [State.group, State.group, State.team, State.team]
      simp [State.modGroup, State.modTeam, List.getD, getElem?_updAt, List.getElem?_eq_none hl]
  · rw [State.group, State.modGroup, State.team_modTeam_ne _ _ ht]; rfl

/-- Everything of a team but its groups stays when a group changes. -/
theorem State.team_modGroup (s : State) (ti gi tj : ℕ) (f : Group → Group) :
    (s.modGroup ti gi f).team tj = { s.team tj with groups := ((s.modGroup ti gi f).team tj).groups } := by
  by_cases ht : tj = ti
  · subst ht
    rcases Nat.lt_or_ge tj s.teams.length with hl | hl
    · rw [State.modGroup, State.team_modTeam_self _ hl]
    · simp [State.team, State.modGroup, State.modTeam, List.getD, getElem?_updAt, List.getElem?_eq_none hl]
  · rw [State.modGroup, State.team_modTeam_ne _ _ ht]

/-! ### Lanes -/

@[simp] theorem Group.length_modLanes (g : Group) (ls : List ℕ) (f : ℕ → Thread → Thread) :
    (g.modLanes ls f).lanes.length = g.lanes.length := by simp [Group.modLanes]

@[simp] theorem Group.length_modLane (g : Group) (l : ℕ) (f : Thread → Thread) :
    (g.modLane l f).lanes.length = g.lanes.length := length_updAt ..

theorem Group.lane_modLanes_mem {g : Group} {ls : List ℕ} {l : ℕ} (f : ℕ → Thread → Thread) (h : l ∈ ls) (hl : l < g.lanes.length) :
    (g.modLanes ls f).lane l = f l (g.lane l) := by
  simp [Group.lane, Group.modLanes, List.getD, h, hl]

theorem Group.lane_modLanes_notMem (g : Group) {ls : List ℕ} {l : ℕ} (f : ℕ → Thread → Thread) (h : l ∉ ls) :
    (g.modLanes ls f).lane l = g.lane l := by
  rcases Nat.lt_or_ge l g.lanes.length with hl | hl
  · simp [Group.lane, Group.modLanes, List.getD, h, hl]
  · simp [Group.lane, Group.modLanes, List.getD, List.getElem?_eq_none hl]

theorem State.thread_modLanes_mem {s : State} {ti gi l : ℕ} {ls : List ℕ} (f : ℕ → Thread → Thread) (h : l ∈ ls)
    (hl : l < (s.group ti gi).lanes.length) : (s.modLanes ti gi ls f).thread ti gi l = f l (s.thread ti gi l) := by
  rw [State.thread, State.modLanes, State.group_modGroup_self _ (State.group_lt hl)]
  exact Group.lane_modLanes_mem f h hl

theorem State.thread_modLanes_notMem (s : State) {ti gi l : ℕ} {ls : List ℕ} (f : ℕ → Thread → Thread) (h : l ∉ ls) :
    (s.modLanes ti gi ls f).thread ti gi l = s.thread ti gi l := by
  rcases Nat.lt_or_ge gi (s.team ti).groups.length with hg | hg
  · rw [State.thread, State.modLanes, State.group_modGroup_self _ hg]
    exact Group.lane_modLanes_notMem _ f h
  · have e : (s.modLanes ti gi ls f).group ti gi = s.group ti gi := by
      rw [State.group, State.group, Team.group, Team.group, List.getD, List.getD]
      rcases Nat.lt_or_ge ti s.teams.length with hl | hl
      · rw [State.modLanes, State.modGroup, State.team_modTeam_self _ hl]
        simp [getElem?_updAt, List.getElem?_eq_none hg]
      · simp [State.team, State.modLanes, State.modGroup, State.modTeam, List.getD, getElem?_updAt, List.getElem?_eq_none hl]
    rw [State.thread, e]; rfl

theorem State.thread_modLanes_ne (s : State) {ti gi tj gj : ℕ} (l : ℕ) (ls : List ℕ) (f : ℕ → Thread → Thread)
    (h : (tj, gj) ≠ (ti, gi)) : (s.modLanes ti gi ls f).thread tj gj l = s.thread tj gj l := by
  rw [State.thread, State.modLanes, State.group_modGroup_ne _ _ h]; rfl

@[simp] theorem State.lanes_length_modLanes (s : State) (ti gi tj gj : ℕ) (ls : List ℕ) (f : ℕ → Thread → Thread) :
    ((s.modLanes ti gi ls f).group tj gj).lanes.length = (s.group tj gj).lanes.length := by
  by_cases h : (tj, gj) = (ti, gi)
  · cases h
    rcases Nat.lt_or_ge gi (s.team ti).groups.length with hg | hg
    · rw [State.modLanes, State.group_modGroup_self _ hg]; simp
    · rw [State.group, State.group, Team.group, Team.group, List.getD, List.getD]
      rcases Nat.lt_or_ge ti s.teams.length with hl | hl
      · rw [State.modLanes, State.modGroup, State.team_modTeam_self _ hl]
        simp [getElem?_updAt, List.getElem?_eq_none hg]
      · simp [State.team, State.modLanes, State.modGroup, State.modTeam, List.getD, getElem?_updAt, List.getElem?_eq_none hl]
  · rw [State.modLanes, State.group_modGroup_ne _ _ h]

/-- A lane that `advance` moves is at the next word, and only its PC and its hold change. -/
theorem thread_advance_mem {s : State} {c : Cur} {ls : List ℕ} {l : ℕ} (h : l ∈ ls) (hl : l < (s.group c.ti c.gi).lanes.length) :
    (advance s c ls).thread c.ti c.gi l = { s.thread c.ti c.gi l with pc := c.pc + BitVec.ofNat 64 c.len, hold := .none } :=
  State.thread_modLanes_mem _ h hl

theorem thread_advance_notMem (s : State) (c : Cur) {ls : List ℕ} {l : ℕ} (h : l ∉ ls) :
    (advance s c ls).thread c.ti c.gi l = s.thread c.ti c.gi l := State.thread_modLanes_notMem s _ h

/-- What `afterLanes` leaves in an active lane. -/
theorem thread_afterLanes {s : State} {c : Cur} {g : Guard} {f : ℕ → Thread → Thread} {l : ℕ} (h : l ∈ activeLanes s c g)
    (hl : l < (s.group c.ti c.gi).lanes.length) :
    (advance (s.modLanes c.ti c.gi (activeLanes s c g) f) c c.lanes).thread c.ti c.gi l =
      { f l (s.thread c.ti c.gi l) with pc := c.pc + BitVec.ofNat 64 c.len, hold := .none } := by
  rw [thread_advance_mem (List.mem_of_mem_filter h) (by simpa using hl), State.thread_modLanes_mem f h hl]

end Sys2Proof.Machine
end

