-- ==== Sys2Proof/Laws/Registers.lean ====
section
/-! SUPPORT. Registers after a write, the width of what a source reads, and what a computing word needs for `Computes`. -/

namespace Sys2Proof.Machine

/-! ### Writes to registers, 02 R62 -/

theorem Thread.v_setV (t : Thread) (n m : ℕ) (x : Word) : (t.setV n x).v m = if m = n then x else t.v m := Sparse.get_set ..

theorem Thread.q_setQ (t : Thread) (n m : ℕ) (x : Word) : (t.setQ n x).q m = if m = n then x else t.q m := Sparse.get_set ..

theorem Thread.v_setD (t : Thread) (n m : ℕ) (x : DWord) :
    (t.setD n x).v m = if m = n + 1 then hiWord x else if m = n then loWord x else t.v m := by
  rw [Thread.setD, Thread.v_setV, Thread.v_setV]

theorem pairOf_hi_lo (x : DWord) : pairOf (hiWord x) (loWord x) = x := by
  apply BitVec.eq_of_getLsbD_eq
  intro i hi
  simp only [pairOf, hiWord, loWord, BitVec.getLsbD_append, BitVec.getLsbD_setWidth, BitVec.getLsbD_ushiftRight]
  split
  · simp [*]
  · simp only [show i - 32 < 32 by omega, decide_true, Bool.true_and]
    congr 1; omega

/-- A pair reads back as it was written. -/
theorem Thread.d_setD (t : Thread) (n : ℕ) (x : DWord) : (t.setD n x).d n = x := by
  rw [Thread.d, Thread.v_setD, Thread.v_setD, if_pos rfl, if_neg (by omega), if_pos rfl, pairOf_hi_lo]

/-- A result leaves everything of the thread but registers, operand file, reuse latch and `lr`. -/
theorem writeback_frame (t : Thread) (d : Dst) (w : ℕ) (x : DWord) (b : Bool) :
    writeback t d w x b = { t with regs := (writeback t d w x b).regs, qf := (writeback t d w x b).qf,
                                   latch := (writeback t d w x b).latch, lr := (writeback t d w x b).lr } := by
  by_cases hw : w = 64 <;> cases d <;> cases b <;> simp only [writeback, Thread.setVW, hw] <;> rfl

/-- A register that the destination does not name keeps its value. -/
theorem writeback_v {t : Thread} {d : Dst} {w : ℕ} {x : DWord} {b : Bool} {m : ℕ} (h : m ∉ dstRegs w d) :
    (writeback t d w x b).v m = t.v m := by
  have hlr : ∀ (u : Thread), (if b then { u with lr := low w x } else u).v m = u.v m := by intro u; split <;> rfl
  simp only [writeback]
  rw [hlr]
  cases d with
  | v n =>
    simp only [Thread.setVW, dstRegs] at h ⊢
    split
    · rename_i hw
      simp only [hw, if_true, List.mem_cons, List.not_mem_nil, or_false, not_or] at h
      simp [Thread.v_setD, h.1, h.2]
    · rename_i hw
      simp only [hw, if_false, List.mem_singleton] at h
      simp [Thread.v_setV, h]
  | vq n =>
    simp only [dstRegs, List.mem_singleton] at h
    change ((t.setV n.toNat (loWord x))).v m = t.v m
    simp [Thread.v_setV, h]
  | q n => rfl
  | lr => rfl

/-- `lr` after a result that writes it. -/
theorem writeback_lr (t : Thread) (d : Dst) (w : ℕ) (x : DWord) : (writeback t d w x true).lr = low w x := rfl

/-! ### Operands -/

theorem operand_low (t : Thread) (w : ℕ) (s : Src) : low w (operand t w s) = operand t w s := by
  unfold low
  split
  · rfl
  · cases s <;> simp_all [operand, low, loWord]

theorem operandB_low (t : Thread) (w : ℕ) (b : SrcB) : low w (operandB t w b) = operandB t w b := by
  cases b with
  | src s => exact operand_low t w s
  | lit l => unfold operandB low; split <;> simp_all [loWord]

theorem operand_lt (t : Thread) (w : ℕ) (s : Src) (hw : w ≠ 64) : (operand t w s).toNat < 2 ^ 32 := by
  have h := operand_low t w s
  rw [low, if_neg hw] at h
  rw [← h, BitVec.toNat_setWidth]
  exact lt_of_le_of_lt (Nat.mod_le _ _) (BitVec.isLt _)

/-! ### `Computes` from the form of a meaning -/

theorem computes_alu1 {i : Instr} {g : Guard} {wd : ℕ} {d : Dst} {wa : ℕ} {a : Src} {f : DWord → DWord} {F : Thread → DWord}
    (h : ∀ s, exec i s = alu1 g wd d wa a f s) (hf : ∀ t, f (operand t wa a) = F t) : Computes i g (regs1 wd d wa a) wd d F := by
  intro s c hr
  rw [h, alu1_issues f hr]
  simp [hf]

theorem computes_alu2 {i : Instr} {g : Guard} {wd : ℕ} {d : Dst} {wa : ℕ} {a : Src} {wb : ℕ} {b : SrcB} {f : DWord → DWord → DWord}
    {F : Thread → DWord} (h : ∀ s, exec i s = alu2 g wd d wa a wb b f s) (hf : ∀ t, f (operand t wa a) (operandB t wb b) = F t) :
    Computes i g (regs2 wd d wa a wb b) wd d F := by
  intro s c hr
  rw [h, alu2_issues f hr]
  simp [hf]

theorem computes_alu3 {i : Instr} {g : Guard} {wd : ℕ} {d : Dst} {wa : ℕ} {a : Src} {wb : ℕ} {b : SrcB} {wc : ℕ} {r : Src}
    {f : DWord → DWord → DWord → DWord} {F : Thread → DWord} (h : ∀ s, exec i s = alu3 g wd d wa a wb b wc r f s)
    (hf : ∀ t, f (operand t wa a) (operandB t wb b) (operand t wc r) = F t) : Computes i g (regs3 wd d wa a wb b wc r) wd d F := by
  intro s c hr
  rw [h, alu3_issues f hr]
  simp [hf]

/-! ### Integer values and patterns, 10 R206 -/

theorem IntTy.w_cases (t : IntTy) : t.w = 32 ∨ t.w = 64 := by cases t <;> simp [IntTy.w]

/-- A value is its pattern modulo 2^w, whatever its signedness. -/
theorem valW_emod (signed : Bool) (w : ℕ) (x : DWord) : valW signed w x % 2 ^ w = (x.toNat : ℤ) % 2 ^ w := by
  unfold valW sintW uintW
  split
  · simp only []
    split <;> simp
  · simp

/-- The low bits of a word are the pattern of every integer that agrees with it modulo 2^w. -/
theorem low_eq_patW {w : ℕ} (hw : w = 32 ∨ w = 64) {x : DWord} {y : ℤ} (h : y % 2 ^ w = (x.toNat : ℤ) % 2 ^ w) : low w x = patW w y := by
  rcases hw with rfl | rfl
  · apply BitVec.eq_of_toNat_eq
    simp [low, patW, loWord, BitVec.toNat_ofInt]
    omega
  · apply BitVec.eq_of_toNat_eq
    simp [low, patW, BitVec.toNat_ofInt]
    have := x.isLt
    omega

end Sys2Proof.Machine
end

