-- ==== Sys2Proof/Laws/Traps.lean ====
section
/-! SUPPORT. What taking a trap, returning from one, and ending an issue do, said once for each. -/

namespace Sys2Proof.Machine

/-! ### Taking a trap, 16 R351, R352, R373 -/

/-- A trap changes one group, or, at F with no vector, also what MODSTAT shows. -/
theorem takeTrap_cases (s : State) (ti gi : ℕ) (lanes : List ℕ) (cause : ℕ) (epc tval : DWord) :
    (∃ f vec, takeTrap s ti gi lanes cause epc tval = s.modGroup ti gi fun g => g.trap f vec lanes (BitVec.ofNat 32 cause) epc tval) ∨
    takeTrap s ti gi lanes cause epc tval =
      { s.modLanes ti gi lanes (fun _ t => { t with hold := .dead }) with module := { s.module with stage := 0xF, ready := false } } := by
  simp only [takeTrap, takeTrapTo]
  split
  · exact .inr rfl
  · exact .inl ⟨_, _, rfl⟩

/-- The frame of a trap: only teams and the module register may change. -/
theorem takeTrap_frame (s : State) (ti gi : ℕ) (lanes : List ℕ) (cause : ℕ) (epc tval : DWord) :
    takeTrap s ti gi lanes cause epc tval =
      { s with teams := (takeTrap s ti gi lanes cause epc tval).teams, module := (takeTrap s ti gi lanes cause epc tval).module } := by
  rcases takeTrap_cases s ti gi lanes cause epc tval with ⟨f, vec, h⟩ | h <;> rw [h] <;> rfl

@[simp] theorem takeTrap_mem (s : State) (ti gi : ℕ) (lanes : List ℕ) (cause : ℕ) (epc tval : DWord) :
    (takeTrap s ti gi lanes cause epc tval).mem = s.mem := by rw [takeTrap_frame]

@[simp] theorem takeTrap_loads (s : State) (ti gi : ℕ) (lanes : List ℕ) (cause : ℕ) (epc tval : DWord) :
    (takeTrap s ti gi lanes cause epc tval).loads = s.loads := by rw [takeTrap_frame]

@[simp] theorem takeTrap_stores (s : State) (ti gi : ℕ) (lanes : List ℕ) (cause : ℕ) (epc tval : DWord) :
    (takeTrap s ti gi lanes cause epc tval).stores = s.stores := by rw [takeTrap_frame]

@[simp] theorem takeTrap_dies (s : State) (ti gi : ℕ) (lanes : List ℕ) (cause : ℕ) (epc tval : DWord) :
    (takeTrap s ti gi lanes cause epc tval).dies = s.dies := by rw [takeTrap_frame]

/-- The bank of a level after it is set. -/
@[simp] theorem Group.bank_setBank_self (g : Group) (f : Bool) (b : Bank) : (g.setBank f b).bank f = b := by cases f <;> rfl
@[simp] theorem Group.bank_setBank_other (g : Group) (f : Bool) (b : Bank) : (g.setBank f b).bank (!f) = g.bank (!f) := by cases f <;> rfl

/-- What the bank of a trap holds: cause, address, value, handler lanes, level before; a handler is active. -/
theorem Group.trap_bank (g : Group) (f : Bool) (vec : DWord) (lanes : List ℕ) (cause : Word) (epc tval : DWord) :
    (g.trap f vec lanes cause epc tval).bank f =
      { g.bank f with cause := cause, epc := epc, tval := tval, tmask := maskOf lanes, pl := g.level, inh := true } := by cases f <;> rfl

@[simp] theorem Group.trap_level (g : Group) (f : Bool) (vec : DWord) (lanes : List ℕ) (cause : Word) (epc tval : DWord) :
    (g.trap f vec lanes cause epc tval).level = if f then .f else .k := rfl

@[simp] theorem Group.trap_length (g : Group) (f : Bool) (vec : DWord) (lanes : List ℕ) (cause : Word) (epc tval : DWord) :
    (g.trap f vec lanes cause epc tval).lanes.length = g.lanes.length := by simp [Group.trap]

/-- What entry does to each lane. -/
theorem Group.trap_lane {g : Group} (f : Bool) (vec : DWord) (lanes : List ℕ) (cause : Word) (epc tval : DWord) {l : ℕ}
    (hl : l < g.lanes.length) : (g.trap f vec lanes cause epc tval).lane l = (g.lane l).enter f (lanes.contains l) vec := by
  simp [Group.trap, Group.lane, List.getD, hl]

/-! ### Returning, 16 R376 -/

@[simp] theorem Group.trapReturn_level (g : Group) (f : Bool) : (g.trapReturn f).level = (g.bank f).pl := rfl

theorem Group.trapReturn_bank (g : Group) (f : Bool) : (g.trapReturn f).bank f = { g.bank f with inh := false } := by cases f <;> rfl

@[simp] theorem Group.trapReturn_length (g : Group) (f : Bool) : (g.trapReturn f).lanes.length = g.lanes.length := by simp [Group.trapReturn]

/-! ### Ending an issue, 16 R353 -/

/-- Advancing lanes, setting them aside and trapping write no memory: an issue writes what its own part wrote. -/
theorem finish_mem (s : State) (c : Cur) (act : List ℕ) (r : Res) :
    (finish s c act r).mem = match r with
      | .done u | .moved u | .trapIn u _ _ | .later u => u.mem
      | _ => s.mem := by
  cases r <;> simp [finish, trapRun, advance]

/-- An ordinary word keeps memory canonical if its own part does. -/
theorem memOk_issueNamed {s : State} {c : Cur} {p : Priv} {g : Guard} {names uses : List ℕ} {body : Cur → List ℕ → State → Res}
    (h : s.memOk) (hb : (finish s c (activeLanes s c g) (body c (activeLanes s c g) s)).memOk) :
    (issueNamed p g names uses body c s).memOk := by
  have ht : ∀ cause tval, (trapRun s c cause tval).memOk := fun _ _ => State.memOk_of_mem (takeTrap_mem ..) h
  have hs : ∀ ls, (stallLanes s c ls).memOk := fun _ => h
  simp only [issueNamed]
  split
  · exact ht ..
  · split
    · exact hs _
    · split
      · exact ht ..
      · split
        · exact hs _
        · exact hb

end Sys2Proof.Machine
end

