-- ==== Sys2Proof/Tests/Slice0.lean ====
section
/-! SUPPORT. The tests of the model.

Decoding: for each constructor that a word, a record or a packet encodes, one written out from the encoding tables of spec/02 and of the
instruction's page; words, records and packets that are rejected. Well-formedness: terms that each check refuses. Witnesses: for the hypotheses of
the statements, states and operands that meet them together, each clause at a boundary of its range. Values: single instructions on the values that
the specification works out. -/

namespace Sys2Proof.Tests
open Sys2Proof Sys2Proof.Machine

/-! ### Words, records and packets that decode, and that do not -/

theorem test_decode_nop : decode 0x0000000000000000 0 = .ok (.nop) := by decide
theorem test_decode_br : decode 0x001C800003030000 0 = .ok (.br (.when true 2) (.src (.imm 3))) := by decide
theorem test_decode_bri : decode 0x0020000800000000 0 = .ok (.bri .always .lr) := by decide
theorem test_decode_call : decode 0x8030014000000000 0x12345 = .ok (.call .always 20 (.lit 0x12345)) := by decide
theorem test_decode_calli : decode 0x0040014078000000 0 = .ok (.calli .always 20 (.v 30)) := by decide
theorem test_decode_ret : decode 0x0050000050000000 0 = .ok (.ret .always (.v 20)) := by decide
theorem test_decode_exit : decode 0x006BC00000000000 0 = .ok (.exit (.when false 15)) := by decide
theorem test_decode_yield : decode 0x0070000000000000 0 = .ok (.yield .always) := by decide
theorem test_decode_bar : decode 0x00800000034003C0 0 = .ok (.bar .always (.src (.imm 64)) 15) := by decide
theorem test_decode_barArr : decode 0x00900000000900C0 0 = .ok (.barArr .always (.src (.v 9)) 3) := by decide
theorem test_decode_barWt : decode 0x00A00000000000C0 0 = .ok (.barWt .always 3) := by decide
theorem test_decode_nap : decode 0x00B00080010703C0 0 = .ok (.nap .always 8 (.src (.q 7)) 15) := by decide
theorem test_decode_ntfy : decode 0x00C00000040200C0 0 = .ok (.ntfy .always (.v 1) (.src (.v 2)) 3) := by decide
theorem test_decode_take : decode 0x010000A000000080 0 = .ok (.take .always 10 2) := by decide
theorem test_decode_takeG : decode 0x011001A000003FC0 0 = .ok (.takeG .always 26 255) := by decide
theorem test_decode_relabel : decode 0x0120000000040080 0 = .ok (.relabel .always (.src (.v 4)) 2) := by decide
theorem test_decode_done : decode 0x0130000000000000 0 = .ok (.done .always) := by decide
theorem test_decode_stOrd : decode 0x0140000033F803AB 0 = .ok (.stOrd .always .dev .b64 (.v 12) (.imm 0xF8) (.v 14)) := by decide
theorem test_decode_itemi : decode 0x01500080280C0040 0 = .ok (.itemi .always 8 (.v 10) (.src (.v 12)) 1) := by decide
theorem test_decode_flowi : decode 0x01600080000C0080 0 = .ok (.flowi .always 8 (.src (.v 12)) 2) := by decide
theorem test_decode_iadd : decode 0x080000802BFF0018 0 = .ok (.iadd .always .s64 (.v 8) (.v 10) (.src (.imm 0xFF))) := by decide
theorem test_decode_isub : decode 0x081000802BFF0038 0 = .ok (.isub .always .b64 (.v 8) (.v 10) (.src (.imm 0xFF))) := by decide
theorem test_decode_imul : decode 0x083000802BFF0010 0 = .ok (.imul .always .s32 (.v 8) (.v 10) (.src (.imm 0xFF))) := by decide
theorem test_decode_imulh : decode 0x084000802BFF0030 0 = .ok (.imulh .always .b32 (.v 8) (.v 10) (.src (.imm 0xFF))) := by decide
theorem test_decode_idiv : decode 0x087000802BFF0010 0 = .ok (.idiv .always .s32 (.v 8) (.v 10) (.src (.imm 0xFF))) := by decide
theorem test_decode_irem : decode 0x088000802BFF0038 0 = .ok (.irem .always .b64 (.v 8) (.v 10) (.src (.imm 0xFF))) := by decide
theorem test_decode_imin : decode 0x089000802BFF0010 0 = .ok (.imin .always .s32 (.v 8) (.v 10) (.src (.imm 0xFF))) := by decide
theorem test_decode_imax : decode 0x08A000802BFF0030 0 = .ok (.imax .always .b32 (.v 8) (.v 10) (.src (.imm 0xFF))) := by decide
theorem test_decode_iaddc : decode 0x08200090280C03FB 0 = .ok (.iaddc .always .bo .b64 (.v 9) (.v 10) (.src (.v 12)) (.v 15)) := by decide
theorem test_decode_imad : decode 0x085010940600C150 0 = .ok (.imad .always .s32 (.vq 9) (.q 1) (.src .lr) (.imm 5)) := by decide
theorem test_decode_imadh : decode 0x88600080280003B8 0xffffffffffffffff = .ok (.imadh .always .b64 (.v 8) (.v 10) (.lit 0xFFFFFFFFFFFFFFFF) (.v 14)) := by decide
theorem test_decode_iabs : decode 0x08B0008028000018 0 = .ok (.iabs .always .s64 (.v 8) (.v 10)) := by decide
theorem test_decode_ineg : decode 0x08C020502C000010 0 = .ok (.ineg .always .s32 (.q 5) (.v 11)) := by decide
theorem test_decode_and : decode 0x09000080280C0030 0 = .ok (.and .always .b32 (.v 8) (.v 10) (.src (.v 12))) := by decide
theorem test_decode_xor : decode 0x09200080280C0038 0 = .ok (.xor .always .b64 (.v 8) (.v 10) (.src (.v 12))) := by decide
theorem test_decode_andn : decode 0x09300080280C0030 0 = .ok (.andn .always .b32 (.v 8) (.v 10) (.src (.v 12))) := by decide
theorem test_decode_or : decode 0x8910028030000030 0x100 = .ok (.or .always .b32 (.v 40) (.v 12) (.lit 0x100)) := by decide
theorem test_decode_shl : decode 0x094002408F0E0030 0 = .ok (.shl .always .b32 (.v 36) (.v 35) (.src (.imm 14))) := by decide
theorem test_decode_shr : decode 0x09500080280D0038 0 = .ok (.shr .always .b64 (.v 8) (.v 10) (.src (.v 13))) := by decide
theorem test_decode_sar : decode 0x09600080280D0018 0 = .ok (.sar .always .s64 (.v 8) (.v 10) (.src (.v 13))) := by decide
theorem test_decode_rol : decode 0x09700080280D0038 0 = .ok (.rol .always .b64 (.v 8) (.v 10) (.src (.v 13))) := by decide
theorem test_decode_clz : decode 0x0980009028000030 0 = .ok (.clz .always .b32 (.v 9) (.v 10)) := by decide
theorem test_decode_ctz : decode 0x0990009028000038 0 = .ok (.ctz .always .b64 (.v 9) (.v 10)) := by decide
theorem test_decode_popc : decode 0x09A0009028000038 0 = .ok (.popc .always .b64 (.v 9) (.v 10)) := by decide
theorem test_decode_brev : decode 0x09B0008028000038 0 = .ok (.brev .always .b64 (.v 8) (.v 10)) := by decide
theorem test_decode_bfe : decode 0x89C0109030000030 0x1810 = .ok (.bfe .always .b32 (.vq 9) (.v 12) (.lit 0x1810)) := by decide
theorem test_decode_bfi : decode 0x09D000902C0D03F0 0 = .ok (.bfi .always .b32 (.v 9) (.v 11) (.src (.v 13)) (.v 15)) := by decide
theorem test_decode_bsel : decode 0x09E000902C0D03F0 0 = .ok (.bsel .always .b32 (.v 9) (.v 11) (.src (.v 13)) (.v 15)) := by decide
theorem test_decode_sel : decode 0x09F00080280C03F8 0 = .ok (.sel .always .b64 (.v 8) (.v 10) (.src (.v 12)) (.v 15)) := by decide
theorem test_decode_icmp : decode 0x0A0000303300001D 0 = .ok (.icmp .always .ge .s64 (.v 3) (.v 12) (.src (.imm 0))) := by decide
theorem test_decode_isat : decode 0x0A1000903000002B 0 = .ok (.isat .always .du .b16 (.v 9) (.v 12)) := by decide
theorem test_decode_add64 : decode 0x0A200180600C0038 0 = .ok (.add64 .always (.v 24) (.v 24) (.src (.v 12))) := by decide
theorem test_decode_sub64 : decode 0x0A300188000C0038 0 = .ok (.sub64 .always (.v 24) .lr (.src (.v 12))) := by decide
theorem test_decode_lea64 : decode 0x0A4000C060170FF9 0 = .ok (.lea64 .always true (.v 12) (.v 24) (.src (.v 23)) 63) := by decide
theorem test_decode_mov : decode 0x0A5000940C000030 0 = .ok (.mov .always .b32 (.v 9) (.q 3)) := by decide
theorem test_decode_movi : decode 0x0A60029003550030 0 = .ok (.movi .always .b32 (.v 41) (.src (.imm 0x55))) := by decide
theorem test_decode_pairWord : decode 0x42304080341B8060 0 = .ok (.pairWord ⟨.fmul, .f32, .rne, 48, .q 2⟩ ⟨.mov, .b32, .rne, 13, .imm 0⟩) := by decide
theorem test_decode_fadd : decode 0x100000902C0D0002 0 = .ok (.fadd .always .f32 .rz (.v 9) (.v 11) (.src (.v 13))) := by decide
theorem test_decode_fsub : decode 0x101000902C0D000C 0 = .ok (.fsub .always .f16 .ru (.v 9) (.v 11) (.src (.v 13))) := by decide
theorem test_decode_fmul : decode 0x102000902C0D0016 0 = .ok (.fmul .always .bf16 .rd (.v 9) (.v 11) (.src (.v 13))) := by decide
theorem test_decode_ffma : decode 0x10300080240A40C2 0 = .ok (.ffma .always .f32 .rz (.v 8) (.v 9) (.src (.v 10)) (.q 3)) := by decide
theorem test_decode_fmin : decode 0x104000902C0D0000 0 = .ok (.fmin .always .f32 (.v 9) (.v 11) (.src (.v 13))) := by decide
theorem test_decode_fmax : decode 0x105000902C0D0010 0 = .ok (.fmax .always .bf16 (.v 9) (.v 11) (.src (.v 13))) := by decide
theorem test_decode_fcmp : decode 0x106000902C0D0148 0 = .ok (.fcmp .always .ord .f16 (.v 9) (.v 11) (.src (.v 13))) := by decide
theorem test_decode_fcls : decode 0x107000902C000030 0 = .ok (.fcls .always .n4 (.v 9) (.v 11)) := by decide
theorem test_decode_frnd : decode 0x108000902C000006 0 = .ok (.frnd .always .f32 .rd (.v 9) (.v 11)) := by decide
theorem test_decode_fcvt : decode 0x109000C050000C00 0 = .ok (.fcvt .always .n8 .f32 .rne (.v 12) (.v 20)) := by decide
theorem test_decode_fpk : decode 0x10A000902C0D0014 0 = .ok (.fpk .always .bf16 .ru (.v 9) (.v 11) (.src (.v 13))) := by decide
theorem test_decode_fpkN8 : decode 0x10A000902C0D03EB 0 = .ok (.fpkN8 .always true .rz (.v 9) (.v 11) (.src (.v 13)) (.v 15)) := by decide
theorem test_decode_hadd2 : decode 0x110000902C0D001A 0 = .ok (.hadd2 .always .f16x2 .rz (.v 9) (.v 11) (.src (.v 13))) := by decide
theorem test_decode_hmul2 : decode 0x111000902C0D0020 0 = .ok (.hmul2 .always .bf16x2 .rne (.v 9) (.v 11) (.src (.v 13))) := by decide
theorem test_decode_hfma2 : decode 0x112000902C0D03DC 0 = .ok (.hfma2 .always .f16x2 .ru (.v 9) (.v 11) (.src (.v 13)) (.v 15)) := by decide
theorem test_decode_hmin2 : decode 0x113000902C0D0018 0 = .ok (.hmin2 .always .f16x2 (.v 9) (.v 11) (.src (.v 13))) := by decide
theorem test_decode_hmax2 : decode 0x114000902C0D0020 0 = .ok (.hmax2 .always .bf16x2 (.v 9) (.v 11) (.src (.v 13))) := by decide
theorem test_decode_sfuRcp : decode 0x120000902C000000 0 = .ok (.sfuRcp .always (.v 9) (.v 11)) := by decide
theorem test_decode_sfuRsq : decode 0x121000902C000000 0 = .ok (.sfuRsq .always (.v 9) (.v 11)) := by decide
theorem test_decode_sfuSqrt : decode 0x122000902C000000 0 = .ok (.sfuSqrt .always (.v 9) (.v 11)) := by decide
theorem test_decode_sfuExp2 : decode 0x123000902C000000 0 = .ok (.sfuExp2 .always (.v 9) (.v 11)) := by decide
theorem test_decode_sfuLog2 : decode 0x124000902C000000 0 = .ok (.sfuLog2 .always (.v 9) (.v 11)) := by decide
theorem test_decode_sfuSin : decode 0x125000902C000000 0 = .ok (.sfuSin .always (.v 9) (.v 11)) := by decide
theorem test_decode_sfuCos : decode 0x126000902C000000 0 = .ok (.sfuCos .always (.v 9) (.v 11)) := by decide
theorem test_decode_sfuTanh : decode 0x127000902C000000 0 = .ok (.sfuTanh .always (.v 9) (.v 11)) := by decide
theorem test_decode_dot4 : decode 0x180000902C0D03CE 0 = .ok (.dot4 .always .n8 .rd (.v 9) (.v 11) (.src (.v 13)) (.v 15)) := by decide
theorem test_decode_dot8 : decode 0x181000902C0D03D0 0 = .ok (.dot8 .always .i4 .rne (.v 9) (.v 11) (.src (.v 13)) (.v 15)) := by decide
theorem test_decode_bscl : decode 0x182000902C0DC1F2 0 = .ok (.bscl .always .rz (.v 9) (.v 11) (.src (.v 13)) (.imm 7)) := by decide
theorem test_decode_bexp : decode 0x183000902C000018 0 = .ok (.bexp .always .n4 (.v 9) (.v 11)) := by decide
theorem test_decode_mexp : decode 0x184000902C0D0010 0 = .ok (.mexp .always .i4 (.v 9) (.v 11) (.src (.v 13))) := by decide
theorem test_decode_cmpr : decode 0x19000080280D0038 0 = .ok (.cmpr .always .b64 (.v 8) (.v 10) (.src (.v 13))) := by decide
theorem test_decode_expd : decode 0x191000902C0D0028 0 = .ok (.expd .always .b32 (.v 9) (.v 11) (.src (.v 13))) := by decide
theorem test_decode_lxch : decode 0x192000902301002A 0 = .ok (.lxch .always .bfly .b32 (.v 9) (.v 8) (.src (.imm 1))) := by decide
theorem test_decode_vote : decode 0x193000802C000003 0 = .ok (.vote .always .ballot (.v 8) (.v 11)) := by decide
theorem test_decode_scan : decode 0x194000902C000035 0 = .ok (.scan .always .max true .f32 (.v 9) (.v 11)) := by decide
theorem test_decode_matchL : decode 0x195000802C000029 0 = .ok (.matchL .always true .b32 (.v 8) (.v 11)) := by decide
theorem test_decode_cxch : decode 0x196000902C0D0030 0 = .ok (.cxch .always .f32 (.v 9) (.v 11) (.src (.v 13))) := by decide
theorem test_decode_spk24 : decode 0x197000902C000008 0 = .ok (.spk24 .always .n8 (.v 9) (.v 11)) := by decide
theorem test_decode_sxp24 : decode 0x198000902C000000 0 = .ok (.sxp24 .always .i8 (.v 9) (.v 11)) := by decide
theorem test_decode_ffs : decode 0x19900090900B0038 0 = .ok (.ffs .always .b64 (.v 9) (.v 36) (.src (.v 11))) := by decide
theorem test_decode_ld : decode 0x1C00009053FE0005 0 = .ok (.ld .always .s16 9 (.v 20) (.imm 0xFE)) := by decide
theorem test_decode_st : decode 0x9C10000050000583 0x100000000 = .ok (.st .always .b64 (.v 20) (.lit 0x100000000) (.v 22)) := by decide
theorem test_decode_lds : decode 0x1C20009803040002 0 = .ok (.lds .always .b32 9 .lr (.imm 4)) := by decide
theorem test_decode_sts : decode 0x9C30000034000201 0x400 = .ok (.sts .always .b16 (.v 13) (.lit 0x400) (.v 8)) := by decide
theorem test_decode_ldAcq : decode 0x1C40009053000038 0 = .ok (.ldAcq .always .sys .b8 9 (.v 20) (.imm 0)) := by decide
theorem test_decode_stRel : decode 0x1C5000005300418A 0 = .ok (.stRel .always .team .b32 (.v 20) (.imm 0) (.q 6)) := by decide
theorem test_decode_atom : decode 0x1D00008050FCF02B 0 = .ok (.atom .always .cas true .dev true 8 (.v 20) (.src (.v 252))) := by decide
theorem test_decode_atomBnd : decode 0x1D100090500B001A 0 = .ok (.atomBnd .always .clu false 9 (.v 20) (.src (.v 11))) := by decide
theorem test_decode_atomTopk : decode 0x1D200090500BF026 0 = .ok (.atomTopk .always true 7 .die 9 (.v 20) 11) := by decide
theorem test_decode_red : decode 0x1D300000500BA012 0 = .ok (.red .always .xor false .core false (.v 20) (.src (.v 11))) := by decide
theorem test_decode_fence : decode 0x1E10000000000030 0 = .ok (.fence .dom) := by decide
theorem test_decode_cpGo : decode 0x2408C1B070000000 0 = .ok (.cpGo (.when false 3) 27 (.v 28)) := by decide
theorem test_decode_cpStop : decode 0x241000006C000000 0 = .ok (.cpStop .always 27) := by decide
theorem test_decode_cpStat : decode 0x242000906C000000 0 = .ok (.cpStat .always 9 27) := by decide
theorem test_decode_waitc : decode 0x2430000CFF3E0F3D 0 = .ok (.waitc 63 62 60 61) := by decide
theorem test_decode_shfOpen : decode 0xA500008050000000 0x123 = .ok (.shfOpen .always 8 (.v 20) (.lit 0x123)) := by decide
theorem test_decode_shfSide : decode 0x2510008050090280 0 = .ok (.shfSide .always 8 (.v 20) (.src (.v 9)) (.v 10)) := by decide
theorem test_decode_shfDrop : decode 0x252000802C090000 0 = .ok (.shfDrop .always 8 (.v 11) (.src (.v 9))) := by decide
theorem test_decode_shfClose : decode 0x2530008000090000 0 = .ok (.shfClose .always 8 (.src (.v 9))) := by decide
theorem test_decode_arnChk : decode 0x2600008024000000 0 = .ok (.arnChk .always 8 (.v 9)) := by decide
theorem test_decode_arnWin : decode 0x261001E024000000 0 = .ok (.arnWin .always 30 (.v 9)) := by decide
theorem test_decode_cwb : decode 0x2700000050090028 0 = .ok (.cwb .always false (.v 20) (.src (.v 9))) := by decide
theorem test_decode_cinv : decode 0x2710000050090000 0 = .ok (.cinv .always (.v 20) (.src (.v 9))) := by decide
theorem test_decode_cdrop : decode 0xA720000050000000 0x10000 = .ok (.cdrop .always (.v 20) (.lit 0x10000)) := by decide
theorem test_decode_cvd : decode 0x280000000009001E 0 = .ok (.cvd .always 15 (.src (.v 9))) := by decide
theorem test_decode_cvdMask : decode 0xA800000000000026 0xffff00000000ffff = .ok (.cvdMask .always 3 (.lit 0xFFFF00000000FFFF)) := by decide
theorem test_decode_mma : decode 0x28100000A0240A4B 0 = .ok (.mma .always 5 true 40 (.src (.v 36)) (.v 41)) := by decide
theorem test_decode_acg : decode 0x2900009003200000 0 = .ok (.acg .always 9 (.src (.imm 32))) := by decide
theorem test_decode_acp : decode 0x2910000003100000 0 = .ok (.acp .always (.src (.imm 16))) := by decide
theorem test_decode_acz : decode 0x2920000027040000 0 = .ok (.acz .always (.v 9) (.src (.imm 4))) := by decide
theorem test_decode_acn : decode 0x2930000027030000 0 = .ok (.acn .always (.v 9) (.src (.imm 3))) := by decide
theorem test_decode_ach : decode 0x294000902C000000 0 = .ok (.ach .always 9 (.v 11)) := by decide
theorem test_decode_acr : decode 0x2950030094260004 0 = .ok (.acr .always .bf16 48 (.v 37) (.src (.v 38))) := by decide
theorem test_decode_acrImg : decode 0x2950000094260020 0 = .ok (.acrImg .always (.v 37) (.src (.v 38))) := by decide
theorem test_decode_acw : decode 0x2960000094260C06 0 = .ok (.acw .always .n8 (.v 37) 48 (.src (.v 38))) := by decide
theorem test_decode_acwImg : decode 0xA960000094000020 0x8000 = .ok (.acwImg .always (.v 37) (.lit 0x8000)) := by decide
theorem test_decode_rget : decode 0x2C00000003080000 0 = .ok (.rget .always (.src (.imm 8))) := by decide
theorem test_decode_rput : decode 0xAC10000000000000 0x3 = .ok (.rput .always (.lit 3)) := by decide
theorem test_decode_srd : decode 0x2C2000B0000008C0 0 = .ok (.srd .always (.v 11) .capn) := by decide
theorem test_decode_bfqPost : decode 0x2E00008050090000 0 = .ok (.bfqPost .always 8 (.v 20) (.src (.v 9))) := by decide
theorem test_decode_bfqTake : decode 0x2E100080240A02C0 0 = .ok (.bfqTake .always 8 (.v 9) (.src (.v 10)) (.v 11)) := by decide
theorem test_decode_bfqDone : decode 0x2E20008024000000 0 = .ok (.bfqDone .always 8 (.v 9)) := by decide
theorem test_decode_bfqDoneWd : decode 0x2E20008024000001 0 = .ok (.bfqDoneWd .always 8 (.v 9)) := by decide
theorem test_decode_trap : decode 0x3000000003050000 0 = .ok (.trap .always (.src (.imm 5))) := by decide
theorem test_decode_brk : decode 0xB010000000000000 0x1234 = .ok (.brk .always (.lit 0x1234)) := by decide
theorem test_decode_kret : decode 0x3020000000000000 0 = .ok (.kret) := by decide
theorem test_decode_fret : decode 0x3030000000000000 0 = .ok (.fret) := by decide
theorem test_decode_syr : decode 0x3040008000000040 0 = .ok (.syr .always 8 .epc) := by decide
theorem test_decode_syw : decode 0x3050000050000200 0 = .ok (.syw .always (.v 20) .kvec) := by decide
theorem test_decode_tlbi : decode 0x3060008050090580 0 = .ok (.tlbi .always 8 (.v 20) (.src (.v 9)) (some 22)) := by decide
theorem test_decode_pfack : decode 0x3070008027010000 0 = .ok (.pfack .always 8 (.v 9) (.imm 1)) := by decide
theorem test_decode_ctxsv : decode 0x3080008053000000 0 = .ok (.ctxsv .always 8 (.v 20) (.imm 0)) := by decide
theorem test_decode_ctxld : decode 0x3090008024000000 0 = .ok (.ctxld .always 8 (.v 9)) := by decide
theorem test_decode_halt : decode 0x30A0000000000000 0 = .ok (.halt .always) := by decide
theorem test_decode_keyld : decode 0x30B0008024140000 0 = .ok (.keyld .always 8 (.v 9) (.src (.v 20))) := by decide
theorem test_decode_fwqPull : decode 0x30C0008050000000 0 = .ok (.fwqPull .always 8 20) := by decide
theorem test_decode_fwqPush : decode 0x30C0008050000040 0 = .ok (.fwqPush .always 8 20) := by decide
theorem test_decode_fwqAct : decode 0x30C0008053010080 0 = .ok (.fwqAct .always 8 20 true) := by decide
theorem test_decode_pfL1 : decode 0x1E00000053080000 0 = .ok (.pfL1 .always (.v 20) (.imm 8)) := by decide
theorem test_decode_pfL2 : decode 0x9E00000050000040 0x10000 = .ok (.pfL2 .always (.v 20) (.lit 0x10000)) := by decide
theorem test_reject_unassigned : decode 0x00D0000000000000 0x0 = .error 1 := by decide
theorem test_reject_kind3 : decode 0xC000000000000000 0x0 = .error 1 := by decide
theorem test_reject_guard_off_reg : decode 0x08004080280C0010 0x0 = .error 1 := by decide
theorem test_reject_odd_pair : decode 0x08000090280C0018 0x0 = .error 1 := by decide
theorem test_reject_subcode : decode 0x08000080280C0011 0x0 = .error 1 := by decide
theorem test_reject_q_limit : decode 0x08000084200C0010 0x0 = .error 1 := by decide
theorem test_reject_no_xform : decode 0x88B0008028000010 0x5 = .error 1 := by decide
theorem test_reject_xform_b : decode 0x88000080280C0010 0x5 = .error 1 := by decide
theorem test_reject_literal_high : decode 0x8800008028000010 0x100000000 = .error 1 := by decide
theorem test_reject_type : decode 0x09000080280C0010 0x0 = .error 1 := by decide
theorem test_reject_store_width : decode 0x1C10000053000244 0x0 = .error 1 := by decide
theorem test_reject_red_cas : decode 0x1D300000500BE012 0x0 = .error 1 := by decide
theorem test_reject_nop_guard : decode 0x0008000000000000 0x0 = .error 1 := by decide
theorem test_reject_cas_past_end : decode 0x1D00008050FEE02B 0x0 = .error 1 := by decide
theorem test_reject_lea_high_c : decode 0x0A4000C060171038 0x0 = .error 1 := by decide
theorem test_reject_selector : decode 0x3040008000000180 0x0 = .error 1 := by decide
theorem test_reject_flow_class : decode 0x01600080000C00C0 0x0 = .error 1 := by decide
theorem test_reject_acw_format : decode 0x2960000094260C12 0x0 = .error 1 := by decide
theorem test_reject_pair_pipes : decode 0x50080250221A0720 0x0 = .error 2 := by decide
theorem test_reject_pair_banks : decode 0x40080240201800A0 0x0 = .error 2 := by decide
theorem test_reject_pair_type : decode 0x42080248341A0760 0x0 = .error 1 := by decide
theorem test_record_recEnd : decodeRecord 5 ⟨0x0, 0x0, 0x0, 0x0⟩ = some (.recEnd 5) := by decide
theorem test_record_move : decodeRecord 5 ⟨0x1001004021, 0x7000, 0x400, 0x0⟩ = some (.move 5 ⟨false, true, 64, 1, 1, 0, 0, 0x7000, 0x400, 0, 0, 0, 0⟩) := by decide
theorem test_record_move_strides : decodeRecord 5 ⟨0xCB89A567123431, 0x10, 0x20, 0x4444333322221111⟩ = some (.move 5 ⟨true, true, 0x1234, 0x567, 0x89A, 0xB, 0xC, 0x10, 0x20, 0x1111, 0x2222, 0x3333, 0x4444⟩) := by decide
theorem test_record_mcast : decodeRecord 5 ⟨0x1234567A12, 0x40, 0x89ABCDEF, 0x0⟩ = some (.mcast 5 ⟨true, false, 0xA, 0x7, 0x123456, 0x40, 0x89ABCDEF⟩) := by decide
theorem test_record_loop : decodeRecord 5 ⟨0x1234ABCDEF23, 0x40, 0xFFFFFFFFFFFFFFC0, 0x0⟩ = some (.loop 5 ⟨2, 0xABCDEF, 0x1234, 0x40, 0xFFFFFFFFFFFFFFC0⟩) := by decide
theorem test_record_cond : decodeRecord 5 ⟨0x89ABCDEC00123434, 0x5566778811223344, 0x0, 0x0⟩ = some (.cond 5 ⟨.aboveEq, 0x1234, 0x89ABCDEC, 0x11223344, 0x55667788⟩) := by decide
theorem test_record_conv : decodeRecord 5 ⟨0x123456038315, 0x40, 0x9000, 0x0⟩ = some (.conv 5 ⟨true, false, .n8, .i32, .rd, 0x123456, 0x40, 0x9000⟩) := by decide
theorem test_record_sample : decodeRecord 5 ⟨0x123400803C4955D6, 0x3F800000, 0x9000, 0x80⟩ = some (.sample 5 ⟨true, false, true, true, 0x155, 0x12, 0xF, 0x80, 0x1234, 0x3F800000, 0x9000, 0x80⟩) := by decide
theorem test_record_csend : decodeRecord 5 ⟨0xABC123417, 0x400, 0x1122334400000383, 0x800⟩ = some (.csend 5 ⟨true, 0x1234, 0xABC, 0x400, 899, 0x11223344, 0x800⟩) := by decide
theorem test_record_sig : decodeRecord 5 ⟨0x718, 0x9004, 0x11223344, 0x0⟩ = some (.sig 5 ⟨.add, false, .sys, 0x9004, 0x11223344⟩) := by decide
theorem test_record_refused : decodeRecord 5 ⟨0x9, 0, 0, 0⟩ = none ∧ decodeRecord 5 ⟨0x10, 0, 0, 0⟩ = none ∧ decodeRecord 5 ⟨0x31, 0, 0, 0⟩ = none := by decide
theorem test_packet_launch : decodePacket 7 [0x8241600BE3701, 0x10000, 0x2000, 0x700018000, 0x1C100, 0x5000, 0x400000003, 0x123456000E0005, 0x2000000010, 0x30, 0x0, 0x0, 0x0, 0x0, 0x0, 0x0] =
    .ok (.launch 7 ⟨true, true, true, 2, true, false, 190, 2, 5, 16, 4, 32, 0x10000, 0x2000, 0x18000, 7, ⟨256, 3⟩, ⟨1, 0⟩, ⟨0, 0⟩, ⟨0, 0⟩, 0x5000, 3, 4, 5, 2, 3,
      0x123456, 0x10, 0x20, 0x30⟩) := by decide
theorem test_packet_wait : decodePacket 7 [0x2, 0x1004, 0x9, 0x0, 0x0, 0x0, 0x0, 0x0] = .ok (.wait 7 0x1004 9) := by decide
theorem test_packet_signal : decodePacket 7 [0x103, 0x1004, 0x9, 0x0, 0x0, 0x0, 0x0, 0x0] = .ok (.signal 7 true 0x1004 9) := by decide
theorem test_packet_pred : decodePacket 7 [0x7F020104, 0x1004, 0x9, 0x0, 0x0, 0x0, 0x0, 0x0] = .ok (.pred 7 true 2 127 0x1004 9) := by decide
theorem test_packet_errors : decodePacket 7 [0x5, 0x0, 0x0, 0x0, 0x0, 0x0, 0x0, 0x0] = .error 0x01 ∧ decodePacket 7 [0x202, 0x4, 0x0, 0x0, 0x0, 0x0, 0x0, 0x0] = .error 0x02 ∧
    decodePacket 7 [0x2, 0x2, 0x0, 0x0, 0x0, 0x0, 0x0, 0x0] = .error 0x03 := by decide

/-! ### Ill-formed instructions -/

theorem test_wf_control : ∀ i ∈ ([
    .br .always (.lit 0x100000000), .bar .always (.lit 0x100000000) 0, .barArr .always (.lit 0x100000000) 0, .bri .always (.q 1),
    .bri .always (.v 9), .ret .always (.imm 8), .call .always 9 (.src (.v 4)), .call .always 8 (.lit 0x100000000),
    .calli .always 9 (.v 4), .calli .always 8 (.q 1), .nap .always 8 (.lit 0x100000000) 0, .ntfy .always (.v 4) (.lit 0x100000000) 0,
    .take .always 9 2, .takeG .always 9 2, .relabel .always (.lit 0x100000000) 0, .stOrd .always .dev .s8 (.v 4) (.imm 0) (.v 6),
    .stOrd .always .dev .s16 (.v 4) (.imm 0) (.v 6), .stOrd .always .dev .b32 (.v 5) (.imm 0) (.v 6),
    .stOrd .always .dev .b64 (.v 4) (.imm 0) (.v 7), .itemi .always 8 (.v 9) (.src (.v 4)) 0,
    .itemi .always 8 (.v 10) (.lit 0x100000000) 0, .flowi .always 8 (.lit 0x100000000) 0, .flowi .always 8 (.src (.v 4)) 3] : List Instr), i.wf = false := by decide
theorem test_wf_integer_1 : ∀ i ∈ ([
    .iadd .always .s16 (.v 8) (.v 10) (.src (.v 12)), .iadd .always .s64 (.v 9) (.v 10) (.src (.v 12)),
    .isub .always .s16 (.v 8) (.v 10) (.src (.v 12)), .isub .always .s64 (.v 9) (.v 10) (.src (.v 12)),
    .imul .always .s16 (.v 8) (.v 10) (.src (.v 12)), .imul .always .s64 (.v 9) (.v 10) (.src (.v 12)),
    .imulh .always .s16 (.v 8) (.v 10) (.src (.v 12)), .imulh .always .s64 (.v 9) (.v 10) (.src (.v 12)),
    .idiv .always .s16 (.v 8) (.v 10) (.src (.v 12)), .idiv .always .s64 (.v 9) (.v 10) (.src (.v 12)),
    .irem .always .s16 (.v 8) (.v 10) (.src (.v 12)), .irem .always .s64 (.v 9) (.v 10) (.src (.v 12)),
    .imin .always .s16 (.v 8) (.v 10) (.src (.v 12)), .imin .always .s64 (.v 9) (.v 10) (.src (.v 12)),
    .imax .always .s16 (.v 8) (.v 10) (.src (.v 12)), .imax .always .s64 (.v 9) (.v 10) (.src (.v 12)),
    .iadd .always .s64 (.vq 8) (.v 10) (.src (.v 12)), .iadd .always .s64 (.q 2) (.v 10) (.src (.v 12)),
    .iadd .always .s64 (.v 8) (.v 11) (.src (.v 12)), .iadd .always .s64 (.v 8) (.q 1) (.src (.v 12)),
    .iadd .always .s64 (.v 8) (.v 10) (.src (.v 13)), .iadd .always .s32 (.v 8) (.v 10) (.lit 0x100000000),
    .iaddc .always .sum .s32 (.v 8) (.v 10) (.src (.v 12)) (.v 1), .iaddc .always .sum .b64 (.v 9) (.v 10) (.src (.v 12)) (.v 1),
    .imad .always .b8 (.v 8) (.v 10) (.src (.v 12)) (.v 14), .imad .always .s64 (.v 8) (.v 10) (.src (.v 12)) (.v 15),
    .imadh .always .b8 (.v 8) (.v 10) (.src (.v 12)) (.v 14), .imadh .always .s64 (.v 8) (.v 10) (.src (.v 12)) (.v 15),
    .iabs .always .b32 (.v 8) (.v 10), .iabs .always .s64 (.v 9) (.v 10), .iabs .always .s64 (.v 8) (.v 11),
    .ineg .always .b32 (.v 8) (.v 10), .ineg .always .s64 (.v 9) (.v 10), .ineg .always .s64 (.v 8) (.v 11),
    .and .always .s32 (.v 8) (.v 10) (.src (.v 12)), .or .always .s32 (.v 8) (.v 10) (.src (.v 12)),
    .xor .always .s32 (.v 8) (.v 10) (.src (.v 12)), .andn .always .s32 (.v 8) (.v 10) (.src (.v 12)),
    .shl .always .s32 (.v 8) (.v 10) (.src (.v 12)), .shl .always .b64 (.v 8) (.v 10) (.lit 0x100000000)] : List Instr), i.wf = false := by decide
theorem test_wf_integer_2 : ∀ i ∈ ([
    .shr .always .s32 (.v 8) (.v 10) (.src (.v 12)), .shr .always .b64 (.v 8) (.v 10) (.lit 0x100000000),
    .rol .always .s32 (.v 8) (.v 10) (.src (.v 12)), .rol .always .b64 (.v 8) (.v 10) (.lit 0x100000000),
    .sar .always .b32 (.v 8) (.v 10) (.src (.v 12)), .clz .always .s32 (.v 8) (.v 10), .clz .always .b64 (.v 8) (.v 11),
    .ctz .always .s32 (.v 8) (.v 10), .ctz .always .b64 (.v 8) (.v 11), .popc .always .s32 (.v 8) (.v 10),
    .popc .always .b64 (.v 8) (.v 11), .brev .always .s32 (.v 8) (.v 10), .brev .always .b64 (.v 9) (.v 10),
    .mov .always .s32 (.v 8) (.v 10), .mov .always .b64 (.v 9) (.v 10), .bfe .always .b8 (.v 8) (.v 10) (.src (.v 12)),
    .bfi .always .s32 (.v 8) (.v 10) (.src (.v 12)) (.v 14), .bfi .always .b64 (.v 8) (.v 10) (.src (.v 12)) (.v 15),
    .bsel .always .b64 (.v 8) (.v 10) (.src (.v 12)) (.v 14), .sel .always .s32 (.v 8) (.v 10) (.src (.v 12)) (.v 14),
    .icmp .always .eq .b16 (.v 8) (.v 10) (.src (.v 12)), .isat .always .ws .s64 (.v 8) (.v 10), .isat .always .ds .s32 (.v 8) (.v 11),
    .add64 .always (.v 9) (.v 10) (.src (.v 12)), .sub64 .always (.v 8) (.v 11) (.src (.v 12)),
    .lea64 .always true (.v 8) (.v 10) (.lit 0x100000000) 3, .movi .always .s8 (.v 8) (.src (.v 12)),
    .movi .always .b32 (.v 8) (.lit 0x100000000)] : List Instr), i.wf = false := by decide
theorem test_wf_pair : ∀ i ∈ ([
    .pairWord ⟨.fmul, .f16x2, .rne, 8, .v 9⟩ ⟨.mov, .b32, .rne, 13, .v 14⟩,
    .pairWord ⟨.fmin, .f32, .rz, 8, .v 9⟩ ⟨.mov, .b32, .rne, 13, .v 14⟩,
    .pairWord ⟨.fmul, .f32, .rne, 8, .v 9⟩ ⟨.mov, .b32, .rne, 12, .v 14⟩,
    .pairWord ⟨.fmul, .f32, .rne, 8, .v 9⟩ ⟨.mov, .b32, .rne, 13, .v 13⟩,
    .pairWord ⟨.iadd, .s32, .rne, 8, .v 9⟩ ⟨.mov, .b32, .rne, 13, .v 14⟩] : List Instr), i.wf = false := by decide
theorem test_wf_float : ∀ i ∈ ([
    .fadd .always .n8 .rne (.v 8) (.v 10) (.src (.v 12)), .fadd .always .f32 .rne (.v 8) (.v 10) (.lit 0x100000000),
    .fsub .always .n8 .rne (.v 8) (.v 10) (.src (.v 12)), .fsub .always .f32 .rne (.v 8) (.v 10) (.lit 0x100000000),
    .fmul .always .n8 .rne (.v 8) (.v 10) (.src (.v 12)), .fmul .always .f32 .rne (.v 8) (.v 10) (.lit 0x100000000),
    .fmin .always .f16x2 (.v 8) (.v 10) (.src (.v 12)), .fmax .always .f16x2 (.v 8) (.v 10) (.src (.v 12)),
    .fcmp .always .eq .f16x2 (.v 8) (.v 10) (.src (.v 12)), .ffma .always .n4 .rne (.v 8) (.v 10) (.src (.v 12)) (.v 14),
    .fcls .always .f16x2 (.v 8) (.v 10), .frnd .always .n8 .rne (.v 8) (.v 10), .fcvt .always .i8 .i32 .rne (.v 8) (.v 10),
    .fpk .always .f32 .rne (.v 8) (.v 10) (.src (.v 12)), .fpkN8 .always true .rne (.v 8) (.v 10) (.lit 0x100000000) (.v 14),
    .hadd2 .always .f16 .rne (.v 8) (.v 10) (.src (.v 12)), .hmul2 .always .f16 .rne (.v 8) (.v 10) (.src (.v 12)),
    .hmin2 .always .f16 (.v 8) (.v 10) (.src (.v 12)), .hmax2 .always .f16 (.v 8) (.v 10) (.src (.v 12)),
    .hfma2 .always .f16 .rne (.v 8) (.v 10) (.src (.v 12)) (.v 14), .dot4 .always .i4 .rne (.v 8) (.v 10) (.src (.v 12)) (.v 14),
    .dot4 .always .i8 .rz (.v 8) (.v 10) (.src (.v 12)) (.v 14), .dot8 .always .n8 .rne (.v 8) (.v 10) (.src (.v 12)) (.v 14),
    .dot8 .always .i4 .rd (.v 8) (.v 10) (.src (.v 12)) (.v 14), .bscl .always .rne (.v 8) (.v 10) (.lit 0x100000000) (.v 14),
    .bexp .always .f32 (.v 8) (.v 10), .mexp .always .s32 (.v 8) (.v 10) (.src (.v 12)),
    .cmpr .always .s32 (.v 8) (.v 10) (.src (.v 12)), .expd .always .b64 (.v 9) (.v 10) (.src (.v 12)),
    .lxch .always .at .f32 (.v 8) (.v 10) (.src (.v 12)), .vote .always .ballot (.v 9) (.v 10),
    .scan .always .add true .i8 (.v 8) (.v 10), .matchL .always true .s32 (.v 8) (.v 10), .matchL .always true .b32 (.v 9) (.v 10),
    .cxch .always .b64 (.v 8) (.v 10) (.src (.v 12)), .spk24 .always .i4 (.v 8) (.v 10), .sxp24 .always .n4 (.v 8) (.v 10),
    .ffs .always .s32 (.v 8) (.v 10) (.src (.v 12))] : List Instr), i.wf = false := by decide
theorem test_wf_memory : ∀ i ∈ ([
    .ld .always .b64 9 (.v 10) (.imm 0), .ld .always .b32 9 (.v 11) (.imm 0), .st .always .s8 (.v 10) (.imm 0) (.v 4),
    .st .always .s16 (.v 10) (.imm 0) (.v 4), .st .always .b32 (.v 11) (.imm 0) (.v 4), .st .always .b64 (.v 10) (.imm 0) (.v 5),
    .lds .always .b64 9 (.v 10) (.imm 0), .lds .always .b32 8 (.v 10) (.lit 0x100000000), .sts .always .s8 (.v 10) (.imm 0) (.v 4),
    .sts .always .s16 (.v 10) (.imm 0) (.v 4), .sts .always .b32 (.v 10) (.lit 0x100000000) (.v 4),
    .sts .always .b64 (.v 10) (.imm 0) (.v 5), .ldAcq .always .dev .b64 9 (.v 10) (.imm 0), .ldAcq .always .dev .b32 9 (.v 11) (.imm 0),
    .stRel .always .dev .s8 (.v 10) (.imm 0) (.v 4), .stRel .always .dev .b64 (.v 10) (.imm 0) (.v 5),
    .atom .always .add false .dev true 9 (.v 10) (.src (.v 12)), .atom .always .add false .dev false 8 (.v 11) (.src (.v 12)),
    .atom .always .add false .dev true 8 (.v 10) (.src (.v 13)), .atom .always .cas false .dev false 8 (.v 10) (.src (.v 255)),
    .atom .always .cas false .dev true 8 (.v 10) (.src (.v 254)), .atom .always .cas false .dev false 8 (.v 10) (.src (.imm 1)),
    .atomBnd .always .dev true 9 (.v 10) (.src (.v 12)), .atomTopk .always true 0 .dev 8 (.v 11) 12,
    .atomTopk .always true 0 .dev 8 (.v 10) 255, .red .always .xchg false .dev false (.v 10) (.src (.v 12)),
    .red .always .cas false .dev false (.v 10) (.src (.v 12)), .red .always .add false .dev true (.v 10) (.src (.v 13)),
    .pfL1 .always (.v 11) (.imm 0), .pfL2 .always (.v 11) (.imm 0)] : List Instr), i.wf = false := by decide
theorem test_wf_engines : ∀ i ∈ ([
    .cpGo .always 8 (.v 11), .shfOpen .always 8 (.v 11) (.src (.v 12)), .shfSide .always 8 (.v 11) (.src (.v 12)) (.v 13),
    .shfDrop .always 8 (.v 11) (.lit 0x100000000), .shfClose .always 8 (.lit 0x100000000), .arnWin .always 9 (.v 10),
    .cwb .always true (.v 11) (.src (.v 12)), .cinv .always (.v 11) (.src (.v 12)), .cdrop .always (.v 10) (.lit 0x100000000),
    .cvd .always 0 (.lit 0x100000000), .cvdMask .always 0 (.src (.v 9)), .mma .always 0 true 8 (.lit 0x100000000) (.v 10),
    .acg .always 8 (.lit 0x100000000), .acp .always (.lit 0x100000000), .acz .always (.v 10) (.lit 0x100000000),
    .acn .always (.v 10) (.lit 0x100000000), .acr .always .u32 8 (.v 10) (.src (.v 12)), .acr .always .f32 8 (.v 10) (.lit 0x100000000),
    .acw .always .u32 (.v 10) 8 (.src (.v 12)), .acrImg .always (.v 10) (.lit 0x100000000), .acwImg .always (.v 10) (.lit 0x100000000),
    .rget .always (.lit 0x100000000), .rput .always (.lit 0x100000000), .srd .always (.v 9) .cyc,
    .bfqPost .always 8 (.v 11) (.src (.v 12)), .bfqPost .always 8 (.v 10) (.lit 0x100000000),
    .bfqTake .always 8 (.v 10) (.lit 0x100000000) (.v 13)] : List Instr), i.wf = false := by decide
theorem test_wf_system : ∀ i ∈ ([
    .trap .always (.lit 0x100000000), .brk .always (.lit 0x100000000), .syr .always 9 .epc, .syw .always (.v 9) .epc,
    .syw .always (.q 1) .kvec, .tlbi .always 8 (.v 11) (.src (.v 12)) none, .tlbi .always 8 (.v 10) (.lit 0x100000000) none,
    .tlbi .always 8 (.v 10) (.src (.v 12)) (some 13), .ctxsv .always 8 (.v 11) (.imm 0), .keyld .always 8 (.v 9) (.src (.v 11)),
    .keyld .always 8 (.v 9) (.src (.imm 0)), .keyld .always 8 (.v 9) (.src .lr), .fwqPull .always 8 21, .fwqPush .always 8 21,
    .fwqAct .always 8 21 true] : List Instr), i.wf = false := by decide
theorem test_wf_record : ∀ i ∈ ([
    .move 0 ⟨false, false, 0, 1, 1, 0, 0, 0, 0, 0, 0, 0, 0⟩, .move 0 ⟨false, false, 1, 0, 1, 0, 0, 0, 0, 0, 0, 0, 0⟩,
    .move 0 ⟨false, false, 1, 1, 0, 0, 0, 0, 0, 0, 0, 0, 0⟩, .move 0 ⟨true, false, 1, 1, 1, 0, 0, 0x100000000, 0, 0, 0, 0, 0⟩,
    .move 0 ⟨false, true, 1, 1, 1, 0, 0, 0, 0x100000000, 0, 0, 0, 0⟩, .mcast 0 ⟨false, false, 0, 0, 1, 0, 0⟩,
    .mcast 0 ⟨false, false, 1, 0, 0, 0, 0⟩, .mcast 0 ⟨true, false, 1, 0, 1, 0x100000000, 0⟩, .loop 0 ⟨0, 0, 1, 0, 0⟩,
    .loop 0 ⟨0, 1, 0, 0, 0⟩, .loop 0 ⟨0, 1, 0x8000, 0, 0⟩, .conv 0 ⟨false, false, .u32, .f32, .rne, 2, 0, 0⟩,
    .conv 0 ⟨false, false, .f32, .u32, .rne, 2, 0, 0⟩, .conv 0 ⟨false, false, .f32, .f32, .rne, 0, 0, 0⟩,
    .conv 0 ⟨false, false, .n4, .f32, .rne, 3, 0, 0⟩, .conv 0 ⟨false, false, .f32, .i4, .rne, 3, 0, 0⟩,
    .conv 0 ⟨true, false, .f32, .f32, .rne, 2, 0x100000000, 0⟩, .conv 0 ⟨false, true, .f32, .f32, .rne, 2, 0, 0x100000000⟩,
    .sample 0 ⟨false, false, false, false, 512, 1, 0, 1, 0, 0, 0, 0⟩, .sample 0 ⟨false, false, false, false, 0, 0, 0, 1, 0, 0, 0, 0⟩,
    .sample 0 ⟨false, false, false, false, 511, 2, 0, 1, 0, 0, 0, 0⟩, .sample 0 ⟨false, false, false, false, 0, 1, 0, 0, 0, 0, 0, 0⟩,
    .sample 0 ⟨false, false, false, false, 0, 1, 0, 129, 0, 0, 0, 0⟩,
    .sample 0 ⟨true, true, false, false, 0, 1, 0, 1, 0, 0, 0x100000000, 0⟩,
    .sample 0 ⟨false, false, true, false, 0, 1, 0, 1, 0, 0, 0, 0x100000000⟩, .csend 0 ⟨false, 0, 0, 0, 0, 0, 0⟩,
    .csend 0 ⟨false, 0, 1, 0, 900, 0, 0⟩, .csend 0 ⟨true, 0, 1, 0x100000000, 0, 0, 0⟩, .sig 0 ⟨.add, true, .dev, 0, 0⟩,
    .sig 0 ⟨.store, true, .dev, 0x100000000, 0⟩] : List Instr), i.wf = false := by decide
theorem test_wf_packet : ∀ i ∈ ([
    
    .launch 256 ⟨false, false, false, 0, false, false, 1, 0, 0, 1, 0, 0, 0, 0, 0, 1, ⟨0, 0⟩, ⟨0, 0⟩, ⟨0, 0⟩, ⟨0, 0⟩, 0, 1, 1, 1, 0, 0, 0, 0, 0, 0⟩,
    .launch 0 ⟨false, false, false, 0, false, false, 0, 0, 0, 1, 0, 0, 0, 0, 0, 1, ⟨0, 0⟩, ⟨0, 0⟩, ⟨0, 0⟩, ⟨0, 0⟩, 0, 1, 1, 1, 0, 0, 0, 0, 0, 0⟩,
    .launch 0 ⟨false, false, false, 0, false, false, 381, 0, 0, 1, 0, 0, 0, 0, 0, 1, ⟨0, 0⟩, ⟨0, 0⟩, ⟨0, 0⟩, ⟨0, 0⟩, 0, 1, 1, 1, 0, 0, 0, 0, 0, 0⟩,
    .launch 0 ⟨false, true, false, 0, false, false, 191, 0, 0, 1, 0, 0, 0, 0, 0, 1, ⟨0, 0⟩, ⟨0, 0⟩, ⟨0, 0⟩, ⟨0, 0⟩, 0, 1, 1, 1, 0, 0, 0, 0, 0, 0⟩,
    .launch 0 ⟨false, false, false, 0, false, false, 1, 3, 0, 1, 0, 0, 0, 0, 0, 1, ⟨0, 0⟩, ⟨0, 0⟩, ⟨0, 0⟩, ⟨0, 0⟩, 0, 1, 1, 1, 0, 0, 0, 0, 0, 0⟩,
    .launch 0 ⟨false, false, false, 0, false, false, 1, 0, 0, 0, 0, 0, 0, 0, 0, 1, ⟨0, 0⟩, ⟨0, 0⟩, ⟨0, 0⟩, ⟨0, 0⟩, 0, 1, 1, 1, 0, 0, 0, 0, 0, 0⟩,
    .launch 0 ⟨false, false, false, 0, false, false, 1, 0, 0, 17, 0, 0, 0, 0, 0, 1, ⟨0, 0⟩, ⟨0, 0⟩, ⟨0, 0⟩, ⟨0, 0⟩, 0, 1, 1, 1, 0, 0, 0, 0, 0, 0⟩,
    .launch 0 ⟨false, false, false, 0, false, false, 1, 0, 0, 1, 5, 0, 0, 0, 0, 1, ⟨0, 0⟩, ⟨0, 0⟩, ⟨0, 0⟩, ⟨0, 0⟩, 0, 1, 1, 1, 0, 0, 0, 0, 0, 0⟩,
    .launch 0 ⟨false, false, false, 0, false, false, 1, 0, 0, 1, 0, 17, 0, 0, 0, 1, ⟨0, 0⟩, ⟨0, 0⟩, ⟨0, 0⟩, ⟨0, 0⟩, 0, 1, 1, 1, 0, 0, 0, 0, 0, 0⟩,
    .launch 0 ⟨false, true, false, 0, false, false, 1, 0, 0, 1, 0, 33, 0, 0, 0, 1, ⟨0, 0⟩, ⟨0, 0⟩, ⟨0, 0⟩, ⟨0, 0⟩, 0, 1, 1, 1, 0, 0, 0, 0, 0, 0⟩,
    .launch 0 ⟨false, false, false, 0, false, false, 1, 0, 0, 1, 0, 0, 4, 0, 0, 1, ⟨0, 0⟩, ⟨0, 0⟩, ⟨0, 0⟩, ⟨0, 0⟩, 0, 1, 1, 1, 0, 0, 0, 0, 0, 0⟩,
    .launch 0 ⟨false, false, false, 0, false, false, 1, 0, 0, 1, 0, 0, 0x200000000000000, 0, 0, 1, ⟨0, 0⟩, ⟨0, 0⟩, ⟨0, 0⟩, ⟨0, 0⟩, 0, 1, 1, 1, 0, 0, 0, 0, 0, 0⟩,
    .launch 0 ⟨false, false, false, 0, false, false, 1, 0, 0, 1, 0, 0, 0, 32, 0, 1, ⟨0, 0⟩, ⟨0, 0⟩, ⟨0, 0⟩, ⟨0, 0⟩, 0, 1, 1, 1, 0, 0, 0, 0, 0, 0⟩,
    .launch 0 ⟨false, false, false, 0, false, false, 1, 0, 0, 1, 0, 0, 0, 0, 0, 0, ⟨0, 0⟩, ⟨0, 0⟩, ⟨0, 0⟩, ⟨0, 0⟩, 0, 1, 1, 1, 0, 0, 0, 0, 0, 0⟩,
    .launch 0 ⟨false, false, false, 0, false, false, 1, 0, 0, 1, 0, 0, 0, 0, 0, 1, ⟨257, 0⟩, ⟨0, 0⟩, ⟨0, 0⟩, ⟨0, 0⟩, 0, 1, 1, 1, 0, 0, 0, 0, 0, 0⟩,
    .launch 0 ⟨false, false, false, 0, false, false, 1, 0, 0, 1, 0, 0, 0, 0, 0, 1, ⟨0, 0⟩, ⟨257, 0⟩, ⟨0, 0⟩, ⟨0, 0⟩, 0, 1, 1, 1, 0, 0, 0, 0, 0, 0⟩,
    .launch 0 ⟨false, false, false, 0, false, false, 1, 0, 0, 1, 0, 0, 0, 0, 0, 1, ⟨0, 0⟩, ⟨0, 0⟩, ⟨257, 0⟩, ⟨0, 0⟩, 0, 1, 1, 1, 0, 0, 0, 0, 0, 0⟩,
    .launch 0 ⟨false, false, false, 0, false, false, 1, 0, 0, 1, 0, 0, 0, 0, 0, 1, ⟨0, 0⟩, ⟨0, 0⟩, ⟨0, 0⟩, ⟨257, 0⟩, 0, 1, 1, 1, 0, 0, 0, 0, 0, 0⟩,
    .launch 0 ⟨false, false, false, 0, false, false, 1, 0, 0, 1, 0, 0, 0, 0, 0, 1, ⟨0, 0⟩, ⟨0, 0⟩, ⟨0, 0⟩, ⟨0, 0⟩, 0, 1, 1, 1, 3, 0, 0, 0, 0, 0⟩,
    .launch 0 ⟨false, false, false, 0, false, true, 1, 0, 0, 1, 0, 0, 0, 0, 0, 1, ⟨0, 0⟩, ⟨0, 0⟩, ⟨0, 0⟩, ⟨0, 0⟩, 0, 1, 2, 1, 0, 0, 0, 0, 0, 0⟩,
    .launch 0 ⟨false, false, false, 0, false, true, 1, 0, 0, 1, 0, 0, 0, 0, 0, 1, ⟨0, 0⟩, ⟨0, 0⟩, ⟨0, 0⟩, ⟨0, 0⟩, 0, 1, 1, 2, 0, 0, 0, 0, 0, 0⟩,
    .launch 0 ⟨false, false, false, 0, false, false, 1, 0, 0, 1, 0, 0, 0, 0, 0, 1, ⟨0, 0⟩, ⟨0, 0⟩, ⟨0, 0⟩, ⟨0, 0⟩, 0, 0, 1, 1, 0, 0, 0, 0, 0, 0⟩,
    .launch 0 ⟨false, false, false, 0, false, false, 1, 0, 0, 1, 0, 0, 0, 0, 0, 1, ⟨0, 0⟩, ⟨0, 0⟩, ⟨0, 0⟩, ⟨0, 0⟩, 0, 0x1000001, 1, 1, 0, 0, 0, 0, 0, 0⟩,
    .launch 0 ⟨false, false, false, 0, false, false, 1, 0, 0, 1, 0, 0, 0, 0, 0, 1, ⟨0, 0⟩, ⟨0, 0⟩, ⟨0, 0⟩, ⟨0, 0⟩, 0, 1, 0, 1, 0, 0, 0, 0, 0, 0⟩,
    .launch 0 ⟨false, false, false, 0, false, false, 1, 0, 0, 1, 0, 0, 0, 0, 0, 1, ⟨0, 0⟩, ⟨0, 0⟩, ⟨0, 0⟩, ⟨0, 0⟩, 0, 1, 0x1000001, 1, 0, 0, 0, 0, 0, 0⟩,
    .launch 0 ⟨false, false, false, 0, false, false, 1, 0, 0, 1, 0, 0, 0, 0, 0, 1, ⟨0, 0⟩, ⟨0, 0⟩, ⟨0, 0⟩, ⟨0, 0⟩, 0, 1, 1, 0, 0, 0, 0, 0, 0, 0⟩,
    .wait 256 0 0, .wait 0 2 0, .signal 256 true 0 0, .signal 0 true 2 0, .pred 256 true 0 0 0 0, .pred 0 true 128 0 0 0,
    .pred 0 true 0 128 0 0, .pred 0 true 0 0 2 0] : List Instr), i.wf = false := by decide

/-! ### A small state -/

/-- A thread at 0x1000 with claim 16 and the registers given. -/
def thread (regs : Sparse Word) : Thread := { Thread.blank with exited := false, claim := 16, pc := 0x1000, regs := regs }

/-- A group of the given threads on core 1 at a level. -/
def group (lv : Level) (ts : List Thread) : Group := { Group.blank with lanes := ts, level := lv, blocks := 16 }

/-- A resident team of node 0 on core 1 with one group, a scratchpad of 256 KiB, 16 barriers and 16 notify words. -/
def team (g : Group) : Team :=
  { Team.blank with place := .resident, cores := [1], width := 16, groups := [g], scr := 1, bars := List.replicate 16 ⟨0, 0, 0⟩,
                    notify := List.replicate 16 0 }

/-- A machine with that team. -/
def machine (lv : Level) (ts : List Thread) : State := { State.reset with teams := [team (group lv ts)] }

/-- The run of the given lanes at 0x1000, of an 8-byte word. -/
def run (ls : List Nat) : Cur := ⟨0, 0, ls, 0x1000, 8, 0⟩

/-- The machine as it issues that run. -/
def issuing (lv : Level) (ts : List Thread) (ls : List Nat) : State := (machine lv ts).withCur (run ls)

/-- A word without a guard issues in it, whatever registers it names. -/
theorem ready_one (lv : Level) (p : Priv) (regs : Sparse Word) (rs : List Nat) (hp : p.allows lv = true) (h : ∀ r ∈ rs, r < 256) :
    Issues (issuing lv [thread regs] [0]) (run [0]) p .always rs rs := by
  refine ⟨rfl, hp, rfl, ?_, ?_⟩
  · have : (guardRegs .always ++ rs).filter (fun r => (activeLanes (issuing lv [thread regs] [0]) (run [0]) .always).any fun l =>
        decide (16 * ((issuing lv [thread regs] [0]).thread 0 0 l).claim ≤ r)) = [] := by
      rw [List.filter_eq_nil_iff]
      intro r hr
      have hl : activeLanes (issuing lv [thread regs] [0]) (run [0]) .always = [0] := rfl
      rw [hl]
      have := h r (by simpa [guardRegs] using hr)
      have hc : ((issuing lv [thread regs] [0]).thread 0 0 0).claim = 16 := rfl
      simp [hc]; omega
    show minBy id _ = none
    erw [this]; rfl
  · rw [pendingLanes, List.filter_eq_nil_iff]
    intro l hl
    have e : activeLanes (issuing lv [thread regs] [0]) (run [0]) .always = [0] := rfl
    rw [e, List.mem_singleton] at hl
    subst hl
    have hp : ((issuing lv [thread regs] [0]).thread 0 0 0).pend = [] := rfl
    simp [Thread.isPending, run, hp]

/-- `Ready` and `Here` of every statement about words that issue, at any level, whatever registers the word names: the whole hypothesis of
`IntegerArithmeticResults`, `LogicShiftAndCountResults`, `FieldSelectionAndAddressResults`, `FloatArithmeticResults`, `FloatOrderAndConversionResults`,
`SpecialFunctionResults`, `PairWordResults`, `NarrowDotAndScaleResults` and `SparsePairAndBitSearchResults` on the state. -/
theorem test_witness_ready (lv : Level) (regs : Sparse Word) (rs : List Nat) (h : ∀ r ∈ rs, r < 256) :
    Ready (issuing lv [thread regs] [0]) (run [0]) .always rs ∧ Here (issuing lv [thread regs] [0]) (run [0]) ∧
    activeLanes (issuing lv [thread regs] [0]) (run [0]) .always = [0] :=
  ⟨ready_one lv .all regs rs rfl h, by intro l hl; simp [run] at hl; subst hl; exact Nat.zero_lt_one, rfl⟩

/-- A guarded word issues too: lane 0 is active under its guard, lane 1 is not. -/
theorem test_witness_guarded :
    let s := issuing .u [thread [(2, 1)], thread []] [0, 1]
    Ready s (run [0, 1]) (.when false 2) [8, 255] ∧ activeLanes s (run [0, 1]) (.when false 2) = [0] :=
  ⟨⟨rfl, rfl, rfl, rfl, rfl⟩, rfl⟩

/-- A node of one team. -/
def packet : LaunchPkt :=
  { after := false, pair := false, inv := false, prio := 0, hash := false, list := false, nteam := 1, gw := 0, ngrp := 0, regs := 16, scr := 1,
    acc := 0, entry := 0x1000, args := 0, capf := 0, nexp := 1, areq0 := ⟨0, 0⟩, areq1 := ⟨0, 0⟩, areq2 := ⟨0, 0⟩, areq3 := ⟨0, 0⟩, isrc := 0,
    nx := 1, ny := 1, nz := 1, cls := 0, lsrc := 0, lbl := 0, sx := 0, sy := 0, sz := 0 }

/-- The node of that packet, running. -/
def node : Node :=
  { q := 0, pkt := 0, p := packet, st := .running, asid := 0, key := 0, fn := 0, ptroot := 0, arenas := [], produced := 0, robin := 0,
    srcDone := false, blocked := none, deathStep := 0, terminated := false }

/-- A translation of one page for core 1. -/
def page (va pa : Nat) : TlbEntry :=
  { die := 0, core := some 1, asid := 0, va := va, size := 65536, pa := pa, r := true, w := true, x := true, u := true, rd := false, key := 0,
    comp := 0, dirtySet := true, slot := 0, gen := 0 }

/-- The issuing machine with its node and a page at 0x10000. -/
def mapped (lv : Level) (ts : List Thread) (ls : List Nat) : State :=
  { issuing lv ts ls with nodes := [node], tlb := [page 0x10000 0x30000] }


/-- A chain of lane 0 at the head of the queue of core 1, at record `now`. -/
def chain (st : ChainSt) (now : Option Instr) : Chain :=
  { id := 3, core := 1, ti := 0, gi := 0, lane := 0, tok := 9, level := .u, st := st, recOff := 64, now := now, status := 0, count := 0, sb := 0, db := 0,
    act := [false, false, false, false], lc := [0, 0, 0, 0], p0 := 0, p1 := 0, p2 := 0, dests := [], waits := [], endSeen := false,
    sent := 0, img := 0 }

/-- The machine with that chain; its token register is pending. -/
def chained (k : Chain) : State :=
  { mapped .u [{ thread [(10, 0x40)] with pend := [⟨9, 3, 0⟩] }] [0] with chains := [k] }

/-- The conditions of `Issues` as a conjunction that can be decided. -/
theorem issues_iff (s : State) (c : Cur) (p : Priv) (g : Guard) (names uses : List Nat) :
    Issues s c p g names uses ↔ s.cur = some c ∧ p.allows (s.group c.ti c.gi).level = true ∧ pendingLanes s c c.lanes (guardRegs g) = [] ∧
      claimFail s c (activeLanes s c g) (guardRegs g ++ names) = none ∧ pendingLanes s c (activeLanes s c g) uses = [] :=
  ⟨fun ⟨a, b, c, d, e⟩ => ⟨a, b, c, d, e⟩, fun ⟨a, b, c, d, e⟩ => ⟨a, b, c, d, e⟩⟩

/-- A parked fault of number 4. -/
def parked : FaultRec := ⟨4, 0, 5, 0, 0, 0x10000, 1, 0, 1, 0, true, false, false, 0, true, false, some 0, none⟩

/-- A machine at K with a second team of node 1, a context pool of 4 slots and one saved team in slot 2. -/
def pooled : State :=
  let s := issuing .k [thread []] [0]
  let t := team (group .u [thread []])
  { s with nodes := [node, { node with pkt := 1 }, { node with pkt := 2 }], module := { s.module with poolCount := 4, poolBase := 0x800000 },
           teams := s.teams ++ [{ t with node := 1, cores := [2] }, { t with node := 2, place := .saved 2 }],
           slots := [⟨2, 0x1800000, 2, true, 0, false, 0, none⟩], faults := [parked] }

/-- An arena of node 0: generation 3 of slot 1 of die 0, two frames. -/
def arena : Arena := ⟨0, 1, 3, true, 0, 0, 0, [4, 5]⟩

/-! ### The operands that the integer and float statements distinguish -/

/-- Divisors and dividends of `WideArithmeticResults`: zero, the overflowing quotient, an ordinary pair. -/
theorem test_witness_division :
    let v (t : Thread) (n : RegIx) : Int := valW true 32 (operand t 32 (.v n))
    v (thread [(8, 7)]) 9 = 0 ∧ (v (thread [(8, 0x80000000), (9, 0xFFFFFFFF)]) 8 = -2 ^ 31 ∧ v (thread [(8, 0x80000000), (9, 0xFFFFFFFF)]) 9 = -1) ∧
    v (thread [(8, 0xFFFFFFF9), (9, 2)]) 8 = -7 ∧ v (thread [(8, 0xFFFFFFF9), (9, 2)]) 9 = 2 := by decide

/-- `LogicShiftAndCountResults`, `FieldSelectionAndAddressResults`: shift counts on both sides of the width, fields that lie within and beyond it. -/
theorem test_witness_counts :
    let n (x : Word) : Nat := (srcB32 (thread [(9, x)]) (.src (.v 9))).toNat % 256
    n 31 = 31 ∧ n 32 = 32 ∧ n 0x1FF = 255 ∧ n 0x100 = 0 := by decide

/-- `FloatArithmeticResults`, `FloatOrderAndConversionResults`: the float patterns that the cases of R226 to R230 and R237 to R239 name. -/
theorem test_witness_float_cases :
    ffF32.decode 0x7FC00000 = .nan ∧ ffF32.decode 0x7F800000 = .inf false ∧ ffF32.decode 0xFF800000 = .inf true ∧
    ffF32.decode 0 = .zero false ∧ ffF32.decode 0x80000000 = .zero true ∧ (ffF32.decode 0x3F800000).isFin = true ∧
    (∃ m e, ffF32.decode 0x3F800000 = .fin m e ∧ 0 < m) ∧ (∃ m e, ffF32.decode 0xBF800000 = .fin m e ∧ m < 0) ∧
    (∃ m e, ffF32.decode 1 = .fin m e) :=
  ⟨by decide, by decide, by decide, by decide, by decide, by decide, ⟨_, _, rfl, by decide⟩, ⟨_, _, rfl, by decide⟩, ⟨_, _, rfl⟩⟩

/-- Values one below another, in either order, and formats that the float statements range over. -/
theorem test_witness_float_order :
    (Machine.Num.inf true).lt (.zero false) ∧ (Machine.Num.zero true).lt (.inf false) ∧ Fmt.packed .f32 = false ∧ Fmt.scalar .bf16 = true ∧
    Fmt.packed .n8 = false ∧ Fmt.scalar .n8 = false :=
  ⟨nofun, trivial, rfl, rfl, rfl, rfl⟩

/-- Two finite numbers whose sum, and whose difference, is an exact zero. -/
theorem test_witness_exact_zero :
    (∃ m e m' e', ffF32.decode 0x3F800000 = .fin m e ∧ ffF32.decode 0xBF800000 = .fin m' e' ∧ e = e' ∧ m + m' = 0) :=
  ⟨_, _, _, _, rfl, rfl, by decide, by decide⟩

/-- `SpecialFunctionResults`: sources of the special functions: NaN, and a negative number. -/
theorem test_witness_special : ffF32.decode (0x7F800001 : Word).toNat = .nan ∧ ∃ m e, ffF32.decode (0xBF800000 : Word).toNat = .fin m e ∧ m < 0 :=
  ⟨by decide, _, _, rfl, by decide⟩

/-- `PairWordResults`: slots that decode admits, of a binary and of a unary operation. -/
theorem test_witness_slots :
    Slot.ok ⟨.fmul, .f32, .rz, 48, .q 2⟩ = true ∧ Slot.ok ⟨.mov, .b32, .rne, 13, .imm 0⟩ = true ∧ Slot.ok ⟨.cvtF16F32, .fixed, .rd, 13, .v 1⟩ = true := by
  decide

/-- `NarrowDotAndScaleResults`: dot-product elements: a NaN among N8 elements, none among numbers; accumulators that are NaN, infinite and finite; narrow types. -/
theorem test_witness_dot :
    (∃ i, i < 4 ∧ decodeElem .n8 (0x80 / 2 ^ (8 * i) % 2 ^ 8) = .nan) ∧
    (∀ i, i < 4 → decodeElem .n8 (0x40404040 / 2 ^ (8 * i) % 2 ^ 8) ≠ .nan) ∧
    NTy.narrow .i8 = true ∧ NTy.narrow .n8 = true ∧ NTy.narrow .i4 = true ∧ NTy.narrow .n4 = true :=
  ⟨⟨0, by decide, by decide⟩, by decide, rfl, rfl, rfl, rfl⟩

/-- `SparsePairAndBitSearchResults`: the n-th set bit exists for n = 1 of 0b101, and does not for n = 2. -/
theorem test_witness_set_bits :
    let ones (x : DWord) (i : ℕ) : ℕ := ((List.range i).filter fun j => x.getLsbD j).length
    ((5 : DWord).getLsbD 2 = true ∧ ones 5 2 = 1) ∧ ones 5 32 ≤ 2 := by decide

/-- `CrossLaneResults`: a run that holds every thread of its group. -/
theorem test_witness_gathered :
    let s := issuing .u [thread [], thread []] [0, 1]
    Ready s (run [0, 1]) .always [8, 9] ∧ ∀ l ∈ gatherSet s (run [0, 1]), l ∈ (run [0, 1]).lanes :=
  ⟨⟨rfl, rfl, rfl, rfl, rfl⟩, by decide⟩

/-- `GatheredWordsWait`: a run that does not. -/
theorem test_witness_gathering :
    let s := issuing .u [thread [], thread []] [0]
    s.cur = some (run [0]) ∧ 1 ∈ gatherSet s (run [0]) ∧ 1 ∉ (run [0]).lanes := by decide

/-- `RoundingModes`: a positive divisor; 5 ÷ 2 is a tie, which goes to even, or up. -/
theorem test_witness_rounding : 0 < 2 ∧ roundUnit .rne false 5 2 0 0 = 2 ∧ roundUnit .ru false 5 2 0 0 = 3 := by decide

/-- The same: a value between two of a format, the largest finite one, one on the bound of rne, one below it, and a tie to an integer. -/
theorem test_witness_overflow :
    let at' (m e : ℤ) : ℚ := m * (2 : ℚ) ^ e
    (at' 13 (-3) < 6 ∧ |at' 65504 0| ≤ 65504) ∧ (65504 < |at' 65520 0| ∧ (65504 : ℚ) + 32 / 2 ≤ |at' 65520 0|) ∧
    (65504 < |at' 65519 0| ∧ ¬(65504 : ℚ) + 32 / 2 ≤ |at' 65519 0|) ∧ roundedBy .rne false (|((5 : ℤ) : ℚ)| * (2 : ℚ) ^ (-1 : ℤ)) 2 := by
  norm_num [roundedBy, abs_of_pos]

/-! ### Control flow, barriers, naps and items -/

/-- `BranchYieldAndExitResults`: an aligned target, a misaligned one in the lowest lane, and an exit that waits for nothing. -/
theorem test_witness_branches :
    let s := issuing .u [thread [(8, 0x2000)], thread [(8, 0x2004)]] [0, 1]
    (operand (s.thread 0 0 0) 64 (.v 8)).toNat % 8 = 0 ∧
    (activeLanes s (run [0, 1]) .always = [0] ++ 1 :: [] ∧ (operand (s.thread 0 0 1) 64 (.v 8)).toNat % 8 ≠ 0) ∧
    retireWaits s (run [0, 1]) (activeLanes s (run [0, 1]) .always) = [] ∧ (s.team 0).reqs = [] ∧ 0 < (s.group 0 0).lanes.length := by decide

/-- `BarrierResults`: arrivals below, at and beyond a count; counts 1 and 4095, and 0 and 4096, which do not fit; waits on both sides. -/
theorem test_witness_barriers :
    let s (x : Word) := issuing .u [thread [(8, x)]] [0]
    let n (x : Word) : ℕ := (srcB32 ((s x).thread 0 0 0) (.src (.v 8))).toNat
    (n 1 = 1 ∧ n 4095 = 4095 ∧ n 0 = 0 ∧ n 4096 = 4096) ∧ (((s 1).team 0).bar 15).count = 0 ∧
    (s 1).releaseOk 0 0 0 .team (s 1).nextId = true ∧ (1 : ℕ) + 1 < 4095 ∧ ¬(0 + 1 < 1) ∧
    ({ thread [] with hold := .barrier 0 0 } : Thread).hold = .barrier 0 0 ∧ (0 < 1 ∧ ¬(0 < 0)) := by decide

/-- `NapAndWakeResults`: an empty word and a waiting one, a limit that has passed, an open kettle, an idle die. -/
theorem test_witness_naps :
    let s := issuing .u [thread []] [0]
    let nap := s.modThread 0 0 0 fun t => { t with hold := .nap 3 8 (some 0) }
    ((s.team 0).notify.getD 3 0 = 0 ∧ ((s.modTeam 0 fun t => { t with notify := t.notify.set 3 5 }).team 0).notify.getD 3 0 ≠ 0) ∧
    ((nap.thread 0 0 0).hold = .nap 3 8 (some 0) ∧ 0 ≤ nap.cycOf 0 0 ∧ (nap.team 0).place = .resident) := by decide

/-- The same: wakes that are sent, gating and ungating; a die whose entry is empty and one where a wake waits. -/
theorem test_witness_wakes :
    let s := { issuing .u [thread [(9, 7)]] [0] with nodes := [node] }
    let idle := s.modDie 0 fun d => { d with idle := 16384 }
    let held := s.modDie 0 fun d => { d with gated := true, kettle := [⟨0, 3, 7⟩] }
    let waiting := s.modTeam 0 fun t => { t with place := .waiting }
    (s.gridTeam 0 0 = some 0 ∧ s.kettleFull ⟨0, 3, 7⟩ = false ∧ s.releaseOk 0 0 0 .dev s.nextId = true) ∧
    16384 ≤ (idle.die 0).idle ∧ (held.die 0).kettle ≠ [] ∧ (s.team 0).place = .resident ∧ (s.die (s.wakeDie 0)).entry = [] ∧
    ((s.modDie 0 fun d => { d with entry := [⟨0, 3, 7⟩] }).die 0).entry ≠ [] ∧ ((waiting.team 0).place = .waiting ∧ 0 < waiting.teams.length) := by decide

/-- A kettle that is full. -/
theorem test_witness_kettle_full (n : ℕ) (h : 4096 ≤ n) :
    let s := (issuing .u [thread []] [0]).modDie 0 fun d => { d with gated := true, kettle := List.replicate n ⟨0, 3, 7⟩ }
    s.kettleFull ⟨0, 4, 7⟩ = true := by
  intro s
  have hw : s.wakeDie 0 = 0 := show dieOfCore 1 = 0 by decide
  have hk : (s.die 0).kettle = List.replicate n ⟨0, 3, 7⟩ := rfl
  have hg : (s.die 0).gated = true := rfl
  have hp : (s.team 0).place = .resident := rfl
  simp [State.kettleFull, hw, hk, hg, hp, Config.kettleEntries, h]

/-- `ItemRequestResults`: no store to wait for, a gathered run, a relabel that is refused by class, by label and by item, one that is not. -/
theorem test_witness_items :
    let it : HeldItem := ⟨5, 7, 1, 0, none⟩
    let s := { issuing .u [{ thread [(8, 9)] with item := some it }] [0] with nodes := [node] }
    retireWaits s (run [0]) [0] = [] ∧ (∀ l ∈ gatherSet s (run [0]), l ∈ (run [0]).lanes) ∧ (s.thread 0 0 0).item = some it ∧
    (it.tg = none ∧ ¬(it.label = 9 ∧ it.cls = 1)) ∧ (it.label = 7 ∧ it.cls = 1) ∧ ¬(0xFFFFFF < 0xFFFFFF) ∧ 0xFFFFFF < 0x1000000 := by decide

/-- The second step of a relabel: an unordered item, and an ordered flow whose entry stands at its home team. -/
theorem test_witness_joins :
    let it : HeldItem := ⟨5, 7, 1, 0, none⟩
    let e : FlowEntry := ⟨9, 2, 4, [], none, [], none⟩
    let s := { issuing .u [{ thread [] with item := some it, hold := .joining 9 2 }] [0] with nodes := [node] }.modTeam 0
      fun t => { t with flows := [e] }
    (s.thread 0 0 0).item = some it ∧ 0 < (s.group 0 0).lanes.length ∧ s.homeTeam 0 9 = some 0 ∧ (s.team 0).place = .resident ∧
    (s.team 0).flow 9 2 = some e ∧ (s.team 0).flowUse < Config.flowEntries ∧ e.unret.length < 2 ^ 31 := by decide

/-- `ItemEnqueueResults`: the three refusals, an item that finds its place, a flow's home that is there. -/
theorem test_witness_enqueue :
    let s := { issuing .u [{ thread [] with item := some ⟨5, 7, 1, 0, none⟩ }] [0] with nodes := [node] }
    (3 : BitVec 2) = 3 ∧ 0xFFFFFF < 0x1000000 ∧ (thread []).item = none ∧ s.releaseOk 0 0 0 .dev s.nextId = true ∧
    (s.route 0 0 6 9 0).isSome = true ∧ s.homeTeam 0 9 = some 0 ∧ (s.team 0).place = .resident := by decide

/-- `OrderedStoreResults`: a thread without item; an oldest item and one that is not, whose stores pass the checks and go, held or released. -/
theorem test_witness_ordered_stores :
    let it (n : ℕ) : HeldItem := ⟨5, 9, 1, n, none⟩
    let e : FlowEntry := ⟨9, 1, 5, [3, 4], none, [], none⟩
    let s := (mapped .u [{ thread [(8, 0x10000)] with item := some (it 3) }, { thread [(8, 0x10004)] with item := some (it 4) }] [0, 1]).modTeam 0
      fun t => { t with flows := [e] }
    let las := laneAddrs s (run [0, 1]) [0, 1] fun t => ea t (.v 8) (.imm 0)
    let item (l : ℕ) : HeldItem := (s.thread 0 0 l).item.getD ⟨0, 0, 0, 0, none⟩
    (∃ ps s', memChecks s (s.acx 0 0) .store 4 las = .pass ps s' ∧ (ps.filter fun p => (item p.1).cls != 1) = [] ∧
      ordIssues s (run [0, 1]) 4 (logNeed s (run [0, 1]) []) item (ps.filter fun p => (item p.1).cls == 1) = [0, 1] ∧
      s.steepUsed (s.coreOf 0 0) + (ps.filter fun p => (item p.1).cls == 1).length ≤ Config.steepEntries) ∧
    storeWaits s (run [0, 1]) 4 (logNeed s (run [0, 1]) []) [] = [] ∧ (s.group 0 0).stores < 63 ∧
    s.logUsed (s.coreOf 0 0) + 0 + 2 ≤ Config.logEntries ∧ s.isOldest 0 9 3 = true ∧ s.isOldest 0 9 4 = false ∧
    (s.releaseOk 0 0 0 .dev s.nextId = true ∧ s.acqOpen 0 0 0 = false ∧ s.heldOver 0 0 1 0x10004 (some 0x30004) 4 (some (9, 1)) = false ∧
      s.heldOver 0 0 0 0x10000 (some 0x30000) 4 none = false ∧ s.ordBehind 0 0 0 = false) ∧ (thread []).item = none :=
  ⟨⟨_, _, rfl, by decide, by decide, by decide⟩, by decide, by decide, by decide, by decide, by decide, by decide, rfl⟩

/-! ### Memory -/

/-- `LoadsAndStoresIssue`: checks that pass for loads, atomics and stores, on a page that is there and on one that is missing, and nothing
that holds the lanes back. -/
theorem test_witness_accesses :
    let s := mapped .u [thread [(8, 0x10000)], thread [(8, 0x50000)]] [0, 1]
    let las := laneAddrs s (run [0, 1]) [0, 1] fun t => (operand t 64 (.v 8) + offset 64 (.imm 0)).toNat
    (∃ ps s', memChecks s (s.acx 0 0) .load 8 las = .pass ps s' ∧ (1, 0x50000, Tr.miss) ∈ ps ∧ (0, 0x10000, Tr.ok 0x30000 0 0) ∈ ps) ∧
    (∃ ps s', memChecks s (s.acx 0 0) .atom 64 las = .pass ps s') ∧
    (∃ ps s', memChecks s (s.acx 0 0) .store 8 las = .pass ps s' ∧ storeWaits s (run [0, 1]) 8 (logNeed s (run [0, 1]) ps) ps = [] ∧
      s.logOnPage (s.coreOf 0 0) (s.asidOf 0) 0x10000 = none ∧ ∀ e ∈ s'.tlb, e.dirtySet = true) ∧
    (∃ ps s', memChecks s (s.acx 0 0) .red 8 las = .pass ps s') ∧
    loadWaits s (run [0, 1]) [0, 1] = [] ∧ s.releaseOk 0 0 0 .dev s.nextId = true ∧ ¬StOp.store.isRed :=
  ⟨⟨_, _, rfl, by decide, by decide⟩, ⟨_, _, rfl⟩, ⟨_, _, rfl, by decide, by decide, by decide⟩, ⟨_, _, rfl⟩, by decide, by decide, by decide⟩

/-- An entry of the side log on the page of a store. -/
theorem test_witness_logged :
    let st : Store := ⟨0, 0, 0, 0, 1, .u, 0, none, false, .store, .grp, 4, [⟨0, 0x10004, 0, 0, 0, 0, 0, 0, 0, false, (0, 0), false, .logged 5 0⟩]⟩
    let s := { mapped .u [thread []] [0] with stores := [st] }
    s.logOnPage (s.coreOf 0 0) (s.asidOf 0) 0x10000 ≠ none := by decide

/-- `AddressChecksTrap`: lane 1 is the lowest that is misaligned, and the lowest beyond bit 56; the last aligned address below is fine. -/
theorem test_witness_bad_addresses :
    let a (t : Thread) : ℕ := (operand t 64 (.v 8)).toNat
    let s := issuing .u [thread [(8, 0x10000)], thread [(8, 0x10002)]] [0, 1]
    let u := issuing .u [thread [(8, 0xFFFFFFFC), (9, 0x1FFFFFF)], thread [(9, 0x2000000)]] [0, 1]
    (activeLanes s (run [0, 1]) .always = [0] ++ 1 :: [] ∧ a (s.thread 0 0 0) % 4 = 0 ∧ a (s.thread 0 0 1) % 4 ≠ 0) ∧
    (activeLanes u (run [0, 1]) .always = [0] ++ 1 :: [] ∧ a (u.thread 0 0 0) = 2 ^ 57 - 4 ∧ a (u.thread 0 0 1) = 2 ^ 57) := by decide

/-- `ScratchpadResults`: the last word of the carve-out, and the first one beyond it; two lanes that store to one byte. -/
theorem test_witness_scratchpad :
    let off (t : Thread) : ℕ := (loWord (operand t 32 (.v 8)) + loWord (offset 32 (.imm 0))).toNat
    let s := issuing .u [thread [(8, 0x3FFFC)], thread [(8, 0x40000)]] [0, 1]
    (off (s.thread 0 0 0) % 4 = 0 ∧ off (s.thread 0 0 0) + 4 ≤ (s.team 0).scr * 2 ^ 18 ∧ s.acqOpen 0 0 0 = false ∧ (s.group 0 0).loads < 63 ∧
      s.parkUsed (s.coreOf 0 0) < Config.parkEntries) ∧
    (s.team 0).scr * 2 ^ 18 < off (s.thread 0 0 1) + 4 ∧
    (0x3FFFC ≤ 0x3FFFF ∧ 0x3FFFF < 0x3FFFC + 4) ∧ (0x3FFFB < 0x3FFFC) := by decide

/-- `CacheControlPrefetchAndFenceResults`: a fence with nothing to wait for, and one behind a store that only memory's owner can acknowledge. -/
theorem test_witness_fences :
    let st : Store := ⟨0, 0, 0, 0, 1, .u, 0, none, false, .store, .grp, 4, [⟨0, 0x10004, 0x30004, 0, 0, 0, 0, 0, 0, false, (0, 0), false, .wait⟩]⟩
    let s := mapped .u [thread []] [0]
    s.fenceOk 0 0 .sys = true ∧ { s with stores := [st] }.fenceOk 0 0 .dev = false ∧ { s with stores := [st] }.fenceOk 0 0 .core = true ∧
    (s.thread 0 0 0).exited = false := by decide

/-- The same: a range of one line that passes its checks. -/
theorem test_witness_ranges :
    let s := mapped .u [thread [(8, 0x10080), (10, 128)]] [0]
    let rs := (laneRanges ([0].map fun l =>
      let t := s.thread 0 0 l
      (l, (operand t 64 (.v 8)).toNat, (srcB32 t (.src (.v 10))).toNat))).filter fun r => r.2.2 != 0
    (∃ ps s', rangeCheck s (s.acx 0 0) .cwrite true rs = (none, ps, s')) ∧ (∃ ps s', rangeCheck s (s.acx 0 0) .cread false rs = (none, ps, s')) ∧
    (∃ pa key gen s', s.translate (s.acx 0 0) .load 0x10080 = (.ok pa key gen, s') ∧ isDevice pa = false ∧ s'.frameLive gen pa = true) ∧
    s.acqOpen 0 0 0 = false ∧ (s.group 0 0).stores + rs.length ≤ 63 :=
  ⟨⟨_, _, rfl⟩, ⟨_, _, rfl⟩, ⟨_, _, _, _, rfl, by decide, by decide⟩, by decide, by decide⟩

/-- `LoadsAndStoresPerform`: a load and an atomic whose replies come, with nothing in their way. -/
theorem test_witness_replies :
    let p : LoadPart := ⟨0, 0x10004, 0x30004, 0, 0, 7, 0, .wait⟩
    let ld (op : LoadOp) : Load := ⟨3, 3, 0, 0, 1, .u, 0, op, 4, 0x1000, [p]⟩
    let s (op : LoadOp) := { mapped .u [thread []] [0] with loads := [ld op] }
    let ok (op : LoadOp) : Bool := (s op).placed 0 && (s op).reachesAt 3 0 0x30004 && !(s op).checkHolds 0 1536 true op.isAtomic &&
      partReady (s op) (ld op) p && (s op).frameLive 0 0x30004 && !isDevice 0x30004
    ok (.plain true) = true ∧ ok (.rmw .add true .dev) = true ∧ LoadOp.isAtomic (.plain true) = false ∧ lineOf 0x30004 = 1536 ∧
    ((s (.rmw .add true .dev)).holders 1536 = [] ∧ (s (.plain true)).invals = [] ∧ (s (.plain true)).cache = []) ∧
    (((s (.rmw .add true .dev)).homeDie 0x30004).isSome = true ∧ 0x30004 % 4 = 0 ∧ 4 ∣ 128) ∧
    (rmwStep (.rmw .add true .dev) 4 [1, 0, 0, 0] 7 0).1.length = 4 ∧ 0 < (s (.plain true)).teams.length ∧
    { s (.plain true) with cache := [⟨.l1 1, 1536, 0, 0, false, []⟩] }.heldNear 1 0 0x30004 = true ∧
    (s (.plain true)).trapWaits 0 0 .u = false := by decide

/-- `LoadsAndStoresPerform`: `State.tidy` of a machine whose caches are empty. -/
theorem test_witness_tidy : (mapped .u [thread []] [0]).tidy := by
  intro e h; exact absurd h (List.not_mem_nil)

/-- The same: a store alone on its line, and one whose line another core holds. -/
theorem test_witness_acks :
    let st : Store := ⟨3, 3, 0, 0, 1, .u, 0, none, false, .store, .grp, 4, [⟨0, 0x10004, 0x30004, 0, 0, 7, 0, 0, 0, false, (0, 0), false, .wait⟩,
      ⟨1, 0x10004, 0x30004, 0, 0, 9, 0, 0, 0, false, (0, 1), false, .wait⟩]⟩
    let s := { mapped .u [thread []] [0] with stores := [st] }
    let shared := { s with dir := [⟨1536, [2], [], [], []⟩] }
    (st.op.inL1 = true ∧ lineOf 0x30004 = 1536 ∧ lineOf (0x30004 + 4 - 1) = 1536 ∧ s.frameLive 0 0x30004 = true) ∧
    (s.reachesAt 3 0 (128 * 1536) = true ∧ isDevice (128 * 1536) = false ∧ (s.homeDie (128 * 1536)).isSome = true ∧ s.placed 0 = true ∧ s.checkHolds 0 1536 false true = false) ∧
    (∀ p ∈ st.parts, storeTurn s st p = true) ∧ s.holders 1536 = [] ∧ (∃ h ∈ shared.holders 1536, h ≠ .l1 1) ∧
    turnParts s st (ackParts st 0x30004) = st.parts := by decide

/-- The same: an ordered store that is released and enters the L1 first, and a reduction of one lane. -/
theorem test_witness_released :
    let p (x : StSt) : StPart := ⟨0, 0x10004, 0x30004, 0, 0, 7, 9, 1, 0, false, (0, 0), false, x⟩
    let st (op : StOp) (x : StSt) : Store := ⟨3, 3, 0, 0, 1, .u, 0, none, false, op, .dev, 4, [p x]⟩
    let s (op : StOp) (x : StSt) := { mapped .u [thread []] [0] with stores := [st op x] }
    turnParts (s .ord .released) (st .ord .released) (ackParts (st .ord .released) 0x30004) = [p .released] ∧
    storeTurn (s (.red .add false) .wait) (st (.red .add false) .wait) (p .wait) = true ∧
    (s (.red .add false) .wait).frameLive 0 0x30004 = true := by decide

/-! ### The copy engine -/

/-- `CopyInstructionResults`: the last offset of a carve-out and the first beyond it, one that is not a multiple of 32; room for one lane and
for no more than eight; the four states of a chain that its token register names. -/
theorem test_witness_copy_instructions :
    let s := mapped .u [thread [(10, 0x3FFE0)], thread [(10, 0x40000)], thread [(10, 0x10)]] [0, 1, 2]
    let off (l : ℕ) : ℕ := (operand (s.thread 0 0 l) 64 (.v 10)).toNat
    (off 0 % 32 = 0 ∧ off 0 < (s.team 0).scr * 2 ^ 18) ∧ (off 1 % 32 = 0 ∧ ¬off 1 < (s.team 0).scr * 2 ^ 18) ∧ off 2 % 32 ≠ 0 ∧
    s.coreAcked 0 0 0 .clu = true ∧ s.storesAcked 0 0 0 .clu s.nextId = true ∧ s.atomicsDone 0 0 0 = true ∧ (s.chainCount (s.coreOf 0 0) + 1 ≤ 8 ∧ (s.group 0 0).copies + 1 ≤ 63) ∧
    (s.laneChain (run [0]) 0 9 = none) ∧
    (∀ st ∈ [ChainSt.queued, .walking, .parked 5, .stopping], (chained (chain st none)).laneChain (run [0]) 0 9 = some (chain st none)) := by
  decide

/-- More than eight active lanes, each with a good offset. -/
theorem test_witness_many_lanes :
    let s := mapped .u (List.replicate 9 (thread [])) [0, 1, 2, 3, 4, 5, 6, 7, 8]
    8 < (activeLanes s (run [0, 1, 2, 3, 4, 5, 6, 7, 8]) .always).length ∧
    ∀ l ∈ activeLanes s (run [0, 1, 2, 3, 4, 5, 6, 7, 8]) .always, (operand (s.thread 0 0 l) 64 (.v 10)).toNat = 0 := by decide

/-- The limits of `waitc`, met and not. -/
theorem test_witness_limits : (machine .u [thread []]).group 0 0 = { (machine .u [thread []]).group 0 0 with loads := 0, copies := 0 } ∧
    ((machine .u [thread []]).modGroup 0 0 fun g => { g with copies := 1 }).group 0 0 ≠ (machine .u [thread []]).group 0 0 := by decide

/-- `ChainsEndAndStop`: a chain whose token is the one pending register, and a record that is ill-formed. -/
theorem test_witness_tokens :
    let s := chained (chain .walking none)
    (3 : ℕ) < 128 ∧ 0 < (s.group 0 0).lanes.length ∧ (∀ p ∈ (s.thread 0 0 0).pend, p.op = 3 → p = ⟨9, 3, 0⟩) ∧
    ⟨9, 3, 0⟩ ∈ (s.thread 0 0 0).pend ∧ s.acgQ = [] ∧
    s.activeChain 1 = some (chain .walking none) ∧ s.chain 3 = some (chain .walking none) ∧
    (Instr.loop 1 ⟨0, 0, 1, 0, 0⟩).wf = false := by decide

/-- `RecordsReached`: a queued chain and one at a fresh record; rows, runs and offsets that end at the carve-out and one byte beyond it;
addresses that are aligned and not; records of each kind. -/
theorem test_witness_records :
    (chained (chain .queued none)).activeChain 1 = some (chain .queued none) ∧
    (Instr.move 1 ⟨true, true, 64, 1, 1, 0, 0, 0x3FFC0, 0x3FFC0, 0, 0, 0, 0⟩).wf = true ∧ 0x3FFC0 + 64 = 1 * 2 ^ 18 ∧ ¬(0x3FFC1 + 64 ≤ 1 * 2 ^ 18) ∧
    (Instr.conv 1 ⟨true, true, .f32, .n8, .rne, 4, 0x3FFF0, 0x3FFFC⟩).wf = true ∧ elemBytes .f32 4 = 16 ∧ elemBytes .n8 4 = 4 ∧
    (0x3FFF0 % elemAlign .f32 = 0 ∧ 0x3FFF2 % elemAlign .f32 ≠ 0) ∧
    (Instr.csend 1 ⟨true, 1, 1, 0x3FC00, 2, 0, 0⟩).wf = true ∧ 0x3FC00 + 1024 * 1 = 1 * 2 ^ 18 ∧
    (Instr.sample 1 ⟨true, true, true, false, 0, 1, 3, 4, 0, 0x3F800000, 0x3FFF0, 0x3FF80⟩).wf = true ∧ 0x3FFF0 + 4 * 4 * 1 = 1 * 2 ^ 18 ∧
    (¬0 + 1 ≤ ((chained (chain .walking none)).team 0).rows.length) ∧
    (Instr.mcast 1 ⟨true, false, 2, 3, 0x40000, 0, 0⟩).wf = true ∧
    (chained (chain .walking none)).mcastTeam (chain .walking none) 1 = some (0, 0) ∧
    (chained (chain .walking none)).mcastTeam (chain .walking none) 2 = none ∧
    (Instr.loop 1 ⟨2, 2, 2, 8, 8⟩).wf = true ∧ 32 * 2 ≤ (chain .walking none).recOff ∧ (chain .walking none).recOff < 32 * 3 ∧
    (Instr.cond 1 ⟨.below, 3, 0x3FFFC, 5, 0xFF⟩).wf = true ∧ 0x3FFFC + 4 = 1 * 2 ^ 18 ∧ 0x3FFFC % 4 = 0 ∧ 0x3FFFE % 4 ≠ 0 := by decide

/-- Rows that the issuing team holds. -/
theorem test_witness_held_rows :
    let s := (chained (chain .walking none)).modTeam 0 fun t => { t with rows := [7, 8] }
    0 + 1 ≤ (s.team 0).rows.length ∧ (chain .walking none).p0 = 0 := by decide

/-- `CopyBurstsPerform`: the last burst of a MOVE within a scratchpad. -/
theorem test_witness_move_burst :
    let r : MoveRec := ⟨true, true, 64, 1, 1, 0, 0, 0x100, 0x108, 0, 0, 0, 0⟩
    let k := chain .walking (some (.move 1 r))
    let s := chained k
    s.activeChain 1 = some k ∧ s.chain 3 = some k ∧ k.p0 < r.len0.toNat ∧ k.ti < s.teams.length ∧
    (0 ≤ moveSrc r k 0 0 ∧ moveSrc r k 0 0 < 2 ^ 32 ∧ 0 ≤ moveDst r k 0 0 ∧ moveDst r k 0 0 < 2 ^ 32) ∧
    (k.p0 + min 4096 (64 - k.p0) = 64 ∧ k.p1 + 1 = r.cnt1.toNat ∧ k.p2 + 1 = r.cnt2.toNat) := by decide

/-- The same: the first of several, to an aligned place of the scratchpad and to one that is not. -/
theorem test_witness_move_bursts :
    let r (d : DWord) : MoveRec := ⟨true, true, 8192, 1, 1, 0, 0, 0x100, d, 0, 0, 0, 0⟩
    let k (d : DWord) := chain .walking (some (.move 1 (r d)))
    let n (d : DWord) : ℕ := 4096 - (((moveDst (r d) (k d) 0 0 + (k d).p0) % 2 ^ 64).toNat + 4096) % 8
    (chained (k 0x4000)).activeChain 1 = some (k 0x4000) ∧ n 0x4000 = 4096 ∧ (k 0x4000).p0 + n 0x4000 < 8192 ∧
    (chained (k 0x4003)).activeChain 1 = some (k 0x4003) ∧ n 0x4003 = 4093 ∧ (k 0x4003).p0 + n 0x4003 < 8192 := by decide

/-- The same: an MCAST of four bytes to the team on core 1. -/
theorem test_witness_mcast_burst :
    let r : McastRec := ⟨true, false, 2, 3, 4, 0x100, 0x200⟩
    let k := { chain .walking (some (.mcast 1 r)) with dests := [(0, 0)] }
    let s := chained k
    s.activeChain 1 = some k ∧ (s.team 0).place = .resident ∧ 0 < s.teams.length ∧
    ∃ ps s1 s2 data s3, s.mapRange k true false 0x100 4 = (.ok ps, s1) ∧ s1.reachRanges k (pieceLines true ps) [] = (true, s2) ∧
      s2.readPieces k true ps = (data, s3) ∧ (∀ b ∈ data, b ≠ none) ∧ ∀ p ∈ ps, p.dead = false :=
  ⟨by decide, by decide, by decide, [⟨0x100, 4, 0, 0, false⟩], _, _, [some 0, some 0, some 0, some 0], _, rfl, rfl, rfl, by simp, by simp⟩

/-- The same: a CONV within a scratchpad, and widths of at least a byte. -/
theorem test_witness_conv_burst :
    let r : ConvRec := ⟨true, true, .f32, .n8, .rne, 4, 0x100, 0x200⟩
    let k := chain .walking (some (.conv 1 r))
    let s := chained k
    (8 ≤ ewidth .f32 ∧ 8 ≤ ewidth .n8 ∧ ewidth .n4 = 4 ∧ k.ti < s.teams.length) ∧
    ∃ sps s1 dps s2 s3 m x s4, s.mapRange k true false 0x100 16 = (.ok sps, s1) ∧ s1.mapRange k true true 0x200 4 = (.ok dps, s2) ∧
      s2.reachRanges k (pieceLines true sps) (pieceLines true dps) = (true, s3) ∧
      (List.range 4).foldl (convStep k r sps dps) (0, 0, s3) = (m, x, s4) ∧ ∀ p ∈ sps ++ dps, p.dead = false :=
  ⟨by decide, _, _, _, _, _, _, _, _, rfl, rfl, rfl, rfl, by decide⟩

/-- The machine with one port of die 0 up. -/
def ported (s : State) : State := { s with ports := [{ Port.reset with up := true }] }

/-- That port is the one that every access from die 0 takes. -/
theorem portFor_single {t : State} (e : t.workingPorts 0 = [0]) (pa : ℕ) : t.portFor 0 pa = some 0 := by
  unfold State.portFor
  rw [e]; simp [Nat.mod_one]

/-- `ShuffleOpenAndSideResults`: a module without a working port, and one with a port of the die. -/
theorem test_witness_own_port (s : State) : (ported s).ownPort 0 = some 0 ∧ (machine .u []).ownPort 0 = none :=
  ⟨portFor_single rfl _, by decide⟩

theorem ported_reaches (s : State) (dev : ℕ) : (ported s).shfReaches 0 dev = true := by
  unfold State.shfReaches
  rw [portFor_single (t := ported s) rfl]
  simp [ported, State.port, Port.reset]

/-- The same: a CSEND of blocks in a scratchpad: its last block, and one before it. -/
theorem test_witness_csend_burst :
    let r (n : BitVec 12) : CsendRec := ⟨true, 1, n, 0x400, 2, 0, 0⟩
    let k (n : BitVec 12) := chain .walking (some (.csend 1 (r n)))
    let s := ported (chained (k 2))
    (∃ ps s1 s2, ∃ bs : List Byte, ∃ s3, s.mapRange (k 2) true false 0x400 1024 = (.ok ps, s1) ∧
      s1.reachRanges (k 2) (pieceLines true ps) [] = (true, s2) ∧ s2.shfReaches (dieOfCore (s2.chainCore (k 2))) (r 2).dev.toNat = true ∧
      s2.readPieces (k 2) true ps = (bs.map some, s3)) ∧
    0 + 1 < (r 2).nblk.toNat ∧ ¬0 + 1 < (r 1).nblk.toNat := by
  intro r k s
  refine ⟨⟨[⟨0x400, 1024, 0, 0, false⟩], s, s, scratchBytes (s.chainScratch (k 2)) 0x400 1024, s, rfl, rfl, ?_, ?_⟩,
    by decide, by decide⟩
  · rw [show dieOfCore (s.chainCore (k 2)) = 0 by decide]
    exact ported_reaches _ _
  · simp [State.readPieces]

/-- The same: a SAMPLE whose row has the head of its stream. -/
theorem test_witness_sample_burst :
    let r : SampleRec := ⟨false, false, true, false, 0, 1, 3, 4, 0, 0x3F800000, 0, 0x80⟩
    let k := chain .walking (some (.sample 1 r))
    let s := { (chained k).modTeam 0 fun t => { t with rows := [7] } with streams := [⟨5, 0, 0, 0, 0, [7], .sample 3⟩] }
    ∃ e id, s.sampleHead k = some (e, id) ∧ ∃ cps s1 s2, s.mapRange k true true 0x80 128 = (.ok cps, s1) ∧ (∀ p ∈ cps, p.dead = false) ∧
      s1.reachRanges k [] (pieceLines true cps) = (true, s2) ∧ (s2.rowRead e).idVoided k.ti id = false ∧
      ∃ m s3, (s2.rowRead e).writePieces k true cps ((sampleRow (s2.accRow id) r crecInit).2.map some) = (m, s3) :=
  ⟨_, _, rfl, _, _, _, rfl, by decide, rfl, by decide, _, _, rfl⟩

/-- `SignalsAndAnswers`: a store into a scratchpad, one to memory, a notify write; answers before and after END. -/
theorem test_witness_signals :
    let k := chain .walking none
    let s := { chained k with nodes := [node], tlb := [{ page 0x10000 0x30000 with core := none }] }
    (Instr.sig 1 ⟨.store, true, .dev, 0x3FFFC, 7⟩).wf = true ∧ 0x3FFFC + 4 ≤ (s.team 0).scr * 2 ^ 18 ∧
    (∃ pa key gen s', s.translate (s.chainAcx k) .store 0x10000 = (.ok pa key gen, s') ∧ isDevice pa = false ∧ s'.frameLive gen pa = true) ∧
    (s.gridTeam (s.team 0).node (0x10 % 2 ^ 16 / 0x40) = some 0 ∧ s.kettleFull ⟨0, 0x10 / 4 % 16, 7⟩ = false) ∧
    (([⟨2, 1, 5, true, 0, 0, none⟩] : List SentBlock).find? fun w => w.dev == 2 && w.shid == 1 && w.bn == 5) = some ⟨2, 1, 5, true, 0, 0, none⟩ ∧
    (let w : SentBlock := ⟨2, 1, 5, true, 0, 0, none⟩
      let e := { k with endSeen := true, waits := [w] }
      (chained e).activeChain 1 = some e ∧ e.waits = [w] ∧ e.endSeen = true) ∧
    (∃ s', s.reachRanges k [] [lineOf 0x30000] = (true, s')) :=
  ⟨by decide, by decide, ⟨0x30000, 0, 0, { chained (chain .walking none) with nodes := [node], tlb := [{ page 0x10000 0x30000 with core := none }] }, by decide, by decide, by decide⟩, by decide, by decide, by decide, _, rfl⟩

/-! ### The matrix engine and the registers -/

/-- A signature of lane `l`: one A register, no scales. -/
def sig (l : Nat) : Sig := ⟨0, l, 0, [0], []⟩

/-- A descriptor: one A register a lane, N of 16, row 0, B at 0. -/
def tile : Word := 0
/-- A format word: N8 by N8, no scales. -/
def fw : Word := 0x33

/-- A state whose team declares register 0 for `n` signatures, has the given ones, and holds the rows 5 and 6. -/
def gathering (ls : List Thread) (n : Nat) (sigs : List Sig) : State :=
  (issuing .u ls (List.range ls.length)).modTeam 0 fun t =>
    { t with cvs := { CvReg.free with declared := true, count := n, desc := tile, fw := fw, sigs := sigs } :: List.replicate 15 .free, rows := [5, 6] }

/-- A pass of two signers. -/
def pass : Pass := ⟨0, fw, tile, [sig 0, sig 1], [some 5, some 6], [], [], 0, 0, false, 0, 0, false, false⟩

/-- An entry of the streams of rows 5 and 6. -/
def entry (op : StreamOp) : Stream := ⟨9, 0, 0, 0, 0, [5, 6], op⟩

/-- `ConvergenceSetsDeclared`: the firmware cores of both dies. -/
theorem test_witness_firmware_cores : ∀ core ∈ [0, 96],
    let s := { machine .f [thread []] with teams := [{ team (group .f [thread []]) with cores := [core] }] }
    (s.withCur (run [0])).cur = some (run [0]) ∧ (s.withCur (run [0])).coreOf 0 0 % 96 = 0 := by decide

/-- `ConvergenceSetsDeclared`: a free register and a declared one; a count of 1, of the live threads, of one more, of 0; masks of the group, of
one lane more, of none. -/
theorem test_witness_cvd :
    let s := issuing .u [thread [(8, 1)], thread []] [0, 1]
    isFwCore (s.coreOf 0 0) = false ∧ activeLanes s (run [0, 1]) .always = [0, 1] ∧ Ready s (run [0, 1]) .always (srcBRegs 32 (.src (.v 8))) ∧
    Ready s (run [0, 1]) .always (srcBRegs 64 (.src (.v 8))) ∧
    (srcB32 (s.thread 0 0 0) (.src (.v 8))).toNat = 1 ∧ ((s.team 0).groups.map fun g => g.live.length).sum = 2 ∧
    ((s.team 0).cvs.getD 0 .free).declared = false ∧ (((gathering [thread []] 1 []).team 0).cvs.getD 0 .free).declared = true ∧
    (¬1 ≤ 0 ∧ 1 ≤ 2 ∧ ¬3 ≤ 2) ∧ (s.group 0 0).lanes.length = 2 ∧ (3#64 ≠ 0 ∧ (3#64).toNat < 2 ^ 2 ∧ ¬(4#64).toNat < 2 ^ 2) := by
  simp only [issues_iff]; decide

/-- `MmaSignsAndPosts`: the last of two signatures, of a group that has not signed; a register that is not declared. -/
theorem test_witness_mma :
    let s := gathering [thread [(8, 0x33)], thread [(8, 0x33)]] 2 []
    let c := run [0, 1]
    let b (l : Nat) := srcB32 (s.thread 0 0 l) (.src (.v 9))
    let f (l : Nat) := src32 (s.thread 0 0 l) (.v 8)
    isFwCore (s.coreOf 0 0) = false ∧ Ready s c .always [] ∧ Here s c ∧ activeLanes s c .always = [0, 1] ∧
    (runChecks s c [0, 1] [8] fun l => addrs 12 (mmaRun (s.thread 0 0 l) (.src (.v 9)) (.v 8)).1) = none ∧
    mmaChecks s c [0, 1] 0 b f = none ∧ mmaChecks s c [0, 1] 1 b f ≠ none ∧ (s.group 0 0).tiles < 63 ∧
    ((gathering [thread [], thread []] 2 [sig 0]).team 0).cvs.length = 16 := by
  simp only [Here, issues_iff]; decide

/-- `MmaSignsAndPosts`: a set of two with both signatures. -/
theorem test_witness_complete_set :
    let s := gathering [thread [], thread []] 2 [sig 0, sig 1]
    let v := (s.team 0).cvs.getD 0 .free
    v.declared = true ∧ v.sigs.length = v.m ∧ 0 < v.m ∧ (s.team 0).place = .resident ∧ (s.team 0).saving = none ∧ s.tableUsed 0 < 32 ∧ (fwInfo v.fw).isSome = true ∧
    0 < (s.team 0).cvs.length ∧ descN v.desc = 16 := by decide

/-- `PassesGrantedAndApplied`: a pass at the head of its rows, then granted; one at the last cycle before it ages and at the first after. -/
theorem test_witness_passes :
    let s := { gathering [thread []] 1 [] with streams := [entry (.pass pass)] }
    let g := entry (.pass { pass with granted := true })
    (∀ e ∈ s.streamsOf 0, e = entry (.pass pass)) ∧ entry (.pass pass) ∈ heads [] (s.streamsOf 0) ∧
    (∀ e ∈ s.streams, e.id = 9 ∧ e.clu = 0) ∧ (pass.granted = false ∧ pass.posted ≤ s.cluCyc 0 ∧ pass.prio ≤ 3 ∧ pass.core < 2 ^ 16) ∧
    (0 + 4096 ≤ 4096 ∧ ¬0 + 4096 ≤ 4095) ∧ ([g].filter fun x => x == g).length = 1 ∧
    (∀ x ∈ [0, 1], ∀ y ∈ [0, 1], pass.dest.getD x none = pass.dest.getD y none → x = y) ∧
    (∀ i ∈ [0, 1], i < pass.rank.length ∧ rowsPer (descN pass.desc) = 1 ∧ pass.dest.getD (i * 1 + 0) none = some (5 + i)) := by decide

/-- `PassesGrantedAndApplied`: a row of one unit element and one product; the product is 1.0 in units of 1. -/
theorem test_witness_pass_fits :
    let row : AccRow := ⟨0, 46, false, false, 0, [(0, 1)]⟩
    let ts : List Term := [⟨.fin 1 0, [.fin 1 0]⟩]
    1 ≤ 128 ∧ ts.length ≤ 4096 ∧ row.e ≠ -32768 ∧ 1 ≤ row.h ∧ (∀ j, j < 128 → row.h ≤ rb (row.at j) ∧ -2 ^ 47 ≤ row.at j ∧ row.at j < 2 ^ 47) ∧
    (∀ t ∈ ts, t.a.special = false ∧ t.b.length = 1 ∧ ∀ x ∈ t.b, x.special = false) ∧
    maxFlog (ts.map (·.a)) = some 0 ∧ maxFlog (ts.flatMap (·.b)) = some 0 ∧ 0 + 0 + 2 + clog2 ts.length - row.e ≤ 46 := by decide +kernel

/-- `AccumulatorRowRequests`: counts at 0, 8, 16, 256 and 272; a team that holds 256 rows; rows to spare. -/
theorem test_witness_acg :
    let s := issuing .u [thread [(8, 16)]] [0]
    isFwCore (s.coreOf 0 0) = false ∧ activeLanes s (run [0]) .always = [0] ∧ Ready s (run [0]) .always (12 :: srcBRegs 32 (.src (.v 8))) ∧
    (srcB32 (s.thread 0 0 0) (.src (.v 8))).toNat = 16 ∧ 16 % 16 = 0 ∧ 8 % 16 ≠ 0 ∧ 256 ≤ 256 ∧ 256 < 272 ∧
    (s.team 0).rows.length = 0 ∧ 256 * (s.team 0).cores.length = 256 ∧ Here s (run [0]) ∧ s.acgQ = [] ∧ Sparse.get 0 s.reserve 0 = 0 ∧
    256 + 16 ≤ s.freeRows 0 := by
  simp only [Here, issues_iff]; decide

/-- `AccumulatorInstructionsEnter`: a row held, the last one, and the first not held; a run of one register; an image that ends at the
carve-out. -/
theorem test_witness_acc_enter :
    let s := gathering [thread [(8, 1), (9, 0x10), (10, 0x3FCF0), (11, 2)]] 1 []
    let c := run [0]
    let x (r : Nat) : Nat := (srcB32 (s.thread 0 0 0) (.src (.v r))).toNat
    Ready s c .always [8, 9, 10, 11] ∧ Here s c ∧ isFwCore (s.coreOf 0 0) = false ∧ activeLanes s c .always = [0] ∧ (s.group 0 0).tiles < 63 ∧
    (s.team 0).rows.length = 2 ∧ x 8 < 2 ∧ ¬x 11 < 2 ∧ 0 + 2 ≤ 2 ∧ (1 ≤ 1 ∧ 1 ≤ 256 ∧ x 11 ≤ 2 ∧ 2 < x 11 + 1) ∧ (x 9 % 256 = 16 ∧ x 9 / 256 % 128 + 16 ≤ 128) ∧
    (x 10 % 16 = 0 ∧ x 10 + 784 = (s.team 0).scr * 2 ^ 18) ∧ runChecks s c [0] [8, 9] (fun _ => addrs 12 (max 1 ((16 * ewidth .n8 + 31) / 32))) = none := by
  simp only [Here, issues_iff]; decide

/-- An image of zeros is accepted: exponent 0, no redundant bits claimed. -/
theorem test_witness_image : imageOk (natBytes 784 0) = true := by decide +kernel

/-- `AccumulatorEntriesPerform`: an entry of one row at the head; a row that `acn` shifts; a lane whose one pending register is the entry's; a
run with a finite element that fits. -/
theorem test_witness_acc_entries :
    let e : Stream := ⟨9, 0, 0, 0, 0, [5], .ach⟩
    let s := { chained (chain .walking none) with streams := [{ e with id := 3 }], accRows := [(5, ⟨0, 46, false, false, 0, [(0, 1)]⟩)] }
    (heads [] (s.streamsOf 0)).find? Stream.isAcc = some { e with id := 3 } ∧
    ((s.accRow 5).e ≠ -32768 ∧ (s.accRow 5).e + 47 ≤ 32767) ∧ 0 < s.teams.length ∧ 0 < (s.group 0 0).lanes.length ∧
    (∀ p ∈ (s.thread 0 0 0).pend, p.op = 3 → p = ⟨9, 3, 0⟩) ∧ ⟨9, 3, 0⟩ ∈ (s.thread 0 0 0).pend ∧
    (1 ≤ 128 ∧ 0 + 128 ≤ 128 ∧ ¬1 + 128 ≤ 128) ∧ (packedElem .n8 (wordByte [0x38]) 0).isFin = true := by decide

/-- `RegisterBlockAndValueResults`: within the blocks held, at the last block that one request can add, beyond it; a claim kept and lowered. -/
theorem test_witness_blocks :
    let g : Group := { group .u [{ thread [] with claim := 4 }] with blocks := 4 }
    let s := { machine .u [] with teams := [team g] }.withCur (run [0])
    let u := s.modGroup 0 0 Group.shrink
    Ready s (run [0]) .always [8] ∧ Here s (run [0]) ∧ activeLanes s (run [0]) .always = [0] ∧ (u.group 0 0).blocks = 4 ∧ u.asked 0 0 = 0 ∧
    (∀ q ∈ u.rgetQ, q.core ≠ s.coreOf 0 0) ∧ (8 - 4) * ((s.group 0 0).lanes.length / 16) + 16 ≤ u.unitsFree (s.coreOf 0 0) ∧
    (s.thread 0 0 0).hold = .none ∧ (s.thread 0 0 0).claim = 4 ∧ (8 ≤ 4 + 4 ∧ 4 + 0 + 4 < 9) := by
  simp only [Here, issues_iff]; decide

/-! ### Shuffles and arenas -/

/-- A shuffle of two modules on die 0 that expects one block, its window at 0x10000. -/
def shuffle : Shuffle :=
  ⟨5, 0, 0, .u, 0x10100, [0, 1], 0, true, true, 1, 0x10000, 1024, 0, 0, 0, 0, 0, 0, 0, false, false, []⟩

/-- The mapped machine with a shuffle, a side entry for block 2, and a shared translation of the page. -/
def shuffling (h : Shuffle) : State :=
  { mapped .u [thread [(8, 0x10100), (10, 5), (11, 2)]] [0] with
    shuffles := [h], side := [⟨0, 5, 2, 0x30400, 0, 0, true⟩], tlb := [page 0x10000 0x30000, { page 0x10000 0x30000 with core := none }] }

/-- A descriptor of that shuffle: two participants listed at 0x10200. -/
def descriptor : List Byte := natBytes 4 (2 + 3 * 2 ^ 18) ++ natBytes 4 1 ++ natBytes 8 0x10200 ++ natBytes 8 0x10000 ++ natBytes 4 1024 ++ natBytes 36 0

/-- A coded packet for this module and the next. -/
def coded : CodedPacket := ⟨5, [⟨0, 7, 0, 0⟩, ⟨1, 2, 0, 0⟩], List.replicate 4 0⟩

/-- `ShuffleOpenAndSideResults`: a lane whose descriptor reads; one that is not aligned and one beyond bit 56; a form that is good, a number that is
too high, a list that lacks this module; a number in use and not; room. -/
theorem test_witness_open :
    let s := { mapped .u [thread [(8, 0x10100)], thread [(8, 0x10120)], thread [(9, 0x2000000)]] [0] with
      mem := (addrs 0x30100 64).zip descriptor ++ (addrs 0x30200 4).zip (natBytes 4 0x10000) }
    (readDesc s 0 0 0 0x10100).1 = .ok descriptor ∧ (readDesc s 0 0 0 0x10100).2.1 = [0, 1] ∧
    (operand (s.thread 0 0 1) 64 (.v 8)).toNat % 64 ≠ 0 ∧ 2 ^ 57 ≤ (operand (s.thread 0 0 2) 64 (.v 8)).toNat ∧
    descOk descriptor = true ∧ descOk (List.replicate 64 0) = false ∧ [0, 1].Nodup ∧ s.module.dev ∈ [0, 1] ∧ s.module.dev ∉ [1, 2] ∧
    s.shuffle 5 = none ∧ (shuffling shuffle).shuffle 5 ≠ none ∧ s.shuffles.length < 64 ∧ 0xFFFF ≤ 0xFFFF := by decide +kernel

/-- No room: sixteen shuffles on one die. -/
theorem test_witness_open_full :
    let s := { shuffling shuffle with shuffles := List.replicate 16 shuffle }
    ¬(s.shuffles.filter fun h => h.ddie == 0).length < 16 := by decide

/-- The same: a table of side entries that is full. -/
theorem test_witness_side_full (n : ℕ) (h : 65536 ≤ n) :
    let s := { shuffling shuffle with side := List.replicate n ⟨0, 5, 2, 0x30400, 0, 0, true⟩ }
    65536 ≤ (s.side.filter fun x => x.die == shuffle.ddie).length := by
  simpa [shuffle] using h

/-- The same, and `ArenaAndThresholdResults`: a channel that is open and one that is paused, and a packet that another waits before. -/
theorem test_witness_channels :
    let s := ported (machine .u [thread []])
    let paused := s.modPort 0 fun q => { q with hshf := true, hreq := true }
    let queued : State := { s with outbox := [(0, true, .sideAnnounce 5 2)] }
    ((s.port 0).up = true ∧ (s.port 0).hshf = false ∧ (s.port 0).hreq = false ∧ ∀ p, p < 8 → p ≠ 0 → (s.port p).up = false) ∧
    ((paused.port 0).up = true ∧ (paused.port 0).hshf = true ∧ (paused.port 0).hreq = true) ∧ s.outbox = [] ∧
    (∃ x ∈ queued.outbox, x.1 = 0 ∧ x.2.1 = true) := by decide

/-- `ShuffleOpenAndSideResults`: a block that is registered and one that is not; numbers at the bound and above; a shuffle closing; an address that
is not a multiple of 1024. -/
theorem test_witness_side :
    let s := shuffling shuffle
    let c := run [0]
    s.openTo 0 0 5 = some shuffle ∧ s.openTo 0 0 0xFFFF = none ∧ 0xFFFF < 0x10000 ∧ (shuffling { shuffle with closing := true }).openTo 0 0 5 ≠ none ∧
    0x10000 % 1024 = 0 ∧ 0x10200 % 1024 ≠ 0 ∧ Ready s c .always [9, 8, 10, 11] ∧
    s.storesAcked 0 0 0 .dev s.nextId = true ∧
    (∃ x ∈ s.side, x.die = 0 ∧ x.shid = 5 ∧ x.bn = 2) ∧ (∀ x ∈ s.side, ¬(x.die = 0 ∧ x.shid = 5 ∧ x.bn = 3)) ∧ s.side.length < 65536 ∧
    ∃ s', memChecks s (s.acx 0 0) .load 1024 (laneAddrs s c [0] fun _ => 0x10400) = .pass [(0, 0x10400, .ok 0x30400 0 0)] s' := by
  simp only [issues_iff]; refine ⟨?_, ?_, ?_, ?_, ?_, ?_, ?_, ?_, ?_, ?_, ?_, _, rfl⟩ <;> decide

/-- `ShuffleCloseResults`: a closed-failed shuffle, one that failed but is not closing, one that is open, no shuffle. -/
theorem test_witness_close :
    let s := shuffling shuffle
    Ready s (run [0]) .always [9, 10] ∧ activeLanes s (run [0]) .always = [] ++ 0 :: [] ∧
    (shuffling { shuffle with failed := true, closing := true }).openTo 0 0 5 = some { shuffle with failed := true, closing := true } ∧
    (shuffling { shuffle with failed := true }).openTo 0 0 5 = some { shuffle with failed := true } ∧
    s.openTo 0 0 5 = some shuffle ∧ s.openTo 0 0 6 = none ∧
    ((s.group 0 0).copies < 63 ∧ 63 ≤ ((s.modGroup 0 0 fun g => { g with copies := 63 }).group 0 0).copies) ∧ (s.thread 0 0 0).pc = 0x1000 := by
  simp only [issues_iff]; decide

/-- Every block accounted for, and not; the page of the record is there; the closer waits. -/
theorem test_witness_close_complete :
    let h := { shuffle with closing := true, closers := [(0, 0, 0, 9)] }
    let full := { h with coded := 1 }
    let s := (shuffling full).modThread 0 0 0 fun t => { t with hold := .shfClose 5, waitLen := 8 }
    s.shuffle 5 = some full ∧ 1 ≤ 1 + 0 + 0 + 0 ∧ (0 : ℕ) < 1 ∧ s.mapPages (s.shufAcx full) true [(0x10100 + 0x20, 32)] = (.ok [⟨0x30120, 32, 0, 0, false⟩], s) ∧
    (∃ s', s.access 0 [] (pieceLines false [⟨0x30120, 32, 0, 0, false⟩]) = (true, s')) ∧
    0 < (s.group 0 0).lanes.length ∧ (s.thread 0 0 0).hold = .shfClose 5 ∧ (∀ x ∈ s.shuffles, x.id = 5 → x = full) := by
  refine ⟨?_, ?_, ?_, ?_, ⟨_, rfl⟩, ?_, ?_, ?_⟩ <;> decide

/-- The token of a closer that holds a pending register. -/
theorem test_witness_close_token :
    let s := chained (chain .walking none)
    (∀ p ∈ (s.thread 0 0 0).pend, p.op = 3 → p = ⟨9, 3, 0⟩) ∧ ⟨9, 3, 0⟩ ∈ (s.thread 0 0 0).pend := by decide

/-- `ShuffleArrivals`: a packet for this module and one that is not; a key that is held, absent, stale; blocks from a participant and another,
at the last offset of the window and beyond it, on a page that is there and on one that is not. -/
theorem test_witness_arrivals :
    let s := shuffling shuffle
    coded.comps.find? (fun x => x.dev == s.module.dev) = some ⟨0, 7, 0, 0⟩ ∧ [(⟨1, 2, 0, 0⟩ : CodedComp)].find? (fun x => x.dev == s.module.dev) = none ∧
    s.shuffle 5 = some shuffle ∧ s.occupancy 0 < 8192 ∧
    s.lookKeys shuffle 0 coded = .held [⟨0, 5, 2, 0x30400, 0, 0, true⟩] ∧ { s with side := [] }.lookKeys shuffle 0 coded = .absent ∧
    { s with side := [⟨0, 5, 2, 0x30400, 0, 0, false⟩] }.lookKeys shuffle 0 coded = .stale ∧
    (∀ l ∈ dedupNat (addrs (0x30400 / 128) 8), s.settle l 0 = s) ∧
    1 ∈ shuffle.parts ∧ 2 ∉ shuffle.parts ∧ (1023 < shuffle.rxlen ∧ shuffle.rxlen ≤ 1024) ∧
    pagePieces ((0x10000 + 1020) % 2 ^ 64) 4 = [(0x103FC, 4)] ∧
    s.mapPages (s.shufAcx shuffle) true [(0x103FC, 4)] = (.ok [⟨0x303FC, 4, 0, 0, false⟩], s) ∧
    (∀ l ∈ addrs (0x30400 / 128) 8, s.open' 0 (128 * l) true false = true) ∧
    { s with faults := [{ parked with check := true, cause := 1, va := 0x30400 }] }.open' 0 0x30400 true false = false ∧
    (∃ s', s.access 0 [] (pieceLines false [⟨0x303FC, 4, 0, 0, false⟩]) = (true, s')) ∧
    (∃ s', { s with dir := [⟨lineOf 0x303FC, [2], [], [], []⟩] }.access 0 [] (pieceLines false [⟨0x303FC, 4, 0, 0, false⟩]) = (false, s')) ∧
    ∃ s', { s with tlb := [] }.mapPages ({ s with tlb := [] }.shufAcx shuffle) true [(0x103FC, 4)] = (.park 0x103FC, s') := by
  refine ⟨?_, ?_, ?_, ?_, ?_, ?_, ?_, ?_, ?_, ?_, ?_, ?_, ?_, ?_, ?_, ⟨_, rfl⟩, ⟨_, rfl⟩, _, rfl⟩ <;> decide

/-- The same: a strainer that is full. -/
theorem test_witness_strainer_full (n : ℕ) (h : 8192 ≤ n) :
    8192 ≤ ({ shuffling shuffle with strainer := List.replicate n ⟨0, .coded coded, none⟩ } : State).occupancy shuffle.ddie := by
  simpa [State.occupancy, shuffle] using h

/-- An address of no page, and a page whose arena has died. -/
theorem test_witness_lost_windows :
    let s := shuffling shuffle
    (∃ s', s.mapPages (s.shufAcx shuffle) true [(2 ^ 57, 4)] = (.stop, s')) ∧
    ∃ ps s', { s with tlb := [{ page 0x10000 0x30000 with core := none, gen := 3, slot := 1 }] }.mapPages (s.shufAcx shuffle) true [(0x103FC, 4)] =
      (.ok ps, s') ∧ ∃ p ∈ ps, p.dead = true := by
  refine ⟨⟨_, rfl⟩, [⟨0x303FC, 4, 0, 259, true⟩], _, rfl, by decide⟩

/-- `ShuffleArrivals`: a chain that waits for block 7 of module 2, its source in a scratchpad. -/
theorem test_witness_resend :
    let w : SentBlock := ⟨2, 5, 7, true, 0x400, 0, none⟩
    let k := { chain .walking none with waits := [w] }
    let s := ported (chained k)
    (s.chains.findSome? fun k => (k.sentBlock 2 5 7).map fun w => (k, w)) = some (k, w) ∧
    s.mapRange k true false 0x400 1024 = (.ok [⟨0x400, 1024, 0, 0, false⟩], s) ∧
    (s.access 0 (pieceLines true [⟨0x400, 1024, 0, 0, false⟩]) []).1 = true ∧ s.shfReaches (dieOfCore (s.chainCore k)) 2 = true ∧
    (allBytes (s.readPieces k true [⟨0x400, 1024, 0, 0, false⟩]).1).isSome = true ∧ (∀ x ∈ s.chains, x.sentBlock 2 5 8 = none) := by
  refine ⟨?_, ?_, ?_, ported_reaches _ _, ?_, ?_⟩ <;> decide +kernel

/-- The same: a source in memory whose page is missing, and one whose line a machine check holds. -/
theorem test_witness_resend_parked :
    let w : SentBlock := ⟨2, 5, 7, false, 0x50000, 0, none⟩
    let k := { chain .walking none with waits := [w] }
    (∃ s', (chained k).mapRange k false false 0x50000 1024 = (.park 0x50000, s')) ∧ (({ w with fid := some 4 } : SentBlock).fid ≠ none) ∧
    ({ chained k with faults := [{ parked with check := true, cause := 1, va := 0x30400 }] }.access 0 (pieceLines false [⟨0x30400, 1024, 0, 0, false⟩]) []).1 =
      false :=
  ⟨⟨_, rfl⟩, by decide, by decide +kernel⟩

/-- `ArenaAndThresholdResults`: handles of the arena, of another generation, of no slot, ill-formed; a dying node in each state of its death. -/
theorem test_witness_arenas :
    let n := { node with st := .dying, arenas := [0] }
    let s := { machine .u [thread []] with arenas := [arena], nodes := [n] }
    s.handleEntry (3 * 2 ^ 24 + 1) = some arena ∧ s.handleEntry (4 * 2 ^ 24 + 1) = none ∧ s.handleEntry 1 = none ∧ s.handleEntry (3 * 2 ^ 24 + 2 ^ 16 + 1) = none ∧
    s.nodes[0]? = some n ∧ n.st = .dying ∧ n.arenas ≠ [] ∧ n.deathStep = 0 ∧ s.quiet 0 = true ∧ s.requestsLeft ((s.arenasOf 0).map Arena.tag) = false ∧
    { chained (chain .walking none) with nodes := [n] }.quiet 0 = false := by decide

/-- A load that still waits for the arena. -/
theorem test_witness_arena_busy :
    let ld : Load := ⟨0, 0, 0, 0, 1, .u, 0, .plain false, 4, 0, [⟨0, 0, 0, 0, arena.tag, 0, 0, .wait⟩]⟩
    { machine .u [thread []] with loads := [ld], arenas := [arena] }.requestsLeft [arena.tag] = true := by decide

/-- `ArenaAndThresholdResults`: thresholds at their bounds and out of order; levels at STOP, at RESUME and between them. -/
theorem test_witness_thresholds :
    let s := machine .u [thread []]
    let u := { s with strainer := [⟨0, .coded coded, none⟩] }
    (1 ≤ 1 ∧ 1 < 48 ∧ 48 ≤ 48 ∧ ¬49 ≤ 48) ∧ (30 < 31 ∧ 31 ≤ 31 ∧ ¬31 < 31) ∧ 0 < s.dies.length ∧
    (s.occupancy 0 ≤ (s.die 0).strResume * 256 ∧ s.occupancy 0 < (s.die 0).strStop * 256) ∧
    ((s.modDie 0 fun d => { d with strStop := 0 }).die 0).strStop * 256 ≤ (s.modDie 0 fun d => { d with strStop := 0 }).occupancy 0 ∧
    (((u.modDie 0 fun d => { d with strResume := 0 }).die 0).strResume * 256 < u.occupancy 0 ∧ u.occupancy 0 < (u.die 0).strStop * 256) ∧
    (∀ a ∈ s.arenas, a.die ≠ 0) := by decide

/-- A port of a die that has one port up, after another goes down. -/
theorem test_witness_port :
    let s := { machine .u [thread []] with ports := [{ Port.reset with up := true }] }
    ∃ t : State, exec (.portDown 1) s = .next t ∧ t.portFor 0 0x123400 = some 0 := by
  exact ⟨_, rfl, portFor_single (by decide) _⟩

/-! ### Batch-forming queues, traps, system instructions -/

/-- A queue of key 7 on die 0 with rows of lane 0 and the given takes. -/
def bfq (n : Nat) (takes : List BTake) : Bfq := ⟨0, 7, List.replicate n ⟨0x1122, 0, 0, 0, 1, 0, false⟩, [(0, 0, 0)], takes, []⟩

/-- `BatchQueueResults`: a lane without a row, one with a row left; a function resetting and not; a queue that is bound; a batch of the team and
none; a poster and none. -/
theorem test_witness_batch_rows :
    let s := issuing .k [thread [(10, 7)]] [0]
    let u := { s with bfqs := [{ bfq 1 [] with batches := [⟨0, 0, true, 0, none, 1, [⟨1, 0, 0, 0, 1, 0, true⟩]⟩] }] }
    Ready s (run [0]) .always [9, 8, 10] ∧ activeLanes s (run [0]) .always = [0] ∧
    (s.releaseOk 0 0 0 .dev s.nextId = true ∧ (s.bfq 0 7).hasRow (0, 0, 0) = false) ∧ (u.bfq 0 7).hasRow (0, 0, 0) = true ∧
    s.fnOf 0 ∉ s.module.resetting ∧ s.fnOf 0 ∈ { s.module with resetting := [0] }.resetting ∧ (u.bfq 0 7).bound = true ∧ (s.bfq 0 7).bound = false ∧
    (s.bfqs.filter fun x => x.die == 0 && x.bound).length < 16 ∧
    s.batchOf 0 7 = none ∧ (u.batchOf 0 7).isSome = true ∧ (0, 0, 0) ∈ (u.bfq 0 7).posters ∧ (0, 0, 1) ∉ (u.bfq 0 7).posters := by
  simp only [issues_iff]; decide

/-- Sixteen bound queues. -/
theorem test_witness_batch_full :
    16 ≤ (({ machine .k [] with bfqs := List.replicate 16 (bfq 1 []) } : State).bfqs.filter fun x => x.die == 0 && x.bound).length := by decide

/-- `BatchQueueResults`: control words at the bounds; a batch that ends at the carve-out and one that does not; no rows named, the last row held and
one more; a take that is ready by its target, by its posters, and not. -/
theorem test_witness_takes :
    let s := issuing .k [thread [(8, 7), (10, 1), (11, 0xFFFFFFFF)]] [0]
    let k : BTake := ⟨0, 0, [0], 9, 2, 0, none, 1⟩
    let u (n : Nat) : State := { s with bfqs := [bfq n [k]] }
    Ready s (run [0]) .always [9, 8, 10, 11] ∧ activeLanes s (run [0]) .always = [0] ∧
    (1 % 512 = 1 ∧ 256 ≤ 256 ∧ ¬257 ≤ 256) ∧ (s.team 0).scr * 2 ^ 18 = 0x3FFF * 16 + 16 * 1 ∧ s.bfqs = [] ∧
    (0 + 1 * (2 - 1) < 2 ∧ ¬1 + 1 * (2 - 1) < 2) ∧
    ((u 1).bfq 0 7).takes = [k] ∧ 0 < s.teams.length ∧ (k.target ≤ ((u 2).bfq 0 7).rows.length) ∧
    ((({ s with bfqs := [bfq 2 [k, { k with d := 12 }]] } : State).bfq 0 7).takes = k :: [{ k with d := 12 }]) ∧ (s.bfq 0 7).takes = [] ∧
    (((u 1).bfq 0 7).rows ≠ [] ∧ ∀ p ∈ ((u 1).bfq 0 7).posters, ∃ r ∈ ((u 1).bfq 0 7).rows, (r.ti, r.gi, r.lane) = p) ∧
    ((u 0).bfq 0 7).rows = [] ∧ 0 < (s.group 0 0).lanes.length ∧ ((u 2).bfq 0 7).rows[1]? = some ⟨0x1122, 0, 0, 0, 1, 0, false⟩ := by
  simp only [issues_iff]; decide

/-- The vectors of die 0. -/
def vectored (s : State) : State := s.modDie 0 fun d => { d with kvec := 0x2000, fvec := 0x3004 }

/-- `TrapsEnterTheirBank`: a trap to K, to F from K, to F where there is no kernel vector, and with no vector; shadows within their sixteen. -/
theorem test_witness_traps :
    let s (lv : Level) := vectored (machine lv [thread [(2, 1)], thread []])
    0 < ((s .u).team 0).groups.length ∧ ((s .u).group 0 0).level = .u ∧ ((s .u).die ((s .u).coreOf 0 0 / 96)).kvec ≠ 0 ∧
    ((s .k).group 0 0).level ≠ .u ∧ ((s .k).die 0).fvec ≠ 0 ∧ ((machine .u [thread []]).die 0).kvec = 0 ∧ ((machine .u [thread []]).die 0).fvec = 0 ∧
    (∀ e ∈ ((s .u).thread 0 0 0).shadowK.regs, e.1 < 16) ∧ (∀ p ∈ ((s .u).thread 0 0 0).shadowK.pend, p.reg < 16) ∧
    (0 : ℕ) < ((s .u).group 0 0).lanes.length := by decide

/-- `TrapWordsAndReturns`: no lane active, a page that is there without the right to fetch, and one that is missing. -/
theorem test_witness_fetch :
    let s := mapped .u [thread [(2, 0)]] [0]
    let u := { s with tlb := [{ page 0x0 0x30000 with x := false }] }
    Ready s (run [0]) (.when false 2) [] ∧ activeLanes s (run [0]) (.when false 2) = [] ∧ s.cur = some (run [0]) ∧
    (∃ t, s.translate (s.acx 0 0) .fetch 0x1000 = (.miss, t)) ∧ ∃ k t, u.translate (u.acx 0 0) .fetch 0x1000 = (.bad k, t) := by
  simp only [issues_iff]; refine ⟨by decide, by decide, by decide, ⟨_, rfl⟩, _, _, rfl⟩

/-- A group whose handler lanes are those of the mask, at level `lv`. -/
def handling (lv : Level) (mask : DWord) (ls : List Thread) : State :=
  { machine lv ls with teams := [team { group lv ls with bankK := { (group lv ls).bankK with inh := true, tmask := mask },
                                                         bankF := { (group lv ls).bankF with inh := true, tmask := mask } }] }.withCur (run [0])

/-- `TrapWordsAndReturns`: no handler; every handler lane at the word; one that is not; one that has exited. -/
theorem test_witness_returns :
    let s := handling .k 1 [thread [], thread []]
    let u := handling .f 3 [thread [], thread []]
    let v := handling .f 3 [thread [], { thread [] with exited := true }]
    let handlers (s : State) (f : Bool) : List ℕ := (lanesOf ((s.group 0 0).bank f).tmask).filter fun l => !((s.group 0 0).lane l).exited
    Issues s (run [0]) .kf .always [] [] ∧ Here s (run [0]) ∧ Issues u (run [0]) .f .always [] [] ∧ Issues u (run [0]) .kf .always [] [] ∧
    ((machine .k [thread []]).group 0 0).bankK.inh = false ∧ ((s.group 0 0).bank false).inh = true ∧ ((u.group 0 0).bank true).inh = true ∧
    handlers s false = [0] ∧ handlers u true = [0, 1] ∧ handlers v true = [0] ∧ (∀ e ∈ (s.thread 0 0 0).shadowK.regs, e.1 < 16) := by
  simp only [issues_iff, Here]; decide

/-- `LevelAndClaimChecks`: the last register of a claim of one block, and the next, the lowest that is outside. -/
theorem test_witness_claims :
    let s := issuing .u [{ thread [] with claim := 1 }] [0]
    let regs := guardRegs .always ++ regs2 32 (.v 16) 32 (.v 15) 32 (.src (.v 17))
    s.cur = some (run [0]) ∧ (s.group 0 0).level = .u ∧ pendingLanes s (run [0]) (run [0]).lanes (guardRegs .always) = [] ∧ 16 ∈ regs ∧
    (∃ l ∈ activeLanes s (run [0]) .always, 16 * (s.thread 0 0 l).claim ≤ 16) ∧
    (∀ y ∈ regs, y < 16 → ∀ l ∈ activeLanes s (run [0]) .always, y < 16 * (s.thread 0 0 l).claim) ∧
    (∀ l ∈ gatherSet s (run [0]), l ∈ (run [0]).lanes) ∧ isFwCore (s.coreOf 0 0) = false ∧
    (∀ lv ∈ [Level.k, .f], ((issuing lv [{ thread [] with claim := 1 }] [0]).group 0 0).level = lv ∧ Priv.kf.allows lv = true) ∧
    Priv.f.allows .f = true := by decide

/-- The same: a run of two registers whose second is outside the claim, its length read at issue; it ends at 255 or below. -/
theorem test_witness_run_claims :
    let s := issuing .u [{ thread [(9, 2)] with claim := 1 }] [0]
    let run' (t : Thread) : List ℕ := addrs 15 (max 1 (((srcB32 t (.src (.v 9))).toNat % 256 * ewidth .f32 + 31) / 32))
    Ready s (run [0]) .always [] ∧ pendingLanes s (run [0]) (activeLanes s (run [0]) .always) [8, 9] = [] ∧
    (∀ l ∈ activeLanes s (run [0]) .always, ∀ r ∈ run' (s.thread 0 0 l), r ≤ 255) ∧
    (∃ l ∈ activeLanes s (run [0]) .always, 16 ∈ [8, 9] ++ run' (s.thread 0 0 l) ∧ 16 * (s.thread 0 0 l).claim ≤ 16) ∧
    (∀ l ∈ activeLanes s (run [0]) .always, ∀ y ∈ [8, 9] ++ run' (s.thread 0 0 l), y < 16 → y < 16 * (s.thread 0 0 l).claim) := by
  simp only [issues_iff]; decide

/-- `SystemRegisterResults`: at K and at F, with a value to write. -/
theorem test_witness_system :
    (∀ lv ∈ [Level.k, .f], let s := issuing lv [thread [(8, 0x1008)]] [0]
      Issues s (run [0]) .kf .always [8, 9] [8, 9] ∧ Here s (run [0]) ∧ activeLanes s (run [0]) .always = [0]) ∧
    Issues (issuing .f [thread []] [0]) (run [0]) .f .always [8, 9] [8, 9] ∧ (10 ≤ 10 ∧ ¬11 ≤ 10) ∧ (8 ≤ 8 ∧ ¬9 ≤ 8) := by
  simp only [issues_iff, Here]; decide

/-- `SystemAndFirmwareInstructionResults`: a fault that is named and one that is not; handles of the issuing team, of another, of a saved one, of none; a
free slot and none; slot numbers at the bound; layouts in and out of range; words that end a `halt`, and none; `tlbi` controls. -/
theorem test_witness_system_instructions :
    let s := pooled
    (s.faults.find? fun f => f.fid == 4 && f.kind != 6 && f.kind != 7) = some parked ∧
    (s.faults.find? fun f => f.fid == 5 && f.kind != 6 && f.kind != 7) = none ∧
    s.teamOfHandle 0 = some 0 ∧ s.teamOfHandle 1 = some 1 ∧ s.teamOfHandle 2 = some 2 ∧ s.teamOfHandle 3 = none ∧
    (s.team 1).place = .resident ∧ (s.team 2).place = .saved 2 ∧ (s.team 1).node ≠ (s.team 0).node ∧
    s.freeSlotNo = some 0 ∧ s.saveReady 1 = true ∧
    (s.slots.find? fun x => x.slot == 2).isSome = true ∧ (s.slots.find? fun x => x.slot == 3) = none ∧ (3 < s.module.poolCount ∧ s.module.poolCount ≤ 4) ∧
    ((s.die 0).layOld ≤ 0 ∧ 0 ≤ (s.die 0).layNew ∧ ¬1 ≤ (s.die 0).layNew) ∧ (∀ w ∈ (s.team 0).notify, w = 0) ∧
    (s.die 0).fltt = (s.die 0).flth ∧ (∃ w ∈ (List.set (s.team 0).notify 15 1), w ≠ 0) ∧ s.loads = [] ∧ s.stores = [] ∧
    (3 % 4 = 3 ∧ 12 / 4 % 4 = 3 ∧ 16 / 16 % 2 ^ 12 ≠ 0 ∧ 0x10000 / 16 % 2 ^ 12 = 0) := by
  intro s; refine ⟨?_, ?_, ?_, ?_, ?_, ?_, ?_, ?_, ?_, ?_, ?_, ?_, ?_, ?_, ?_,
    fun w h => List.eq_of_mem_replicate h, ?_, ⟨1, List.mem_iff_getElem.mpr ⟨15, by decide, rfl⟩, by decide⟩, ?_, ?_, ?_⟩ <;> decide

/-- The same: the slot of the saved team by its record, where its page does not translate; a team that activates an image, and none. -/
theorem test_witness_slots_and_activation :
    let s := pooled
    let k : CtxSlot := ⟨2, 0x1800000, 2, true, 0, false, 0, none⟩
    let u := { s with teams := [team (group .f [{ thread [] with hold := .activate 8 false }])] }
    s.slotValid (s.slotDie k.ti) k = true ∧ s.slotLayout (s.slotDie k.ti) k = 0 ∧ s.activating = false ∧ u.activating = true ∧
    s.restorable 2 = false := by decide +kernel

/-- The pooled machine with a load parked on its fault, where a machine check holds the line of the page table that its walk reads. -/
def rewalked : State :=
  { pooled with nodes := { node with ptroot := 0x40000 } :: pooled.nodes.drop 1
                loads := [⟨7, 0, 0, 0, 1, .u, 0, .plain false, 4, 0, [⟨0, 0x10000, 0, 0, 0, 0, 0, .parked 4 0⟩]⟩]
                faults := [parked, { parked with fid := 5, check := true, cause := 1, va := 0x40000 }] }

/-- `SystemAndFirmwareInstructionResults` and `ItemsTeamsAndRunsChosen`: a slot that can be written and read, and one whose line a machine check holds; a
RETRY whose walks are done. -/
theorem test_witness_saves :
    let s := pooled
    let v := s.modTeam 1 fun t => { t with saving := some true }
    let held := { v with tlb := [{ page 0x800000 0x40000 with core := none, u := false }],
                         faults := [{ parked with check := true, cause := 2, va := 0x40000 }] }
    (v.slotOpen 0 0 true).1 = true ∧ v.saveReady 1 = true ∧ (s.slotOpen (s.slotDie 2) 2 false).1 = true ∧ (held.slotOpen 0 0 true).1 = false ∧
    (held.slotOpen 0 0 false).1 = false ∧ (s.retryReady parked).1 = true ∧ (rewalked.retryReady parked).1 = false ∧ (s.walkAll 2 0 (s.againPages 2 fun _ => true)).1 = true := by
  decide +kernel

/-- A saved team of one thread whose slot is mapped whole and reads as zero, as its image does. -/
def slotted : State :=
  let g : Group := { Group.blank with lanes := [{ Thread.blank with exited := false }] }
  let s := State.reset.modDie 0 fun d => { d with kroot := 0x8000 }
  { s with teams := [{ Team.blank with place := .saved 0, cores := [1], width := 16, groups := [g] }], nodes := [node],
           module := { s.module with poolCount := 4, poolBase := BitVec.ofNat 64 (2 ^ 56) },
           tlb := [{ page (2 ^ 56) 0x800000 with core := none, u := false, size := 2 ^ 23 }] }

/-- The pages of its slot. -/
def slottedPages : List (Option (Nat × Nat)) × State := slotted.slotPages 0 0

/-- Bytes that are zero make the number zero. -/
theorem bytesNat_zeros {bs : List Byte} (h : ∀ b ∈ bs, b = 0) : bytesNat bs = 0 := by
  induction bs with
  | nil => rfl
  | cons b bs ih =>
    have hb : b = 0 := h b (by simp)
    have hs : bytesNat bs = 0 := ih fun x hx => h x (by simp [hx])
    simp only [bytesNat, hb, hs]; rfl

/-- Memory that lists nothing reads as zero under every key, where nothing is cached. -/
theorem cohByte_unlisted {v : State} (hc : v.cache = []) (hm : v.mem = []) (ht : v.memTag = []) (hf : v.frameTag = []) (hk : v.keys = [])
    (hp : v.peerKeys = []) (key pa : ℕ) : v.cohByte key pa = 0 := by
  simp only [State.cohByte, State.l1Dirty, State.cline, hc, List.find?_nil, State.memByte, State.lineTag, ht, hf, State.tagAt, State.keyTag, hk, hp,
    Sparse.get]
  split <;> simp [hm] <;> rfl

/-- `ItemsTeamsAndRunsChosen`: a slot whose pages are all there and which reads as the image of its team. -/
theorem test_witness_slot_reads :
    (∀ k, k < 67 → (slottedPages.1.getD k none).isSome = true) ∧ (slottedPages.2.team 0).groups.length = 1 ∧
    (slottedPages.2.group 0 0).lanes.length = 1 ∧ (∀ x ∈ (slottedPages.2.liveParts 0).flatten, ∀ j n, j + n ≤ x.2.length →
      slottedPages.2.slotGet slottedPages.1 (x.1 + j) n 0 = bytesNat ((x.2.drop j).take n)) ∧
    slottedPages.2.slotGet slottedPages.1 0x60000 4 0 = 0 := by
  have get (off n : ℕ) : slottedPages.2.slotGet slottedPages.1 off n 0 = 0 := by
    unfold State.slotGet
    split
    · refine bytesNat_zeros fun b hb => ?_
      simp only [State.cohBytes, List.mem_map] at hb
      obtain ⟨a, -, rfl⟩ := hb
      exact cohByte_unlisted (by decide +kernel) (by decide +kernel) (by decide +kernel) (by decide +kernel) (by decide +kernel) (by decide +kernel) _ _
    · rfl
  have zero : ∀ x ∈ (slottedPages.2.liveParts 0).flatten, ∀ b ∈ x.2, b = 0 := by decide +kernel
  refine ⟨by decide +kernel, by decide +kernel, by decide +kernel, fun x hx j n _ => ?_, get _ _⟩
  rw [get, bytesNat_zeros fun b hb => zero x hx b (List.mem_of_mem_drop (List.mem_of_mem_take hb))]

/-- No free slot. -/
theorem test_witness_no_slot : { pooled with module := { pooled.module with poolCount := 0 } }.freeSlotNo = none := by decide

/-- `tlbi` with a companion: on a page, misaligned; a line that nothing caches. -/
theorem test_witness_companion :
    let s := { pooled with tlb := [page 0x10000 0x30000] }
    (∃ s', memChecks s (s.acx 0 0) .atom 8 [(0, 0x10008)] = .pass [(0, 0x10008, .ok 0x30008 0 0)] s') ∧
    (∃ v, memChecks s (s.acx 0 0) .atom 8 [(0, 0x10004)] = .trap 0x04 v) ∧ s.settle (lineOf 0x30008) 0 = s ∧
    (∃ v, s.access 0 [lineOf 0x30008] [lineOf 0x30008] = (true, v)) ∧ s.exchangeReady 0 0 0 0x10008 0x30008 0 0 = true ∧
    (∃ v, { s with dir := [⟨lineOf 0x30008, [2], [], [], []⟩] }.access 0 [lineOf 0x30008] [lineOf 0x30008] = (false, v)) ∧
    s.frameLive 0 0x30008 = true ∧ s.frameLive 3 0x30008 = false := by
  refine ⟨⟨_, rfl⟩, ⟨_, rfl⟩, by decide, ⟨_, rfl⟩, by decide, ⟨_, rfl⟩, by decide, by decide⟩

/-- `SystemAndFirmwareInstructionResults`: keys at the bound and above; a block of key bytes on a page; a request queued and none, one due and none; a team
that is saving and none; slots that an image could not read and those it could. -/
theorem test_witness_firmware :
    let s := { issuing .f [thread [(8, 0xFFF), (10, 0x10000)]] [0] with nodes := [node], tlb := [{ page 0x10000 0x30000 with u := false }] }
    Issues s (run [0]) .f .always [9, 8, 10, 11] [9, 8, 10, 11] ∧ activeLanes s (run [0]) .always = [0] ∧
    (4095 ≤ 4095 ∧ 4095 < 4096) ∧ (0x10000 % 64 = 0 ∧ 0x10020 % 64 ≠ 0) ∧ s.mgmtIn = [] ∧ s.mgmtDue = [] ∧
    (∀ t ∈ s.teams, t.saving = none) ∧ (∃ t ∈ [{ team (group .u []) with saving := some true }], t.saving ≠ none) ∧
    (∀ e ∈ s.cache, (∀ die, e.lvl ≠ .rdc die) ∧ ∀ x ∈ e.data, lineOf x.1 = e.line) ∧
    (∃ bs s', s.loadRange 0 0 0 0x10000 64 = (.ok bs, s')) ∧ 
    ∃ ps s', s.spanPages (s.acx 0 0) (pagePieces 0x10000 64) = (.ok ps, s') ∧ s'.ownOpen 0 0 0 0x10000 64 ps = false ∧ s'.coreOver 0 1 0x10000 ps = false ∧
      { s' with stores := [⟨8, 0, 0, 0, 1, .u, 0, none, false, .store, .grp, 4, [⟨0, 0, 0x30000, 0, 0, 0, 0, 0, 0, false, (0, 0), false, .wait⟩]⟩] }.coreOver 0 1 0x10000 [⟨0x30000, 64, 0, 0, false⟩] = true ∧
      (∃ v, s'.access 0 [] (pieceLines false ps) = (true, v)) ∧ ∃ v, { s' with dir := [⟨lineOf 0x30000, [2], [], [], []⟩] }.access 0 [] (pieceLines false ps) = (false, v) := by
  simp only [issues_iff]
  refine ⟨by decide, by decide, by decide, by decide, by decide, by decide, by decide, by decide, ?_, ⟨_, _, rfl⟩, _, _, rfl, by decide, by decide, by decide, ⟨_, rfl⟩, _, rfl⟩
  intro e h; exact absurd h (List.not_mem_nil)

/-! ### Faults, checks, peers, units, queues, placement, boot -/

/-- A kernel page at 2^56, shared by die 0. -/
def kernelPage : TlbEntry := { page (2 ^ 56) 0x40000 with core := none, u := false }

/-- A machine with one fault that is not posted, a ring of 64 entries at 2^56, and that page. -/
def faulty : State :=
  let s := { issuing .k [thread []] [0] with nodes := [node], faults := [{ parked with posted := false }], tlb := [kernelPage] }
  s.modDie 0 fun d => { d with kroot := 0x8000, fltw := 256, fltBase := BitVec.ofNat 64 (2 ^ 56) }

/-- `FaultsAndChecksPosted`: a ring with a place at the first kernel address; a ring disabled, full, or stalled without a reason to try again. -/
theorem test_witness_fault_post :
    let s := faulty
    (s.faults.find? fun f => f.die == 0 && !f.posted && !f.check) = some { parked with posted := false } ∧ 0 < s.dies.length ∧
    (s.die 0).fltBase ≠ 0 ∧ ((s.die 0).fltt - (s.die 0).flth).toNat ≠ 2 ^ 6 ∧ (s.die 0).fltStall = false ∧
    (2 ^ 56 ≤ (s.die 0).fltBase.toNat + 0 ∧ ((s.die 0).fltBase.toNat + 0) / 2 ^ 48 % 256 = 0 ∧ 0x40000 / 2 ^ 48 % 256 = 0 ∧ ¬2 ^ 56 ≤ 0x40000) ∧
    s.queueTeams 0 1 = [] ∧ s.queueTeams 0 0 = [0] ∧ ((s.team 0).place = .resident ∧ (s.die 0).gated = false ∧ (s.die 0).entry = [] ∧ 15 < (s.team 0).notify.length) ∧
    ((64 : Word) - 0).toNat = 2 ^ (0 + 6) ∧ ((63 : Word) - 0).toNat ≠ 2 ^ (0 + 6) ∧
    ((machine .k []).die 0).fltBase = 0 ∧ ((machine .k []).die 0).mcBase = 0 := by decide

/-- The same: the entry's bytes reach memory, a page that is missing, and a line that a machine check holds. -/
theorem test_witness_fault_bytes :
    let bs := { parked with posted := false }.bytes
    (∃ v, faulty.hwWrite (kernelAcx 0) (2 ^ 56) bs = (.done, v) ∧ 0 < v.dies.length) ∧
    (∃ v, { faulty with tlb := [] }.hwWrite (kernelAcx 0) (2 ^ 56) bs = (.none, v)) ∧
    ∃ v, { faulty with faults := { parked with check := true, cause := 3, va := 0x40000 } :: faulty.faults }.hwWrite (kernelAcx 0) (2 ^ 56) bs =
      (.later, v) :=
  ⟨⟨_, rfl, by decide⟩, ⟨_, rfl⟩, _, rfl⟩

/-- The machine, 4,000,000 cycles after a load and a store of lane 0 began to wait: the load for a line of module 1, the store for ownership. -/
def remote : State :=
  { machine .u [thread []] with
    loads := [⟨7, 0, 0, 0, 1, .u, 0, .plain false, 4, 0, [⟨0, 0, 2 ^ 50, 0, 0, 0, 0, .wait⟩]⟩],
    stores := [⟨8, 0, 0, 0, 1, .u, 0, none, false, .store, .grp, 4, [⟨0, 0, 0x30000, 0, 0, 0, 0, 0, 0, false, (0, 0), false, .wait⟩]⟩],
    invals := [(lineOf 0x30000, .l1 2)], invalAt := [(lineOf 0x30000, 1)] }.modDie 0 fun d => { d with cyc := 4000000 }

/-- The same: who waits for a line, with a check of it already raised and none; an invalidation that waits and one that does not; waits on both
sides of the limit; sources that fit their die and not. -/
theorem test_witness_checks :
    let s := remote
    (s.readersOf (lineOf (2 ^ 50))).head? = some ⟨some 0, 0, 1, [0], true, false⟩ ∧ (s.readersOf 5).head? = none ∧
    (s.remoteWait (.access 7 (2 ^ 50)) = some (⟨some 0, 0, 1, [0], true, false⟩, 0)) ∧ s.remoteWait (.access 8 0x30000) = none ∧
    s.remoteWait (.access 9 (2 ^ 50)) = none ∧ s.remoteWait (.chain 7 (2 ^ 50)) = none ∧
    (0 + 4000000 ≤ (s.die (1 / 96)).cyc ∧ ((s.modDie 0 fun d => { d with cyc := 3999999 }).die (1 / 96)).cyc < 0 + 4000000) ∧
    (lineOf 0x30000, Holder.l1 2) ∈ s.invals ∧ (lineOf 0x30000, Holder.l1 3) ∉ s.invals ∧ s.homeDie (128 * lineOf 0x30000) = some 0 ∧
    Sparse.get 0 s.invalAt (lineOf 0x30000) + 4000000 ≤ (s.die 0).cyc + 1 ∧
    (s.writersOf (lineOf 0x30000) ++ s.loadersOf (lineOf 0x30000) true).head? = some ⟨some 0, 0, 1, [0], false, true⟩ ∧
    (∀ f ∈ s.faults, ¬(f.check = true ∧ f.cause = 1 ∧ lineOf f.va = lineOf (2 ^ 50))) ∧
    (∃ f ∈ [{ parked with check := true, cause := 1, va := 0x30000 }], f.check = true ∧ f.die = 0 ∧ f.cause = 1 ∧ lineOf f.va = lineOf 0x30000) ∧
    ((s.readersOf (lineOf (2 ^ 50))).find? fun q => decide (q.core / 96 = 0)) = some ⟨some 0, 0, 1, [0], true, false⟩ ∧
    ((s.readersOf (lineOf (2 ^ 50))).find? fun q => decide (q.core / 96 = 1)) = none ∧
    (devOf 0x30000 = s.module.dev ∧ locKind (locOf 0x30000) = .dram 0 ∧ (95 / 96 = 0 ∧ 96 / 96 ≠ 0)) := by
  decide

/-- A machine whose die 0 waits for a line of module 1. -/
def waitingAgent : State := { machine .u [thread []] with unanswered := [⟨0, lineOf (2 ^ 50), 1⟩] }

/-- The same: an agent that waits for a line of module 1, and its requester, behind which no thread stands. -/
theorem test_witness_agent : waitingAgent.remoteWait (.agent 0 (2 ^ 50)) = some (⟨none, 0, 0, [], true, true⟩, 1) := by decide

/-- A firmware team of die 0 at F with a check to deliver. -/
def checked : State :=
  let t := { team (group .f [thread []]) with cores := [0] }
  let s := { State.reset with teams := [t], nodes := [node], tlb := [{ kernelPage with core := some 0 }] }
  s.modDie 0 fun d => { d with kroot := 0x8000, mcBase := BitVec.ofNat 64 (2 ^ 56), fvec := 0x3000, fwTeam := some 0, mcWait := [McRec.plain 1 0 0] }

/-- The same: a check that can be delivered. -/
theorem test_witness_check_entry :
    let s := checked
    (s.die 0).mcWait = McRec.plain 1 0 0 :: [] ∧ (s.die 0).fwTeam = some 0 ∧ (s.die 0).mcBase ≠ 0 ∧ ((s.die 0).mct - (s.die 0).mch).toNat ≠ 2 ^ 4 ∧
    (s.group 0 0).bankF.inh = false ∧ checkLanes (s.group 0 0) = some ([0], 0x1000) ∧
    ∃ u, s.hwWrite { s.acx 0 0 with level := .f } (2 ^ 56) (McRec.plain 1 0 0).bytes = (.done, u) ∧ 0 < u.dies.length ∧
      (u.die (u.coreOf 0 0 / 96)).fvec ≠ 0 ∧ 0 < (u.team 0).groups.length ∧ 0 < (u.group 0 0).lanes.length := by
  refine ⟨?_, ?_, ?_, ?_, ?_, ?_, _, rfl, ?_, ?_, ?_, ?_⟩ <;> decide

/-- `PeerAndUnitEvents`: an address of this module in memory and of its registers, one of another module, one that is not populated; a line with
another holder, with the peer alone, with an invalidation under way; a unit that is in, and a team on it that can be saved and not. -/
theorem test_witness_peers :
    let s := machine .u [thread []]
    let d (cores devs : List ℕ) : State := { s with dir := [⟨lineOf 0x30000, cores, [], devs, []⟩] }
    (devOf 0x30000 = s.module.dev ∧ s.populated 0x30000 = true ∧ (1 : ℕ) ≠ s.module.dev) ∧ devOf (2 ^ 50) ≠ s.module.dev ∧
    isDevice 0x30000 = false ∧ isDevice 0x3FF4000000000 = true ∧ s.populated 0x3FF4000000000 = true ∧ s.meetsPool 0x30000 1 = false ∧
    (∃ h ∈ (d [2] [1]).holders (lineOf 0x30000), h ≠ Holder.dev 1) ∧ (∀ h ∈ (d [] [1]).holders (lineOf 0x30000), h = Holder.dev 1) ∧
    (∀ i ∈ s.invals, i.1 ≠ lineOf 0x30000) ∧ s.module.ready = false ∧ ({ s.module with ready := true } : Module).ready = true ∧
    (lineOf (0x30000 + (128 - 1)) = lineOf 0x30000 ∧ lineOf (0x30001 + (128 - 1)) ≠ lineOf 0x30001) ∧
    (s.checkHolds 4 (lineOf 0x30000) true true = false ∧
      { s with faults := [{ parked with check := true, cause := 1, va := 0x30000 }] }.checkHolds 4 (lineOf 0x30000) true false = true ∧
      s.evicting (lineOf 0x30000) = false ∧ s.activating = false) ∧
    (s.ownLines [lineOf 0x30000]).2 = false ∧ ((d [2] []).ownLines [lineOf 0x30000]).2 = true ∧
    (s.team 0).place = .resident ∧ 1 ∉ s.module.outCores ∧ pooled.freeSlotNo = some 0 ∧ pooled.saveReady 1 = true ∧ s.freeSlotNo = none := by
  decide

/-- A line in a frame pool. -/
theorem test_witness_pool :
    let s := (machine .u []).modDie 0 fun d => { d with arnBase := 3, arnCount := 1 }
    s.meetsPool 0x30000 1 = true ∧ s.meetsPool 0x2FFFF 1 = false ∧ s.meetsPool 0x40000 1 = false := by decide

/-- A machine that is READY, with queue 0 running in address space 0 and its translations on the die. -/
def queued : State :=
  let s := machine .k [thread []]
  { s with module := { s.module with ready := true }, tlb := [{ page 0x10000 0x30000 with core := none }],
           queues := [(0, { Queue.reset with en := true, tail := 2 })] }

/-- `QueueAndPacketResults`: a backlog of the whole ring and one more; a queue that runs and one that does not; packets that are good and not; a
word that is reached; a condition that is due and not; offsets of the registers of a queue. -/
theorem test_witness_queue :
    let s := queued
    let x := s.queue 0
    (¬2 ^ (x.qsz + 6) < ((64 : Word) - x.head).toNat ∧ 2 ^ (x.qsz + 6) < ((65 : Word) - x.head).toNat) ∧
    (x.en = true ∧ x.halt = false ∧ s.module.ready = true ∧ (∀ n ∈ s.nodes, n.q = 0 → n.st ≠ .waiting)) ∧ (s.queue 1).en = false ∧
    (packet.ok = true ∧ packet.nteam.toNat ≤ s.module.ucores) ∧ { packet with nteam := 0 }.ok = false ∧
    (devBlock 0x3FF4000000000 = some (.queue 0 0) ∧ devBlock 0x3FF4000000014 = some (.queue 0 0x14) ∧ devBlock 0x3FFFFFFFFFFFF = none) ∧
    (0x10000 % 4 = 0 ∧ 0x10002 % 4 ≠ 0) ∧ x.arms = [] ∧ x.block = .free ∧
    ((s.modQueue 0 fun x => { x with block := .waitWord 0x10000 1 0 }).queue 0).block = .waitWord 0x10000 1 0 ∧ x.backlog = 2 ∧ (1 + 1 + 0 ≤ 2 ∧ 2 < 1 + 1 + 1) ∧
    (∀ n ∈ s.nodes, n.q = 0 → n.st = .complete) ∧ s.nodesAcked 0 .sys = true ∧ { s with nodes := [node], stores := remote.stores }.nodesAcked 0 .sys = false := by
  decide

/-- The same: reads and writes of a page, and of none. -/
theorem test_witness_queue_words :
    (∃ bs u, queued.readVia (queued.qAcx 0) 0x10000 4 = (.got bs, u) ∧ u.queue 0 = queued.queue 0) ∧
    (∃ u, queued.readVia (queued.qAcx 0) 0x50000 4 = (.fault, u)) ∧
    (∃ bs u, queued.writeVia (queued.qAcx 0) 0x10000 (natBytes 4 1) = (.got bs, u) ∧ u.queue 0 = queued.queue 0) ∧
    (∃ u, queued.writeVia (queued.qAcx 0) 0x50000 (natBytes 4 1) = (.fault, u)) ∧
    ∃ u, { queued with dir := [⟨lineOf 0x30000, [2], [], [], []⟩] }.writeVia (queued.qAcx 0) 0x10000 (natBytes 4 1) = (.later, u) :=
  ⟨⟨_, _, rfl, rfl⟩, ⟨_, rfl⟩, ⟨_, _, rfl, rfl⟩, ⟨_, rfl⟩, _, rfl⟩

/-- `NodesStartedAndTeamsPlaced`: a node whose turn it is, one behind another; requests that the pools never meet, not now, and now. -/
theorem test_witness_nodes :
    let n := { node with st := .waiting }
    let m := { n with p := { packet with after := true } }
    let big := { n with p := { packet with areq0 := ⟨2, 0⟩ } }
    let s := { queued with nodes := [node, m, n] }
    let u := s.modDie 0 fun d => { d with arnBase := 4, arnCount := 2, arnEn := true }
    s.nodes[2]? = some n ∧ n.st = .waiting ∧ s.queueRuns 0 = true ∧ n.p.after = false ∧
    (m.p.after = true ∧ s.nodes[0]? = some node ∧ node.q = 0 ∧ node.st ≠ .complete) ∧
    s.arenasNever big.p = true ∧ s.arenasNever n.p = false ∧ u.arenasNever big.p = false ∧
    { u with arenas := [{ arena with frames := [4] }] }.createArenas 2 big (areqs big.p) = none ∧ (u.createArenas 2 big (areqs big.p)).isSome = true ∧
    (s.writeHandles (n.acx 0) 0x10000 [(0, arena)]).1 = .got [] ∧ (s.writeHandles (n.acx 0) 0x50000 [(0, arena)]).1 = .fault ∧
    ({ s with dir := [⟨lineOf 0x30000, [2], [], [], []⟩] }.writeHandles (n.acx 0) 0x10000 [(0, arena)]).1 = .later := by decide +kernel

/-- The same: a team that is placed on the first core of its die. -/
theorem test_witness_placed :
    let s := { queued with nodes := [node], teams := [{ Team.blank with place := .waiting }] }
    s.nodes[(s.team 0).node]? = some node ∧ (s.team 0).place = .waiting ∧ s.placeNow 0 = some [1] ∧ 0 < s.teams.length := by decide +kernel

/-- The same: a team that waits already goes before a fresh one. -/
theorem test_witness_tried :
    let s := { queued with nodes := [node], teams := [{ Team.blank with place := .waiting, tried := true }, { Team.blank with place := .waiting, num := 1 }] }
    (s.team 0).tried = true ∧ (s.team 1).tried = false ∧ (s.team 0).node < 2 ^ 32 ∧ (s.team 0).num < 512 := by decide

/-- `ItemsTeamsAndRunsChosen`: nodes that have nothing to give, an item kept, coordinates, a list; a class that is ill-formed. -/
theorem test_witness_item_sources :
    let s := { queued with nodes := [node] }
    let l := { node with p := { packet with list := true, isrc := 0x10000 } }
    node.st = .running ∧ node.blocked = none ∧ node.srcDone = false ∧ node.p.list = false ∧ l.p.list = true ∧
    (2 ^ 26 ≤ 2 ^ 26 ∧ ¬2 ^ 26 ≤ 2 ^ 26 - 1) ∧ ((2 ^ 26 - 1) / 2 ^ 24 % 4 = 3) ∧
    (∀ x ∈ s.teams, x.node = 0 → x.num ≠ 1) ∧ (s.team 0).num = 0 ∧ (s.route 0 0 5 0 0).isSome = true := by decide

/-- The same: the list is read. -/
theorem test_witness_item_list :
    ∃ bs u, queued.readRange (node.acx 0) 0x10000 16 = (.got bs, u) ∧ u.nodes = queued.nodes := ⟨_, _, rfl, rfl⟩

/-- The same: the page of the list is missing, and its line is one whose read fails. -/
theorem test_witness_item_list_waits :
    (∃ u, queued.readRange (node.acx 0) 0x50000 16 = (.fault, u)) ∧
    ∃ u, { queued with faults := [{ parked with check := true, cause := 1, va := 0x30000 }] }.readRange (node.acx 0) 0x10000 16 = (.later, u) :=
  ⟨⟨_, rfl⟩, _, rfl⟩

/-- The pooled machine with a team that waited longer than the threshold and another that waits for its core. -/
def waiting : State :=
  let s := pooled
  { s with teams := [{ team { group .u [{ thread [] with hold := .nap 0 0 none }] with waited := 9 } with waitCount := 20001 },
                     { Team.blank with node := 0, place := .waiting, scr := 1 }],
           module := { s.module with outCores := addrs 2 382 } }

/-- The same: a team that is swapped out, one that is not; a slot with a team and none; starving threads and none. -/
theorem test_witness_swaps :
    let s := waiting
    let st (n : ℕ) := machine .u [{ thread [] with starve := n }]
    s.swaps 0 = true ∧ s.saveReady 0 = true ∧ s.freeSlotNo = some 0 ∧ pooled.swaps 0 = false ∧
    (pooled.slots.find? fun k => k.slot == 2) = some ⟨2, 0x1800000, 2, true, 0, false, 0, none⟩ ∧ (pooled.slots.find? fun k => k.slot == 3) = none ∧
    ((st 64).groupRuns 0 = true ∧ ((st 64).group 0 0).offer = none ∧ ∃ l ∈ (st 64).readyLanes 0 0, 64 ≤ (((st 64).group 0 0).lane l).starve) ∧
    (∀ l ∈ (st 63).readyLanes 0 0, (((st 63).group 0 0).lane l).starve < 64) := by decide +kernel

/-- The same: a saved team that may be restored, its date set. -/
theorem test_witness_restore :
    let s := { pooled with teams := (pooled.teams.take 2) ++ [{ Team.blank with node := 2, place := .saved 2, savedAt := some 0 }],
                           slots := [⟨2, 0x1800000, 2, true, 0, true, 0, none⟩] }.modDie 0 fun d => { d with cyc := 80000 }
    (s.team 2).savedAt = some 0 ∧ (0 + 4 * 20000 ≤ (s.die 0).cyc ∧ (pooled.die 0).cyc < 0 + 4 * 20000) ∧ (s.team 2).place = .saved 2 ∧ s.restorable 2 = true ∧
    (s.placeNow 2).isSome = true ∧ pooled.placeNow 2 = none := by decide +kernel

/-- The same: a saved team for which only accumulator rows are missing. -/
theorem test_witness_rows_missing :
    let s := { pooled with teams := (pooled.teams.take 2) ++ [{ Team.blank with node := 2, place := .saved 2, rows := List.range 1536 }],
                           slots := [⟨2, 0x1800000, 2, true, 0, true, 0, none⟩] }
    s.placeNow 2 = none ∧ s.waitsForCore 2 = true ∧ s.spot 2 = none ∧ ((s.spots 2).find? (s.coresFit (s.need 2))).isSome = true := by decide +kernel

/-- `BootAndManagement`: each stage; the last good module number and the first bad; each owner of the semaphore; the cycles of its lease; the
function numbers at the bounds. -/
theorem test_witness_boot :
    let s := State.reset
    (s.module.ready = false ∧ s.module.stage = 0 ∧ s.pins.image.sigOk = true ∧ s.pins.devid < 900) ∧ (899 < 900 ∧ ¬900 < 900) ∧
    s.dies.length = 4 ∧ s.module.frozen = false ∧ s.sem.owner = 0 ∧ s.sem.last = 0 ∧ (400000000 ≤ 400000000 ∧ 399999999 < 400000000) ∧
    (63 ≤ 63 ∧ 63 < 64) ∧ devBlock 0x3FF4000000000 = some (.queue 0 0) ∧ s.bfqs = [] ∧ (queued.queues.map (·.1)).Nodup ∧ queued.bfqs = [] ∧ (∀ n ∈ queued.nodes, n.fn = 1 → n.st = .complete) := by
  decide

/-- `BootAndManagement`: a function with a running grid, a row that no team has taken, and taken ones, bound to an accumulator row and to none; one of
its teams is resident, one is saved. -/
theorem test_witness_function_reset :
    let row (fn : ℕ) (void : Bool) : BRow := ⟨1, 0, 0, 0, 1, fn, void⟩
    let k : Batch := ⟨0, 0, true, 4, some 0, 1, [row 1 false, row 2 false, row 1 true]⟩
    let s := { queued with nodes := [{ node with fn := 1 }, node], bfqs := [{ bfq 1 [] with batches := [k, { k with ti := 1, base := none }] }],
                           teams := queued.teams ++ [{ team (group .u [thread []]) with place := .saved 2 }] }.modTeam 0 fun t => { t with rows := [7, 8, 9] }
    s.nodes[0]? = some { node with fn := 1 } ∧ node.st ≠ .complete ∧ node.terminated = false ∧ 0 < s.teams.length ∧ (s.team 0).node = 0 ∧
    (s.team 0).place = .resident ∧ (s.team 1).place = .saved 2 ∧ 0 < (s.group 0 0).lanes.length ∧
    ((∃ q ∈ s.bfqs, k ∈ q.batches) ∧ (k.rows[0]?).map (·.void) = some false ∧ (k.rows[2]?).map (·.void) = some true) ∧
    (k.base.bind fun base => (s.team 0).rows[base + 1 * 0]?) = some 7 ∧ (queued.queues.map (·.1)).Nodup ∧ queued.module.ready = true := by decide

/-! ### The machine as a whole -/

/-- A group that has its turn; the page of its PC is an executable one of zeros, which are NOP words. -/
def turning (ls : List Thread) : State :=
  { machine .u ls with nodes := [node], agenda := [.issue 0 0], tlb := [page 0x0 0x30000] }

/-- `StepsRunDecodedWords`: a group with no run on offer, and one with a run on offer that can issue; a word, a literal form that has no page, and a page
that is missing. -/
theorem test_witness_turn :
    let s := turning [thread [], thread []]
    let g := s.group 0 0
    s.module.frozen = false ∧ s.groupRuns 0 = true ∧ g.deadlock = none ∧ g.gatheredRun = none ∧ g.offer = none ∧
    ((s.selectRun 0 0).group 0 0).offer = some [0, 1] ∧
    (let u := ({ s with agenda := [] } : State).toSlot 0 0;
      (u.group 0 0).deadlock = none ∧ (u.group 0 0).offer = some [0, 1] ∧ (u.group 0 0).runOk [0, 1] = true ∧ u.maySlot (u.coreOf 0 0) 0 0 = true ∧
      (∀ k ∈ u.issued, k.core ≠ 1)) ∧ s.linesOpenBy (s.codeNear 1 0) 1 0x31000 8 = true ∧ s.frameLive 0 0x31000 = true ∧ s.keyClash 1 0 (lineOf 0x31000) s.nextId = false ∧
    ({ g with offer := some [1] } : Group).runOk [1] = true ∧
    (s.fetch 0 0 0x1000).1 = .word 0 0 ∧ (s.fetch 0 0 0x10000).1 = .fault 8 0 ∧ isXForm 0 = false ∧
    decode 0 0 = .ok .nop ∧ decode 0xFFFFFFFFFFFFFFF8 0 = .error 0x01 ∧ s.readyLanes 0 0 = [0, 1] ∧
    (∀ k ∈ s.readyLanes 0 0, (s.thread 0 0 k).starve < 64) := by decide +kernel

/-- `MemoryStaysCanonical`: the machine of that turn is in canonical form, its caches in order, and its step answers a next state, the lanes at the next word. -/
theorem test_witness_memory_canonical :
    (turning [thread []]).memOk ∧ (turning [thread []]).tidy ∧ ∃ t, step (turning [thread []]) = .next t ∧ (t.thread 0 0 0).pc = 0x1008 :=
  ⟨memOk_of_empty rfl, fun _ h => absurd h List.not_mem_nil, _, rfl, rfl⟩

/-- `RegisterWordsTouchRegistersOnly`: a register word that answers a next state, its result in the destination. -/
theorem test_witness_register_word :
    let s := issuing .u [thread [(8, 40), (9, 2)]] [0]
    s.cur = some (run [0]) ∧ ∃ u, exec (.iadd .always .s32 (.v 10) (.v 8) (.src (.v 9))) s = .next u ∧ (u.thread 0 0 0).v 10 = 42 :=
  ⟨rfl, _, rfl, rfl⟩

/-- `WordsRoundTrip` and `RecordsAndPacketsRoundTrip`: well-formed instructions of one word and of two, a record and a packet; a word of the
unused range. -/
theorem test_witness_words :
    (Instr.iadd .always .s32 (.v 10) (.v 8) (.src (.v 9))).wf = true ∧ (encode (.iadd .always .s32 (.v 10) (.v 8) (.src (.v 9)))).length = 1 ∧
    (Instr.or .always .b32 (.v 40) (.v 12) (.lit 0x100)).wf = true ∧ (encode (.or .always .b32 (.v 40) (.v 12) (.lit 0x100))).length = 2 ∧
    (Instr.wait 0 0x1000 1).wf = true ∧ 3 * 2 ^ 62 ≤ (0xC000000000000000 : DWord).toNat := by decide

/-- The first step after reset with a NOP word placed runs it. -/
theorem test_first_word : ∃ t, step (State.reset.withFetchWord 64 0) = .next t ∧ (t.thread 0 0 0).pc = (State.reset.withFetchWord 64 0 |>.thread 0 0 0).pc + 8 :=
  ⟨_, rfl, rfl⟩

/-! ### Worked values of the specification, one instruction each: 10 "Worked values at the borders", 11 the table under R233 -/

/-- The value of register `r` of lane 0 after the instruction, executed by a lane with the registers given. -/
def result (i : Instr) (regs : Sparse Word) (r : Nat) : Option Word :=
  match exec i (issuing .u [thread regs] [0]) with
  | .next t => some ((t.thread 0 0 0).v r)
  | _ => none

theorem test_idiv_overflow : result (.idiv .always .s32 (.v 10) (.v 8) (.src (.v 9))) [(8, 0x80000000), (9, 0xFFFFFFFF)] 10 = some 0x80000000 := by decide
theorem test_irem_overflow : result (.irem .always .s32 (.v 10) (.v 8) (.src (.v 9))) [(8, 0x80000000), (9, 0xFFFFFFFF)] 10 = some 0 := by decide
theorem test_idiv_zero : result (.idiv .always .b32 (.v 10) (.v 8) (.src (.v 9))) [(8, 7)] 10 = some 0xFFFFFFFF := by decide
theorem test_irem_zero : result (.irem .always .b32 (.v 10) (.v 8) (.src (.v 9))) [(8, 7)] 10 = some 7 := by decide
theorem test_irem_sign : result (.irem .always .s32 (.v 10) (.v 8) (.src (.imm 2))) [(8, 0xFFFFFFF9)] 10 = some 0xFFFFFFFF := by decide
theorem test_imulh_signed : result (.imulh .always .s32 (.v 10) (.v 8) (.src (.imm 2))) [(8, 0xFFFFFFFF)] 10 = some 0xFFFFFFFF := by decide
theorem test_imulh_unsigned : result (.imulh .always .b32 (.v 10) (.v 8) (.src (.imm 2))) [(8, 0xFFFFFFFF)] 10 = some 1 := by decide
theorem test_shr_beyond : result (.shr .always .b32 (.v 10) (.v 8) (.src (.imm 40))) [(8, 0x80000000)] 10 = some 0 := by decide
theorem test_sar_beyond : result (.sar .always .s32 (.v 10) (.v 8) (.src (.imm 40))) [(8, 0x80000000)] 10 = some 0xFFFFFFFF := by decide
theorem test_rol_beyond : result (.rol .always .b32 (.v 10) (.v 8) (.src (.imm 33))) [(8, 0x80000001)] 10 = some 3 := by decide
theorem test_clz_zero : result (.clz .always .b32 (.v 10) (.v 8)) [] 10 = some 32 := by decide
theorem test_ctz_zero : result (.ctz .always .b64 (.v 10) (.v 8)) [] 10 = some 64 := by decide
theorem test_bfe_signed : result (.bfe .always .s32 (.v 10) (.v 8) (.src (.v 9))) [(8, 0xF30), (9, 0x804)] 10 = some 0xFFFFFFF3 := by decide
theorem test_bfe_unsigned : result (.bfe .always .b32 (.v 10) (.v 8) (.src (.v 9))) [(8, 0xF30), (9, 0x804)] 10 = some 0xF3 := by decide
theorem test_bsel : result (.bsel .always .b32 (.v 10) (.v 8) (.lit 0x170E0400) (.v 9)) [(8, 0x44332211), (9, 0x88776655)] 10 = some 0x77EE5511 := by decide
theorem test_isat_signed : result (.isat .always .ws .s8 (.v 10) (.v 8)) [(8, 0xFFFFFED4)] 10 = some 0xFFFFFF80 := by decide
theorem test_isat_unsigned : result (.isat .always .wu .b8 (.v 10) (.v 8)) [(8, 0xFFFFFED4)] 10 = some 0xFF := by decide
theorem test_iabs_lowest : result (.iabs .always .s32 (.v 10) (.v 8)) [(8, 0x80000000)] 10 = some 0x80000000 := by decide
theorem test_iaddc_carry : result (.iaddc .always .co .b32 (.v 26) (.v 20) (.src (.v 22)) (.imm 0)) [(20, 0xFFFFFFFF), (22, 1)] 26 = some 1 := by decide
theorem test_iaddc_sum : result (.iaddc .always .sum .b32 (.v 25) (.v 21) (.src (.v 23)) (.v 26)) [(21, 1), (26, 1)] 25 = some 2 := by decide

theorem test_fadd_zero : result (.fadd .always .f32 .rne (.v 10) (.v 8) (.src (.v 9))) [(8, 0x3F800000), (9, 0xBF800000)] 10 = some 0 := by decide +kernel
theorem test_fadd_zero_down : result (.fadd .always .f32 .rd (.v 10) (.v 8) (.src (.v 9))) [(8, 0x3F800000), (9, 0xBF800000)] 10 = some 0x80000000 := by
  decide +kernel
theorem test_fmul_invalid : result (.fmul .always .f32 .rne (.v 10) (.v 8) (.src (.v 9))) [(9, 0x7F800000)] 10 = some 0x7FC00000 := by decide +kernel
theorem test_fmin_zeros : result (.fmin .always .f32 (.v 10) (.v 8) (.src (.v 9))) [(8, 0x80000000)] 10 = some 0x80000000 := by decide +kernel
theorem test_fmax_nan : result (.fmax .always .f32 (.v 10) (.v 8) (.src (.v 9))) [(8, 0x7FC00001), (9, 0x3F800000)] 10 = some 0x3F800000 := by decide +kernel
theorem test_fcmp_nan : result (.fcmp .always .ne .f32 (.v 10) (.v 8) (.src (.v 8))) [(8, 0x7FC00000)] 10 = some 1 := by decide +kernel
theorem test_frnd_half : result (.frnd .always .f32 .rne (.v 10) (.v 8)) [(8, 0xBF000000)] 10 = some 0x80000000 := by decide +kernel
theorem test_fcvt_down : result (.fcvt .always .i32 .f32 .rd (.v 10) (.v 8)) [(8, 0xC0200000)] 10 = some 0xFFFFFFFD := by decide +kernel
theorem test_fcvt_saturates : result (.fcvt .always .i32 .f32 .rne (.v 10) (.v 8)) [(8, 0x4F400000)] 10 = some 0x7FFFFFFF := by decide +kernel
theorem test_fcvt_negative : result (.fcvt .always .u32 .f32 .rne (.v 10) (.v 8)) [(8, 0xBF800000)] 10 = some 0 := by decide +kernel
theorem test_fcvt_half : result (.fcvt .always .f16 .f32 .rne (.v 10) (.v 8)) [(8, 0x477FF000)] 10 = some 0x7C00 := by decide +kernel
theorem test_fcvt_half_zero : result (.fcvt .always .f16 .f32 .rz (.v 10) (.v 8)) [(8, 0x477FF000)] 10 = some 0x7BFF := by decide +kernel

/-- 09, conversions to N8: 4.55078125, 250, −0.0009 and −∞. -/
theorem test_fcvt_n8 : [0x4091A000, 0x437A0000, 0xBA6BEDFA, 0xFF800000].map (fun x => result (.fcvt .always .n8 .f32 .rne (.v 10) (.v 8)) [(8, x)] 10) =
    [some 0x51, some 0x7F, some 0x81, some 0xFF] := by decide +kernel

/-- 11, the example under R237. -/
theorem test_dot4_exact : result (.dot4 .always .n8 .rne (.v 10) (.v 8) (.src (.v 8)) (.v 9)) [(8, 0x40404040), (9, 0x4B800000)] 10 = some 0x4B800002 := by
  decide +kernel
/-- 09 R197, 11 R238: 5.5 from element 2 of a nested block. -/
theorem test_bscl : result (.bscl .always .rne (.v 10) (.v 8) (.lit 0x0180) (.imm 1)) [(8, 0x40300000)] 10 = some 0x40B00000 := by decide +kernel
/-- 11, the example of `spk24` and `sxp24`. -/
theorem test_spk24 : result (.spk24 .always .i8 (.v 10) (.v 8)) [(8, 0x0700F903)] 10 = some 0x000D07F9 := by decide
theorem test_sxp24 : result (.sxp24 .always .i8 (.v 10) (.v 8)) [(8, 0x000D07F9)] 10 = some 0x0700F900 := by decide

end Sys2Proof.Tests
end

section
/-! The words of an instruction read back, 02 R33 to R61: each field, each row of the encoding tables, each kind of word. -/

namespace Sys2Proof

/-! ### Codes and fields read back -/

@[simp] theorem IntTy.ofCode_code (t : IntTy) : IntTy.ofCode t.code = t := by cases t <;> rfl
@[simp] theorem Fmt.ofCode_code (f : Fmt) : Fmt.ofCode f.code = f := by cases f <;> rfl
@[simp] theorem Fmt.ofCode_five : Fmt.ofCode 5#3 = .n8 := rfl
@[simp] theorem Rnd.ofCode_code (r : Rnd) : Rnd.ofCode r.code = r := by cases r <;> rfl
@[simp] theorem Scope.ofCode_code (s : Scope) : Scope.ofCode s.code = s := by cases s <;> rfl
@[simp] theorem MemW.ofCode_code (w : MemW) : MemW.ofCode w.code = w := by cases w <;> rfl
@[simp] theorem NTy.ofCode_code (t : NTy) : NTy.ofCode t.code = t := by cases t <;> rfl
@[simp] theorem EFmt.ofCode_code (f : EFmt) : EFmt.ofCode f.code = f := by cases f <;> rfl
@[simp] theorem AddcOp.ofCode_code (o : AddcOp) : AddcOp.ofCode o.code = o := by cases o <;> rfl
@[simp] theorem ICmp.ofCode_code (c : ICmp) : ICmp.ofCode c.code = c := by cases c <;> rfl
@[simp] theorem SatSrc.ofCode_code (c : SatSrc) : SatSrc.ofCode c.code = c := by cases c <;> rfl
@[simp] theorem FCmp.ofCode_code (c : FCmp) : FCmp.ofCode c.code = c := by cases c <;> rfl
@[simp] theorem LxMode.ofCode_code (m : LxMode) : LxMode.ofCode m.code = m := by cases m <;> rfl
@[simp] theorem VoteOp.ofCode_code (o : VoteOp) : VoteOp.ofCode o.code = o := by cases o <;> rfl
@[simp] theorem ScanOp.ofCode_code (o : ScanOp) : ScanOp.ofCode o.code = o := by cases o <;> rfl
@[simp] theorem AtomOp.ofCode_code (o : AtomOp) : AtomOp.ofCode o.code = o := by cases o <;> rfl
@[simp] theorem SrdSel.ofCode_code (z : SrdSel) : SrdSel.ofCode z.code = z := by cases z <;> rfl
@[simp] theorem SySel.ofCode_code (z : SySel) : SySel.ofCode z.code = z := by cases z <;> rfl
@[simp] theorem PairOp.ofCode_code (o : PairOp) : PairOp.ofCode o.code = o := by cases o <;> rfl

/-! ### The parts of a field -/

section
variable (p q : BitVec 3) (r : BitVec 2) (b c : BitVec 1) (k n : BitVec 4) (i : BitVec 8)

@[simp] theorem extract_level : (r ++ i : BitVec 10).extractLsb' 8 2 = r := BitVec.extractLsb'_append_eq_left
@[simp] theorem setWidth_index : (r ++ i : BitVec 10).setWidth 8 = i := BitVec.setWidth_append_eq_right
@[simp] theorem extract_mHi : (p ++ q : BitVec 6).extractLsb' 3 3 = p := BitVec.extractLsb'_append_eq_left
@[simp] theorem setWidth_mLo : (p ++ q : BitVec 6).setWidth 3 = q := BitVec.setWidth_append_eq_right
@[simp] theorem extract_mHi_append : (p ++ r ++ b : BitVec 6).extractLsb' 3 3 = p := by
  rw [BitVec.extractLsb'_append_eq_of_le (by decide)]; exact BitVec.extractLsb'_append_eq_left
@[simp] theorem extract_rounding : (p ++ r ++ b : BitVec 6).extractLsb' 1 2 = r := by
  rw [BitVec.extractLsb'_append_eq_of_le (by decide)]; exact BitVec.extractLsb'_append_eq_right
@[simp] theorem extract_register : (b ++ k ++ c : BitVec 6).extractLsb' 1 4 = k := by
  rw [BitVec.extractLsb'_append_eq_of_le (by decide)]; exact BitVec.extractLsb'_append_eq_right
@[simp] theorem extract_operation : (p ++ b ++ 0#6 : BitVec 10).extractLsb' 7 3 = p := by
  rw [BitVec.extractLsb'_append_eq_of_le (by decide)]; exact BitVec.extractLsb'_append_eq_left
@[simp] theorem extract_target : (r ++ k ++ n : BitVec 10).extractLsb' 4 4 = k := by
  rw [BitVec.extractLsb'_append_eq_of_le (by decide)]; exact BitVec.extractLsb'_append_eq_right
@[simp] theorem setWidth_source : (r ++ k ++ n : BitVec 10).setWidth 4 = n := BitVec.setWidth_append_eq_right
@[simp] theorem setWidth_small (j : BitVec 6) : (r ++ j.setWidth 8 : BitVec 10).setWidth 6 = j := by
  rw [BitVec.setWidth_append]; simp
end

section
variable (e : Bool) (b c : BitVec 1) (k : BitVec 4)

@[simp] theorem getElem_lowBit (y : BitVec 5) : (y ++ BitVec.ofBool e : BitVec 6)[0] = e := by rw [BitVec.getElem_append]; simp
@[simp] theorem getElem_signBit (p : BitVec 3) : (p ++ BitVec.ofBool e ++ 0#6 : BitVec 10)[6] = e := by
  rw [BitVec.getElem_append, dif_neg (by decide), BitVec.getElem_append, dif_pos (by decide)]; simp
@[simp] theorem getElem_highBit1 : (1#1 ++ k ++ c : BitVec 6)[5] = true := by
  rw [BitVec.getElem_append, dif_neg (by decide), BitVec.getElem_append]; rfl
@[simp] theorem getElem_highBit0 : (0#1 ++ k ++ c : BitVec 6)[5] = false := by
  rw [BitVec.getElem_append, dif_neg (by decide), BitVec.getElem_append]; rfl
@[simp] theorem getElem_reachBit : (b ++ BitVec.ofBool e ++ k : BitVec 6)[4] = e := by
  rw [BitVec.getElem_append, dif_neg (by decide), BitVec.getElem_append, dif_pos (by decide)]; simp
@[simp] theorem getElem_forceBit (y : BitVec 9) : (y ++ BitVec.ofBool e : BitVec 10)[0] = e := by rw [BitVec.getElem_append]; simp
@[simp] theorem getElem_registerField (r : RegIx) : (RegIx.enc r)[9] = false := by rw [RegIx.enc, BitVec.getElem_append]; simp
end

@[simp] theorem Guard.dec_enc (g : Guard) : Guard.dec g.enc = g := by
  cases g with
  | always => rfl
  | when neg r => revert neg r; decide

@[simp] theorem Dst.dec_enc (d : Dst) : Dst.dec d.enc = d := by
  cases d with
  | v n => simp only [Dst.dec, Dst.enc, extract_level, setWidth_index]; rfl
  | vq n => simp only [Dst.dec, Dst.enc, extract_level, setWidth_index]; rfl
  | q n => revert n; decide
  | lr => rfl

@[simp] theorem Src.dec_enc (s : Src) : Src.dec s.enc = s := by
  cases s with
  | v n => simp only [Src.dec, Src.enc, extract_level, setWidth_index]; rfl
  | q n => revert n; decide
  | lr => rfl
  | imm i => simp only [Src.dec, Src.enc, extract_level, setWidth_index]; rfl

section
variable (x : Bool) (op : BitVec 10) (g : BitVec 6) (d a b c : BitVec 10) (m : BitVec 6) (l : DWord)

@[simp] theorem Fields.gd_mk (e : Guard) : (Fields.mk x op e.enc d a b c m l).gd = e := Guard.dec_enc e
@[simp] theorem Fields.dst_mk (e : Dst) : (Fields.mk x op g e.enc a b c m l).dst = e := Dst.dec_enc e
@[simp] theorem Fields.srcA_mk (e : Src) : (Fields.mk x op g d e.enc b c m l).srcA = e := Src.dec_enc e
@[simp] theorem Fields.regB_mk (e : Src) : (Fields.mk x op g d a e.enc c m l).regB = e := Src.dec_enc e
@[simp] theorem Fields.srcC_mk (e : Src) : (Fields.mk x op g d a b e.enc m l).srcC = e := Src.dec_enc e
@[simp] theorem Fields.dIx_mk (e : RegIx) : (Fields.mk x op g (RegIx.enc e) a b c m l).dIx = e := by
  simp [Fields.dIx, RegIx.enc]
@[simp] theorem Fields.aIx_mk (e : RegIx) : (Fields.mk x op g d (RegIx.enc e) b c m l).aIx = e := by
  simp [Fields.aIx, RegIx.enc]
@[simp] theorem Fields.bIx_mk (e : RegIx) : (Fields.mk x op g d a (RegIx.enc e) c m l).bIx = e := by
  simp [Fields.bIx, RegIx.enc]
@[simp] theorem Fields.cIx_mk (e : RegIx) : (Fields.mk x op g d a b (RegIx.enc e) m l).cIx = e := by
  simp [Fields.cIx, RegIx.enc]
@[simp] theorem Fields.srcB_mk (e : SrcB) : (Fields.mk e.isX op g d a e.enc c m e.litWord).srcB = e := by
  cases e with
  | src s => exact congrArg SrcB.src (Src.dec_enc s)
  | lit w => rfl
@[simp] theorem Fields.off_mk (e : Off) : (Fields.mk e.isX op g d a e.enc c m e.litWord).off = e := by
  cases e with
  | imm i => simp [Fields.off, Off.isX, Off.enc]
  | lit w => rfl
end

/-- What the parser makes of fields, before it checks them. -/
def Fields.parsed (f : Fields) : Option Instr := (parseFind f.op.toNat parseTable).map (· f)

/-- Each row of the encoding tables is read back by the entry of its opcode: the fields of a well-formed instruction parse to it. A word `fpk` needs
its format for that: under N8 the fields are those of `fpk.n8`. -/
theorem Instr.parsed_fields {i : Instr} {f : Fields} (hw : i.wf = true) (hf : i.fields = some f) : f.parsed = some i := by
  cases i <;> cases hf
  case fpk g f r d a b =>
    have hn : f ≠ .n8 := by rintro rfl; cases hw
    refine congrArg some ?_
    simp [Fields.fmt, Fields.rm, Fields.mHi, hn]
  case tlbi g d a b c =>
    refine congrArg some ?_
    cases c <;> simp
  all_goals refine congrArg some ?_
  all_goals simp [Fields.ity, Fields.mHi, Fields.fmt, Fields.rm, Fields.nty, Fields.sc, Fields.mw, Fields.mLo]

/-! ### The word of an F-form or X-form, 02 R35 -/

theorem SrcB.litWord_eq_zero {b : SrcB} (h : b.isX = false) : b.litWord = 0 := by
  cases b with
  | src s => rfl
  | lit l => cases h

theorem Off.litWord_eq_zero {o : Off} (h : o.isX = false) : o.litWord = 0 := by
  cases o with
  | imm i => rfl
  | lit l => cases h

/-- Only an X-form has a literal word, 02 R48. -/
theorem Instr.fields_lit {i : Instr} {f : Fields} (hf : i.fields = some f) (hx : f.x = false) : f.lit = 0 := by
  cases i <;> cases hf
  all_goals simp_all [SrcB.litWord_eq_zero, Off.litWord_eq_zero]

section
variable (f : Fields)

@[simp] theorem Fields.word_kind : f.word.extractLsb' 62 2 = if f.x then 2#2 else 0#2 := by
  rw [Fields.word]
  iterate 7 rw [BitVec.extractLsb'_append_eq_of_le (by decide)]
  exact BitVec.extractLsb'_eq_self

@[simp] theorem Fields.word_op : f.word.extractLsb' 52 10 = f.op := by
  rw [Fields.word]
  iterate 6 rw [BitVec.extractLsb'_append_eq_of_le (by decide)]
  exact BitVec.extractLsb'_append_eq_right

@[simp] theorem Fields.word_g : f.word.extractLsb' 46 6 = f.g := by
  rw [Fields.word]
  iterate 5 rw [BitVec.extractLsb'_append_eq_of_le (by decide)]
  exact BitVec.extractLsb'_append_eq_right

@[simp] theorem Fields.word_d : f.word.extractLsb' 36 10 = f.d := by
  rw [Fields.word]
  iterate 4 rw [BitVec.extractLsb'_append_eq_of_le (by decide)]
  exact BitVec.extractLsb'_append_eq_right

@[simp] theorem Fields.word_a : f.word.extractLsb' 26 10 = f.a := by
  rw [Fields.word]
  iterate 3 rw [BitVec.extractLsb'_append_eq_of_le (by decide)]
  exact BitVec.extractLsb'_append_eq_right

@[simp] theorem Fields.word_b : f.word.extractLsb' 16 10 = f.b := by
  rw [Fields.word]
  iterate 2 rw [BitVec.extractLsb'_append_eq_of_le (by decide)]
  exact BitVec.extractLsb'_append_eq_right

@[simp] theorem Fields.word_c : f.word.extractLsb' 6 10 = f.c := by
  rw [Fields.word, BitVec.extractLsb'_append_eq_of_le (by decide)]
  exact BitVec.extractLsb'_append_eq_right

@[simp] theorem Fields.word_m : f.word.extractLsb' 0 6 = f.m := BitVec.extractLsb'_append_eq_right
end

@[simp] theorem Fields.isXForm_word (f : Fields) : isXForm f.word = f.x := by
  rw [isXForm, Fields.word_kind]; cases f.x <;> rfl

@[simp] theorem Fields.x_ofWord (w lit : DWord) : (Fields.ofWord w lit).x = isXForm w := rfl

/-- The fields of a word are those that it was put together from. -/
theorem Fields.ofWord_word {f : Fields} {lit : DWord} (h : lit = if f.x then f.lit else 0) (h0 : f.x = false → f.lit = 0) :
    Fields.ofWord f.word lit = f := by
  have hx : (f.word.extractLsb' 62 2 == 2#2) = f.x := f.isXForm_word
  have hl : (if f.x then lit else 0) = f.lit := by
    cases hf : f.x <;> simp_all
  simp only [Fields.ofWord, hx, hl, Fields.word_op, Fields.word_g, Fields.word_d, Fields.word_a, Fields.word_b, Fields.word_c, Fields.word_m]

/-- A word of kind 00 or 10 is put together from its fields. -/
theorem Fields.word_ofWord {w : DWord} (lit : DWord) (h : w.extractLsb' 62 2 = 0#2 ∨ w.extractLsb' 62 2 = 2#2) :
    (Fields.ofWord w lit).word = w := by
  have hk : (if (Fields.ofWord w lit).x = true then 2#2 else 0#2) = w.extractLsb' 62 2 := by
    rw [Fields.x_ofWord, isXForm]
    rcases h with h | h <;> rw [h] <;> rfl
  rw [Fields.word, hk]
  simp only [Fields.ofWord]
  iterate 7 rw [BitVec.extractLsb'_append_extractLsb'_eq_extractLsb' (by decide)]
  exact BitVec.extractLsb'_eq_self

/-! ### The P-form -/

/-- The type field of a slot reads back for the types that its operation accepts (02 R55). -/
theorem PairTy.ofCode_code {o : PairOp} {t : PairTy} (h : o.okTy t = true) : PairTy.ofCode o t.code = t := by
  cases t
  case f32 => cases o <;> cases h <;> rfl
  case fixed => cases o <;> cases h <;> rfl
  all_goals rfl

section
variable (s : Slot)

@[simp] theorem Slot.enc_op : s.enc.extractLsb' 25 6 = s.op.code := by
  rw [Slot.enc]
  iterate 5 rw [BitVec.extractLsb'_append_eq_of_le (by decide)]
  exact BitVec.extractLsb'_eq_self

@[simp] theorem Slot.enc_d : s.enc.extractLsb' 17 8 = s.d := by
  rw [Slot.enc]
  iterate 4 rw [BitVec.extractLsb'_append_eq_of_le (by decide)]
  exact BitVec.extractLsb'_append_eq_right

@[simp] theorem Slot.enc_s : s.enc.extractLsb' 7 10 = s.s.enc := by
  rw [Slot.enc]
  iterate 3 rw [BitVec.extractLsb'_append_eq_of_le (by decide)]
  exact BitVec.extractLsb'_append_eq_right

@[simp] theorem Slot.enc_ty : s.enc.extractLsb' 4 3 = s.ty.code := by
  rw [Slot.enc]
  iterate 2 rw [BitVec.extractLsb'_append_eq_of_le (by decide)]
  exact BitVec.extractLsb'_append_eq_right

@[simp] theorem Slot.enc_rm : s.enc.extractLsb' 2 2 = s.rm.code := by
  rw [Slot.enc, BitVec.extractLsb'_append_eq_of_le (by decide)]
  exact BitVec.extractLsb'_append_eq_right
end

theorem Slot.okTy_of_ok {s : Slot} (h : s.ok = true) : s.op.okTy s.ty = true := by
  rw [Slot.ok, Bool.and_eq_true] at h
  exact h.1

/-- A slot that step 4 of 02 R57 accepts reads back. -/
theorem Slot.dec_enc {s : Slot} (h : s.ok = true) : Slot.dec s.enc = s := by
  simp [Slot.dec, PairTy.ofCode_code (Slot.okTy_of_ok h)]

section
variable (a b : Slot)

@[simp] theorem pairEnc_kind : (pairEnc a b).extractLsb' 62 2 = 1#2 := by
  rw [pairEnc]
  iterate 2 rw [BitVec.extractLsb'_append_eq_of_le (by decide)]
  exact BitVec.extractLsb'_eq_self

@[simp] theorem pairEnc_slotA : (pairEnc a b).extractLsb' 31 31 = a.enc := by
  rw [pairEnc, BitVec.extractLsb'_append_eq_of_le (by decide)]
  exact BitVec.extractLsb'_append_eq_right

@[simp] theorem pairEnc_slotB : (pairEnc a b).extractLsb' 0 31 = b.enc := BitVec.extractLsb'_append_eq_right
end

/-- A word of kind 01 is put together from its slots. -/
theorem pairEnc_of_word {w : DWord} {a b : Slot} (hk : w.extractLsb' 62 2 = 1#2) (ha : a.enc = w.extractLsb' 31 31)
    (hb : b.enc = w.extractLsb' 0 31) : pairEnc a b = w := by
  rw [pairEnc, ha, hb, ← hk]
  iterate 2 rw [BitVec.extractLsb'_append_extractLsb'_eq_extractLsb' (by decide)]
  exact BitVec.extractLsb'_eq_self

/-! ### The decoder by the kind of the word, 02 R33 -/

/-- Fields decode to `i` exactly when the parser names it, its fields are these, and it is well-formed (02 R57). -/
theorem Fields.decode_eq_some {f : Fields} {i : Instr} : f.decode = some i ↔ f.parsed = some i ∧ i.fields = some f ∧ i.wf = true := by
  rw [Fields.decode, Fields.parsed]
  cases hp : parseFind f.op.toNat parseTable with
  | none => simp
  | some p =>
    simp only [Option.map_some, Option.some.injEq, beq_iff_eq, Bool.and_eq_true, Option.ite_none_right_eq_some]
    constructor
    · rintro ⟨⟨hf, hw⟩, rfl⟩
      exact ⟨rfl, hf, hw⟩
    · rintro ⟨rfl, hf, hw⟩
      exact ⟨⟨hf, hw⟩, rfl⟩

/-- Kinds 00 and 10: the word decodes as its fields do. -/
theorem decode_fields_iff {w lit : DWord} {i : Instr} (h : w.extractLsb' 62 2 = 0#2 ∨ w.extractLsb' 62 2 = 2#2) :
    decode w lit = .ok i ↔ (Fields.ofWord w lit).decode = some i := by
  rcases h with h | h <;> rw [decode, h] <;> cases (Fields.ofWord w lit).decode <;> simp

/-- Kind 01: the word decodes to the pair of the slots that it is put together from, if each is valid and they may stand together. -/
theorem decode_pair_iff {w lit : DWord} {i : Instr} (h : w.extractLsb' 62 2 = 1#2) :
    decode w lit = .ok i ↔ ∃ a b : Slot, i = .pairWord a b ∧ a.enc = w.extractLsb' 31 31 ∧ b.enc = w.extractLsb' 0 31 ∧
      a.ok = true ∧ b.ok = true ∧ pairOk a b = true := by
  rw [decode, h]
  constructor
  · intro hd
    simp only [BitVec.toNat_ofNat, Nat.reducePow, Nat.reduceMod] at hd
    split at hd
    · split at hd
      · rename_i hv hp
        simp only [Bool.and_eq_true, beq_iff_eq] at hv
        obtain ⟨⟨⟨ha, hb⟩, hoa⟩, hob⟩ := hv
        exact ⟨_, _, (Except.ok.inj hd).symm, ha, hb, hoa, hob, hp⟩
      · cases hd
    · cases hd
  · rintro ⟨a, b, rfl, ha, hb, hoa, hob, hp⟩
    simp [← ha, ← hb, Slot.dec_enc, hoa, hob, hp]

/-- Kind 11 is no instruction. -/
theorem decode_unused {w : DWord} (lit : DWord) (h : w.extractLsb' 62 2 = 3#2) : decode w lit = .error causeIllegal := by
  rw [decode, h]; rfl

/-- The four kinds of a first word. -/
theorem kind_cases (k : BitVec 2) : k = 0#2 ∨ k = 1#2 ∨ k = 2#2 ∨ k = 3#2 := by revert k; decide

/-! ### Both directions -/

/-- The encoding of an instruction that is no pair, word for word. -/
theorem encode_of_fields {i : Instr} {f : Fields} (hf : i.fields = some f) :
    encode i = if f.x then [f.word, f.lit] else [f.word] := by
  rw [encode, hf]
  rintro a b rfl
  cases hf

@[simp] theorem encode_pairWord (a b : Slot) : encode (.pairWord a b) = [pairEnc a b] := rfl

/-- An instruction without words of its own: neither a pair nor an instruction with fields. -/
theorem encode_of_fields_none {i : Instr} (hf : i.fields = none) (hp : ∀ a b, i ≠ .pairWord a b) : encode i = [] := by
  rw [encode, hf]
  exact hp

/-- The words of a well-formed instruction with fields decode to it. -/
theorem decode_encode_fields {i : Instr} {f : Fields} (hw : i.wf = true) (hf : i.fields = some f) {lit : DWord}
    (hl : lit = if f.x then f.lit else 0) : decode f.word lit = .ok i := by
  have hk : f.word.extractLsb' 62 2 = 0#2 ∨ f.word.extractLsb' 62 2 = 2#2 := by
    rw [Fields.word_kind]; cases f.x <;> simp
  rw [decode_fields_iff hk, Fields.ofWord_word hl (Instr.fields_lit hf), Fields.decode_eq_some]
  exact ⟨Instr.parsed_fields hw hf, hf, hw⟩

/-- The word of a well-formed pair decodes to it. -/
theorem decode_encode_pair {a b : Slot} (hw : (Instr.pairWord a b).wf = true) (lit : DWord) :
    decode (pairEnc a b) lit = .ok (.pairWord a b) := by
  have hw' : (a.ok && b.ok && pairOk a b) = true := hw
  simp only [Bool.and_eq_true] at hw'
  obtain ⟨⟨ha, hb⟩, hp⟩ := hw'
  exact (decode_pair_iff (pairEnc_kind a b)).2 ⟨a, b, rfl, (pairEnc_slotA a b).symm, (pairEnc_slotB a b).symm, ha, hb, hp⟩

@[simp] theorem isXForm_pairEnc (a b : Slot) : isXForm (pairEnc a b) = false := by rw [isXForm, pairEnc_kind]; rfl

/-- The words of an instruction: none, those of its fields, or a pair word. -/
theorem encode_cases (i : Instr) : encode i = [] ∨ (∃ f, i.fields = some f ∧ encode i = if f.x then [f.word, f.lit] else [f.word]) ∨
    ∃ a b, i = .pairWord a b := by
  by_cases hp : ∃ a b, i = .pairWord a b
  · exact .inr (.inr hp)
  · cases hf : i.fields with
    | none => exact .inl (encode_of_fields_none hf fun a b h => hp ⟨a, b, h⟩)
    | some f => exact .inr (.inl ⟨f, rfl, encode_of_fields hf⟩)

/-- R33, R48: an instruction has at most two words. -/
theorem encode_length_le (i : Instr) : (encode i).length ≤ 2 := by
  rcases encode_cases i with h | ⟨f, -, h⟩ | ⟨a, b, rfl⟩
  · simp [h]
  · rw [h]; split <;> simp
  · simp

/-- A well-formed instruction of one word decodes from it. -/
theorem decode_encode_one {i : Instr} {w : DWord} (hw : i.wf = true) (he : encode i = [w]) : isXForm w = false ∧ decode w 0 = .ok i := by
  rcases encode_cases i with h | ⟨f, hf, h⟩ | ⟨a, b, rfl⟩
  · simp [he] at h
  · cases hx : f.x <;> simp only [hx, he] at h
    · obtain rfl : w = f.word := by simpa using h
      exact ⟨by simp [hx], decode_encode_fields hw hf (by simp [hx])⟩
    · simp at h
  · obtain rfl : pairEnc a b = w := by simpa using he
    exact ⟨isXForm_pairEnc a b, decode_encode_pair hw 0⟩

/-- A well-formed instruction of two words decodes from them. -/
theorem decode_encode_two {i : Instr} {w lit : DWord} (hw : i.wf = true) (he : encode i = [w, lit]) :
    isXForm w = true ∧ decode w lit = .ok i := by
  rcases encode_cases i with h | ⟨f, hf, h⟩ | ⟨a, b, rfl⟩
  · simp [he] at h
  · cases hx : f.x <;> simp only [hx, he] at h
    · simp at h
    · obtain ⟨rfl, rfl⟩ : w = f.word ∧ lit = f.lit := by simpa using h
      exact ⟨by simp [hx], decode_encode_fields hw hf (by simp [hx])⟩
  · simp at he

/-- What decodes is well-formed and encodes back to the words it came from. -/
theorem encode_decode {w lit : DWord} {i : Instr} (hd : decode w lit = .ok i) :
    i.wf = true ∧ encode i = if isXForm w then [w, lit] else [w] := by
  have fromFields (h : w.extractLsb' 62 2 = 0#2 ∨ w.extractLsb' 62 2 = 2#2) :
      i.wf = true ∧ encode i = if isXForm w then [w, lit] else [w] := by
    obtain ⟨-, hf, hw⟩ := Fields.decode_eq_some.1 ((decode_fields_iff h).1 hd)
    refine ⟨hw, ?_⟩
    rw [encode_of_fields hf, Fields.word_ofWord lit h, Fields.x_ofWord]
    split
    · rename_i hx
      simp [Fields.ofWord, show (w.extractLsb' 62 2 == 2#2) = true from hx]
    · rfl
  rcases kind_cases (w.extractLsb' 62 2) with h | h | h | h
  · exact fromFields (.inl h)
  · obtain ⟨a, b, rfl, ha, hb, hoa, hob, hp⟩ := (decode_pair_iff h).1 hd
    have hw : pairEnc a b = w := pairEnc_of_word h ha hb
    have hwf : (a.ok && b.ok && pairOk a b) = true := by simp [hoa, hob, hp]
    refine ⟨hwf, ?_⟩
    rw [← hw]; simp
  · exact fromFields (.inr h)
  · rw [decode_unused lit h] at hd; cases hd

/-- The words of the unused range, 02 R33. -/
theorem kind_of_ge {w : DWord} (h : 3 * 2 ^ 62 ≤ w.toNat) : w.extractLsb' 62 2 = 3#2 := by
  apply BitVec.eq_of_toNat_eq
  have := w.isLt
  simp only [BitVec.extractLsb'_toNat, Nat.shiftRight_eq_div_pow, BitVec.toNat_ofNat]
  omega

/-- Settles O56: the fields of each row read back, and each kind of word is put together from what the decoder reads in it. -/
theorem wordsRoundTrip : Obligations.WordsRoundTrip := by
  unfold Obligations.WordsRoundTrip
  exact ⟨fun i hw => ⟨fun w he => decode_encode_one hw he, fun w lit he => decode_encode_two hw he⟩, encode_length_le,
    fun w lit i _ hd => encode_decode hd, fun w lit h => decode_unused lit (kind_of_ge h)⟩

end Sys2Proof
end

section
/-! The P-form, 02 R51 to R56: each slot computes what the F-form of its mnemonic does. -/

namespace Sys2Proof.Machine

/-- A slot with two sources is the F-form of its mnemonic. -/
theorem exec_slotForm_binary {o : Slot} (g : Guard) (d : Dst) (x y : Src) (ho : o.ok = true) (hu : o.op.unary = false) (s : State) :
    exec (slotForm o g d x y) s = alu2 g 32 d 32 x 32 (.src y) (slotResult o) s := by
  have ht := Slot.okTy_of_ok ho
  clear ho
  obtain ⟨op, ty, rm, dst, src⟩ := o
  cases op <;> cases hu <;> cases ty <;> cases ht <;> rfl

/-- A unary slot is the F-form of its mnemonic, and its first source does not matter. -/
theorem exec_slotForm_unary {o : Slot} (g : Guard) (d : Dst) (x y : Src) (ho : o.ok = true) (hu : o.op.unary = true) (s : State) (z : DWord) :
    exec (slotForm o g d x y) s = alu1 g 32 d 32 y (slotResult o z) s := by
  have ht := Slot.okTy_of_ok ho
  clear ho
  obtain ⟨op, ty, rm, dst, src⟩ := o
  cases op <;> cases hu <;> cases ty <;> cases ht <;> rfl

theorem slotResult_unary {o : Slot} (hu : o.op.unary = true) (x y z : DWord) : slotResult o x z = slotResult o y z := by
  obtain ⟨op, ty, rm, dst, src⟩ := o
  cases op <;> cases hu <;> rfl

/-- Settles O9: each slot is the F-form of its mnemonic, and both read the thread before the word. -/
theorem pairWordResults : Obligations.PairWordResults := by
  unfold Obligations.PairWordResults
  refine ⟨fun a b s c h => perLane_issues _ h, fun o g d x y ho => ?_⟩
  cases hu : o.op.unary with
  | true => exact computes_alu1 (fun s => exec_slotForm_unary g d x y ho hu s 0) fun t => slotResult_unary hu _ _ _
  | false => exact computes_alu2 (exec_slotForm_binary g d x y ho hu) fun t => rfl

end Sys2Proof.Machine
end

section
/-! A step and the word that it runs, 14 R295 to R298, 15 R341, 16 R354. -/

namespace Sys2Proof.Machine

/-! ### The least of a list -/

theorem minBy_eq_none {α : Type} {key : α → ℕ} {l : List α} : minBy key l = none ↔ l = [] := by
  cases l with
  | nil => simp [minBy]
  | cons x t =>
    simp only [minBy, reduceCtorEq, iff_false]
    split
    · exact Option.some_ne_none x
    · split <;> exact Option.some_ne_none _

theorem minBy_spec {α : Type} {key : α → ℕ} {l : List α} {x : α} (h : minBy key l = some x) : x ∈ l ∧ ∀ y ∈ l, key x ≤ key y := by
  induction l generalizing x with
  | nil => cases h
  | cons a t ih =>
    simp only [minBy] at h
    split at h
    · rename_i hn
      obtain rfl := Option.some.inj h
      simp [minBy_eq_none.1 hn]
    · rename_i y hy
      obtain ⟨hmem, hle⟩ := ih hy
      split at h <;> obtain rfl := Option.some.inj h
      · rename_i hlt
        exact ⟨List.mem_cons_of_mem a hmem, List.forall_mem_cons.2 ⟨hlt.le, hle⟩⟩
      · rename_i hge
        exact ⟨List.mem_cons_self, List.forall_mem_cons.2 ⟨le_rfl, fun z hz => (not_lt.1 hge).trans (hle z hz)⟩⟩

/-! ### The key of a thread, 14 R296 -/

theorem Thread.key_eq_iff (t u : Thread) : t.key = u.key ↔ t.pc = u.pc ∧ t.yielded = u.yielded := by
  have ht := t.pc.isLt
  have hu := u.pc.isLt
  rw [← BitVec.toNat_inj]
  cases hy : t.yielded <;> cases hz : u.yielded <;> simp [Thread.key, hy, hz] <;> omega

/-- The order of keys: first the threads whose yield flag is clear, then by PC. -/
theorem Thread.key_le_iff (t u : Thread) :
    t.key ≤ u.key ↔ (t.yielded = true → u.yielded = true) ∧ (u.yielded = t.yielded → t.pc.toNat ≤ u.pc.toNat) := by
  have ht := t.pc.isLt
  have hu := u.pc.isLt
  cases hy : t.yielded <;> cases hz : u.yielded <;> simp [Thread.key, hy, hz] <;> omega

/-! ### The selection, 14 R296 to R298 -/

theorem State.lt_of_mem_readyLanes {s : State} {ti gi l : ℕ} (h : l ∈ s.readyLanes ti gi) : l < (s.group ti gi).lanes.length := by
  have hl : l ∈ (s.group ti gi).live := List.mem_of_mem_filter h
  simpa using List.mem_of_mem_filter hl

/-- While no thread starves, the lane that is picked has the least key. -/
theorem key_le_of_pickLane {g : Group} {ready : List ℕ} {l : ℕ} (h : pickLane g ready = some l) (hs : ∀ k ∈ ready, (g.lane k).starve < 64) :
    ∀ k ∈ ready, (g.lane l).key ≤ (g.lane k).key := by
  have he : ready.filter (fun l => decide (64 ≤ (g.lane l).starve)) = [] := by
    simpa [List.filter_eq_nil_iff] using hs
  simp only [pickLane, he, List.isEmpty_nil, if_true] at h
  exact (minBy_spec h).2

/-- A run that is picked holds the ready lanes with the key of the lane that is picked. -/
theorem pickRun_eq {g : Group} {ready : List ℕ} (h : pickRun g ready ≠ []) :
    ∃ l, pickLane g ready = some l ∧ pickRun g ready = ready.filter fun k => (g.lane k).key == (g.lane l).key := by
  rw [pickRun] at h ⊢
  cases hl : pickLane g ready with
  | none => simp [hl] at h
  | some l => exact ⟨l, rfl, rfl⟩

/-- A selection that offers a run where none was on offer offers the run that is picked. -/
theorem State.offer_selectRun {s : State} {ti gi : ℕ} {run : List ℕ} (h0 : (s.group ti gi).offer = none)
    (h1 : ((s.selectRun ti gi).group ti gi).offer = some run) : run = pickRun (s.group ti gi) (s.readyLanes ti gi) ∧ run ≠ [] := by
  cases hp : pickRun (s.group ti gi) (s.readyLanes ti gi) with
  | nil =>
    rw [State.selectRun, hp] at h1
    rw [h0] at h1
    cases h1
  | cons l ls =>
    have hmem : l ∈ s.readyLanes ti gi := by
      obtain ⟨_, _, he⟩ := pickRun_eq (g := s.group ti gi) (ready := s.readyLanes ti gi) (by simp [hp])
      exact List.mem_of_mem_filter (he ▸ hp ▸ List.mem_cons_self)
    simp only [State.selectRun, hp] at h1
    rw [State.group_modGroup_self _ (State.group_lt (State.lt_of_mem_readyLanes hmem))] at h1
    obtain rfl := Option.some.inj h1
    exact ⟨rfl, List.cons_ne_nil l ls⟩

/-! ### The turn of a group, 15 R341 -/

theorem onNext_onNext (o : Out) (f h : State → State) : onNext (onNext o f) h = onNext o fun s => h (f s) := by cases o <;> rfl

/-- The turn of a group that has a run on offer and a slot for it. -/
theorem State.issueTurn_of_maySlot {s : State} {ti gi l : ℕ} {ls : List ℕ} (hg : s.groupRuns ti = true)
    (hd : ((s.toSlot ti gi).group ti gi).deadlock = none) (ho : ((s.toSlot ti gi).group ti gi).offer = some (l :: ls))
    (hr : ((s.toSlot ti gi).group ti gi).runOk (l :: ls) = true)
    (hm : (s.toSlot ti gi).maySlot ((s.toSlot ti gi).coreOf ti gi) ti gi = true) :
    s.issueTurn ti gi = ((s.toSlot ti gi).takeSlot ti gi).runGroup ((s.toSlot ti gi).group ti gi) ti gi (l :: ls) := by
  simp [State.issueTurn, State.issueOffer, hg, hd, ho, hr, hm]

theorem instrOf_ok {w lit : DWord} {i : Instr} (h : decode w lit = .ok i) : instrOf w lit = i := by rw [instrOf, h]

theorem instrOf_error {w lit : DWord} {cause : BitVec 8} (h : decode w lit = .error cause) :
    instrOf w lit = .illegalInstruction cause w := by rw [instrOf, h]

theorem State.issueRun_word {s x : State} {ti gi : ℕ} {pc w lit : DWord} {i : Instr} (run : List ℕ)
    (hf : s.fetch ti gi pc.toNat = (.word w lit, x)) (hi : instrOf w lit = i) :
    s.issueRun ti gi run pc = exec i (x.withCur ⟨ti, gi, run, pc, wordLen w, w⟩) := by rw [State.issueRun, hf, ← hi]

theorem State.issueRun_fault {s x : State} {ti gi n : ℕ} {pc w : DWord} (run : List ℕ)
    (hf : s.fetch ti gi pc.toNat = (.fault n w, x)) :
    s.issueRun ti gi run pc = exec .fetchFault (x.withCur ⟨ti, gi, run, pc, n, w⟩) := by rw [State.issueRun, hf]

/-- The outcome of a step, from the outcome `o` of the word of a run. -/
def stepEnd (s : State) (g : Group) (ti gi : ℕ) (run : List ℕ) (pc : DWord) (o : Out) : Out :=
  onNext o fun t => State.settleStep s (t.afterIssue g ti gi run pc)

/-- A step in which a run issues: `u` is the state once its group has its slot. -/
theorem step_issue {s u : State} {ti gi l : ℕ} {ls : List ℕ} {rest : List Turn} (hf : s.module.frozen = false)
    (ha : s.agenda = .issue ti gi :: rest) (hg : s.groupRuns ti = true) (hu : ({ s with agenda := rest } : State).toSlot ti gi = u)
    (hd : (u.group ti gi).deadlock = none) (hm : u.maySlot (u.coreOf ti gi) ti gi = true) (ho : (u.group ti gi).offer = some (l :: ls))
    (hr : (u.group ti gi).runOk (l :: ls) = true) :
    step s = stepEnd s (u.group ti gi) ti gi (l :: ls) (u.thread ti gi l).pc
      (((u.takeSlot ti gi).modGroup ti gi fun g => g.toIssue (l :: ls)).issueRun ti gi (l :: ls) (u.thread ti gi l).pc) := by
  subst hu
  have hn : s.nextTurn = (.issue ti gi, { s with agenda := rest }) := by rw [State.nextTurn, ha]
  have hg' : ({ s with agenda := rest } : State).groupRuns ti = true := hg
  rw [step, if_neg (by simp [hf]), hn, State.runTurn, State.issueTurn_of_maySlot hg' hd ho hr hm, State.runGroup, onNext_onNext]
  rfl

/-- In the first slot of a cycle the first offer of its core issues. -/
theorem State.first_of_maySlot {s : State} {core ti gi : ℕ} (hm : s.maySlot core ti gi = true) (hi : ∀ k ∈ s.issued, k.core ≠ core) :
    (ti, gi) ∈ s.offers core ∧ ∀ x ∈ s.offers core, keyBefore (s.offerKey x.1 x.2) (s.offerKey ti gi) = false := by
  have he : s.issued.filter (fun k => k.core == core) = [] := by simpa [List.filter_eq_nil_iff] using hi
  simpa [State.maySlot, he] using hm

/-! ### The fetch of a word, 02 R48, 16 R354 -/

/-- A fetch of one word from main memory: its bytes as the core sees them once the line is settled. -/
theorem State.fetch_of_translate {s x : State} {ti gi va pa key gen : ℕ} (ht : s.translate (s.acx ti gi) .fetch va = (.ok pa key gen, x))
    (hd : isDevice pa = false) :
    let core := s.coreOf ti gi
    let y := x.settle (lineOf pa) key
    let w := BitVec.ofNat 64 (bytesNat ((addrs pa 8).map (y.visByte core key)))
    x.linesOpenBy (x.codeNear core key) core pa 8 = true → x.frameLive gen pa = true → x.keyClash core key (lineOf pa) x.nextId = false →
    isXForm w = false → s.fetch ti gi va = (.word w 0, y.recordCode core key pa) := by
  intro core y w hl hg hk hw
  have h1 : s.fetchOne ti gi va = (some w, y.recordCode core key pa) := by
    simp only [State.fetchOne, ht]
    rw [if_pos (by simp only [core] at hl hk; simp [hl, hg, hk]), State.codeAt, if_neg (by simp [hd])]
  simp only [State.fetch, h1, hw]
  rfl

/-- Settles O59: a step with a run on offer unfolds to the fetch, the decoder and `exec`, and a selection picks the least key. -/
theorem stepsRunDecodedWords : Obligations.StepsRunDecodedWords := by
  unfold Obligations.StepsRunDecodedWords
  refine ⟨?_, fun s core ti gi => State.first_of_maySlot, fun s ti gi va pa key gen x ht hd => State.fetch_of_translate ht hd, ?_⟩
  · intro s ti gi rest hf ha hg u g hd hm run l ls ho hrun hr
    subst hrun
    have hu : ({ s with agenda := rest } : State).toSlot ti gi = u := rfl
    clear_value u
    intro pc after v
    have hafter : ∀ o, stepEnd s g ti gi (l :: ls) pc o = after o := by intro o; cases o <;> rfl
    have hs : step s = after (v.issueRun ti gi (l :: ls) pc) := by
      rw [← hafter]; exact step_issue hf ha hg hu hd hm ho hr
    rw [hs]
    exact ⟨fun w lit x i hv hi => congrArg after (State.issueRun_word _ hv (instrOf_ok hi)),
      fun w lit x cause hv hi => congrArg after (State.issueRun_word _ hv (instrOf_error hi)),
      fun n w x hv => congrArg after (State.issueRun_fault _ hv)⟩
  · intro s ti gi l run h0 h1 hl ready x
    obtain ⟨rfl, hne⟩ := State.offer_selectRun h0 h1
    obtain ⟨p, hp, hrun⟩ := pickRun_eq hne
    have mem (k : ℕ) : k ∈ pickRun (s.group ti gi) ready ↔ k ∈ ready ∧ (s.thread ti gi k).pc = (s.thread ti gi p).pc ∧
        (s.thread ti gi k).yielded = (s.thread ti gi p).yielded := by
      rw [hrun, List.mem_filter, beq_iff_eq, Thread.key_eq_iff]; rfl
    obtain ⟨hlr, hpc, hy⟩ := (mem l).1 hl
    refine ⟨hlr, fun k => ?_, fun hs k hk => ?_⟩
    · rw [mem, hpc, hy]
    · rw [hpc, hy]
      exact (Thread.key_le_iff _ _).1 (key_le_of_pickLane hp hs k hk)

end Sys2Proof.Machine
end

section
/-! Words that compute on registers, 02 R52, 11 R240, 16 R353: whether such a word completes, waits or traps, it changes lanes of its own run. -/

namespace Sys2Proof.Machine

/-! ### States that differ in the lanes of one run -/

/-- A group that keeps its registers' blocks, its counters, and the registers and PCs of the lanes outside `lanes`. -/
structure Group.Keeps (g g' : Group) (lanes : List ℕ) : Prop where
  blocks : g'.blocks = g.blocks
  loads : g'.loads = g.loads
  stores : g'.stores = g.stores
  regs : ∀ l, l ∉ lanes → (g'.lane l).regs = (g.lane l).regs
  pc : ∀ l, l ∉ lanes → (g'.lane l).pc = (g.lane l).pc

theorem Group.keeps_refl (g : Group) (lanes : List ℕ) : g.Keeps g lanes := ⟨rfl, rfl, rfl, fun _ _ => rfl, fun _ _ => rfl⟩

theorem Group.Keeps.trans {g h k : Group} {lanes : List ℕ} (a : g.Keeps h lanes) (b : h.Keeps k lanes) : g.Keeps k lanes :=
  ⟨b.blocks.trans a.blocks, b.loads.trans a.loads, b.stores.trans a.stores, fun l hl => (b.regs l hl).trans (a.regs l hl),
    fun l hl => (b.pc l hl).trans (a.pc l hl)⟩

/-- Changes to some lanes of the run. -/
theorem Group.keeps_modLanes (g : Group) {ls lanes : List ℕ} (f : ℕ → Thread → Thread) (h : ∀ l ∈ ls, l ∈ lanes) :
    g.Keeps (g.modLanes ls f) lanes where
  blocks := rfl
  loads := rfl
  stores := rfl
  regs l hl := by rw [Group.lane_modLanes_notMem g f fun hm => hl (h l hm)]
  pc l hl := by rw [Group.lane_modLanes_notMem g f fun hm => hl (h l hm)]

/-- A lane that is no handler lane keeps its registers and its PC when a trap is taken. -/
theorem Thread.enter_other (t : Thread) (f : Bool) (vec : DWord) : (t.enter f false vec).regs = t.regs ∧ (t.enter f false vec).pc = t.pc := by
  rw [Thread.enter, if_neg Bool.false_ne_true]
  split
  · exact ⟨rfl, rfl⟩
  · split <;> exact ⟨rfl, rfl⟩

/-- A trap of the run. -/
theorem Group.keeps_trap (g : Group) (f : Bool) (vec : DWord) (lanes : List ℕ) (cause : Word) (epc tval : DWord) :
    g.Keeps (g.trap f vec lanes cause epc tval) lanes := by
  have lane (l : ℕ) (hl : l ∉ lanes) : ((g.trap f vec lanes cause epc tval).lane l).regs = (g.lane l).regs ∧
      ((g.trap f vec lanes cause epc tval).lane l).pc = (g.lane l).pc := by
    rcases Nat.lt_or_ge l g.lanes.length with h | h
    · rw [Group.trap_lane f vec lanes cause epc tval h, show lanes.contains l = false by simpa using hl]
      exact Thread.enter_other _ f vec
    · simp [Group.lane, List.getD, List.getElem?_eq_none h, List.getElem?_eq_none (Group.trap_length .. ▸ h)]
  refine ⟨?_, ?_, ?_, fun l hl => (lane l hl).1, fun l hl => (lane l hl).2⟩ <;> cases f <;> rfl

/-- A state that differs from `s` only in the lanes of the run `r`. -/
structure RunOnly (s : State) (r : Cur) (u : State) : Prop where
  state : u = { s with teams := u.teams }
  teams : ∀ tj, tj ≠ r.ti → u.team tj = s.team tj
  team : u.team r.ti = { s.team r.ti with groups := (u.team r.ti).groups }
  groups : ∀ gj, gj ≠ r.gi → u.group r.ti gj = s.group r.ti gj
  group : (s.group r.ti r.gi).Keeps (u.group r.ti r.gi) r.lanes

theorem RunOnly.trans {s u v : State} {r : Cur} (a : RunOnly s r u) (b : RunOnly u r v) : RunOnly s r v where
  state := by rw [b.state, a.state]
  teams tj h := (b.teams tj h).trans (a.teams tj h)
  team := by rw [b.team, a.team]
  groups gj h := (b.groups gj h).trans (a.groups gj h)
  group := a.group.trans b.group

/-- What lies outside the run stays as it was. -/
theorem RunOnly.outside {s u : State} {r : Cur} (h : RunOnly s r u) :
    (∀ tj, tj ≠ r.ti → u.team tj = s.team tj) ∧ u.team r.ti = { s.team r.ti with groups := (u.team r.ti).groups } ∧
    (∀ gj, gj ≠ r.gi → u.group r.ti gj = s.group r.ti gj) ∧ (u.group r.ti r.gi).blocks = (s.group r.ti r.gi).blocks ∧
    (u.group r.ti r.gi).loads = (s.group r.ti r.gi).loads ∧ (u.group r.ti r.gi).stores = (s.group r.ti r.gi).stores ∧
    ∀ l, l ∉ r.lanes → (u.thread r.ti r.gi l).regs = (s.thread r.ti r.gi l).regs ∧ (u.thread r.ti r.gi l).pc = (s.thread r.ti r.gi l).pc :=
  ⟨h.teams, h.team, h.groups, h.group.blocks, h.group.loads, h.group.stores, fun l hl => ⟨h.group.regs l hl, h.group.pc l hl⟩⟩

/-- A change of a group that is not there changes no group. -/
theorem State.group_modGroup_missing {s : State} {ti gi : ℕ} (f : Group → Group) (h : (s.team ti).groups.length ≤ gi) :
    (s.modGroup ti gi f).group ti gi = s.group ti gi := by
  rcases Nat.lt_or_ge ti s.teams.length with hl | hl
  · rw [State.group, State.modGroup, State.team_modTeam_self _ hl]
    simp [State.group, Team.group, List.getD, getElem?_updAt, List.getElem?_eq_none h]
  · simp [State.group, State.team, State.modGroup, State.modTeam, List.getD, getElem?_updAt, List.getElem?_eq_none hl]

/-- A change of the run's group that keeps what lies outside the run. -/
theorem runOnly_modGroup {s : State} {r : Cur} {f : Group → Group} (hf : ∀ g : Group, g.Keeps (f g) r.lanes) :
    RunOnly s r (s.modGroup r.ti r.gi f) where
  state := rfl
  teams tj h := State.team_modTeam_ne s _ h
  team := by
    rcases Nat.lt_or_ge r.ti s.teams.length with h | h
    · rw [State.modGroup, State.team_modTeam_self _ h]
    · simp [State.team, State.modGroup, State.modTeam, List.getD, getElem?_updAt, List.getElem?_eq_none h]
  groups gj h := State.group_modGroup_ne s f (by simpa using h)
  group := by
    rcases Nat.lt_or_ge r.gi (s.team r.ti).groups.length with h | h
    · rw [State.group_modGroup_self f h]; exact hf _
    · rw [State.group_modGroup_missing f h]; exact Group.keeps_refl ..

theorem runOnly_modLanes (s : State) (r : Cur) {ls : List ℕ} (f : ℕ → Thread → Thread) (h : ∀ l ∈ ls, l ∈ r.lanes) :
    RunOnly s r (s.modLanes r.ti r.gi ls f) := runOnly_modGroup fun g => Group.keeps_modLanes g f h

/-! ### Outcomes of a word -/

/-- What a word that computes on registers alone does to the machine: lanes of its run change, and with a trap at F that finds no vector
MODSTAT shows STAGE 0xF (16 R373). -/
def Touches (s : State) (r : Cur) (u : State) : Prop :=
  RunOnly s r u ∨ ∃ v, RunOnly s r v ∧ u = { v with module := { s.module with stage := 0xF, ready := false } }

theorem touches_trapRun (s : State) (r : Cur) (cause : ℕ) (tval : DWord) : Touches s r (trapRun s r cause tval) := by
  rcases takeTrap_cases s r.ti r.gi r.lanes cause r.pc tval with ⟨f, vec, h⟩ | h <;> rw [trapRun, h]
  · exact .inl (runOnly_modGroup fun g => Group.keeps_trap g f vec _ _ _ _)
  · exact .inr ⟨_, runOnly_modLanes s r _ fun _ h => h, rfl⟩

/-- An instruction's own part that changes only the active lanes. -/
def ChangesLanes (body : Cur → List ℕ → State → Res) : Prop :=
  ∀ c act s, ∃ f, body c act s = .done (s.modLanes c.ti c.gi act f)

/-- The word of a run whose own part changes only active lanes. -/
theorem touches_issueWord {body : Cur → List ℕ → State → Res} (hb : ChangesLanes body) (p : Priv) (g : Guard) (uses : List ℕ)
    (s : State) (r : Cur) : Touches s r (issueWord p g uses body r s) := by
  have stall {ls : List ℕ} (h : ∀ l ∈ ls, l ∈ r.lanes) : Touches s r (stallLanes s r ls) := .inl (runOnly_modLanes s r _ h)
  have active {l : ℕ} (h : l ∈ activeLanes s r g) : l ∈ r.lanes := List.mem_of_mem_filter h
  simp only [issueWord, issueNamed]
  split
  · exact touches_trapRun ..
  · split
    · exact stall fun l h => List.mem_of_mem_filter h
    · split
      · exact touches_trapRun ..
      · split
        · exact stall fun l h => active (List.mem_of_mem_filter h)
        · obtain ⟨f, hf⟩ := hb r (activeLanes s r g) s
          rw [hf]
          exact .inl ((runOnly_modLanes s r f fun l h => active h).trans (runOnly_modLanes _ r _ fun l h => h))

/-- An instruction that computes on registers alone: its own part changes only active lanes, in the frame of an ordinary word or of a gathered
one. -/
def RegisterWord (i : Instr) : Prop :=
  ∀ s, ∃ g regs body, ChangesLanes body ∧ (exec i s = ordinary .all g regs body s ∨ exec i s = gathered g regs body s)

theorem RegisterWord.touches {i : Instr} (hi : RegisterWord i) {s u : State} {r : Cur} (hc : s.cur = some r) (he : exec i s = .next u) :
    Touches s r u := by
  obtain ⟨g, regs, body, hb, h | h⟩ := hi s <;> rw [h] at he
  · rw [ordinary_next _ _ _ _ hc] at he
    cases he
    exact touches_issueWord hb ..
  · simp only [gathered, hc] at he
    split at he <;> cases he
    · exact touches_issueWord hb ..
    · exact .inl (runOnly_modLanes s r _ fun _ h => h)

theorem RegisterWord.lanes {i : Instr} {g : Guard} {regs : List ℕ} {f : Cur → ℕ → Thread → Thread}
    (h : ∀ s, exec i s = ordinary .all g regs (perLane f) s) : RegisterWord i :=
  fun s => ⟨g, regs, perLane f, fun c _ _ => ⟨f c, rfl⟩, .inl (h s)⟩

theorem RegisterWord.cross {i : Instr} (m : State → Out) {g : Guard} {wd : ℕ} {d : Dst} {wa : ℕ} {a : Src} {wb : ℕ} {b : SrcB}
    (hm : ∀ s, exec i s = m s) (h : ∀ s, ∃ f, m s = crossLane g wd d wa a wb b f s) : RegisterWord i := fun s =>
  have ⟨_, hf⟩ := h s
  ⟨g, _, _, fun _ _ _ => ⟨_, rfl⟩, .inr ((hm s).trans hf)⟩

section
variable (g : Guard) (t : IntTy) (d : Dst) (a : Src) (b : SrcB) (c : Src) (f : Fmt) (ef eg : EFmt) (rm : Rnd) (n : NTy) (p q : Slot) (x y : Bool)
  (o : AddcOp) (cc : ICmp) (fc : FCmp) (ss : SatSrc) (vo : VoteOp) (sc : ScanOp) (lx : LxMode) (k : BitVec 6)

/-- The integer words of 10 R207 and the pair word. -/
def integerWords : List Instr :=
  [.iadd g t d a b, .isub g t d a b, .iaddc g o t d a b c, .imul g t d a b, .imulh g t d a b, .imad g t d a b c, .imadh g t d a b c,
    .idiv g t d a b, .irem g t d a b, .imin g t d a b, .imax g t d a b, .iabs g t d a, .ineg g t d a, .and g t d a b, .or g t d a b,
    .xor g t d a b, .andn g t d a b, .shl g t d a b, .shr g t d a b, .sar g t d a b, .rol g t d a b, .clz g t d a, .ctz g t d a, .popc g t d a,
    .brev g t d a, .bfe g t d a b, .bfi g t d a b c, .bsel g t d a b c, .sel g t d a b c, .icmp g cc t d a b, .isat g ss t d a, .add64 g d a b,
    .sub64 g d a b, .lea64 g x d a b k, .mov g t d a, .movi g t d b, .pairWord p q]

/-- The floating-point words of 11 R225. -/
def floatWords : List Instr :=
  [.fadd g f rm d a b, .fsub g f rm d a b, .fmul g f rm d a b, .ffma g f rm d a b c, .fmin g f d a b, .fmax g f d a b, .fcmp g fc f d a b,
    .fcls g f d a, .frnd g f rm d a, .fcvt g ef eg rm d a, .fpk g f rm d a b, .fpkN8 g x rm d a b c, .hadd2 g f rm d a b, .hmul2 g f rm d a b,
    .hfma2 g f rm d a b c, .hmin2 g f d a b, .hmax2 g f d a b, .sfuRcp g d a, .sfuRsq g d a, .sfuSqrt g d a, .sfuExp2 g d a, .sfuLog2 g d a,
    .sfuSin g d a, .sfuCos g d a, .sfuTanh g d a]

/-- The narrow and helper words of 11 R236. -/
def narrowWords : List Instr :=
  [.dot4 g n rm d a b c, .dot8 g n rm d a b c, .bscl g rm d a b c, .bexp g n d a, .mexp g n d a b, .cmpr g n d a b, .expd g n d a b,
    .lxch g lx n d a b, .vote g vo d a, .scan g sc y n d a, .matchL g x n d a, .cxch g n d a b, .spk24 g n d a, .sxp24 g n d a, .ffs g n d a b]

theorem registerWord_integer : ∀ i ∈ integerWords g t d a b c p q x o cc ss k, RegisterWord i := by
  simp only [integerWords, List.forall_mem_cons, List.not_mem_nil, false_imp_iff, implies_true, and_true]
  exact ⟨
    .lanes fun _ => rfl, .lanes fun _ => rfl, .lanes fun _ => rfl, .lanes fun _ => rfl, .lanes fun _ => rfl, .lanes fun _ => rfl,
    .lanes fun _ => rfl, .lanes fun _ => rfl, .lanes fun _ => rfl, .lanes fun _ => rfl, .lanes fun _ => rfl, .lanes fun _ => rfl,
    .lanes fun _ => rfl, .lanes fun _ => rfl, .lanes fun _ => rfl, .lanes fun _ => rfl, .lanes fun _ => rfl, .lanes fun _ => rfl,
    .lanes fun _ => rfl, .lanes fun _ => rfl, .lanes fun _ => rfl, .lanes fun _ => rfl, .lanes fun _ => rfl, .lanes fun _ => rfl,
    .lanes fun _ => rfl, .lanes fun _ => rfl, .lanes fun _ => rfl, .lanes fun _ => rfl, .lanes fun _ => rfl, .lanes fun _ => rfl,
    .lanes fun _ => rfl, .lanes fun _ => rfl, .lanes fun _ => rfl, .lanes fun _ => rfl, .lanes fun _ => rfl, .lanes fun _ => rfl,
    .lanes fun _ => rfl⟩

theorem registerWord_float : ∀ i ∈ floatWords g d a b c f ef eg rm x fc, RegisterWord i := by
  simp only [floatWords, List.forall_mem_cons, List.not_mem_nil, false_imp_iff, implies_true, and_true]
  exact ⟨
    .lanes fun _ => rfl, .lanes fun _ => rfl, .lanes fun _ => rfl, .lanes fun _ => rfl, .lanes fun _ => rfl, .lanes fun _ => rfl,
    .lanes fun _ => rfl, .lanes fun _ => rfl, .lanes fun _ => rfl, .lanes fun _ => rfl, .lanes fun _ => rfl, .lanes fun _ => rfl,
    .lanes fun _ => rfl, .lanes fun _ => rfl, .lanes fun _ => rfl, .lanes fun _ => rfl, .lanes fun _ => rfl, .lanes fun _ => rfl,
    .lanes fun _ => rfl, .lanes fun _ => rfl, .lanes fun _ => rfl, .lanes fun _ => rfl, .lanes fun _ => rfl, .lanes fun _ => rfl,
    .lanes fun _ => rfl⟩

theorem registerWord_narrow : ∀ i ∈ narrowWords g d a b c rm n x y vo sc lx, RegisterWord i := by
  simp only [narrowWords, List.forall_mem_cons, List.not_mem_nil, false_imp_iff, implies_true, and_true]
  exact ⟨.lanes fun _ => rfl, .lanes fun _ => rfl, .lanes fun _ => rfl, .lanes fun _ => rfl, .lanes fun _ => rfl,
    .cross (execCmpr g n d a b) (fun _ => rfl) fun _ => ⟨_, rfl⟩, .cross (execExpd g n d a b) (fun _ => rfl) fun _ => ⟨_, rfl⟩,
    .cross (execLxch g lx n d a b) (fun _ => rfl) fun _ => ⟨_, rfl⟩, .cross (execVote g vo d a) (fun _ => rfl) fun _ => ⟨_, rfl⟩,
    .cross (execScan g sc y n d a) (fun _ => rfl) fun _ => ⟨_, rfl⟩, .cross (execMatchL g x n d a) (fun _ => rfl) fun _ => ⟨_, rfl⟩,
    .cross (execCxch g n d a b) (fun _ => rfl) fun _ => ⟨_, rfl⟩, .lanes fun _ => rfl, .lanes fun _ => rfl, .lanes fun _ => rfl⟩
end

/-- Settles O60: each of these words changes the active lanes alone, in one of two frames. -/
theorem registerWordsTouchRegistersOnly : Obligations.RegisterWordsTouchRegistersOnly := by
  unfold Obligations.RegisterWordsTouchRegistersOnly
  intro g t d a b c f ef eg rm n p q x y o cc fc ss vo sc lx k i hi s u r hc he
  have hi : i ∈ integerWords g t d a b c p q x o cc ss k ++ (floatWords g d a b c f ef eg rm x fc ++
      narrowWords g d a b c rm n x y vo sc lx) := hi
  have hw : RegisterWord i := by
    rcases List.mem_append.1 hi with h | h
    · exact registerWord_integer g t d a b c p q x o cc ss k i h
    rcases List.mem_append.1 h with h | h
    · exact registerWord_float g d a b c f ef eg rm x fc i h
    · exact registerWord_narrow g d a b c rm n x y vo sc lx i h
  rcases hw.touches hc he with h | ⟨v, h, rfl⟩
  · exact ⟨by rw [h.state], .inl (by rw [h.state]), h.outside⟩
  · exact ⟨by rw [h.state], .inr rfl, h.outside⟩

end Sys2Proof.Machine
end

section
/-! The checks that come before a word's own part, 08 R172, 16 R353, R372: each word is issued through the shared frame `issueNamed`, whose level
check and claim check then say what traps. -/

namespace Sys2Proof.Machine

/-! ### The claim check -/

/-- The lowest element of a list is what `minBy` finds. -/
theorem minBy_id_eq_some {l : List ℕ} {x : ℕ} (hx : x ∈ l) (low : ∀ y ∈ l, x ≤ y) : minBy id l = some x := by
  rcases h : minBy id l with _ | z
  · rw [minBy_eq_none.1 h] at hx
    exact absurd hx List.not_mem_nil
  · obtain ⟨hz, hmin⟩ := minBy_spec h
    exact congrArg some (Nat.le_antisymm (hmin x hx) (low z hz))

theorem minBy_id_eq_some_iff {l : List ℕ} {x : ℕ} : minBy id l = some x ↔ x ∈ l ∧ ∀ y ∈ l, x ≤ y :=
  ⟨fun h => minBy_spec h, fun h => minBy_id_eq_some h.1 h.2⟩

/-- The claim check finds `x` where `x` is the lowest register named at or above the claim of one of the lanes. -/
theorem claimFail_eq_some_iff {s : State} {c : Cur} {ls regs : List ℕ} {x : ℕ} :
    claimFail s c ls regs = some x ↔ (x ∈ regs ∧ ∃ l ∈ ls, 16 * (s.thread c.ti c.gi l).claim ≤ x) ∧
      ∀ y ∈ regs, (∃ l ∈ ls, 16 * (s.thread c.ti c.gi l).claim ≤ y) → x ≤ y := by
  simp only [claimFail, minBy_id_eq_some_iff, List.mem_filter, List.any_eq_true, decide_eq_true_eq, and_imp]

/-- The lowest of the registers that the lanes of `act` find beyond their claims, each lane among its own. -/
theorem claimFail_lowest {s : State} {c : Cur} {act : List ℕ} {regs : ℕ → List ℕ} {x : ℕ}
    (hx : ∃ l ∈ act, x ∈ regs l ∧ 16 * (s.thread c.ti c.gi l).claim ≤ x)
    (low : ∀ l ∈ act, ∀ y ∈ regs l, y < x → y < 16 * (s.thread c.ti c.gi l).claim) :
    minBy id (act.filterMap fun l => claimFail s c [l] (regs l)) = some x := by
  have least {l : ℕ} (hl : l ∈ act) {y : ℕ} (hy : y ∈ regs l) (hc : 16 * (s.thread c.ti c.gi l).claim ≤ y) : x ≤ y :=
    Nat.le_of_not_lt fun h => Nat.not_lt.2 hc (low l hl y hy h)
  refine minBy_id_eq_some ?_ fun y hy => ?_
  · obtain ⟨l, hl, hxl, hcx⟩ := hx
    refine List.mem_filterMap.2 ⟨l, hl, claimFail_eq_some_iff.2 ⟨⟨hxl, l, List.mem_singleton_self l, hcx⟩, fun y hy hc => ?_⟩⟩
    obtain ⟨l', hl', hcy⟩ := hc
    rw [List.mem_singleton.1 hl'] at hcy
    exact least hl hy hcy
  · obtain ⟨l, hl, hf⟩ := List.mem_filterMap.1 hy
    obtain ⟨⟨hyl, l', hl', hcy⟩, -⟩ := claimFail_eq_some_iff.1 hf
    rw [List.mem_singleton.1 hl'] at hcy
    exact least hl hyl hcy

/-! ### Words that are issued through the shared frame -/

/-- Where `cond` holds, instruction `i` is issued at the levels `p` under guard `g`, and the claim check covers the guard register and `names`. -/
def IssuedAs (i : Instr) (p : Priv) (g : Guard) (names : List ℕ) (cond : State → Cur → Prop) : Prop :=
  ∀ s c, s.cur = some c → cond s c → ∃ named uses body,
    exec i s = .next (issueNamed p g named uses body c s) ∧ ∀ r, r ∈ named ↔ r ∈ names

/-- A word issued through the shared frame traps on a register beyond a claim. -/
theorem IssuedAs.claimTraps {i : Instr} {p : Priv} {g : Guard} {names : List ℕ} {cond : State → Cur → Prop} (h : IssuedAs i p g names cond) :
    ClaimTraps i p g names cond := by
  intro s c x hcur hlevel hguard hcond hx hbeyond hlow
  obtain ⟨named, uses, body, hexec, hmem⟩ := h s c hcur hcond
  have mem (r : ℕ) : r ∈ guardRegs g ++ named ↔ r ∈ guardRegs g ++ names := by simp only [List.mem_append, hmem]
  have hfail : claimFail s c (activeLanes s c g) (guardRegs g ++ named) = some x :=
    claimFail_eq_some_iff.2 ⟨⟨(mem x).2 hx, hbeyond⟩, fun y hy ⟨l, hl, hc⟩ =>
      Nat.le_of_not_lt fun hyx => Nat.not_lt.2 hc (hlow y ((mem y).1 hy) hyx l hl)⟩
  rw [hexec, issueNamed_claim uses body hlevel hguard hfail]
  rfl

/-- The same registers, named in another order. -/
theorem IssuedAs.of_mem_iff {i : Instr} {p : Priv} {g : Guard} {names names' : List ℕ} {cond : State → Cur → Prop} (h : IssuedAs i p g names cond)
    (hmem : ∀ r, r ∈ names ↔ r ∈ names') : IssuedAs i p g names' cond := fun s c hcur hcond =>
  let ⟨named, uses, body, hexec, hn⟩ := h s c hcur hcond
  ⟨named, uses, body, hexec, fun r => (hn r).trans (hmem r)⟩

/-- A word of the frame `named`. -/
theorem issuedAs_named {i : Instr} {p : Priv} {g : Guard} {names : List ℕ} (h : ∀ s, ∃ uses body, exec i s = named p g names uses body s) :
    IssuedAs i p g names fun _ _ => True := by
  intro s c hcur _
  obtain ⟨uses, body, hexec⟩ := h s
  exact ⟨names, uses, body, by rw [hexec, named, hcur], fun _ => Iff.rfl⟩

/-- A word of the frame `ordinary`. -/
theorem issuedAs_ordinary {i : Instr} {p : Priv} {g : Guard} {names : List ℕ} (h : ∀ s, ∃ body, exec i s = ordinary p g names body s) :
    IssuedAs i p g names fun _ _ => True := by
  intro s c hcur _
  obtain ⟨body, hexec⟩ := h s
  exact ⟨names, names, body, by rw [hexec, ordinary_next p g names body hcur, issueWord], fun _ => Iff.rfl⟩

/-- A gathered word, once its run is complete. -/
theorem issuedAs_gathered {i : Instr} {g : Guard} {names : List ℕ} (h : ∀ s, ∃ body, exec i s = gathered g names body s) :
    IssuedAs i .all g names fun s c => ∀ l ∈ gatherSet s c, l ∈ c.lanes := by
  intro s c hcur hall
  obtain ⟨body, hexec⟩ := h s
  refine ⟨names, names, body, ?_, fun _ => Iff.rfl⟩
  simp only [hexec, gathered, hcur, List.all_eq_true, List.contains_iff_mem]
  rw [if_pos hall, issueWord]

/-- A word of the matrix engine issues on a core that has one. -/
theorem matrixWord_issues {s : State} {c : Cur} (g : Guard) (names : List ℕ) (body : Cur → List ℕ → State → Res) (hcur : s.cur = some c)
    (hcore : isFwCore (s.coreOf c.ti c.gi) = false) : matrixWord g names body s = .next (issueWord .all g names body c s) := by
  simp [matrixWord, hcur, hcore]

/-- A word of the matrix engine. -/
theorem issuedAs_matrix {i : Instr} {g : Guard} {names : List ℕ} (h : ∀ s, ∃ body, exec i s = matrixWord g names body s) :
    IssuedAs i .all g names fun s c => isFwCore (s.coreOf c.ti c.gi) = false := by
  intro s c hcur hcore
  obtain ⟨body, hexec⟩ := h s
  exact ⟨names, names, body, by rw [hexec, matrixWord_issues g names body hcur hcore, issueWord], fun _ => Iff.rfl⟩

/-- A word traps with 0x03 at a level that it is not allowed at. -/
theorem traps_of_level {i : Instr} {p : Priv} {g : Guard} {names : List ℕ} {s : State} {c : Cur} (h : ∃ body, exec i s = ordinary p g names body s)
    (hcur : s.cur = some c) (hlevel : p.allows (s.group c.ti c.gi).level = false) :
    exec i s = .next (takeTrap s c.ti c.gi c.lanes 0x03 c.pc c.w0) := by
  obtain ⟨body, hexec⟩ := h
  rw [hexec, ordinary_privilege g names body hcur hlevel]
  rfl

end Sys2Proof.Machine
end

section
/-! The words of each kind and the registers that their claim checks cover, 02 R60, 08 R172, 16 R372. -/

namespace Sys2Proof.Machine

/-! ### Words whose registers stand in their fields -/

/-- Every word of `l` raises the claim trap on the registers listed with it, where `cond` holds. -/
def AllClaimTrap (p : Priv) (g : Guard) (cond : State → Cur → Prop) (l : List (Instr × List ℕ)) : Prop := ∀ e ∈ l, ClaimTraps e.1 p g e.2 cond

theorem allClaimTrap_nil (p : Priv) (g : Guard) (cond : State → Cur → Prop) : AllClaimTrap p g cond [] := List.forall_mem_nil _

theorem allClaimTrap_cons_iff {i : Instr} {p : Priv} {g : Guard} {names : List ℕ} {cond : State → Cur → Prop} {l : List (Instr × List ℕ)} :
    AllClaimTrap p g cond ((i, names) :: l) ↔ ClaimTraps i p g names cond ∧ AllClaimTrap p g cond l := List.forall_mem_cons

theorem claimTraps_ordinary {i : Instr} {p : Priv} {g : Guard} {names : List ℕ} (h : ∀ s, ∃ body, exec i s = ordinary p g names body s) :
    ClaimTraps i p g names (fun _ _ => True) := (issuedAs_ordinary h).claimTraps

theorem claimTraps_named {i : Instr} {p : Priv} {g : Guard} {names : List ℕ} (h : ∀ s, ∃ uses body, exec i s = named p g names uses body s) :
    ClaimTraps i p g names (fun _ _ => True) := (issuedAs_named h).claimTraps

section
variable (g : Guard) (t : IntTy) (f : Fmt) (ef eg : EFmt) (rm : Rnd) (n : NTy) (D : Dst) (a r : Src) (b : SrcB) (o : AddcOp) (cc : ICmp) (fc : FCmp)
  (ss : SatSrc) (x : Bool) (k : BitVec 6)

theorem arithmeticWords_claimTrap : AllClaimTrap .all g (fun _ _ => True)
    [(.iadd g t D a b, regs2 t.w D t.w a t.w b), (.isub g t D a b, regs2 t.w D t.w a t.w b),
      (.iaddc g o t D a b r, regs3 (o.w t) D t.w a t.w b 32 r), (.imul g t D a b, regs2 t.w D t.w a t.w b), (.imulh g t D a b, regs2 t.w D t.w a t.w b),
      (.imad g t D a b r, regs3 t.w D t.w a t.w b t.w r), (.imadh g t D a b r, regs3 t.w D t.w a t.w b t.w r),
      (.idiv g t D a b, regs2 t.w D t.w a t.w b), (.irem g t D a b, regs2 t.w D t.w a t.w b), (.imin g t D a b, regs2 t.w D t.w a t.w b),
      (.imax g t D a b, regs2 t.w D t.w a t.w b), (.iabs g t D a, regs1 t.w D t.w a), (.ineg g t D a, regs1 t.w D t.w a),
      (.and g t D a b, regs2 t.w D t.w a t.w b), (.or g t D a b, regs2 t.w D t.w a t.w b), (.xor g t D a b, regs2 t.w D t.w a t.w b),
      (.andn g t D a b, regs2 t.w D t.w a t.w b)] := by
  simp only [allClaimTrap_cons_iff, allClaimTrap_nil, and_true]
  and_intros <;> exact claimTraps_ordinary fun _ => ⟨_, rfl⟩

theorem shiftAndMoveWords_claimTrap : AllClaimTrap .all g (fun _ _ => True)
    [(.shl g t D a b, regs2 t.w D t.w a 32 b), (.shr g t D a b, regs2 t.w D t.w a 32 b), (.sar g t D a b, regs2 t.w D t.w a 32 b),
      (.rol g t D a b, regs2 t.w D t.w a 32 b), (.clz g t D a, regs1 32 D t.w a), (.ctz g t D a, regs1 32 D t.w a), (.popc g t D a, regs1 32 D t.w a),
      (.brev g t D a, regs1 t.w D t.w a), (.bfe g t D a b, regs2 t.w D t.w a 32 b), (.bfi g t D a b r, regs3 t.w D t.w a 32 b t.w r),
      (.bsel g t D a b r, regs3 32 D 32 a 32 b 32 r), (.sel g t D a b r, regs3 t.w D t.w a t.w b 32 r), (.icmp g cc t D a b, regs2 32 D t.w a t.w b),
      (.isat g ss t D a, regs1 32 D ss.w a), (.add64 g D a b, regs2 64 D 64 a 64 b), (.sub64 g D a b, regs2 64 D 64 a 64 b),
      (.lea64 g x D a b k, regs2 64 D 64 a 32 b), (.mov g t D a, regs1 t.w D t.w a), (.movi g t D b, dstRegs t.w D ++ srcBRegs t.w b)] := by
  simp only [allClaimTrap_cons_iff, allClaimTrap_nil, and_true]
  and_intros <;> exact claimTraps_ordinary fun _ => ⟨_, rfl⟩

theorem floatingPointWords_claimTrap : AllClaimTrap .all g (fun _ _ => True)
    [(.fadd g f rm D a b, regs2 32 D 32 a 32 b), (.fsub g f rm D a b, regs2 32 D 32 a 32 b), (.fmul g f rm D a b, regs2 32 D 32 a 32 b),
      (.ffma g f rm D a b r, regs3 32 D 32 a 32 b 32 r), (.fmin g f D a b, regs2 32 D 32 a 32 b), (.fmax g f D a b, regs2 32 D 32 a 32 b),
      (.fcmp g fc f D a b, regs2 32 D 32 a 32 b), (.fcls g f D a, regs1 32 D 32 a), (.frnd g f rm D a, regs1 32 D 32 a),
      (.fcvt g ef eg rm D a, regs1 32 D 32 a), (.fpk g f rm D a b, regs2 32 D 32 a 32 b), (.fpkN8 g x rm D a b r, regs3 32 D 32 a 32 b 32 r),
      (.hadd2 g f rm D a b, regs2 32 D 32 a 32 b), (.hmul2 g f rm D a b, regs2 32 D 32 a 32 b), (.hfma2 g f rm D a b r, regs3 32 D 32 a 32 b 32 r),
      (.hmin2 g f D a b, regs2 32 D 32 a 32 b), (.hmax2 g f D a b, regs2 32 D 32 a 32 b)] := by
  simp only [allClaimTrap_cons_iff, allClaimTrap_nil, and_true]
  and_intros <;> exact claimTraps_ordinary fun _ => ⟨_, rfl⟩

theorem helperWords_claimTrap : AllClaimTrap .all g (fun _ _ => True)
    [(.sfuRcp g D a, regs1 32 D 32 a), (.sfuRsq g D a, regs1 32 D 32 a), (.sfuSqrt g D a, regs1 32 D 32 a), (.sfuExp2 g D a, regs1 32 D 32 a),
      (.sfuLog2 g D a, regs1 32 D 32 a), (.sfuSin g D a, regs1 32 D 32 a), (.sfuCos g D a, regs1 32 D 32 a), (.sfuTanh g D a, regs1 32 D 32 a),
      (.dot4 g n rm D a b r, regs3 32 D 32 a 32 b 32 r), (.dot8 g n rm D a b r, regs3 32 D 32 a 32 b 32 r),
      (.bscl g rm D a b r, regs3 32 D 32 a 32 b 32 r), (.bexp g n D a, regs1 32 D 32 a), (.mexp g n D a b, regs2 32 D 32 a 32 b),
      (.spk24 g n D a, regs1 32 D 32 a), (.sxp24 g n D a, regs1 32 D 32 a), (.ffs g n D a b, regs2 32 D n.w a 32 b)] := by
  simp only [allClaimTrap_cons_iff, allClaimTrap_nil, and_true]
  and_intros <;> exact claimTraps_ordinary fun _ => ⟨_, rfl⟩
end

/-- Both slots' destinations and sources. -/
theorem pairWord_claimTraps (p q : Slot) :
    ClaimTraps (.pairWord p q) .all .always (p.d.toNat :: srcRegs 32 p.s ++ q.d.toNat :: srcRegs 32 q.s) (fun _ _ => True) :=
  claimTraps_ordinary fun _ => ⟨_, rfl⟩

section
variable (g : Guard) (sc : Scope) (w : MemW) (E : Dst) (d e : RegIx) (a v : Src) (b : SrcB) (o : Off) (op : AtomOp) (sg sys w64 : Bool) (k : BitVec 3)
  (ch cv : BitVec 4) (cls : BitVec 2) (sel : SrdSel)

theorem memoryWords_claimTrap : AllClaimTrap .all g (fun _ _ => True)
    [(.ld g w d a o, regRegs w.w d ++ srcRegs 64 a), (.ldAcq g sc w d a o, regRegs w.w d ++ srcRegs 64 a), (.st g w a o v, srcRegs 64 a ++ srcRegs w.w v),
      (.stRel g sc w a o v, srcRegs 64 a ++ srcRegs w.w v), (.stOrd g sc w a o v, srcRegs 64 a ++ srcRegs w.w v),
      (.lds g w d a o, regRegs w.w d ++ srcRegs 32 a), (.sts g w a o v, srcRegs 32 a ++ srcRegs w.w v),
      (.atom g op sg sc w64 d a b, regRegs (aw w64) d ++ srcRegs 64 a ++ atomRegs op w64 b),
      (.atomBnd g sc w64 d a b, regRegs (aw w64) d ++ srcRegs 64 a ++ srcBRegs (aw w64) b),
      (.atomTopk g sg k sc d a e, regRegs 32 d ++ srcRegs 64 a ++ [e.toNat, e.toNat + 1]), (.red g op sg sc w64 a b, srcRegs 64 a ++ srcBRegs (aw w64) b),
      (.pfL1 g a o, srcRegs 64 a), (.pfL2 g a o, srcRegs 64 a), (.cwb g sys a b, srcRegs 64 a ++ srcBRegs 32 b),
      (.cinv g a b, srcRegs 64 a ++ srcBRegs 32 b), (.cdrop g a b, srcRegs 64 a ++ srcBRegs 32 b)] := by
  simp only [allClaimTrap_cons_iff, allClaimTrap_nil, and_true]
  and_intros <;> exact claimTraps_ordinary fun _ => ⟨_, rfl⟩

theorem controlAndItemWords_claimTrap : AllClaimTrap .all g (fun _ _ => True)
    [(.br g b, srcBRegs 32 b), (.bri g a, srcRegs 64 a), (.call g d b, regRegs 64 d ++ srcBRegs 32 b), (.calli g d a, regRegs 64 d ++ srcRegs 64 a),
      (.ret g a, srcRegs 64 a), (.exit g, []), (.yield g, []), (.bar g b ch, srcBRegs 32 b), (.barArr g b ch, srcBRegs 32 b), (.barWt g ch, []),
      (.nap g d b ch, d.toNat :: srcBRegs 32 b), (.ntfy g a b ch, srcRegs 32 a ++ srcBRegs 32 b), (.take g d e, [d.toNat, d.toNat + 1, e.toNat]),
      (.relabel g b cls, srcBRegs 32 b), (.done g, []), (.itemi g d a b cls, d.toNat :: srcRegs 64 a ++ srcBRegs 32 b),
      (.flowi g d b cls, d.toNat :: srcBRegs 32 b), (.trap g b, srcBRegs 32 b), (.brk g b, srcBRegs 32 b)] := by
  simp only [allClaimTrap_cons_iff, allClaimTrap_nil, and_true]
  and_intros <;> exact claimTraps_ordinary fun _ => ⟨_, rfl⟩

/-- `cp.stop` and `cp.stat` name a token register that they do not read as their frame reads registers. -/
theorem unitWords_claimTrap : AllClaimTrap .all g (fun _ _ => True)
    [(.cpGo g d a, d.toNat :: srcRegs 64 a), (.cpStop g d, [d.toNat]), (.cpStat g d e, [d.toNat, e.toNat]),
      (.shfOpen g d a b, d.toNat :: srcRegs 64 a ++ srcBRegs 32 b), (.shfSide g d a b v, d.toNat :: srcRegs 64 a ++ srcBRegs 32 b ++ srcRegs 32 v),
      (.shfDrop g d a b, d.toNat :: srcRegs 32 a ++ srcBRegs 32 b), (.shfClose g d b, d.toNat :: srcBRegs 32 b), (.arnChk g d a, d.toNat :: srcRegs 32 a),
      (.arnWin g d a, regRegs 64 d ++ srcRegs 32 a), (.rget g b, srcBRegs 32 b), (.rput g b, srcBRegs 32 b), (.srd g E sel, dstRegs sel.w E),
      (.bfqPost g d a b, d.toNat :: srcRegs 64 a ++ srcBRegs 32 b), (.bfqTake g d a b v, d.toNat :: srcRegs 32 a ++ srcBRegs 32 b ++ srcRegs 32 v),
      (.bfqDone g d a, d.toNat :: srcRegs 32 a), (.bfqDoneWd g d a, d.toNat :: srcRegs 32 a)] := by
  simp only [allClaimTrap_cons_iff, allClaimTrap_nil, and_true]
  refine ⟨?_, claimTraps_named fun _ => ⟨_, _, rfl⟩, claimTraps_named fun _ => ⟨_, _, rfl⟩, ?_⟩
  · exact claimTraps_ordinary fun _ => ⟨_, rfl⟩
  · and_intros <;> exact claimTraps_ordinary fun _ => ⟨_, rfl⟩

theorem matrixWords_claimTrap : AllClaimTrap .all g (fun s c => isFwCore (s.coreOf c.ti c.gi) = false)
    [(.cvd g cv b, srcBRegs 32 b), (.cvdMask g cv b, srcBRegs 64 b), (.acg g d b, d.toNat :: srcBRegs 32 b), (.acp g b, srcBRegs 32 b),
      (.acz g a b, srcRegs 32 a ++ srcBRegs 32 b), (.acn g a b, srcRegs 32 a ++ srcBRegs 32 b), (.ach g d a, d.toNat :: srcRegs 32 a),
      (.acrImg g a b, srcRegs 32 a ++ srcBRegs 32 b), (.acwImg g a b, srcRegs 32 a ++ srcBRegs 32 b)] := by
  simp only [allClaimTrap_cons_iff, allClaimTrap_nil, and_true]
  and_intros <;> exact (issuedAs_matrix fun _ => ⟨_, rfl⟩).claimTraps
end

/-! ### Gathered words -/

section
variable (g : Guard) (D : Dst) (d e : RegIx) (a : Src) (b : SrcB) (n : NTy) (m : LxMode) (vo : VoteOp) (sc : ScanOp) (x : Bool)

theorem claimTraps_gathered {i : Instr} {g : Guard} {names : List ℕ} (h : ∀ s, ∃ body, exec i s = gathered g names body s) :
    ClaimTraps i .all g names fun s c => ∀ l ∈ gatherSet s c, l ∈ c.lanes := (issuedAs_gathered h).claimTraps

/-- A cross-lane word with one source: its second source is an immediate value, which names no register. -/
theorem claimTraps_gathered_unary {i : Instr} {g : Guard} {names : List ℕ} (h : ∀ s, ∃ body, exec i s = gathered g (names ++ []) body s) :
    ClaimTraps i .all g names fun s c => ∀ l ∈ gatherSet s c, l ∈ c.lanes :=
  ((issuedAs_gathered h).of_mem_iff fun r => by rw [List.append_nil]).claimTraps

theorem vote_claimTraps :
    ClaimTraps (.vote g vo D a) .all g (regs1 (if vo = .ballot then 64 else 32) D 32 a) fun s c => ∀ l ∈ gatherSet s c, l ∈ c.lanes := by
  cases vo <;> exact claimTraps_gathered_unary fun _ => ⟨_, rfl⟩

theorem gatheredWords_claimTrap : AllClaimTrap .all g (fun s c => ∀ l ∈ gatherSet s c, l ∈ c.lanes)
    [(.lxch g m n D a b, regs2 n.w D n.w a 32 b), (.vote g vo D a, regs1 (if vo = .ballot then 64 else 32) D 32 a),
      (.scan g sc x n D a, regs1 32 D 32 a), (.matchL g x n D a, regs1 64 D n.w a), (.cmpr g n D a b, regs2 n.w D n.w a 32 b),
      (.expd g n D a b, regs2 n.w D n.w a 32 b), (.cxch g n D a b, regs2 32 D 32 a 32 b), (.takeG g d e, [d.toNat, d.toNat + 1, e.toNat])] := by
  simp only [allClaimTrap_cons_iff, allClaimTrap_nil, and_true]
  refine ⟨?_, vote_claimTraps g D a vo, claimTraps_gathered_unary fun _ => ⟨_, rfl⟩, claimTraps_gathered_unary fun _ => ⟨_, rfl⟩, ?_⟩
  · exact claimTraps_gathered fun _ => ⟨_, rfl⟩
  · and_intros <;> exact claimTraps_gathered fun _ => ⟨_, rfl⟩
end

/-! ### Words of the matrix engine whose runs are as long as the lane's operand says -/

/-- The claim check among the checks for a run, where no register named outright is pending and no run goes beyond register 255. -/
theorem runChecks_claim {s : State} {c : Cur} {act statics : List ℕ} {run : ℕ → List ℕ} {x : ℕ} (hpending : pendingLanes s c act statics = [])
    (hrun : ∀ l ∈ act, ∀ r ∈ run l, r ≤ 255) (hclaim : minBy id (act.filterMap fun l => claimFail s c [l] (statics ++ run l)) = some x) :
    runChecks s c act statics run = some (.trap 0x0B (BitVec.ofNat 64 x)) := by
  have hin : (act.any fun l => (run l).any fun r => decide (255 < r)) = false := by simpa using hrun
  simp [runChecks, hpending, hin, hclaim]

/-- A word of the matrix engine whose own part begins with the checks for a run. -/
theorem runClaimTraps_of_runChecks {i : Instr} {g : Guard} {statics : List ℕ} {run : Thread → List ℕ} (body : Cur → List ℕ → State → Res)
    (hexec : ∀ s, exec i s = matrixWord g [] body s)
    (hbody : ∀ s c act r, runChecks s c act statics (fun l => run (s.thread c.ti c.gi l)) = some r → body c act s = r) :
    RunClaimTraps i g statics run := by
  intro s c x hready hcore hpending th hrun hbeyond hlow
  have hchecks := runChecks_claim hpending hrun (claimFail_lowest hbeyond hlow)
  rw [hexec, matrixWord_issues g [] body hready.cur hcore, issueWord, issueNamed_issues body hready, hbody _ _ _ _ hchecks]
  rfl

/-- The length of a conversion's run, from the count in the low byte of its control word (12 R277). -/
theorem ctlRun_eq (f : EFmt) (x : Word) : ctlRun f x = max 1 ((x.toNat % 256 * ewidth f + 31) / 32) := by
  simp [ctlRun, ctlN, bitsN]

section
variable (g : Guard) (f : EFmt) (d : RegIx) (a v : Src) (b : SrcB) (cv : BitVec 4) (reuse : Bool)

theorem acr_runClaimTraps : RunClaimTraps (.acr g f d a b) g (srcRegs 32 a ++ srcBRegs 32 b)
    fun t => addrs d.toNat (max 1 (((srcB32 t b).toNat % 256 * ewidth f + 31) / 32)) := by
  simp only [← ctlRun_eq]
  exact runClaimTraps_of_runChecks _ (fun _ => rfl) fun _ _ _ _ h => by simp only [h]

theorem acw_runClaimTraps : RunClaimTraps (.acw g f a d b) g (srcRegs 32 a ++ srcBRegs 32 b)
    fun t => addrs d.toNat (max 1 (((srcB32 t b).toNat % 256 * ewidth f + 31) / 32)) := by
  simp only [← ctlRun_eq]
  exact runClaimTraps_of_runChecks _ (fun _ => rfl) fun _ _ _ _ h => by simp only [h]

theorem mma_runClaimTraps : RunClaimTraps (.mma g cv reuse d b v) g (srcBRegs 32 b ++ srcRegs 32 v)
    fun t => addrs d.toNat ((mmaRun t b v).1 + (mmaRun t b v).2) :=
  runClaimTraps_of_runChecks _ (fun _ => rfl) fun _ _ _ _ h => by simp only [h]
end

/-! ### Words of levels K and F -/

section
variable (g : Guard) (d e : RegIx) (a v : Src) (b : SrcB) (sel : SySel) (force : Bool)

theorem syr_claimTrap : AllClaimTrap (sysReads sel) g (fun _ _ => True) [(.syr g d sel, regRegs sel.w d)] :=
  allClaimTrap_cons_iff.2 ⟨claimTraps_ordinary fun _ => ⟨_, rfl⟩, allClaimTrap_nil _ _ _⟩

theorem syw_claimTrap : AllClaimTrap (sysWrites sel) g (fun _ _ => True) [(.syw g a sel, srcRegs sel.w a)] :=
  allClaimTrap_cons_iff.2 ⟨claimTraps_ordinary fun _ => ⟨_, rfl⟩, allClaimTrap_nil _ _ _⟩

/-- `tlbi` without a companion register names none for it. -/
theorem tlbi_none_claimTraps : ClaimTraps (.tlbi g d a b none) .kf g (d.toNat :: srcRegs 64 a ++ srcBRegs 32 b) (fun _ _ => True) :=
  ((issuedAs_ordinary (names := d.toNat :: srcRegs 64 a ++ srcBRegs 32 b ++ []) fun _ => ⟨_, rfl⟩).of_mem_iff fun r => by
    rw [List.append_nil]).claimTraps

theorem kernelWords_claimTrap : AllClaimTrap .kf g (fun _ _ => True)
    [(.tlbi g d a b none, d.toNat :: srcRegs 64 a ++ srcBRegs 32 b),
      (.tlbi g d a b (some e), d.toNat :: srcRegs 64 a ++ srcBRegs 32 b ++ [e.toNat, e.toNat + 1]), (.pfack g d a v, d.toNat :: srcRegs 32 a ++ srcRegs 32 v),
      (.ctxsv g d a v, d.toNat :: srcRegs 64 a ++ srcRegs 32 v), (.ctxld g d a, d.toNat :: srcRegs 32 a), (.halt g, [])] := by
  simp only [allClaimTrap_cons_iff, allClaimTrap_nil, and_true]
  refine ⟨tlbi_none_claimTraps g d a b, ?_⟩
  and_intros <;> exact claimTraps_ordinary fun _ => ⟨_, rfl⟩

theorem firmwareWords_claimTrap : AllClaimTrap .f g (fun _ _ => True)
    [(.keyld g d a b, d.toNat :: srcRegs 32 a ++ srcBRegs 64 b), (.fwqPull g d e, [d.toNat, e.toNat, e.toNat + 1]),
      (.fwqPush g d e, [d.toNat, e.toNat, e.toNat + 1]), (.fwqAct g d e force, [d.toNat, e.toNat, e.toNat + 1])] := by
  simp only [allClaimTrap_cons_iff, allClaimTrap_nil, and_true]
  and_intros <;> exact claimTraps_ordinary fun _ => ⟨_, rfl⟩

/-! ### The level check -/

/-- No selector is read at level U. -/
theorem sysReads_not_u : (sysReads sel).allows .u = false := by cases sel <;> rfl

/-- No selector is written at level U. -/
theorem sysWrites_not_u : (sysWrites sel).allows .u = false := by cases sel <;> rfl

variable {s : State} {c : Cur}

theorem trap_at_level_u (r : Option RegIx) (hcur : s.cur = some c) (hu : (s.group c.ti c.gi).level = .u) :
    ∀ i ∈ [Instr.kret, .fret, .syr g d sel, .syw g a sel, .tlbi g d a b r, .pfack g d a v, .ctxsv g d a v, .ctxld g d a, .halt g, .keyld g d a b,
      .fwqPull g d d, .fwqPush g d d, .fwqAct g d d force], exec i s = .next (takeTrap s c.ti c.gi c.lanes 0x03 c.pc c.w0) := by
  have traps {i : Instr} {p : Priv} {g : Guard} {names : List ℕ} (h : ∃ body, exec i s = ordinary p g names body s) (hp : p.allows .u = false) :=
    traps_of_level h hcur (hu ▸ hp)
  simp only [List.forall_mem_cons, List.not_mem_nil, false_imp_iff, implies_true, and_true]
  refine ⟨traps ⟨_, rfl⟩ rfl, traps ⟨_, rfl⟩ rfl, traps ⟨_, rfl⟩ (sysReads_not_u sel), traps ⟨_, rfl⟩ (sysWrites_not_u sel), ?_⟩
  and_intros <;> exact traps ⟨_, rfl⟩ rfl

theorem trap_at_level_k (hcur : s.cur = some c) (hk : (s.group c.ti c.gi).level = .k) :
    ∀ i ∈ [Instr.fret, .syr g d .kCause, .syr g d .kEpc, .syr g d .kTval, .syr g d .kTmask, .syr g d .kStatus, .syr g d .kKscr, .syr g d .fvec,
      .syr g d .mcq, .syr g d .mch, .syr g d .mct, .syw g a .kCause, .syw g a .kEpc, .syw g a .kTval, .syw g a .kStatus, .syw g a .kKscr,
      .syw g a .fvec, .syw g a .ctxpool, .syw g a .mcq, .syw g a .mch, .keyld g d a b, .fwqPull g d d, .fwqPush g d d, .fwqAct g d d force],
      exec i s = .next (takeTrap s c.ti c.gi c.lanes 0x03 c.pc c.w0) := by
  have traps {i : Instr} {p : Priv} {g : Guard} {names : List ℕ} (h : ∃ body, exec i s = ordinary p g names body s) (hp : p.allows .k = false) :=
    traps_of_level h hcur (hk ▸ hp)
  simp only [List.forall_mem_cons, List.not_mem_nil, false_imp_iff, implies_true, and_true]
  and_intros <;> exact traps ⟨_, rfl⟩ rfl

theorem trap_at_every_level (hcur : s.cur = some c) :
    ∀ i ∈ [Instr.syw g a .tmask, .syw g a .kTmask, .syw g a .ptroot, .syw g a .asid, .syw g a .owner, .syw g a .ctxh, .syw g a .fltt,
      .syw g a .layout, .syw g a .mct], exec i s = .next (takeTrap s c.ti c.gi c.lanes 0x03 c.pc c.w0) := by
  have traps {i : Instr} {g : Guard} {names : List ℕ} (h : ∃ body, exec i s = ordinary .none g names body s) := traps_of_level h hcur rfl
  simp only [List.forall_mem_cons, List.not_mem_nil, false_imp_iff, implies_true, and_true]
  and_intros <;> exact traps ⟨_, rfl⟩
end

/-- Settles O44: every word is issued through the shared frame, which checks the level first and then the claims over the registers that it is given;
the words whose runs are read at issue repeat the claim check at the head of their own part. -/
theorem levelAndClaimChecks : Obligations.LevelAndClaimChecks := by
  unfold Obligations.LevelAndClaimChecks
  exact ⟨fun g d a v b sel r force s c hcur =>
      ⟨trap_at_level_u g d a v b sel force r hcur, trap_at_level_k g d a b force hcur, trap_at_every_level g a hcur⟩,
    fun g t D a r b o cc ss x k => ⟨arithmeticWords_claimTrap g t D a r b o, shiftAndMoveWords_claimTrap g t D a r b cc ss x k⟩,
    fun g f ef eg rm n D a r b fc x => ⟨floatingPointWords_claimTrap g f ef eg rm D a r b fc x, helperWords_claimTrap g rm n D a r b⟩,
    pairWord_claimTraps,
    fun g D d e a b n m vo sc x => gatheredWords_claimTrap g D d e a b n m vo sc x,
    fun g sc w E d e a v b o op sg sys w64 k ch cv cls sel =>
      ⟨memoryWords_claimTrap g sc w d e a v b o op sg sys w64 k, controlAndItemWords_claimTrap g d e a b ch cls, unitWords_claimTrap g E d e a v b sel,
        matrixWords_claimTrap g d a b cv, fun f reuse => ⟨acr_runClaimTraps g f d a b, acw_runClaimTraps g f d a b, mma_runClaimTraps g d v b cv reuse⟩⟩,
    fun g d e a v b sel force =>
      ⟨syr_claimTrap g d sel, syw_claimTrap g a sel, kernelWords_claimTrap g d e a v b, firmwareWords_claimTrap g d e a b force⟩⟩

end Sys2Proof.Machine
end

section
/-! Memory stays canonical and the cached copies in order, R63, R69, R97 to R99. `State.Keeps r s` says that `s` has both properties if `r` has:
one rule for each operation of the model takes it from the state before to the state after, in the order of the model's files. The operations
that write memory or cached copies are those of the first part; every other one calls them or changes other fields. -/

namespace Sys2Proof.Machine

/-! ### The relation -/

/-- `s` has canonical memory if `r` has, and cached copies in order if those of `r` are: what one operation of a step after another keeps. -/
structure State.Keeps (r s : State) : Prop where
  memOk : r.memOk → s.memOk
  tidy : r.tidy → s.tidy

section
variable {r s t : State}

theorem State.Keeps.refl (s : State) : s.Keeps s := ⟨id, id⟩

/-- An operation that keeps both. -/
theorem State.Keeps.via (h : r.Keeps s) (hm : s.memOk → t.memOk) (hc : s.tidy → t.tidy) : r.Keeps t := ⟨hm ∘ h.memOk, hc ∘ h.tidy⟩

/-- Neither memory nor a cached copy changes. -/
theorem State.Keeps.frame (h : r.Keeps s) (hm : t.mem = s.mem := by rfl) (hc : t.cache = s.cache := by rfl) : r.Keeps t :=
  h.via (State.memOk_of_mem hm) fun hs => State.tidy_of_cache hs hc

section
variable {agenda cur issued memTag frameTag dir invals invalAt againAt loads stores traps asks unanswered tlb walks faults arenas arenaGen keys
  peerKeys teams nodes slots slotDue retired chains served accRows streams rgetQ acgQ reserve shuffles side strainer bfqs wakes dies ports queues
  mgmtIn mgmtDue sent outbox carve module sem pins nextId clock freeCtr : _}

/-- Any fields but memory and the cached copies change. -/
theorem State.Keeps.update (h : r.Keeps s) :
    r.Keeps ⟨agenda, cur, issued, s.mem, memTag, frameTag, s.cache, dir, invals, invalAt, againAt, loads, stores, traps, asks, unanswered, tlb,
      walks, faults, arenas, arenaGen, keys, peerKeys, teams, nodes, slots, slotDue, retired, chains, served, accRows, streams, rgetQ, acgQ,
      reserve, shuffles, side, strainer, bfqs, wakes, dies, ports, queues, mgmtIn, mgmtDue, sent, outbox, carve, module, sem, pins, nextId,
      clock, freeCtr⟩ := h.frame
end

theorem State.Keeps.ite {c : Prop} [Decidable c] (ht : r.Keeps s) (he : r.Keeps t) : r.Keeps (if c then s else t) := by
  split <;> assumption

/-- An operation that a condition may leave out. -/
theorem State.Keeps.when {c : Prop} [Decidable c] (h : r.Keeps s) (f : r.Keeps s → r.Keeps t) : r.Keeps (if c then t else s) := .ite (f h) h

theorem State.Keeps.unless {c : Prop} [Decidable c] (h : r.Keeps s) (f : r.Keeps s → r.Keeps t) : r.Keeps (if c then s else t) := .ite h (f h)

/-- An operation done once for each element of a list. -/
theorem State.Keeps.foldl {β : Type} {f : State → β → State} {l : List β} (h : r.Keeps s) (hf : ∀ s b, r.Keeps s → r.Keeps (f s b)) :
    r.Keeps (l.foldl f s) := by
  induction l generalizing s with
  | nil => exact h
  | cons b l ih => exact ih (hf s b h)

/-- The same with a value that is carried along: `g` gives the state in it. -/
theorem State.Keeps.foldlOn {α β : Type} (g : α → State) {f : α → β → α} {a : α} {l : List β} (h : r.Keeps (g a))
    (hf : ∀ a b, r.Keeps (g a) → r.Keeps (g (f a b))) : r.Keeps (g (l.foldl f a)) := by
  induction l generalizing a with
  | nil => exact h
  | cons b l ih => exact ih (hf a b h)

/-- The state of a result that has been taken apart. -/
theorem State.Keeps.of_snd {α : Type} {o : α} {p : α × State} (h : r.Keeps p.2) (e : p = (o, t)) : r.Keeps t := by
  subst e; exact h

theorem State.Keeps.of_snd_snd {α β : Type} {o : α} {o' : β} {p : α × β × State} (h : r.Keeps p.2.2) (e : p = (o, o', t)) : r.Keeps t := by
  subst e; exact h

theorem State.Keeps.of_fst {α : Type} {o : α} {p : State × α} (h : r.Keeps p.1) (e : p = (t, o)) : r.Keeps t := by
  subst e; exact h

theorem State.Keeps.iteSnd {α : Type} {c : Prop} [Decidable c] {p q : α × State} (hp : r.Keeps p.2) (hq : r.Keeps q.2) :
    r.Keeps (if c then p else q).2 := by
  split <;> assumption

/-- The state of an operation that a condition may leave out. -/
theorem State.Keeps.of_ite {α : Type} {c : Prop} [Decidable c] {a o : α} {p : α × State} (hp : r.Keeps p.2) (h : r.Keeps s)
    (e : (if c then p else (a, s)) = (o, t)) : r.Keeps t := by
  split at e
  · exact hp.of_snd e
  · cases e; exact h

/-- The same for the state that is carried along last of three. -/
theorem State.Keeps.foldlThird {α β γ : Type} {f : α × γ × State → β → α × γ × State} {q : α × γ × State} {l : List β} (h : r.Keeps q.2.2)
    (hf : ∀ q b, r.Keeps q.2.2 → r.Keeps (f q b).2.2) : r.Keeps (l.foldl f q).2.2 :=
  .foldlOn (fun q : α × γ × State => q.2.2) h hf

/-! ### Outcomes -/

/-- The next state of an outcome, if there is one, keeps what `r` has. -/
def State.KeepsOut (r : State) : Out → Prop
  | .next t => r.Keeps t
  | _ => True

/-- The state in the result of an instruction's own part, if there is one, keeps what `r` has. -/
def State.KeepsRes (r : State) : Res → Prop
  | .done t | .moved t | .trapIn t _ _ | .later t => r.Keeps t
  | _ => True

/-- The state in what `ctxsv` comes to, if there is one, keeps what `r` has. -/
def State.KeepsSave (r : State) : SaveRes → Prop
  | .status _ t | .waits _ t | .ended t => r.Keeps t
  | .later => True

theorem State.KeepsSave.of_eq {x y : SaveRes} (hx : r.KeepsSave x) (e : x = y) : r.KeepsSave y := e ▸ hx

/-- The state in which a fetch that found no word ends, if there is one, keeps what `r` has. -/
def State.KeepsFetch (r : State) : FetchEnd → Prop
  | .over' t | .waits t => r.Keeps t
  | .fine => True

theorem State.KeepsFetch.of_eq {x y : FetchEnd} (hx : r.KeepsFetch x) (e : x = y) : r.KeepsFetch y := e ▸ hx

/-! ### The physical memory and the caches -/

theorem State.Keeps.memWrite (h : r.Keeps s) {tag cells} : r.Keeps (s.memWrite tag cells) :=
  h.via (State.memOk_memWrite tag cells) fun hs => State.tidy_of_cache hs (State.memWrite_cache ..)

theorem State.Keeps.dropLine (h : r.Keeps s) {lvl line} : r.Keeps (s.dropLine lvl line) :=
  h.via (State.memOk_of_mem rfl) (State.tidy_dropLine lvl line)

/-- Cached copies are lost. -/
theorem State.Keeps.filter (h : r.Keeps s) (hm : t.mem = s.mem) {p : CLine → Bool} (hc : t.cache = s.cache.filter p) : r.Keeps t :=
  h.via (State.memOk_of_mem hm) fun hs => State.tidy_of_subset hs fun _ he => List.mem_of_mem_filter (hc ▸ he)

theorem State.Keeps.writeBackL2 (h : r.Keeps s) {line} : r.Keeps (s.writeBackL2 line) :=
  h.via (State.memOk_writeBackL2 line) (State.tidy_writeBackL2 line)

theorem State.Keeps.loseL2 (h : r.Keeps s) {line} : r.Keeps (s.loseL2 line) := h.via (State.memOk_loseL2 line) (State.tidy_loseL2 line)

theorem State.Keeps.loseL1 (h : r.Keeps s) {core line} : r.Keeps (s.loseL1 core line) :=
  h.via (State.memOk_loseL1 core line) (State.tidy_loseL1 core line)

theorem State.Keeps.loseRdc (h : r.Keeps s) {die line} : r.Keeps (s.loseRdc die line) := h.filter rfl rfl
theorem State.Keeps.passRdc (h : r.Keeps s) {core line atomic} : r.Keeps (s.passRdc core line atomic) := .ite h (h.filter rfl rfl)

theorem State.Keeps.discardLine (h : r.Keeps s) {line} : r.Keeps (s.discardLine line) := by
  simp only [State.discardLine]
  split <;> exact h.filter rfl rfl

theorem State.Keeps.touchL2 (h : r.Keeps s) {key line} : r.Keeps (s.touchL2 key line) :=
  h.via (State.memOk_touchL2 key line) (State.tidy_touchL2 key line)

theorem State.touchL1i_mem (s : State) (core key line : ℕ) : (s.touchL1i core key line).mem = s.mem := by
  simp only [State.touchL1i]
  split
  · rfl
  · split <;> rfl

theorem State.Keeps.touchL1i (h : r.Keeps s) {core key line} : r.Keeps (s.touchL1i core key line) :=
  h.via (State.memOk_of_mem (State.touchL1i_mem ..)) (State.tidy_touchL1i core key line)

theorem State.Keeps.recallL1 (h : r.Keeps s) {line} : r.Keeps (s.recallL1 line) := h.via (State.memOk_recallL1 line) (State.tidy_recallL1 line)
theorem State.Keeps.cleanL1 (h : r.Keeps s) {line} : r.Keeps (s.cleanL1 line) := h.via (State.memOk_cleanL1 line) (State.tidy_cleanL1 line)
theorem State.Keeps.cleanL2 (h : r.Keeps s) {line} : r.Keeps (s.cleanL2 line) := h.via (State.memOk_cleanL2 line) (State.tidy_cleanL2 line)

theorem State.Keeps.recordHolder (h : r.Keeps s) {line hd} : r.Keeps (s.recordHolder line hd) :=
  h.via (State.memOk_recordHolder line hd) (State.tidy_recordHolder line hd)

theorem State.Keeps.settle (h : r.Keeps s) {line key} : r.Keeps (s.settle line key) :=
  h.via (State.memOk_settle line key) (State.tidy_settle line key)

theorem State.Keeps.fetchShared (h : r.Keeps s) {die key pa} : r.Keeps (s.fetchShared die key pa) :=
  h.via (State.memOk_fetchShared die key pa) (State.tidy_fetchShared die key pa)

theorem State.Keeps.record (h : r.Keeps s) {core key pa} : r.Keeps (s.record core key pa) :=
  h.via (State.memOk_record core key pa) (State.tidy_record core key pa)

theorem State.Keeps.recordCode (h : r.Keeps s) {core key pa} : r.Keeps (s.recordCode core key pa) := by
  have hf : r.Keeps (s.fetchShared (dieOfCore core) key pa) := h.fetchShared
  exact (hf.when fun h => h.recordHolder).touchL1i

theorem State.Keeps.takeLine (h : r.Keeps s) {key line} : r.Keeps (s.takeLine key line) :=
  h.via (State.memOk_takeLine key line) (State.tidy_takeLine key line)

theorem State.Keeps.homeWrite (h : r.Keeps s) {key cells} : r.Keeps (s.homeWrite key cells) :=
  h.via (State.memOk_homeWrite key cells) (State.tidy_homeWrite key cells)

theorem State.Keeps.homeWriteBytes (h : r.Keeps s) {key pa bytes} : r.Keeps (s.homeWriteBytes key pa bytes) :=
  h.via (State.memOk_homeWriteBytes key pa bytes) (State.tidy_homeWriteBytes key pa bytes)

theorem State.Keeps.rawWrite (h : r.Keeps s) {pa bytes} : r.Keeps (s.rawWrite pa bytes) :=
  h.via (State.memOk_rawWrite pa bytes) (State.tidy_rawWrite pa bytes)

theorem State.Keeps.grantWrite (h : r.Keeps s) {core key cells} : r.Keeps (s.grantWrite core key cells) :=
  h.via (State.memOk_grantWrite core key cells) (State.tidy_grantWrite core key cells)

theorem State.Keeps.modTeam (h : r.Keeps s) {ti f} : r.Keeps (s.modTeam ti f) := h.update
theorem State.Keeps.modGroup (h : r.Keeps s) {ti gi f} : r.Keeps (s.modGroup ti gi f) := h.modTeam
theorem State.Keeps.modThread (h : r.Keeps s) {ti gi l f} : r.Keeps (s.modThread ti gi l f) := h.modGroup
theorem State.Keeps.modLanes (h : r.Keeps s) {ti gi ls f} : r.Keeps (s.modLanes ti gi ls f) := h.modGroup
theorem State.Keeps.modDie (h : r.Keeps s) {d f} : r.Keeps (s.modDie d f) := h.update
theorem State.Keeps.fresh (h : r.Keeps s) : r.Keeps s.fresh.2 := h.update

theorem keeps_takeTrapTo (h : r.Keeps s) {f ti gi lanes cause epc tval} : r.Keeps (takeTrapTo f s ti gi lanes cause epc tval) :=
  h.modLanes.update.ite h.modGroup

theorem keeps_takeTrap (h : r.Keeps s) {ti gi lanes cause epc tval} : r.Keeps (takeTrap s ti gi lanes cause epc tval) := keeps_takeTrapTo h
theorem keeps_trapReturn (h : r.Keeps s) {ti gi f} : r.Keeps (trapReturn s ti gi f) := h.modGroup
theorem keeps_advance (h : r.Keeps s) {c ls} : r.Keeps (advance s c ls) := h.modLanes
theorem keeps_stallLanes (h : r.Keeps s) {c ls} : r.Keeps (stallLanes s c ls) := h.modLanes
theorem keeps_stallGroup (h : r.Keeps s) {c} : r.Keeps (stallGroup s c) := (keeps_stallLanes h).modGroup
theorem keeps_trapRun (h : r.Keeps s) {c cause tval} : r.Keeps (trapRun s c cause tval) := keeps_takeTrap h

theorem keeps_finish (h : r.Keeps s) {c act x} (hx : r.KeepsRes x) : r.Keeps (finish s c act x) := by
  cases x with
  | done u => exact keeps_advance (s := u) hx
  | moved u => exact keeps_advance (s := u) hx
  | trap cause tval => exact keeps_trapRun h
  | trapIn u cause tval => exact keeps_trapRun (s := u) hx
  | stall ls => exact keeps_stallLanes h
  | later u => exact keeps_stallGroup (s := u) hx
  | stallAll => exact keeps_stallGroup h

/-- A word ends where a check stops it, or as its own part says (16 R353). -/
theorem keeps_issueNamed (h : r.Keeps s) {p g names uses body c} (hb : ∀ act, r.KeepsRes (body c act s)) :
    r.Keeps (issueNamed p g names uses body c s) := by
  simp only [issueNamed]
  split
  · exact keeps_trapRun h
  · split
    · exact keeps_stallLanes h
    · split
      · exact keeps_trapRun h
      · exact .ite (keeps_stallLanes h) (keeps_finish h (hb _))

theorem keeps_issueWord (h : r.Keeps s) {p g uses body c} (hb : ∀ act, r.KeepsRes (body c act s)) :
    r.Keeps (issueWord p g uses body c s) := keeps_issueNamed h hb

/-- An ordinary word keeps what its own part keeps. -/
theorem State.Keeps.ordinary (h : r.Keeps s) {p g uses body} (hb : ∀ c act, r.KeepsRes (body c act s)) :
    r.KeepsOut (Machine.ordinary p g uses body s) := by
  simp only [Machine.ordinary]
  split
  · trivial
  · exact keeps_issueWord h (hb _)

theorem State.Keeps.named (h : r.Keeps s) {p g names uses body} (hb : ∀ c act, r.KeepsRes (body c act s)) :
    r.KeepsOut (Machine.named p g names uses body s) := by
  simp only [Machine.named]
  split
  · trivial
  · exact keeps_issueNamed h (hb _)

theorem State.Keeps.gathered (h : r.Keeps s) {g uses body} (hb : ∀ c act, r.KeepsRes (body c act s)) :
    r.KeepsOut (Machine.gathered g uses body s) := by
  simp only [Machine.gathered]
  split
  · trivial
  · split
    · exact keeps_issueWord h (hb _)
    · exact h.modLanes

theorem State.Keeps.setDir (h : r.Keeps s) {en} : r.Keeps (s.setDir en) := h.update
theorem State.Keeps.sendInvals (h : r.Keeps s) {line self} : r.Keeps (s.sendInvals line self).1 := h.update
theorem State.Keeps.ownLines (h : r.Keeps s) {lines} : r.Keeps (s.ownLines lines).1 := .foldlOn Prod.fst h fun _ _ h => h.sendInvals
theorem State.Keeps.staleSide (h : r.Keeps s) {line} : r.Keeps (s.staleSide line) := h.update
theorem State.Keeps.freshFrame (h : r.Keeps s) {frame} : r.Keeps (s.freshFrame frame) := h.update
theorem State.Keeps.modPort (h : r.Keeps s) {p f} : r.Keeps (s.modPort p f) := h.update

theorem State.Keeps.ask (h : r.Keeps s) {id die pa} : r.Keeps (s.ask id die pa) := by
  simp only [State.ask]
  split
  · exact h
  · split
    · exact h.update
    · exact h

theorem State.Keeps.awaitPeer (h : r.Keeps s) {die pa} : r.Keeps (s.awaitPeer die pa) := h.ite h.update
theorem State.Keeps.awaitRange (h : r.Keeps s) {die pa n} : r.Keeps (s.awaitRange die pa n) := h.ite (h.foldl fun _ _ h => h.awaitPeer)
theorem State.Keeps.settleUnanswered (h : r.Keeps s) : r.Keeps s.settleUnanswered := h.ite h.update

/-! ### Walks and translations -/

theorem State.Keeps.tlbFill (h : r.Keeps s) {en} : r.Keeps (s.tlbFill en) := h.update

theorem State.Keeps.ownCompanion (h : r.Keeps s) {die comp mask} : r.Keeps (s.ownCompanion die comp mask).2 := by
  simp only [State.ownCompanion]
  split
  · exact h
  · split
    · exact h.awaitPeer
    · exact h.sendInvals

theorem State.Keeps.orCompanion (h : r.Keeps s) {comp mask} : r.Keeps (s.orCompanion comp mask) := h.ite h.rawWrite

theorem State.Keeps.fillFrom (h : r.Keeps s) {x en} : r.Keeps (s.fillFrom x en).2 := by
  simp only [State.fillFrom]
  split
  · exact h.orCompanion.tlbFill.tlbFill
  · exact h.orCompanion.tlbFill

theorem State.Keeps.viaTables (h : r.Keeps s) {x asid root acc va} : r.Keeps (s.viaTables x asid root acc va).2 := by
  simp only [State.viaTables]
  split
  · split
    · exact h.tlbFill
    · exact h
  · split
    · exact h.update
    · exact h.update
    · exact h.update.awaitPeer
    · split
      · exact h.update.ownCompanion.of_snd ‹_›
      · exact (h.update.ownCompanion.of_snd ‹_›).fillFrom

theorem State.Keeps.viaArena (h : r.Keeps s) {x acc va} : r.Keeps (s.viaArena x acc va).2 := by
  simp only [State.viaArena]
  split
  · exact h
  · split
    · exact h
    · split
      · exact h
      · split
        · exact h
        · split
          · exact h
          · exact h.tlbFill

theorem State.Keeps.translateAny (h : r.Keeps s) {x acc va} : r.Keeps (s.translateAny x acc va).2 := by
  simp only [State.translateAny]
  split
  · exact h
  · split
    · exact h.viaTables
    · split
      · exact h.viaArena
      · split
        · exact h
        · split
          · exact h
          · exact h.viaTables

theorem State.Keeps.translate (h : r.Keeps s) {x acc va} : r.Keeps (s.translate x acc va).2 := by
  simp only [State.translate]
  split
  · have ht := h.translateAny.of_snd ‹_›
    split
    · exact ht
    · split
      · exact ht
      · split
        · exact ht
        · split <;> exact ht.ownCompanion.of_snd ‹_›
  · exact h.translateAny

theorem State.Keeps.markDirty (h : r.Keeps s) {x va} : r.Keeps (s.markDirty x va) := by
  simp only [State.markDirty]
  split
  · exact h
  · exact h.ite h.orCompanion.update

theorem State.Keeps.translateAll (h : r.Keeps s) {x acc vas} : r.Keeps (s.translateAll x acc vas).2 := by
  induction vas generalizing s with
  | nil => exact h
  | cons va vas ih => exact ih h.translate

theorem State.Keeps.settleRange (h : r.Keeps s) {key pa n} : r.Keeps (s.settleRange key pa n) := h.foldl fun _ _ h => h.settle
theorem State.Keeps.settleCached (h : r.Keeps s) {key pa n} : r.Keeps (s.settleCached key pa n) := h.foldl fun _ _ h => h.settle

theorem State.Keeps.ownRange (h : r.Keeps s) {pa n} : r.Keeps (s.ownRange pa n).2 := by
  simp only [State.ownRange]
  exact h.ownLines

theorem State.Keeps.hwWrite (h : r.Keeps s) {x va bytes} : r.Keeps (s.hwWrite x va bytes).2 := by
  simp only [State.hwWrite]
  split <;> have ht := h.translate.of_snd ‹_›
  · split
    · exact ht.markDirty
    · split
      · exact ht.awaitRange
      · split
        · exact ht.ownRange.of_snd ‹_›
        · exact (ht.ownRange.of_snd ‹_›).markDirty.homeWriteBytes
  · exact ht
  · exact ht

/-! ### Fault records, checks and slots -/

theorem State.Keeps.nextFid (h : r.Keeps s) {die} : r.Keeps (s.nextFid die).2 := h.modDie

theorem State.Keeps.raiseFault (h : r.Keeps s) {rec} : r.Keeps (s.raiseFault rec).2 := by
  simp only [State.raiseFault]
  split
  · exact h
  · exact h.nextFid.update

theorem State.Keeps.laneFault (h : r.Keeps s) {ti gi cause kind va lanes acc} : r.Keeps (s.laneFault ti gi cause kind va lanes acc).2 := h.raiseFault
theorem State.Keeps.eventFault (h : r.Keeps s) {ti cause kind va mask slot} : r.Keeps (s.eventFault ti cause kind va mask slot) := h.raiseFault

theorem State.Keeps.drainList (h : r.Keeps s) {ws} : r.Keeps (State.drainList ws s) := by
  induction ws generalizing s with
  | nil => exact h.update
  | cons w ws ih =>
    simp only [State.drainList]
    split
    · exact (h.hwWrite.of_snd ‹_›).update
    · exact ih (h.hwWrite.of_snd ‹_›)

theorem State.Keeps.drainSlots (h : r.Keeps s) : r.Keeps s.drainSlots := h.drainList
theorem State.Keeps.slotWrite (h : r.Keeps s) {die slot off bytes} : r.Keeps (s.slotWrite die slot off bytes) := h.update.drainSlots
theorem State.Keeps.wakeChecked (h : r.Keeps s) {die} : r.Keeps (s.wakeChecked die) := h.update

theorem State.Keeps.deliverCheck (h : r.Keeps s) {die} : r.Keeps (s.deliverCheck die) := by
  simp only [State.deliverCheck]
  split
  · split
    · exact h
    · split
      · exact h
      · split
        · exact (keeps_takeTrapTo (h.hwWrite.of_snd ‹_›).modDie).wakeChecked
        · exact h.hwWrite.of_snd ‹_›
        · exact h
  · exact h

theorem State.Keeps.settleChecks (h : r.Keeps s) : r.Keeps s.settleChecks := h.foldl fun _ _ h => h.deliverCheck
theorem State.Keeps.raiseCheck (h : r.Keeps s) {die rec} : r.Keeps (s.raiseCheck die rec) := h.modDie.update.deliverCheck
theorem State.Keeps.touchSaved (h : r.Keeps s) {ti} : r.Keeps (s.touchSaved ti) := h.update

theorem State.Keeps.deliverWake (h : r.Keeps s) {w} : r.Keeps (s.deliverWake w) := by
  simp only [State.deliverWake]
  split
  · exact h
  · split
    · exact h
    · exact h.modTeam
    · exact h.modTeam
    · exact h.modTeam.touchSaved.eventFault

theorem State.Keeps.sendWake (h : r.Keeps s) {w} : r.Keeps (s.sendWake w) := h.ite (h.modDie.ite h.deliverWake)
theorem State.Keeps.sendOrWait (h : r.Keeps s) {w} : r.Keeps (s.sendOrWait w) := h.modDie.ite h.sendWake
theorem State.Keeps.apertureWrite (h : r.Keeps s) {q off bytes} : r.Keeps (s.apertureWrite q off bytes) := h.foldl fun _ _ h => h.sendOrWait
theorem State.Keeps.wakeHalted (h : r.Keeps s) {die} : r.Keeps (s.wakeHalted die) := h.update
theorem State.Keeps.posted (h : r.Keeps s) {die f} : r.Keeps (s.posted die f) := (h.update.modDie.foldl fun _ _ h => h.sendOrWait).wakeHalted
theorem State.Keeps.stalled (h : r.Keeps s) {die va} : r.Keeps (s.stalled die va) := h.modDie.when fun h => h.raiseCheck

theorem State.Keeps.postFault (h : r.Keeps s) {die} : r.Keeps (s.postFault die) := by
  simp only [State.postFault]
  split
  · exact h
  · split
    · exact h
    · split
      · exact h.stalled
      · split
        · exact (h.hwWrite.of_snd ‹_›).posted
        · exact h.hwWrite.of_snd ‹_›
        · exact h.stalled

/-! ### Device registers -/

theorem State.Keeps.modQueue (h : r.Keeps s) {q f} : r.Keeps (s.modQueue q f) := h.update
theorem State.Keeps.emitBy (h : r.Keeps s) {port shf m} : r.Keeps (s.emitBy port shf m) := h.update.ite h.update

theorem State.Keeps.emit (h : r.Keeps s) {die shf m} : r.Keeps (s.emit die shf m) := by
  simp only [State.emit]
  split
  · exact h.emitBy
  · exact h.update

theorem State.Keeps.outAgain (h : r.Keeps s) {x} : r.Keeps (s.outAgain x) := h.emitBy.ite h.emit
theorem State.Keeps.settleOut (h : r.Keeps s) : r.Keeps s.settleOut := h.ite (h.update.foldl fun _ _ h => h.outAgain)
theorem State.Keeps.writePause (h : r.Keeps s) {port v} : r.Keeps (s.writePause port v) := h.modPort
theorem State.Keeps.tellCoding (h : r.Keeps s) {die stop} : r.Keeps (s.tellCoding die stop) := h.foldl fun _ _ h => h.emitBy
theorem State.Keeps.strainerLevel (h : r.Keeps s) {die} : r.Keeps (s.strainerLevel die) := h.ite h.modDie.tellCoding
theorem State.Keeps.writeStrctl (h : r.Keeps s) {die v} : r.Keeps (s.writeStrctl die v) := h.modDie.strainerLevel
theorem State.Keeps.writeArnpool (h : r.Keeps s) {die v} : r.Keeps (s.writeArnpool die v) := h.modDie
theorem State.Keeps.stopQueue (h : r.Keeps s) {q err} : r.Keeps (s.stopQueue q err) := h.modQueue
theorem State.Keeps.checkDoorbell (h : r.Keeps s) {q} : r.Keeps (s.checkDoorbell q) := h.stopQueue.ite h
theorem State.Keeps.writeTail (h : r.Keeps s) {q tail} : r.Keeps (s.writeTail q tail) := h.modQueue.checkDoorbell
theorem State.Keeps.dropWaiting (h : r.Keeps s) {q} : r.Keeps (s.dropWaiting q) := h.update
theorem State.Keeps.enableQueue (h : r.Keeps s) {q} : r.Keeps (s.enableQueue q) := h.checkDoorbell.ite h.modQueue.dropWaiting.checkDoorbell

theorem State.Keeps.writeQueue (h : r.Keeps s) {w q off bytes} : r.Keeps (s.writeQueue w q off bytes) := by
  unfold State.writeQueue
  extract_lets x own cfg s1 s2 v s3 s4
  have h1 : r.Keeps s1 := h.modQueue.ite h
  have h2 : r.Keeps s2 := h1.modQueue.ite h1
  have h3 : r.Keeps s3 := h2.modQueue.ite h2
  have h4 : r.Keeps s4 := (h3.enableQueue.ite h3.modQueue).ite h2
  exact h.ite (h4.writeTail.ite h4)

theorem State.Keeps.freezeAll (h : r.Keeps s) : r.Keeps s.freezeAll := h.update
theorem State.Keeps.portAccess (h : r.Keeps s) {p} : r.Keeps (s.portAccess p) := h.update.ite h

theorem State.Keeps.writeModule (h : r.Keeps s) {w off bytes} : r.Keeps (s.writeModule w off bytes) := by
  unfold State.writeModule
  extract_lets hit v m s1 u sem s2 s3
  have h1 : r.Keeps s1 := h.update.ite h
  have h2 : r.Keeps s2 := h1.update.ite h1
  have h3 : r.Keeps s3 := by
    refine State.Keeps.ite ?_ h1
    split
    · exact h2.update
    · exact h2
  exact h3.freezeAll.ite h3

theorem State.Keeps.devWrite (h : r.Keeps s) {w loc bytes} : r.Keeps (s.devWrite w loc bytes) := by
  unfold State.devWrite
  extract_lets u priv shut
  have hu : r.Keeps u := by
    unfold u
    split
    · exact h.portAccess
    · exact h
  split
  · exact hu
  · split
    · exact hu
    · exact hu.writePause.ite hu
    · exact hu.writeStrctl.ite hu
    · exact hu.writeArnpool.ite hu
    · split
      · exact hu.apertureWrite.ite hu
      · exact hu
      · exact hu.apertureWrite
    · exact hu.writeQueue
    · split
      · exact hu
      · exact hu
      · exact hu.writeModule

theorem State.Keeps.execPauseWrite (h : r.Keeps s) {port v} : r.KeepsOut (Machine.execPauseWrite port v s) := h.writePause
theorem State.Keeps.execStrctlWrite (h : r.Keeps s) {die v} : r.KeepsOut (Machine.execStrctlWrite die v s) := h.writeStrctl
theorem State.Keeps.execArnpoolWrite (h : r.Keeps s) {die v} : r.KeepsOut (Machine.execArnpoolWrite die v s) := h.writeArnpool
theorem State.Keeps.execQueueDoorbell (h : r.Keeps s) {q tail} : r.KeepsOut (Machine.execQueueDoorbell q tail s) := h.writeTail
theorem State.Keeps.execQueueEnable (h : r.Keeps s) {q} : r.KeepsOut (Machine.execQueueEnable q s) := h.enableQueue

theorem State.Keeps.execSemClaim (h : r.Keeps s) {p0 p1} : r.KeepsOut (Machine.execSemClaim p0 p1 s) :=
  ((h.portAccess.ite h).when fun h => h.portAccess).when fun h => h.update

theorem State.Keeps.execSemTimeout (h : r.Keeps s) : r.KeepsOut (Machine.execSemTimeout s) := h.update.ite h
theorem State.Keeps.execFrzWrite (h : r.Keeps s) : r.KeepsOut (Machine.execFrzWrite s) := h.freezeAll
theorem State.Keeps.execFreeze (h : r.Keeps s) : r.KeepsOut (Machine.execFreeze s) := h.freezeAll
theorem State.Keeps.execRegisterWrite (h : r.Keeps s) {w loc bytes} : r.KeepsOut (Machine.execRegisterWrite w loc bytes s) := h.devWrite

theorem State.Keeps.execNotifyApertureWrite (h : r.Keeps s) {q off bytes} : r.KeepsOut (Machine.execNotifyApertureWrite q off bytes s) :=
  h.apertureWrite

theorem State.Keeps.execFaultPost (h : r.Keeps s) {die} : r.KeepsOut (Machine.execFaultPost die s) := h.postFault
theorem State.Keeps.execApertureGate (h : r.Keeps s) {die} : r.KeepsOut (Machine.execApertureGate die s) := h.modDie.ite h

theorem State.Keeps.execKettleUngate (h : r.Keeps s) {die} : r.KeepsOut (Machine.execKettleUngate die s) :=
  h.ite (h.modDie.foldl fun _ _ h => h.deliverWake)

theorem State.Keeps.execPowerThrottle (h : r.Keeps s) : r.KeepsOut (Machine.execPowerThrottle s) := h.update

theorem keeps_memChecks_later (h : r.Keeps s) {x acc align las} (e : memChecks s x acc align las = .later t) : r.Keeps t := by
  simp only [memChecks] at e
  split at e
  · cases e
  · split at e
    · cases e; exact h.translateAll
    · split at e <;> cases e

theorem keeps_memChecks_pass (h : r.Keeps s) {x acc align las ps} (e : memChecks s x acc align las = .pass ps t) : r.Keeps t := by
  simp only [memChecks] at e
  split at e
  · cases e
  · split at e
    · cases e
    · split at e <;> cases e
      exact h.translateAll

/-! ### Accesses of a group -/

theorem keeps_pageFaults (h : r.Keeps s) {ti gi cause kind acc las} : r.Keeps (pageFaults s ti gi cause kind acc las).2 := by
  refine .foldlOn Prod.snd h fun a page h => ?_
  dsimp only
  split
  · exact h
  · exact h.laneFault

theorem keeps_parkLanes (h : r.Keeps s) {c las acc} : r.Keeps (parkLanes s c las acc) := by
  simp only [parkLanes]
  exact (keeps_pageFaults h).modLanes

theorem State.Keeps.publish (h : r.Keeps s) {ti gi lanes} : r.Keeps (s.publish ti gi lanes) := h.update
theorem State.Keeps.acquires (h : r.Keeps s) {ti gi lanes} : r.Keeps (s.acquires ti gi lanes) := h.modLanes
theorem State.Keeps.seeStores (h : r.Keeps s) {core pa n} : r.Keeps (s.seeStores core pa n) := h.update
theorem State.Keeps.withdraw (h : r.Keeps s) {ti gi lanes} : r.Keeps (s.withdraw ti gi lanes) := h.modTeam.update

theorem keeps_deferredTrap (h : r.Keeps s) {ti gi op epc fails} : r.Keeps (deferredTrap s ti gi op epc fails) := by
  simp only [deferredTrap]
  split
  · exact h.modLanes
  · exact keeps_takeTrap h.modLanes.withdraw

theorem State.Keeps.failLoad (h : r.Keeps s) {ti gi op lv epc fails} : r.Keeps (s.failLoad ti gi op lv epc fails) :=
  h.update.ite (keeps_deferredTrap h)

theorem State.Keeps.settleTrap (h : r.Keeps s) {t} : r.Keeps (s.settleTrap t) := by
  simp only [State.settleTrap]
  split
  · exact h.update
  · exact h.ite (keeps_deferredTrap h.update)
  · exact h

theorem State.Keeps.settleTraps (h : r.Keeps s) : r.Keeps s.settleTraps := h.foldl fun _ _ h => h.settleTrap
theorem State.Keeps.perLane (h : r.Keeps s) {f c act} : r.KeepsRes (Machine.perLane f c act s) := h.modLanes (s := s)

/-! ### Loads, stores and the words for caches -/

theorem State.Keeps.issueLoad (h : r.Keeps s) {op n align acc d wd addr x y c act} :
    r.KeepsRes (Machine.issueLoad op n align acc d wd addr x y c act s) := by
  simp only [Machine.issueLoad]
  split
  · exact h
  · split
    · trivial
    · exact keeps_memChecks_later h ‹_›
    · have hp {ti gi kind acc las las'} := keeps_pageFaults (ti := ti) (gi := gi) (cause := 0x05) (kind := 5) (acc := acc) (las := las)
        (keeps_pageFaults (ti := ti) (gi := gi) (cause := 0x05) (kind := kind) (acc := acc) (las := las') (keeps_memChecks_pass h ‹_›))
      split
      · trivial
      · refine State.Keeps.modGroup (State.Keeps.modLanes (State.Keeps.update (State.Keeps.fresh (State.Keeps.ite ?_ hp))))
        refine hp.foldl fun _ _ h => ?_
        split
        · exact h.markDirty.passRdc
        · exact h

theorem keeps_addStore (h : r.Keeps s) {c op sc n parts} : r.Keeps (addStore s c op sc n parts) := by
  simp only [addStore]
  exact h.fresh.update.modGroup

theorem keeps_enterStore (h : r.Keeps s) {op sc n data ps c s0} : r.Keeps (enterStore op sc n data ps c s0 s) := by
  simp only [enterStore]
  refine keeps_addStore (State.Keeps.foldl (keeps_pageFaults (keeps_pageFaults h)) fun _ _ h => ?_)
  split
  · exact h.markDirty.ite h.markDirty.passRdc
  · exact h

theorem State.Keeps.issueStoreAs (h : r.Keeps s) {acc op sc n addr data c act} :
    r.KeepsRes (Machine.issueStoreAs acc op sc n addr data c act s) := by
  simp only [Machine.issueStoreAs]
  split
  · exact h
  · split
    · trivial
    · exact keeps_memChecks_later h ‹_›
    · split
      · trivial
      · split
        · trivial
        · exact keeps_enterStore ((keeps_memChecks_pass h ‹_›).when fun h => h.publish)

theorem State.Keeps.issueStore (h : r.Keeps s) {op sc n addr data c act} : r.KeepsRes (Machine.issueStore op sc n addr data c act s) := h.issueStoreAs
theorem State.Keeps.execLd (h : r.Keeps s) {g w d a off} : r.KeepsOut (Machine.execLd g w d a off s) := h.ordinary fun _ _ => h.issueLoad
theorem State.Keeps.execLdAcq (h : r.Keeps s) {g sc w d a off} : r.KeepsOut (Machine.execLdAcq g sc w d a off s) := h.ordinary fun _ _ => h.issueLoad
theorem State.Keeps.execSt (h : r.Keeps s) {g w a off c} : r.KeepsOut (Machine.execSt g w a off c s) := h.ordinary fun _ _ => h.issueStore
theorem State.Keeps.execStRel (h : r.Keeps s) {g sc w a off c} : r.KeepsOut (Machine.execStRel g sc w a off c s) := h.ordinary fun _ _ => h.issueStore
theorem State.Keeps.scratchWrite (h : r.Keeps s) {ti pcore off bs} : r.Keeps (s.scratchWrite ti pcore off bs) := h.modTeam

theorem State.Keeps.execLds (h : r.Keeps s) {g w d a off} : r.KeepsOut (Machine.execLds g w d a off s) := by
  unfold Machine.execLds
  refine h.ordinary fun c act => ?_
  split
  · trivial
  · extract_lets gr wt m
    split
    · trivial
    · exact h.perLane

theorem State.Keeps.execSts (h : r.Keeps s) {g w a off v} : r.KeepsOut (Machine.execSts g w a off v s) := by
  simp only [Machine.execSts]
  refine h.ordinary fun c act => ?_
  split
  · trivial
  · split
    · trivial
    · exact h.foldl fun _ _ h => h.scratchWrite

theorem State.Keeps.execAtom (h : r.Keeps s) {g op sg sc w64 d a b} : r.KeepsOut (Machine.execAtom g op sg sc w64 d a b s) :=
  h.ordinary fun _ _ => h.issueLoad

theorem State.Keeps.execAtomBnd (h : r.Keeps s) {g sc w64 d a b} : r.KeepsOut (Machine.execAtomBnd g sc w64 d a b s) :=
  h.ordinary fun _ _ => h.issueLoad

theorem State.Keeps.execAtomTopk (h : r.Keeps s) {g norm km1 sc d a b} : r.KeepsOut (Machine.execAtomTopk g norm km1 sc d a b s) :=
  h.ordinary fun _ _ => h.issueLoad

theorem State.Keeps.execRed (h : r.Keeps s) {g op sg _sc w64 a b} : r.KeepsOut (Machine.execRed g op sg _sc w64 a b s) :=
  h.ordinary fun _ _ => h.issueStoreAs

theorem keeps_prefetchLane (h : r.Keeps s) {l1 c va} : r.Keeps (prefetchLane l1 c s va) := by
  simp only [prefetchLane]
  split
  · have ht := h.translate.of_snd ‹_›
    exact ht.ite (ht.settle.record.ite ht.settle.fetchShared)
  · exact h

theorem State.Keeps.execPfL1 (h : r.Keeps s) {g a off} : r.KeepsOut (Machine.execPfL1 g a off s) :=
  h.ordinary fun _ _ => h.foldl fun _ _ h => keeps_prefetchLane h

theorem State.Keeps.execPfL2 (h : r.Keeps s) {g a off} : r.KeepsOut (Machine.execPfL2 g a off s) :=
  h.ordinary fun _ _ => h.foldl fun _ _ h => keeps_prefetchLane h

theorem State.Keeps.fencePassed (h : r.Keeps s) {ti gi} : r.Keeps (s.fencePassed ti gi) := by
  simp only [State.fencePassed]
  exact h.publish.acquires.fresh.modGroup

theorem State.Keeps.execFence (h : r.Keeps s) {sc} : r.KeepsOut (Machine.execFence sc s) := by
  simp only [Machine.execFence]
  refine h.ordinary fun c act => ?_
  split
  · exact h.fencePassed
  · trivial

theorem State.Keeps.loadWrite (h : r.Keeps s) {ld lane x} : r.Keeps (s.loadWrite ld lane x) := h.modThread

theorem State.Keeps.loadClose (h : r.Keeps s) {id lanes} : r.Keeps (s.loadClose id lanes) := by
  simp only [State.loadClose]
  split
  · exact h.update
  · exact h.update.modGroup.ite h.update

theorem keeps_atomicLane (h : r.Keeps s) {ld p} : r.Keeps (atomicLane s ld p) := by
  simp only [atomicLane]
  exact (h.takeLine.unless fun h => h.homeWrite).loadWrite

theorem keeps_loadLane (h : r.Keeps s) {ld p} : r.Keeps (loadLane s ld p) :=
  h.loadWrite.ite (h.settle.record.loadWrite.ite h.settle.record.seeStores.loadWrite)

theorem keeps_performLoad (h : r.Keeps s) {ld ps} : r.Keeps (performLoad s ld ps) := by
  simp only [performLoad]
  split
  · exact ((h.foldl fun _ _ h => (keeps_atomicLane h).ite (keeps_loadLane h)).when fun h => h.acquires).loadClose
  · exact ((h.foldl fun _ _ h => (keeps_atomicLane h).ite (keeps_loadLane h)).when fun h => h.acquires).loadClose.failLoad

theorem State.Keeps.execLoadReply (h : r.Keeps s) {id pa} : r.KeepsOut (Machine.execLoadReply id pa s) := by
  simp only [Machine.execLoadReply]
  show State.Keeps _ _
  split
  · exact h
  · exact h.ite (h.ite ((h.sendInvals.ite (keeps_performLoad h)).ite (keeps_performLoad h)))

theorem State.Keeps.storeClose (h : r.Keeps s) {id ps} : r.Keeps (s.storeClose id ps) := by
  simp only [State.storeClose]
  split
  · exact h.update
  · exact h.update.modGroup.ite h.update

theorem keeps_cacheEffect (h : r.Keeps s) {op core key pa len} : r.Keeps (cacheEffect s op core key pa len) := by
  unfold cacheEffect
  extract_lets hit lines u
  have hu : r.Keeps u := h.foldl fun _ _ h => h.settle
  split
  · exact (hu.foldl fun _ _ h => h.cleanL1).when fun h => h.foldl fun _ _ h => h.cleanL2
  · refine State.Keeps.update (State.Keeps.foldl ?_ fun _ _ h => h.loseRdc)
    exact (hu.foldl fun _ _ h => h.staleSide).filter rfl rfl
  · exact (hu.foldl fun _ _ h => h.discardLine).update.unless fun h => h.update
  · exact hu

theorem keeps_storeLane (h : r.Keeps s) {st p} : r.Keeps (storeLane s st p) := by
  simp only [storeLane]
  split
  · exact h
  · split
    · exact h.takeLine.homeWrite
    · exact h.grantWrite
    · exact h.grantWrite
    · exact h.grantWrite
    · exact keeps_cacheEffect h

theorem keeps_performStore (h : r.Keeps s) {st ps} : r.Keeps (performStore s st ps) := by
  simp only [performStore]
  split
  · exact h.storeClose
  · exact (h.devWrite.ite (h.foldl fun _ _ h => keeps_storeLane h)).storeClose

theorem State.Keeps.enterL1 (h : r.Keeps s) {st ps} : r.Keeps (s.enterL1 st ps) := by
  simp only [State.enterL1]
  exact h.update.foldl fun _ _ h => h.passRdc.update

theorem State.Keeps.execStoreAck (h : r.Keeps s) {id pa} : r.KeepsOut (Machine.execStoreAck id pa s) := by
  simp only [Machine.execStoreAck]
  show State.Keeps _ _
  split
  · exact h
  · exact h.ite (h.enterL1.ite (h.ite ((keeps_performStore h).ite (h.sendInvals.ite (keeps_performStore h)))))

theorem State.Keeps.settleAsks (h : r.Keeps s) : r.Keeps s.settleAsks := (h.ite h.update).foldl fun _ _ h => h.ask

theorem State.Keeps.loseCopy (h : r.Keeps s) {line a} : r.Keeps (s.loseCopy line a) := by
  simp only [State.loseCopy]
  split
  · exact h.loseL1.dropLine
  · exact h.loseRdc
  · exact h

theorem State.Keeps.endEviction (h : r.Keeps s) {line} : r.Keeps (s.endEviction line) := h.ite (h.loseL2.ite h.sendInvals)

theorem State.Keeps.execInvalidation (h : r.Keeps s) {line hd} : r.KeepsOut (Machine.execInvalidation line hd s) := by
  simp only [Machine.execInvalidation]
  show State.Keeps _ _
  split
  · exact (h.loseCopy.update.ite h.loseCopy.update).setDir.endEviction
  · exact h.ite (h.filter rfl rfl)

theorem keeps_pieceCheck (h : r.Keeps s) {x acc pcs} : r.Keeps (pieceCheck s x acc pcs).2.2 := by
  refine .foldlThird h fun q pc h => ?_
  split <;> exact h.translate.of_snd ‹_›

theorem keeps_rangeCheck (h : r.Keeps s) {x acc aligned rs} : r.Keeps (rangeCheck s x acc aligned rs).2.2 := by
  refine .foldlThird h fun q pc h => ?_
  dsimp only
  split
  · exact h
  · exact keeps_pieceCheck h

theorem keeps_rangesLater (h : r.Keeps s) {x acc rs} : r.Keeps (rangesLater s x acc rs).2 := by
  refine .foldlOn Prod.snd h fun q pc h => ?_
  split <;> exact h.translate.of_snd ‹_›

theorem State.Keeps.issueCache (h : r.Keeps s) {mk sc acc aligned a b c act} :
    r.KeepsRes (Machine.issueCache mk sc acc aligned a b c act s) := by
  unfold Machine.issueCache
  extract_lets ranges rs sharing
  split
  · exact (keeps_rangesLater h).of_snd ‹_›
  · have hl := (keeps_rangesLater h).of_snd ‹_›
    split
    · trivial
    · have hc := (keeps_rangeCheck hl).of_snd_snd ‹_›
      extract_lets wt out
      have ho : r.Keeps out := hc.foldl fun _ _ h => by
        split
        · exact h
        · exact keeps_addStore h
      split
      · trivial
      · split
        · trivial
        · split
          · exact ho
          · exact keeps_stallLanes (keeps_advance ho)

theorem State.Keeps.execCwb (h : r.Keeps s) {g sys a b} : r.KeepsOut (Machine.execCwb g sys a b s) := h.ordinary fun _ _ => h.issueCache
theorem State.Keeps.execCinv (h : r.Keeps s) {g a b} : r.KeepsOut (Machine.execCinv g a b s) := h.ordinary fun _ _ => h.issueCache
theorem State.Keeps.execCdrop (h : r.Keeps s) {g a b} : r.KeepsOut (Machine.execCdrop g a b s) := h.ordinary fun _ _ => h.issueCache

/-! ### Items and the grid -/

theorem keeps_releasePart (h : r.Keeps s) {st q p} : r.Keeps (releasePart s st q p).2 := by
  unfold releasePart
  extract_lets full log go x
  have hl {u cause kind} (h : r.Keeps u) : r.Keeps (log cause kind u).2 := h.iteSnd h.laneFault
  have hg {u p'} (h : r.Keeps u) : r.Keeps (go p' u).2 := h.iteSnd h
  refine (hg h).iteSnd ?_
  split
  · exact hg (h.translate.of_snd ‹_›).markDirty
  · exact h.translate.of_snd ‹_›
  · exact hl (h.translate.of_snd ‹_›)
  · exact hl (h.translate.of_snd ‹_›)
  · have ht := h.translate.of_snd ‹_›
    exact ht.iteSnd (hl ht)

/-- The parts of a store are walked with an operation that keeps both. -/
theorem State.Keeps.mapParts (h : r.Keeps s) {st f} (hf : ∀ s p, r.Keeps s → r.Keeps (f s p).2) : r.Keeps (s.mapParts st f) := by
  have hp : r.Keeps (st.parts.foldl (fun (q : List StPart × State) p => (q.1 ++ [(f q.2 p).1], (f q.2 p).2)) ([], s)).2 :=
    .foldlOn Prod.snd h fun _ _ h => hf _ _ h
  exact hp.update.storeClose

theorem State.Keeps.releaseOne (h : r.Keeps s) {x} : r.Keeps (s.releaseOne x) := by
  simp only [State.releaseOne]
  split
  · exact h
  · refine h.fresh.mapParts fun _ _ h => ?_
    split
    · exact keeps_releasePart h
    · exact h

theorem State.Keeps.releaseHeld (h : r.Keeps s) {node} : r.Keeps (s.releaseHeld node) := by
  refine .foldlOn Prod.snd h fun a _ h => ?_
  dsimp only
  split
  · exact h
  · exact h.releaseOne

theorem State.Keeps.settleHeld (h : r.Keeps s) : r.Keeps s.settleHeld := h.foldl fun _ _ h => h.releaseHeld

theorem State.Keeps.serve (h : r.Keeps s) {ti} : r.Keeps (s.serve ti) := by
  simp only [State.serve]
  exact h.modTeam.update.ite h

theorem State.Keeps.checkExhausted (h : r.Keeps s) {node} : r.Keeps (s.checkExhausted node) := (h.foldl fun _ _ h => h.modTeam.ite h).ite h

theorem State.Keeps.grantExclusions (h : r.Keeps s) {node} : r.Keeps (s.grantExclusions node) := by
  simp only [State.grantExclusions]
  exact h.foldl fun _ _ h => by
    split
    · exact h
    · exact h.foldl fun _ _ h => by
        split
        · split
          · exact h.modTeam.modThread.ite h
          · exact h
        · exact h

theorem State.Keeps.tryJoin (h : r.Keeps s) {node ti gi l label cls} : r.Keeps (s.tryJoin node ti gi l label cls) := by
  simp only [State.tryJoin]
  split
  · exact h
  · split
    · exact h.modThread
    · split
      · exact h
      · split
        · exact h.touchSaved
        · split
          · exact h
          · exact h.modTeam.modTeam.modThread.ite h.modTeam.modThread

theorem State.Keeps.tryJoins (h : r.Keeps s) {node} : r.Keeps (s.tryJoins node) := by
  simp only [State.tryJoins]
  exact h.foldl fun _ _ h => by
    split
    · exact h
    · exact h.foldl fun _ _ h => by
        split
        · exact h.tryJoin
        · exact h

theorem State.Keeps.arriveRetired (h : r.Keeps s) {rec} : r.Keeps (s.arriveRetired rec) := by
  simp only [State.arriveRetired]
  split
  · exact h.update.touchSaved
  · exact h.fresh.modTeam

theorem State.Keeps.settleGrid (h : r.Keeps s) {node} : r.Keeps (s.settleGrid node) :=
  (h.grantExclusions.tryJoins.releaseHeld.foldl fun _ _ h => h.serve).checkExhausted

theorem State.Keeps.retire (h : r.Keeps s) {ti gi l} : r.Keeps (s.retire ti gi l) := by
  unfold State.retire
  extract_lets t u
  have hu : r.Keeps u := h.modThread
  split
  · exact h
  · refine hu.ite ?_
    split
    · exact hu
    · exact hu.arriveRetired

theorem State.Keeps.callBack (h : r.Keeps s) {node dest label cls} : r.Keeps (s.callBack node dest label cls) := by
  simp only [State.callBack]
  split
  · exact h
  · exact h.touchSaved

theorem State.Keeps.readVia (h : r.Keeps s) {x va n} : r.Keeps (s.readVia x va n).2 := by
  simp only [State.readVia]
  split <;> have ht := h.translate.of_snd ‹_›
  · exact ht.awaitPeer.iteSnd (ht.iteSnd (ht.iteSnd ht.settle))
  · exact ht
  · exact ht

theorem State.Keeps.readLines (h : r.Keeps s) {x ls} : r.Keeps (s.readLines x ls).2 := by
  induction ls generalizing s with
  | nil => exact h
  | cons l ls ih =>
    simp only [State.readLines]
    split
    · split
      · exact (ih (h.readVia.of_snd ‹_›)).of_snd ‹_›
      · exact ih (h.readVia.of_snd ‹_›)
    · exact h.readVia

theorem State.Keeps.readRange (h : r.Keeps s) {x va n} : r.Keeps (s.readRange x va n).2 := h.readLines

theorem State.Keeps.produce (h : r.Keeps s) {node n} : r.Keeps (s.produce node n).2 := by
  simp only [State.produce]
  split
  · split
    · exact h.readRange
    · exact h.readRange
    · split
      · exact h.readRange
      · split <;> exact h.readRange
  · exact h

theorem State.Keeps.modNode (h : r.Keeps s) {node f} : r.Keeps (s.modNode node f) := h.update

theorem State.Keeps.enqueue (h : r.Keeps s) {ti payload label cls} (e : s.enqueue ti payload label cls = some t) : r.Keeps t := by
  simp only [State.enqueue] at e
  split at e
  · cases e
  · split at e
    · cases e
    · split at e
      · cases e; exact h.modTeam.serve
      · split at e <;> cases e
        exact h.modTeam.serve

theorem State.Keeps.route (h : r.Keeps s) {node dest payload label cls} (e : s.route node dest payload label cls = some t) : r.Keeps t := by
  simp only [State.route] at e
  split at e
  · cases e
  · exact h.enqueue e

theorem State.Keeps.dispatchItem (h : r.Keeps s) {node it} : r.Keeps (s.dispatchItem node it) := by
  simp only [State.dispatchItem]
  split
  · exact (h.route ‹_›).modNode
  · exact h.callBack.modNode

theorem State.Keeps.execItemDispatch (h : r.Keeps s) {node} : r.KeepsOut (Machine.execItemDispatch node s) := by
  simp only [Machine.execItemDispatch]
  show State.Keeps _ _
  split
  · exact h
  · split
    · exact h
    · split
      · exact h.dispatchItem.settleGrid
      · split
        · exact h
        · split
          · exact h.produce.dispatchItem.settleGrid
          · exact h.produce.modNode.settleGrid
          · exact h.produce
          · exact h.produce.stopQueue.modNode.settleGrid

theorem keeps_retireAll (h : r.Keeps s) {c act} : r.Keeps (retireAll s c act) := h.foldl fun _ _ h => h.retire

theorem State.Keeps.execTake (h : r.Keeps s) {g d cr} : r.KeepsOut (Machine.execTake g d cr s) := by
  simp only [Machine.execTake]
  refine h.ordinary fun c act => ?_
  split
  · trivial
  · exact (keeps_retireAll h).modLanes.modTeam.settleGrid

theorem State.Keeps.execTakeG (h : r.Keeps s) {g d cr} : r.KeepsOut (Machine.execTakeG g d cr s) := by
  simp only [Machine.execTakeG]
  refine h.gathered fun c act => ?_
  split
  · exact h
  · split
    · trivial
    · exact (keeps_retireAll h).modLanes.modTeam.settleGrid

theorem State.Keeps.execRelabel (h : r.Keeps s) {g b cls} : r.KeepsOut (Machine.execRelabel g b cls s) := by
  simp only [Machine.execRelabel]
  refine h.ordinary fun c act => ?_
  split
  · trivial
  · split
    · trivial
    · exact (h.foldl fun _ _ h => h.retire.modThread.tryJoin).settleGrid

theorem State.Keeps.execDone (h : r.Keeps s) {g} : r.KeepsOut (Machine.execDone g s) := by
  simp only [Machine.execDone]
  refine h.ordinary fun c act => ?_
  split
  · trivial
  · exact (keeps_retireAll h).settleGrid

theorem State.Keeps.execItemi (h : r.Keeps s) {g d a b cls} : r.KeepsOut (Machine.execItemi g d a b cls s) := by
  unfold Machine.execItemi
  refine h.ordinary fun c act => ?_
  refine State.Keeps.settleGrid ?_
  refine State.Keeps.foldlOn Prod.snd h.fresh fun q l h => ?_
  extract_lets t label fin stay
  split
  · exact h.modThread
  · split
    · exact h.modThread
    · split
      · exact (h.route ‹_›).modThread
      · exact h.callBack.modThread

theorem State.Keeps.execFlowi (h : r.Keeps s) {g d b cls} : r.KeepsOut (Machine.execFlowi g d b cls s) := by
  simp only [Machine.execFlowi]
  refine h.ordinary fun c act => ?_
  split
  · trivial
  · exact h.modLanes

theorem State.Keeps.execStOrd (h : r.Keeps s) {g sc w a off v} : r.KeepsOut (Machine.execStOrd g sc w a off v s) := by
  unfold Machine.execStOrd
  refine h.ordinary fun c act => ?_
  extract_lets th n node item way mark heldPart
  split
  · trivial
  · split
    · exact h
    · split
      · trivial
      · exact keeps_memChecks_later h ‹_›
      · have hp := keeps_memChecks_pass h ‹_›
        extract_lets rels relLog relWaits go gone late s1 s2
        have h2 : r.Keeps s2 := (keeps_enterStore hp.publish).update
        split
        · trivial
        · split
          · trivial
          · split
            · exact h2
            · exact keeps_stallLanes (keeps_advance h2)

/-! ### Register blocks -/

theorem State.Keeps.examineRegs (h : r.Keeps s) {fuel core} : r.Keeps (s.examineRegs fuel core) := by
  induction fuel generalizing s with
  | zero => exact h
  | succ fuel ih =>
    simp only [State.examineRegs]
    split
    · exact h
    · exact (ih h.update.modGroup).ite h

theorem State.Keeps.tryRegs (h : r.Keeps s) {core} : r.Keeps (s.tryRegs core) := h.examineRegs
theorem State.Keeps.releaseRegs (h : r.Keeps s) {ti gi} : r.Keeps (s.releaseRegs ti gi) := h.modGroup.tryRegs

theorem State.Keeps.settleRegs (h : r.Keeps s) : r.Keeps s.settleRegs :=
  (h.foldl fun _ _ h => h.ite (h.foldl fun _ _ h => h.ite h.modGroup)).foldl fun _ _ h => h.tryRegs

theorem State.Keeps.execRget (h : r.Keeps s) {g b} : r.KeepsOut (Machine.execRget g b s) := by
  simp only [Machine.execRget]
  refine h.ordinary fun c act => ?_
  split
  · trivial
  · split
    · trivial
    · split
      · exact h.modLanes
      · split
        · exact h.modLanes
        · split
          · exact h.modLanes.modGroup
          · exact h.modLanes.update.tryRegs

theorem State.Keeps.execRput (h : r.Keeps s) {g b} : r.KeepsOut (Machine.execRput g b s) := by
  simp only [Machine.execRput]
  refine h.ordinary fun c act => ?_
  split
  · trivial
  · exact h.modLanes.releaseRegs

theorem State.Keeps.execSrd (h : r.Keeps s) {g d sel} : r.KeepsOut (Machine.execSrd g d sel s) := h.ordinary fun _ _ => h.perLane

/-! ### The matrix unit and the accumulator rows -/

theorem State.Keeps.setAccRow (h : r.Keeps s) {id row} : r.Keeps (s.setAccRow id row) := h.update

theorem keeps_applyPasses (h : r.Keeps s) {ps} : r.Keeps (applyPasses s ps) := by
  simp only [applyPasses]
  split
  · exact h
  · exact h.foldl fun _ _ h => by
      split
      · exact h
      · exact h.setAccRow

theorem State.Keeps.sweepRows (h : r.Keeps s) : r.Keeps s.sweepRows := h.update
theorem State.Keeps.grantRows (h : r.Keeps s) {q} : r.Keeps (s.grantRows q) := h.update.modTeam.modLanes

theorem State.Keeps.endReserve (h : r.Keeps s) {clu} : r.Keeps (s.endReserve clu) := by
  simp only [State.endReserve]
  split
  · exact h
  · exact h.update.ite h

theorem State.Keeps.examineRows (h : r.Keeps s) {fuel clu} : r.Keeps (s.examineRows fuel clu) := by
  induction fuel generalizing s with
  | zero => exact h
  | succ fuel ih =>
    simp only [State.examineRows]
    have he : r.Keeps (s.endReserve clu) := h.endReserve
    split
    · exact (ih he.grantRows).ite he
    · split
      · exact he
      · exact he.ite ((ih he.grantRows).ite ((ih he.grantRows.update).ite he))

theorem State.Keeps.tryRows (h : r.Keeps s) {clu} : r.Keeps (s.tryRows clu) := h.sweepRows.examineRows

theorem State.Keeps.tryPost (h : r.Keeps s) {ti cv} : r.Keeps (s.tryPost ti cv) := by
  simp only [State.tryPost]
  split
  · exact h
  · split
    · exact h
    · exact h.fresh.update.modTeam.foldl fun _ _ h => h.modThread

theorem State.Keeps.tryPosts (h : r.Keeps s) {clu} : r.Keeps (s.tryPosts clu) := h.foldl fun _ _ h => h.tryPost
theorem State.Keeps.tilesDown (h : r.Keeps s) {ti gis} : r.Keeps (s.tilesDown ti gis) := h.foldl fun _ _ h => h.modGroup

theorem State.Keeps.trapAbandoned (h : r.Keeps s) {ti gi} : r.Keeps (s.trapAbandoned ti gi) := by
  simp only [State.trapAbandoned]
  split
  · exact h
  · exact keeps_takeTrap h

theorem State.Keeps.settleAbandoned (h : r.Keeps s) : r.Keeps s.settleAbandoned := h.foldl fun _ _ h => h.ite (h.foldl fun _ _ h => h.trapAbandoned)

theorem State.Keeps.abandon (h : r.Keeps s) {ti cv} : r.Keeps (s.abandon ti cv) :=
  h.ite (h.modTeam.tilesDown.foldl fun _ _ h => h.modLanes.trapAbandoned)

/-- A matrix word keeps what its own part keeps. -/
theorem State.Keeps.matrixWord (h : r.Keeps s) {g uses body} (hb : ∀ c act, r.KeepsRes (body c act s)) :
    r.KeepsOut (Machine.matrixWord g uses body s) := by
  simp only [Machine.matrixWord]
  split
  · trivial
  · split
    · exact keeps_trapRun h
    · exact keeps_issueWord h (hb _)

theorem State.Keeps.abandonAll (h : r.Keeps s) {ti} : r.Keeps (s.abandonAll ti) :=
  .ite (State.Keeps.modTeam (h.foldl fun _ _ h => h.tilesDown)) (h.foldl fun _ _ h => h.abandon)

theorem State.Keeps.declareCv (h : r.Keeps s) {g cv w b mk} : r.KeepsOut (Machine.declareCv g cv w b mk s) := by
  simp only [Machine.declareCv]
  refine h.matrixWord fun c act => ?_
  split
  · exact h
  · split
    · trivial
    · split
      · trivial
      · exact h.modTeam

theorem State.Keeps.execCvd (h : r.Keeps s) {g cv b} : r.KeepsOut (Machine.execCvd g cv b s) := h.declareCv
theorem State.Keeps.execCvdMask (h : r.Keeps s) {g cv b} : r.KeepsOut (Machine.execCvdMask g cv b s) := h.declareCv

/-- The checks of a run of rows end in a trap or a stall, never in another state. -/
theorem keepsRes_runChecks {c act st run x} (e : runChecks s c act st run = some x) : r.KeepsRes x := by
  simp only [runChecks] at e
  split at e
  · cases e; trivial
  · split at e
    · cases e; trivial
    · split at e
      · cases e; trivial
      · split at e <;> cases e
        trivial

theorem State.Keeps.execMma (h : r.Keeps s) {g cv reuse a b fw} : r.KeepsOut (Machine.execMma g cv reuse a b fw s) := by
  simp only [Machine.execMma]
  refine h.matrixWord fun c act => ?_
  split
  · exact keepsRes_runChecks ‹_›
  · split
    · trivial
    · split
      · exact h
      · split
        · trivial
        · exact (h.modTeam.unless fun h => h.modGroup).modLanes.tryPost.abandonAll

theorem State.Keeps.execAcg (h : r.Keeps s) {g d b} : r.KeepsOut (Machine.execAcg g d b s) := by
  simp only [Machine.execAcg]
  refine h.matrixWord fun c act => ?_
  split
  · exact h
  · split
    · trivial
    · split
      · trivial
      · exact h.modLanes.update.tryRows

theorem State.Keeps.execAcp (h : r.Keeps s) {g b} : r.KeepsOut (Machine.execAcp g b s) := by
  simp only [Machine.execAcp]
  refine h.matrixWord fun c act => ?_
  split
  · exact h
  · split
    · trivial
    · exact h.modTeam.tryRows

theorem State.Keeps.enterStreams (h : r.Keeps s) {c act rows op pend} : r.KeepsRes (Machine.enterStreams s c act rows op pend) := by
  simp only [Machine.enterStreams]
  split
  · exact h
  · split
    · trivial
    · exact h.fresh.update.modGroup.modLanes

theorem State.Keeps.execAcz (h : r.Keeps s) {g a b} : r.KeepsOut (Machine.execAcz g a b s) := by
  simp only [Machine.execAcz]
  refine h.matrixWord fun c act => ?_
  split
  · trivial
  · split
    · trivial
    · exact h.enterStreams

theorem State.Keeps.execAcn (h : r.Keeps s) {g a b} : r.KeepsOut (Machine.execAcn g a b s) := by
  simp only [Machine.execAcn]
  refine h.matrixWord fun c act => ?_
  split
  · trivial
  · exact h.enterStreams

theorem State.Keeps.execAch (h : r.Keeps s) {g d a} : r.KeepsOut (Machine.execAch g d a s) := by
  simp only [Machine.execAch]
  refine h.matrixWord fun c act => ?_
  split
  · trivial
  · exact h.enterStreams

theorem State.Keeps.execAcr (h : r.Keeps s) {g f d a b} : r.KeepsOut (Machine.execAcr g f d a b s) := by
  simp only [Machine.execAcr]
  refine h.matrixWord fun c act => ?_
  split
  · exact keepsRes_runChecks ‹_›
  · split
    · trivial
    · exact h.enterStreams

theorem State.Keeps.execAcw (h : r.Keeps s) {g f a v b} : r.KeepsOut (Machine.execAcw g f a v b s) := by
  simp only [Machine.execAcw]
  refine h.matrixWord fun c act => ?_
  split
  · exact keepsRes_runChecks ‹_›
  · split
    · trivial
    · exact h.enterStreams

theorem State.Keeps.execAcrImg (h : r.Keeps s) {g a b} : r.KeepsOut (Machine.execAcrImg g a b s) := by
  simp only [Machine.execAcrImg]
  refine h.matrixWord fun c act => ?_
  split
  · trivial
  · exact h.enterStreams

theorem State.Keeps.execAcwImg (h : r.Keeps s) {g a b} : r.KeepsOut (Machine.execAcwImg g a b s) := by
  simp only [Machine.execAcwImg]
  refine h.matrixWord fun c act => ?_
  split
  · trivial
  · split
    · trivial
    · exact h.enterStreams

theorem State.Keeps.execPassGrant (h : r.Keeps s) {clu} : r.KeepsOut (Machine.execPassGrant clu s) := by
  simp only [Machine.execPassGrant]
  show State.Keeps _ _
  split
  · exact h
  · split
    · exact h
    · exact h.update

theorem State.Keeps.execPassAging (h : r.Keeps s) {clu pass} : r.KeepsOut (Machine.execPassAging clu pass s) := h.update

theorem State.Keeps.execPassApply (h : r.Keeps s) {clu} : r.KeepsOut (Machine.execPassApply clu s) := by
  simp only [Machine.execPassApply]
  show State.Keeps _ _
  split
  · exact h
  · exact ((keeps_applyPasses h).update.foldl fun _ _ h => h.tilesDown).tryPosts.tryRows

theorem keeps_performEntry (h : r.Keeps s) {en} : r.Keeps (performEntry s en) := by
  simp only [performEntry]
  split
  · exact h.foldl fun _ _ h => h.setAccRow
  · exact h.foldl fun _ _ h => h.setAccRow
  · exact h.foldl fun _ _ h => h.setAccRow
  · split
    · exact h.modThread
    · exact h
  · split
    · exact h.modThread
    · exact h
  · split
    · exact h.scratchWrite
    · exact h
  · split
    · exact h.setAccRow
    · exact h
  · split
    · exact h.setAccRow
    · exact h
  · exact h

theorem State.Keeps.doEntry (h : r.Keeps s) {clu en} : r.Keeps (s.doEntry clu en) := ((keeps_performEntry h).update.when fun h => h.tilesDown).tryRows

theorem State.Keeps.execAccStreamPerform (h : r.Keeps s) {clu} : r.KeepsOut (Machine.execAccStreamPerform clu s) := by
  simp only [Machine.execAccStreamPerform]
  show State.Keeps _ _
  split
  · exact h
  · exact h.doEntry

/-! ### Batches -/

theorem State.Keeps.setBfq (h : r.Keeps s) {q} : r.Keeps (s.setBfq q) := h.update.ite (h.update.ite h)
theorem State.Keeps.giveBatch (h : r.Keeps s) {k rows} : r.Keeps (s.giveBatch k rows) := h.scratchWrite.modTeam.update.modLanes

theorem State.Keeps.formRounds (h : r.Keeps s) {fuel die key} : r.Keeps (s.formRounds fuel die key) := by
  induction fuel generalizing s with
  | zero => exact h
  | succ fuel ih =>
    simp only [State.formRounds]
    split
    · exact h
    · exact h.ite (ih h.giveBatch.setBfq)

theorem State.Keeps.examineBfq (h : r.Keeps s) {die key} : r.Keeps (s.examineBfq die key) := h.formRounds
theorem State.Keeps.withdrawPoster (h : r.Keeps s) {die key p} : r.Keeps (s.withdrawPoster die key p) := h.setBfq.examineBfq.ite h
theorem State.Keeps.withdrawKey (h : r.Keeps s) {key p} : r.Keeps (s.withdrawKey key p) := h.foldl fun _ _ h => h.withdrawPoster
theorem State.Keeps.withdrawAll (h : r.Keeps s) {p} : r.Keeps (s.withdrawAll p) := h.foldl fun _ _ h => h.withdrawPoster

theorem State.Keeps.execBfqPost (h : r.Keeps s) {g d a b} : r.KeepsOut (Machine.execBfqPost g d a b s) := by
  simp only [Machine.execBfqPost]
  refine h.ordinary fun c act => ?_
  split
  · trivial
  · exact (h.foldl fun _ _ h => h.modThread.ite (h.modThread.ite h.setBfq.modThread)).foldl fun _ _ h => h.examineBfq

theorem State.Keeps.execBfqTake (h : r.Keeps s) {g d a b cr} : r.KeepsOut (Machine.execBfqTake g d a b cr s) := by
  simp only [Machine.execBfqTake]
  refine h.ordinary fun c act => ?_
  split
  · exact h
  · split
    · trivial
    · exact h.modLanes.setBfq.examineBfq

theorem State.Keeps.execBfqDone (h : r.Keeps s) {g d a} : r.KeepsOut (Machine.execBfqDone g d a s) := by
  simp only [Machine.execBfqDone]
  refine h.ordinary fun c act => ?_
  split
  · exact h
  · split
    · exact h.modLanes
    · exact h.setBfq.modTeam.modLanes

theorem State.Keeps.execBfqDoneWd (h : r.Keeps s) {g d a} : r.KeepsOut (Machine.execBfqDoneWd g d a s) :=
  h.ordinary fun _ _ => h.foldl fun _ _ h => h.withdrawKey.modThread

theorem State.Keeps.voidBound (h : r.Keeps s) {b i} : r.Keeps (s.voidBound b i) := by
  simp only [State.voidBound]
  split
  · exact h
  · split
    · exact h
    · exact h.setAccRow
    · exact h.fresh.update

theorem State.Keeps.voidRow (h : r.Keeps s) {b i} : r.Keeps (s.voidRow b i) := (h.scratchWrite.when fun h => h.modTeam).voidBound
theorem State.Keeps.dropUntaken (h : r.Keeps s) {f} : r.Keeps (s.dropUntaken f) := h.update

theorem State.Keeps.voidFunction (h : r.Keeps s) {f} : r.Keeps (s.voidFunction f) :=
  (h.foldl fun _ _ h => h.foldl fun _ _ h => h.foldl fun _ _ h => h.voidRow.ite h).update

/-! ### Ends of teams and nodes -/

theorem State.Keeps.freeTeam (h : r.Keeps s) {ti place} : r.Keeps (s.freeTeam ti place) := h.modTeam.foldl fun _ _ h => h.tryRegs.tryRows
theorem State.Keeps.endTeam (h : r.Keeps s) {ti} : r.Keeps (s.endTeam ti) := h.modTeam.freeTeam.ite h

theorem State.Keeps.endNode (h : r.Keeps s) {node} : r.Keeps (s.endNode node) := by
  simp only [State.endNode]
  split
  · exact h
  · exact h.modNode.ite (h.modNode.ite h)

theorem State.Keeps.settleEnds (h : r.Keeps s) : r.Keeps s.settleEnds := (h.foldl fun _ _ h => h.endTeam).foldl fun _ _ h => h.endNode

theorem State.Keeps.exitLanes (h : r.Keeps s) {ti gi lanes} : r.Keeps (s.exitLanes ti gi lanes) :=
  ((h.modLanes.unless fun h => h.releaseRegs).foldl fun _ _ h => h.withdrawAll).abandonAll

theorem State.Keeps.execExit (h : r.Keeps s) {g} : r.KeepsOut (Machine.execExit g s) := by
  simp only [Machine.execExit]
  refine h.ordinary fun c act => ?_
  split
  · trivial
  · exact (keeps_retireAll h).exitLanes.settleGrid.settleEnds

/-! ### Control flow, barriers and waking -/

theorem State.Keeps.execNop (h : r.Keeps s) : r.KeepsOut (Machine.execNop s) := h.ordinary fun _ _ => h
theorem State.Keeps.branchTo (h : r.Keeps s) {c act link target} : r.KeepsRes (Machine.branchTo c act s link target) := h.modLanes
theorem State.Keeps.branchDisp (h : r.Keeps s) {g link b} : r.KeepsOut (Machine.branchDisp g link b s) := h.ordinary fun _ _ => h.branchTo

theorem State.Keeps.branchReg (h : r.Keeps s) {g link a} : r.KeepsOut (Machine.branchReg g link a s) := by
  simp only [Machine.branchReg]
  refine h.ordinary fun c act => ?_
  split
  · trivial
  · exact h.branchTo

theorem State.Keeps.execBr (h : r.Keeps s) {g b} : r.KeepsOut (Machine.execBr g b s) := h.branchDisp
theorem State.Keeps.execBri (h : r.Keeps s) {g a} : r.KeepsOut (Machine.execBri g a s) := h.branchReg
theorem State.Keeps.execCall (h : r.Keeps s) {g d b} : r.KeepsOut (Machine.execCall g d b s) := h.branchDisp
theorem State.Keeps.execCalli (h : r.Keeps s) {g d a} : r.KeepsOut (Machine.execCalli g d a s) := h.branchReg
theorem State.Keeps.execRet (h : r.Keeps s) {g a} : r.KeepsOut (Machine.execRet g a s) := h.branchReg
theorem State.Keeps.execYield (h : r.Keeps s) {g} : r.KeepsOut (Machine.execYield g s) := h.ordinary fun _ _ => h.perLane
theorem State.Keeps.laneArrives (h : r.Keeps s) {ti gi l b n} : r.Keeps (s.laneArrives ti gi l b n) := h.modThread.modTeam
theorem State.Keeps.waitBarrier (h : r.Keeps s) {c act b} : r.Keeps (s.waitBarrier c act b) := h.modLanes.modTeam

theorem keeps_arrivals (h : r.Keeps s) {c act b n} : r.Keeps (arrivals s c act b n).2 := by
  unfold arrivals
  extract_lets bar first w
  exact h.iteSnd (h.iteSnd (h.publish.foldl fun _ _ h => h.laneArrives))

/-- Arrivals that do not go through end in a trap or a stall. -/
theorem keepsRes_arrivals {c act b n x} (e : arrivals s c act b n = (some x, t)) : r.KeepsRes x := by
  unfold arrivals at e
  extract_lets bar first w at e
  split at e
  · cases e; trivial
  · split at e <;> cases e
    trivial

theorem State.Keeps.execBar (h : r.Keeps s) {g n b} : r.KeepsOut (Machine.execBar g n b s) := by
  simp only [Machine.execBar]
  refine h.ordinary fun c act => ?_
  split
  · exact keepsRes_arrivals ‹_›
  · exact ((keeps_arrivals h).of_snd ‹_›).waitBarrier

theorem State.Keeps.execBarArr (h : r.Keeps s) {g n b} : r.KeepsOut (Machine.execBarArr g n b s) := by
  simp only [Machine.execBarArr]
  refine h.ordinary fun c act => ?_
  split
  · exact keepsRes_arrivals ‹_›
  · exact ((keeps_arrivals h).of_snd ‹_›).modTeam

theorem State.Keeps.execBarWt (h : r.Keeps s) {g b} : r.KeepsOut (Machine.execBarWt g b s) := h.ordinary fun _ _ => h.waitBarrier
theorem State.Keeps.execNap (h : r.Keeps s) {g d lim ch} : r.KeepsOut (Machine.execNap g d lim ch s) := h.ordinary fun _ _ => h.modLanes.modTeam
theorem State.Keeps.execNapTimeout (h : r.Keeps s) {ti gi lane} : r.KeepsOut (Machine.execNapTimeout ti gi lane s) := h.modThread
theorem State.Keeps.settleWakes (h : r.Keeps s) : r.Keeps s.settleWakes := h.update.foldl fun _ _ h => h.sendOrWait

theorem State.Keeps.execNtfy (h : r.Keeps s) {g a v ch} : r.KeepsOut (Machine.execNtfy g a v ch s) := by
  simp only [Machine.execNtfy]
  refine h.ordinary fun c act => ?_
  refine State.Keeps.foldlOn Prod.snd h fun q l h => ?_
  split
  · exact h.modThread
  · split
    · exact h.modThread
    · split
      · exact h.modThread
      · split
        · exact h.modThread.sendWake
        · exact h.modThread.update

/-! ### Copy chains -/

theorem State.Keeps.modChain (h : r.Keeps s) {id f} : r.Keeps (s.modChain id f) := h.update
theorem State.Keeps.endChain (h : r.Keeps s) {k status count} : r.Keeps (s.endChain k status count) := h.modThread.modGroup.update.tryRows

theorem State.Keeps.leaveFault (h : r.Keeps s) {k} : r.Keeps (s.leaveFault k) := by
  simp only [State.leaveFault]
  split
  · exact h.update
  · exact h

theorem State.Keeps.stopChain (h : r.Keeps s) {id status} : r.Keeps (s.stopChain id status) := by
  simp only [State.stopChain]
  split
  · exact h
  · exact h.endChain.ite h.leaveFault.modChain

theorem State.Keeps.nextRec (h : r.Keeps s) {id} : r.Keeps (s.nextRec id) := h.modChain

theorem State.Keeps.parkChain (h : r.Keeps s) {k va w} : r.Keeps (s.parkChain k va w) := by
  simp only [State.parkChain]
  exact h.raiseFault.modChain

theorem State.Keeps.mapPages (h : r.Keeps s) {x w ps} : r.Keeps (s.mapPages x w ps).2 := by
  induction ps generalizing s with
  | nil => exact h
  | cons p ps ih =>
    simp only [State.mapPages]
    split <;> have ht := h.translate.of_snd ‹_›
    · exact ht
    · exact ht
    · exact ht
    · split
      · split
        · exact (ih ht).of_snd ‹_›
        · exact ih ht
      · exact ht
    · split
      · exact ht
      · split
        · exact (ih ht).of_snd ‹_›
        · exact ih ht

theorem State.Keeps.mapRange (h : r.Keeps s) {k sp w addr n} : r.Keeps (s.mapRange k sp w addr n).2 := by
  simp only [State.mapRange]
  split
  · exact h
  · split
    · split
      · exact h.mapPages.foldl fun _ _ h => h.markDirty
      · exact h.mapPages
    · exact h.mapPages

theorem State.Keeps.readPieces (h : r.Keeps s) {k sp ps} : r.Keeps (s.readPieces k sp ps).2 := by
  induction ps generalizing s with
  | nil => exact h
  | cons p ps ih =>
    simp only [State.readPieces]
    split
    · exact ih h
    · split
      · exact ih h
      · exact ih (h.foldl fun _ _ h => h.settle)

theorem State.Keeps.writePieces (h : r.Keeps s) {k sp ps data} : r.Keeps (s.writePieces k sp ps data).2 := by
  induction ps generalizing s data with
  | nil => exact h
  | cons p ps ih => exact ih (.ite h.modTeam (h.foldl fun _ _ h => h.homeWrite))

theorem State.Keeps.tryAccess (h : r.Keeps s) {die rd wr} : r.Keeps (s.tryAccess die rd wr).2 := by
  simp only [State.tryAccess]
  split
  · exact h.ownLines
  · exact h

theorem State.Keeps.access (h : r.Keeps s) {die rd wr} : r.Keeps (s.access die rd wr).2 := by
  simp only [State.access]
  split
  · exact h.tryAccess.of_snd ‹_›
  · exact (h.tryAccess.of_snd ‹_›).foldl fun _ _ h => h.awaitPeer

theorem State.Keeps.reachRanges (h : r.Keeps s) {k rd wr} : r.Keeps (s.reachRanges k rd wr).2 := h.tryAccess
theorem State.Keeps.counted (h : r.Keeps s) {k n dead} : r.Keeps (s.counted k n dead) := h.modChain

/-- A record that an engine reaches keeps what its own part keeps. -/
theorem State.Keeps.reach (h : r.Keeps s) {core i f} (hf : ∀ k, r.Keeps (f s k)) : r.KeepsOut (Machine.reach core i f s) := by
  show State.Keeps _ _
  split
  · exact h
  · exact h.ite (h.stopChain.ite (hf _))

theorem State.Keeps.latch (h : r.Keeps s) {k i} : r.Keeps (s.latch k i) := h.modChain

theorem keeps_checked (h : r.Keeps s) {k aligned ranges rest} (ht : r.Keeps t) : r.Keeps (checked s k aligned ranges rest t) := by
  refine h.stopChain.ite (h.stopChain.ite ?_)
  split
  · exact h.stopChain
  · exact ht

theorem State.Keeps.execMove (h : r.Keeps s) {core rec} : r.KeepsOut (Machine.execMove core rec s) := h.reach fun _ => keeps_checked h h.latch

theorem State.Keeps.copyBytes (h : r.Keeps s) {k sp n sps dps} : r.Keeps (s.copyBytes k sp n sps dps).2 := by
  induction n generalizing s sps dps with
  | zero => exact h
  | succ n ih =>
    simp only [State.copyBytes]
    split
    · exact ih h.readPieces.writePieces
    · exact h

theorem keeps_moveBurst (h : r.Keeps s) {k rec} : r.Keeps (moveBurst s k rec) := by
  unfold moveBurst
  extract_lets n sa da
  split
  · exact (h.mapRange.of_snd ‹_›).parkChain
  · exact h.mapRange.of_snd ‹_›
  · exact (h.mapRange.of_snd ‹_›).stopChain
  · have hs := h.mapRange.of_snd ‹_›
    split
    · exact (hs.mapRange.of_snd ‹_›).parkChain
    · exact hs.mapRange.of_snd ‹_›
    · exact (hs.mapRange.of_snd ‹_›).stopChain
    · have hd := hs.mapRange.of_snd ‹_›
      split
      · exact hd.reachRanges.of_snd ‹_›
      · have hr := hd.reachRanges.of_snd ‹_›
        split
        next e =>
          have hc := (hr.copyBytes.iteSnd hr.readPieces.writePieces).of_snd e
          split
          · exact hc.counted.modChain
          · exact hc.counted.nextRec

theorem State.Keeps.execMcast (h : r.Keeps s) {core rec} : r.KeepsOut (Machine.execMcast core rec s) :=
  h.reach fun _ => h.stopChain.ite (keeps_checked h h.modChain)

theorem State.Keeps.mcastTo (h : r.Keeps s) {rec data d} : r.Keeps (s.mcastTo rec data d) := by
  simp only [State.mcastTo]
  split
  · exact (h.modTeam.unless fun h => h.modTeam).touchSaved
  · exact (h.modTeam.unless fun h => h.modTeam).modTeam
  · exact h.modTeam.unless fun h => h.modTeam

theorem keeps_mcastBurst (h : r.Keeps s) {k rec} : r.Keeps (mcastBurst s k rec) := by
  simp only [mcastBurst]
  split <;> have hm := h.mapRange.of_snd ‹_›
  · exact hm.parkChain
  · exact hm
  · exact hm.stopChain
  · split
    · exact hm.reachRanges.of_snd ‹_›
    · exact ((hm.reachRanges.of_snd ‹_›).readPieces.foldl fun _ _ h => h.mcastTo).counted.nextRec

theorem State.Keeps.execLoop (h : r.Keeps s) {core rec} : r.KeepsOut (Machine.execLoop core rec s) := by
  simp only [Machine.execLoop]
  refine h.reach fun k => ?_
  split
  · exact h.stopChain
  · exact h.modChain

theorem State.Keeps.execCond (h : r.Keeps s) {core rec} : r.KeepsOut (Machine.execCond core rec s) := h.reach fun _ => keeps_checked h h.modChain
theorem State.Keeps.execConv (h : r.Keeps s) {core rec} : r.KeepsOut (Machine.execConv core rec s) := h.reach fun _ => keeps_checked h h.latch

theorem keeps_convStep {k rec sps dps a j} (h : r.Keeps a.2.2) : r.Keeps (convStep k rec sps dps a j).2.2 := by
  simp only [convStep]
  have ho {ps qs} : r.Keeps (if ewidth rec.dfmt = 4 then (a.2.2.readPieces k rec.ssp ps).2.readPieces k rec.dsp qs
      else ([], (a.2.2.readPieces k rec.ssp ps).2)).2 := h.readPieces.readPieces.iteSnd h.readPieces
  split
  · exact ho.writePieces
  · exact ho

theorem keeps_convBurst (h : r.Keeps s) {k rec} : r.Keeps (convBurst s k rec) := by
  unfold convBurst
  extract_lets n
  split
  · exact (h.mapRange.of_snd ‹_›).parkChain
  · exact h.mapRange.of_snd ‹_›
  · exact (h.mapRange.of_snd ‹_›).stopChain
  · have hs := h.mapRange.of_snd ‹_›
    split
    · exact (hs.mapRange.of_snd ‹_›).parkChain
    · exact hs.mapRange.of_snd ‹_›
    · exact (hs.mapRange.of_snd ‹_›).stopChain
    · have hd := hs.mapRange.of_snd ‹_›
      split
      · exact hd.reachRanges.of_snd ‹_›
      · split
        next e =>
          have hc := State.Keeps.of_snd_snd (.foldlThird (hd.reachRanges.of_snd ‹_›) fun _ _ h => keeps_convStep h) e
          exact hc.counted.modChain.ite hc.counted.nextRec

theorem State.Keeps.execSample (h : r.Keeps s) {core rec} : r.KeepsOut (Machine.execSample core rec s) := by
  simp only [Machine.execSample]
  exact h.reach fun k => keeps_checked h h.fresh.update.latch

theorem State.Keeps.rowRead (h : r.Keeps s) {en} : r.Keeps (s.rowRead en) := h.update

theorem keeps_sampleBurst (h : r.Keeps s) {k rec} : r.Keeps (sampleBurst s k rec) := by
  unfold sampleBurst
  split
  · exact h
  · extract_lets i n
    split
    · exact (State.Keeps.of_ite h.mapRange h ‹_›).parkChain
    · exact State.Keeps.of_ite h.mapRange h ‹_›
    · exact (State.Keeps.of_ite h.mapRange h ‹_›).stopChain
    · have ho := State.Keeps.of_ite h.mapRange h ‹_›
      split
      · exact (ho.mapRange.of_snd ‹_›).parkChain
      · exact ho.mapRange.of_snd ‹_›
      · exact (ho.mapRange.of_snd ‹_›).stopChain
      · have hc := ho.mapRange.of_snd ‹_›
        split
        · exact hc.reachRanges.of_snd ‹_›
        · extract_lets row s1 s2 s3
          have h1 : r.Keeps s1 := (hc.reachRanges.of_snd ‹_›).rowRead
          have h2 : r.Keeps s2 := by
            refine h1.unless fun h => ?_
            exact (h.readPieces.iteSnd h).writePieces.writePieces.counted
          have h3 : r.Keeps s3 := h2.modChain.ite h2.nextRec
          exact h3.tryRows

theorem State.Keeps.execCsend (h : r.Keeps s) {core rec} : r.KeepsOut (Machine.execCsend core rec s) := h.reach fun _ => keeps_checked h h.latch

theorem keeps_csendBurst (h : r.Keeps s) {k rec} : r.Keeps (csendBurst s k rec) := by
  unfold csendBurst
  extract_lets i bn off
  split
  · exact (h.mapRange.of_snd ‹_›).parkChain
  · exact h.mapRange.of_snd ‹_›
  · exact (h.mapRange.of_snd ‹_›).stopChain
  · have hm := h.mapRange.of_snd ‹_›
    split
    · exact hm.reachRanges.of_snd ‹_›
    · have hr := hm.reachRanges.of_snd ‹_›
      refine hr.ite ?_
      split
      next e =>
        have hd := hr.readPieces.of_snd e
        extract_lets u
        have hu : r.Keeps u := by
          unfold u
          split
          · exact hd.counted
          · exact State.Keeps.modChain hd.update
        exact hu.modChain.ite hu.nextRec

theorem State.Keeps.settleChain (h : r.Keeps s) {id} : r.Keeps (s.settleChain id) := by
  simp only [State.settleChain]
  split
  · exact h
  · exact h.endChain.ite h

theorem State.Keeps.execCsendAnswer (h : r.Keeps s) {chain block status} : r.KeepsOut (Machine.execCsendAnswer chain block status s) := by
  simp only [Machine.execCsendAnswer]
  show State.Keeps _ _
  split
  · exact h
  · split
    · exact h
    · exact h.modChain.settleChain

theorem keeps_sigBurst (h : r.Keeps s) {k rec} : r.Keeps (sigBurst s k rec) := by
  simp only [sigBurst]
  split
  · split
    · exact h.nextRec
    · exact h.nextRec.sendOrWait
  · split
    · exact h.writePieces.nextRec
    · split
      · exact (h.translate.of_snd ‹_›).parkChain
      · exact (h.translate.of_snd ‹_›).parkChain
      · exact h.translate.of_snd ‹_›
      · have ht := h.translate.of_snd ‹_›
        exact ht.counted.nextRec.ite ht.stopChain
      · have ht := h.translate.of_snd ‹_›
        refine ht.stopChain.ite (ht.counted.nextRec.ite ?_)
        split
        · exact ht.reachRanges.of_snd ‹_›
        · exact (ht.reachRanges.of_snd ‹_›).markDirty.settle.homeWriteBytes.nextRec

theorem State.Keeps.execSig (h : r.Keeps s) {core rec} : r.KeepsOut (Machine.execSig core rec s) :=
  h.reach fun _ => keeps_checked h (keeps_sigBurst h.latch)

theorem State.Keeps.execRecEnd (h : r.Keeps s) {core} : r.KeepsOut (Machine.execRecEnd core s) := h.reach fun _ => h.modChain.settleChain

theorem State.Keeps.execChainStart (h : r.Keeps s) {core} : r.KeepsOut (Machine.execChainStart core s) := by
  simp only [Machine.execChainStart]
  show State.Keeps _ _
  split
  · exact h
  · exact h.modChain.ite h

theorem State.Keeps.execCopyBurst (h : r.Keeps s) {core} : r.KeepsOut (Machine.execCopyBurst core s) := by
  simp only [Machine.execCopyBurst]
  show State.Keeps _ _
  split
  · exact h
  · split
    · exact h.settleChain
    · exact keeps_moveBurst h
    · exact keeps_mcastBurst h
    · exact keeps_convBurst h
    · exact keeps_sampleBurst h
    · exact keeps_csendBurst h
    · exact keeps_sigBurst h
    · exact h

theorem keeps_newChain (h : r.Keeps s) {c l d off} : r.Keeps (newChain s c l d off) := by
  simp only [newChain]
  exact h.fresh.update.modThread.modGroup

theorem State.Keeps.execCpGo (h : r.Keeps s) {g d a} : r.KeepsOut (Machine.execCpGo g d a s) := by
  simp only [Machine.execCpGo]
  refine h.ordinary fun c act => ?_
  split
  · trivial
  · split
    · trivial
    · split
      · trivial
      · exact h.foldl fun _ _ h => keeps_newChain h

theorem State.Keeps.execCpStop (h : r.Keeps s) {g a} : r.KeepsOut (Machine.execCpStop g a s) := by
  simp only [Machine.execCpStop]
  refine h.named fun c act => ?_
  exact h.foldl fun _ _ h => by
    split
    · exact h
    · split
      · exact h.endChain
      · exact h.modChain
      · exact h.stopChain
      · exact h

theorem State.Keeps.execCpStat (h : r.Keeps s) {g d a} : r.KeepsOut (Machine.execCpStat g d a s) := h.named fun _ _ => h.modLanes

theorem State.Keeps.execWaitc (h : r.Keeps s) {l st cp t} : r.KeepsOut (Machine.execWaitc l st cp t s) := by
  simp only [Machine.execWaitc]
  refine h.ordinary fun c act => ?_
  split
  · exact h
  · trivial

/-! ### Shuffles -/

theorem State.Keeps.modShuffle (h : r.Keeps s) {id f} : r.Keeps (s.modShuffle id f) := h.update

theorem State.Keeps.coreRead (h : r.Keeps s) {core key pa n} : r.Keeps (s.coreRead core key pa n).2 := by
  simp only [State.coreRead]
  split
  · exact h
  · exact h.settleRange.seeStores.foldl fun _ _ h => h.record

theorem State.Keeps.loadPages (h : r.Keeps s) {ti gi l ps} : r.Keeps (s.loadPages ti gi l ps).2 := by
  induction ps generalizing s with
  | nil => exact h
  | cons p ps ih =>
    simp only [State.loadPages]
    split <;> have ht := h.translate.of_snd ‹_›
    · exact ht
    · exact ht
    · exact ht
    · exact ht
    · split
      · exact ht
      · split
        · exact ht
        · split
          · exact (ih ht.coreRead).of_snd ‹_›
          · exact ih ht.coreRead

theorem State.Keeps.loadRange (h : r.Keeps s) {ti gi l va n} : r.Keeps (s.loadRange ti gi l va n).2 := h.loadPages

theorem keeps_readDesc (h : r.Keeps s) {ti gi l a} : r.Keeps (readDesc s ti gi l a).2.2 := by
  simp only [readDesc]
  split
  · have hd := h.loadRange.of_snd ‹_›
    split
    · split <;> exact hd.loadRange.of_snd ‹_›
    · exact hd
  · exact h.loadRange.of_snd ‹_›

theorem keeps_openStatus (h : r.Keeps s) {ti gi a id bs devs} : r.Keeps (openStatus s ti gi a id bs devs).2 := by
  simp only [openStatus]
  split
  · exact h
  · split
    · exact h
    · split
      · exact h
      · exact h.update.emit

theorem State.Keeps.execShfOpen (h : r.Keeps s) {g d a b} : r.KeepsOut (Machine.execShfOpen g d a b s) := by
  unfold Machine.execShfOpen
  refine h.ordinary fun c act => ?_
  extract_lets las
  split
  · trivial
  · split
    next gots s1 e =>
      have h1 : r.Keeps s1 := by
        refine State.Keeps.of_snd (.foldlOn Prod.snd ?_ fun q la h => ?_) e
        · exact h
        · exact keeps_readDesc h
      split
      · trivial
      · extract_lets parks waits
        split
        · exact keeps_parkLanes h1
        · split
          · trivial
          · refine h1.foldl fun u q h => ?_
            split
            · exact (keeps_openStatus h).modThread
            · exact h

theorem State.Keeps.answerBlock (h : r.Keeps s) {dst shid bn status} : r.Keeps (s.answerBlock dst shid bn status) := h.update
theorem State.Keeps.strainerChanged (h : r.Keeps s) {die} : r.Keeps (s.strainerChanged die) := h.update.strainerLevel

theorem State.Keeps.writeBlock (h : r.Keeps s) {sh off data} : r.Keeps (s.writeBlock sh off data).2 := by
  simp only [State.writeBlock]
  split
  · exact h
  · split
    · exact h.mapPages.of_snd ‹_›
    · exact h.mapPages.of_snd ‹_›
    · exact h.mapPages.of_snd ‹_›
    · have hm := h.mapPages.of_snd ‹_›
      split
      · exact hm
      · split
        · exact hm.access.of_snd ‹_›
        · exact .foldlOn Prod.snd ((hm.access.of_snd ‹_›).foldl fun _ _ h => h.markDirty) fun _ _ h => h.homeWriteBytes

theorem State.Keeps.arrivalFault (h : r.Keeps s) {sh va} : r.Keeps (s.arrivalFault sh va).2 := h.raiseFault
theorem State.Keeps.keepBlock (h : r.Keeps s) {sh b kind fid} : r.Keeps (s.keepBlock sh b kind fid) := h.update.strainerChanged

theorem State.Keeps.leaveSlot (h : r.Keeps s) {slot} : r.Keeps (s.leaveSlot slot) := by
  simp only [State.leaveSlot]
  split
  · exact h.update.strainerChanged
  · exact h

theorem State.Keeps.stayBlock (h : r.Keeps s) {sh b kind fid slot} : r.Keeps (s.stayBlock sh b kind fid slot) := by
  simp only [State.stayBlock]
  split
  · exact h.update
  · exact h.keepBlock

theorem State.Keeps.deliverFrom (h : r.Keeps s) {slot sh b kind} : r.Keeps (s.deliverFrom slot sh b kind) := by
  simp only [State.deliverFrom]
  split <;> have hw := h.writeBlock.of_snd ‹_›
  · exact hw.leaveSlot.modShuffle.answerBlock
  · exact (hw.leaveSlot.unless fun h => h.modShuffle).answerBlock
  · exact hw.arrivalFault.stayBlock
  · exact hw.stayBlock

theorem State.Keeps.deliverBlock (h : r.Keeps s) {sh b kind} : r.Keeps (s.deliverBlock sh b kind) := h.deliverFrom
theorem State.Keeps.sideMissing (h : r.Keeps s) {sh bn} : r.Keeps (s.sideMissing sh bn) := h.modShuffle.answerBlock.ite h.emit

theorem State.Keeps.decodeCoded (h : r.Keeps s) {sh p} (e : s.decodeCoded sh p = some t) : r.Keeps t := by
  unfold State.decodeCoded at e
  extract_lets own at e
  split at e
  · cases e; exact h
  · split at e
    · split at e
      · cases e; exact h.sideMissing
      · cases e
    · cases e; exact h.sideMissing
    · split at e
      · cases e
      · extract_lets s1 blocks out at e
        have h1 : r.Keeps s1 := h.foldl fun _ _ h => h.foldl fun _ _ h => h.settle
        split at e <;> cases e
        · exact h1.modShuffle.sideMissing
        · exact h1.deliverBlock

theorem State.Keeps.awaitSides (h : r.Keeps s) {sh p} : r.Keeps (s.awaitSides sh p) := by
  simp only [State.awaitSides]
  split
  · exact h.foldl fun _ _ h => h.awaitRange
  · exact h

theorem State.Keeps.retryCoded (h : r.Keeps s) {id} : r.Keeps (s.retryCoded id) := by
  simp only [State.retryCoded]
  exact h.foldl fun _ _ h => by
    split
    · split
      · exact h
      · split
        · exact h.awaitSides
        · exact (h.update.decodeCoded ‹_›).strainerChanged
    · exact h

theorem State.Keeps.execCodedPacketArrival (h : r.Keeps s) {p} : r.KeepsOut (Machine.execCodedPacketArrival p s) := by
  simp only [Machine.execCodedPacketArrival]
  show State.Keeps _ _
  split
  · exact h
  · exact h.answerBlock
  · exact h.answerBlock.ite (h.modShuffle.emit.ite h.update.strainerChanged.retryCoded)

theorem State.Keeps.execUncodedBlockArrival (h : r.Keeps s) {b} : r.KeepsOut (Machine.execUncodedBlockArrival b s) := by
  simp only [Machine.execUncodedBlockArrival]
  show State.Keeps _ _
  split
  · exact h.answerBlock
  · exact h.answerBlock.ite h.deliverBlock

theorem State.Keeps.tryBlock (h : r.Keeps s) {slot retry} : r.Keeps (s.tryBlock slot retry) := by
  simp only [State.tryBlock]
  split
  · exact h
  · split
    · exact h.leaveSlot.answerBlock
    · exact h.deliverFrom.ite h.leaveSlot.modShuffle.answerBlock

theorem State.Keeps.resolveArrivals (h : r.Keeps s) {fid retry} : r.Keeps (s.resolveArrivals fid retry) := h.foldl fun _ _ h => h.tryBlock
theorem State.Keeps.settleArrivals (h : r.Keeps s) : r.Keeps s.settleArrivals := (h.foldl fun _ _ h => h.tryBlock).foldl fun _ _ h => h.retryCoded
theorem State.Keeps.resendFault (h : r.Keeps s) {k va} : r.Keeps (s.resendFault k va).2 := h.raiseFault

theorem State.Keeps.resend (h : r.Keeps s) {k w} : r.Keeps (s.resend k w) := by
  simp only [State.resend]
  split <;> have hm := h.mapRange.of_snd ‹_›
  · exact hm.resendFault.modChain
  · exact hm
  · exact hm.modChain.settleChain
  · split
    · exact hm.access.of_snd ‹_›
    · have ha := hm.access.of_snd ‹_›
      split
      · exact ha
      · split
        · exact ha.readPieces.modChain.settleChain
        · exact ha.readPieces.modChain.update

theorem State.Keeps.settleResends (h : r.Keeps s) : r.Keeps s.settleResends := h.foldl fun _ _ h => h.resend

theorem State.Keeps.execResendRequest (h : r.Keeps s) {receiver shid bn} : r.KeepsOut (Machine.execResendRequest receiver shid bn s) := by
  simp only [Machine.execResendRequest]
  show State.Keeps _ _
  split
  · exact h
  · exact h.ite h.resend

theorem State.Keeps.addSide (h : r.Keeps s) {id bn pa key gen} : r.Keeps (s.addSide id bn pa key gen).2 := by
  simp only [State.addSide]
  split
  · exact h
  · split
    · exact h.update.emit.retryCoded
    · split
      · exact h
      · exact h.update.emit.retryCoded

theorem State.Keeps.execShfSide (h : r.Keeps s) {g d a b n} : r.KeepsOut (Machine.execShfSide g d a b n s) := by
  simp only [Machine.execShfSide]
  refine h.ordinary fun c act => ?_
  split
  · trivial
  · exact keeps_memChecks_later h ‹_›
  · split
    · exact keeps_parkLanes (keeps_memChecks_pass h ‹_›)
    · split
      · trivial
      · exact (keeps_memChecks_pass h ‹_›).foldl fun _ _ h => by
          split
          · exact h.modThread
          · exact h.addSide.modThread
          · exact h.modThread

theorem State.Keeps.dropSide (h : r.Keeps s) {ti gi id bn} : r.Keeps (s.dropSide ti gi id bn).2 := by
  simp only [State.dropSide]
  split
  · exact h
  · split
    · exact h
    · split
      · exact h
      · split
        · exact h.update
        · exact h

theorem State.Keeps.execShfDrop (h : r.Keeps s) {g d a b} : r.KeepsOut (Machine.execShfDrop g d a b s) := by
  simp only [Machine.execShfDrop]
  exact h.ordinary fun c act => h.foldl fun _ _ h => h.dropSide.modThread

theorem State.Keeps.freeSide (h : r.Keeps s) {sh} : r.Keeps (s.freeSide sh) := by
  refine State.Keeps.strainerChanged (h.update.foldl fun _ _ h => ?_)
  split
  · exact h
  · exact h.answerBlock

theorem State.Keeps.finishClose (h : r.Keeps s) {sh} : r.Keeps (s.finishClose sh) :=
  h.freeSide.update.foldl fun _ _ h => h.modThread.ite h.modThread.modGroup

theorem State.Keeps.endClose (h : r.Keeps s) {sh} : r.Keeps (s.endClose sh) :=
  (h.freeSide.modShuffle.foldl fun _ _ h => h.modThread).ite h.finishClose

theorem State.Keeps.execShfCloseComplete (h : r.Keeps s) {shid} : r.KeepsOut (Machine.execShfCloseComplete shid s) := by
  simp only [Machine.execShfCloseComplete]
  show State.Keeps _ _
  split
  · exact h
  · split
    · exact h
    · split <;> have hm := h.mapPages.of_snd ‹_›
      · exact hm.ite hm.arrivalFault
      · exact hm
      · split
        · exact hm.endClose
        · split
          · exact hm.access.of_snd ‹_›
          · exact (hm.access.of_snd ‹_›).markDirty.homeWriteBytes.endClose
      · exact hm.endClose

theorem State.Keeps.closeFailed (h : r.Keeps s) {sh} : r.Keeps (s.closeFailed sh) := h.ite h.freeSide.update

theorem State.Keeps.beginClose (h : r.Keeps s) {c l d sh} : r.Keeps (s.beginClose c l d sh) := by
  simp only [State.beginClose]
  exact h.modShuffle.retryCoded.modThread.modShuffle.ite h.modShuffle.retryCoded.fresh.modThread.modGroup.modShuffle

theorem State.Keeps.execShfClose (h : r.Keeps s) {g d b} : r.KeepsOut (Machine.execShfClose g d b s) := by
  simp only [Machine.execShfClose]
  refine h.ordinary fun c act => ?_
  split
  · exact h.modShuffle
  · exact h.foldl fun _ _ h => by
      split
      · exact h.modThread
      · exact h.closeFailed.modThread.ite ((keeps_stallLanes h).ite h.beginClose)

/-! ### Arenas -/

theorem State.Keeps.execArnChk (h : r.Keeps s) {g d a} : r.KeepsOut (Machine.execArnChk g d a s) := h.ordinary fun _ _ => h.perLane
theorem State.Keeps.execArnWin (h : r.Keeps s) {g d a} : r.KeepsOut (Machine.execArnWin g d a s) := h.ordinary fun _ _ => h.perLane

theorem State.Keeps.createArena (h : r.Keeps s) {node n frames die a} (e : s.createArena node n frames die = some (a, t)) : r.Keeps t := by
  unfold State.createArena at e
  extract_lets mine at e
  split at e
  · split at e
    · cases e
    · cases e; exact (h.foldl fun _ _ h => h.freshFrame).update
  · cases e

theorem State.Keeps.createArenas (h : r.Keeps s) {node n rs l} (e : s.createArenas node n rs = some (l, t)) : r.Keeps t := by
  induction rs generalizing s l with
  | nil => cases e; exact h
  | cons q rs ih =>
    simp only [State.createArenas] at e
    split at e
    · cases e
    · split at e <;> cases e
      exact ih (h.createArena ‹_›) ‹_›

theorem State.Keeps.writeVia (h : r.Keeps s) {x va bytes} : r.Keeps (s.writeVia x va bytes).2 := by
  unfold State.writeVia
  split
  · have ht := h.translate.of_snd ‹_›
    refine ht.awaitPeer.iteSnd ?_
    extract_lets u
    have hu : r.Keeps u := ht.markDirty
    refine (hu.devWrite.iteSnd hu.rawWrite).iteSnd (hu.iteSnd ?_)
    split
    · exact hu.ownLines.of_fst ‹_›
    · exact (hu.ownLines.of_fst ‹_›).homeWriteBytes
  · exact h.translate.of_snd ‹_›
  · exact h.translate.of_snd ‹_›

theorem State.Keeps.writeHandles (h : r.Keeps s) {x args as} : r.Keeps (s.writeHandles x args as).2 := by
  induction as generalizing s with
  | nil => exact h
  | cons a as ih =>
    simp only [State.writeHandles]
    split
    · exact ih (h.writeVia.of_snd ‹_›)
    · exact h.writeVia

theorem State.Keeps.cancelArenas (h : r.Keeps s) {node} : r.Keeps (s.cancelArenas node) := h.update
theorem State.Keeps.arenasDying (h : r.Keeps s) {node} : r.Keeps (s.arenasDying node) := h.update
theorem State.Keeps.dropArenaLines (h : r.Keeps s) {node} : r.Keeps (s.dropArenaLines node) := h.foldl fun _ _ h => h.discardLine

theorem State.Keeps.arenaStep (h : r.Keeps s) {node n} : r.Keeps (s.arenaStep node n) := by
  simp only [State.arenaStep]
  split
  · exact h.arenasDying.modNode
  · exact h.modNode.ite h
  · exact h.modNode
  · exact h.dropArenaLines.modNode
  · exact h.ite h.cancelArenas.modNode

theorem State.Keeps.execArenaDeath (h : r.Keeps s) {node} : r.KeepsOut (Machine.execArenaDeath node s) := by
  simp only [Machine.execArenaDeath]
  show State.Keeps _ _
  split
  · exact h
  · exact h.ite h.arenaStep

/-! ### Queues and nodes -/

theorem State.Keeps.passSlots (h : r.Keeps s) {q n} : r.Keeps (s.passSlots q n) := h.modQueue

theorem State.Keeps.readPacket (h : r.Keeps s) {q} : r.Keeps (s.readPacket q).2 := by
  simp only [State.readPacket]
  split
  · exact h
  · split
    · exact h
    · split
      · exact h.readVia.of_snd ‹_›
      · exact h.readVia.of_snd ‹_›
      · have h1 := h.readVia.of_snd ‹_›
        split
        · exact .of_ite h1.readVia h1 ‹_›
        · exact .of_ite h1.readVia h1 ‹_›
        · have h2 := State.Keeps.of_ite h1.readVia h1 ‹_›
          split
          · exact h2
          · split <;> exact h2

theorem State.Keeps.frontNext (h : r.Keeps s) {q} : r.Keeps (s.frontNext q).2 := by
  simp only [State.frontNext]
  split
  · exact h
  · split
    · exact h
    · split
      · exact h
      · exact h.readPacket

/-- A packet keeps what its own part keeps. -/
theorem State.Keeps.fronted (h : r.Keeps s) {q ok f} (hf : r.Keeps (f s)) : r.KeepsOut (Machine.fronted q ok f s) :=
  show State.Keeps _ _ from h.ite (hf.ite h.stopQueue)

theorem State.Keeps.execLaunch (h : r.Keeps s) {q p} : r.KeepsOut (Machine.execLaunch q p s) := h.fronted h.update
theorem State.Keeps.startNode (h : r.Keeps s) {node n arenas} : r.Keeps (s.startNode node n arenas) := h.modNode.update.passSlots
theorem State.Keeps.failNode (h : r.Keeps s) {node q err} : r.Keeps (s.failNode node q err) := h.cancelArenas.stopQueue.modNode

theorem State.Keeps.execNodeStart (h : r.Keeps s) {node} : r.KeepsOut (Machine.execNodeStart node s) := by
  simp only [Machine.execNodeStart]
  show State.Keeps _ _
  split
  · exact h
  · split
    · exact h
    · split
      · exact h
      · split
        · exact h.failNode
        · split
          · exact h
          · split
            · exact ((h.createArenas ‹_›).writeHandles.of_snd ‹_›).failNode
            · exact h.update
            · exact ((h.createArenas ‹_›).writeHandles.of_snd ‹_›).startNode

theorem State.Keeps.tryWait (h : r.Keeps s) {q addr value} : r.Keeps (s.tryWait q addr value) := by
  simp only [State.tryWait]
  split <;> have hv := h.readVia.of_snd ‹_›
  · exact hv.stopQueue
  · exact hv
  · exact hv.passSlots.ite hv.modQueue

theorem State.Keeps.execWait (h : r.Keeps s) {q addr value} : r.KeepsOut (Machine.execWait q addr value s) := h.fronted h.tryWait

theorem State.Keeps.execWaitRecheck (h : r.Keeps s) {q} : r.KeepsOut (Machine.execWaitRecheck q s) := by
  simp only [Machine.execWaitRecheck]
  show State.Keeps _ _
  split
  · exact h
  · split
    · exact h
    · exact h.tryWait

theorem State.Keeps.execSignal (h : r.Keeps s) {q sys addr value} : r.KeepsOut (Machine.execSignal q sys addr value s) := by
  unfold Machine.execSignal
  refine h.fronted (h.ite ?_)
  split
  · exact (h.writeVia.of_snd ‹_›).stopQueue
  · exact h.writeVia.of_snd ‹_›
  · exact (h.writeVia.of_snd ‹_›).passSlots

theorem State.Keeps.execPred (h : r.Keeps s) {q ne na nb addr value} : r.KeepsOut (Machine.execPred q ne na nb addr value s) := by
  simp only [Machine.execPred]
  refine h.fronted ?_
  split
  · exact h
  · split
    · exact (h.readVia.of_snd ‹_›).stopQueue
    · exact h.readVia.of_snd ‹_›
    · exact (h.readVia.of_snd ‹_›).modQueue

theorem State.Keeps.setCarve (h : r.Keeps s) {core scr} : r.Keeps (s.setCarve core scr) := h.update.foldl fun _ _ h => h.loseL1

theorem State.Keeps.placeFresh (h : r.Keeps s) {ti n cores} : r.Keeps (s.placeFresh ti n cores) :=
  (h.update.foldl fun _ _ h => h.setCarve).modTeam.settleGrid

theorem State.Keeps.execTeamPlacement (h : r.Keeps s) {ti} : r.KeepsOut (Machine.execTeamPlacement ti s) := by
  simp only [Machine.execTeamPlacement]
  show State.Keeps _ _
  split
  · exact h.placeFresh.ite h
  · exact h.modTeam.ite h
  · exact h

/-! ### Resolving faults -/

theorem keeps_retryLoadPart (h : r.Keeps s) {ld p} : r.Keeps (retryLoadPart s ld p).2 := by
  simp only [retryLoadPart]
  split <;> have ht := h.translate.of_snd ‹_›
  · exact ht.markDirty.ite ht
  · exact ht.laneFault
  · exact ht.laneFault
  · exact ht
  · split
    · exact ht
    · exact ht.laneFault

theorem State.Keeps.retryLoad (h : r.Keeps s) {ld which} : r.Keeps (s.retryLoad ld which) := by
  refine State.Keeps.update (State.Keeps.foldlOn Prod.snd h fun a p h => ?_)
  split
  · exact keeps_retryLoadPart h
  · exact h

theorem keeps_replayPart (h : r.Keeps s) {st p upTo} : r.Keeps (replayPart s st p upTo).2 := by
  simp only [replayPart]
  split <;> have ht := h.translate.of_snd ‹_›
  · exact ht.markDirty
  · exact ht
  · exact ht.laneFault
  · exact ht.laneFault
  · split
    · exact ht
    · exact ht.laneFault

theorem State.Keeps.setPart (h : r.Keeps s) {id p} : r.Keeps (s.setPart id p) := h.update

theorem State.Keeps.replayList (h : r.Keeps s) {upTo fid es} : r.Keeps (s.replayList upTo fid es) := by
  induction es generalizing s fid with
  | nil => simpa only [State.replayList] using h
  | cons x es ih =>
    cases fid with
    | some fid => exact ih h.setPart
    | none =>
      simp only [State.replayList]
      split
      · exact ih ((keeps_replayPart h).of_snd ‹_›).setPart.storeClose
      · exact ih ((keeps_replayPart h).of_snd ‹_›).setPart
      · exact (keeps_replayPart h).of_snd ‹_›

theorem State.Keeps.replayLog (h : r.Keeps s) {ti upTo which} : r.Keeps (s.replayLog ti upTo which) := h.foldl fun _ _ h => h.replayList

theorem State.Keeps.codeAt (h : r.Keeps s) {core pa key} : r.Keeps (s.codeAt core pa key).2 := by
  simp only [State.codeAt]
  split
  · exact h
  · exact h.settle.recordCode

theorem State.Keeps.fetchOne (h : r.Keeps s) {ti gi va} : r.Keeps (s.fetchOne ti gi va).2 := by
  simp only [State.fetchOne]
  split
  · split
    · exact (h.translate.of_snd ‹_›).codeAt
    · exact h.translate.of_snd ‹_›
  · exact h.translate.of_snd ‹_›

theorem State.Keeps.fetch (h : r.Keeps s) {ti gi va} : r.Keeps (s.fetch ti gi va).2 := by
  simp only [State.fetch]
  split
  · exact h
  · have h1 := h.fetchOne.of_snd ‹_›
    split
    · split
      · exact h
      · next e => exact h1.fetchOne.of_snd e
    · exact h1

theorem State.Keeps.retryFetch (h : r.Keeps s) {ti gi l} : r.Keeps (s.retryFetch ti gi l) := by
  unfold State.retryFetch
  extract_lets pc acx x park go
  have hp {u cause va} (h : r.Keeps u) : r.Keeps (park u cause va) := h.laneFault.modThread
  have hg {u} (h : r.Keeps u) : r.Keeps (go u) := h.modThread
  split
  · exact hp (h.translate.of_snd ‹_›)
  · exact hp (h.translate.of_snd ‹_›)
  · exact hp (h.translate.of_snd ‹_›)
  · exact h.translate.of_snd ‹_›
  · have ht := h.translate.of_snd ‹_›
    split
    · split
      · exact hp (ht.translate.of_snd ‹_›)
      · exact hp (ht.translate.of_snd ‹_›)
      · exact hp (ht.translate.of_snd ‹_›)
      · exact ht.translate.of_snd ‹_›
      · exact hg (ht.translate.of_snd ‹_›)
    · exact hg ht

theorem State.Keeps.walkAll (h : r.Keeps s) {ti die ps} : r.Keeps (s.walkAll ti die ps).2 := by
  induction ps generalizing s with
  | nil => exact h
  | cons p ps ih =>
    simp only [State.walkAll]
    split
    · exact h.translate.of_snd ‹_›
    · exact ih (h.translate.of_snd ‹_›)

theorem State.Keeps.resumeTeam (h : r.Keeps s) {ti upTo which} : r.Keeps (s.resumeTeam ti upTo which) :=
  (((h.foldl fun _ _ h => h.retryLoad).replayLog.foldl fun _ _ h => h.retryFetch).foldl fun _ _ h => h.resend).update

theorem State.Keeps.settleRetries (h : r.Keeps s) : r.Keeps s.settleRetries := h.foldl fun _ _ h => h.resumeTeam.ite h
theorem State.Keeps.freeSlot (h : r.Keeps s) {c} : r.Keeps (s.freeSlot c) := h.update.slotWrite
theorem State.Keeps.endChains (h : r.Keeps s) {ti} : r.Keeps (s.endChains ti) := h.foldl fun _ _ h => h.endChain

theorem State.Keeps.leaveBatches (h : r.Keeps s) {ti} : r.Keeps (s.leaveBatches ti) := by
  simp only [State.leaveBatches]
  exact h.update.foldl fun _ _ h => h.examineBfq

theorem State.Keeps.terminateTeam (h : r.Keeps s) {ti} : r.Keeps (s.terminateTeam ti) :=
  (h.foldl fun _ _ h => h.freeSlot).endChains.update.modTeam.leaveBatches.foldl fun _ _ h => h.tryRegs.tryRows

theorem State.Keeps.dropFaults (h : r.Keeps s) : r.Keeps s.dropFaults := h.update

theorem State.Keeps.terminateGrid (h : r.Keeps s) {node} : r.Keeps (s.terminateGrid node) :=
  (h.foldl fun _ _ h => h.terminateTeam).modNode.dropFaults.settleEnds

theorem State.Keeps.restartLine (h : r.Keeps s) {f} : r.Keeps (s.restartLine f) := h.update

theorem State.Keeps.retryFault (h : r.Keeps s) {f} : r.Keeps (s.retryFault f) :=
  ((h.update.when fun h => h.restartLine).foldl fun _ _ h => h.resumeTeam.ite h.touchSaved).resolveArrivals

theorem State.Keeps.retryReady (h : r.Keeps s) {f} : r.Keeps (s.retryReady f).2 := by
  refine .foldlOn Prod.snd h fun a ti h => ?_
  split
  · exact h.walkAll
  · exact h

theorem State.Keeps.abortFault (h : r.Keeps s) {f} : r.Keeps (s.abortFault f) :=
  (((h.foldl fun _ _ h => h.stopChain).foldl fun _ _ h => h.modChain.settleChain).ite (h.foldl fun _ _ h => h.terminateGrid)).update.resolveArrivals

theorem State.Keeps.resolveFault (h : r.Keeps s) {fid disp} : r.Keeps (s.resolveFault fid disp).2 := by
  simp only [State.resolveFault]
  split
  · exact h
  · split
    · split
      · exact (h.retryReady.of_snd ‹_›).retryFault
      · exact h.retryReady.of_snd ‹_›
    · split
      · exact h.abortFault
      · exact h

/-! ### Slots -/

theorem State.Keeps.slotPut (h : r.Keeps s) {die slot off bytes} : r.Keeps (s.slotPut die slot off bytes) := h.foldl fun _ _ h => h.slotWrite

theorem State.Keeps.writeSlot (h : r.Keeps s) {ti slot layout auto} : r.Keeps (s.writeSlot ti slot layout auto) :=
  (h.foldl fun _ _ h => h.slotWrite).foldl fun _ _ h => h.slotPut

theorem State.Keeps.syncSlot (h : r.Keeps s) {before k} : r.Keeps (State.syncSlot before s k) :=
  h.ite (h.foldl fun _ _ h => h.ite (h.foldl fun _ _ h => h.slotPut))

theorem State.Keeps.syncSlots (h : r.Keeps s) {before} : r.Keeps (State.syncSlots before s) := h.foldl fun _ _ h => h.syncSlot

theorem State.Keeps.settleHeader (h : r.Keeps s) {k} : r.Keeps (s.settleHeader k) := by
  simp only [State.settleHeader]
  split
  · exact (h.translate.of_snd ‹_›).settle.ite h
  · exact h

theorem State.Keeps.settleHeaders (h : r.Keeps s) : r.Keeps s.settleHeaders := h.foldl fun _ _ h => h.settleHeader

theorem State.Keeps.slotOpen (h : r.Keeps s) {die slot w} : r.Keeps (s.slotOpen die slot w).2 := by
  refine .foldlOn Prod.snd h fun a va h => ?_
  split
  · exact h
  · split
    · have ht := h.translate.of_snd ‹_›
      split
      · exact ht.awaitRange
      · split
        · exact ht.ownRange
        · exact ht
    · exact h.translate.of_snd ‹_›
    · exact h.translate.of_snd ‹_›

theorem State.Keeps.slotPages (h : r.Keeps s) {die slot} : r.Keeps (s.slotPages die slot).2 := by
  refine .foldlOn Prod.snd h fun a va h => ?_
  split
  · split
    · exact (h.translate.of_snd ‹_›).settleCached
    · exact h.translate.of_snd ‹_›
  · exact h.translate.of_snd ‹_›

theorem State.Keeps.rowsBack (h : r.Keeps s) {pages ti} : r.Keeps (s.rowsBack pages ti) := h.foldl fun _ _ h => (h.setAccRow.ite h).ite h
theorem State.Keeps.chainsBack (h : r.Keeps s) {get ti} : r.Keeps (s.chainsBack get ti) := h.foldl fun _ _ h => h.modChain
theorem State.Keeps.loadsBack (h : r.Keeps s) {get ti} : r.Keeps (s.loadsBack get ti) := h.foldl fun _ _ h => h.foldl fun _ _ h => h.update

/-- The kernel must not see `slotPages` applied while it unfolds `slotBack`: it would run it over all pages of a slot. So the function is
unfolded by itself, and the result of `slotPages` is generalised before it is taken apart. -/
theorem State.Keeps.slotBack (h : r.Keeps s) {ti slot} : r.Keeps (s.slotBack ti slot) := by
  suffices hf : ∀ f, State.slotBack = f → r.Keeps (f s ti slot) from hf _ rfl
  intro f e
  delta State.slotBack at e
  subst e
  beta_reduce
  have hp : r.Keeps (s.slotPages (dieOfCore ((s.team ti).cores.getD 0 0)) slot).2 := h.slotPages
  generalize s.slotPages (dieOfCore ((s.team ti).cores.getD 0 0)) slot = q at hp ⊢
  obtain ⟨pages, u⟩ := q
  exact hp.rowsBack.chainsBack.loadsBack.modTeam

/-! ### Saving and restoring teams -/

theorem State.Keeps.numberChains (h : r.Keeps s) {ti} : r.Keeps (s.numberChains ti) := h.foldl fun _ _ h => h.foldl fun _ _ h => h.modChain
theorem State.Keeps.settleWants (h : r.Keeps s) : r.Keeps s.settleWants := h.update
theorem State.Keeps.leaveCore (h : r.Keeps s) {ti} : r.Keeps (s.leaveCore ti) := h.update

theorem State.Keeps.saveTeam (h : r.Keeps s) {ti slot auto} : r.Keeps (s.saveTeam ti slot auto) :=
  ((h.update.numberChains.foldl fun _ _ h => h.tilesDown).writeSlot.leaveCore.update.modTeam.foldl fun _ _ h => h.tryRegs.tryRows).eventFault

theorem State.Keeps.answerSavers (h : r.Keeps s) {ti x} : r.Keeps (s.answerSavers ti x) := h.update
theorem State.Keeps.noSlot (h : r.Keeps s) {ti} : r.Keeps (s.noSlot ti) := h.modTeam.answerSavers.tryPosts.when fun h => h.terminateGrid

theorem State.Keeps.settleSave (h : r.Keeps s) {ti} : r.Keeps (s.settleSave ti) := by
  simp only [State.settleSave]
  split
  · exact h
  · split
    · exact h.modTeam.answerSavers
    · split
      · exact h.noSlot
      · split
        · exact h
        · split
          · exact (h.slotOpen.of_snd ‹_›).saveTeam.answerSavers
          · exact h.slotOpen.of_snd ‹_›

theorem State.Keeps.settleSaves (h : r.Keeps s) : r.Keeps s.settleSaves := (h.foldl fun _ _ h => h.settleSave.ite (h.answerSavers.ite h)).settleWants

theorem State.Keeps.clearAuto (h : r.Keeps s) {slot} : r.Keeps (s.clearAuto slot) := by
  simp only [State.clearAuto]
  split
  · exact h
  · exact h.update.slotWrite

theorem keeps_onward (h : r.Keeps s) {c act l} : r.Keeps (onward s c act l) := keeps_advance h
theorem State.Keeps.statusTo (h : r.Keeps s) {c l d x} : r.KeepsRes (Machine.statusTo s c l d x) := h.modThread

theorem State.Keeps.ctxsv (h : r.Keeps s) {own hd mode} : r.KeepsSave (s.ctxsv own hd mode) := by
  unfold State.ctxsv
  split
  · exact h
  · split
    · extract_lets u
      have hu : r.Keeps u := h.terminateGrid
      split <;> exact hu
    · split
      · exact h
      · split
        · exact h.clearAuto
        · split
          · exact h
          · split
            · exact h
            · split
              · trivial
              · exact h.modTeam
        · exact h

theorem State.Keeps.execCtxsv (h : r.Keeps s) {g d a b} : r.KeepsOut (Machine.execCtxsv g d a b s) := by
  unfold Machine.execCtxsv
  refine h.ordinary fun c act => ?_
  split
  · exact h
  · extract_lets t
    have hx := h.ctxsv (own := c.ti) (hd := operand t 64 a) (mode := src32 t b)
    split
    · next e => exact State.Keeps.statusTo (hx.of_eq e)
    · next e => exact hx.of_eq e
    · trivial
    · next e => exact (keeps_onward (hx.of_eq e)).modThread.settleSave

theorem State.Keeps.execCtxld (h : r.Keeps s) {g d a} : r.KeepsOut (Machine.execCtxld g d a s) := by
  simp only [Machine.execCtxld]
  refine h.ordinary fun c act => ?_
  split
  · exact h
  · split
    · exact h.statusTo
    · split
      · exact h.statusTo
      · split
        · exact h.statusTo
        · split
          · exact h.statusTo
          · exact h.update.statusTo

theorem State.Keeps.execLongWaitSwap (h : r.Keeps s) {ti} : r.KeepsOut (Machine.execLongWaitSwap ti s) := h.modTeam.settleSave.ite h

theorem State.Keeps.execSwapRestoreTimeout (h : r.Keeps s) {slot} : r.KeepsOut (Machine.execSwapRestoreTimeout slot s) := by
  simp only [Machine.execSwapRestoreTimeout]
  show State.Keeps _ _
  split
  · exact h
  · split
    · exact h.touchSaved.ite h
    · exact h

theorem State.Keeps.bringAccesses (h : r.Keeps s) {ti} : r.Keeps (s.bringAccesses ti) := h.update
theorem State.Keeps.bringRetired (h : r.Keeps s) {ti} : r.Keeps (s.bringRetired ti) := h.update.foldl fun _ _ h => h.arriveRetired

theorem State.Keeps.takeRows (h : r.Keeps s) {ti clu} : r.Keeps (s.takeRows ti clu) := by
  simp only [State.takeRows]
  split <;> exact h.update

theorem State.Keeps.restoreTeam (h : r.Keeps s) {ti slot cores} : r.Keeps (s.restoreTeam ti slot cores) := by
  unfold State.restoreTeam
  extract_lets s1 s2 s3 s4 s5 s6 live s7
  have h2 : r.Keeps s2 := h.slotBack.takeRows.slotWrite
  have h4 : r.Keeps s4 := State.Keeps.foldl (State.Keeps.update h2) fun _ _ h => h.setCarve
  have h7 : r.Keeps s7 := h4.modTeam.bringAccesses.resumeTeam.bringRetired
  exact h7.modTeam.settleGrid.tryRows

theorem State.Keeps.askRows (h : r.Keeps s) {ti} : r.Keeps (s.askRows ti) := by
  simp only [State.askRows]
  split
  · exact h.update.foldl fun _ _ h => h.tryRows
  · split <;> exact h.update.foldl fun _ _ h => h.tryRows

theorem State.Keeps.restoreNow (h : r.Keeps s) {ti slot cores} : r.Keeps (s.restoreNow ti slot cores) := by
  unfold State.restoreNow
  extract_lets live
  split
  · next e => exact h.slotOpen.of_snd e
  · next e =>
    have ho := h.slotOpen.of_snd e
    split
    · next e => exact ho.walkAll.of_snd e
    · next e => exact (ho.walkAll.of_snd e).restoreTeam

theorem State.Keeps.execTeamRestore (h : r.Keeps s) {slot} : r.KeepsOut (Machine.execTeamRestore slot s) := by
  simp only [Machine.execTeamRestore]
  show State.Keeps _ _
  split
  · exact h
  · split
    · exact h.restoreNow
    · exact h.askRows
    · exact h

/-! ### Selecting a run -/

theorem State.Keeps.selectRun (h : r.Keeps s) {ti gi} : r.Keeps (s.selectRun ti gi) := by
  simp only [State.selectRun]
  split
  · exact h
  · exact h.modGroup

theorem State.Keeps.execStarvationSelection (h : r.Keeps s) {ti gi} : r.KeepsOut (Machine.execStarvationSelection ti gi s) := h.selectRun.ite h

/-! ### System words -/

theorem State.Keeps.softTrap (h : r.Keeps s) {cause g b} : r.KeepsOut (Machine.softTrap cause g b s) := by
  simp only [Machine.softTrap]
  refine h.ordinary fun c act => ?_
  split
  · exact h
  · exact keeps_takeTrap h

theorem State.Keeps.execTrap (h : r.Keeps s) {g b} : r.KeepsOut (Machine.execTrap g b s) := h.softTrap
theorem State.Keeps.execBrk (h : r.Keeps s) {g b} : r.KeepsOut (Machine.execBrk g b s) := h.softTrap

theorem State.Keeps.trapRet (h : r.Keeps s) {p f} : r.KeepsOut (Machine.trapRet p f s) := by
  simp only [Machine.trapRet]
  refine h.ordinary fun c act => ?_
  split
  · trivial
  · split
    · exact (keeps_trapReturn h).when fun h => h.deliverCheck
    · exact h.modLanes

theorem State.Keeps.execKret (h : r.Keeps s) : r.KeepsOut (Machine.execKret s) := h.trapRet
theorem State.Keeps.execFret (h : r.Keeps s) : r.KeepsOut (Machine.execFret s) := h.trapRet

theorem State.Keeps.execIllegalInstruction (h : r.Keeps s) {cause w0} : r.KeepsOut (Machine.execIllegalInstruction cause w0 s) := by
  simp only [Machine.execIllegalInstruction]
  split
  · trivial
  · exact keeps_trapRun h

theorem keeps_fetchCheck (h : r.Keeps s) {c va} : r.KeepsFetch (fetchCheck s c va) := by
  unfold fetchCheck
  split
  · have ht := h.translate.of_snd ‹_›
    split
    · trivial
    · exact keeps_trapRun ht
  · exact h.translate.of_snd ‹_›
  · exact keeps_trapRun (h.translate.of_snd ‹_›)
  · have ht := h.translate.of_snd ‹_›
    split
    next e => exact (ht.laneFault.of_snd e).modLanes

theorem State.Keeps.execFetchFault (h : r.Keeps s) : r.KeepsOut (Machine.execFetchFault s) := by
  unfold Machine.execFetchFault
  split
  · trivial
  · show State.Keeps _ _
    split
    · next e => exact (keeps_fetchCheck h).of_eq e
    · next e => exact keeps_stallGroup ((keeps_fetchCheck h).of_eq e)
    · have hx {c va} : r.KeepsFetch (if c.len = 16 then fetchCheck s c va else .fine) := by
        split
        · exact keeps_fetchCheck h
        · trivial
      split
      · next e => exact hx.of_eq e
      · next e => exact keeps_stallGroup (hx.of_eq e)
      · exact keeps_stallLanes h

theorem State.Keeps.sysWrite (h : r.Keeps s) {ti gi sel x} : r.Keeps (s.sysWrite ti gi sel x) := by
  simp only [State.sysWrite]
  split
  · exact h.modGroup
  · exact h.modDie.when fun h => h.deliverCheck
  · exact h.modTeam
  · exact h.update

theorem State.Keeps.execSyr (h : r.Keeps s) {g d sel} : r.KeepsOut (Machine.execSyr g d sel s) := h.ordinary fun _ _ => h.modLanes

theorem State.Keeps.execSyw (h : r.Keeps s) {g a sel} : r.KeepsOut (Machine.execSyw g a sel s) := by
  simp only [Machine.execSyw]
  refine h.ordinary fun c act => ?_
  split
  · exact h
  · exact h.sysWrite

theorem State.Keeps.settleTlbi (h : r.Keeps s) : r.Keeps s.settleTlbi :=
  h.foldl fun _ _ h => h.foldl fun _ _ h => by
    split
    · exact (h.modThread.foldl fun _ _ h => h.modDie).ite h
    · exact h

theorem State.Keeps.tlbDrop (h : r.Keeps s) {asid lo hi dies} : r.Keeps (s.tlbDrop asid lo hi dies) := h.update
theorem State.Keeps.takeCompanion (h : r.Keeps s) {pa key die} : r.Keeps (s.takeCompanion pa key die).2 := h.settle.homeWriteBytes

theorem State.Keeps.runTlbi (h : r.Keeps s) {c act l d n dies} : r.KeepsRes (Machine.runTlbi s c act l d n dies) :=
  (keeps_onward h.tlbDrop).modThread.settleTlbi

theorem State.Keeps.execTlbi (h : r.Keeps s) {g d a b comp} : r.KeepsOut (Machine.execTlbi g d a b comp s) := by
  simp only [Machine.execTlbi]
  refine h.ordinary fun c act => ?_
  split
  · exact h
  · split
    · exact h.statusTo
    · split
      · exact h.runTlbi
      · split
        · exact h.runTlbi
        · split
          · trivial
          · exact keeps_memChecks_later h ‹_›
          · have hp := keeps_memChecks_pass h ‹_›
            split
            · trivial
            · split
              · trivial
              · split
                · exact hp.access.of_snd ‹_›
                · exact (hp.access.of_snd ‹_›).markDirty.takeCompanion.runTlbi
          · exact keeps_parkLanes (keeps_onward (keeps_memChecks_pass h ‹_›))

theorem State.Keeps.execPfack (h : r.Keeps s) {g d a b} : r.KeepsOut (Machine.execPfack g d a b s) := by
  simp only [Machine.execPfack]
  refine h.ordinary fun c act => ?_
  split
  · exact h
  · split
    · exact (h.resolveFault.of_snd ‹_›).statusTo
    · exact h.resolveFault.of_snd ‹_›

theorem State.Keeps.execHalt (h : r.Keeps s) {g} : r.KeepsOut (Machine.execHalt g s) := by
  simp only [Machine.execHalt]
  refine h.ordinary fun c act => ?_
  split
  · exact h
  · exact h.modLanes

theorem State.Keeps.flushKey (h : r.Keeps s) {key} : r.Keeps (s.flushKey key) := h.foldl fun _ _ h => h.recallL1.writeBackL2

theorem State.Keeps.execKeyld (h : r.Keeps s) {g d a b} : r.KeepsOut (Machine.execKeyld g d a b s) := by
  simp only [Machine.execKeyld]
  refine h.ordinary fun c act => ?_
  split
  · exact h
  · split
    · exact h.statusTo
    · split
      · trivial
      · split
        · trivial
        · trivial
        · exact keeps_parkLanes (keeps_onward (h.loadRange.of_snd ‹_›))
        · exact (h.loadRange.of_snd ‹_›).flushKey.update.statusTo

theorem State.Keeps.spanPages (h : r.Keeps s) {x ps} : r.Keeps (s.spanPages x ps).2 := by
  induction ps generalizing s with
  | nil => exact h
  | cons p ps ih =>
    simp only [State.spanPages]
    split <;> have ht := h.translate.of_snd ‹_›
    · exact ht
    · exact ht
    · exact ht
    · exact ht
    · split
      · exact (ih ht.markDirty).of_snd ‹_›
      · exact ih ht.markDirty

theorem State.Keeps.spanWrite (h : r.Keeps s) {ps data} : r.Keeps (s.spanWrite ps data) := by
  induction ps generalizing s data with
  | nil => exact h
  | cons p ps ih => exact ih (h.ite (h.homeWriteBytes.ite (h.devWrite.ite h.rawWrite)))

theorem State.Keeps.execFwqPull (h : r.Keeps s) {g d a} : r.KeepsOut (Machine.execFwqPull g d a s) := by
  simp only [Machine.execFwqPull]
  refine h.ordinary fun c act => ?_
  split
  · exact h
  · exact h.statusTo
  · split
    · trivial
    · exact keeps_parkLanes (keeps_onward (h.spanPages.of_snd ‹_›))
    · exact h.spanPages.of_snd ‹_›
    · have hs := h.spanPages.of_snd ‹_›
      split
      · trivial
      · split
        · exact hs.access.of_snd ‹_›
        · exact (hs.access.of_snd ‹_›).update.spanWrite.statusTo

theorem State.Keeps.answerOldest (h : r.Keeps s) : r.Keeps (s.answerOldest.getD s) := by
  unfold State.answerOldest
  split
  · exact h.update
  · exact h.update
  · exact h

theorem State.Keeps.execFwqPush (h : r.Keeps s) {g d a} : r.KeepsOut (Machine.execFwqPush g d a s) := by
  unfold Machine.execFwqPush
  refine h.ordinary fun c act => ?_
  split
  · exact h
  · exact h.statusTo
  · extract_lets va
    split
    · trivial
    · trivial
    · exact keeps_parkLanes (keeps_onward (h.loadRange.of_snd ‹_›))
    · exact State.Keeps.statusTo (h.loadRange.of_snd ‹_›).answerOldest.update

theorem State.Keeps.activate (h : r.Keeps s) {lo new} : r.Keeps (s.activate lo new) := h.update

theorem State.Keeps.dropUnreadable (h : r.Keeps s) {k} : r.Keeps (s.dropUnreadable k) := by
  simp only [State.dropUnreadable]
  split
  · exact h.stopQueue.unless fun h => h.terminateGrid
  · exact h.unless fun h => h.terminateGrid

theorem State.Keeps.doActivate (h : r.Keeps s) {force} : r.Keeps (s.doActivate force).2 := by
  simp only [State.doActivate]
  split
  · exact h.update
  · split
    · exact h.update
    · exact (h.update.foldl fun _ _ h => h.dropUnreadable).activate

theorem State.Keeps.execFwqAct (h : r.Keeps s) {g d a force} : r.KeepsOut (Machine.execFwqAct g d a force s) := by
  simp only [Machine.execFwqAct]
  refine h.ordinary fun c act => ?_
  split
  · exact h
  · split
    · exact (keeps_onward h).modThread
    · exact h.doActivate.statusTo

theorem State.Keeps.settleActivate (h : r.Keeps s) : r.Keeps s.settleActivate := by
  simp only [State.settleActivate]
  exact h.ite (h.foldl fun _ _ h => h.doActivate.modThread)

/-! ### The module -/

theorem State.Keeps.lineCheck (h : r.Keeps s) {die src pa unit rec} : r.Keeps (s.lineCheck die src pa unit rec) := by
  simp only [State.lineCheck]
  split
  · exact h.raiseCheck
  · exact h.update.ite h.nextFid.update.raiseCheck

theorem State.Keeps.execMachineCheck (h : r.Keeps s) {die src pa} : r.KeepsOut (Machine.execMachineCheck die src pa s) := h.lineCheck.ite h

theorem State.Keeps.execRemoteTimeout (h : r.Keeps s) {w} : r.KeepsOut (Machine.execRemoteTimeout w s) := by
  simp only [Machine.execRemoteTimeout]
  show State.Keeps _ _
  split
  · exact h
  · exact h.lineCheck.ite h

theorem State.Keeps.execInvalidationTimeout (h : r.Keeps s) {line hd} : r.KeepsOut (Machine.execInvalidationTimeout line hd s) := by
  simp only [Machine.execInvalidationTimeout]
  show State.Keeps _ _
  split
  · exact h
  · split
    · exact h
    · exact h.lineCheck.ite h

theorem State.Keeps.evacuate (h : r.Keeps s) {saved ti} : r.Keeps (s.evacuate saved ti) := h.ite (h.modTeam.ite h.terminateGrid)
theorem State.Keeps.unitChecksGone (h : r.Keeps s) {cores clus} : r.Keeps (s.unitChecksGone cores clus) := h.foldl fun _ _ h => h.retryFault

theorem State.Keeps.mapOut (h : r.Keeps s) {u saved} : r.Keeps (s.mapOut u saved) := by
  simp only [State.mapOut]
  exact (h.update.foldl fun _ _ h => h.evacuate).unitChecksGone.settleSaves

theorem State.Keeps.execUnitMapOut (h : r.Keeps s) {u saved} : r.KeepsOut (Machine.execUnitMapOut u saved s) := h.ite h.mapOut
theorem State.Keeps.answerPeer (h : r.Keeps s) {dev pa bs} : r.Keeps (s.answerPeer dev pa bs) := h.update

theorem State.Keeps.serveRemote (h : r.Keeps s) {dev pa key op} : r.Keeps (s.serveRemote dev pa key op) := by
  simp only [State.serveRemote]
  split
  · exact h.settle.touchL2.recordHolder.answerPeer
  · exact h.settle.discardLine.answerPeer
  · exact (h.settle.takeLine.homeWrite.when fun h => h.recordHolder).answerPeer

theorem State.Keeps.failPeer (h : r.Keeps s) {dev pa a} : r.Keeps (s.failPeer dev pa a) := by
  simp only [State.failPeer]
  split
  · exact h.answerPeer
  · exact h.answerPeer
  · exact h.update

theorem State.Keeps.devPeer (h : r.Keeps s) {dev pa a} : r.Keeps (s.devPeer dev pa a) := by
  simp only [State.devPeer]
  split
  · exact h.answerPeer
  · exact h.devWrite.answerPeer
  · exact h

theorem State.Keeps.execRemoteRequest (h : r.Keeps s) {dev pa key op} : r.KeepsOut (Machine.execRemoteRequest dev pa key op s) := by
  simp only [Machine.execRemoteRequest]
  exact h.ite (h.devPeer.ite (h.failPeer.ite (h.ite ((h.sendInvals.ite h.serveRemote).ite h.serveRemote))))

theorem State.Keeps.execLinkPause (h : r.Keeps s) {port shf occKiB} : r.KeepsOut (Machine.execLinkPause port shf occKiB s) := h.ite h.modPort
theorem State.Keeps.execPortDown (h : r.Keeps s) {port} : r.KeepsOut (Machine.execPortDown port s) := h.modPort

theorem State.Keeps.execManagementRequest (h : r.Keeps s) {rec} : r.KeepsOut (Machine.execManagementRequest rec s) := by
  simp only [Machine.execManagementRequest]
  show State.Keeps _ _
  split
  · exact h
  · split
    · exact h.update.ite h.update
    · exact h.update

theorem State.Keeps.execServicePortWrite (h : r.Keeps s) {pa bytes} : r.KeepsOut (Machine.execServicePortWrite pa bytes s) := by
  simp only [Machine.execServicePortWrite]
  exact h.ite (h.ownLines.unless fun h => h.foldl fun _ _ h => h.rawWrite)

theorem State.Keeps.execFunctionLevelReset (h : r.Keeps s) {fn} : r.KeepsOut (Machine.execFunctionLevelReset fn s) :=
  h.ite ((h.foldl fun _ _ h => h.stopQueue).dropUntaken.foldl fun _ _ h => h.terminateGrid).voidFunction.update

theorem State.Keeps.settleResets (h : r.Keeps s) : r.Keeps s.settleResets := h.update
theorem State.Keeps.startFirmware (h : r.Keeps s) : r.Keeps s.startFirmware := h.update
theorem State.Keeps.trainPorts (h : r.Keeps s) : r.Keeps s.trainPorts := h.update
theorem State.Keeps.stage (h : r.Keeps s) {n} : r.Keeps (s.stage n) := h.update

theorem State.Keeps.bootStep (h : r.Keeps s) : r.Keeps s.bootStep := by
  simp only [State.bootStep]
  split
  · exact h
  · split
    · exact h.stage.ite h.update
    · exact h.stage
    · exact h.update.trainPorts
    · exact h.startFirmware.update

theorem State.Keeps.execPowerGood (h : r.Keeps s) : r.KeepsOut (Machine.execPowerGood s) := h.bootStep

/-! ### Turns -/

theorem State.Keeps.withCur (h : r.Keeps s) {c} : r.Keeps (s.withCur c) := h.update

/-- Every word, record, packet and event: the words on registers alone change lanes of their run, and each other one has its rule above. -/
theorem State.Keeps.exec (h : r.Keeps s) {i : Instr} : r.KeepsOut (Machine.exec i s) := by
  cases i with
  | iadd | isub | iaddc | imul | imulh | imad | imadh | idiv | irem | imin | imax | iabs | ineg | and | or | xor | andn | shl | shr | sar
  | rol | clz | ctz | popc | brev | bfe | bfi | bsel | sel | icmp | isat | add64 | sub64 | lea64 | mov | movi | pairWord | fadd | fsub
  | fmul | ffma | fmin | fmax | fcmp | fcls | frnd | fcvt | fpk | fpkN8 | hadd2 | hmul2 | hfma2 | hmin2 | hmax2 | sfuRcp | sfuRsq | sfuSqrt
  | sfuExp2 | sfuLog2 | sfuSin | sfuCos | sfuTanh | dot4 | dot8 | bscl | bexp | mexp | spk24 | sxp24 | ffs =>
    exact h.ordinary fun _ _ => h.perLane
  | cmpr | expd | lxch | vote | scan | matchL | cxch =>
    exact h.gathered fun _ _ => h.modLanes (s := s)
  | nop => exact h.execNop
  | br => exact h.execBr
  | bri => exact h.execBri
  | call => exact h.execCall
  | calli => exact h.execCalli
  | ret => exact h.execRet
  | exit => exact h.execExit
  | yield => exact h.execYield
  | bar => exact h.execBar
  | barArr => exact h.execBarArr
  | barWt => exact h.execBarWt
  | nap => exact h.execNap
  | napTimeout => exact h.execNapTimeout
  | ntfy => exact h.execNtfy
  | take => exact h.execTake
  | takeG => exact h.execTakeG
  | relabel => exact h.execRelabel
  | done => exact h.execDone
  | stOrd => exact h.execStOrd
  | itemi => exact h.execItemi
  | flowi => exact h.execFlowi
  | ld => exact h.execLd
  | st => exact h.execSt
  | lds => exact h.execLds
  | sts => exact h.execSts
  | ldAcq => exact h.execLdAcq
  | stRel => exact h.execStRel
  | atom => exact h.execAtom
  | atomBnd => exact h.execAtomBnd
  | atomTopk => exact h.execAtomTopk
  | red _ _ _ sc => exact h.execRed (_sc := sc)
  | pfL1 => exact h.execPfL1
  | pfL2 => exact h.execPfL2
  | fence => exact h.execFence
  | loadReply => exact h.execLoadReply
  | storeAck => exact h.execStoreAck
  | cpGo => exact h.execCpGo
  | cpStop => exact h.execCpStop
  | cpStat => exact h.execCpStat
  | waitc => exact h.execWaitc
  | chainStart => exact h.execChainStart
  | copyBurst => exact h.execCopyBurst
  | recEnd => exact h.execRecEnd
  | move => exact h.execMove
  | mcast => exact h.execMcast
  | loop => exact h.execLoop
  | cond => exact h.execCond
  | conv => exact h.execConv
  | sample => exact h.execSample
  | csend => exact h.execCsend
  | sig => exact h.execSig
  | csendAnswer => exact h.execCsendAnswer
  | shfOpen => exact h.execShfOpen
  | shfSide => exact h.execShfSide
  | shfDrop => exact h.execShfDrop
  | shfClose => exact h.execShfClose
  | shfCloseComplete => exact h.execShfCloseComplete
  | codedPacketArrival => exact h.execCodedPacketArrival
  | uncodedBlockArrival => exact h.execUncodedBlockArrival
  | resendRequest => exact h.execResendRequest
  | arnChk => exact h.execArnChk
  | arnWin => exact h.execArnWin
  | cwb => exact h.execCwb
  | cinv => exact h.execCinv
  | cdrop => exact h.execCdrop
  | cvd => exact h.execCvd
  | cvdMask => exact h.execCvdMask
  | mma => exact h.execMma
  | passGrant => exact h.execPassGrant
  | passAging => exact h.execPassAging
  | passApply => exact h.execPassApply
  | accStreamPerform => exact h.execAccStreamPerform
  | acg => exact h.execAcg
  | acp => exact h.execAcp
  | acz => exact h.execAcz
  | acn => exact h.execAcn
  | ach => exact h.execAch
  | acr => exact h.execAcr
  | acrImg => exact h.execAcrImg
  | acw => exact h.execAcw
  | acwImg => exact h.execAcwImg
  | rget => exact h.execRget
  | rput => exact h.execRput
  | srd => exact h.execSrd
  | bfqPost => exact h.execBfqPost
  | bfqTake => exact h.execBfqTake
  | bfqDone => exact h.execBfqDone
  | bfqDoneWd => exact h.execBfqDoneWd
  | trap => exact h.execTrap
  | brk => exact h.execBrk
  | kret => exact h.execKret
  | fret => exact h.execFret
  | syr => exact h.execSyr
  | syw => exact h.execSyw
  | tlbi => exact h.execTlbi
  | pfack => exact h.execPfack
  | ctxsv => exact h.execCtxsv
  | ctxld => exact h.execCtxld
  | halt => exact h.execHalt
  | keyld => exact h.execKeyld
  | fwqPull => exact h.execFwqPull
  | fwqPush => exact h.execFwqPush
  | fwqAct => exact h.execFwqAct
  | faultPost => exact h.execFaultPost
  | machineCheck => exact h.execMachineCheck
  | unitMapOut => exact h.execUnitMapOut
  | remoteTimeout => exact h.execRemoteTimeout
  | invalidationTimeout => exact h.execInvalidationTimeout
  | remoteRequest => exact h.execRemoteRequest
  | invalidation => exact h.execInvalidation
  | linkPause => exact h.execLinkPause
  | portDown => exact h.execPortDown
  | pauseWrite => exact h.execPauseWrite
  | strctlWrite => exact h.execStrctlWrite
  | arnpoolWrite => exact h.execArnpoolWrite
  | queueDoorbell => exact h.execQueueDoorbell
  | queueEnable => exact h.execQueueEnable
  | launch => exact h.execLaunch
  | nodeStart => exact h.execNodeStart
  | wait => exact h.execWait
  | waitRecheck => exact h.execWaitRecheck
  | signal => exact h.execSignal
  | pred => exact h.execPred
  | teamPlacement => exact h.execTeamPlacement
  | itemDispatch => exact h.execItemDispatch
  | arenaDeath => exact h.execArenaDeath
  | longWaitSwap => exact h.execLongWaitSwap
  | swapRestoreTimeout => exact h.execSwapRestoreTimeout
  | teamRestore => exact h.execTeamRestore
  | starvationSelection => exact h.execStarvationSelection
  | notifyApertureWrite => exact h.execNotifyApertureWrite
  | apertureGate => exact h.execApertureGate
  | kettleUngate => exact h.execKettleUngate
  | semClaim => exact h.execSemClaim
  | semTimeout => exact h.execSemTimeout
  | managementRequest => exact h.execManagementRequest
  | frzWrite => exact h.execFrzWrite
  | freeze => exact h.execFreeze
  | powerGood => exact h.execPowerGood
  | functionLevelReset => exact h.execFunctionLevelReset
  | powerThrottle => exact h.execPowerThrottle
  | registerWrite => exact h.execRegisterWrite
  | servicePortWrite => exact h.execServicePortWrite
  | illegalInstruction => exact h.execIllegalInstruction
  | fetchFault => exact h.execFetchFault

theorem State.Keeps.issueRun (h : r.Keeps s) {ti gi run pc} : r.KeepsOut (s.issueRun ti gi run pc) := by
  simp only [State.issueRun]
  split <;> exact (h.fetch.of_snd ‹_›).withCur.exec

theorem State.Keeps.probeKey (h : r.Keeps s) {ti gi fuel key} : r.Keeps (State.probeKey ti gi fuel s key) := by
  induction fuel generalizing s with
  | zero => exact h
  | succ fuel ih =>
    simp only [State.probeKey]
    split
    · exact h
    · exact ih h.modGroup

theorem State.Keeps.probe (h : r.Keeps s) {ti gi} : r.Keeps (s.probe ti gi) := h.ite (h.modGroup.foldl fun _ _ h => h.probeKey)
theorem State.Keeps.probeAll (h : r.Keeps s) : r.Keeps s.probeAll := h.foldl fun _ _ h => h.probe

theorem State.Keeps.afterIssue (h : r.Keeps s) {before ti gi run pc} : r.Keeps (s.afterIssue before ti gi run pc) :=
  (h.ite h.modGroup).ite h.modGroup.modTeam

theorem State.KeepsOut.onNext {o : Out} (h : r.KeepsOut o) {f} (hf : ∀ u, r.Keeps u → r.Keeps (f u)) : r.KeepsOut (Machine.onNext o f) := by
  cases o with
  | next u => exact hf u h
  | fault x => trivial
  | refused x => trivial

theorem State.Keeps.runGroup (h : r.Keeps s) {before ti gi run} : r.KeepsOut (s.runGroup before ti gi run) :=
  h.modGroup.issueRun.onNext fun _ h => h.afterIssue

theorem State.Keeps.passTime (h : r.Keeps s) {die n} : r.Keeps (s.passTime die n) := h.update

theorem State.Keeps.offerGroup (h : r.Keeps s) {ti gi} : r.Keeps (s.offerGroup ti gi) := by
  simp only [State.offerGroup]
  split
  · exact h
  · split
    · exact h.probe.modGroup
    · exact h.probe.selectRun

theorem State.Keeps.offerCore (h : r.Keeps s) {core} : r.Keeps (s.offerCore core) := h.foldl fun _ _ h => h.offerGroup
theorem State.Keeps.toSlot (h : r.Keeps s) {ti gi} : r.Keeps (s.toSlot ti gi) := h.offerCore.unless fun h => h.probeAll.passTime
theorem State.Keeps.takeSlot (h : r.Keeps s) {ti gi} : r.Keeps (s.takeSlot ti gi) := h.update

theorem State.Keeps.issueOffer (h : r.Keeps s) {ti gi} : r.KeepsOut (s.issueOffer ti gi) := by
  simp only [State.issueOffer]
  split
  · exact keeps_takeTrap h
  · split
    · exact h
    · split
      · exact h.modGroup
      · split
        · exact h.takeSlot.runGroup
        · exact h

theorem State.Keeps.issueTurn (h : r.Keeps s) {ti gi} : r.KeepsOut (s.issueTurn ti gi) := by
  simp only [State.issueTurn]
  split
  · exact h
  · exact h.toSlot.issueOffer

theorem State.Keeps.serveChain (h : r.Keeps s) {core} : r.KeepsOut (s.serveChain core) := by
  simp only [State.serveChain]
  split
  · exact h
  · split
    · exact h
    · split
      · exact h.exec
      · exact h
      · exact h.exec
      · split
        · exact h
        · split
          · exact h.exec
          · split
            · exact h.exec
            · exact h.stopChain

theorem State.Keeps.markServed (h : r.Keeps s) {core} : r.Keeps (s.markServed core) := h.update

theorem State.Keeps.engineTurn (h : r.Keeps s) {core} : r.KeepsOut (s.engineTurn core) := by
  simp only [State.engineTurn]
  split
  · exact h
  · exact h.markServed.serveChain

theorem State.Keeps.frontTurn (h : r.Keeps s) {q} : r.KeepsOut (s.frontTurn q) := by
  simp only [State.frontTurn]
  split
  · exact h.frontNext.of_snd ‹_›
  · exact (h.frontNext.of_snd ‹_›).stopQueue
  · exact (h.frontNext.of_snd ‹_›).exec

theorem State.Keeps.evict (h : r.Keeps s) {lvl line} : r.Keeps (s.evict lvl line) := by
  simp only [State.evict]
  split
  · exact h.loseL1.ite h
  · exact h.dropLine
  · exact h.sendInvals.ite h.loseL2
  · exact h.loseRdc

theorem State.Keeps.envStep (h : r.Keeps s) {a} : r.Keeps (s.envStep a) := by
  simp only [State.envStep]
  split
  · exact h.probeAll.passTime
  · exact h.evict
  · exact h.update
  · exact h.update
  · split
    · exact h
    · exact h.foldl fun _ _ h => by
        split
        · exact h
        · exact h.memWrite.staleSide
  · exact h.ite h.update
  · exact h.portAccess
  · exact h.modPort
  · exact h.ite h.modPort
  · exact h.scratchWrite.ite h

theorem State.Keeps.hwTurn (h : r.Keeps s) {i} : r.KeepsOut (s.hwTurn i) := by
  simp only [State.hwTurn]
  split
  · trivial
  · split
    · exact h.probe.exec
    · exact h.exec

theorem State.Keeps.runTurn (h : r.Keeps s) {a} : r.KeepsOut (s.runTurn a) := by
  simp only [State.runTurn]
  split
  · exact h.offerGroup
  · exact h.issueTurn
  · exact h.engineTurn
  · exact h.frontTurn
  · exact h.hwTurn
  · exact h.envStep

theorem State.Keeps.settleSent (h : r.Keeps s) {before} : r.Keeps (State.settleSent before s) := h.update
theorem State.Keeps.settleRows (h : r.Keeps s) : r.Keeps s.settleRows := h.foldl fun _ _ h => h.tryRows

theorem State.Keeps.settleStep (h : r.Keeps s) {before} : r.Keeps (State.settleStep before s) := by
  unfold State.settleStep
  extract_lets s1 s2
  have h1 : r.Keeps s1 :=
    h.settleRetries.settleTraps.settleArrivals.settleResends.settleRegs.settleWakes.settleHeld.settleAbandoned.settleTlbi.settleChecks
  have h2 : r.Keeps s2 :=
    h1.settleHeaders.drainSlots.settleSaves.settleRows.settleActivate.settleEnds.settleResets.settleOut.settleUnanswered.settleAsks
  exact h2.syncSlots.settleSent.update

theorem State.Keeps.nextTurn (h : r.Keeps s) : r.Keeps s.nextTurn.2 := by
  simp only [State.nextTurn]
  split
  · exact h.update
  · exact h

/-! ### The step -/

/-- A turn and what the machine settles after it. -/
theorem State.Keeps.step (h : r.Keeps s) : r.KeepsOut (Machine.step s) := by
  simp only [Machine.step]
  split
  · trivial
  · exact h.nextTurn.runTurn.onNext fun _ h => h.settleStep
end

/-- Settles O54: every operation of a step keeps both properties, one rule for each, up to `State.Keeps.step`. -/
theorem memoryStaysCanonical : Obligations.MemoryStaysCanonical := by
  unfold Obligations.MemoryStaysCanonical
  have keeps {s t : State} (e : step s = .next t) : s.Keeps t := by
    have h := (State.Keeps.refl s).step
    rwa [e] at h
  exact ⟨fun _ _ hs e => (keeps e).memOk hs, fun _ _ hs e => (keeps e).tidy hs⟩

theorem State.tidy_of_empty {s : State} (h : s.cache = []) : s.tidy := fun _ he => absurd (h ▸ he) List.not_mem_nil

/-- Settles O55: at reset no byte is listed and no line is cached. -/
theorem memoryStartsCanonical : Obligations.MemoryStartsCanonical := by
  unfold Obligations.MemoryStartsCanonical
  exact ⟨memOk_of_empty rfl, State.tidy_of_empty rfl⟩

end Sys2Proof.Machine
end

section
/-! The registers after reset, 04 R77, R88, 05 R105, 15 R330, 17 R390, R391. -/

namespace Sys2Proof.Machine

theorem State.die_reset (d : ℕ) : State.reset.die d = Die.reset := by
  rcases Nat.lt_or_ge d 4 with h | h
  · interval_cases d <;> rfl
  · exact List.getD_eq_default _ _ h

theorem State.port_reset {p : ℕ} (h : p < 32) : State.reset.port p = Port.reset := List.getD_replicate _ h

theorem State.queue_reset (q : ℕ) : State.reset.queue q = Queue.reset := rfl

/-- Settles O53: each die, port and queue reads as its reset value. -/
theorem resetState : Obligations.ResetState := by
  unfold Obligations.ResetState
  refine ⟨?_, rfl, rfl, fun d _ => ?_, fun p hp => ?_, fun q => ?_, ?_⟩
  · and_intros <;> rfl
  · rw [State.die_reset]
    and_intros <;> rfl
  · rw [State.port_reset hp]
    and_intros <;> rfl
  · rw [State.queue_reset]
    and_intros <;> rfl
  · and_intros <;> rfl
end Sys2Proof.Machine
end

section
/-! The checks of an address at the head of a word, 06 R123, and what `shf.open` reads, 04 R80. -/

namespace Sys2Proof.Machine

/-! ### The checks of an address, 06 R123 -/

section
variable {align : ℕ} {p q las : List (ℕ × ℕ)} {la : ℕ × ℕ}

theorem find?_misaligned_eq_none (h : ∀ x ∈ las, x.2 % align = 0) : las.find? (fun la => la.2 % align != 0) = none :=
  List.find?_eq_none.2 fun x hx => by simp [h x hx]

theorem find?_overreach_eq_none (h : ∀ x ∈ las, x.2 < 2 ^ 57) : las.find? (fun la => decide (2 ^ 57 ≤ la.2)) = none :=
  List.find?_eq_none.2 fun x hx => by simpa using h x hx

/-- The first misaligned address decides. -/
theorem precheck_misaligned (hp : ∀ x ∈ p, x.2 % align = 0) (h : la.2 % align ≠ 0) :
    precheck align (p ++ la :: q) = some (0x04, BitVec.ofNat 64 la.2) := by
  rw [precheck, List.find?_append, find?_misaligned_eq_none hp, Option.none_or, List.find?_cons_of_pos (by simpa using h)]

/-- Where all are aligned, the first one beyond bit 56 decides. -/
theorem precheck_overreach (ha : ∀ x ∈ p ++ la :: q, x.2 % align = 0) (hp : ∀ x ∈ p, x.2 < 2 ^ 57) (h : 2 ^ 57 ≤ la.2) :
    precheck align (p ++ la :: q) = some (0x06, BitVec.ofNat 64 la.2) := by
  rw [precheck, find?_misaligned_eq_none ha, List.find?_append, find?_overreach_eq_none hp, Option.none_or,
    List.find?_cons_of_pos (by simpa using h)]

theorem precheck_pass (ha : ∀ x ∈ las, x.2 % align = 0) (hr : ∀ x ∈ las, x.2 < 2 ^ 57) : precheck align las = none := by
  rw [precheck, find?_misaligned_eq_none ha, find?_overreach_eq_none hr]
end

section
variable {i : Instr} {g : Guard} {regs : List ℕ} {align : ℕ} {addr : Thread → ℕ}

/-- Word `i` begins its own part with the checks of R123 on the addresses of its active lanes. -/
def Prechecks (i : Instr) (g : Guard) (regs : List ℕ) (align : ℕ) (addr : Thread → ℕ) : Prop :=
  ∃ body, (∀ s, exec i s = ordinary .all g regs body s) ∧
    ∀ s c act cause v, precheck align (laneAddrs s c act addr) = some (cause, v) → body c act s = .trap cause v

theorem Prechecks.traps (h : Prechecks i g regs align addr) {s : State} {c : Cur} {cause : ℕ} {v : DWord} (hr : Ready s c g regs)
    (hp : precheck align (laneAddrs s c (activeLanes s c g) addr) = some (cause, v)) :
    exec i s = .next (takeTrap s c.ti c.gi c.lanes cause c.pc v) := by
  obtain ⟨body, he, hb⟩ := h
  rw [he, ordinary_issues body hr, hb _ _ _ _ _ hp]
  rfl

theorem Prechecks.misaligns (h : Prechecks i g regs align addr) : Misaligns i g regs align addr := by
  intro s c p l q hr hact hp hl
  refine h.traps hr ?_
  rw [hact, laneAddrs, List.map_append, List.map_cons]
  exact precheck_misaligned (by simpa using hp) hl

theorem Prechecks.overreaches (h : Prechecks i g regs align addr) : Overreaches i g regs align addr := by
  intro s c p l q hr hact ha hp hl
  refine h.traps hr ?_
  rw [hact, laneAddrs]
  rw [← List.forall_mem_map (f := fun l => (l, addr (s.thread c.ti c.gi l))) (P := fun x => x.2 % align = 0)] at ha
  rw [List.map_append, List.map_cons] at ha ⊢
  exact precheck_overreach ha (by simpa using hp) hl
end

/-! ### `shf.open` -/

/-- What the lanes of a `shf.open` read, one after the other: descriptor, participant list. -/
def laneDescs (s : State) (c : Cur) (addr : ℕ → ℕ) (act : List ℕ) : List (ℕ × Got × List ℕ) × State :=
  act.foldl (fun r l =>
    let x := readDesc r.2 c.ti c.gi l (addr l)
    (r.1 ++ [(l, x.1, x.2.1)], x.2.2)) ([], s)

/-- The step of `shf.open` for the lane of an entry of `laneDescs`: its status goes to v`d`. -/
def openLane (d : RegIx) (a : Src) (b : SrcB) (s : State) (c : Cur) (u : State) (q : ℕ × Got × List ℕ) : State :=
  match q.2.1 with
  | .ok bs =>
    let r := openStatus u c.ti c.gi (ea0 (s.thread c.ti c.gi q.1) a) (srcB32 (s.thread c.ti c.gi q.1) b).toNat bs q.2.2
    r.2.modThread c.ti c.gi q.1 fun t => t.setV d.toNat (BitVec.ofNat 32 r.1)
  | _ => u

/-- The meaning keeps the address of each lane beside what it read. -/
theorem laneDescs_withAddrs (s : State) (c : Cur) (addr : ℕ → ℕ) (act : List ℕ) :
    (act.map fun l => (l, addr l)).foldl (fun (r : List (ℕ × ℕ × Got × List ℕ) × State) la =>
        let x := readDesc r.2 c.ti c.gi la.1 la.2
        (r.1 ++ [(la.1, la.2, x.1, x.2.1)], x.2.2)) ([], s) =
      ((laneDescs s c addr act).1.map fun q => (q.1, addr q.1, q.2), (laneDescs s c addr act).2) := by
  rw [laneDescs, List.foldl_map]
  refine List.foldl_hom (init := ([], s)) (fun r : List (ℕ × Got × List ℕ) × State => (r.1.map fun q => (q.1, addr q.1, q.2), r.2)) fun r l => ?_
  simp only [List.map_append, List.map_cons, List.map_nil]

theorem shfOpen_prechecks (g : Guard) (d : RegIx) (a : Src) (b : SrcB) :
    Prechecks (.shfOpen g d a b) g (d.toNat :: srcRegs 64 a ++ srcBRegs 32 b) 64 fun t => (operand t 64 a).toNat :=
  ⟨_, fun _ => rfl, fun s c act cause v h => by
    have h' : precheck 64 (laneAddrs s c act fun t => ea0 t a) = some (cause, v) := h
    simp only [h']⟩

theorem shfOpen_acts (g : Guard) (d : RegIx) (a : Src) (b : SrcB) :
    let addr (s : State) (c : Cur) (l : ℕ) : ℕ := (operand (s.thread c.ti c.gi l) 64 a).toNat
    Acts (.shfOpen g d a b) g (d.toNat :: srcRegs 64 a ++ srcBRegs 32 b)
      (fun s c act => (∀ l ∈ act, addr s c l % 64 = 0 ∧ addr s c l < 2 ^ 57) ∧ ∀ q ∈ (laneDescs s c (addr s c) act).1, ∃ bs, q.2.1 = .ok bs)
      (fun s c act => advance ((laneDescs s c (addr s c) act).1.foldl (openLane d a b s c) (laneDescs s c (addr s c) act).2) c c.lanes) := by
  intro addr s c hr hcond
  obtain ⟨haddr, hgot⟩ := hcond
  have hpre : precheck 64 (laneAddrs s c (activeLanes s c g) fun t => ea0 t a) = none :=
    precheck_pass (List.forall_mem_map.2 fun l hl => (haddr l hl).1) (List.forall_mem_map.2 fun l hl => (haddr l hl).2)
  have hread := laneDescs_withAddrs s c (addr s c) (activeLanes s c g)
  change (laneAddrs s c (activeLanes s c g) fun t => ea0 t a).foldl _ _ = _ at hread
  rw [show exec (.shfOpen g d a b) s = execShfOpen g d a b s from rfl, execShfOpen, ordinary_issues _ hr]
  simp only [hpre, hread]
  generalize laneDescs s c (addr s c) (activeLanes s c g) = r at *
  have hok : ∀ q ∈ r.1.map fun q => (q.1, addr s c q.1, q.2), ∃ bs, q.2.2.1 = .ok bs := List.forall_mem_map.2 hgot
  rw [List.findSome?_eq_none_iff.2 ?_]
  · simp only
    rw [List.filterMap_eq_nil_iff.2 ?_, List.filterMap_eq_nil_iff.2 ?_, List.foldl_map]
    · rfl
    all_goals
      intro q hq
      obtain ⟨bs, hb⟩ := hok q hq
      simp [hb]
  · intro q hq
    obtain ⟨bs, hb⟩ := hok q hq
    simp only [hb]

end Sys2Proof.Machine
end

section
/-! Bytes and lists; the status of `shf.open` and of `shf.side` for one lane, 04 R80, R90, R92, R93. -/

namespace Sys2Proof.Machine

/-! ### Bytes, lists and fields -/

theorem testBit_bytesNat (bs : List Byte) (i : ℕ) {j : ℕ} (hj : j < 8) : (bytesNat bs).testBit (8 * i + j) = (bs.getD i 0).getLsbD j := by
  induction bs generalizing i with
  | nil => simp [bytesNat]
  | cons b t ih =>
    rw [bytesNat, show b.toNat + 256 * bytesNat t = 2 ^ 8 * bytesNat t + b.toNat by omega, Nat.testBit_two_pow_mul_add _ b.isLt]
    cases i with
    | zero => simp [hj, BitVec.testBit_toNat]
    | succ n =>
      rw [if_neg (by omega), show 8 * (n + 1) + j - 8 = 8 * n + j by omega, ih, List.getD_cons_succ]

theorem bitN_eq_testBit (x i : ℕ) : bitN x i = x.testBit i := by
  rw [bitN, Nat.testBit_eq_decide_div_mod_eq]; rfl

theorem mem_dedupNat {x : ℕ} {l : List ℕ} : x ∈ dedupNat l ↔ x ∈ l := by
  induction l with
  | nil => rfl
  | cons y t ih =>
    rw [dedupNat, List.mem_cons, List.mem_cons, List.mem_filter, ih, bne_iff_ne]
    tauto

theorem nodup_dedupNat (l : List ℕ) : (dedupNat l).Nodup := by
  induction l with
  | nil => exact List.nodup_nil
  | cons y t ih => exact List.nodup_cons.2 ⟨fun h => by simp at h, ih.filter _⟩

theorem dedupNat_eq_self_iff {l : List ℕ} : dedupNat l = l ↔ l.Nodup := by
  refine ⟨fun h => h ▸ nodup_dedupNat l, fun h => ?_⟩
  induction h with
  | nil => rfl
  | cons hx _ ih => rw [dedupNat, ih, List.filter_eq_self.2 fun y hy => bne_iff_ne.2 (hx y hy).symm]

theorem toNat_src32 (t : Thread) (a : Src) : (src32 t a).toNat = (operand t 32 a).toNat := by
  rw [src32, loWord, BitVec.toNat_setWidth, Nat.mod_eq_of_lt (operand_lt t 32 a (by decide))]

/-! ### The status of `shf.open`, R90, R92 -/

theorem listOk_iff {devs : List ℕ} {own : ℕ} : listOk devs own = true ↔ (∀ x ∈ devs, x < 900) ∧ devs.Nodup ∧ own ∈ devs := by
  simp only [listOk, Bool.and_eq_true, List.all_eq_true, decide_eq_true_eq, beq_iff_eq, dedupNat_eq_self_iff, List.contains_iff_mem, and_assoc]

section
variable {d : RegIx} {a : Src} {b : SrcB} {s u v : State} {c : Cur} {l st : ℕ} {bs : List Byte} {devs : List ℕ}

/-- A lane whose descriptor has been read gets the status that `openStatus` gives. -/
theorem openLane_of_openStatus
    (h : openStatus u c.ti c.gi (ea0 (s.thread c.ti c.gi l) a) (srcB32 (s.thread c.ti c.gi l) b).toNat bs devs = (st, v)) :
    openLane d a b s c u (l, .ok bs, devs) = v.modThread c.ti c.gi l fun t => t.setV d.toNat (BitVec.ofNat 32 st) := by
  simp only [openLane, h]

end

/-- The shuffle that `shf.open` opens (R79 to R81). -/
def openedShuffle (s : State) (ti gi a id : ℕ) (bs : List Byte) (devs : List ℕ) : Shuffle :=
  { id := id, asid := s.asidOf ti, ti := ti, level := (s.group ti gi).level, desc := a, parts := devs, ddie := bitsN (numAt bs 0 4) 17 16,
    strict := bitN (numAt bs 0 4) 18, trapF := bitN (numAt bs 0 4) 19, expect := numAt bs 4 4, rxbase := numAt bs 0x10 8,
    rxlen := numAt bs 0x18 4, coded := 0, uncoded := 0, fallback := 0, missing := 0, check := 0, full := 0,
    high := s.occupancy (bitsN (numAt bs 0 4) 17 16), closing := false, failed := false, closers := [] }

section
variable {s : State} {ti gi a id : ℕ} {bs : List Byte} {devs : List ℕ}

/-- An id, a descriptor and a list of participants that `shf.open` accepts (R80). -/
def OpenGood (s : State) (id : ℕ) (bs : List Byte) (devs : List ℕ) : Prop :=
  id ≤ 0xFFFF ∧ descOk bs = true ∧ (∀ x ∈ devs, x < 900) ∧ devs.Nodup ∧ s.module.dev ∈ devs

theorem openGood_iff : OpenGood s id bs devs ↔ (decide (0xFFFF < id) || !descOk bs || !listOk devs s.module.dev) = false := by
  simp only [OpenGood, ← listOk_iff, Bool.or_eq_false_iff, decide_eq_false_iff_not, Bool.not_eq_false', not_lt, and_assoc]

theorem openStatus_bad (h : ¬OpenGood s id bs devs) : openStatus s ti gi a id bs devs = (7, s) := by
  rw [openGood_iff, Bool.not_eq_false] at h
  simp only [openStatus, h, if_true]

theorem openStatus_taken (h : OpenGood s id bs devs) (hs : s.shuffle id ≠ none) : openStatus s ti gi a id bs devs = (3, s) := by
  rw [openGood_iff] at h
  simp only [openStatus, h, Option.isSome_iff_ne_none.2 hs, Bool.false_eq_true, if_false, if_true]

section
variable (h : OpenGood s id bs devs) (hs : s.shuffle id = none)
include h hs

theorem openStatus_full (hr : ¬(s.shuffles.length < 64 ∧ (s.shuffles.filter fun h => h.ddie == bitsN (numAt bs 0 4) 17 16).length < 16)) :
    openStatus s ti gi a id bs devs = (4, s) := by
  rw [openGood_iff] at h
  have hr' : (decide (64 ≤ s.shuffles.length) || decide (16 ≤ (s.shuffles.filter (·.ddie == bitsN (numAt bs 0 4) 17 16)).length)) = true := by
    simpa [Decidable.imp_iff_not_or] using hr
  simp only [openStatus, h, hs, hr', Option.isSome_none, Bool.false_eq_true, if_false, if_true]

theorem openStatus_opens (hr : s.shuffles.length < 64 ∧ (s.shuffles.filter fun h => h.ddie == bitsN (numAt bs 0 4) 17 16).length < 16) :
    openStatus s ti gi a id bs devs = (0, State.emit { s with shuffles := s.shuffles ++ [openedShuffle s ti gi a id bs devs] }
      (bitsN (numAt bs 0 4) 17 16) true (.openAnnounce id)) := by
  rw [openGood_iff] at h
  have hr' : (decide (64 ≤ s.shuffles.length) || decide (16 ≤ (s.shuffles.filter (·.ddie == bitsN (numAt bs 0 4) 17 16)).length)) = false := by
    simpa using hr
  simp only [openStatus, h, hs, hr', Option.isSome_none, Bool.false_eq_true, if_false]
  rfl
end
end

/-- A flag in byte 2 of a descriptor. -/
theorem bitN_descriptor (bs : List Byte) {j : ℕ} (hj : j < 8) : bitN (numAt bs 0 4) (16 + j) = (bs.getD 2 0).getLsbD j := by
  rw [bitN_eq_testBit, numAt, show 16 + j = 8 * 2 + j by rfl, testBit_bytesNat _ _ hj]
  simp [List.getD]


/-! ### `shf.side`, R82, R93 -/

section
variable {s : State} {ti gi x id : ℕ}

theorem sideEarly_badId (h : 0xFFFF < id) : sideEarly s ti gi x id = some 7 := by rw [sideEarly, if_pos h]

theorem sideEarly_notOpen (h : id ≤ 0xFFFF) (hs : s.openTo ti gi id = none) : sideEarly s ti gi x id = some 2 := by
  rw [sideEarly, if_neg (by omega), hs]

theorem sideEarly_open {h : Shuffle} (hi : id ≤ 0xFFFF) (hs : s.openTo ti gi id = some h) :
    (h.closing = true ∨ h.failed = true → sideEarly s ti gi x id = some 9) ∧
      (h.closing = false → h.failed = false → sideEarly s ti gi x id = if x % 1024 = 0 then none else some 6) := by
  have he : sideEarly s ti gi x id = if h.closing || h.failed then some 9 else if x % 1024 != 0 then some 6 else none := by
    rw [sideEarly, if_neg (by omega), hs]
  refine ⟨fun hc => ?_, fun hc hf => ?_⟩
  · rw [he, if_pos (by simpa using hc)]
  · rw [he, hc, hf]
    simp only [Bool.or_self, Bool.false_eq_true, if_false, bne_iff_ne, ne_eq, ite_not]
end

/-- A lane that the model finds no page missing for. -/
theorem missing_eq_nil {ps : List (ℕ × ℕ × Tr)} (h : ∀ q ∈ ps, ∃ pa key gen, q.2.2 = .ok pa key gen) : missing ps = [] :=
  List.filterMap_eq_nil_iff.2 fun q hq => by
    obtain ⟨pa, key, gen, e⟩ := h q hq
    simp only [e]

theorem duplicated_eq_nil {ps : List (ℕ × ℕ × Tr)} (h : ∀ q ∈ ps, ∃ pa key gen, q.2.2 = .ok pa key gen) : duplicated ps = [] :=
  List.filterMap_eq_nil_iff.2 fun q hq => by
    obtain ⟨pa, key, gen, e⟩ := h q hq
    simp only [e]

/-- The step of `shf.side` for lane `l`, from what its address translates to. -/
def sideLane (d : RegIx) (a : Src) (b : SrcB) (n : Src) (s : State) (c : Cur) (ps : List (ℕ × ℕ × Tr)) (u : State) (l : ℕ) : State :=
  let t := s.thread c.ti c.gi l
  let r := match sideEarly s c.ti c.gi (ea0 t a) (srcB32 t b).toNat, ps.find? (·.1 == l) with
    | some x, _ => (x, u)
    | none, some (_, _, .ok pa key gen) => u.addSide (srcB32 t b).toNat (src32 t n).toNat pa key gen
    | none, _ => (2, u)
  r.2.modThread c.ti c.gi l fun t => t.setV d.toNat (BitVec.ofNat 32 r.1)

section
variable {d : RegIx} {a : Src} {b : SrcB} {n : Src} {s : State} {c : Cur} {ps : List (ℕ × ℕ × Tr)}

theorem shfSide_issues {g : Guard} {s' : State} (hr : Ready s c g (d.toNat :: srcRegs 64 a ++ srcBRegs 32 b ++ srcRegs 32 n))
    (hc : memChecks s (s.acx c.ti c.gi) .load 1024 (laneAddrs s c ((activeLanes s c g).filter fun l =>
      (sideEarly s c.ti c.gi (ea0 (s.thread c.ti c.gi l) a) (srcB32 (s.thread c.ti c.gi l) b).toNat).isNone) fun t => ea0 t a) = .pass ps s')
    (hp : ∀ q ∈ ps, ∃ pa key gen, q.2.2 = .ok pa key gen)
    (hst : ∀ l ∈ activeLanes s c g, s.storesAcked c.ti c.gi l .dev s.nextId = true) :
    exec (.shfSide g d a b n) s = .next (advance ((activeLanes s c g).foldl (sideLane d a b n s c ps) s') c c.lanes) := by
  have hw : (activeLanes s c g).filter (fun l => !s.storesAcked c.ti c.gi l .dev s.nextId) = [] :=
    List.filter_eq_nil_iff.2 fun l hl => by simp [hst l hl]
  rw [laneAddrs] at hc
  rw [show exec (.shfSide g d a b n) s = execShfSide g d a b n s from rfl, execShfSide, ordinary_issues _ hr]
  simp only [hc, missing_eq_nil hp, duplicated_eq_nil hp, hw]
  rfl

variable {u : State} {l : ℕ}

theorem sideLane_early {x : ℕ} (h : sideEarly s c.ti c.gi (ea0 (s.thread c.ti c.gi l) a) (srcB32 (s.thread c.ti c.gi l) b).toNat = some x) :
    sideLane d a b n s c ps u l = u.modThread c.ti c.gi l fun t => t.setV d.toNat (BitVec.ofNat 32 x) := by
  simp only [sideLane, h]

theorem sideLane_addSide {va pa key gen st : ℕ} {v : State}
    (h : sideEarly s c.ti c.gi (ea0 (s.thread c.ti c.gi l) a) (srcB32 (s.thread c.ti c.gi l) b).toNat = none)
    (hf : ps.find? (fun q => q.1 == l) = some (l, va, .ok pa key gen))
    (ha : u.addSide (srcB32 (s.thread c.ti c.gi l) b).toNat (src32 (s.thread c.ti c.gi l) n).toNat pa key gen = (st, v)) :
    sideLane d a b n s c ps u l = v.modThread c.ti c.gi l fun t => t.setV d.toNat (BitVec.ofNat 32 st) := by
  simp only [sideLane, h, hf, ha]
end

section
variable {u : State} {id bn pa key gen : ℕ} {h : Shuffle}

/-- Whether an entry is that of block `bn` of shuffle `id` of the die of `h`. -/
def Shuffle.names (h : Shuffle) (id bn : ℕ) (e : SideEntry) : Bool := e.die == h.ddie && e.shid == id && e.bn == bn

theorem Shuffle.names_iff {e : SideEntry} : h.names id bn e = true ↔ e.die = h.ddie ∧ e.shid = id ∧ e.bn = bn := by
  simp [Shuffle.names, and_assoc]

/-- The announcement of a registered block, and the coded packets that wait for it. -/
def State.announceSide (s : State) (h : Shuffle) (id bn : ℕ) (es : List SideEntry) : State :=
  (State.emit { s with side := es } h.ddie true (.sideAnnounce id bn)).retryCoded id

variable (hs : u.shuffle id = some h)
include hs

theorem State.addSide_again (hx : ∃ x ∈ u.side, h.names id bn x = true) : u.addSide id bn pa key gen =
    (1, u.announceSide h id bn (u.side.map fun x => if h.names id bn x then ⟨h.ddie, id, bn, pa, key, gen, true⟩ else x)) := by
  simp only [State.addSide, hs]
  exact if_pos (List.any_eq_true.2 hx)

variable (hx : ∀ x ∈ u.side, h.names id bn x = false)
include hx

theorem State.addSide_new (hr : (u.side.filter fun x => x.die == h.ddie).length < 65536) : u.addSide id bn pa key gen =
    (0, u.announceSide h id bn (u.side ++ [⟨h.ddie, id, bn, pa, key, gen, true⟩])) := by
  simp only [State.addSide, hs]
  exact (if_neg (by simpa [Shuffle.names] using hx)).trans (if_neg (by simpa [Config.sideEntries] using hr))

theorem State.addSide_full (hr : 65536 ≤ (u.side.filter fun x => x.die == h.ddie).length) : u.addSide id bn pa key gen = (5, u) := by
  simp only [State.addSide, hs]
  exact (if_neg (by simpa [Shuffle.names] using hx)).trans (if_pos (by simpa [Config.sideEntries] using hr))
end

end Sys2Proof.Machine
end

section
/-! `shf.drop`, and the port by which a packet leaves, 04 R72, R76, R77, R94. -/

namespace Sys2Proof.Machine

/-! ### `shf.drop`, R94 -/

/-- The step of `shf.drop` for lane `l`. -/
def dropLane (d : RegIx) (a : Src) (b : SrcB) (s : State) (c : Cur) (u : State) (l : ℕ) : State :=
  let r := u.dropSide c.ti c.gi (srcB32 (s.thread c.ti c.gi l) b).toNat (src32 (s.thread c.ti c.gi l) a).toNat
  r.2.modThread c.ti c.gi l fun t => t.setV d.toNat (BitVec.ofNat 32 r.1)

theorem shfDrop_acts (g : Guard) (d : RegIx) (a : Src) (b : SrcB) :
    Acts (.shfDrop g d a b) g (d.toNat :: srcRegs 32 a ++ srcBRegs 32 b) Always
      (fun s c act => advance (act.foldl (dropLane d a b s c) s) c c.lanes) :=
  fun _ _ hr _ => ordinary_issues _ hr

theorem dropLane_of_dropSide {d : RegIx} {a : Src} {b : SrcB} {s u v : State} {c : Cur} {l st : ℕ}
    (h : u.dropSide c.ti c.gi (srcB32 (s.thread c.ti c.gi l) b).toNat (operand (s.thread c.ti c.gi l) 32 a).toNat = (st, v)) :
    dropLane d a b s c u l = v.modThread c.ti c.gi l fun t => t.setV d.toNat (BitVec.ofNat 32 st) := by
  simp only [dropLane, toNat_src32, h]

section
variable {s : State} {ti gi id bn : ℕ}

theorem State.dropSide_badId (h : 0xFFFF < id) : s.dropSide ti gi id bn = (7, s) := by rw [State.dropSide, if_pos h]

theorem State.dropSide_notOpen (h : id ≤ 0xFFFF) (hs : s.openTo ti gi id = none) : s.dropSide ti gi id bn = (2, s) := by
  rw [State.dropSide, if_neg (by omega), hs]

variable {h : Shuffle}

/-- `shf.drop` of a shuffle that is open to its group. -/
theorem State.dropSide_open (hi : id ≤ 0xFFFF) (hs : s.openTo ti gi id = some h) : s.dropSide ti gi id bn =
    if h.closing || h.failed then (9, s)
    else if s.side.any (h.names id bn) then (0, { s with side := s.side.filter fun e => !h.names id bn e }) else (8, s) := by
  rw [State.dropSide, if_neg (by omega), hs]; rfl

theorem State.dropSide_closing (hi : id ≤ 0xFFFF) (hs : s.openTo ti gi id = some h) (hc : h.closing = true ∨ h.failed = true) :
    s.dropSide ti gi id bn = (9, s) := by rw [State.dropSide_open hi hs, if_pos (by simpa using hc)]

variable (hi : id ≤ 0xFFFF) (hs : s.openTo ti gi id = some h) (hc : h.closing = false) (hf : h.failed = false)
include hi hs hc hf

theorem State.dropSide_absent (hx : ∀ x ∈ s.side, ¬h.names id bn x = true) : s.dropSide ti gi id bn = (8, s) := by
  rw [State.dropSide_open hi hs, if_neg (by simp [hc, hf]), if_neg (by simpa using hx)]

theorem State.dropSide_present (hx : ∃ x ∈ s.side, h.names id bn x = true) :
    s.dropSide ti gi id bn = (0, { s with side := s.side.filter fun e => !h.names id bn e }) := by
  rw [State.dropSide_open hi hs, if_neg (by simp [hc, hf]), if_pos (List.any_eq_true.2 hx)]
end

/-! ### The port by which a packet leaves, R72, R76, R77 -/

/-- The working ports among those of die `d`. -/
def State.upPorts (s : State) (d : ℕ) : List ℕ := ((List.range 8).map (8 * d + ·)).filter fun p => (s.port p).up

section
variable {s : State} {d p : ℕ}

theorem State.mem_upPorts : p ∈ s.upPorts d ↔ p / 8 = d ∧ (s.port p).up = true := by
  rw [State.upPorts, List.mem_filter, List.mem_map]
  simp only [List.mem_range]
  refine and_congr_left fun _ => ⟨?_, fun h => ⟨p % 8, by omega, by omega⟩⟩
  rintro ⟨i, hi, rfl⟩
  omega

theorem State.upPorts_eq_nil : s.upPorts d = [] ↔ ∀ p, p / 8 = d → (s.port p).up = false := by
  simp only [List.eq_nil_iff_forall_not_mem, State.mem_upPorts, not_and, Bool.not_eq_true]

theorem State.workingPorts_eq (s : State) (die : ℕ) :
    s.workingPorts die = (((List.range 4).map fun k => s.upPorts ((die + k) % 4)).find? (!·.isEmpty)).getD [] := rfl

theorem State.mem_workingPorts {die : ℕ} (h : p ∈ s.workingPorts die) : p < 32 ∧ (s.port p).up = true := by
  rw [State.workingPorts_eq] at h
  rcases hf : ((List.range 4).map fun k => s.upPorts ((die + k) % 4)).find? (!·.isEmpty) with _ | l
  · simp [hf] at h
  · rw [hf, Option.getD_some] at h
    obtain ⟨k, -, rfl⟩ := List.mem_map.1 (List.mem_of_find?_eq_some hf)
    obtain ⟨hd, hu⟩ := State.mem_upPorts.1 h
    exact ⟨by omega, hu⟩

theorem State.workingPorts_eq_nil {die : ℕ} : s.workingPorts die = [] ↔ ∀ p, p < 32 → (s.port p).up = false := by
  refine ⟨fun h p hp => ?_, fun h => List.eq_nil_iff_forall_not_mem.2 fun p hp => ?_⟩
  · rw [State.workingPorts_eq] at h
    have hn : ((List.range 4).map fun k => s.upPorts ((die + k) % 4)).find? (!·.isEmpty) = none := by
      by_contra hne
      obtain ⟨l, hl⟩ := Option.ne_none_iff_exists'.1 hne
      rw [hl, Option.getD_some] at h
      simpa [h] using List.find?_some hl
    have := List.find?_eq_none.1 hn _ (List.mem_map.2 ⟨(p / 8 + 4 - die % 4) % 4, List.mem_range.2 (Nat.mod_lt _ (by decide)), rfl⟩)
    rw [Bool.not_eq_true, Bool.not_eq_false', List.isEmpty_iff, State.upPorts_eq_nil] at this
    exact this p (by omega)
  · obtain ⟨hlt, hu⟩ := State.mem_workingPorts hp
    rw [h p hlt] at hu
    exact Bool.false_ne_true hu

/-- A die with a working port of its own uses those. -/
theorem State.workingPorts_own {die : ℕ} (hd : die < 4) (h : s.upPorts die ≠ []) : s.workingPorts die = s.upPorts die := by
  rw [State.workingPorts_eq, List.range_succ_eq_map, List.map_cons, Nat.add_zero, Nat.mod_eq_of_lt hd, List.find?_cons_of_pos (by simpa using h),
    Option.getD_some]

variable {die pa : ℕ}

theorem State.portFor_eq_none : s.portFor die pa = none ↔ ∀ p, p < 32 → (s.port p).up = false := by
  rw [← State.workingPorts_eq_nil (die := die), State.portFor]
  split
  · rename_i h
    exact iff_of_true rfl (List.isEmpty_iff.1 h)
  · rename_i h
    have hne : s.workingPorts die ≠ [] := by simpa using h
    refine iff_of_false (fun hn => ?_) hne
    exact absurd (List.getElem?_eq_none_iff.1 hn) (Nat.not_le.2 (Nat.mod_lt _ (List.length_pos_iff.2 hne)))

theorem State.mem_of_portFor (h : s.portFor die pa = some p) : p ∈ s.workingPorts die := by
  rw [State.portFor] at h
  split at h
  · cases h
  · exact List.mem_of_getElem? h

/-- The port that the hash of R72 gives works, and is one of the die's own where one of those works. -/
theorem State.portFor_spec (hd : die < 4) (h : s.portFor die pa = some p) :
    p < 32 ∧ (s.port p).up = true ∧ ((∃ i, i < 8 ∧ (s.port (8 * die + i)).up = true) → p / 8 = die) := by
  have hm := State.mem_of_portFor h
  obtain ⟨hlt, hu⟩ := State.mem_workingPorts hm
  refine ⟨hlt, hu, fun ⟨i, hi, hui⟩ => ?_⟩
  have hne : s.upPorts die ≠ [] := List.ne_nil_of_mem (State.mem_upPorts.2 ⟨by omega, hui⟩)
  rw [State.workingPorts_own hd hne] at hm
  exact (State.mem_upPorts.1 hm).1

variable {shf : Bool} {m : OutMsg}

theorem State.fabricOpen_iff : s.fabricOpen p shf = true ↔
    (if shf then (s.port p).hshf else (s.port p).hreq) = false ∧ ∀ x ∈ s.outbox, ¬(x.1 = p ∧ x.2.1 = shf) := by
  simp [State.fabricOpen, Port.open']

theorem State.emitBy_results :
    let free : Prop := (if shf then (s.port p).hshf else (s.port p).hreq) = false ∧ ∀ x ∈ s.outbox, ¬(x.1 = p ∧ x.2.1 = shf)
    (free → s.emitBy p shf m = { s with sent := s.sent ++ [m] }) ∧ (¬free → s.emitBy p shf m = { s with outbox := s.outbox ++ [(p, shf, m)] }) := by
  intro free
  exact ⟨fun h => if_pos (State.fabricOpen_iff.2 h), fun h => if_neg (mt State.fabricOpen_iff.1 h)⟩

theorem State.emit_of_ownPort_none (h : s.ownPort die = none) : s.emit die shf m = { s with sent := s.sent ++ [m] } := by rw [State.emit, h]
theorem State.emit_of_ownPort (h : s.ownPort die = some p) : s.emit die shf m = s.emitBy p shf m := by rw [State.emit, h]
end

/-! ### An entry that takes the place of others -/

section
variable {α : Type} {p : α → Bool} {e x : α} {l : List α}

theorem mem_map_replace_self (h : ∃ x ∈ l, p x = true) : e ∈ l.map fun x => if p x then e else x := by
  obtain ⟨x, hx, hp⟩ := h
  exact List.mem_map.2 ⟨x, hx, if_pos hp⟩

theorem eq_of_mem_map_replace (hx : x ∈ l.map fun x => if p x then e else x) (hp : p x = true) : x = e := by
  obtain ⟨y, -, rfl⟩ := List.mem_map.1 hx
  by_cases hy : p y = true
  · exact if_pos hy
  · exact absurd (by rwa [if_neg hy] at hp) hy

theorem mem_map_replace_iff (he : p e = true) (hp : ¬p x = true) : (x ∈ l.map fun x => if p x then e else x) ↔ x ∈ l := by
  rw [List.mem_map]
  refine ⟨fun ⟨y, hy, hyx⟩ => ?_, fun hx => ⟨x, hx, if_neg hp⟩⟩
  split at hyx
  · exact absurd (hyx ▸ he) hp
  · exact hyx ▸ hy
end

/-- Settles O37: what each lane's step does is said once for each status, and a packet's port is read off the hash of R72. -/
theorem shuffleOpenAndSideResults : Obligations.ShuffleOpenAndSideResults := by
  unfold Obligations.ShuffleOpenAndSideResults
  refine ⟨fun g d a b => ⟨(shfOpen_prechecks g d a b).misaligns, (shfOpen_prechecks g d a b).overreaches, openLane d a b, shfOpen_acts g d a b, ?_⟩, ?_⟩
  · intro s u c l bs devs id n die answers good free room hdev
    have hgood : good = OpenGood u id bs devs := by rw [OpenGood, hdev]
    rw [hgood]
    refine ⟨fun hg => openLane_of_openStatus (openStatus_bad hg), fun hg hf => openLane_of_openStatus (openStatus_taken hg hf),
      fun hg hf hr => openLane_of_openStatus (openStatus_full hg hf hr),
      fun hg hf hr => ⟨_, openLane_of_openStatus (openStatus_opens hg hf hr), ?_⟩⟩
    exact ⟨rfl, rfl, rfl, rfl, bitN_descriptor bs (j := 2) (by decide), bitN_descriptor bs (j := 3) (by decide), rfl, rfl, rfl, rfl, rfl, rfl, rfl,
      rfl, rfl, rfl, rfl⟩
  intro g d a n b th id mine early
  simp -zeta only [mine, ← Shuffle.names_iff]
  refine ⟨fun s ti gi x i => ⟨sideEarly_badId, sideEarly_notOpen, fun h => sideEarly_open⟩,
    ⟨sideLane d a b n, fun s c ps s' => shfSide_issues, ?_⟩, ?_, dropLane d a b, shfDrop_acts g d a b, ?_⟩
  · intro s c ps u l k answers
    refine ⟨fun x => sideLane_early, ?_⟩
    intro va pa key gen h he hf hs e told
    have lane {st : ℕ} {v : State} (ha : u.addSide (id s c l) k pa key gen = (st, v)) : answers st v :=
      sideLane_addSide he hf ((congrArg (u.addSide (id s c l) · pa key gen) (toNat_src32 (th s c l) n)).trans ha)
    have hnames : h.names (id s c l) k e = true := Shuffle.names_iff.2 ⟨rfl, rfl, rfl⟩
    refine ⟨fun hx => ⟨_, lane (State.addSide_again hs hx), List.length_map .., mem_map_replace_self hx, fun x => eq_of_mem_map_replace,
      fun x => mem_map_replace_iff hnames⟩, fun hx => ?_⟩
    simp only [Bool.not_eq_true] at hx
    exact ⟨fun hr => lane (State.addSide_new hs hx hr), fun hr => lane (State.addSide_full hs hx hr)⟩
  · intro s die shf m
    exact ⟨State.emit_of_ownPort_none, fun p hp => State.emit_of_ownPort hp ▸ State.emitBy_results, fun hd =>
      ⟨State.portFor_eq_none, fun p => State.portFor_spec hd⟩⟩
  · intro s c u l k answers
    exact ⟨fun hi => dropLane_of_dropSide (State.dropSide_badId hi), fun hi hs => dropLane_of_dropSide (State.dropSide_notOpen hi hs),
      fun h hi hs => ⟨fun hc => dropLane_of_dropSide (State.dropSide_closing hi hs hc),
        fun hc hf hx => dropLane_of_dropSide (State.dropSide_absent hi hs hc hf hx),
        fun hc hf hx => dropLane_of_dropSide (State.dropSide_present hi hs hc hf hx)⟩⟩

end Sys2Proof.Machine
end

section
/-! What single updates leave: one thread, the packets that leave, the level of a strainer, the side information of a shuffle that ends. -/

namespace Sys2Proof.Machine

/-! ### One thread -/

theorem State.modThread_eq_modLanes (s : State) (ti gi l : ℕ) (f : Thread → Thread) :
    s.modThread ti gi l f = s.modLanes ti gi [l] fun _ => f := by
  refine congrArg (s.modGroup ti gi) (funext fun g => ?_)
  have h : updAt g.lanes l f = g.lanes.mapIdx fun k t => if [l].contains k then f t else t := by
    refine List.ext_getElem? fun k => ?_
    rw [getElem?_updAt, List.getElem?_mapIdx]
    by_cases hk : k = l <;> simp [hk]
  simp only [Group.modLane, Group.modLanes, h]

section
variable {s : State} {ti gi l : ℕ} (f : Thread → Thread)

theorem State.thread_modThread_self (hl : l < (s.group ti gi).lanes.length) :
    (s.modThread ti gi l f).thread ti gi l = f (s.thread ti gi l) := by
  rw [State.modThread_eq_modLanes]
  exact State.thread_modLanes_mem _ (List.mem_singleton_self l) hl

theorem State.thread_modThread_ne {tj gj k : ℕ} (h : (tj, gj, k) ≠ (ti, gi, l)) : (s.modThread ti gi l f).thread tj gj k = s.thread tj gj k := by
  rw [State.modThread_eq_modLanes]
  by_cases hg : (tj, gj) = (ti, gi)
  · obtain ⟨rfl, rfl⟩ := Prod.mk.inj hg
    exact State.thread_modLanes_notMem s _ fun hk => h (by rw [List.mem_singleton.1 hk])
  · exact State.thread_modLanes_ne s k _ _ hg

@[simp] theorem State.lanes_length_modThread (s : State) (ti gi l tj gj : ℕ) :
    ((s.modThread ti gi l f).group tj gj).lanes.length = (s.group tj gj).lanes.length := by
  rw [State.modThread_eq_modLanes, State.lanes_length_modLanes]

/-- A lane that is not there. -/
theorem State.thread_missing (h : (s.group ti gi).lanes.length ≤ l) : s.thread ti gi l = Thread.blank := List.getD_eq_default _ _ h

/-- A property that the blank thread has and the update establishes holds of the thread updated. -/
theorem State.modThread_establishes {P : Thread → Prop} (hb : P .blank) (hf : ∀ t, P (f t)) : P ((s.modThread ti gi l f).thread ti gi l) := by
  rcases Nat.lt_or_ge l (s.group ti gi).lanes.length with hl | hl
  · exact State.thread_modThread_self f hl ▸ hf _
  · exact State.thread_missing (State.lanes_length_modThread f s ti gi l ti gi ▸ hl) ▸ hb

/-- A property that the update keeps, of any thread. -/
theorem State.modThread_keeps {P : Thread → Prop} {tj gj k : ℕ} (hb : P .blank) (hf : ∀ t, P (f t)) (h : P (s.thread tj gj k)) :
    P ((s.modThread ti gi l f).thread tj gj k) := by
  by_cases he : (tj, gj, k) = (ti, gi, l)
  · obtain ⟨rfl, rfl, rfl⟩ := by simpa using he
    exact State.modThread_establishes f hb hf
  · rwa [State.thread_modThread_ne f he]

/-- A change of a group that leaves its lanes. -/
theorem State.thread_modGroup_of_lanes (s : State) (ti gi : ℕ) {f : Group → Group} (hf : ∀ g, (f g).lanes = g.lanes) (tj gj k : ℕ) :
    (s.modGroup ti gi f).thread tj gj k = s.thread tj gj k := by
  by_cases h : (tj, gj) = (ti, gi)
  · obtain ⟨rfl, rfl⟩ := Prod.mk.inj h
    rcases Nat.lt_or_ge gj (s.team tj).groups.length with hg | hg
    · rw [State.thread, State.group_modGroup_self _ hg, Group.lane, hf]; rfl
    · rw [State.thread, State.group_modGroup_missing f hg]; rfl
  · rw [State.thread, State.group_modGroup_ne _ _ h]; rfl

end

/-- A value that every step of a fold keeps. -/
theorem foldl_keeps {α β γ : Type} (v : α → γ) {f : α → β → α} (h : ∀ a b, v (f a b) = v a) (l : List β) (a : α) : v (l.foldl f a) = v a := by
  induction l generalizing a with
  | nil => rfl
  | cons b l ih => exact (ih _).trans (h a b)

/-! ### Packets that leave, 04 R76, R88 -/

/-- A state without what it has sent and what waits to be sent. -/
def State.unsent (s : State) : State := { s with sent := [], outbox := [] }

/-- A state without that and without its dies, one of which changes where coding stops or goes on. -/
def State.untold (s : State) : State := { s with sent := [], outbox := [], dies := [] }

theorem State.untold_of_unsent {s t : State} (h : s.unsent = t.unsent) : s.untold = t.untold := by
  have := congrArg State.untold h
  exact this

section
variable (s : State)

@[simp] theorem State.unsent_emitBy (p : ℕ) (shf : Bool) (m : OutMsg) : (s.emitBy p shf m).unsent = s.unsent := by
  rw [State.emitBy]; split <;> rfl

@[simp] theorem State.unsent_tellCoding (die : ℕ) (stop : Bool) : (s.tellCoding die stop).unsent = s.unsent :=
  foldl_keeps State.unsent (fun s _ => s.unsent_emitBy ..) _ _

@[simp] theorem State.untold_strainerLevel (die : ℕ) : (s.strainerLevel die).untold = s.untold := by
  unfold State.strainerLevel
  extract_lets d occ stopped
  split
  · rfl
  · exact (State.untold_of_unsent (State.unsent_tellCoding ..)).trans rfl

/-- What a change in a strainer comes to: the highest occupancy of the shuffles decoded there. -/
theorem State.untold_strainerChanged (die : ℕ) : (s.strainerChanged die).untold =
    State.untold { s with shuffles := updIf s.shuffles (·.ddie == die) fun h => { h with high := max h.high (s.occupancy die) } } :=
  State.untold_strainerLevel ..

@[simp] theorem State.shuffles_strainerChanged (die : ℕ) : (s.strainerChanged die).shuffles =
    updIf s.shuffles (·.ddie == die) fun h => { h with high := max h.high (s.occupancy die) } :=
  congrArg State.shuffles (s.untold_strainerChanged die)

/-- A state without the parts that change where the side information of a shuffle is freed. -/
def State.apart (s : State) : State := { s with side := [], strainer := [], faults := [], shuffles := [], sent := [], outbox := [], dies := [] }

@[simp] theorem State.apart_strainerChanged (die : ℕ) : (s.strainerChanged die).apart = s.apart := by
  have := congrArg State.apart (s.untold_strainerChanged die)
  exact this

variable (h : Shuffle)

@[simp] theorem State.apart_freeSide : (s.freeSide h).apart = s.apart :=
  (State.apart_strainerChanged ..).trans (foldl_keeps State.apart (fun s x => by cases x.arrival <;> rfl) _ _)

@[simp] theorem State.side_freeSide : (s.freeSide h).side = s.side.filter fun e => e.shid != h.id :=
  (congrArg State.side (State.untold_strainerChanged ..)).trans (foldl_keeps State.side (fun s x => by cases x.arrival <;> rfl) _ _)

/-- The shuffles keep all but a highest occupancy. -/
theorem State.shuffles_freeSide :
    ∃ occ, (s.freeSide h).shuffles = updIf s.shuffles (·.ddie == h.ddie) fun h => { h with high := max h.high occ } := by
  unfold State.freeSide
  extract_lets mine gone fids s1
  rw [State.shuffles_strainerChanged, foldl_keeps State.shuffles fun s x => by cases x.arrival <;> rfl]
  exact ⟨_, rfl⟩
end

end Sys2Proof.Machine
end

section
/-! `shf.close` and the end of a close, 04 R90, R95. -/

namespace Sys2Proof.Machine

/-! ### `shf.close`, R95 -/

/-- Whether lane `l` is a closer of a closed-failed shuffle whose trap is still to come. -/
def deadCloser (b : SrcB) (s : State) (c : Cur) (l : ℕ) : Bool :=
  match s.openTo c.ti c.gi (srcB32 (s.thread c.ti c.gi l) b).toNat with
  | some h => h.failed && h.closers.any (closerIs c.ti c.gi l)
  | none => false

/-- The step of `shf.close` for lane `l`. -/
def closeLane (d : RegIx) (b : SrcB) (s : State) (c : Cur) (u : State) (l : ℕ) : State :=
  let gets (x : Word) (v : State) : State := v.modThread c.ti c.gi l fun t => ((t.setV d.toNat x).wait c .none).resume
  match u.openTo c.ti c.gi (srcB32 (s.thread c.ti c.gi l) b).toNat with
  | none => gets 0x98000000 u
  | some h =>
    if h.failed then gets (tokenWord 0x0C h.delivered) (u.closeFailed h)
    else if !h.waits && decide (63 ≤ (u.group c.ti c.gi).copies) then stallLanes u c [l] else u.beginClose c l d.toNat h

theorem execShfClose_eq (g : Guard) (d : RegIx) (b : SrcB) : execShfClose g d b = ordinary .all g (d.toNat :: srcBRegs 32 b) fun c act s =>
    match act.find? (deadCloser b s c) with
    | some l =>
      let id := (srcB32 (s.thread c.ti c.gi l) b).toNat
      .trapIn (s.modShuffle id fun h => { h with closers := h.closers.filter fun q => !act.any fun k => closerIs c.ti c.gi k q }) 0x0C
        (BitVec.ofNat 64 id)
    | none => .moved (act.foldl (closeLane d b s c) s) := rfl

section
variable {g : Guard} {d : RegIx} {b : SrcB} {s u : State} {c : Cur} {l : ℕ}

theorem deadCloser_iff : deadCloser b s c l = true ↔ ∃ h, s.openTo c.ti c.gi (srcB32 (s.thread c.ti c.gi l) b).toNat = some h ∧ h.failed = true ∧
    ∃ q ∈ h.closers, closerIs c.ti c.gi l q = true := by
  rw [deadCloser]
  cases s.openTo c.ti c.gi (srcB32 (s.thread c.ti c.gi l) b).toNat <;> simp

/-- The lowest lane whose trap is due traps. -/
theorem shfClose_traps {p q : List ℕ} (hr : Ready s c g (d.toNat :: srcBRegs 32 b)) (ha : activeLanes s c g = p ++ l :: q)
    (hp : ∀ k ∈ p, ¬deadCloser b s c k = true) (hl : deadCloser b s c l = true) :
    exec (.shfClose g d b) s = .next (takeTrap (s.modShuffle (srcB32 (s.thread c.ti c.gi l) b).toNat fun h =>
        { h with closers := h.closers.filter fun q => !(activeLanes s c g).any fun k => closerIs c.ti c.gi k q })
      c.ti c.gi c.lanes 0x0C c.pc (BitVec.ofNat 64 (srcB32 (s.thread c.ti c.gi l) b).toNat)) := by
  have hf : (activeLanes s c g).find? (deadCloser b s c) = some l :=
    ha ▸ List.find?_eq_some_iff_append.2 ⟨hl, p, q, rfl, fun k hk => by simpa using hp k hk⟩
  rw [show exec (.shfClose g d b) s = execShfClose g d b s from rfl, execShfClose_eq, ordinary_issues _ hr]
  simp only [hf]
  rfl

theorem shfClose_issues (hr : Ready s c g (d.toNat :: srcBRegs 32 b)) (ha : ∀ l ∈ activeLanes s c g, ¬deadCloser b s c l = true) :
    exec (.shfClose g d b) s = .next (afterMoved ((activeLanes s c g).foldl (closeLane d b s c) s) c (activeLanes s c g)) := by
  rw [show exec (.shfClose g d b) s = execShfClose g d b s from rfl, execShfClose_eq, ordinary_issues _ hr]
  simp only [List.find?_eq_none.2 ha]
  rfl

theorem closeLane_notOpen (h : u.openTo c.ti c.gi (srcB32 (s.thread c.ti c.gi l) b).toNat = none) :
    closeLane d b s c u l = u.modThread c.ti c.gi l fun t => ((t.setV d.toNat 0x98000000).wait c .none).resume := by
  simp only [closeLane, h]

variable {h : Shuffle} (ho : u.openTo c.ti c.gi (srcB32 (s.thread c.ti c.gi l) b).toNat = some h)
include ho

theorem closeLane_failed (hf : h.failed = true) : closeLane d b s c u l =
    (u.closeFailed h).modThread c.ti c.gi l fun t => ((t.setV d.toNat (tokenWord 0x0C h.delivered)).wait c .none).resume := by
  simp only [closeLane, ho, hf, if_true]

variable (hf : h.failed = false)
include hf

theorem closeLane_stalls (hw : h.waits = false) (hc : 63 ≤ (u.group c.ti c.gi).copies) : closeLane d b s c u l = stallLanes u c [l] := by
  simp [closeLane, ho, hf, hw, hc]

theorem closeLane_begins (hw : h.waits = true ∨ (u.group c.ti c.gi).copies < 63) : closeLane d b s c u l = u.beginClose c l d.toNat h := by
  simp only [closeLane, ho, hf, Bool.false_eq_true, if_false]
  refine if_neg ?_
  rcases hw with hw | hw <;> simp [hw]
end

section
variable {s : State} {h : Shuffle}

theorem State.closerDue_iff {q : ℕ × ℕ × ℕ × ℕ} :
    s.closerDue q = true ↔ (s.team q.1).place ≠ .gone ∧ (s.thread q.1 q.2.1 q.2.2.1).exited = false := by
  simp [State.closerDue]

/-- The id of a closed-failed shuffle is held while a closer has its trap still to come. -/
theorem State.closeFailed_due (hd : ∃ q ∈ h.closers, (s.team q.1).place ≠ .gone ∧ (s.thread q.1 q.2.1 q.2.2.1).exited = false) :
    s.closeFailed h = s := if_pos (by simpa only [List.any_eq_true, State.closerDue_iff] using hd)

theorem State.closeFailed_free (hd : ¬∃ q ∈ h.closers, (s.team q.1).place ≠ .gone ∧ (s.thread q.1 q.2.1 q.2.2.1).exited = false) :
    s.closeFailed h = { s.freeSide h with shuffles := s.shuffles.filter fun x => x.id != h.id } :=
  if_neg (by simpa only [List.any_eq_true, State.closerDue_iff] using hd)

variable {c : Cur} {l d : ℕ}

theorem State.beginClose_waits (hw : h.waits = true) : s.beginClose c l d h =
    ((((s.modShuffle h.id fun h => { h with closing := true }).retryCoded h.id).modThread c.ti c.gi l fun t =>
      t.wait c (.shfClose h.id)).modShuffle h.id fun h =>
        { h with closers := h.closers.filter (fun q => !closerIs c.ti c.gi l q) ++ [(c.ti, c.gi, l, d)] }) := by
  simp only [State.beginClose, hw, if_true]

/-- A lane that does not wait counts a copy, and its token register is pending. -/
theorem State.beginClose_copies (hw : h.waits = false) :
    let v := (s.modShuffle h.id fun h => { h with closing := true }).retryCoded h.id
    l < (v.group c.ti c.gi).lanes.length → let w := s.beginClose c l d h
      w.thread c.ti c.gi l = (((v.thread c.ti c.gi l).addPend [d] v.nextId).wait c .none).resume ∧
      w.shuffles = (v.modShuffle h.id fun h => { h with closers := h.closers ++ [(c.ti, c.gi, l, v.nextId)] }).shuffles ∧
      (w.group c.ti c.gi).copies = (v.group c.ti c.gi).copies + 1 := by
  intro v hl
  have hw' : s.beginClose c l d h = (((v.fresh.2.modThread c.ti c.gi l fun t =>
      ((t.addPend [d] v.nextId).wait c .none).resume).modGroup c.ti c.gi fun g => { g with copies := g.copies + 1 }).modShuffle h.id fun h =>
        { h with closers := h.closers ++ [(c.ti, c.gi, l, v.nextId)] }) := by
    simp only [State.beginClose, hw, Bool.false_eq_true, if_false]; rfl
  rw [hw']
  have hl' : l < (v.fresh.2.group c.ti c.gi).lanes.length := hl
  refine ⟨?_, rfl, ?_⟩
  · refine (State.thread_modGroup_of_lanes _ c.ti c.gi (fun _ => ?_) c.ti c.gi l).trans (State.thread_modThread_self _ hl')
    rfl
  · refine (congrArg Group.copies (State.group_modGroup_self _ (State.group_lt (l := l) (by simpa using hl')))).trans ?_
    rw [State.modThread, State.group_modGroup_self _ (State.group_lt hl')]
    rfl
end

/-- A token word whose status fits its field. -/
theorem tokenWord_eq {st : ℕ} (hs : st < 128) (n : ℕ) : tokenWord st n = BitVec.ofNat 32 (2 ^ 31 + st * 2 ^ 24 + min n 0xFFFFFF) := by
  rw [tokenWord, Nat.mod_eq_of_lt hs]

theorem Shuffle.token_eq (h : Shuffle) :
    h.token = BitVec.ofNat 32 (2 ^ 31 + (if h.missing = 0 then 0 else 0x0C) * 2 ^ 24 + min h.delivered 0xFFFFFF) :=
  tokenWord_eq (by split <;> decide) _

/-! ### The end of a close -/

section
variable {s : State} {shid : ℕ} {h : Shuffle}

theorem State.id_of_shuffle (hs : s.shuffle shid = some h) : h.id = shid := by simpa using List.find?_some hs

theorem shfCloseComplete_early (hs : s.shuffle shid = some h) (ha : h.accounted < h.expect) : exec (.shfCloseComplete shid) s = .next s := by
  rw [show exec (.shfCloseComplete shid) s = execShfCloseComplete shid s from rfl, execShfCloseComplete]
  simp [hs, ha]

/-- Every expected block is accounted for, and the line of the completion record is owned. -/
theorem shfCloseComplete_ends {p : Piece} {s1 s' : State} (hs : s.shuffle shid = some h) (hc : h.closing = true) (hf : h.failed = false)
    (ha : h.expect ≤ h.accounted) (hm : s.mapPages (s.shufAcx h) true [(h.desc + 0x20, 32)] = (.ok [p], s1)) (hp : p.dead = false)
    (hw : s1.access h.ddie [] (pieceLines false [p]) = (true, s')) : exec (.shfCloseComplete shid) s =
      .next (((s'.markDirty (s.shufAcx h) (h.desc + 0x20)).homeWriteBytes p.key p.addr h.record).endClose h) := by
  rw [show exec (.shfCloseComplete shid) s = execShfCloseComplete shid s from rfl, execShfCloseComplete]
  simp [hs, hc, hf, Nat.not_lt.2 ha, hm, hp, hw]

end
end Sys2Proof.Machine
end

section
/-! The end of a close: what becomes of the shuffle, its side information and its closers, 04 R90, R95. -/

namespace Sys2Proof.Machine

/-! ### The shuffles of a state -/

theorem State.shuffle_modShuffle_self {s : State} {id : ℕ} {f : Shuffle → Shuffle} (hf : ∀ h, (f h).id = h.id) :
    (s.modShuffle id f).shuffle id = (s.shuffle id).map f := by
  rw [State.shuffle, State.shuffle, State.modShuffle, updIf, List.find?_map]
  have hp : ((fun h : Shuffle => h.id == id) ∘ fun h => if h.id == id then f h else h) = fun h => h.id == id := by
    funext h
    simp only [Function.comp_apply]
    split <;> simp [hf]
  rw [hp]
  cases hx : s.shuffles.find? fun h => h.id == id with
  | none => rfl
  | some h => simp only [Option.map_some]; rw [if_pos (List.find?_some hx)]

/-! ### Late writes, 08 R175 -/

theorem Thread.v_foldl_setV (l : List Pend) (t : Thread) (r : ℕ) (x : Word) :
    (l.foldl (fun t p => t.setV p.reg x) t).v r = if ∃ p ∈ l, p.reg = r then x else t.v r := by
  induction l generalizing t with
  | nil => simp
  | cons p l ih =>
    rw [List.foldl_cons, ih, Thread.v_setV]
    by_cases h : ∃ p ∈ l, p.reg = r
    · rw [if_pos h, if_pos (by simpa using .inr h)]
    · rw [if_neg h]
      by_cases hp : p.reg = r
      · rw [if_pos hp.symm, if_pos ⟨p, List.mem_cons_self, hp⟩]
      · rw [if_neg (Ne.symm hp), if_neg (by simpa [hp] using h)]

/-- The register of a pending part gets its late value. -/
theorem Thread.v_late {t : Thread} {op part r : ℕ} (x : Word) (h : ⟨r, op, part⟩ ∈ t.pend) : (t.late op part x).v r = x :=
  (Thread.v_foldl_setV _ t r x).trans (if_pos ⟨_, List.mem_filter.2 ⟨h, by simp⟩, rfl⟩)

/-! ### The end of a close, R95 -/

/-- A state without its teams. -/
def State.teamless (s : State) : State := { s with teams := [] }

/-- A lane that waits at the close of shuffle `shid` issues again (log 79). -/
def Thread.reissue (shid : ℕ) (t : Thread) : Thread := if t.hold == .shfClose shid then { t with hold := .none } else t

/-- The state once a shuffle's side information is freed and its id free. -/
def State.closedOff (s : State) (h : Shuffle) : State := { s.freeSide h with shuffles := s.shuffles.filter fun x => x.id != h.id }

/-- The closer of an entry gets the token. -/
def State.giveToken (h : Shuffle) (s : State) (q : ℕ × ℕ × ℕ × ℕ) : State :=
  if h.waits then s.modThread q.1 q.2.1 q.2.2.1 fun t => if t.hold == .shfClose h.id then (t.setV q.2.2.2 h.token).resume else t
  else (s.modThread q.1 q.2.1 q.2.2.1 fun t => (t.late q.2.2.2 0 h.token).clearPend q.2.2.2).modGroup q.1 q.2.1 fun g =>
    { g with copies := g.copies - 1 }

/-- States that differ in their teams alone. -/
theorem State.fields_of_teamless {s t : State} (h : s.teamless = t.teamless) : s.mem = t.mem ∧ s.side = t.side ∧ s.shuffles = t.shuffles := by
  have hm := congrArg State.mem h
  have hs := congrArg State.side h
  have hx := congrArg State.shuffles h
  exact ⟨hm, hs, hx⟩

/-- States that differ in shuffles, strainers and what is sent alone. -/
theorem State.fields_of_apart {s t : State} (h : s.apart = t.apart) : s.mem = t.mem ∧ s.teams = t.teams := by
  have hm := congrArg State.mem h
  have ht := congrArg State.teams h
  exact ⟨hm, ht⟩

theorem Thread.hold_reissue (shid : ℕ) (t : Thread) : (t.reissue shid).hold ≠ .shfClose shid := by
  rw [Thread.reissue]
  split
  · exact Hold.noConfusion
  · exact fun h => ‹¬_› (beq_iff_eq.2 h)

/-- What an update establishes, it does for each thread of a list. -/
theorem State.foldl_modThread_establishes {P : Thread → Prop} {f : Thread → Thread} (hb : P .blank) (hf : ∀ t, P (f t))
    (l : List (ℕ × ℕ × ℕ × ℕ)) (s : State) :
    ∀ q ∈ l, P ((l.foldl (fun s q => s.modThread q.1 q.2.1 q.2.2.1 f) s).thread q.1 q.2.1 q.2.2.1) := by
  induction l using List.reverseRecOn with
  | nil => exact fun _ hq => absurd hq List.not_mem_nil
  | append_singleton l p ih =>
    intro q hq
    rw [List.foldl_append, List.foldl_cons, List.foldl_nil]
    rcases List.mem_append.1 hq with hq | hq
    · exact State.modThread_keeps f hb hf (ih q hq)
    · rw [List.mem_singleton.1 hq]
      exact State.modThread_establishes f hb hf

section
variable (s : State) (h : Shuffle)

theorem State.teamless_giveToken (q : ℕ × ℕ × ℕ × ℕ) : (s.giveToken h q).teamless = s.teamless := by
  rw [State.giveToken]; split <;> rfl

theorem State.finishClose_eq : s.finishClose h = h.closers.foldl (State.giveToken h) (s.closedOff h) := rfl

theorem State.teamless_finishClose : (s.finishClose h).teamless = (s.closedOff h).teamless :=
  foldl_keeps State.teamless (fun s => s.teamless_giveToken h) _ _

/-- A close that ends frees the id and the side information, and writes no memory. -/
theorem State.finishClose_frees : (s.finishClose h).shuffle h.id = none ∧ (s.finishClose h).side = s.side.filter (fun e => e.shid != h.id) ∧
    (s.finishClose h).mem = s.mem := by
  obtain ⟨hm, hs, hx⟩ := State.fields_of_teamless (s.teamless_finishClose h)
  refine ⟨?_, hs.trans (s.side_freeSide h), hm.trans (State.fields_of_apart (s.apart_freeSide h)).1⟩
  rw [State.shuffle, hx]
  simp [State.closedOff]

variable {h}

theorem State.endClose_finishes (hw : (h.waits && h.missing != 0) = false) : s.endClose h = s.finishClose h := by
  rw [State.endClose, if_neg (by simp [hw])]

/-- A close that ends with blocks missing, its lanes waiting (log 79). -/
theorem State.endClose_reissues (hw : (h.waits && h.missing != 0) = true) :
    s.endClose h = h.closers.foldl (fun s q => s.modThread q.1 q.2.1 q.2.2.1 (Thread.reissue h.id))
      ((s.freeSide h).modShuffle h.id fun h => { h with failed := true }) := by
  rw [State.endClose, if_pos hw]; rfl

variable (hw : (h.waits && h.missing != 0) = true)
include hw

theorem State.teamless_endClose :
    (s.endClose h).teamless = State.teamless ((s.freeSide h).modShuffle h.id fun h => { h with failed := true }) := by
  rw [s.endClose_reissues hw]
  refine foldl_keeps State.teamless (fun _ _ => ?_) _ _
  rfl

theorem State.side_endClose : (s.endClose h).side = s.side.filter fun e => e.shid != h.id :=
  (State.fields_of_teamless (s.teamless_endClose hw)).2.1.trans (s.side_freeSide h)

/-- The shuffle is closed-failed then. -/
theorem State.shuffle_endClose (hu : ∀ x ∈ s.shuffles, x.id = h.id → x = h) {x : Shuffle} (hx : (s.endClose h).shuffle h.id = some x) :
    x.failed = true ∧ x.closing = h.closing := by
  obtain ⟨occ, ho⟩ := s.shuffles_freeSide h
  rw [State.shuffle, (State.fields_of_teamless (s.teamless_endClose hw)).2.2] at hx
  change ((s.freeSide h).modShuffle h.id _).shuffle h.id = some x at hx
  rw [State.shuffle_modShuffle_self fun _ => by rfl] at hx
  obtain ⟨y, hy, rfl⟩ := Option.map_eq_some_iff.1 hx
  refine ⟨rfl, ?_⟩
  have hid : y.id = h.id := State.id_of_shuffle hy
  obtain ⟨z, hz, rfl⟩ := List.mem_map.1 (ho ▸ List.mem_of_find?_eq_some hy)
  by_cases hd : (z.ddie == h.ddie) = true
  · rw [if_pos hd] at hid ⊢
    rw [hu z hz hid]
  · rw [if_neg hd] at hid ⊢
    rw [hu z hz hid]

/-- No closer waits then. -/
theorem State.hold_endClose : ∀ q ∈ h.closers, ((s.endClose h).thread q.1 q.2.1 q.2.2.1).hold ≠ .shfClose h.id := by
  rw [s.endClose_reissues hw]
  exact State.foldl_modThread_establishes (P := fun t => t.hold ≠ .shfClose h.id) Hold.noConfusion (Thread.hold_reissue h.id) _ _
end

section
variable (s : State) {h : Shuffle}

theorem State.group_closedOff (s : State) (h : Shuffle) (ti gi : ℕ) : (s.closedOff h).group ti gi = s.group ti gi := by
  have ht := (State.fields_of_apart (s.apart_freeSide h)).2
  simp only [State.group, State.team, State.closedOff, ht]

variable {ti gi l k : ℕ} (hc : h.closers = [(ti, gi, l, k)]) (hl : l < (s.group ti gi).lanes.length)
include hc hl

/-- A closer that waited at its close gets the token and goes on. -/
theorem State.finishClose_wakes (hw : h.waits = true) (hh : (s.thread ti gi l).hold = .shfClose h.id) :
    (s.finishClose h).thread ti gi l = ((s.thread ti gi l).setV k h.token).resume := by
  have hg := s.group_closedOff h ti gi
  rw [State.finishClose_eq, hc, List.foldl_cons, List.foldl_nil, State.giveToken, if_pos hw, State.thread_modThread_self _ (hg ▸ hl), State.thread, hg]
  exact if_pos (beq_iff_eq.2 hh)

/-- The token register of a closer that went on is written, and no longer pending, and the copy is over. -/
theorem State.finishClose_writes (hw : h.waits = false) {r : ℕ} (hp : ⟨r, k, 0⟩ ∈ (s.thread ti gi l).pend) :
    ((s.finishClose h).thread ti gi l).v r = h.token ∧ (∀ p ∈ ((s.finishClose h).thread ti gi l).pend, p.op ≠ k) ∧
      ((s.finishClose h).group ti gi).copies = (s.group ti gi).copies - 1 := by
  have hg := s.group_closedOff h ti gi
  have hl' : l < ((s.closedOff h).group ti gi).lanes.length := hg ▸ hl
  have ht : (s.finishClose h).thread ti gi l = ((s.thread ti gi l).late k 0 h.token).clearPend k := by
    rw [State.finishClose_eq, hc, List.foldl_cons, List.foldl_nil, State.giveToken, if_neg (by simp [hw]),
      State.thread_modGroup_of_lanes _ ti gi fun _ => by rfl, State.thread_modThread_self _ hl', State.thread, hg]
    rfl
  refine ⟨ht ▸ Thread.v_late h.token hp, fun p hp => ?_, ?_⟩
  · rw [ht] at hp
    simpa using List.of_mem_filter hp
  · rw [State.finishClose_eq, hc, List.foldl_cons, List.foldl_nil, State.giveToken, if_neg (by simp [hw]),
      State.group_modGroup_self _ (State.group_lt (l := l) (by simpa using hl')), State.modThread, State.group_modGroup_self _ (State.group_lt hl'), hg]
    rfl
end

/-- Settles O38: the step of `shf.close` for one lane case by case, and what the end of a close does to the shuffle, its side entries and its closers. -/
theorem shuffleCloseResults : Obligations.ShuffleCloseResults := by
  unfold Obligations.ShuffleCloseResults
  refine ⟨?_, ?_⟩
  · intro g d b regs id its dead
    have hdead (s : State) (c : Cur) (l : ℕ) : dead s c l ↔ deadCloser b s c l = true := deadCloser_iff.symm
    simp -zeta only [hdead]
    refine ⟨fun s c p l q => shfClose_traps, closeLane d b, fun s c => shfClose_issues, ?_⟩
    intro s c u l gets
    refine ⟨closeLane_notOpen, fun h ho => ⟨?_, ?_⟩⟩
    · intro hf due token
      have ht : token = tokenWord 0x0C h.delivered := (tokenWord_eq (by decide) _).symm
      rw [ht]
      exact ⟨fun hd => (closeLane_failed ho hf).trans (by rw [State.closeFailed_due hd]; rfl),
        fun hd => (closeLane_failed ho hf).trans (by rw [State.closeFailed_free hd]; rfl)⟩
    · intro hf v
      refine ⟨fun hw => (closeLane_begins ho hf (.inl hw)).trans (State.beginClose_waits hw), fun hw => closeLane_stalls ho hf hw, ?_⟩
      intro hw hc hl
      have hb := closeLane_begins (d := d) ho hf (.inr hc)
      rw [hb]
      exact ⟨_, State.beginClose_copies hw hl⟩
  · intro s shid h hs hc hf
    obtain rfl := State.id_of_shuffle hs
    refine ⟨fun ha => shfCloseComplete_early hs ha, ?_⟩
    intro ha p s1 s' hm hp hw rec' u
    have he := shfCloseComplete_ends hs hc hf ha hm hp hw
    have hfree (t : State) (hside : t.side = u.side.filter fun e => e.shid != h.id) : ∀ x ∈ t.side, x.shid ≠ h.id := fun x hx => by
      rw [hside] at hx
      simpa using List.of_mem_filter hx
    refine ⟨fun hx => ⟨_, he, hfree _ (u.side_endClose hx), ?_, fun ti gi l k => u.hold_endClose hx (ti, gi, l, k)⟩, fun hx => ?_⟩
    · intro hu x hx'
      obtain ⟨hfx, hcx⟩ := u.shuffle_endClose hx hu hx'
      exact ⟨hfx, hcx.trans hc⟩
    · rw [State.endClose_finishes _ hx] at he
      obtain ⟨hn, hside, hmem⟩ := u.finishClose_frees h
      refine ⟨_, he, hn, hfree _ hside, hmem, ?_⟩
      intro ti gi l k hk hl token t
      have ht : token = h.token := h.token_eq.symm
      rw [ht]
      exact ⟨fun hw hh => u.finishClose_wakes hk hl hw hh, fun hw r _ hp => u.finishClose_writes hk hl hw hp⟩

end Sys2Proof.Machine
end

section
/-! What an arrival of shuffle traffic does, and a resend request, 04 R84 to R89. -/

namespace Sys2Proof.Machine

/-! ### Coded packets, R84 to R86 -/

section
variable {s : State} {p : CodedPacket}

theorem codedPacketArrival_foreign (hp : p.comps.find? (fun x => x.dev == s.module.dev) = none) : exec (.codedPacketArrival p) s = .next s := by
  rw [show exec (.codedPacketArrival p) s = execCodedPacketArrival p s from rfl, execCodedPacketArrival, hp]

variable {me : CodedComp} (hp : p.comps.find? (fun x => x.dev == s.module.dev) = some me)
include hp

theorem codedPacketArrival_notOpen (hs : s.shuffle p.shid = none) :
    exec (.codedPacketArrival p) s = .next (s.answerBlock none p.shid me.bn 0x18) := by
  rw [show exec (.codedPacketArrival p) s = execCodedPacketArrival p s from rfl, execCodedPacketArrival, hp, hs]

variable {h : Shuffle} (hs : s.shuffle p.shid = some h)
include hs

theorem codedPacketArrival_open : exec (.codedPacketArrival p) s =
    .next (if h.failed then s.answerBlock none p.shid me.bn 0x18
      else if 8192 ≤ s.occupancy h.ddie then
        (s.modShuffle h.id fun h => { h with full := h.full + 1 }).emit h.ddie false (.resendReq h.id me.bn)
      else (State.strainerChanged { s with strainer := s.strainer ++ [⟨h.ddie, .coded p, none⟩] } h.ddie).retryCoded p.shid) := by
  rw [show exec (.codedPacketArrival p) s = execCodedPacketArrival p s from rfl, execCodedPacketArrival, hp, hs]
  rfl

end

/-! ### Decoding, R85 -/

/-- Steps that leave the state leave it together. -/
theorem foldl_eq_self {α β : Type} {f : α → β → α} {a : α} {l : List β} (h : ∀ b ∈ l, f a b = a) : l.foldl f a = a := by
  induction l with
  | nil => rfl
  | cons b l ih => rw [List.foldl_cons, h b List.mem_cons_self, ih fun x hx => h x (List.mem_cons_of_mem b hx)]

section
variable {s : State} {h : Shuffle} {p : CodedPacket} {me : CodedComp} (hp : p.comps.find? (fun x => x.dev == s.module.dev) = some me)
include hp

theorem State.decodeCoded_absent (hk : s.lookKeys h s.module.dev p = .absent) :
    s.decodeCoded h p = if h.closing then some (s.sideMissing h me.bn) else none := by
  simp only [State.decodeCoded, hp, hk]

theorem State.decodeCoded_stale (hk : s.lookKeys h s.module.dev p = .stale) : s.decodeCoded h p = some (s.sideMissing h me.bn) := by
  simp only [State.decodeCoded, hp, hk]

variable {es : List SideEntry} (hk : s.lookKeys h s.module.dev p = .held es)
include hk

theorem State.decodeCoded_waits (ho : ∃ e ∈ es, ¬∀ l ∈ addrs (e.pa / 128) 8, s.open' h.ddie (128 * l) true false = true) :
    s.decodeCoded h p = none := by
  simp only [State.decodeCoded, hp, hk]
  refine if_pos ?_
  simpa using ho

theorem State.decodeCoded_decodes (ho : ∀ e ∈ es, ∀ l ∈ addrs (e.pa / 128) 8, s.open' h.ddie (128 * l) true false = true)
    (hq : ∀ e ∈ es, ∀ l ∈ addrs (e.pa / 128) 8, s.settle l e.key = s) :
    let out := es.foldl (fun acc e => (acc.zip (s.cohBytes e.key e.pa 1024)).map fun x => x.1 ^^^ x.2) p.payload
    s.decodeCoded h p = some (if crc32c out = me.crc then s.deliverBlock h ⟨h.id, s.module.dev, me.bn, me.off, false, out⟩ 0
      else (s.modShuffle h.id fun h => { h with check := h.check + 1 }).sideMissing h me.bn) := by
  intro out
  have hopen : ¬(!(es.all fun e => (addrs (e.pa / 128) 8).all fun l => s.open' h.ddie (128 * l) true false)) = true := by simpa using ho
  have hsettle : es.foldl (fun s e => (addrs (e.pa / 128) 8).foldl (fun s l => s.settle l e.key) s) s = s :=
    foldl_eq_self fun e he => foldl_eq_self fun l hl => hq e he l hl
  have hout : (es.map fun e => s.cohBytes e.key e.pa 1024).foldl (fun acc b => (acc.zip b).map fun xy => xy.1 ^^^ xy.2) p.payload = out :=
    List.foldl_map
  simp only [State.decodeCoded, hp, hk, hsettle, hout]
  rw [if_neg hopen]
  by_cases hc : crc32c out = me.crc
  · rw [if_neg (by simpa using hc), if_pos hc]
  · rw [if_pos (by simpa using hc), if_neg hc]
end

/-! ### Uncoded blocks, R87 -/

section
variable {s : State} {b : UncodedBlock}

theorem uncodedBlockArrival_notOpen (hs : s.shuffle b.shid = none) :
    exec (.uncodedBlockArrival b) s = .next (s.answerBlock (some b.sender) b.shid b.bn 0x18) := by
  rw [show exec (.uncodedBlockArrival b) s = execUncodedBlockArrival b s from rfl, execUncodedBlockArrival, hs]

variable {h : Shuffle} (hs : s.shuffle b.shid = some h)
include hs

theorem uncodedBlockArrival_refused (hr : b.sender ∉ h.parts ∨ h.failed = true) :
    exec (.uncodedBlockArrival b) s = .next (s.answerBlock (some b.sender) b.shid b.bn 0x18) := by
  rw [show exec (.uncodedBlockArrival b) s = execUncodedBlockArrival b s from rfl, execUncodedBlockArrival, hs]
  exact congrArg _ (if_pos (by simpa [or_comm] using hr))

theorem uncodedBlockArrival_delivers (hm : b.sender ∈ h.parts) (hf : h.failed = false) :
    exec (.uncodedBlockArrival b) s = .next (s.deliverBlock h b (if b.resend then 2 else 1)) := by
  rw [show exec (.uncodedBlockArrival b) s = execUncodedBlockArrival b s from rfl, execUncodedBlockArrival, hs]
  exact congrArg _ (if_neg (by simp [hm, hf]))
end

section
variable {s : State} {h : Shuffle} {off : ℕ} {data : List Byte}

theorem State.writeBlock_outside (ho : h.rxlen ≤ off) : s.writeBlock h off data = (.refused 0x1A, s) := by
  rw [State.writeBlock, if_pos ho]

variable (ho : off < h.rxlen)
include ho

section
variable {s' : State}

theorem State.writeBlock_stop (hm : s.mapPages (s.shufAcx h) true (pagePieces ((h.rxbase + off) % 2 ^ 64) data.length) = (.stop, s')) :
    s.writeBlock h off data = (.refused 0x06, s') := by
  rw [State.writeBlock, if_neg (Nat.not_le.2 ho)]
  simp only [hm]

theorem State.writeBlock_park {va : ℕ}
    (hm : s.mapPages (s.shufAcx h) true (pagePieces ((h.rxbase + off) % 2 ^ 64) data.length) = (.park va, s')) :
    s.writeBlock h off data = (.park va, s') := by
  rw [State.writeBlock, if_neg (Nat.not_le.2 ho)]
  simp only [hm]

theorem State.writeBlock_later (hm : s.mapPages (s.shufAcx h) true (pagePieces ((h.rxbase + off) % 2 ^ 64) data.length) = (.later, s')) :
    s.writeBlock h off data = (.wait, s') := by
  rw [State.writeBlock, if_neg (Nat.not_le.2 ho)]
  simp only [hm]

variable {ps : List Piece}
  (hm : s.mapPages (s.shufAcx h) true (pagePieces ((h.rxbase + off) % 2 ^ 64) data.length) = (.ok ps, s'))
include hm

theorem State.writeBlock_dead (hd : ∃ p ∈ ps, p.dead = true) : s.writeBlock h off data = (.refused 0x08, s') := by
  rw [State.writeBlock, if_neg (Nat.not_le.2 ho)]
  simp only [hm, List.any_eq_true.2 hd, if_true]

variable {s2 : State} (hd : ∀ p ∈ ps, p.dead = false)
include hd

theorem State.writeBlock_waits (ha : s'.access h.ddie [] (pieceLines false ps) = (false, s2)) : s.writeBlock h off data = (.wait, s2) := by
  have hd' : ps.any (·.dead) = false := by simpa using hd
  rw [State.writeBlock, if_neg (Nat.not_le.2 ho)]
  simp only [hm, hd', ha, Bool.false_eq_true, if_false]

theorem State.writeBlock_done (ha : s'.access h.ddie [] (pieceLines false ps) = (true, s2)) : s.writeBlock h off data =
    (.done, (ps.foldl (fun (r : ℕ × State) p => (r.1 + p.len, r.2.homeWriteBytes p.key p.addr ((data.drop r.1).take p.len)))
      (0, (pagePieces ((h.rxbase + off) % 2 ^ 64) data.length).foldl (fun u p => u.markDirty (s.shufAcx h) p.1) s2)).2) := by
  have hd' : ps.any (·.dead) = false := by simpa using hd
  rw [State.writeBlock, if_neg (Nat.not_le.2 ho)]
  simp only [hm, hd', ha, Bool.false_eq_true, if_false]
end
end

/-- The first page of a range begins where the range does. -/
theorem pagePieces_eq_singleton {va len : ℕ} (h : (pagePieces va len).length = 1) : ∃ n, pagePieces va len = [(va, n)] := by
  unfold pagePieces at h ⊢
  split at h
  · cases h
  · rw [List.length_map, List.length_range] at h
    rw [if_neg ‹_›, h]
    exact ⟨_, rfl⟩

/-! ### A block without a slot of the strainer -/

section
variable {s t : State} {h : Shuffle} {b : UncodedBlock} {kind : ℕ} (hk : kind ≠ 0)
include hk

theorem State.deliverBlock_done (hw : s.writeBlock h b.off b.data = (.done, t)) :
    s.deliverBlock h b kind = (t.modShuffle h.id fun h => h.count kind).answerBlock (some b.sender) b.shid b.bn 0 := by
  simp only [State.deliverBlock, State.deliverFrom, hw, if_neg hk]
  rfl

theorem State.deliverBlock_outside (hw : s.writeBlock h b.off b.data = (.refused 0x1A, t)) :
    s.deliverBlock h b kind = t.answerBlock (some b.sender) b.shid b.bn 0x1A := by
  simp only [State.deliverBlock, State.deliverFrom, hw, if_neg hk]
  rfl

theorem State.deliverBlock_missing {st : ℕ} (hst : st ≠ 0x1A) (hw : s.writeBlock h b.off b.data = (.refused st, t)) :
    s.deliverBlock h b kind = (t.modShuffle h.id fun h => { h with missing := h.missing + 1 }).answerBlock (some b.sender) b.shid b.bn st := by
  simp only [State.deliverBlock, State.deliverFrom, hw, if_neg hk, if_neg hst]
  rfl

omit hk

theorem State.deliverBlock_park {va : ℕ} (hw : s.writeBlock h b.off b.data = (.park va, t)) :
    s.deliverBlock h b kind = (t.arrivalFault h va).2.keepBlock h b kind (some (t.arrivalFault h va).1) := by
  simp only [State.deliverBlock, State.deliverFrom, hw]
  rfl

theorem State.deliverBlock_wait (hw : s.writeBlock h b.off b.data = (.wait, t)) : s.deliverBlock h b kind = t.keepBlock h b kind none := by
  simp only [State.deliverBlock, State.deliverFrom, hw]
  rfl
end

/-- What `untold` leaves is what else a change in a strainer leaves. -/
theorem State.keepBlock_fields (s : State) (h : Shuffle) (b : UncodedBlock) (kind : ℕ) (fid : Option ℕ) :
    (s.keepBlock h b kind fid).strainer = s.strainer ++ [⟨h.ddie, .block b kind, fid⟩] ∧ (s.keepBlock h b kind fid).faults = s.faults := by
  have hu := State.untold_strainerChanged { s with strainer := s.strainer ++ [(⟨h.ddie, .block b kind, fid⟩ : StrainerSlot)] } h.ddie
  have hs := congrArg State.strainer hu
  have hf := congrArg State.faults hu
  exact ⟨hs, hf⟩

/-- A fault of a kind that joins no other is a record of its own, with a number of its own (16 R360). -/
theorem State.raiseFault_alone (s : State) {r : FaultRec} (hk : joins r.kind = false) :
    (s.raiseFault r).2.faults = s.faults ++ [{ r with fid := (s.raiseFault r).1, posted := false }] ∧ (s.raiseFault r).2.strainer = s.strainer ∧
      (s.raiseFault r).2.sent = s.sent ∧ (s.raiseFault r).2.chains = s.chains := by
  simp only [State.raiseFault, hk, Bool.false_eq_true, if_false]
  exact ⟨rfl, rfl, rfl, rfl⟩

/-- The fault of an arrival. -/
theorem State.arrivalFault_raises (s : State) (h : Shuffle) (va : ℕ) :
    (s.arrivalFault h va).2.strainer = s.strainer ∧ ∃ f ∈ (s.arrivalFault h va).2.faults, f.fid = (s.arrivalFault h va).1 ∧
      f.die = h.ddie ∧ f.cause = 0x05 ∧ f.asid = spaceOf h.asid va ∧ f.va / 65536 = va / 65536 := by
  unfold State.arrivalFault
  refine ⟨(s.raiseFault_alone rfl).2.1, ?_⟩
  rw [(s.raiseFault_alone ?_).1]
  · exact ⟨_, List.mem_append_right _ List.mem_cons_self, rfl, rfl, rfl, rfl, rfl⟩
  · rfl

/-- The fault of a chain whose source is to be read again. -/
theorem State.resendFault_raises (s : State) (k : Chain) (va : ℕ) :
    (s.resendFault k va).2.sent = s.sent ∧ (s.resendFault k va).2.chains = s.chains ∧ ∃ f ∈ (s.resendFault k va).2.faults,
      f.fid = (s.resendFault k va).1 ∧ f.cause = 0x05 ∧ f.va / 65536 = va / 65536 := by
  unfold State.resendFault
  refine ⟨(s.raiseFault_alone rfl).2.2.1, (s.raiseFault_alone rfl).2.2.2, ?_⟩
  rw [(s.raiseFault_alone ?_).1]
  · exact ⟨_, List.mem_append_right _ List.mem_cons_self, rfl, rfl, rfl⟩
  · rfl

/-! ### Resend requests, R86, R89 -/

section
variable {s : State} {receiver shid bn : ℕ}

theorem resendRequest_unknown (h : ∀ k ∈ s.chains, k.sentBlock receiver shid bn = none) : exec (.resendRequest receiver shid bn) s = .next s := by
  have hn : (s.chains.findSome? fun k => (k.sentBlock receiver shid bn).map fun w => (k, w)) = none :=
    List.findSome?_eq_none_iff.2 fun k hk => by rw [h k hk]; rfl
  rw [show exec (.resendRequest receiver shid bn) s = execResendRequest receiver shid bn s from rfl, execResendRequest, hn]

variable {k : Chain} {w : SentBlock} (hk : (s.chains.findSome? fun k => (k.sentBlock receiver shid bn).map fun w => (k, w)) = some (k, w))
include hk

theorem resendRequest_faulted (hw : w.fid ≠ none) : exec (.resendRequest receiver shid bn) s = .next s := by
  rw [show exec (.resendRequest receiver shid bn) s = execResendRequest receiver shid bn s from rfl, execResendRequest, hk]
  exact congrArg _ (if_pos (Option.isSome_iff_ne_none.2 hw))

theorem resendRequest_resends (hw : w.fid = none) : exec (.resendRequest receiver shid bn) s = .next (s.resend k w) := by
  rw [show exec (.resendRequest receiver shid bn) s = execResendRequest receiver shid bn s from rfl, execResendRequest, hk]
  exact congrArg _ (if_neg (by simp [hw]))
end

/-- Notes the fault that a sent block waits for. -/
def State.markSent (s : State) (k : Chain) (w : SentBlock) (f : Option ℕ) : State :=
  s.modChain k.id fun k => { k with waits := updIf k.waits (· == w) fun _ => { w with fid := f } }

section
variable {s t : State} {k : Chain} {w : SentBlock}

theorem State.resend_park {va : ℕ} (hm : s.mapRange k w.ssp false w.addr 1024 = (.park va, t)) :
    s.resend k w = (t.resendFault k va).2.markSent k w (some (t.resendFault k va).1) := by
  simp only [State.resend, hm]
  rfl

variable {ps : List Piece} (hm : s.mapRange k w.ssp false w.addr 1024 = (.ok ps, t))
include hm

theorem State.resend_waits :
    let a := t.access (dieOfCore (t.chainCore k)) (pieceLines w.ssp ps) []
    ¬(a.1 = true ∧ a.2.shfReaches (dieOfCore (a.2.chainCore k)) w.dev = true) → s.resend k w = a.2 := by
  intro a hr
  have ha : t.access (dieOfCore (t.chainCore k)) (pieceLines w.ssp ps) [] = (a.1, a.2) := rfl
  simp only [State.resend, hm, ha]
  cases h1 : a.1 with
  | false => rfl
  | true => exact if_pos (by simpa [h1] using hr)

theorem State.resend_sends {bs : List Byte} :
    let a := t.access (dieOfCore (t.chainCore k)) (pieceLines w.ssp ps) []
    a.1 = true → a.2.shfReaches (dieOfCore (a.2.chainCore k)) w.dev = true → allBytes (a.2.readPieces k w.ssp ps).1 = some bs →
      let u := (a.2.readPieces k w.ssp ps).2.markSent k w none
      s.resend k w = { u with sent := u.sent ++ [.shfBlock w.dev w.shid w.bn w.off false bs] } := by
  intro a h1 h2 hb u
  have ha : t.access (dieOfCore (t.chainCore k)) (pieceLines w.ssp ps) [] = (true, a.2) := by rw [← h1]
  simp only [State.resend, hm, ha, h2, Bool.not_true, Bool.false_eq_true, if_false, hb]
  rfl
end

/-- Settles O39: what an arrival does is said once for each place where a block can stand, what a resend does for each state of its source. -/
theorem shuffleArrivals : Obligations.ShuffleArrivals := by
  unfold Obligations.ShuffleArrivals
  refine ⟨fun s => ?_, fun s receiver shid bn k w hk => ?_⟩
  · intro answered
    refine ⟨fun p me hp => ⟨codedPacketArrival_notOpen hp, fun h hs => ?_⟩, fun p => codedPacketArrival_foreign, fun h p me hp => ?_, fun h bn => ?_,
      fun b => ⟨uncodedBlockArrival_notOpen, fun h hs => ?_⟩, fun receiver shid bn => resendRequest_unknown⟩
    · rw [codedPacketArrival_open hp hs]
      refine ⟨fun hf => ?_, fun hf ho => ?_, fun hf ho => ?_⟩
      · rw [if_pos hf]; rfl
      · rw [if_neg (by simp [hf]), if_pos ho]
      · rw [if_neg (by simp [hf]), if_neg (Nat.not_le.2 ho)]
    · exact ⟨State.decodeCoded_absent hp, State.decodeCoded_stale hp, fun es hk =>
        ⟨State.decodeCoded_waits hp hk, State.decodeCoded_decodes hp hk⟩⟩
    · exact ⟨fun hs => if_neg (by simp [hs]), fun hs => if_pos hs⟩
    · have hkind : (if b.resend then 2 else 1) ≠ 0 := by split <;> decide
      refine ⟨uncodedBlockArrival_refused hs, fun hm hf ho => ?_, fun hm hf ho => ?_⟩
      · rw [uncodedBlockArrival_delivers hs hm hf, State.deliverBlock_outside hkind (State.writeBlock_outside ho)]
        rfl
      · intro pages
        rw [uncodedBlockArrival_delivers hs hm hf]
        refine ⟨fun s' hp => ?_, fun ps s' hp hd => ?_, fun ps s1 s' hp hd ha => ?_, fun s' hp => ?_, fun p s1 s' hp h1 hd hl ha => ?_, fun va s' hp => ?_⟩
        · rw [State.deliverBlock_missing hkind (by decide) (State.writeBlock_stop ho hp)]; rfl
        · rw [State.deliverBlock_missing hkind (by decide) (State.writeBlock_dead ho hp hd)]; rfl
        · rw [State.deliverBlock_wait (State.writeBlock_waits ho hp hd ha)]
        · rw [State.deliverBlock_wait (State.writeBlock_later ho hp)]
        · refine ⟨_, rfl, ?_⟩
          rw [State.deliverBlock_done hkind (State.writeBlock_done ho hp (by simpa using hd) ha)]
          obtain ⟨n, hn⟩ := pagePieces_eq_singleton h1
          have hcount : (fun h : Shuffle => h.count (if b.resend then 2 else 1)) = fun h =>
              if b.resend then { h with fallback := h.fallback + 1 } else { h with uncoded := h.uncoded + 1 } := by
            funext h
            cases b.resend <;> rfl
          simp only [hn, hcount, List.foldl_cons, List.foldl_nil, List.drop_zero, hl, List.take_length]
          rfl
        · rw [State.deliverBlock_park (State.writeBlock_park ho hp)]
          obtain ⟨hstrainer, hfaults⟩ := State.keepBlock_fields (s'.arrivalFault h va).2 h b (if b.resend then 2 else 1) (some (s'.arrivalFault h va).1)
          obtain ⟨hslots, hraised⟩ := s'.arrivalFault_raises h va
          exact ⟨_, _, rfl, hstrainer.trans (by rw [hslots]), by rw [hfaults]; exact hraised⟩
  · intro marks
    refine ⟨resendRequest_faulted hk, fun va s' hw hm => ?_, fun ps s' hw hm => ?_⟩
    · rw [resendRequest_resends hk hw, State.resend_park hm]
      obtain ⟨hsent, hchains, hraised⟩ := s'.resendFault_raises k va
      exact ⟨_, _, rfl, hsent, by simp only [State.markSent, marks, State.modChain, hchains], hraised⟩
    · intro a reach
      rw [resendRequest_resends hk hw]
      refine ⟨fun hr => congrArg _ (State.resend_waits hm hr), fun bs hr hb => ?_⟩
      exact congrArg _ (State.resend_sends hm hr.1 hr.2 hb)

end Sys2Proof.Machine
end

section
/-! Arenas: what the queries of a program give, and what each step of a death leaves, 05 R103, R107, R112. -/

namespace Sys2Proof.Machine

/-! ### Queries, R103, R112 -/

/-- The entry that a handle names (R102). -/
theorem State.handleEntry_eq_some {s : State} {h : ℕ} {x : Arena} : s.handleEntry h = some x ↔
    h / 2 ^ 24 % 256 ≠ 0 ∧ h / 2 ^ 16 % 64 = 0 ∧ s.arenaAt (h / 2 ^ 22 % 4) (h % 2 ^ 16) = some x ∧ x.gen = h / 2 ^ 24 % 256 := by
  have hgen : bitsN h 31 24 = h / 2 ^ 24 % 256 := rfl
  have hres : bitsN h 21 16 = h / 2 ^ 16 % 64 := rfl
  have hdie : bitsN h 23 22 = h / 2 ^ 22 % 4 := rfl
  have hslot : bitsN h 15 0 = h % 2 ^ 16 := by rw [bitsN, pow_zero, Nat.div_one]
  rw [State.handleEntry, hgen, hres, hdie, hslot]
  split
  · rename_i hbad
    simp only [Bool.or_eq_true, decide_eq_true_eq, bne_iff_ne, ne_eq] at hbad
    exact iff_of_false (by simp) fun ⟨h1, h2, _⟩ => hbad.elim h1 (· h2)
  · rename_i hok
    simp only [Bool.or_eq_true, decide_eq_true_eq, bne_iff_ne, ne_eq, not_or, not_not] at hok
    obtain ⟨hg, hr⟩ := hok
    cases s.arenaAt (h / 2 ^ 22 % 4) (h % 2 ^ 16) with
    | none => simp
    | some a =>
      simp only [ne_eq, hg, not_false_eq_true, hr, true_and, Option.some.injEq, ite_eq_iff, reduceCtorEq, and_false, or_false]
      exact ⟨fun ⟨ha, hx⟩ => ⟨hx, hx ▸ ha⟩, fun ⟨hx, ha⟩ => ⟨hx ▸ ha, hx⟩⟩

theorem State.arenaStatus_eq (s : State) (asid h : ℕ) : s.arenaStatus asid h =
    match s.handleEntry h with
    | none => 0
    | some x => if x.asid = asid then (if x.live then 2 ^ 31 else 2 ^ 30) + h / 2 ^ 22 % 4 * 2 ^ 22 + x.frames.length else 2 ^ 29 := by
  rw [State.arenaStatus]
  cases s.handleEntry h with
  | none => rfl
  | some x => by_cases ha : x.asid = asid <;> simp [ha, bitsN]

theorem State.arenaWindow_eq (s : State) (asid h : ℕ) : s.arenaWindow asid h =
    match s.handleEntry h with
    | none => 0
    | some x => if x.live = true ∧ x.asid = asid then 2 ^ 56 + h * 2 ^ 24 else 0 := by
  rw [State.arenaWindow]
  cases s.handleEntry h with
  | none => rfl
  | some x => simp

/-! ### The steps of a death, R107 -/

section
variable {s : State} {k : ℕ} {n : Node}

/-- Only what an update does to the node itself counts. -/
theorem State.modNode_congr {f g : Node → Node} (hn : s.nodes[k]? = some n) (h : f n = g n) : s.modNode k f = s.modNode k g := by
  have : updAt s.nodes k f = updAt s.nodes k g := List.ext_getElem? fun j => by
    rw [getElem?_updAt, getElem?_updAt]
    split
    · rename_i hj
      rw [hj, hn, Option.map_some, Option.map_some, h]
    · rfl
  rw [State.modNode, State.modNode, this]

/-- A node after an update, from the node before. -/
theorem State.node_modNode {m : Node} {f : Node → Node} (hn : s.nodes[k]? = some n) (hm : (s.modNode k f).nodes[k]? = some m) : m = f n := by
  rw [State.modNode, getElem?_updAt, if_pos rfl, hn] at hm
  exact (Option.some.inj hm).symm

theorem arenaDeath_dying (hn : s.nodes[k]? = some n) (hst : n.st = .dying) (ha : n.arenas ≠ []) :
    exec (.arenaDeath k) s = .next (s.arenaStep k n) := by
  rw [show exec (.arenaDeath k) s = execArenaDeath k s from rfl, execArenaDeath, hn]
  exact congrArg _ (if_neg (by simp [hst, ha]))

/-- The step is counted. -/
def State.stepped (s : State) (k : ℕ) : State := s.modNode k fun n => { n with deathStep := n.deathStep + 1 }

theorem State.arenaStep_zero (h : n.deathStep = 0) : s.arenaStep k n = (s.arenasDying k).stepped k := by rw [State.arenaStep, h]; rfl
theorem State.arenaStep_one (h : n.deathStep = 1) : s.arenaStep k n = if s.quiet k then s.stepped k else s := by rw [State.arenaStep, h]; rfl
theorem State.arenaStep_two (h : n.deathStep = 2) : s.arenaStep k n = s.stepped k := by rw [State.arenaStep, h]; rfl
theorem State.arenaStep_three (h : n.deathStep = 3) : s.arenaStep k n = (s.dropArenaLines k).stepped k := by rw [State.arenaStep, h]; rfl

theorem State.arenaStep_last (h : 4 ≤ n.deathStep) : s.arenaStep k n =
    if s.requestsLeft ((s.arenasOf k).map Arena.tag) then s
    else (s.cancelArenas k).modNode k fun n => { n with arenas := [], st := .complete } := by
  obtain ⟨d, hd⟩ := Nat.exists_eq_add_of_le h
  rw [State.arenaStep, hd, Nat.add_comm]
  rfl

/-- The step of the node after one that is counted. -/
theorem State.deathStep_stepped {m : Node} (hn : s.nodes[k]? = some n) (hm : (s.stepped k).nodes[k]? = some m) : m.deathStep = n.deathStep + 1 := by
  rw [State.node_modNode hn hm]

theorem State.stepped_eq (hn : s.nodes[k]? = some n) : s.stepped k = s.modNode k fun m => { m with deathStep := n.deathStep + 1 } :=
  State.modNode_congr hn rfl

theorem State.mem_arenasOf {a : Arena} : a ∈ s.arenasOf k ↔ a ∈ s.arenas ∧ a.node = k := by rw [State.arenasOf, List.mem_filter, beq_iff_eq]

/-- The frames of a node's arenas. -/
theorem State.mem_frames_arenasOf {x : ℕ} : x ∈ (s.arenasOf k).flatMap (·.frames) ↔ ∃ a ∈ s.arenas, a.node = k ∧ x ∈ a.frames := by
  simp only [List.mem_flatMap, State.mem_arenasOf, and_assoc]

theorem State.arenasDying_live {a : Arena} (h : a ∈ (s.arenasDying k).arenas) (hk : a.node = k) : a.live = false := by
  obtain ⟨b, -, rfl⟩ := List.mem_map.1 h
  by_cases hb : b.node = k
  · simp [hb]
  · simp [hb] at hk

theorem State.arenasDying_side {a : Arena} {e : SideEntry} (ha : a ∈ s.arenas) (hk : a.node = k) (he : e ∈ (s.arenasDying k).side)
    (hf : e.pa / 65536 ∈ a.frames) : e.valid = false := by
  obtain ⟨b, -, rfl⟩ := List.mem_map.1 he
  split at hf <;> rename_i hb
  · rw [if_pos hb]
  · exact absurd (List.contains_iff_mem.2 (State.mem_frames_arenasOf.2 ⟨a, ha, hk, hf⟩)) hb

theorem State.arenasDying_tlb {a : Arena} {e : TlbEntry} (ha : a ∈ s.arenas) (hk : a.node = k) (he : e ∈ (s.arenasDying k).tlb) :
    ¬(e.gen ≠ 0 ∧ e.slot = a.die * 65536 + a.slot ∧ e.gen = a.gen ∧ a.gen < 256) := by
  rintro ⟨h0, hslot, hgen, -⟩
  obtain ⟨-, hkeep⟩ := List.mem_filter.1 he
  have hany : ((s.arenasOf k).any fun a => e.gen != 0 && e.slot * 256 + e.gen == a.tag) = true :=
    List.any_eq_true.2 ⟨a, State.mem_arenasOf.2 ⟨ha, hk⟩, by simp [h0, hslot, ← hgen, Arena.tag, slotKey]⟩
  rw [hany] at hkeep
  cases hkeep

theorem State.cache_discardLine (s : State) (line : ℕ) : (s.discardLine line).cache = s.cache.filter fun e => e.line != line := by
  rw [State.discardLine]; split <;> rfl

theorem State.nodes_discardLine (s : State) (line : ℕ) : (s.discardLine line).nodes = s.nodes := by
  rw [State.discardLine]; split <;> rfl

/-- Lines that are discarded are in no cache. -/
theorem State.mem_cache_discardLines {e : CLine} {lines : List ℕ} :
    e ∈ (lines.foldl State.discardLine s).cache ↔ e ∈ s.cache ∧ e.line ∉ lines := by
  induction lines generalizing s with
  | nil => simp
  | cons l t ih =>
    rw [List.foldl_cons, ih, State.cache_discardLine, List.mem_filter, bne_iff_ne, List.mem_cons, not_or, and_assoc]

theorem State.dropArenaLines_cache {a : Arena} {e : CLine} (ha : a ∈ s.arenas) (hk : a.node = k) (he : e ∈ (s.dropArenaLines k).cache) :
    e.line / 512 ∉ a.frames := by
  intro hf
  obtain ⟨hin, hnot⟩ := State.mem_cache_discardLines.1 he
  refine hnot (mem_dedupNat.2 (List.mem_filter.2 ⟨List.mem_append_left _ (List.mem_map_of_mem hin), ?_⟩))
  exact List.contains_iff_mem.2 (State.mem_frames_arenasOf.2 ⟨a, ha, hk, hf⟩)

theorem State.nodes_dropArenaLines (s : State) (k : ℕ) : (s.dropArenaLines k).nodes = s.nodes :=
  foldl_keeps State.nodes State.nodes_discardLine _ _

theorem State.cancelArenas_node {a : Arena} (h : a ∈ (s.cancelArenas k).arenas) : a.node ≠ k := by
  simpa using (List.mem_filter.1 h).2

end

end Sys2Proof.Machine
end

section
/-! The registers of ports, strainers and the arena pool, the pauses of the channels, and ports that go down, 04 R72, R77, R78, R88, 05 R105. -/

namespace Sys2Proof.Machine

theorem bitsN_low (x hi : ℕ) : bitsN x hi 0 = x % 2 ^ (hi + 1) := by rw [bitsN, pow_zero, Nat.div_one, Nat.sub_zero]

/-- A bit of a word that a register takes. -/
theorem bitN_toNat {w : ℕ} (v : BitVec w) (i : ℕ) : bitN v.toNat i = v.getLsbD i := bitN_eq_testBit ..

section
variable {s : State}

/-! ### PAUSE, R77, R78 -/

theorem State.writePause_eq (s : State) (p : ℕ) (v : Word) :
    let xoff := v.toNat % 2 ^ 7
    let xon := v.toNat / 2 ^ 8 % 2 ^ 7
    s.writePause p v.toNat = s.modPort p fun q => if 1 ≤ xon ∧ xon < xoff ∧ xoff ≤ 48 then
      { q with badw := q.badw && !v.getLsbD 16, xoff := xoff, xon := xon }.measured else { q with badw := true } := by
  intro xoff xon
  rw [State.writePause]
  refine congrArg _ (funext fun q => ?_)
  simp only [bitsN_low, bitN_toNat, Bool.and_eq_true, decide_eq_true_eq, and_assoc]
  rfl

theorem linkPause_tooLarge {p n : ℕ} {shf : Bool} (h : 64 < n) : exec (.linkPause p shf n) s = .next s := by
  rw [show exec (.linkPause p shf n) s = execLinkPause p shf n s from rfl, execLinkPause, if_pos h]

theorem linkPause_measures {p n : ℕ} {shf : Bool} (h : n ≤ 64) : exec (.linkPause p shf n) s =
    .next (s.modPort p fun q => (if shf then { q with rxShf := n } else { q with rxReq := n }).measured) := by
  rw [show exec (.linkPause p shf n) s = execLinkPause p shf n s from rfl, execLinkPause, if_neg (Nat.not_lt.2 h)]

/-! ### STRCTL, R88 -/

theorem State.writeStrctl_eq (s : State) (d : ℕ) (v : Word) :
    let stop := v.toNat % 2 ^ 6
    let resume := v.toNat / 2 ^ 8 % 2 ^ 6
    s.writeStrctl d v.toNat = (s.modDie d fun q => if resume < stop ∧ stop ≤ 31 then
      { q with strStop := stop, strResume := resume, strBadw := q.strBadw && !v.getLsbD 31 } else { q with strBadw := true }).strainerLevel d := by
  intro stop resume
  rw [State.writeStrctl]
  simp only [bitsN_low, bitN_toNat, Bool.and_eq_true, decide_eq_true_eq]
  rfl

section
variable {d : ℕ}

/-- Whether stop-coding is to be in force on a die. -/
def State.mustStop (s : State) (d : ℕ) : Bool :=
  if (s.die d).strStop * 256 ≤ s.occupancy d then true
  else if s.occupancy d ≤ (s.die d).strResume * 256 then false else (s.die d).strStopped

theorem State.strainerLevel_eq (s : State) (d : ℕ) : s.strainerLevel d = if s.mustStop d = (s.die d).strStopped then s
    else (s.modDie d fun q => { q with strStopped := s.mustStop d }).tellCoding d (s.mustStop d) := rfl

theorem State.strainerLevel_same (h : s.mustStop d = (s.die d).strStopped) : s.strainerLevel d = s := by rw [State.strainerLevel_eq, if_pos h]

theorem State.strainerLevel_tells (h : s.mustStop d ≠ (s.die d).strStopped) :
    s.strainerLevel d = (s.modDie d fun q => { q with strStopped := s.mustStop d }).tellCoding d (s.mustStop d) := by
  rw [State.strainerLevel_eq, if_neg h]

theorem State.dies_tellCoding (s : State) (d : ℕ) (b : Bool) : (s.tellCoding d b).dies = s.dies := by
  have h := congrArg State.dies (s.unsent_tellCoding d b)
  exact h

theorem State.strStopped_strainerLevel (hd : d < s.dies.length) : ((s.strainerLevel d).die d).strStopped = s.mustStop d := by
  by_cases h : s.mustStop d = (s.die d).strStopped
  · rw [State.strainerLevel_same h, h]
  · rw [State.strainerLevel_tells h, State.die, State.dies_tellCoding]
    exact congrArg Die.strStopped (State.die_modDie_self _ hd)

/-- Each working port of the die is told. -/
theorem State.tellCoding_eq (s : State) (d : ℕ) (b : Bool) : s.tellCoding d b = ((List.range 8).map (8 * d + ·)).foldl (fun t p =>
    if (s.port p).up then t.emitBy p true (.stopCoding p b) else t) s := by
  rw [State.tellCoding, List.foldl_filter]

end

/-! ### ARNPOOL, 05 R105 -/

theorem State.writeArnpool_eq (s : State) (d : ℕ) (v : DWord) :
    let base := v.toNat % 2 ^ 20
    let count := v.toNat / 2 ^ 20 % 2 ^ 20
    s.writeArnpool d v.toNat = s.modDie d fun q =>
      if base + count ≤ 2 ^ 20 ∧ ((base = q.arnBase ∧ count = q.arnCount) ∨ ∀ a ∈ s.arenas, a.die ≠ d) then
        { q with arnBase := base, arnCount := count, arnEn := v.getLsbD 40, arnBadw := q.arnBadw && !v.getLsbD 41 }
      else { q with arnBadw := true } := by
  intro base count
  rw [State.writeArnpool]
  refine congrArg _ (funext fun q => ?_)
  have hfree : (!s.arenas.any fun a => a.die == d) = true ↔ ∀ a ∈ s.arenas, a.die ≠ d := by simp
  simp only [bitsN_low, bitN_toNat, Bool.and_eq_true, Bool.or_eq_true, decide_eq_true_eq, beq_iff_eq, hfree]
  rfl

/-! ### A port that goes down, R72 -/

theorem State.portFor_up {die pa x : ℕ} (h : s.portFor die pa = some x) : (s.port x).up = true :=
  (State.mem_workingPorts (State.mem_of_portFor h)).2

end

/-- Settles O40: the queries and the steps of a death from the lemmas about each, the registers from what each write is. -/
theorem arenaAndThresholdResults : Obligations.ArenaAndThresholdResults := by
  unfold Obligations.ArenaAndThresholdResults
  refine ⟨⟨fun g d a => ?_, fun s h x => State.handleEntry_eq_some, fun s k n hn hst ha => ?_⟩, fun s p v => ?_, fun s d v => ?_, fun s d => ?_,
    fun s d v => ?_, fun s p n shf => ⟨linkPause_tooLarge, fun h => ?_⟩, State.tellCoding_eq, fun s p shf m => State.emitBy_results,
    fun s p => ⟨rfl, fun t die pa x _ h => State.portFor_up h⟩⟩
  · intro chk win
    have hchk (s : State) (c : Cur) (t : Thread) : s.arenaStatus (s.asidOf c.ti) (src32 t a).toNat = chk s c t := by
      rw [toNat_src32]; exact State.arenaStatus_eq ..
    have hwin (s : State) (c : Cur) (t : Thread) : s.arenaWindow (s.asidOf c.ti) (src32 t a).toNat = win s c t := by
      rw [toNat_src32]; exact State.arenaWindow_eq ..
    refine ⟨fun s c hr _ => ?_, fun s c hr _ => ?_⟩
    · refine (ordinary_issues _ hr).trans ?_
      simp only [perLane, hchk]
      rfl
    · refine (ordinary_issues _ hr).trans ?_
      simp only [perLane, hwin]
      rfl
  · refine ⟨_, arenaDeath_dying hn hst ha, fun h => ?_, fun h hq => ?_, fun h hq => ?_, fun h => ?_, fun h => ?_, fun h hq => ?_, fun h hq => ?_⟩
    · rw [State.arenaStep_zero h]
      refine ⟨fun a => State.arenasDying_live, rfl, fun a hm hk e => State.arenasDying_side hm hk,
        fun a hm hk e => State.arenasDying_tlb hm hk, fun m hm => ?_⟩
      rw [State.deathStep_stepped hn hm, h]
    · rw [State.arenaStep_one h, if_pos hq, State.stepped_eq hn, h]
    · rw [State.arenaStep_one h, if_neg (by simp [hq])]
    · rw [State.arenaStep_two h, State.stepped_eq hn, h]
    · rw [State.arenaStep_three h]
      refine ⟨fun a hm hk e => State.dropArenaLines_cache hm hk, fun m hm => ?_⟩
      rw [State.deathStep_stepped (by rw [State.nodes_dropArenaLines]; exact hn) hm, h]
    · rw [State.arenaStep_last h, if_neg (by simp [hq])]
      refine ⟨fun a => State.cancelArenas_node, fun m hm => ?_⟩
      rw [State.node_modNode (s := s.cancelArenas k) hn hm]
      exact ⟨rfl, rfl⟩
    · rw [State.arenaStep_last h, if_pos hq]
  · intro xoff xon level
    exact congrArg Host.Outcome.next (State.writePause_eq s p v)
  · exact congrArg Host.Outcome.next (State.writeStrctl_eq s d v)
  · intro t x
    have hstopped (hd : d < s.dies.length) : (t.die d).strStopped = s.mustStop d := State.strStopped_strainerLevel hd
    refine ⟨fun h hd => ?_, fun h1 h2 hd => ?_, fun h1 h2 => State.strainerLevel_same ?_⟩
    · have hm : s.mustStop d = true := if_pos h
      rw [hstopped hd, hm]
      refine ⟨rfl, fun hx => ?_⟩
      rw [← hm]
      exact State.strainerLevel_tells (by rw [hm]; exact hx ▸ Bool.noConfusion)
    · have hm : s.mustStop d = false := (if_neg (Nat.not_le.2 h2)).trans (if_pos h1)
      rw [hstopped hd, hm]
      refine ⟨rfl, fun hx => ?_⟩
      rw [← hm]
      exact State.strainerLevel_tells (by rw [hm]; exact hx ▸ Bool.noConfusion)
    · exact (if_neg (Nat.not_le.2 h2)).trans (if_neg (Nat.not_le.2 h1))
  · exact congrArg Host.Outcome.next (State.writeArnpool_eq s d v)
  · rw [linkPause_measures h]
    cases shf <;> rfl

end Sys2Proof.Machine
end

section
/-! Accesses of other modules at the home slice, 04 R73, 05 R97, R98, 06 R125. -/

namespace Sys2Proof.Machine

/-! ### Invalidations that are sent, R98 -/

section
variable {s : State} {line : ℕ} {self : Option Holder}

theorem State.sendInvals_busy_iff :
    (s.sendInvals line self).2 = true ↔ (∃ h ∈ s.holders line, some h ≠ self) ∨ ∃ i ∈ s.invals, i.1 = line := by
  simp [State.sendInvals, List.isEmpty_iff, List.filter_eq_nil_iff]

theorem State.sendInvals_busy_none : (s.sendInvals line none).2 = true ↔ s.holders line ≠ [] ∨ ∃ i ∈ s.invals, i.1 = line := by
  rw [State.sendInvals_busy_iff]
  refine or_congr_left ⟨fun ⟨h, hm, _⟩ hn => ?_, fun hn => ?_⟩
  · rw [hn] at hm; cases hm
  · obtain ⟨h, hm⟩ := List.exists_mem_of_ne_nil _ hn
    exact ⟨h, hm, Option.some_ne_none h⟩

theorem State.mem_invals_sendInvals {x : ℕ × Holder} : x ∈ (s.sendInvals line self).1.invals ↔
    x ∈ s.invals ∨ x.1 = line ∧ x.2 ∈ s.holders line ∧ some x.2 ≠ self := by
  obtain ⟨l, h⟩ := x
  simp only [State.sendInvals, List.mem_append, List.mem_map, List.mem_filter, Prod.mk.injEq, bne_iff_ne, ne_eq, Bool.not_eq_true',
    List.contains_eq_mem, decide_eq_false_iff_not]
  constructor
  · rintro (hx | ⟨k, ⟨⟨hk, hs⟩, -⟩, rfl, rfl⟩)
    · exact .inl hx
    · exact .inr ⟨rfl, hk, hs⟩
  · rintro (hx | ⟨rfl, hk, hs⟩)
    · exact .inl hx
    · by_cases hx : (l, h) ∈ s.invals
      · exact .inl hx
      · exact .inr ⟨h, ⟨⟨hk, hs⟩, hx⟩, rfl, rfl⟩
end

/-! ### What a request is answered, R73 -/

/-- Whether a remote access reads. -/
def remoteReads : RemoteOp → Bool
  | .store _ => false
  | .drop => false
  | _ => true

/-- A request that this module does not serve: the line is not of its memory, the requester is no peer, or the bytes are of two lines. -/
def State.refuses (s : State) (dev pa : ℕ) (op : RemoteOp) : Prop :=
  devOf pa ≠ s.module.dev ∨ s.populated pa = false ∨ dev = s.module.dev ∨ lineOf (pa + (remoteLen op - 1)) ≠ lineOf pa

section
variable {s : State} {dev pa key : ℕ} {op : RemoteOp}

theorem State.refuses_iff : s.refuses dev pa op ↔
    (!s.isLocal pa || !s.populated pa || dev == s.module.dev || lineOf (pa + (remoteLen op - 1)) != lineOf pa) = true := by
  simp [State.refuses, State.isLocal, or_assoc]

theorem remoteRequest_foreign (h : s.refuses dev pa op) : exec (.remoteRequest dev pa key op) s = .next s :=
  congrArg Host.Outcome.next (if_pos (State.refuses_iff.1 h))

variable (h : ¬s.refuses dev pa op)
include h

/-- A request that the module serves. -/
theorem remoteRequest_served : exec (.remoteRequest dev pa key op) s = .next
    (if isDevice pa then s.devPeer dev pa op
    else if s.meetsPool pa 1 then s.failPeer dev pa op
    else if s.checkHolds 4 (lineOf pa) (remoteReads op) (remoteWrites op) then s
    else if remoteWrites op then
      if (s.sendInvals (lineOf pa) (some (.dev dev))).2 then (s.sendInvals (lineOf pa) (some (.dev dev))).1 else s.serveRemote dev pa key op
    else s.serveRemote dev pa key op) :=
  (congrArg Host.Outcome.next (if_neg (State.refuses_iff.not.1 h))).trans (by cases op <;> rfl)

theorem remoteRequest_device (hd : isDevice pa = true) : exec (.remoteRequest dev pa key op) s = .next (s.devPeer dev pa op) := by
  rw [remoteRequest_served h, if_pos hd]

variable (hd : isDevice pa = false)
include hd

theorem remoteRequest_pool (hp : s.meetsPool pa 1 = true) : exec (.remoteRequest dev pa key op) s = .next (s.failPeer dev pa op) := by
  rw [remoteRequest_served h, if_neg (by simp [hd]), if_pos hp]

variable (hp : s.meetsPool pa 1 = false)
include hp

theorem remoteRequest_held (hc : s.checkHolds 4 (lineOf pa) (remoteReads op) (remoteWrites op) = true) :
    exec (.remoteRequest dev pa key op) s = .next s := by
  rw [remoteRequest_served h, if_neg (by simp [hd]), if_neg (by simp [hp]), if_pos hc]

variable (hc : s.checkHolds 4 (lineOf pa) (remoteReads op) (remoteWrites op) = false)
include hc

theorem remoteRequest_reads (hw : remoteWrites op = false) :
    exec (.remoteRequest dev pa key op) s = .next (s.serveRemote dev pa key op) := by
  rw [remoteRequest_served h, if_neg (by simp [hd]), if_neg (by simp [hp]), if_neg (by simp [hc]), if_neg (by simp [hw])]

theorem remoteRequest_invalidates (hw : remoteWrites op = true) (hb : ∃ h ∈ s.holders (lineOf pa), h ≠ .dev dev) :
    exec (.remoteRequest dev pa key op) s = .next (s.sendInvals (lineOf pa) (some (.dev dev))).1 := by
  have hbusy := State.sendInvals_busy_iff (self := some (.dev dev)).2 (.inl (hb.imp fun _ ⟨hm, hn⟩ => ⟨hm, fun e => hn (Option.some.inj e)⟩))
  rw [remoteRequest_served h, if_neg (by simp [hd]), if_neg (by simp [hp]), if_neg (by simp [hc]), if_pos hw, if_pos hbusy]

theorem remoteRequest_writes (hw : remoteWrites op = true) (hb : ∀ h ∈ s.holders (lineOf pa), h = .dev dev)
    (hi : ∀ i ∈ s.invals, i.1 ≠ lineOf pa) : exec (.remoteRequest dev pa key op) s = .next (s.serveRemote dev pa key op) := by
  have hfree : ¬(s.sendInvals (lineOf pa) (some (.dev dev))).2 = true := by
    rw [State.sendInvals_busy_iff]
    rintro (⟨h, hm, hn⟩ | ⟨i, hm, he⟩)
    · exact hn (congrArg some (hb h hm))
    · exact hi i hm he
  rw [remoteRequest_served h, if_neg (by simp [hd]), if_neg (by simp [hp]), if_neg (by simp [hc]), if_pos hw, if_neg hfree]

end

/-! ### What a write leaves, R97, R98, 06 R125 -/

/-- The state `u` after a write of module `dev`, which stays a holder if it was one. -/
def State.putPeer (u : State) (dev pa key : ℕ) (bs : List (Option Byte)) : State :=
  let v := (u.takeLine key (lineOf pa)).homeWrite key (liveCells pa bs)
  if .dev dev ∈ u.holders (lineOf pa) then v.recordHolder (lineOf pa) (.dev dev) else v

section
variable {s : State} {dev pa key : ℕ} {op : RemoteOp}

/-- A write or an atomic of a peer. -/
theorem State.serveRemote_writes (hw : remoteWrites op = true) (hd : op ≠ .drop) :
    let r := remoteEffect ((s.settle (lineOf pa) key).cohBytes key pa (remoteLen op)) op
    s.serveRemote dev pa key op = ((s.settle (lineOf pa) key).putPeer dev pa key r.1).answerPeer dev pa r.2 := by
  intro r
  have hput : ((s.settle (lineOf pa) key).putPeer dev pa key r.1) =
      if ((s.settle (lineOf pa) key).holders (lineOf pa)).contains (.dev dev) = true then
        (((s.settle (lineOf pa) key).takeLine key (lineOf pa)).homeWrite key (liveCells pa r.1)).recordHolder (lineOf pa) (.dev dev)
      else ((s.settle (lineOf pa) key).takeLine key (lineOf pa)).homeWrite key (liveCells pa r.1) := by
    simp only [State.putPeer, List.contains_iff_mem]
  rw [hput]
  cases op with
  | load n => cases hw
  | drop => exact absurd rfl hd
  | store bs => rfl
  | atom a sg w ls => rfl
  | bound w ls => rfl
  | topk norm k ls => rfl

variable (norm : Bool) (k n : ℕ) (old : List Byte)

theorem combined_bnd (hn : n ≤ 8) (ls : List DWord) : combined (.bnd .dom) n n old (ls.map fun x => (x, 0)) = ls.foldl (fun (r : List Byte × List Byte) x =>
    (if bytesNat r.1 % 2 ^ (8 * n) < x.toNat % 2 ^ (8 * n) then natBytes n ((BitVec.ofNat 64 (bytesNat r.1)).toNat + 1) else r.1,
      r.2 ++ natBytes n (BitVec.ofNat 64 (bytesNat r.1)).toNat)) (old, []) := by
  rw [combined, List.foldl_map]
  refine congrArg (fun f => ls.foldl f (old, [])) (funext fun r => funext fun x => ?_)
  have hdvd : 2 ^ (8 * n) ∣ 2 ^ 64 := pow_dvd_pow 2 (by omega)
  simp only [rmwStep, uintW, BitVec.toNat_ofNat, Nat.mod_mod_of_dvd _ hdvd]

theorem combined_topk (ls : List (DWord × DWord)) : combined (.topk norm k .dom) 64 4 old ls = ls.foldl (fun (r : List Byte × List Byte) x =>
    let q := topkStep norm k r.1 (BitVec.ofNat 32 x.1.toNat) x.2.toNat
    (q.1, r.2 ++ natBytes 4 q.2.toNat)) (old, []) := by
  refine congrArg (fun f => ls.foldl f (old, [])) (funext fun r => funext fun x => ?_)
  rw [BitVec.ofNat_toNat]
  have hwide (w : Word) : (w.setWidth 64).toNat = w.toNat := by rw [BitVec.toNat_setWidth, Nat.mod_eq_of_lt (by omega)]
  simp only [rmwStep, hwide]
  rfl
end

end Sys2Proof.Machine
end

section
/-! A holder that gives up its copy of a line: what is lost, and which invalidations are still awaited, 05 R97, R98. -/

namespace Sys2Proof.Machine

/-! ### Invalidations only come on top -/

/-- `t` awaits the invalidations of `s`, and perhaps more behind them, and has the same teams. -/
structure State.Tells (s t : State) : Prop where
  invals : s.invals <+: t.invals
  teams : t.teams = s.teams

section
variable {s t u : State}

theorem State.Tells.refl (s : State) : s.Tells s := ⟨List.prefix_refl _, rfl⟩
theorem State.Tells.trans (h : s.Tells t) (k : t.Tells u) : s.Tells u := ⟨h.invals.trans k.invals, k.teams.trans h.teams⟩

/-- Neither changes. -/
theorem State.Tells.frame (h : s.Tells t) (hi : u.invals = t.invals := by rfl) (ht : u.teams = t.teams := by rfl) : s.Tells u :=
  h.trans ⟨hi ▸ List.prefix_refl _, ht⟩

theorem State.Tells.foldl {β : Type} {f : State → β → State} {l : List β} (h : s.Tells t) (hf : ∀ t b, s.Tells t → s.Tells (f t b)) :
    s.Tells (l.foldl f t) := by
  induction l generalizing t with
  | nil => exact h
  | cons b l ih => exact ih (hf t b h)

theorem State.Tells.memWrite (h : s.Tells t) {tag cells} : s.Tells (t.memWrite tag cells) := by
  cases cells with
  | nil => exact h
  | cons c cs =>
    obtain ⟨a, b⟩ := c
    have hr : s.Tells (t.retag (lineOf a) tag) := by
      rw [State.retag]
      split
      · exact h
      · exact h.frame
    exact hr.frame

theorem State.Tells.sendInvals (h : s.Tells t) {line self} : s.Tells (t.sendInvals line self).1 := h.trans ⟨List.prefix_append .., rfl⟩
theorem State.Tells.mergeL1 (h : s.Tells t) {line} : s.Tells (t.mergeL1 line) :=
  .foldl (t := { t with cache := _ }) h.frame fun _ _ h => h.frame

theorem State.Tells.writeBackL2 (h : s.Tells t) {line} : s.Tells (t.writeBackL2 line) := by
  rw [State.writeBackL2]
  split
  · exact h
  · exact .memWrite (t := t.dropLine ..) h.frame

theorem State.Tells.loseL2 (h : s.Tells t) {line} : s.Tells (t.loseL2 line) := h.mergeL1.writeBackL2.frame

theorem State.Tells.evictL2 (h : s.Tells t) {line} : s.Tells (t.evictL2 line) := by
  rw [State.evictL2]
  split
  · exact h.loseL2
  · exact .sendInvals (h.mergeL1.frame (u := { (t.mergeL1 line).setDir _ with cache := _ }))

theorem State.Tells.placeL2 (h : s.Tells t) {line} : s.Tells (t.placeL2 line).2 := by
  rw [State.placeL2]
  split
  · exact h.evictL2
  · exact h

theorem State.Tells.putL2 (h : s.Tells t) {key cells} : s.Tells (t.putL2 key cells) := by
  cases cells with
  | nil => exact h
  | cons c cs => exact h.placeL2.frame

theorem State.Tells.loseL1 (h : s.Tells t) {core line} : s.Tells (t.loseL1 core line) := by
  rw [State.loseL1]
  split
  · exact h
  · split
    · exact .putL2 (t := t.dropLine ..) h.frame
    · exact h.frame

theorem State.Tells.loseCopy (h : s.Tells t) {line hd} : s.Tells (t.loseCopy line hd) := by
  cases hd with
  | l1 c => exact (h.loseL1 (core := c) (line := line)).frame
  | rdc d => exact h.frame
  | dev d => exact h

theorem State.Tells.endEviction (h : s.Tells t) {line} : s.Tells (t.endEviction line) := by
  rw [State.endEviction]
  split
  · exact h
  · split
    · exact h.loseL2
    · exact h.sendInvals
end

/-! ### What a holder loses -/

section
variable {s : State} {line : ℕ}

theorem State.not_mem_dropLine {lvl : Lvl} {e : CLine} (he : e ∈ (s.dropLine lvl line).cache) : ¬(e.lvl = lvl ∧ e.line = line) := by
  have hkeep := (List.mem_filter.1 he).2
  rintro ⟨rfl, rfl⟩
  simp at hkeep

/-- An L1 that has given up a line does not hold it. -/
theorem State.loseL1_loses {core : ℕ} {e : CLine} (he : e ∈ (s.loseL1 core line).cache) (hl : e.lvl = .l1 core) : e.line ≠ line := by
  intro hline
  rw [State.loseL1] at he
  split at he
  · rename_i hn
    exact List.find?_eq_none.1 hn e he (by simp [hl, hline])
  · split at he
    · exact State.not_mem_dropLine (State.above_putL2 _ _ _ e he (by simp [hl])) ⟨hl, hline⟩
    · exact State.not_mem_dropLine he ⟨hl, hline⟩

theorem State.loseCopy_l1 {c : ℕ} {e : CLine} (he : e ∈ (s.loseCopy line (.l1 c)).cache) (hl : e.lvl = .l1 c) : e.line ≠ line :=
  State.loseL1_loses (List.mem_of_mem_filter he) hl

theorem State.loseCopy_rdc {d : ℕ} {e : CLine} (he : e ∈ (s.loseCopy line (.rdc d)).cache) (hl : e.line = line) :
    e.lvl ≠ .rdc d ∧ ∀ c, c / 96 = d → e.lvl ≠ .l1 c := by
  have hkeep := (List.mem_filter.1 he).2
  simp only [hl, beq_self_eq_true, Bool.true_and, Bool.not_eq_true', Bool.or_eq_false_iff, beq_eq_false_iff_ne] at hkeep
  refine ⟨hkeep.1, fun c hc hlvl => ?_⟩
  have hon := hkeep.2
  rw [hlvl, show Lvl.onDie d (.l1 c) = (c / 96 == d) from rfl, hc, beq_self_eq_true] at hon
  cases hon

theorem State.above_endEviction (s : State) (line : ℕ) : s.above (s.endEviction line) := by
  rw [State.endEviction]
  split
  · exact s.above_refl
  · split
    · exact State.above_trans (State.above_mergeL1 s line) (State.above_writeBackL2 _ line)
    · exact State.above_of_subset fun _ he => he

/-- The L2 keeps its copy when another level loses the line. -/
theorem State.cline_l2_of_filter {t : State} {p : CLine → Bool} (ht : t.cache = s.cache.filter p) (hp : ∀ e : CLine, e.lvl = .l2 → p e = true) :
    t.cline .l2 line = s.cline .l2 line := by
  rw [State.cline, State.cline, ht, List.find?_filter]
  refine congrArg (fun q => s.cache.find? q) (funext fun e => ?_)
  by_cases he : e.lvl = .l2
  · simp only [hp e he, true_and, Bool.decide_eq_true]
  · simp [he]

theorem State.cline_l2_dropLine {lvl : Lvl} (h : lvl ≠ .l2) (l : ℕ) : (s.dropLine lvl l).cline .l2 line = s.cline .l2 line :=
  State.cline_l2_of_filter rfl fun e he => by simp [he, h.symm]

/-- A holder whose copy is clean gives it up without a write to the L2. -/
theorem State.loseCopy_clean (hc : ∀ e ∈ s.cache, e.line = line → e.dirty = false) (h : Holder) :
    (s.loseCopy line h).invals = s.invals ∧ (s.loseCopy line h).cline .l2 line = s.cline .l2 line := by
  cases h with
  | l1 c =>
    have hl1 : s.loseL1 c line = s ∨ s.loseL1 c line = s.dropLine (.l1 c) line := by
      rw [State.loseL1]
      split
      · exact .inl rfl
      · rename_i e he
        obtain ⟨hmem, -, hline⟩ := State.cline_mem he
        exact .inr (if_neg (by simp [hc e hmem hline]))
    rw [State.loseCopy, State.cline_l2_dropLine (by simp)]
    obtain hl1 | hl1 := hl1 <;> rw [hl1]
    · exact ⟨rfl, rfl⟩
    · exact ⟨rfl, State.cline_l2_dropLine (by simp) line⟩
  | rdc d => exact ⟨rfl, State.cline_l2_of_filter rfl fun e he => by simp [he, Lvl.onDie]⟩
  | dev d => exact ⟨rfl, rfl⟩

theorem State.evicting_congr {t : State} (h : t.cline .l2 line = s.cline .l2 line) : t.evicting line = s.evicting line := by
  rw [State.evicting, State.evicting, h]
  rfl

theorem State.endEviction_idle (h : s.evicting line = false) : s.endEviction line = s := if_pos (by simp [h])
end

/-! ### The event, R98 -/

section
variable {s : State} {line : ℕ} {h : Holder}

/-- The holder has lost its copy, then its invalidation is no longer awaited, then an eviction may end. -/
theorem invalidation_awaited (hi : (line, h) ∈ s.invals) : ∃ u : State, exec (.invalidation line h) s = .next (u.endEviction line) ∧
    u.cache = (s.loseCopy line h).cache ∧ u.invals = (s.loseCopy line h).invals.erase (line, h) ∧ u.teams = (s.loseCopy line h).teams := by
  refine ⟨_, congrArg Host.Outcome.next (if_pos (List.contains_iff_mem.2 hi)), ?_⟩
  split <;> exact ⟨rfl, rfl, rfl⟩

theorem invalidation_unknown (hi : (line, h) ∉ s.invals) (hl : devOf (128 * line) = s.module.dev) :
    exec (.invalidation line h) s = .next s :=
  congrArg Host.Outcome.next ((if_neg (by simpa using hi)).trans (if_pos (beq_iff_eq.2 hl)))

theorem invalidation_foreign (hi : (line, h) ∉ s.invals) (hl : devOf (128 * line) ≠ s.module.dev) : exec (.invalidation line h) s =
    .next { s with sent := s.sent ++ [.invalAck line h], cache := s.cache.filter fun e => e.line != line } :=
  congrArg Host.Outcome.next ((if_neg (by simpa using hi)).trans (if_neg (by simpa [State.isLocal] using hl)))

/-- What else was awaited still is. -/
theorem State.Tells.erase_mem {s t : State} (ht : s.Tells t) {x y : ℕ × Holder} (hy : y ∈ s.invals) (hx : x ∈ s.invals.erase y) :
    x ∈ t.invals.erase y := by
  obtain ⟨more, hm⟩ := ht.invals
  rw [← hm, List.erase_append_left _ hy]
  exact List.mem_append_left _ hx
end

end Sys2Proof.Machine
end

section
/-! Writes from behind the service port, units that are mapped out, and what each event of a peer or a unit does, 04 R73, 05 R98, 17 R384, R390. -/

namespace Sys2Proof.Machine

/-! ### The home slices of several lines, R98 -/

/-- Asks for the ownership of one more line. -/
def ownMore (r : State × Bool) (l : ℕ) : State × Bool := ((r.1.sendInvals l none).1, r.2 || (r.1.sendInvals l none).2)

section
variable {s : State} {lines : List ℕ}

theorem State.ownLines_eq (s : State) (lines : List ℕ) : s.ownLines lines = lines.foldl ownMore (s, false) := rfl

theorem holders_ownMore (r : State × Bool) (l : ℕ) : (ownMore r l).1.holders = r.1.holders := rfl

theorem State.ownLines_mem (s : State) (lines : List ℕ) : (s.ownLines lines).1.mem = s.mem :=
  foldl_keeps (fun r : State × Bool => r.1.mem) (f := ownMore) (fun _ _ => by rfl) lines (s, false)

theorem State.ownLines_cache (s : State) (lines : List ℕ) : (s.ownLines lines).1.cache = s.cache :=
  foldl_keeps (fun r : State × Bool => r.1.cache) (f := ownMore) (fun _ _ => by rfl) lines (s, false)

/-- Every holder of each line is sent an invalidation. -/
theorem mem_invals_ownMore {r : State × Bool} {x : ℕ × Holder} :
    x ∈ (lines.foldl ownMore r).1.invals ↔ x ∈ r.1.invals ∨ x.1 ∈ lines ∧ x.2 ∈ r.1.holders x.1 := by
  induction lines generalizing r with
  | nil => simp
  | cons l t ih =>
    rw [List.foldl_cons, ih, holders_ownMore, show (ownMore r l).1 = (r.1.sendInvals l none).1 from rfl, State.mem_invals_sendInvals, or_assoc]
    refine or_congr_right ?_
    rw [List.mem_cons]
    constructor
    · rintro (⟨rfl, hh, -⟩ | ⟨ht, hh⟩)
      · exact ⟨.inl rfl, hh⟩
      · exact ⟨.inr ht, hh⟩
    · rintro ⟨rfl | ht, hh⟩
      · exact .inl ⟨rfl, hh, Option.some_ne_none _⟩
      · exact .inr ⟨ht, hh⟩

/-- A line for whose ownership an acknowledgement is awaited. -/
def State.contested (s : State) (l : ℕ) : Prop := s.holders l ≠ [] ∨ ∃ i ∈ s.invals, i.1 = l

theorem ownMore_busy_iff {r : State × Bool} : (lines.foldl ownMore r).2 = true ↔ r.2 = true ∨ ∃ l ∈ lines, r.1.contested l := by
  induction lines generalizing r with
  | nil => simp
  | cons l t ih =>
    have hbusy : (ownMore r l).2 = true ↔ r.2 = true ∨ r.1.contested l := by
      rw [ownMore, Bool.or_eq_true, State.sendInvals_busy_none, State.contested]
    have hnext (k : ℕ) : (ownMore r l).1.contested k ↔ r.1.contested k := by
      rw [State.contested, holders_ownMore, State.contested]
      refine ⟨?_, Or.imp_right fun ⟨i, hi, hk⟩ => ⟨i, State.mem_invals_sendInvals.2 (.inl hi), hk⟩⟩
      rintro (hh | ⟨i, hi, rfl⟩)
      · exact .inl hh
      · obtain hi | ⟨hl, hh, -⟩ := State.mem_invals_sendInvals.1 hi
        · exact .inr ⟨i, hi, rfl⟩
        · exact .inl (List.ne_nil_of_mem (hl ▸ hh))
    simp only [List.foldl_cons, ih, hbusy, hnext, List.exists_mem_cons_iff, or_assoc]

theorem State.ownLines_busy_iff : (s.ownLines lines).2 = true ↔ ∃ l ∈ lines, s.contested l := by
  rw [State.ownLines_eq, ownMore_busy_iff]
  simp

theorem State.mem_invals_ownLines {l : ℕ} (hl : l ∈ lines) {h : Holder} (hh : h ∈ s.holders l) : (l, h) ∈ (s.ownLines lines).1.invals :=
  mem_invals_ownMore.2 (.inr ⟨hl, hh⟩)
end

/-! ### Bytes that a mask lets through -/

theorem maskRuns_all (pa : ℕ) (bs : List Byte) : maskRuns pa (bs.map some) = if bs = [] then [] else [(pa, bs)] := by
  induction bs generalizing pa with
  | nil => rfl
  | cons b t ih =>
    rw [List.map_cons, maskRuns, ih]
    cases t with
    | nil => rfl
    | cons c u => simp

theorem maskRuns_none (pa : ℕ) {bs : List (Option Byte)} (h : ∀ b ∈ bs, b = none) : maskRuns pa bs = [] := by
  induction bs generalizing pa with
  | nil => rfl
  | cons b t ih =>
    rw [h b List.mem_cons_self, maskRuns]
    exact ih _ fun x hx => h x (List.mem_cons_of_mem _ hx)

/-- An address of a range with its byte. -/
theorem exists_of_mem_zip_addrs {pa : ℕ} {bs : List Byte} {c : ℕ × Byte} (h : c ∈ (addrs pa bs.length).zip bs) :
    ∃ j, j < bs.length ∧ c.1 = pa + j := by
  obtain ⟨j, hj, he⟩ := List.mem_map.1 (List.of_mem_zip h).1
  exact ⟨j, List.mem_range.1 hj, he.symm⟩

/-! ### The service port, R98, R104 -/

section
variable {s : State} {pa : ℕ} {bs : List Byte}

/-- The bytes of a write from behind the service port that reach memory. -/
def State.portMask (s : State) (pa : ℕ) (bs : List Byte) : List (Option Byte) :=
  ((addrs pa bs.length).zip bs).map fun c => if s.populated c.1 && !s.meetsPool c.1 1 then some c.2 else none

/-- A write from behind the service port that can be made now or later. -/
def State.portTakes (s : State) (pa : ℕ) (lines : List ℕ) : Prop :=
  s.module.ready = true ∧ devOf pa = s.module.dev ∧ s.populated pa = true ∧ isDevice pa = false ∧ ∀ l ∈ lines, s.checkHolds 4 l false true = false

theorem servicePortWrite_eq (s : State) (pa : ℕ) (bs : List Byte) :
    let lines := dedupNat ((addrs pa bs.length).map lineOf)
    exec (.servicePortWrite pa bs) s = .next
      (if (!(s.module.ready && s.isLocal pa && s.populated pa && !isDevice pa) || lines.any fun l => s.checkHolds 4 l false true) = true then s
      else if (s.ownLines lines).2 = true then (s.ownLines lines).1
      else (maskRuns pa (s.portMask pa bs)).foldl (fun s r => s.rawWrite r.1 r.2) (s.ownLines lines).1) := rfl

theorem State.portTakes_iff {lines : List ℕ} : s.portTakes pa lines ↔
    ¬(!(s.module.ready && s.isLocal pa && s.populated pa && !isDevice pa) || lines.any fun l => s.checkHolds 4 l false true) = true := by
  simp [State.portTakes, State.isLocal, and_assoc]

theorem servicePortWrite_refused (h : ¬s.portTakes pa (dedupNat ((addrs pa bs.length).map lineOf))) :
    exec (.servicePortWrite pa bs) s = .next s := by
  rw [servicePortWrite_eq, if_pos (not_not.1 (State.portTakes_iff.not.1 h))]

variable (h : s.portTakes pa (dedupNat ((addrs pa bs.length).map lineOf)))
include h

theorem servicePortWrite_awaits (ho : (s.ownLines (dedupNat ((addrs pa bs.length).map lineOf))).2 = true) :
    exec (.servicePortWrite pa bs) s = .next (s.ownLines (dedupNat ((addrs pa bs.length).map lineOf))).1 := by
  rw [servicePortWrite_eq, if_neg (State.portTakes_iff.1 h), if_pos ho]

variable (ho : (s.ownLines (dedupNat ((addrs pa bs.length).map lineOf))).2 = false)
include ho

theorem servicePortWrite_runs : exec (.servicePortWrite pa bs) s = .next ((maskRuns pa (s.portMask pa bs)).foldl (fun s r => s.rawWrite r.1 r.2)
    (s.ownLines (dedupNat ((addrs pa bs.length).map lineOf))).1) := by
  rw [servicePortWrite_eq, if_neg (State.portTakes_iff.1 h), if_neg (by simp [ho])]

theorem servicePortWrite_writes (hj : ∀ j, j < bs.length → s.populated (pa + j) = true ∧ s.meetsPool (pa + j) 1 = false) :
    exec (.servicePortWrite pa bs) s = .next ((s.ownLines (dedupNat ((addrs pa bs.length).map lineOf))).1.rawWrite pa bs) := by
  have hmask : s.portMask pa bs = bs.map some := by
    have hsnd : ((addrs pa bs.length).zip bs).map Prod.snd = bs := List.map_snd_zip (by simp [addrs])
    rw [State.portMask]
    calc _ = ((addrs pa bs.length).zip bs).map (some ∘ Prod.snd) := List.map_congr_left fun c hc => by
            obtain ⟨j, hlt, he⟩ := exists_of_mem_zip_addrs hc
            obtain ⟨hpop, hpool⟩ := hj j hlt
            rw [he, hpop, hpool]; rfl
      _ = bs.map some := by rw [← List.map_map, hsnd]
  rw [servicePortWrite_runs h ho, hmask, maskRuns_all]
  split
  · rename_i hnil; rw [hnil]; rfl
  · rfl

theorem servicePortWrite_pool (hj : ∀ j, j < bs.length → s.meetsPool (pa + j) 1 = true) :
    exec (.servicePortWrite pa bs) s = .next (s.ownLines (dedupNat ((addrs pa bs.length).map lineOf))).1 := by
  have hmask : ∀ b ∈ s.portMask pa bs, b = none := by
    intro b hb
    obtain ⟨c, hc, rfl⟩ := List.mem_map.1 hb
    obtain ⟨j, hlt, he⟩ := exists_of_mem_zip_addrs hc
    rw [he, hj j hlt, Bool.not_true, Bool.and_false]
    rfl
  rw [servicePortWrite_runs h ho, maskRuns_none pa hmask]
  rfl
end

/-! ### Units that are mapped out, R384, R390 -/

section
variable {s : State} {cores clus : List ℕ} {saved : Bool}

/-- An engine takes the four cores of its cluster along. -/
theorem unitScope_engine (d k : ℕ) : unitScope (.engine d k) = ((List.range 4).map (4 * (24 * d + k) + ·), [24 * d + k]) := by
  rw [Nat.mul_comm 24 d]
  rfl

theorem unitScope_copyEngine (d k : ℕ) : unitScope (.copyEngine d k) = ((List.range 4).map (4 * (24 * d + k) + ·), [24 * d + k]) :=
  unitScope_engine d k

theorem State.teamsOver_eq (s : State) (cores : List ℕ) : s.teamsOver cores = (List.range s.teams.length).filter fun ti =>
    decide ((s.team ti).place = .resident ∧ (∀ d ∈ s.dies, d.fwTeam ≠ some ti) ∧ ∃ c ∈ (s.team ti).cores, c ∈ cores) := by
  refine congrArg (fun p => (List.range s.teams.length).filter p) (funext fun ti => ?_)
  rw [Bool.eq_iff_iff]
  simp [and_assoc]

theorem State.unitChecksGone_eq (t : State) (cores clus : List ℕ) : t.unitChecksGone cores clus = (t.faults.filter fun f => decide (f.check = true ∧
    ((f.cause = 4 ∧ (f.slot ∈ cores ∨ ∃ k ∈ clus, f.slot = 0x10000 + k)) ∨ (f.cause = 3 ∧ f.slot ∈ cores)))).foldl State.retryFault t := by
  rw [State.unitChecksGone]
  refine congrArg (fun p => (t.faults.filter p).foldl State.retryFault t) (funext fun f => ?_)
  have hclus : f.slot ∈ clus.map engineUnit ↔ ∃ k ∈ clus, f.slot = 0x10000 + k := List.mem_map.trans (by simp only [engineUnit, eq_comm])
  rw [Bool.eq_iff_iff]
  simp only [Bool.and_eq_true, Bool.or_eq_true, beq_iff_eq, List.contains_iff_mem, decide_eq_true_eq, hclus]

/-- The module after a unit with some cores and clusters is mapped out. -/
def Module.without (m : Module) (cores clus : List ℕ) : Module :=
  let newCores := cores.filter fun c => decide (c ∉ m.outCores ∧ c < 384)
  let newClus := clus.filter fun k => decide (k ∉ m.outClus ∧ k < 96)
  { m with
    outCores := m.outCores ++ newCores, outClus := m.outClus ++ newClus, repl := true,
    ucores := m.ucores - (newCores.filter fun c => decide (c % 96 ≠ 0)).length, clus := m.clus - newClus.length }

theorem newUnit_eq (out : List ℕ) (n c : ℕ) : (!out.contains c && decide (c < n)) = decide (c ∉ out ∧ c < n) := by
  rw [Bool.eq_iff_iff]
  simp

theorem State.mapOut_eq (s : State) (u : UnitId) (saved : Bool) : s.mapOut u saved =
    State.settleSaves (State.unitChecksGone ((s.teamsOver (unitScope u).1).foldl (fun t ti => t.evacuate saved ti)
      { s with module := s.module.without (unitScope u).1 (unitScope u).2 }) (unitScope u).1 (unitScope u).2) := by
  have hcores : (fun c => !s.module.outCores.contains c && decide (c < Config.nCores)) = fun c => decide (c ∉ s.module.outCores ∧ c < 384) :=
    funext fun c => newUnit_eq s.module.outCores 384 c
  have hclus : (fun k => !s.module.outClus.contains k && decide (k < Config.nDies * Config.cluPerDie)) =
      fun k => decide (k ∉ s.module.outClus ∧ k < 96) := funext fun k => newUnit_eq s.module.outClus 96 k
  have hfw : (fun c => !isFwCore c) = fun c => decide (c % 96 ≠ 0) := funext fun c => by rw [Bool.eq_iff_iff]; simp [isFwCore, Config.coresPerDie]
  simp only [State.mapOut, hcores, hclus, hfw]
  rfl

theorem State.evacuate_saves {ti : ℕ} (hr : (s.team ti).place = .resident) (hf : s.freeSlotNo ≠ none) : s.evacuate true ti =
    s.modTeam ti fun x => { x with saving := some true, groups := x.groups.map fun (g : Group) => { g with offer := none } } := by
  rw [State.evacuate, if_neg (by simp [hr]), if_pos (by simpa [Option.isSome_iff_ne_none] using hf)]

theorem State.evacuate_terminates {ti : ℕ} (hr : (s.team ti).place = .resident) (hf : s.freeSlotNo = none ∨ saved = false) :
    s.evacuate saved ti = s.terminateGrid (s.team ti).node := by
  rw [State.evacuate, if_neg (by simp [hr]), if_neg (by rcases hf with hf | hf <;> simp [hf])]

end

end Sys2Proof.Machine
end

section
/-! What an event of a peer or of a unit does, 04 R73, 05 R97, R98, 17 R384, R390. -/

namespace Sys2Proof.Machine

/-- Settles O48: a request by the place it reaches and its kind, an invalidation by what its holder loses, a service write by what the home slices
own, a map-out by what each of its parts is. -/
theorem peerAndUnitEvents : Obligations.PeerAndUnitEvents := by
  unfold Obligations.PeerAndUnitEvents
  refine ⟨fun s dev pa key op => ?_, fun s line h => ⟨fun hi => ?_, invalidation_unknown, invalidation_foreign⟩, fun s pa bs => ?_,
    fun s u saved => ?_⟩
  · intro i line foreign pool u old replies writes held
    have hforeign : foreign ↔ s.refuses dev pa op := Iff.rfl
    have hwrites : writes ↔ remoteWrites op = true := by cases op <;> simp [writes, remoteWrites]
    have hheld : held ↔ s.checkHolds 4 line (remoteReads op) (remoteWrites op) = true := by cases op <;> exact Iff.rfl
    refine ⟨remoteRequest_foreign, fun hf hp => ?_, fun hf hd => ?_, fun hf hd hw hs => ?_, fun hf hd hp hc => ?_, fun hf hd hp hc => ?_⟩
    · refine ⟨?_, ?_, fun hs hdrop => ?_⟩
      · rintro bs rfl; exact remoteRequest_pool hf hp.1 hp.2
      · rintro rfl; exact remoteRequest_pool hf hp.1 hp.2
      · refine (remoteRequest_pool hf hp.1 hp.2).trans ?_
        cases op with
        | store bs => exact absurd rfl (hs bs)
        | drop => exact absurd rfl hdrop
        | load n | atom a sg w ls | bound w ls | topk norm k ls => rfl
    · refine ⟨?_, ?_⟩
      · rintro n rfl; exact remoteRequest_device hf hd
      · rintro bs rfl; exact remoteRequest_device hf hd
    · refine (remoteRequest_device hf hd).trans ?_
      cases op with
      | load n => exact absurd rfl (hw n)
      | store bs => exact absurd rfl (hs bs)
      | atom a sg w ls | bound w ls | topk norm k ls | drop => rfl
    all_goals have hp' : s.meetsPool pa 1 = false := by simpa [pool, hd] using hp
    · exact remoteRequest_held hf hd hp' (hheld.1 hc)
    · have hc' : s.checkHolds 4 line (remoteReads op) (remoteWrites op) = false := by simpa [hheld] using hc
      refine ⟨?_, fun hb hw => ?_, fun hb hi => ?_⟩
      · rintro n rfl
        exact remoteRequest_reads hf hd hp' hc' rfl
      · refine ⟨_, remoteRequest_invalidates hf hd hp' hc' (hwrites.1 hw) hb, rfl, rfl, rfl, fun h hm hn => ?_⟩
        exact State.mem_invals_sendInvals.2 (.inr ⟨rfl, hm, fun e => hn (Option.some.inj e)⟩)
      · intro put
        have hserve (hw : remoteWrites op = true) (hdrop : op ≠ .drop) :
            replies (put (remoteEffect (old (remoteLen op)) op).1) (remoteEffect (old (remoteLen op)) op).2 :=
          (remoteRequest_writes hf hd hp' hc' hw hb hi).trans (congrArg _ (State.serveRemote_writes hw hdrop))
        refine ⟨?_, ?_, ?_, ?_, ?_⟩
        · rintro bs rfl
          exact hserve rfl (by simp)
        · rintro a sg w ls rfl
          exact hserve rfl (by simp)
        · rintro w ls rfl
          intro n r
          have hr : combined (.bnd .dom) n n (old n) (ls.map fun x => (x, 0)) = r := combined_bnd n (old n) (by cases w <;> decide) ls
          rw [← hr]
          exact hserve rfl (by simp)
        · rintro norm k ls rfl
          intro r
          rw [← show combined (.topk norm k .dom) 64 4 (old 64) ls = r from combined_topk norm k (old 64) ls]
          exact hserve rfl (by simp)
        · rintro rfl
          exact remoteRequest_writes hf hd hp' hc' rfl hb hi
  · obtain ⟨u, hexec, hcache, hinvals, hteams⟩ := invalidation_awaited hi
    have hlost : s.Tells (s.loseCopy line h) := (State.Tells.refl s).loseCopy
    have hend : u.Tells (u.endEviction line) := (State.Tells.refl u).endEviction
    have habove (e : CLine) (he : e ∈ (u.endEviction line).cache) (hl : e.lvl ≠ .l2) : e ∈ (s.loseCopy line h).cache :=
      hcache ▸ State.above_endEviction u line e he hl
    refine ⟨_, hexec, fun x hx => ?_, fun hc he => ?_, ?_, ?_, ?_⟩
    · exact hend.invals.subset (hinvals ▸ hlost.erase_mem hi hx)
    · obtain ⟨hkept, hl2⟩ := State.loseCopy_clean hc h
      have hidle : u.evicting line = false := (State.evicting_congr (by rw [← hl2, State.cline, hcache, State.cline])).trans he
      rw [State.endEviction_idle hidle, hinvals, hkept]
    · rw [hend.teams, hteams, hlost.teams]
    · rintro c rfl e he hl
      exact State.loseCopy_l1 (habove e he (by simp [hl])) hl
    · rintro d rfl e he hl
      by_cases h2 : e.lvl = .l2
      · simp [h2]
      · exact State.loseCopy_rdc (habove e he h2) hl
  · intro lines own good
    exact ⟨servicePortWrite_refused, servicePortWrite_awaits, servicePortWrite_writes, servicePortWrite_pool, State.ownLines_busy_iff,
      fun l hl h hh => State.mem_invals_ownLines hl hh, s.ownLines_mem lines, s.ownLines_cache lines⟩
  · intro cores clus m newCores newClus v leaving held
    have hscope : unitScope u = (cores, clus) := by
      cases u with
      | core c => rfl
      | engine d k => exact unitScope_engine d k
      | copyEngine d k => exact unitScope_copyEngine d k
    have hleaving : s.teamsOver cores = leaving := s.teamsOver_eq cores
    have hheld : held ↔ (saved && s.activating && !(s.teamsOver (unitScope u).1).isEmpty) = true := by
      simp [held, hscope, hleaving, and_assoc]
    refine ⟨fun h => congrArg _ (if_pos (hheld.1 h)), fun h => ?_,
      fun t => ⟨fun ti hr => ⟨?_, State.evacuate_terminates hr⟩, t.unitChecksGone_eq cores clus⟩⟩
    · refine congrArg _ ((if_neg (hheld.not.1 h)).trans ?_)
      rw [State.mapOut_eq, hscope, hleaving]
      rfl
    · rintro hf rfl
      exact State.evacuate_saves hr hf

end Sys2Proof.Machine
end

section
/-! What a SIG record writes, and the answers to blocks that a chain has sent, 04 R89, 07 R138 to R140, R154, R155. -/

namespace Sys2Proof.Machine

/-! ### Bytes put into a scratchpad -/

theorem addrs_succ (a n : ℕ) : addrs a (n + 1) = a :: addrs (a + 1) n := by
  rw [addrs, List.range_succ_eq_map, List.map_cons, List.map_map, Nat.add_zero]
  exact congrArg (a :: ·) (List.map_congr_left fun i _ => by rw [Function.comp_apply]; omega)

theorem scratchPut_cons (m : Sparse Byte) (a : ℕ) (b : Byte) (bs : List Byte) :
    scratchPut m a (b :: bs) = scratchPut (Sparse.set 0#8 m a b) (a + 1) bs := by
  rw [scratchPut, List.length_cons, addrs_succ]
  rfl

/-- What bytes written to a scratchpad leave: themselves in their range, what stood there elsewhere. -/
theorem get_scratchPut (m : Sparse Byte) (a : ℕ) (bs : List Byte) (x : ℕ) : Sparse.get 0#8 (scratchPut m a bs) x =
    if a ≤ x ∧ x < a + bs.length then bs.getD (x - a) 0 else Sparse.get 0#8 m x := by
  induction bs generalizing m a with
  | nil => rw [if_neg (by simp only [List.length_nil]; omega)]; rfl
  | cons b t ih =>
    rw [scratchPut_cons, ih, Sparse.get_set, List.length_cons]
    by_cases hx : x = a
    · subst hx
      rw [if_neg (by omega), if_pos rfl, if_pos (by omega), Nat.sub_self]
      rfl
    · rw [if_neg hx]
      by_cases hin : a + 1 ≤ x ∧ x < a + 1 + t.length
      · rw [if_pos hin, if_pos (by omega), show x - a = x - (a + 1) + 1 by omega]
        rfl
      · rw [if_neg hin, if_neg (by omega)]

theorem length_natBytes (n x : ℕ) : (natBytes n x).length = n := by
  induction n generalizing x with
  | zero => rfl
  | succ n ih => rw [natBytes, List.length_cons, ih]

theorem getD_natBytes {n j : ℕ} (hj : j < n) (x : ℕ) : (natBytes n x).getD j 0 = BitVec.ofNat 8 (x / 256 ^ j) := by
  induction n generalizing x j with
  | zero => omega
  | succ n ih =>
    cases j with
    | zero => rw [pow_zero, Nat.div_one]; rfl
    | succ j => rw [natBytes, List.getD_cons_succ, ih (by omega), Nat.div_div_eq_div_mul, ← Nat.pow_succ']

theorem Team.scratch_setScratch (t : Team) (pc : ℕ) (m : Sparse Byte) : (t.setScratch pc m).scratch pc = m := by
  rw [Team.setScratch, Team.scratch]
  split <;> rfl

/-- Bytes that all have a value are all written. -/
theorem liveCells_some (a : ℕ) (bs : List Byte) : liveCells a (bs.map some) = (addrs a bs.length).zip bs := by
  rw [liveCells, List.length_map, List.zip_map_right, List.filterMap_map]
  exact List.filterMap_some

/-! ### The write of a SIG record, R155 -/

section
variable {s : State} {k : Chain} {r : SigRec}

/-- A SIG into the scratchpad. -/
theorem sigBurst_scratch (hn : r.ops ≠ .notify) (hd : r.dsp = true) : sigBurst s k r = (s.modTeam k.ti fun t =>
    t.setScratch (t.group k.gi).pcore (scratchPut (t.scratch (t.group k.gi).pcore) r.addr.toNat (natBytes 4 r.value.toNat))).nextRec k.id := by
  have hcells : liveCells r.addr.toNat (((natBytes 4 r.value.toNat).map some).take 4) =
      (addrs r.addr.toNat (natBytes 4 r.value.toNat).length).zip (natBytes 4 r.value.toNat) := by
    rw [List.take_of_length_le (by rw [List.length_map, length_natBytes]), liveCells_some]
  have hburst : sigBurst s k r = ((s.writePieces k true [⟨r.addr.toNat, 4, 0, 0, false⟩] ((natBytes 4 r.value.toNat).map some)).2).nextRec k.id := by
    rw [sigBurst]
    cases h : r.ops with
    | notify => exact absurd h hn
    | store | add => simp only [hd, if_true]
  rw [hburst]
  simp only [State.writePieces, hcells, Bool.false_eq_true, if_false, if_true]
  rfl

/-- A SIG into memory, once the home slice owns the line. -/
theorem sigBurst_memory {pa key gen : ℕ} {s1 s2 : State} (hn : r.ops ≠ .notify) (hd : r.dsp = false)
    (ht : s.translate (s.chainAcx k) (if r.ops = .add then .atom else .store) r.addr.toNat = (.ok pa key gen, s1))
    (hdev : isDevice pa = false) (hl : s1.frameLive gen pa = true)
    (hr : s1.reachRanges k (if r.ops = .add then [lineOf pa] else []) [lineOf pa] = (true, s2)) :
    let u := (s2.markDirty (s2.chainAcx k) r.addr.toNat).settle (lineOf pa) key
    sigBurst s k r = (u.homeWriteBytes key pa (natBytes 4
      (if r.ops = .add then (bytesNat (u.cohBytes key pa 4) + r.value.toNat) % 2 ^ 32 else r.value.toNat))).nextRec k.id := by
  intro u
  rw [sigBurst]
  cases h : r.ops with
  | notify => exact absurd h hn
  | store | add =>
    simp only [h, reduceCtorEq, if_true, if_false] at ht hr
    simp only [hd, ht, hdev, hl, hr, beq_self_eq_true, reduceCtorEq, beq_iff_eq, Bool.not_true, Bool.false_eq_true, if_true, if_false]
    rfl

theorem sigBurst_notify {ti : ℕ} (hn : r.ops = .notify) (ht : s.gridTeam (s.team k.ti).node (r.addr.toNat % 2 ^ 16 / 0x40) = some ti) :
    sigBurst s k r = (s.nextRec k.id).sendOrWait ⟨ti, r.addr.toNat / 4 % 16, r.value⟩ := by
  rw [sigBurst]
  simp only [hn, ht]

/-- The word that a SIG leaves in the scratchpad, and what it leaves there besides. -/
theorem sigBurst_get (hn : r.ops ≠ .notify) (hd : r.dsp = true) (hk : k.ti < s.teams.length) (a : ℕ) :
    Sparse.get 0 (((sigBurst s k r).team k.ti).scratch (s.group k.ti k.gi).pcore) a =
      if r.addr.toNat ≤ a ∧ a < r.addr.toNat + 4 then BitVec.ofNat 8 (r.value.toNat / 256 ^ (a - r.addr.toNat))
      else Sparse.get 0 ((s.team k.ti).scratch (s.group k.ti k.gi).pcore) a := by
  have hteam : (sigBurst s k r).team k.ti = (s.team k.ti).setScratch (s.group k.ti k.gi).pcore
      (scratchPut ((s.team k.ti).scratch (s.group k.ti k.gi).pcore) r.addr.toNat (natBytes 4 r.value.toNat)) := by
    rw [sigBurst_scratch hn hd]
    exact State.team_modTeam_self _ hk
  rw [hteam, Team.scratch_setScratch]
  refine (get_scratchPut ..).trans ?_
  rw [length_natBytes]
  split
  · rename_i hin
    exact getD_natBytes (by omega) _
  · rfl

variable {core : ℕ} (ha : s.activeChain core = some k)
include ha

/-- A chain comes to a SIG record whose checks hold. -/
theorem sig_reached (hst : k.st = .walking) (hnow : k.now = none) (he : k.endSeen = false) (hwf : (Instr.sig core r).wf = true)
    (hal : r.addr.toNat % 4 = 0) (hin : r.dsp = true → r.addr.toNat + 4 ≤ (s.team k.ti).scr * 2 ^ 18) :
    exec (.sig core r) s = .next (sigBurst (s.latch k (.sig core r)) k r) := by
  have hcarve : (!r.dsp || decide (r.addr.toNat + 4 ≤ s.chainCarve k)) = true := by
    cases hd : r.dsp with
    | false => rfl
    | true => exact decide_eq_true (hin hd)
  rw [show exec (.sig core r) s = execSig core r s from rfl, execSig, reach, ha]
  simp only [hst, hnow, he, hwf, checked, hal, hcarve, bne_self_eq_false, beq_self_eq_true, Option.isSome_none, Bool.or_false, Bool.not_true,
    Bool.false_eq_true, if_false]

/-- The record was read before, and its write had to wait. -/
theorem copyBurst_sig {c : ℕ} (hst : k.st = .walking) (hnow : k.now = some (.sig c r)) : exec (.copyBurst core) s = .next (sigBurst s k r) := by
  rw [show exec (.copyBurst core) s = execCopyBurst core s from rfl, execCopyBurst, ha]
  simp only [hst, hnow]
end

/-! ### Answers, 04 R89, R139, R140 -/

section
variable {s : State} {k : Chain} {w : SentBlock} {b : BlockRef} {st : BitVec 7}

theorem State.chain_modChain_self {id : ℕ} {f : Chain → Chain} (h : s.chain id = some k) (hf : ∀ k, (f k).id = k.id) :
    (s.modChain id f).chain id = some (f k) := by
  have hid : k.id = id := beq_iff_eq.1 (List.find?_some (p := fun k : Chain => k.id == id) h)
  have hsame : ((fun k : Chain => k.id == id) ∘ fun k => if (k.id == id) = true then f k else k) = fun k => k.id == id :=
    funext fun k => by
      rw [Function.comp_apply]
      split <;> simp only [hf]
  rw [State.chain] at h
  rw [State.chain, State.modChain, updIf, List.find?_map, hsame, h, Option.map_some, if_pos (beq_iff_eq.2 hid)]

theorem State.chains_endReserve (s : State) (clu : ℕ) : (s.endReserve clu).chains = s.chains := by
  rw [State.endReserve]
  split
  · rfl
  · split <;> rfl

theorem State.chains_examineRows (n clu : ℕ) (s : State) : (State.examineRows n clu s).chains = s.chains := by
  induction n generalizing s with
  | zero => rfl
  | succ n ih =>
    have hgrant (r : AcgReq) : ((s.endReserve clu).grantRows r).chains = s.chains := s.chains_endReserve clu
    simp only [State.examineRows]
    split
    · split
      · rw [ih, hgrant]
      · exact s.chains_endReserve clu
    · split
      · exact s.chains_endReserve clu
      · split
        · exact s.chains_endReserve clu
        · split
          · rw [ih, hgrant]
          · split
            · rw [ih]
              exact s.chains_endReserve clu
            · exact s.chains_endReserve clu

/-- An ended chain is gone. -/
theorem State.chains_endChain {status count : ℕ} {j : Chain} (hj : j ∈ (s.endChain k status count).chains) : j.id ≠ k.id := by
  have hchains : (s.endChain k status count).chains = s.chains.filter (·.id != k.id) := by
    rw [State.endChain, State.tryRows]
    exact State.chains_examineRows ..
  rw [hchains] at hj
  simpa using (List.mem_filter.1 hj).2

variable (hk : s.chain k.id = some k)
include hk

theorem csendAnswer_unnamed (hn : k.sentBlock b.dev b.shid b.bn = none) : exec (.csendAnswer k.id b st) s = .next s := by
  rw [show exec (.csendAnswer k.id b st) s = execCsendAnswer k.id b st s from rfl, execCsendAnswer, hk]
  simp only [hn]

theorem csendAnswer_named (hn : k.sentBlock b.dev b.shid b.bn = some w) :
    exec (.csendAnswer k.id b st) s = .next ((s.modChain k.id fun k => k.answered w st.toNat).settleChain k.id) := by
  rw [show exec (.csendAnswer k.id b st) s = execCsendAnswer k.id b st s from rfl, execCsendAnswer, hk]
  simp only [hn]

/-- After an answer a chain that is not about to end goes on. -/
theorem State.settleChain_answered {x : ℕ} : (s.modChain k.id fun k => k.answered w x).settleChain k.id =
    if (k.waits.erase w).isEmpty && (k.endSeen || k.st == .stopping) then
      (s.modChain k.id fun k => k.answered w x).endChain (k.answered w x) (k.answered w x).status (k.answered w x).count
    else s.modChain k.id fun k => k.answered w x := by
  rw [State.settleChain, State.chain_modChain_self (f := fun k => k.answered w x) hk fun _ => rfl]
  rfl
end

/-- Settles O29: SIG by the place it writes, at its reach and as a burst alike; an answer by whether it is the last. -/
theorem signalsAndAnswers : Obligations.SignalsAndAnswers := by
  unfold Obligations.SignalsAndAnswers
  intro s core k ha hk next writes
  have hwrites (i : Instr) (s0 : State) (r : SigRec) (hb : exec i s = .next (sigBurst s0 k r)) : writes i s0 r := by
    refine ⟨fun hn hd hlt => ⟨_, hb, fun j hj => ?_, fun a hout => ?_⟩, fun pa key gen s1 s2 hn hd ht hdev hl hr => ?_, fun ti hn ht => ?_⟩
    · rw [sigBurst_get hn hd hlt, if_pos (by omega), Nat.add_sub_cancel_left]
    · rw [sigBurst_get hn hd hlt, if_neg (by omega)]
    · exact hb.trans (congrArg _ (sigBurst_memory hn hd ht hdev hl hr))
    · exact hb.trans (congrArg _ (sigBurst_notify hn ht))
  refine ⟨fun hst hnow he r hwf hal hin => hwrites _ _ r (sig_reached ha hst hnow he hwf hal hin),
    fun hst c r hnow => hwrites _ _ r (copyBurst_sig ha hst hnow), fun dev shid bn st => ?_⟩
  intro named
  refine ⟨fun hn => csendAnswer_unnamed hk hn, fun w hn => ⟨fun hst he => ?_, fun hw he => ?_⟩⟩
  · rw [csendAnswer_named (b := ⟨dev, shid, bn⟩) hk hn, State.settleChain_answered hk, if_neg (by simp [hst, he])]
    refine congrArg (fun f => Host.Outcome.next (s.modChain k.id f)) (funext fun k => ?_)
    have hzero : st.toNat = 0 ↔ st = 0 := (BitVec.toNat_eq (y := 0#7)).symm
    simp only [Chain.answered, beq_iff_eq, hzero]
  · rw [csendAnswer_named (b := ⟨dev, shid, bn⟩) hk hn, State.settleChain_answered hk, if_pos (by simp [hw, he])]
    exact ⟨_, rfl, fun j hj => State.chains_endChain hj⟩

end Sys2Proof.Machine
end

section
/-! What memory, the caches and the translation of addresses leave alone: all of the state beyond them, 03 R63 to R70, 05 R96 to R100, 16 R354 to R358. -/

namespace Sys2Proof.Machine

/-- The state beyond the memory system: without memory, copies of lines, directories, invalidations, TLBs, and requests to peers of agents that are no core's. -/
def State.sansMem (s : State) : State :=
  { s with mem := [], memTag := [], cache := [], dir := [], invals := [], invalAt := [], side := [], tlb := [], walks := [], unanswered := [] }

/-! ### Lines of the caches -/

section
variable (s : State)

@[simp] theorem State.sansMem_retag (line tag : ℕ) : (s.retag line tag).sansMem = s.sansMem := by
  rw [State.retag]; split <;> rfl

@[simp] theorem State.sansMem_memWrite (tag : ℕ) (cells : List Host.Cell) : (s.memWrite tag cells).sansMem = s.sansMem := by
  cases cells with
  | nil => rfl
  | cons c t => exact s.sansMem_retag (lineOf c.1) tag

@[simp] theorem State.sansMem_writeBackL2 (line : ℕ) : (s.writeBackL2 line).sansMem = s.sansMem := by
  rw [State.writeBackL2]
  split
  · rfl
  · exact State.sansMem_memWrite ..

@[simp] theorem State.sansMem_mergeL1 (line : ℕ) : (s.mergeL1 line).sansMem = s.sansMem := by
  unfold State.mergeL1
  exact (foldl_keeps State.sansMem (fun _ _ => by rfl) _ _).trans rfl

@[simp] theorem State.sansMem_loseL2 (line : ℕ) : (s.loseL2 line).sansMem = s.sansMem :=
  (State.sansMem_writeBackL2 ..).trans (State.sansMem_mergeL1 ..)

@[simp] theorem State.sansMem_evictL2 (line : ℕ) : (s.evictL2 line).sansMem = s.sansMem := by
  simp only [State.evictL2]
  split
  · exact s.sansMem_loseL2 line
  · exact s.sansMem_mergeL1 line

@[simp] theorem State.sansMem_placeL2 (line : ℕ) : (s.placeL2 line).2.sansMem = s.sansMem := by
  rw [State.placeL2]
  split
  · exact State.sansMem_evictL2 ..
  · rfl

@[simp] theorem State.sansMem_putL2 (key : ℕ) (cells : List Host.Cell) : (s.putL2 key cells).sansMem = s.sansMem := by
  cases cells with
  | nil => rfl
  | cons c t => exact s.sansMem_placeL2 (lineOf c.1)

@[simp] theorem State.sansMem_touchL2 (key line : ℕ) : (s.touchL2 key line).sansMem = s.sansMem := by
  rw [State.touchL2]
  split
  · rfl
  · exact s.sansMem_placeL2 line

@[simp] theorem State.sansMem_loseL1 (core line : ℕ) : (s.loseL1 core line).sansMem = s.sansMem := by
  rw [State.loseL1]
  split
  · rfl
  · split
    · exact State.sansMem_putL2 ..
    · rfl

@[simp] theorem State.sansMem_placeL1 (core line : ℕ) : (s.placeL1 core line).2.sansMem = s.sansMem := by
  rw [State.placeL1]
  split
  · exact State.sansMem_loseL1 ..
  · rfl

@[simp] theorem State.sansMem_putL1 (core key : ℕ) (cells : List Host.Cell) : (s.putL1 core key cells).sansMem = s.sansMem := by
  cases cells with
  | nil => rfl
  | cons c t => exact s.sansMem_placeL1 core (lineOf c.1)

@[simp] theorem State.sansMem_touchL1 (core key line : ℕ) : (s.touchL1 core key line).sansMem = s.sansMem := by
  rw [State.touchL1]
  split
  · rfl
  · exact s.sansMem_placeL1 core line

@[simp] theorem State.sansMem_recallL1 (line : ℕ) : (s.recallL1 line).sansMem = s.sansMem :=
  foldl_keeps State.sansMem (fun _ _ => State.sansMem_putL2 ..) _ _

@[simp] theorem State.sansMem_cleanL1 (line : ℕ) : (s.cleanL1 line).sansMem = s.sansMem :=
  foldl_keeps State.sansMem (fun _ _ => State.sansMem_putL2 ..) _ _

@[simp] theorem State.sansMem_touchRdc (die key line : ℕ) : (s.touchRdc die key line).sansMem = s.sansMem := by
  have hclean : State.sansMem (if (s.l1Dirty line).isSome then s.cleanL1 line else s) = s.sansMem := by
    split
    · exact s.sansMem_cleanL1 line
    · rfl
  unfold State.touchRdc
  extract_lets u
  split
  · exact hclean
  · dsimp only
    split <;> exact hclean

@[simp] theorem State.sansMem_settle (line key : ℕ) : (s.settle line key).sansMem = s.sansMem := by
  have hrecall : State.sansMem (if (s.cache.any fun e => e.lvl != .l2 && e.line == line && e.key != key) then s.recallL1 line else s) = s.sansMem := by
    split
    · exact s.sansMem_recallL1 line
    · rfl
  rw [State.settle]
  split
  · split
    · exact hrecall
    · exact (State.sansMem_writeBackL2 ..).trans hrecall
  · exact hrecall

@[simp] theorem State.sansMem_recordHolder (line : ℕ) (h : Holder) : (s.recordHolder line h).sansMem = s.sansMem := by
  have hclean : State.sansMem (match s.l1Dirty line, h with
      | some e, .l1 c => if e.lvl == Lvl.l1 c then s else s.cleanL1 line
      | some _, _ => s.cleanL1 line
      | none, _ => s) = s.sansMem := by
    split
    · split
      · rfl
      · exact s.sansMem_cleanL1 line
    · exact s.sansMem_cleanL1 line
    · rfl
  exact hclean

@[simp] theorem State.sansMem_fetchShared (die key pa : ℕ) : (s.fetchShared die key pa).sansMem = s.sansMem := by
  rw [State.fetchShared]
  split
  · split <;> simp
  · simp

@[simp] theorem State.sansMem_record (core key pa : ℕ) : (s.record core key pa).sansMem = s.sansMem := by
  rw [State.record]
  split <;> simp

@[simp] theorem State.sansMem_takeLine (key line : ℕ) : (s.takeLine key line).sansMem = s.sansMem :=
  (State.sansMem_recallL1 ..).trans (State.sansMem_settle ..)

@[simp] theorem State.sansMem_homeWrite (key : ℕ) (cells : List Host.Cell) : (s.homeWrite key cells).sansMem = s.sansMem := by
  cases cells with
  | nil => rfl
  | cons c t =>
    rw [State.homeWrite]
    split <;> simp

@[simp] theorem State.sansMem_homeWriteBytes (key pa : ℕ) (bytes : List Byte) : (s.homeWriteBytes key pa bytes).sansMem = s.sansMem :=
  foldl_keeps State.sansMem (fun _ _ => State.sansMem_homeWrite ..) _ _

@[simp] theorem State.sansMem_rawPut (cells : List Host.Cell) : (s.rawPut cells).sansMem = s.sansMem := by
  cases cells with
  | nil => rfl
  | cons c t =>
    rw [State.rawPut]
    split
    · exact State.sansMem_homeWrite ..
    · exact (s.staleSide (lineOf c.1)).sansMem_recallL1 (lineOf c.1)

@[simp] theorem State.sansMem_rawWrite (pa : ℕ) (bytes : List Byte) : (s.rawWrite pa bytes).sansMem = s.sansMem :=
  foldl_keeps State.sansMem (fun _ _ => State.sansMem_rawPut ..) _ _

@[simp] theorem State.sansMem_grantWrite (core key : ℕ) (cells : List Host.Cell) : (s.grantWrite core key cells).sansMem = s.sansMem := by
  cases cells with
  | nil => rfl
  | cons c t =>
    rw [State.grantWrite]
    split
    · have hrecall (u : State) : State.sansMem (if u.l1Dirty (lineOf c.1) = u.cline (.l1 core) (lineOf c.1) then u else u.recallL1 (lineOf c.1)) =
          u.sansMem := by
        split
        · rfl
        · exact u.sansMem_recallL1 _
      exact (State.sansMem_putL1 ..).trans ((State.sansMem_touchL2 ..).trans ((hrecall _).trans (State.sansMem_settle ..)))
    · dsimp only
      split
      · simp
      · split <;> simp

@[simp] theorem State.sansMem_ownLines (lines : List ℕ) : (s.ownLines lines).1.sansMem = s.sansMem := by
  unfold State.ownLines
  exact foldl_keeps (fun r : State × Bool => r.1.sansMem) (fun _ _ => by rfl) lines (s, false)

@[simp] theorem State.sansMem_awaitPeer (die pa : ℕ) : (s.awaitPeer die pa).sansMem = s.sansMem := by
  rw [State.awaitPeer]; split <;> rfl

end

/-! ### Translation -/

section
variable (s : State)

@[simp] theorem State.sansMem_tlbFill (e : TlbEntry) : (s.tlbFill e).sansMem = s.sansMem := rfl

@[simp] theorem State.sansMem_ownCompanion (die comp mask : ℕ) : (s.ownCompanion die comp mask).2.sansMem = s.sansMem := by
  rw [State.ownCompanion]
  split
  · rfl
  · split
    · exact s.sansMem_awaitPeer die comp
    · rfl

@[simp] theorem State.sansMem_orCompanion (comp mask : ℕ) : (s.orCompanion comp mask).sansMem = s.sansMem := by
  rw [State.orCompanion]
  split
  · rfl
  · exact State.sansMem_rawWrite ..

@[simp] theorem State.sansMem_fillFrom (x : Acx) (e : TlbEntry) : (s.fillFrom x e).2.sansMem = s.sansMem := by
  have hor := s.sansMem_orCompanion e.comp (s.fillMask e)
  unfold State.fillFrom
  extract_lets u v
  dsimp only
  split
  · exact (State.sansMem_tlbFill ..).trans ((State.sansMem_tlbFill ..).trans hor)
  · exact (State.sansMem_tlbFill ..).trans hor

@[simp] theorem State.sansMem_viaTables (x : Acx) (asid root : ℕ) (acc : Acc) (va : ℕ) :
    (s.viaTables x asid root acc va).2.sansMem = s.sansMem := by
  rw [State.viaTables]
  split
  · split <;> rfl
  · simp only
    split
    · rfl
    · rfl
    · exact State.sansMem_awaitPeer ..
    · rename_i pte comp size _
      have hown := State.sansMem_ownCompanion { s with walks := s.walks ++ (s.walkFrom x.die asid va walkLevels root).2 } x.die comp
        (State.fillMask { s with walks := s.walks ++ (s.walkFrom x.die asid va walkLevels root).2 } (leafEntry x asid va pte comp size))
      split
      · rename_i u hu
        rw [hu] at hown
        exact hown
      · rename_i u hu
        rw [hu] at hown
        exact (State.sansMem_fillFrom ..).trans hown

@[simp] theorem State.sansMem_viaArena (x : Acx) (acc : Acc) (va : ℕ) : (s.viaArena x acc va).2.sansMem = s.sansMem := by
  rw [State.viaArena]
  split
  · rfl
  · simp only
    split
    · rfl
    · split
      · rfl
      · split
        · rfl
        · split <;> rfl

@[simp] theorem State.sansMem_translateAny (x : Acx) (acc : Acc) (va : ℕ) : (s.translateAny x acc va).2.sansMem = s.sansMem := by
  rw [State.translateAny]
  split
  · rfl
  · split
    · exact State.sansMem_viaTables ..
    · split
      · exact State.sansMem_viaArena ..
      · split
        · rfl
        · simp only
          split
          · rfl
          · exact State.sansMem_viaTables ..

@[simp] theorem State.sansMem_translate (x : Acx) (acc : Acc) (va : ℕ) : (s.translate x acc va).2.sansMem = s.sansMem := by
  have hany := s.sansMem_translateAny x acc va
  rw [State.translate]
  split
  · rename_i pa key gen u hu
    rw [hu] at hany
    split
    · exact hany
    · split
      · exact hany
      · split
        · exact hany
        · have hown (e : TlbEntry) := (State.sansMem_ownCompanion u x.die e.comp (2 ^ (8 + x.die))).trans hany
          split <;> rename_i v hv
          · exact (congrArg (fun p : Bool × State => p.2.sansMem) hv).symm.trans (hown _)
          · exact (congrArg (fun p : Bool × State => p.2.sansMem) hv).symm.trans (hown _)
  · exact hany

/-- The same of a translation that is taken apart. -/
theorem State.sansMem_of_translate {u : State} {x : Acx} {acc : Acc} {va : ℕ} {t : Tr} (h : s.translate x acc va = (t, u)) : u.sansMem = s.sansMem :=
  (congrArg (fun p : Tr × State => p.2.sansMem) h).symm.trans (s.sansMem_translate x acc va)

@[simp] theorem State.sansMem_markDirty (x : Acx) (va : ℕ) : (s.markDirty x va).sansMem = s.sansMem := by
  rw [State.markDirty]
  split
  · rfl
  · split
    · rfl
    · exact s.sansMem_orCompanion ..
end

/-! ### What is read from the rest of the state -/

section
variable {s t : State} (h : s.sansMem = t.sansMem)
include h

theorem State.chains_of_sansMem : s.chains = t.chains := by have := congrArg State.chains h; exact this
theorem State.teams_of_sansMem : s.teams = t.teams := by have := congrArg State.teams h; exact this
theorem State.stores_of_sansMem : s.stores = t.stores := by have := congrArg State.stores h; exact this
theorem State.loads_of_sansMem : s.loads = t.loads := by have := congrArg State.loads h; exact this
theorem State.team_of_sansMem (ti : ℕ) : s.team ti = t.team ti := by have := congrArg (fun u : State => u.team ti) h; exact this
theorem State.group_of_sansMem (ti gi : ℕ) : s.group ti gi = t.group ti gi := by have := congrArg (fun u : State => u.group ti gi) h; exact this
theorem State.thread_of_sansMem (ti gi l : ℕ) : s.thread ti gi l = t.thread ti gi l := by have := congrArg (fun u : State => u.thread ti gi l) h; exact this
theorem State.coreOf_of_sansMem (ti gi : ℕ) : s.coreOf ti gi = t.coreOf ti gi := by have := congrArg (fun u : State => u.coreOf ti gi) h; exact this
theorem State.acx_of_sansMem (ti gi : ℕ) : s.acx ti gi = t.acx ti gi := by have := congrArg (fun u : State => u.acx ti gi) h; exact this
theorem State.homeDie_of_sansMem (pa : ℕ) : s.homeDie pa = t.homeDie pa := by have := congrArg (fun u : State => u.homeDie pa) h; exact this
theorem State.frameLive_of_sansMem (gen pa : ℕ) : s.frameLive gen pa = t.frameLive gen pa := by have := congrArg (fun u : State => u.frameLive gen pa) h; exact this
end

end Sys2Proof.Machine
end

section
/-! Starting a node, 15 R334 and 05 R106. -/

namespace Sys2Proof.Machine

section
variable (s : State)

theorem State.queue_modQueue_self (q : ℕ) (f : Queue → Queue) : (s.modQueue q f).queue q = f (s.queue q) := by
  simp [State.queue, State.modQueue, Sparse.get_set]

theorem State.queue_stopQueue_self (q err : ℕ) : (s.stopQueue q err).queue q = { s.queue q with halt := true, err := err } :=
  s.queue_modQueue_self q _

theorem State.queue_failNode (k q err : ℕ) : (s.failNode k q err).queue q = { s.queue q with halt := true, err := err } :=
  (s.cancelArenas k).queue_stopQueue_self q err

theorem State.arenas_failNode (k q err : ℕ) : ∀ a ∈ (s.failNode k q err).arenas, a.node ≠ k := by
  intro a ha
  have hmem : a ∈ s.arenas.filter (·.node != k) := ha
  simpa using (List.mem_filter.mp hmem).2

theorem State.node_failNode {k q err : ℕ} {m : Node} (h : (s.failNode k q err).nodes[k]? = some m) : m.st = .complete ∧ m.terminated = true := by
  have hget : (updAt s.nodes k fun n => { n with st := .complete, terminated := true })[k]? = some m := h
  rw [getElem?_updAt] at hget
  obtain ⟨n, -, rfl⟩ := Option.map_eq_some_iff.mp (by simpa using hget)
  exact ⟨rfl, rfl⟩

theorem State.node_startNode {k : ℕ} {n m : Node} {arenas : List ℕ} (h : (s.startNode k n arenas).nodes[k]? = some m) :
    m.st = .running ∧ m.arenas = arenas := by
  have hget : (updAt s.nodes k fun n => { n with st := .running, arenas := arenas, srcDone := n.total = 0 })[k]? = some m := h
  rw [getElem?_updAt] at hget
  obtain ⟨n, -, rfl⟩ := Option.map_eq_some_iff.mp (by simpa using hget)
  exact ⟨rfl, rfl⟩

/-- What a node's start does of a node that waits at a queue that runs. -/
theorem execNodeStart_waiting {k : ℕ} {n : Node} (hn : s.nodes[k]? = some n) (hst : n.st = .waiting) (hq : s.queueRuns n.q = true) :
    exec (.nodeStart k) s = .next (
      if n.p.after && !s.earlierDone n.q k then s
      else if s.arenasNever n.p then s.failNode k n.q 0x03
      else match s.createArenas k n (areqs n.p) with
        | none => s
        | some (made, u) =>
          match u.writeHandles (n.acx (s.queue n.q).die) n.p.args.toNat made with
          | (.fault, v) => v.failNode k n.q 0x04
          | (.later, v) => { s with invals := v.invals, invalAt := v.invalAt, unanswered := v.unanswered }
          | (.got _, v) => v.startNode k n (made.map fun x => slotKey x.2.die x.2.slot)) := by
  rw [show exec (.nodeStart k) s = execNodeStart k s from rfl]
  simp [execNodeStart, hn, hst, hq] <;> rfl

/-- A node that runs after the earlier ones of its queue has one before it that is not complete. -/
theorem State.early_iff {k : ℕ} {n : Node} : (n.p.after && !s.earlierDone n.q k) = true ↔
    n.p.after = true ∧ ∃ i m, i < k ∧ s.nodes[i]? = some m ∧ m.q = n.q ∧ m.st ≠ .complete := by
  have hdone : s.earlierDone n.q k = false ↔ ∃ i m, i < k ∧ s.nodes[i]? = some m ∧ m.q = n.q ∧ m.st ≠ .complete := by
    simp only [State.earlierDone, List.all_eq_false, List.mem_iff_getElem?, List.getElem?_take]
    constructor
    · rintro ⟨m, ⟨i, hi⟩, hm⟩
      split at hi
      · exact ⟨i, m, ‹_›, hi, by simpa using hm⟩
      · cases hi
    · rintro ⟨i, m, hik, hi, hm⟩
      exact ⟨m, ⟨i, by simpa [hik] using hi⟩, by simpa using hm⟩
  simp [hdone]

/-- The first part of O50: a node starts in its turn, and its teams wait. -/
theorem execNodeStart_spec {k : ℕ} {n : Node} (hn : s.nodes[k]? = some n) (hst : n.st = .waiting) (hq : s.queueRuns n.q = true) :
    let early : Prop := n.p.after = true ∧ ∃ i m, i < k ∧ s.nodes[i]? = some m ∧ m.q = n.q ∧ m.st ≠ .complete
    (early → exec (.nodeStart k) s = .next s) ∧
    (¬early → s.arenasNever n.p = true → ∃ t : State, exec (.nodeStart k) s = .next t ∧ (t.queue n.q).halt = true ∧ (t.queue n.q).err = 0x03 ∧
      t.teams = s.teams ∧ ∀ m, t.nodes[k]? = some m → m.st = .complete ∧ m.terminated = true) ∧
    (¬early → s.arenasNever n.p = false → s.createArenas k n (areqs n.p) = none → exec (.nodeStart k) s = .next s) ∧
    ∀ made u v, ¬early → s.arenasNever n.p = false → s.createArenas k n (areqs n.p) = some (made, u) →
      (u.writeHandles (n.acx (s.queue n.q).die) n.p.args.toNat made = (.later, v) →
        exec (.nodeStart k) s = .next { s with invals := v.invals, invalAt := v.invalAt, unanswered := v.unanswered }) ∧
      (u.writeHandles (n.acx (s.queue n.q).die) n.p.args.toNat made = (.fault, v) → ∃ t : State, exec (.nodeStart k) s = .next t ∧
        (t.queue n.q).halt = true ∧ (t.queue n.q).err = 0x04 ∧ t.teams = v.teams ∧ ∀ a ∈ t.arenas, a.node ≠ k) ∧
      (∀ bs, u.writeHandles (n.acx (s.queue n.q).die) n.p.args.toNat made = (.got bs, v) → v.nodes = s.nodes → ∃ (t : State) (new : List Team),
        exec (.nodeStart k) s = .next t ∧ t.teams = v.teams ++ new ∧ new.length = n.p.nteam.toNat ∧ t.mem = v.mem ∧
        (∀ (i : ℕ) (x : Team), new[i]? = some x → x.num = i ∧ x.node = k ∧ x.place = .waiting ∧ x.scr = n.p.scr.toNat ∧ x.acc0 = 16 * n.p.acc.toNat ∧
          x.capf = n.p.capf ∧ x.groups = [] ∧ x.tried = false) ∧
        ∀ m, t.nodes[k]? = some m → m.st = .running ∧ m.arenas = made.map fun y => y.2.die * 65536 + y.2.slot) := by
  intro early
  have hstep := execNodeStart_waiting s hn hst hq
  have hearly : (n.p.after && !s.earlierDone n.q k) = true ↔ early := s.early_iff
  refine ⟨fun he => ?_, fun he hnever => ?_, fun he hnever hc => ?_, fun made u v he hnever hc => ⟨fun hw => ?_, fun hw => ?_, fun bs hw hnodes => ?_⟩⟩
  · rw [hstep, if_pos (hearly.mpr he)]
  · rw [hstep, if_neg (mt hearly.mp he), if_pos hnever]
    refine ⟨_, rfl, ?_, ?_, rfl, fun m => s.node_failNode⟩ <;> rw [State.queue_failNode]
  · rw [hstep, if_neg (mt hearly.mp he), if_neg (by simp [hnever]), hc]
  · simp only [hstep, if_neg (mt hearly.mp he), hnever, hc, hw, Bool.false_eq_true, if_false]
  · simp only [hstep, if_neg (mt hearly.mp he), hnever, hc, hw, Bool.false_eq_true, if_false]
    refine ⟨_, rfl, ?_, ?_, rfl, v.arenas_failNode k n.q 4⟩ <;> rw [State.queue_failNode]
  · simp only [hstep, if_neg (mt hearly.mp he), hnever, hc, hw, Bool.false_eq_true, if_false]
    refine ⟨_, (List.range n.nteam).map (freshTeam k n), rfl, rfl, by simp [Node.nteam], rfl, fun i x hx => ?_, fun m => v.node_startNode⟩
    obtain ⟨j, hj, rfl⟩ := List.mem_map.mp (List.mem_of_getElem? hx)
    rw [List.getElem?_map] at hx
    obtain ⟨i', hi', hx'⟩ := Option.map_eq_some_iff.mp hx
    rw [List.getElem?_range (by simpa using (List.getElem?_eq_some_iff.mp hi').1)] at hi'
    cases hi'
    have hij : i = j := congrArg Team.num hx'
    exact ⟨hij.symm, rfl, rfl, rfl, rfl, rfl, rfl, rfl⟩
end

/-! ### The order of placement, 15 R338 -/

/-- PRIO of a team's node, 0 where there is none. -/
def State.prioOf (s : State) (ti : ℕ) : ℕ := match s.nodes[(s.team ti).node]? with
  | some n => n.p.prio.toNat
  | none => 0

theorem State.prioOf_le (s : State) (ti : ℕ) : s.prioOf ti ≤ 3 := by
  unfold State.prioOf
  split <;> omega

/-- The place of a team in the order, from its parts. -/
theorem State.placeKey_eq (s : State) (ti : ℕ) : s.placeKey ti =
    ((((if (s.team ti).place = .waiting ∧ (s.team ti).tried = false then 1 else 0) * 4 + (3 - s.prioOf ti)) * 2 +
      if (s.team ti).place = .waiting then 1 else 0) * 2 ^ 32 + (s.team ti).node) * 512 + (s.team ti).num := by
  simp only [State.placeKey, State.prioOf, Bool.and_eq_true, beq_iff_eq, Bool.not_eq_true'] <;> rfl

theorem State.placeKey_order (s : State) (a b : ℕ) (hb : (s.team b).place = .waiting) (hnode : (s.team a).node < 2 ^ 32) (hnum : (s.team a).num < 512) :
    ((s.team b).tried = false → (s.team a).place = .waiting → (s.team a).tried = true → s.placeKey a < s.placeKey b) ∧
    ((s.team a).place ≠ .waiting → (s.team b).tried = false ∨ s.prioOf b ≤ s.prioOf a → s.placeKey a < s.placeKey b) ∧
    ((s.team a).place = .waiting → (s.team a).tried = (s.team b).tried → s.prioOf b < s.prioOf a → s.placeKey a < s.placeKey b) := by
  have hpa := s.prioOf_le a
  have hpb := s.prioOf_le b
  rw [s.placeKey_eq a, s.placeKey_eq b]
  refine ⟨fun htb ha hta => ?_, fun ha hor => ?_, fun ha hta hlt => ?_⟩
  · simp only [hb, ha, hta, htb, and_self, Bool.true_eq_false, and_false, if_true, if_false]
    omega
  · rcases hor with htb | hle
    · simp only [hb, ha, htb, false_and, and_self, if_true, if_false]
      omega
    · simp only [hb, ha, true_and, false_and, if_true, if_false]
      split <;> omega
  · simp only [hb, ha, hta, true_and, if_true]
    split <;> omega

end Sys2Proof.Machine
end

section
/-! Placing a team, 15 R338. -/

namespace Sys2Proof.Machine

section
variable (s : State)

/-! ### The carve-out of a placed team, 06 R119 -/

theorem State.sansMem_setCarve (core scr : ℕ) :
    (s.setCarve core scr).sansMem = { s.sansMem with carve := Sparse.set 0 s.carve core scr } := by
  unfold State.setCarve
  exact (foldl_keeps State.sansMem (fun u (e : CLine) => u.sansMem_loseL1 core e.line) _ _).trans rfl

theorem State.carve_setCarve (core scr : ℕ) : (s.setCarve core scr).carve = Sparse.set 0 s.carve core scr := by
  have hcarve := congrArg State.carve (s.sansMem_setCarve core scr)
  exact hcarve

@[simp] theorem State.teams_setCarve (core scr : ℕ) : (s.setCarve core scr).teams = s.teams := by
  have hteams := congrArg State.teams (s.sansMem_setCarve core scr)
  exact hteams

/-- The carve-outs after those of several cores are set. -/
theorem State.carve_setCarves (scr c : ℕ) (cores : List ℕ) :
    Sparse.get 0 (cores.foldl (fun s c => s.setCarve c scr) s).carve c = if c ∈ cores then scr else Sparse.get 0 s.carve c := by
  induction cores generalizing s with
  | nil => simp
  | cons c' cores ih =>
    rw [List.foldl_cons, ih, State.carve_setCarve, Sparse.get_set]
    by_cases hc : c = c' <;> simp [hc]

/-! ### The spot that a team takes -/

variable {s} {ti : ℕ} {n : Node}

/-- What a fresh team needs: of each core register units, of its cluster rows. -/
theorem State.need_fresh (hn : s.nodes[(s.team ti).node]? = some n) (hp : (s.team ti).place = .waiting) :
    ∃ units : List ℕ, s.need ti = ⟨(s.team ti).node, n.p.pair, (s.team ti).scr, units, (s.team ti).acc0⟩ ∧ units.length = if n.p.pair then 2 else 1 := by
  cases hpair : n.p.pair <;> simp [State.need, hn, hp, hpair]

/-- A spot is a core, or a pair. -/
theorem mem_dieSpots {nd : Need} {die : ℕ} {cores : List ℕ} (h : cores ∈ dieSpots nd die) :
    ∃ c, cores = if nd.pair then [c, c + 1] else [c] := by
  obtain ⟨i, -, rfl⟩ := List.mem_map.mp h
  exact ⟨_, rfl⟩

theorem State.mem_spots {cores : List ℕ} (h : cores ∈ s.spots ti) : ∃ c, cores = if (s.need ti).pair then [c, c + 1] else [c] := by
  obtain ⟨die, -, hdie⟩ := List.mem_flatMap.mp h
  exact mem_dieSpots hdie

/-- What placing a team now says of it, of those ahead of it, and of the spot. -/
theorem State.of_placeNow {cores : List ℕ} (h : s.placeNow ti = some cores) :
    s.waitsForCore ti = true ∧
    (∀ o, o < s.teams.length → s.waitsForCore o = true → s.placeKey o < s.placeKey ti → s.spot o = none) ∧
    cores ∈ s.spots ti ∧ s.spotFits ti (s.need ti) cores = true := by
  unfold State.placeNow at h
  split at h
  · cases h
  · rename_i hwait
    split at h
    · cases h
    · rename_i hahead
      refine ⟨by simpa using hwait, fun o ho how hkey => ?_, List.mem_of_find?_eq_some h, List.find?_some h⟩
      by_contra hspot
      exact hahead (List.any_eq_true.mpr ⟨o, List.mem_range.mpr ho, by simp [how, hkey, Option.isSome_iff_ne_none, hspot]⟩)

/-- A core of a spot that fits may hold the team. -/
theorem State.coreFits_of_coresFit {nd : Need} {cores : List ℕ} (hlen : cores.length = nd.units.length) (h : s.coresFit nd cores = true)
    {c : ℕ} (hc : c ∈ cores) : ∃ units, s.coreFits nd c units = true := by
  obtain ⟨i, hi, rfl⟩ := List.mem_iff_getElem.mp hc
  refine ⟨nd.units[i], ?_⟩
  have hmem : (cores[i], nd.units[i]) ∈ cores.zip nd.units :=
    List.mem_iff_getElem.mpr ⟨i, by simp [hi, ← hlen], by simp⟩
  exact List.all_eq_true.mp h _ hmem

/-- What it takes that a core may hold a team (R338). -/
theorem State.of_coreFits {nd : Need} {c units : ℕ} (h : s.coreFits nd c units = true) :
    c % 96 ≠ 0 ∧ c ∉ s.module.outCores ∧ c / 4 ∉ s.module.outClus ∧
    (s.teams.filter fun o => decide (o.place = .resident ∧ c ∈ o.cores)).length ≤ 3 ∧
    ∀ o ∈ s.teams, o.place = .resident → c ∈ o.cores → o.node ≠ nd.node ∧ nd.scr = 0 ∧ Sparse.get 0 s.carve c = 0 := by
  simp only [State.coreFits, Bool.and_eq_true, Bool.not_eq_true', List.contains_eq_mem, decide_eq_true_eq, decide_eq_false_iff_not,
    List.all_eq_true, isFwCore, cluOfCore, beq_eq_false_iff_ne, bne_iff_ne] at h
  obtain ⟨⟨⟨⟨⟨⟨hfw, hout⟩, hclu⟩, hthree⟩, halone⟩, hgrid⟩, -⟩ := h
  have hon (o : Team) : o ∈ s.teamsOn c ↔ o ∈ s.teams ∧ o.place = .resident ∧ c ∈ o.cores := by
    simp [State.teamsOn]
  have hlen : (s.teams.filter fun o => decide (o.place = .resident ∧ c ∈ o.cores)) = s.teamsOn c :=
    List.filter_congr fun o _ => by simp [beq_eq_decide]
  refine ⟨hfw, hout, hclu, hlen ▸ hthree, fun o ho hres hco => ?_⟩
  have hmem : o ∈ s.teamsOn c := (hon o).mpr ⟨ho, hres, hco⟩
  have hsome : (s.teamsOn c).isEmpty = false := by
    cases hl : s.teamsOn c with
    | nil => simp [hl] at hmem
    | cons => rfl
  have hzero : nd.scr = 0 ∧ Sparse.get 0 s.carve c = 0 := by simpa [hsome] using halone
  exact ⟨hgrid o hmem, hzero⟩

/-- A team that waits for a core belongs to a node that runs. -/
theorem State.running_of_waitsForCore (hn : s.nodes[(s.team ti).node]? = some n) (hp : (s.team ti).place = .waiting)
    (h : s.waitsForCore ti = true) : n.st = .running := by
  simpa [State.waitsForCore, hp, hn] using h

/-! ### The placed team -/

/-- Before what follows in its grid, a fresh team stands on its cores as it is placed. -/
theorem State.placeFresh_eq {cores : List ℕ} (hlt : ti < s.teams.length) :
    ∃ (u : State) (slot : ℕ), s.placeFresh ti n cores = u.settleGrid (s.team ti).node ∧
      u.team ti = (s.team ti).placed n slot cores (addrs s.nextId (s.team ti).acc0) ∧ ∀ c ∈ cores, Sparse.get 0 u.carve c = (s.team ti).scr := by
  set v : State := cores.foldl (fun s' c => s'.setCarve c (s.team ti).scr) { s with nextId := s.nextId + (s.team ti).acc0 } with hv
  have hteams : v.teams = s.teams := by
    rw [hv, foldl_keeps State.teams fun (u : State) c => u.teams_setCarve c _]
  refine ⟨_, v.slotOn cores, rfl, ?_, fun c hc => ?_⟩
  · have hltv : ti < v.teams.length := by rw [hteams]; exact hlt
    rw [State.team_modTeam_self _ hltv, show v.team ti = s.team ti from congrArg (fun l : List Team => l.getD ti .blank) hteams]
  · exact (State.carve_setCarves ..).trans (if_pos hc)

/-- The groups of a placed team (08 R170, 16 R351). -/
theorem Team.groups_placed (x : Team) (slot : ℕ) (cores rows : List ℕ) :
    (x.placed n slot cores rows).groups.length = n.p.ngrp.toNat + 1 ∧
    ∀ g ∈ (x.placed n slot cores rows).groups, g.level = (if n.fn = 0 ∧ n.asid = 0 then .k else .u) ∧ g.blocks = n.p.regs.toNat ∧
      g.lanes.length = 16 * 2 ^ n.p.gw.toNat ∧
      ∀ l ∈ g.lanes, l.pc = n.p.entry &&& 0xFFFFFFFFFFFFFFF8 ∧ l.regs = [] ∧ l.qf = [] ∧ l.lr = 0 ∧ l.claim = n.p.regs.toNat ∧
        l.exited = false ∧ l.hold = .none := by
  refine ⟨by simp [Team.placed, groupsOf], fun g hg => ?_⟩
  obtain ⟨gi, -, rfl⟩ := List.mem_map.mp hg
  refine ⟨by simp [freshGroup, Node.level], rfl, List.length_replicate .., fun l hl => ?_⟩
  obtain rfl := List.eq_of_mem_replicate hl
  exact ⟨rfl, rfl, rfl, rfl, rfl, rfl, rfl⟩

theorem execTeamPlacement_fresh {cores : List ℕ} (hn : s.nodes[(s.team ti).node]? = some n) (hp : (s.team ti).place = .waiting)
    (h : s.placeNow ti = some cores) : exec (.teamPlacement ti) s = .next (s.placeFresh ti n cores) := by
  rw [show exec (.teamPlacement ti) s = execTeamPlacement ti s from rfl]
  simp [execTeamPlacement, hn, hp, h]
end

/-- Settles O50: a node starts by the cases of its launch, the order of placement is the order of `placeKey`'s digits, and a team takes the first spot
that fits. -/
theorem nodesStartedAndTeamsPlaced : Obligations.NodesStartedAndTeamsPlaced := by
  refine ⟨fun s k n hn hst hq => execNodeStart_spec s hn hst hq, fun s a b hb hnode hnum => s.placeKey_order a b hb hnode hnum, ?_⟩
  intro s ti n cores hn hp hnow hlt t
  obtain ⟨hwait, hahead, hspot, hfits⟩ := State.of_placeNow hnow
  obtain ⟨units, hneed, hunits⟩ := State.need_fresh hn hp
  obtain ⟨c, hcores⟩ := State.mem_spots hspot
  rw [hneed] at hcores hfits
  obtain ⟨hcfit, hrows⟩ := Bool.and_eq_true_iff.mp hfits
  have hlen : cores.length = units.length := by
    rw [hcores, hunits]
    cases n.p.pair <;> rfl
  obtain ⟨u, slot, hu, hteam, hcarve⟩ := State.placeFresh_eq (n := n) (cores := cores) hlt
  obtain ⟨hgroups, hlanes⟩ := Team.groups_placed (n := n) (s.team ti) slot cores (addrs s.nextId (s.team ti).acc0)
  refine ⟨State.running_of_waitsForCore hn hp hwait, hahead, fun c' hc' => ?_, ?_, fun hpair => ⟨c, by simpa [hpair] using hcores⟩,
    fun hpair => ⟨c, by simpa [hpair] using hcores⟩, u, ?_, ?_⟩
  · obtain ⟨_, hfit⟩ := State.coreFits_of_coresFit hlen hcfit hc'
    exact State.of_coreFits hfit
  · simpa [State.rowsFit, hp, cluOfCore] using hrows
  · rw [execTeamPlacement_fresh hn hp hnow, hu]
  · intro x
    rw [show x = _ from hteam]
    exact ⟨rfl, rfl, rfl, hgroups, rfl, hcarve, hlanes⟩

end Sys2Proof.Machine
end

section
/-! A prefetch that is dropped, 06 R135. -/

namespace Sys2Proof.Machine

/-- A state whose shared TLB of die 0 has an entry without R for page 0: a load there fails its check, and fills the micro-TLB of its core all the same. -/
def State.noRights : State :=
  { State.reset with
    tlb := [{ die := 0, core := none, asid := 0, va := 0, size := 65536, pa := 0, r := false, w := false, x := false, u := true, rd := false,
              key := 0, comp := 0, dirtySet := true, slot := 0, gen := 0 }] }

theorem State.translate_noRights : (State.noRights.translate (State.noRights.acx 0 0) .load 0).1 = .bad 0x06 ∧
    (State.noRights.translate (State.noRights.acx 0 0) .load 0).2.tlb.length = 2 := by decide

/-- A lane whose address fails its check leaves the state from before its translation. -/
theorem prefetchLane_noRights (c : Cur) (hti : c.ti = 0) (hgi : c.gi = 0) : prefetchLane true c .noRights 0 = .noRights := by
  obtain ⟨hbad, -⟩ := State.translate_noRights
  rw [prefetchLane, hti, hgi]
  split
  · rename_i heq
    rw [heq] at hbad
    cases hbad
  · rfl

/-- Refutes O24: a prefetch whose address does not translate leaves the state from before its translation, where the statement has the one after it. The
translation below fills a micro-TLB before it fails: two entries, of which the dropped prefetch keeps one. -/
theorem not_cacheControlPrefetchAndFenceResults : ¬ Obligations.CacheControlPrefetchAndFenceResults := by
  rintro ⟨hprefetch, -⟩
  obtain ⟨hbad, htwo⟩ := State.translate_noRights
  obtain ⟨-, -, -, -, hdropped, -⟩ := hprefetch .always (.imm 0) (.imm 0) .grp
  have hfails (pa key gen : ℕ) (u : State) : State.noRights.translate (State.noRights.acx 0 0) .load 0 ≠ (.ok pa key gen, u) := fun h => by
    rw [h] at hbad
    cases hbad
  have hkept := hdropped true .noRights ⟨0, 0, [], 0, 1, 0⟩ 0 hfails
  rw [prefetchLane_noRights _ rfl rfl] at hkept
  rw [← hkept] at htwo
  exact absurd htwo (by decide)

end Sys2Proof.Machine
end

section
/-! The chains of the copy engines, and the ranges that a burst maps, reads and writes, 07 R137 to R159. -/

namespace Sys2Proof.Machine

/-! ### Chains that change -/

section
variable {s : State} {k : Chain} {id core : ℕ}

/-- Two changes of one chain are one change. -/
theorem State.modChain_modChain (s : State) (id : ℕ) {f g : Chain → Chain} (hf : ∀ j, (f j).id = j.id) :
    (s.modChain id f).modChain id g = s.modChain id fun j => g (f j) := by
  refine congrArg (fun l : List Chain => { s with chains := l }) ((List.map_map ..).trans (List.map_congr_left fun j _ => ?_))
  by_cases hj : j.id = id <;> simp [hj, hf]

/-- A chain changes by what is done to it alone. -/
theorem State.modChain_congr {f g : Chain → Chain} (hone : ∀ j ∈ s.chains, j.id = k.id → j = k) (h : f k = g k) :
    s.modChain k.id f = s.modChain k.id g := by
  refine congrArg (fun l : List Chain => { s with chains := l }) (List.map_congr_left fun j hj => ?_)
  by_cases he : j.id = k.id
  · rw [hone j hj he]
    simp [h]
  · simp [he]

theorem State.modChain_id (s : State) (id : ℕ) : (s.modChain id fun j => j) = s := by
  have hchains : updIf s.chains (·.id == id) (fun j => j) = s.chains := by simp [updIf]
  rw [State.modChain, hchains]

/-- What a change of one chain leaves at the head of a core's queue. -/
theorem State.activeChain_modChain {f : Chain → Chain} (hf : ∀ j, (f j).core = j.core) (h : s.activeChain core = some k) :
    (s.modChain k.id f).activeChain core = some (f k) := by
  have hsame : ((fun j : Chain => j.core == core) ∘ fun j => if (j.id == k.id) = true then f j else j) = fun j => j.core == core :=
    funext fun j => by
      rw [Function.comp_apply]
      split <;> simp only [hf]
  rw [State.activeChain] at h
  rw [State.activeChain, State.modChain, updIf, List.find?_map, hsame, h, Option.map_some, if_pos (beq_self_eq_true _)]

theorem State.activeChain_of_chains {t : State} (h : t.chains = s.chains) (core : ℕ) : t.activeChain core = s.activeChain core :=
  congrArg (List.find? fun j : Chain => j.core == core) h

/-- The chain of a burst afterwards: bytes counted, and the record done or the place in it moved on (R139, R157). -/
def State.afterBurst (s : State) (k : Chain) (n m : ℕ) (last : Bool) : State :=
  let s := s.modChain k.id fun k => { k with count := k.count + m }
  if last then s.modChain k.id fun k => { k with recOff := k.recOff + 32, now := none, p0 := 0, p1 := 0, p2 := 0, dests := [] }
  else s.modChain k.id fun k => { k with p0 := k.p0 + n }

theorem State.counted_live (s : State) (k : Chain) (n : ℕ) : s.counted k n false = s.modChain k.id fun k => { k with count := k.count + n } := rfl

/-- A burst that ends its record or moves on in it by its own place. -/
theorem State.afterBurst_eq (s : State) (k : Chain) (n m : ℕ) (last : Bool) : (if last then (s.counted k m false).nextRec k.id
    else (s.counted k m false).modChain k.id fun k => { k with p0 := k.p0 + n }) = s.afterBurst k n m last := rfl

/-- The same where the place that it moves to is known from before. -/
theorem State.afterBurst_of_place (hone : ∀ j ∈ s.chains, j.id = k.id → j = k) (m : ℕ) {nr : ℕ} :
    (if k.p0 + 1 < nr then (s.counted k m false).modChain k.id fun j => { j with p0 := k.p0 + 1 } else (s.counted k m false).nextRec k.id) =
      s.afterBurst k 1 m (decide (nr ≤ k.p0 + 1)) := by
  rw [← s.afterBurst_eq, s.counted_live]
  by_cases h : k.p0 + 1 < nr
  · rw [if_pos h, decide_eq_false (by omega), if_neg (by decide)]
    have hid (j : Chain) : { j with count := j.count + m }.id = j.id := rfl
    rw [s.modChain_modChain k.id hid, s.modChain_modChain k.id hid]
    exact State.modChain_congr hone rfl
  · rw [if_neg h, decide_eq_true (by omega), if_pos rfl]

theorem any_dead_eq_false {ps : List Piece} (h : ∀ p ∈ ps, p.dead = false) : ps.any (·.dead) = false := by
  simpa using h
end

/-! ### Ranges -/

section
variable (s : State) (k : Chain)

@[simp] theorem State.sansMem_mapPages (x : Acx) (w : Bool) (pages : List (ℕ × ℕ)) : (s.mapPages x w pages).2.sansMem = s.sansMem := by
  induction pages generalizing s with
  | nil => rfl
  | cons page rest ih =>
    obtain ⟨va, n⟩ := page
    rw [State.mapPages]
    split
    · exact s.sansMem_of_translate ‹_›
    · exact s.sansMem_of_translate ‹_›
    · exact s.sansMem_of_translate ‹_›
    · rename_i u hu
      have hrest := (ih u).trans (s.sansMem_of_translate hu)
      split
      · split
        · rename_i hm
          rw [hm] at hrest
          exact hrest
        · exact hrest
      · exact s.sansMem_of_translate hu
    · rename_i u hu
      have hrest := (ih u).trans (s.sansMem_of_translate hu)
      split
      · exact s.sansMem_of_translate hu
      · split
        · rename_i hm
          rw [hm] at hrest
          exact hrest
        · exact hrest

@[simp] theorem State.sansMem_mapRange (sp w : Bool) (addr n : ℕ) : (s.mapRange k sp w addr n).2.sansMem = s.sansMem := by
  rw [State.mapRange]
  split
  · rfl
  · have hpages := s.sansMem_mapPages (s.chainAcx k) w (pagePieces (addr % 2 ^ 64) n)
    dsimp only
    split
    · split
      · exact (foldl_keeps State.sansMem (fun (u : State) p => u.sansMem_markDirty ..) _ _).trans hpages
      · exact hpages
    · exact hpages

theorem State.sansMem_of_mapRange {sp w : Bool} {addr n : ℕ} {m : Mapped} {u : State} (h : s.mapRange k sp w addr n = (m, u)) : u.sansMem = s.sansMem :=
  (congrArg (fun p : Mapped × State => p.2.sansMem) h).symm.trans (s.sansMem_mapRange k sp w addr n)

@[simp] theorem State.sansMem_reachRanges (rd wr : List ℕ) : (s.reachRanges k rd wr).2.sansMem = s.sansMem := by
  rw [State.reachRanges, State.tryAccess]
  split
  · exact s.sansMem_ownLines wr
  · rfl

theorem State.sansMem_of_reachRanges {rd wr : List ℕ} {b : Bool} {u : State} (h : s.reachRanges k rd wr = (b, u)) : u.sansMem = s.sansMem :=
  (congrArg (fun p : Bool × State => p.2.sansMem) h).symm.trans (s.sansMem_reachRanges k rd wr)

theorem State.sansMem_settles (key : ℕ) (lines : List ℕ) : (lines.foldl (fun s l => s.settle l key) s).sansMem = s.sansMem :=
  foldl_keeps State.sansMem (fun (u : State) l => u.sansMem_settle l key) lines s

@[simp] theorem State.sansMem_readPieces (sp : Bool) (ps : List Piece) : (s.readPieces k sp ps).2.sansMem = s.sansMem := by
  induction ps generalizing s with
  | nil => rfl
  | cons p rest ih =>
    have hread : State.sansMem (if p.dead then (List.replicate p.len none, s)
        else if sp then ((scratchBytes (s.chainScratch k) p.addr p.len).map some, s)
        else
          let u := (dedupNat ((addrs p.addr p.len).map lineOf)).foldl (fun s l => s.settle l p.key) s
          ((u.cohBytes p.key p.addr p.len).map some, u)).2 = s.sansMem := by
      split
      · rfl
      · split
        · rfl
        · exact s.sansMem_settles p.key _
    exact (ih _).trans hread

theorem State.sansMem_of_readPieces {sp : Bool} {ps : List Piece} {data : List (Option Byte)} {u : State} (h : s.readPieces k sp ps = (data, u)) :
    u.sansMem = s.sansMem :=
  (congrArg (fun p : List (Option Byte) × State => p.2.sansMem) h).symm.trans (s.sansMem_readPieces k sp ps)

/-- Data written over a range changes no chain. -/
@[simp] theorem State.chains_writePieces (sp : Bool) (ps : List Piece) (data : List (Option Byte)) : (s.writePieces k sp ps data).2.chains = s.chains := by
  induction ps generalizing s data with
  | nil => rfl
  | cons p rest ih =>
    rw [State.writePieces]
    refine (ih _ _).trans ?_
    split
    · rfl
    · exact State.chains_of_sansMem (foldl_keeps State.sansMem (fun (u : State) cs => u.sansMem_homeWrite p.key cs) _ s)

theorem State.chains_of_writePieces {sp : Bool} {ps : List Piece} {data : List (Option Byte)} {m : ℕ} {u : State}
    (h : s.writePieces k sp ps data = (m, u)) : u.chains = s.chains :=
  (congrArg (fun p : ℕ × State => p.2.chains) h).symm.trans (s.chains_writePieces k sp ps data)

/-- A range of a scratchpad is there at once. -/
theorem State.mapRange_scratch (w : Bool) (addr n : ℕ) : s.mapRange k true w addr n = (.ok [⟨addr, n, 0, 0, false⟩], s) := rfl

theorem State.reachRanges_scratch (ps qs : List Piece) : s.reachRanges k (pieceLines true ps) (pieceLines true qs) = (true, s) := rfl
end

end Sys2Proof.Machine
end

section
/-! What one burst of a data record does to the state, 07 R145 to R151, R154, R157, R158. -/

namespace Sys2Proof.Machine

section
variable {s : State} {k : Chain} {core : ℕ} (ha : s.activeChain core = some k) (hst : k.st = .walking)

/-! ### The burst of each record -/

section
include ha hst

theorem copyBurst_move {c : ℕ} {r : MoveRec} (hnow : k.now = some (.move c r)) : exec (.copyBurst core) s = .next (moveBurst s k r) := by
  rw [show exec (.copyBurst core) s = execCopyBurst core s from rfl, execCopyBurst, ha]
  simp only [hst, hnow]

theorem copyBurst_mcast {c : ℕ} {r : McastRec} (hnow : k.now = some (.mcast c r)) : exec (.copyBurst core) s = .next (mcastBurst s k r) := by
  rw [show exec (.copyBurst core) s = execCopyBurst core s from rfl, execCopyBurst, ha]
  simp only [hst, hnow]

theorem copyBurst_conv {c : ℕ} {r : ConvRec} (hnow : k.now = some (.conv c r)) : exec (.copyBurst core) s = .next (convBurst s k r) := by
  rw [show exec (.copyBurst core) s = execCopyBurst core s from rfl, execCopyBurst, ha]
  simp only [hst, hnow]

theorem copyBurst_csend {c : ℕ} {r : CsendRec} (hnow : k.now = some (.csend c r)) : exec (.copyBurst core) s = .next (csendBurst s k r) := by
  rw [show exec (.copyBurst core) s = execCopyBurst core s from rfl, execCopyBurst, ha]
  simp only [hst, hnow]

theorem copyBurst_sample {c : ℕ} {r : SampleRec} (hnow : k.now = some (.sample c r)) : exec (.copyBurst core) s = .next (sampleBurst s k r) := by
  rw [show exec (.copyBurst core) s = execCopyBurst core s from rfl, execCopyBurst, ha]
  simp only [hst, hnow]
end

/-! ### Its length (07 R158; log 64) -/

theorem moveLen_eq (r : MoveRec) (k : Chain) : moveLen r k =
    if r.dsp = true ∧ 4096 < r.len0.toNat - k.p0 then 4096 - (((moveDst r k k.p1 k.p2 + k.p0) % 2 ^ 64).toNat + 4096) % 8
    else min 4096 (r.len0.toNat - k.p0) := by
  rw [moveLen, burstBytes, ← moveTo]
  by_cases hlong : 4096 < r.len0.toNat - k.p0
  · rw [show min 4096 (r.len0.toNat - k.p0) = 4096 by omega]
    cases r.dsp <;> simp [hlong]
  · rw [show min 4096 (r.len0.toNat - k.p0) = r.len0.toNat - k.p0 by omega]
    cases r.dsp <;> simp [hlong]

theorem ewidth_cases (f : EFmt) : ewidth f = 4 ∨ ewidth f = 8 ∨ ewidth f = 16 ∨ ewidth f = 32 := by
  cases f <;> simp [ewidth]

/-- The bytes of some elements hold them all. -/
theorem le_elemBytes_div (f : EFmt) (n : ℕ) : n ≤ elemBytes f n * 8 / ewidth f := by
  rw [elemBytes]
  rcases ewidth_cases f with h | h | h | h <;> rw [h] <;> omega

theorem elemBytes_lt_of_1024_lt (f : EFmt) {n : ℕ} (h : 1024 < n) : elemBytes f 1024 < elemBytes f n := by
  simp only [elemBytes]
  rcases ewidth_cases f with hw | hw | hw | hw <;> rw [hw] <;> omega

theorem elemBytes_1024_div (f : EFmt) (x : ℕ) : (elemBytes f 1024 - x) * 8 / ewidth f ≤ 1024 := by
  simp only [elemBytes]
  rcases ewidth_cases f with hw | hw | hw | hw <;> rw [hw] <;> omega

theorem convLen_eq (r : ConvRec) (k : Chain) : convLen r k =
    if r.dsp = true ∧ 1024 < r.cnt.toNat - k.p0 then
      (elemBytes r.dfmt 1024 - ((k.db + r.dst).toNat + elemBytes r.dfmt k.p0 + elemBytes r.dfmt 1024) % 8) * 8 / ewidth r.dfmt
    else min 1024 (r.cnt.toNat - k.p0) := by
  have hwhole (n : ℕ) : min n (elemBytes r.dfmt n * 8 / ewidth r.dfmt) = n := min_eq_left (le_elemBytes_div r.dfmt n)
  simp only [convLen, burstBytes, convDst]
  by_cases hlong : 1024 < r.cnt.toNat - k.p0
  · rw [show min 1024 (r.cnt.toNat - k.p0) = 1024 by omega]
    cases hd : r.dsp
    · simpa using hwhole 1024
    · simp only [elemBytes_lt_of_1024_lt r.dfmt hlong, hlong, decide_true, Bool.and_self, if_true, and_self]
      exact min_eq_right (elemBytes_1024_div r.dfmt _)
  · rw [show min 1024 (r.cnt.toNat - k.p0) = r.cnt.toNat - k.p0 by omega]
    simpa [hlong] using hwhole (r.cnt.toNat - k.p0)

/-! ### Bursts of any spaces -/

/-- A chain after `n` bytes of a MOVE's row: further in the row, at the next row or plane, or past the record. -/
def moveOnward (r : MoveRec) (k : Chain) (n : ℕ) (j : Chain) : Chain :=
  if k.p0 + n < r.len0.toNat then { j with p0 := k.p0 + n, p1 := k.p1, p2 := k.p2 }
  else if k.p1 + 1 < r.cnt1.toNat then { j with p0 := 0, p1 := k.p1 + 1, p2 := k.p2 }
  else if k.p2 + 1 < r.cnt2.toNat then { j with p0 := 0, p1 := 0, p2 := k.p2 + 1 }
  else j.goto (j.recOff + 32)

theorem modChain_moveOnward (r : MoveRec) (k : Chain) (n : ℕ) (s : State) : s.modChain k.id (moveOnward r k n) =
    if k.p0 + n < r.len0.toNat then s.modChain k.id fun j => { j with p0 := k.p0 + n, p1 := k.p1, p2 := k.p2 }
    else if k.p1 + 1 < r.cnt1.toNat then s.modChain k.id fun j => { j with p0 := 0, p1 := k.p1 + 1, p2 := k.p2 }
    else if k.p2 + 1 < r.cnt2.toNat then s.modChain k.id fun j => { j with p0 := 0, p1 := 0, p2 := k.p2 + 1 }
    else s.nextRec k.id := by
  unfold moveOnward
  split
  · rfl
  · split
    · rfl
    · split <;> rfl

/-- A MOVE burst whose ranges are mapped and reached. -/
theorem moveBurst_eq {r : MoveRec} {sps dps : List Piece} {s1 s2 s3 : State}
    (hsrc : s.mapRange k r.ssp false (moveFrom r k) (moveLen r k) = (.ok sps, s1))
    (hdst : s1.mapRange k r.dsp true (moveTo r k) (moveLen r k) = (.ok dps, s2))
    (hreach : s2.reachRanges k (pieceLines r.ssp sps) (pieceLines r.dsp dps) = (true, s3)) (hlive : ∀ p ∈ sps ++ dps, p.dead = false) :
    let copied : ℕ × State := if r.ssp = r.dsp then s3.copyBytes k r.ssp (moveLen r k) sps dps
      else (s3.readPieces k r.ssp sps).2.writePieces k r.dsp dps (s3.readPieces k r.ssp sps).1
    moveBurst s k r = (copied.2.modChain k.id fun k => { k with count := k.count + copied.1 }).modChain k.id (moveOnward r k (moveLen r k)) := by
  intro copied
  rw [modChain_moveOnward, moveBurst]
  simp only [hsrc, hdst, hreach, any_dead_eq_false hlive, beq_iff_eq, moveNext]
  by_cases h0 : k.p0 + moveLen r k < r.len0.toNat
  · simp only [h0, if_true]
    rfl
  · by_cases h1 : k.p1 + 1 < r.cnt1.toNat
    · simp only [h0, h1, if_true, if_false]
      rfl
    · by_cases h2 : k.p2 + 1 < r.cnt2.toNat
      · simp only [h0, h1, h2, if_true, if_false]
        rfl
      · simp only [h0, h1, h2, if_false]
        rfl

/-- An MCAST burst whose source is read. -/
theorem mcastBurst_eq {r : McastRec} {ps : List Piece} {s1 s2 s3 : State} {data : List (Option Byte)}
    (hsrc : s.mapRange k r.ssp false r.src.toNat r.len.toNat = (.ok ps, s1)) (hreach : s1.reachRanges k (pieceLines r.ssp ps) [] = (true, s2))
    (hread : s2.readPieces k r.ssp ps = (data, s3)) (hdata : ∀ b ∈ data, b ≠ none) (hlive : ∀ p ∈ ps, p.dead = false) :
    mcastBurst s k r = (k.dests.foldl (fun s d => s.mcastTo r data d) s3).afterBurst k 0 (k.dests.length * data.length) true := by
  have hall : data.filter (·.isSome) = data := List.filter_eq_self.mpr fun b hb => Option.isSome_iff_ne_none.mpr (hdata b hb)
  rw [mcastBurst]
  simp only [hsrc, hreach, hread, any_dead_eq_false hlive, hall]
  rfl

/-- A CONV burst whose ranges are mapped and reached. -/
theorem convBurst_eq {r : ConvRec} {sps dps : List Piece} {s1 s2 s3 s4 : State} {m x : ℕ}
    (hsrc : s.mapRange k r.ssp false ((convSrc r k).toNat + elemBytes r.sfmt k.p0) (elemBytes r.sfmt (convLen r k)) = (.ok sps, s1))
    (hdst : s1.mapRange k r.dsp true ((convDst r k).toNat + elemBytes r.dfmt k.p0) (elemBytes r.dfmt (convLen r k)) = (.ok dps, s2))
    (hreach : s2.reachRanges k (pieceLines r.ssp sps) (pieceLines r.dsp dps) = (true, s3))
    (hfold : (List.range (convLen r k)).foldl (convStep k r sps dps) (0, 0, s3) = (m, x, s4)) (hlive : ∀ p ∈ sps ++ dps, p.dead = false) :
    convBurst s k r = s4.afterBurst k (convLen r k) m (decide (r.cnt.toNat ≤ k.p0 + convLen r k)) := by
  rw [convBurst]
  simp only [hsrc, hdst, hreach, hfold, any_dead_eq_false hlive]
  rw [← s4.afterBurst_eq]
  by_cases h : k.p0 + convLen r k < r.cnt.toNat
  · rw [if_pos h, decide_eq_false (by omega), if_neg (by decide)]
  · rw [if_neg h, decide_eq_true (by omega), if_pos rfl]

theorem allBytes_map_some (bs : List Byte) : allBytes (bs.map some) = some bs := by
  induction bs with
  | nil => rfl
  | cons b t ih =>
    rw [allBytes] at ih
    simp [allBytes, ih]

/-- The block that a CSEND burst sends (R154). -/
def csendBlock (r : CsendRec) (k : Chain) : SentBlock :=
  ⟨r.dev.toNat, r.shid.toNat, (r.bn0.toNat + k.p0) % 2 ^ 32, r.ssp, (r.src.toNat + 1024 * k.p0) % 2 ^ 64, (r.roff.toNat + 1024 * k.p0) % 2 ^ 32, none⟩

/-- A CSEND burst that sends its block. -/
theorem csendBurst_eq {r : CsendRec} {ps : List Piece} {s1 s2 s3 : State} {bs : List Byte}
    (hsrc : s.mapRange k r.ssp false (r.src.toNat + 1024 * k.p0) 1024 = (.ok ps, s1))
    (hreach : s1.reachRanges k (pieceLines r.ssp ps) [] = (true, s2)) (hshf : s2.shfReaches (dieOfCore (s2.chainCore k)) r.dev.toNat = true)
    (hread : s2.readPieces k r.ssp ps = (bs.map some, s3)) :
    let w := csendBlock r k
    let sent : State := { s3 with sent := s3.sent ++ [OutMsg.shfBlock r.dev.toNat r.shid.toNat w.bn w.off true bs] }.modChain k.id fun j =>
      { j with waits := j.waits ++ [w] }
    csendBurst s k r = if k.p0 + 1 < r.nblk.toNat then sent.modChain k.id fun j => { j with p0 := k.p0 + 1 } else sent.nextRec k.id := by
  intro w sent
  rw [csendBurst]
  simp only [hsrc, hreach, hshf, hread, allBytes_map_some, Bool.not_true, Bool.false_eq_true, if_false]
  rfl
end

end Sys2Proof.Machine
end

section
/-! The bytes that a burst copies: pieces of one page, scratchpads, rows of an engine, 07 R145 to R147, R150, R151. -/

namespace Sys2Proof.Machine

/-! ### SAMPLE, R151 -/

section
variable {s : State} {k : Chain} {r : SampleRec} {e : Stream} {id : ℕ} {ops cps : List Piece} {s0 s1 s2 : State}

/-- A range that may be left out changes nothing beyond memory. -/
theorem State.sansMem_of_mapIf {b : Bool} {sp w : Bool} {a n : ℕ} {ps : List Piece} {t : State}
    (h : (if b then s.mapRange k sp w a n else (.ok [], s)) = (.ok ps, t)) : t.sansMem = s.sansMem := by
  cases b with
  | true => exact s.sansMem_of_mapRange k h
  | false => exact congrArg State.sansMem (congrArg Prod.snd h).symm

variable (hone : ∀ j ∈ s.chains, j.id = k.id → j = k) (hhead : s.sampleHead k = some (e, id))
  (hout : (if r.out then s.mapRange k r.dsp true (r.dst.toNat + 4 * r.ncol.toNat * k.p0) (4 * r.ncol.toNat) else (.ok [], s)) = (.ok ops, s0))
  (hrec : s0.mapRange k r.csp true (r.crec.toNat + 128 * k.p0) 128 = (.ok cps, s1)) (hlive : ∀ p ∈ ops ++ cps, p.dead = false)
  (hreach : s1.reachRanges k (if r.cont then pieceLines r.csp cps else []) (pieceLines r.dsp ops ++ pieceLines r.csp cps) = (true, s2))

/-- The end of a SAMPLE burst: the place after its row, and the engine's streams go on. -/
def State.sampleEnd (t : State) (k : Chain) (r : SampleRec) : State :=
  (if k.p0 + 1 < r.nr.toNat then t.modChain k.id fun j => { j with p0 := k.p0 + 1 } else t.nextRec k.id).tryRows (cluOfCore k.core)

theorem State.sampleEnd_counted {t : State} (hone : ∀ j ∈ t.chains, j.id = k.id → j = k) (m : ℕ) :
    (t.counted k m false).sampleEnd k r = (t.afterBurst k 1 m (decide (r.nr.toNat ≤ k.p0 + 1))).tryRows (cluOfCore k.core) :=
  congrArg (fun u : State => u.tryRows (cluOfCore k.core)) (State.afterBurst_of_place hone m)

include hout hrec hreach in
theorem State.chains_of_sample : (s2.rowRead e).chains = s.chains :=
  State.chains_of_sansMem (s := s2)
    ((s1.sansMem_of_reachRanges k hreach).trans ((s0.sansMem_of_mapRange k hrec).trans (State.sansMem_of_mapIf hout)))

include hhead hout hrec hreach in
/-- A row that is voided gives nothing (12 R278). -/
theorem sampleBurst_voided (hvoid : (s2.rowRead e).idVoided k.ti id = true) : sampleBurst s k r = (s2.rowRead e).sampleEnd k r := by
  rw [sampleBurst]
  simp only [hhead, hout, hrec, hreach, hvoid, if_true]
  rfl

include hhead hout hrec hreach hlive in
/-- A row that is read gives its values and its completion record. -/
theorem sampleBurst_read {start : List Byte} {ys : List Word} {rec : List Byte} {m1 m2 : ℕ} {u1 u2 u3 : State}
    (hvoid : (s2.rowRead e).idVoided k.ti id = false)
    (hread : (if r.cont then (s2.rowRead e).readPieces k r.csp cps else (crecInit.map some, s2.rowRead e)) = (start.map some, u1))
    (hrow : sampleRow (s2.accRow id) r start = (ys, rec))
    (hvalues : u1.writePieces k r.dsp ops ((ys.flatMap fun y => natBytes 4 y.toNat).map some) = (m1, u2))
    (hrecord : u2.writePieces k r.csp cps (rec.map some) = (m2, u3)) : sampleBurst s k r = (u3.counted k (m1 + m2) false).sampleEnd k r := by
  have hcells : (if r.cont then (s2.rowRead e).readPieces k r.csp cps else ([], s2.rowRead e)).2 = u1 ∧ (if r.cont then
      (allBytes (if r.cont then (s2.rowRead e).readPieces k r.csp cps else ([], s2.rowRead e)).1).getD crecInit else crecInit) = start := by
    cases hcont : r.cont with
    | false =>
      rw [hcont] at hread
      exact ⟨congrArg Prod.snd hread, List.map_injective_iff.mpr (Option.some_injective _) (congrArg Prod.fst hread)⟩
    | true =>
      rw [hcont] at hread
      rw [if_pos rfl, if_pos rfl, show (s2.rowRead e).readPieces k r.csp cps = _ from hread, allBytes_map_some]
      exact ⟨rfl, rfl⟩
  obtain ⟨hstate, hstart⟩ := hcells
  rw [sampleBurst]
  simp only [hhead, hout, hrec, hreach, hvoid, any_dead_eq_false hlive, hstate, hstart, hrow, hvalues, hrecord, Bool.false_eq_true, if_false]
  rfl

include hone hhead hout hrec hreach hlive in
/-- One burst of a SAMPLE. -/
theorem sampleBurst_spec :
    let u := s2.rowRead e
    let ends (t : State) (m : ℕ) : Prop :=
      sampleBurst s k r = (t.afterBurst k 1 m (decide (r.nr.toNat ≤ k.p0 + 1))).tryRows (cluOfCore k.core)
    (u.idVoided k.ti id = true → ends u 0) ∧
    ∀ start u1 ys rec m1 u2 m2 u3, u.idVoided k.ti id = false →
      (if r.cont then u.readPieces k r.csp cps else (crecInit.map some, u)) = (start.map some, u1) →
      sampleRow (s2.accRow id) r start = (ys, rec) →
      u1.writePieces k r.dsp ops ((ys.flatMap fun y => natBytes 4 y.toNat).map some) = (m1, u2) →
      u2.writePieces k r.csp cps (rec.map some) = (m2, u3) → ends u3 (m1 + m2) := by
  intro u ends
  have hu : u.chains = s.chains := State.chains_of_sample hout hrec hreach
  refine ⟨fun hvoid => ?_, fun start u1 ys rec m1 u2 m2 u3 hvoid hread hrow hvalues hrecord => ?_⟩
  · have hzero : u.counted k 0 false = u := u.modChain_id k.id
    rw [← hu] at hone
    exact (sampleBurst_voided hhead hout hrec hreach hvoid).trans ((congrArg (State.sampleEnd · k r) hzero).symm.trans (State.sampleEnd_counted hone 0))
  · have hu1 : u1.chains = u.chains := by
      cases hcont : r.cont <;> rw [hcont] at hread
      · exact congrArg State.chains (congrArg Prod.snd hread).symm
      · exact State.chains_of_sansMem (u.sansMem_of_readPieces k hread)
    have hu3 : u3.chains = s.chains := (State.chains_of_writePieces _ _ hrecord).trans ((State.chains_of_writePieces _ _ hvalues).trans (hu1.trans hu))
    rw [← hu3] at hone
    exact (sampleBurst_read hhead hout hrec hlive hreach hvoid hread hrow hvalues hrecord).trans (State.sampleEnd_counted hone _)
end

/-! ### Ranges of one page -/

section
/-- The state after a chain has changed the scratchpad that its offsets name. -/
def State.putChainScratch (u : State) (k : Chain) (f : Sparse Byte → Sparse Byte) : State :=
  u.modTeam k.ti fun t => t.setScratch (t.group k.gi).pcore (f (t.scratch (t.group k.gi).pcore))

variable (u : State) (k : Chain)

theorem readPieces_scratch (a n : ℕ) :
    u.readPieces k true [⟨a, n, 0, 0, false⟩] = ((scratchBytes (u.chainScratch k) a n).map some, u) := by
  simp [State.readPieces]

theorem readPieces_memory (a n key gen : ℕ) :
    let v : State := (dedupNat ((addrs a n).map lineOf)).foldl (fun s l => s.settle l key) u
    u.readPieces k false [⟨a, n, key, gen, false⟩] = ((v.cohBytes key a n).map some, v) := by
  simp [State.readPieces]

/-- As many bytes as the piece has are all written. -/
theorem liveCells_take (b n : ℕ) {bs : List Byte} (h : bs.length = n) : liveCells b ((bs.map some).take n) = (addrs b n).zip bs := by
  rw [List.take_of_length_le (by simp [h]), liveCells_some, h]

@[simp] theorem length_addrs (a n : ℕ) : (addrs a n).length = n := by simp [addrs]

theorem writePieces_memory (b n key gen : ℕ) {bs : List Byte} (h : bs.length = n) :
    u.writePieces k false [⟨b, n, key, gen, false⟩] (bs.map some) = (n, u.homeWriteBytes key b bs) := by
  simp only [State.writePieces, liveCells_take b n h, Bool.false_eq_true, if_false, List.length_zip, length_addrs, h, min_self, Nat.add_zero]
  rw [State.homeWriteBytes, h]

theorem writePieces_scratch (b n key gen : ℕ) {bs : List Byte} (h : bs.length = n) :
    u.writePieces k true [⟨b, n, key, gen, false⟩] (bs.map some) = (n, u.putChainScratch k fun m => scratchPut m b bs) := by
  simp only [State.writePieces, liveCells_take b n h, Bool.false_eq_true, if_false, if_true, List.length_zip, length_addrs, h, min_self, Nat.add_zero]
  simp only [State.putChainScratch, scratchPut, h]

theorem length_cohBytes (key a n : ℕ) : (u.cohBytes key a n).length = n := by simp [State.cohBytes]
theorem length_scratchBytes (m : Sparse Byte) (a n : ℕ) : (scratchBytes m a n).length = n := by simp [scratchBytes]

theorem Team.group_setScratch (t : Team) (pc : ℕ) (m : Sparse Byte) (gi : ℕ) : (t.setScratch pc m).group gi = t.group gi := by
  rw [Team.setScratch]
  split <;> rfl

variable {u k} in
theorem State.group_putChainScratch (f : Sparse Byte → Sparse Byte) (hk : k.ti < u.teams.length) :
    (u.putChainScratch k f).group k.ti k.gi = u.group k.ti k.gi := by
  rw [State.group, State.putChainScratch, State.team_modTeam_self _ hk]
  exact Team.group_setScratch ..

variable {u k} in
theorem State.chainScratch_putChainScratch (f : Sparse Byte → Sparse Byte) (hk : k.ti < u.teams.length) :
    (u.putChainScratch k f).chainScratch k = f (u.chainScratch k) := by
  rw [State.chainScratch, State.group_putChainScratch f hk, State.putChainScratch, State.team_modTeam_self _ hk]
  exact Team.scratch_setScratch ..

/-- The pieces of one page, a byte further on. -/
theorem copyBytes_piece (sp : Bool) (n a b akey bkey agen bgen : ℕ) (u : State) :
    let read := u.readPieces k sp [⟨a, 1, akey, agen, false⟩]
    let wrote := read.2.writePieces k sp [⟨b, 1, bkey, bgen, false⟩] read.1
    let rest := wrote.2.copyBytes k sp n [⟨a + 1, n, akey, agen, false⟩] [⟨b + 1, n, bkey, bgen, false⟩]
    u.copyBytes k sp (n + 1) [⟨a, n + 1, akey, agen, false⟩] [⟨b, n + 1, bkey, bgen, false⟩] = (wrote.1 + rest.1, rest.2) := by
  intro read wrote rest
  cases n with
  | zero => simp [State.copyBytes, read, wrote, rest]
  | succ n => simp [State.copyBytes, read, wrote, rest]

theorem addrs_one (a : ℕ) : addrs a 1 = [a] := by simp [addrs]

/-- One byte from memory to memory. -/
theorem copyByte_memory (a b akey bkey agen bgen : ℕ) :
    (u.readPieces k false [⟨a, 1, akey, agen, false⟩]).2.writePieces k false [⟨b, 1, bkey, bgen, false⟩]
        (u.readPieces k false [⟨a, 1, akey, agen, false⟩]).1 =
      (1, (u.settle (lineOf a) akey).homeWrite bkey [(b, (u.settle (lineOf a) akey).cohByte akey a)]) := by
  have hline : dedupNat ((addrs a 1).map lineOf) = [lineOf a] := by simp [addrs_one, dedupNat]
  rw [readPieces_memory, hline]
  dsimp only [List.foldl_cons, List.foldl_nil]
  rw [writePieces_memory _ k b 1 bkey bgen (length_cohBytes ..)]
  simp [State.homeWriteBytes, State.cohBytes, addrs_one, splitLines, dedupNat]

/-- The bytes that the two copies of `List.range` go through. -/
theorem foldl_range_succ_shift {α : Type} (f : α → ℕ → α) (n : ℕ) (x : α) :
    (List.range (n + 1)).foldl f x = (List.range n).foldl (fun x i => f x (i + 1)) (f x 0) := by
  rw [List.range_succ_eq_map, List.foldl_cons, List.foldl_map]

/-- A MOVE from memory to memory goes byte by byte (R145). -/
theorem copyBytes_memory (n a b akey bkey agen bgen : ℕ) (u : State) :
    u.copyBytes k false n [⟨a, n, akey, agen, false⟩] [⟨b, n, bkey, bgen, false⟩] = (n, (List.range n).foldl (fun u i =>
      (u.settle (lineOf (a + i)) akey).homeWrite bkey [(b + i, (u.settle (lineOf (a + i)) akey).cohByte akey (a + i))]) u) := by
  induction n generalizing a b u with
  | zero => rfl
  | succ n ih =>
    rw [copyBytes_piece, copyByte_memory, ih, foldl_range_succ_shift]
    simp only [Nat.add_zero, Nat.add_comm 1 n, Nat.add_assoc a, Nat.add_assoc b, Nat.add_comm 1]

/-- One byte within a scratchpad. -/
theorem copyByte_scratch (a b : ℕ) :
    (u.readPieces k true [⟨a, 1, 0, 0, false⟩]).2.writePieces k true [⟨b, 1, 0, 0, false⟩] (u.readPieces k true [⟨a, 1, 0, 0, false⟩]).1 =
      (1, u.putChainScratch k fun m => Sparse.set 0#8 m b (Sparse.get 0#8 (u.chainScratch k) a)) := by
  rw [readPieces_scratch]
  dsimp only
  rw [writePieces_scratch _ k b 1 0 0 (length_scratchBytes ..)]
  rfl

/-- A MOVE within one scratchpad goes byte by byte (R145). -/
theorem copyBytes_scratch (n a b : ℕ) (u : State) (hk : k.ti < u.teams.length) :
    let t := u.copyBytes k true n [⟨a, n, 0, 0, false⟩] [⟨b, n, 0, 0, false⟩]
    t.1 = n ∧ t.2.chains = u.chains ∧ t.2.group k.ti k.gi = u.group k.ti k.gi ∧ t.2.chainScratch k =
      (List.range n).foldl (fun m i => Sparse.set 0 m (b + i) (Sparse.get 0 m (a + i))) (u.chainScratch k) := by
  induction n generalizing a b u with
  | zero => exact ⟨rfl, rfl, rfl, rfl⟩
  | succ n ih =>
    have hput := State.chainScratch_putChainScratch (fun m => Sparse.set 0#8 m b (Sparse.get 0#8 (u.chainScratch k) a)) hk
    have hgroup := State.group_putChainScratch (fun m => Sparse.set 0#8 m b (Sparse.get 0#8 (u.chainScratch k) a)) hk
    obtain ⟨hcount, hchains, hg, hscratch⟩ :=
      ih (a + 1) (b + 1) (u.putChainScratch k fun m => Sparse.set 0#8 m b (Sparse.get 0#8 (u.chainScratch k) a)) (by simpa [State.putChainScratch] using hk)
    dsimp only
    rw [copyBytes_piece, copyByte_scratch]
    refine ⟨(congrArg (1 + ·) hcount).trans (Nat.add_comm 1 n), hchains, hg.trans hgroup, hscratch.trans ?_⟩
    rw [hput, foldl_range_succ_shift]
    simp only [Nat.add_zero, Nat.add_assoc, Nat.add_comm 1]
    rfl
end

end Sys2Proof.Machine
end

section
/-! One burst of each record in the scratchpad, what MCAST leaves at a destination, and the elements of a CONV, 07 R145 to R147, R150, R154. -/

namespace Sys2Proof.Machine

/-! ### Between a scratchpad and a page -/

section
variable (u : State) (k : Chain)

theorem scratchBytes_eq_map (m : Sparse Byte) (a n : ℕ) : scratchBytes m a n = (List.range n).map fun i => Sparse.get 0 m (a + i) := List.map_map ..
theorem cohBytes_eq_map (key a n : ℕ) : u.cohBytes key a n = (List.range n).map fun i => u.cohByte key (a + i) := List.map_map ..

theorem scratchPut_eq_foldl (m : Sparse Byte) (b : ℕ) {n : ℕ} {bs : List Byte} (h : bs.length = n) :
    scratchPut m b bs = ((addrs b n).zip bs).foldl (fun m c => Sparse.set 0 m c.1 c.2) m := by
  rw [scratchPut, h]
  rfl

/-- From scratchpad to memory. -/
theorem copyOut_page (n a b bkey bgen : ℕ) :
    (u.readPieces k true [⟨a, n, 0, 0, false⟩]).2.writePieces k false [⟨b, n, bkey, bgen, false⟩] (u.readPieces k true [⟨a, n, 0, 0, false⟩]).1 =
      (n, u.homeWriteBytes bkey b ((List.range n).map fun i => Sparse.get 0 (u.chainScratch k) (a + i))) := by
  rw [readPieces_scratch]
  dsimp only
  rw [writePieces_memory _ k b n bkey bgen (length_scratchBytes ..), scratchBytes_eq_map]

/-- From memory to scratchpad. -/
theorem copyIn_page (n a b akey agen : ℕ) :
    let v : State := (dedupNat ((addrs a n).map lineOf)).foldl (fun s l => s.settle l akey) u
    (u.readPieces k false [⟨a, n, akey, agen, false⟩]).2.writePieces k true [⟨b, n, 0, 0, false⟩] (u.readPieces k false [⟨a, n, akey, agen, false⟩]).1 =
      (n, v.putChainScratch k fun m => scratchPut m b (v.cohBytes akey a n)) := by
  intro v
  rw [readPieces_memory]
  dsimp only
  rw [writePieces_scratch _ k b n 0 0 (length_cohBytes ..)]

/-- The copies of one page that O28 names. -/
theorem copy_pages (n a b akey bkey agen bgen : ℕ) :
    let v : State := (dedupNat ((addrs a n).map lineOf)).foldl (fun s l => s.settle l akey) u
    let put (m : Sparse Byte) (bs : List Byte) : Sparse Byte := ((addrs b n).zip bs).foldl (fun m c => Sparse.set 0 m c.1 c.2) m
    u.copyBytes k false n [⟨a, n, akey, agen, false⟩] [⟨b, n, bkey, bgen, false⟩] = (n, (List.range n).foldl (fun u i =>
      let w := u.settle (lineOf (a + i)) akey
      w.homeWrite bkey [(b + i, w.cohByte akey (a + i))]) u) ∧
    (let bs := (List.range n).map fun i => Sparse.get 0 ((u.team k.ti).scratch ((u.group k.ti k.gi).pcore)) (a + i)
     (u.readPieces k true [⟨a, n, 0, 0, false⟩]).2.writePieces k false [⟨b, n, bkey, bgen, false⟩] (u.readPieces k true [⟨a, n, 0, 0, false⟩]).1 =
       (n, u.homeWriteBytes bkey b bs)) ∧
    let w := (u.readPieces k false [⟨a, n, akey, agen, false⟩]).2.writePieces k true [⟨b, n, 0, 0, false⟩]
      (u.readPieces k false [⟨a, n, akey, agen, false⟩]).1
    w.1 = n ∧ w.2.mem = v.mem ∧ w.2.cache = v.cache ∧ (k.ti < v.teams.length →
      (w.2.team k.ti).scratch ((v.group k.ti k.gi).pcore) =
        put ((v.team k.ti).scratch ((v.group k.ti k.gi).pcore)) ((List.range n).map fun i => v.cohByte akey (a + i))) := by
  intro v put
  refine ⟨copyBytes_memory k n a b akey bkey agen bgen u, copyOut_page u k n a b bkey bgen, ?_⟩
  intro w
  have hw : w = (n, v.putChainScratch k fun m => scratchPut m b (v.cohBytes akey a n)) := copyIn_page u k n a b akey agen
  rw [hw]
  refine ⟨rfl, rfl, rfl, fun hk => ?_⟩
  have hscratch := State.chainScratch_putChainScratch (fun m => scratchPut m b (v.cohBytes akey a n)) hk
  rw [State.chainScratch, State.group_putChainScratch _ hk] at hscratch
  refine hscratch.trans ?_
  rw [scratchPut_eq_foldl _ b (length_cohBytes v akey a n), cohBytes_eq_map]
  rfl
end

/-! ### The place of the next burst -/

section
variable {s : State} {k : Chain} {core : ℕ}

@[simp] theorem State.teams_afterBurst (n m : ℕ) (last : Bool) : (s.afterBurst k n m last).teams = s.teams := by
  cases last <;> rfl

/-- A MOVE within one scratchpad: the bytes that it copies, and its place afterwards (R145, R157). -/
theorem moveBurst_scratch {r : MoveRec} (ha : s.activeChain core = some k) (hsp : r.ssp = true) (hdp : r.dsp = true) (hp : k.p0 < r.len0.toNat)
    (hk : k.ti < s.teams.length) (hs0 : 0 ≤ moveSrc r k k.p1 k.p2) (hs1 : moveSrc r k k.p1 k.p2 < 2 ^ 32) (hd0 : 0 ≤ moveDst r k k.p1 k.p2)
    (hd1 : moveDst r k k.p1 k.p2 < 2 ^ 32) :
    let n := moveLen r k
    let sa := (moveSrc r k k.p1 k.p2 + k.p0).toNat
    let da := (moveDst r k k.p1 k.p2 + k.p0).toNat
    let t := moveBurst s k r
    (t.team k.ti).scratch (s.group k.ti k.gi).pcore =
        (List.range n).foldl (fun m b => Sparse.set 0 m (da + b) (Sparse.get 0 m (sa + b))) (s.chainScratch k) ∧
      ∀ k', t.activeChain core = some k' → k'.count = k.count + n ∧
        (k.p0 + n < r.len0.toNat → k'.p0 = k.p0 + n ∧ k'.p1 = k.p1 ∧ k'.p2 = k.p2 ∧ k'.recOff = k.recOff) ∧
        (k.p0 + n = r.len0.toNat → k.p1 + 1 = r.cnt1.toNat → k.p2 + 1 = r.cnt2.toNat → k'.recOff = k.recOff + 32 ∧ k'.now = none) := by
  intro n sa da t
  have hplace : k.p0 < 2 ^ 32 := hp.trans (by omega)
  have hsa : moveFrom r k = sa := by
    rw [moveFrom, Int.emod_eq_of_lt (by omega) (by omega)]
  have hda : moveTo r k = da := by
    rw [moveTo, Int.emod_eq_of_lt (by omega) (by omega)]
  obtain ⟨hcount, hchains, hgroup, hscratch⟩ := copyBytes_scratch k n sa da s hk
  have hburst := moveBurst_eq (s := s) (k := k) (r := r) (sps := [⟨sa, n, 0, 0, false⟩]) (dps := [⟨da, n, 0, 0, false⟩]) (s1 := s) (s2 := s) (s3 := s)
    (by rw [hsp, hsa]; rfl) (by rw [hdp, hda]; rfl) (by rw [hsp, hdp]; rfl) (by simp)
  rw [hsp, hdp] at hburst
  simp only [if_true] at hburst
  rw [show (s.copyBytes k true (moveLen r k) [⟨sa, n, 0, 0, false⟩] [⟨da, n, 0, 0, false⟩]).1 = n from hcount] at hburst
  set c : State := (s.copyBytes k true n [⟨sa, n, 0, 0, false⟩] [⟨da, n, 0, 0, false⟩]).2
  have hactive : (c.modChain k.id fun k => { k with count := k.count + n }).activeChain core = some { k with count := k.count + n } :=
    State.activeChain_modChain (fun _ => rfl) ((State.activeChain_of_chains hchains core).trans ha)
  refine ⟨?_, fun k' hk' => ?_⟩
  · have hteams : t.team k.ti = c.team k.ti := by
      rw [show t = _ from hburst]
      rfl
    rw [hteams, ← hgroup]
    exact hscratch
  · have honward := State.activeChain_modChain (k := { k with count := k.count + n }) (f := moveOnward r k n) (fun _ => by
      unfold moveOnward
      split
      · rfl
      · split
        · rfl
        · split <;> rfl) hactive
    obtain rfl : k' = moveOnward r k n { k with count := k.count + n } :=
      Option.some.inj (hk'.symm.trans ((congrArg (fun u : State => u.activeChain core) hburst).trans honward))
    unfold moveOnward
    by_cases h0 : k.p0 + n < r.len0.toNat
    · rw [if_pos h0]
      exact ⟨rfl, fun _ => ⟨rfl, rfl, rfl, rfl⟩, fun h => absurd h (by omega)⟩
    · rw [if_neg h0]
      split
      · exact ⟨rfl, fun h => absurd h h0, fun _ h => absurd h (by omega)⟩
      · split
        · exact ⟨rfl, fun h => absurd h h0, fun _ _ h => absurd h (by omega)⟩
        · exact ⟨rfl, fun h => absurd h h0, fun _ _ _ => ⟨rfl, rfl⟩⟩
end

/-! ### What MCAST leaves at a destination, R146, R147 -/

section
variable (t : State) (r : McastRec) (data : List Byte) (d : ℕ × ℕ)

theorem Team.place_setScratch (x : Team) (pc : ℕ) (m : Sparse Byte) : (x.setScratch pc m).place = x.place := by
  rw [Team.setScratch]
  split <;> rfl

theorem Team.bars_setScratch (x : Team) (pc : ℕ) (m : Sparse Byte) : (x.setScratch pc m).bars = x.bars := by
  rw [Team.setScratch]
  split <;> rfl

/-- A destination whose team is on its core: the bytes are in its scratchpad, its barrier has the arrival, and lanes that waited may go on. -/
theorem State.team_mcastTo (hp : (t.team d.1).place = .resident) (hd : d.1 < t.teams.length) :
    let put : Team := (t.team d.1).setScratch d.2 (scratchPut ((t.team d.1).scratch d.2) r.doff.toNat data)
    (t.mcastTo r (data.map some) d).team d.1 = (if r.nosig then put else put.arrive r.bar.toNat none).passBarriers (t.nextId + 1) := by
  intro put
  have hput (u : State) (hu : u.team d.1 = if r.nosig then put else put.arrive r.bar.toNat none) (hlen : d.1 < u.teams.length) :
      State.team (match (u.team d.1).place with
        | .saved _ => u.touchSaved d.1
        | .resident => u.modTeam d.1 fun t => t.passBarriers (u.nextId + 1)
        | _ => u) d.1 = (if r.nosig then put else put.arrive r.bar.toNat none).passBarriers (u.nextId + 1) := by
    have hplace : (u.team d.1).place = .resident := by
      rw [hu]
      cases r.nosig <;> exact (Team.place_setScratch ..).trans hp
    rw [hplace, ← hu]
    exact State.team_modTeam_self _ hlen
  have hcells : t.modTeam d.1 (fun t => t.setScratch d.2 ((liveCells r.doff.toNat (data.map some)).foldl (fun m c => Sparse.set 0#8 m c.1 c.2) (t.scratch d.2))) =
      t.modTeam d.1 fun t => t.setScratch d.2 (scratchPut (t.scratch d.2) r.doff.toNat data) := by
    rw [liveCells_some]
    rfl
  have hself : (t.modTeam d.1 fun t => t.setScratch d.2 (scratchPut (t.scratch d.2) r.doff.toNat data)).team d.1 = put := State.team_modTeam_self _ hd
  have hlen : d.1 < (t.modTeam d.1 fun t => t.setScratch d.2 (scratchPut (t.scratch d.2) r.doff.toNat data)).teams.length := by simpa using hd
  unfold State.mcastTo
  extract_lets cells u v
  have hu : u = _ := hcells
  have hv : (v.team d.1 = if r.nosig then put else put.arrive r.bar.toNat none) ∧ d.1 < v.teams.length ∧ v.nextId = t.nextId := by
    cases hsig : r.nosig with
    | true =>
      rw [show v = u from if_pos hsig, hu]
      exact ⟨hself, hlen, rfl⟩
    | false =>
      rw [show v = u.modTeam d.1 fun t => t.arrive r.bar.toNat none from if_neg (by simp [hsig]), hu, State.team_modTeam_self _ hlen, hself]
      exact ⟨rfl, by simpa using hlen, rfl⟩
  obtain ⟨hvteam, hvlen, hvnext⟩ := hv
  rw [← hvnext]
  exact hput v hvteam hvlen

theorem mcastTo_spec (hp : (t.team d.1).place = .resident) (hd : d.1 < t.teams.length) :
    let u := t.mcastTo r (data.map some) d
    (∀ i, Sparse.get 0 ((u.team d.1).scratch d.2) (r.doff.toNat + i) =
      if i < data.length then data.getD i 0 else Sparse.get 0 ((t.team d.1).scratch d.2) (r.doff.toNat + i)) ∧
    (u.team d.1).bars = if r.nosig then (t.team d.1).bars else updAt (t.team d.1).bars r.bar.toNat fun b => b.arrive none := by
  intro u
  have hteam := State.team_mcastTo t r data d hp hd
  have hscratch : (u.team d.1).scratch d.2 = scratchPut ((t.team d.1).scratch d.2) r.doff.toNat data := by
    rw [show u.team d.1 = _ from hteam]
    cases r.nosig <;> exact Team.scratch_setScratch ..
  refine ⟨fun i => ?_, ?_⟩
  · rw [hscratch]
    refine (get_scratchPut ..).trans ?_
    by_cases hi : i < data.length
    · rw [if_pos (by omega), if_pos hi, Nat.add_sub_cancel_left]
    · rw [if_neg (by omega), if_neg hi]
      rfl
  · rw [show u.team d.1 = _ from hteam]
    cases r.nosig with
    | true => exact Team.bars_setScratch ..
    | false => exact congrArg (fun l => updAt l r.bar.toNat fun b => b.arrive none) (Team.bars_setScratch ..)
end

/-! ### The elements of a CONV, R150 -/

theorem convElem_eq (r : ConvRec) (j : ℕ) (bs : List Byte) : convElem r j bs = encodeElem r.dfmt r.rnd (decodeElem r.sfmt
    (if ewidth r.sfmt = 4 then (if j % 2 = 0 then bytesNat bs % 16 else bytesNat bs / 16 % 16) else bytesNat bs)) := by
  rw [convElem]
  rcases Nat.mod_two_eq_zero_or_one j with h | h <;> simp [h]

/-- A format of whole bytes. -/
theorem ewidth_eq_of_bytes {f : EFmt} (h : 8 ≤ ewidth f) : ewidth f = 8 * elemAlign f ∧ 0 < elemAlign f := by
  rw [elemAlign]
  rcases ewidth_cases f with hw | hw | hw | hw <;> rw [hw] at h ⊢ <;> omega

theorem convPut_bytes {r : ConvRec} (h : 8 ≤ ewidth r.dfmt) (j x : ℕ) (old : List Byte) : convPut r j x old = natBytes (elemAlign r.dfmt) x := by
  rw [convPut, if_neg (by omega)]

/-- The bits of a byte of which one half is replaced. -/
theorem testBit_replaceHalf (o x i : ℕ) (hi : i < 8) :
    (o / 16 * 16 + x % 16).testBit i = (if i < 4 then x.testBit i else o.testBit i) ∧
    (o % 16 + x % 16 * 16).testBit i = (if i < 4 then o.testBit i else x.testBit (i - 4)) := by
  simp only [Nat.testBit_eq_decide_div_mod_eq]
  interval_cases i <;> simp <;> omega

theorem convPut_halves {r : ConvRec} (h : ewidth r.dfmt = 4) (j x : ℕ) (b : Byte) {i : ℕ} (hi : i < 8) :
    ((convPut r j x [b]).map fun y => y.getLsbD i) = [if i / 4 = j % 2 then (BitVec.ofNat 4 x).getLsbD (i % 4) else b.getLsbD i] := by
  obtain ⟨heven, hodd⟩ := testBit_replaceHalf b.toNat x i hi
  have hbyte : bytesNat [b] = b.toNat := by simp [bytesNat]
  have hbit : b.getLsbD i = b.toNat.testBit i := rfl
  simp only [convPut, h, if_true, hbyte, natBytes, List.map_cons, List.map_nil, BitVec.getLsbD_ofNat, hi, decide_true, Bool.true_and, hbit]
  rcases Nat.mod_two_eq_zero_or_one j with hj | hj
  · simp only [hj, if_true, heven]
    by_cases h4 : i < 4
    · rw [if_pos h4, if_pos (by omega), Nat.mod_eq_of_lt h4]; simp [h4]
    · rw [if_neg h4, if_neg (by omega)]
  · simp only [hj, one_ne_zero, if_false, hodd]
    by_cases h4 : i < 4
    · rw [if_pos h4, if_neg (by omega)]
    · rw [if_neg h4, if_pos (by omega), show i % 4 = i - 4 by omega]; simp [show i - 4 < 4 by omega]

end Sys2Proof.Machine
end

section
/-! A CONV within one scratchpad, a block that CSEND sends, and the statement about bursts, 07 R150, R154. -/

namespace Sys2Proof.Machine

/-! ### CONV in the scratchpad -/

section
variable {k : Chain} {r : ConvRec} (hsp : r.ssp = true) (hdp : r.dsp = true) (hsw : 8 ≤ ewidth r.sfmt) (hdw : 8 ≤ ewidth r.dfmt)

theorem elemBytes_of_bytes {f : EFmt} (h : 8 ≤ ewidth f) (n : ℕ) : elemBytes f n = elemAlign f * n ∧ n * ewidth f / 8 = elemAlign f * n := by
  obtain ⟨hw, -⟩ := ewidth_eq_of_bytes h
  have hmul : n * ewidth f = 8 * (elemAlign f * n) := by rw [hw, Nat.mul_left_comm, Nat.mul_comm n]
  rw [elemBytes, hmul]
  omega

/-- Element `j` of `n` that stand one after another. -/
theorem subPieces_elem {f : EFmt} (h : 8 ≤ ewidth f) {j n : ℕ} (hj : j < n) (a : ℕ) :
    subPieces [⟨a, elemBytes f n, 0, 0, false⟩] (j * ewidth f / 8) (elemAlign f) = [⟨a + elemAlign f * j, elemAlign f, 0, 0, false⟩] := by
  have hfit : elemAlign f * j + elemAlign f ≤ elemAlign f * n := by
    rw [← Nat.mul_succ]
    exact Nat.mul_le_mul_left _ hj
  obtain ⟨-, hpos⟩ := ewidth_eq_of_bytes h
  rw [(elemBytes_of_bytes h n).1, (elemBytes_of_bytes h j).2, subPieces, if_neg (by simp only; omega)]
  simp only [show min (elemAlign f) (elemAlign f * n - elemAlign f * j) = elemAlign f by omega, lt_irrefl, if_false]

/-- The bytes of a converted element, put one after another. -/
theorem scratchPut_natBytes (m : Sparse Byte) (a n x : ℕ) :
    scratchPut m a (natBytes n x) = (List.range n).foldl (fun m i => Sparse.set 0 m (a + i) (BitVec.ofNat 8 (x / 256 ^ i))) m := by
  induction n generalizing m a x with
  | zero => rfl
  | succ n ih =>
    rw [natBytes, scratchPut_cons, ih, foldl_range_succ_shift]
    simp only [Nat.add_zero, pow_zero, Nat.div_one, Nat.add_assoc, Nat.add_comm 1, Nat.div_div_eq_div_mul, ← Nat.pow_succ']
    rfl

/-- What one element of a CONV within a scratchpad does to it. -/
def convInto (r : ConvRec) (sa da : ℕ) (m : Sparse Byte) (j : ℕ) : Sparse Byte :=
  scratchPut m (da + elemAlign r.dfmt * j) (natBytes (elemAlign r.dfmt) (encodeElem r.dfmt r.rnd (decodeElem r.sfmt
    (bytesNat (scratchBytes m (sa + elemAlign r.sfmt * j) (elemAlign r.sfmt))))))

theorem convInto_eq (r : ConvRec) (sa da : ℕ) (m : Sparse Byte) (j : ℕ) : convInto r sa da m j =
    (List.range (elemAlign r.dfmt)).foldl (fun m' i => Sparse.set 0 m' (da + elemAlign r.dfmt * j + i) (BitVec.ofNat 8
      (encodeElem r.dfmt r.rnd (decodeElem r.sfmt (bytesNat ((List.range (elemAlign r.sfmt)).map fun i =>
        Sparse.get 0 m (sa + elemAlign r.sfmt * j + i)))) / 256 ^ i))) m := by
  rw [convInto, scratchPut_natBytes, scratchBytes_eq_map]

include hsp hdp hsw hdw in
theorem convStep_scratch {sa da n j count last : ℕ} (hj : j < n) (u : State) :
    (convStep k r [⟨sa, elemBytes r.sfmt n, 0, 0, false⟩] [⟨da, elemBytes r.dfmt n, 0, 0, false⟩] (count, last, u) j).2.2 =
      u.putChainScratch k fun m => scratchPut m (da + elemAlign r.dfmt * j) (natBytes (elemAlign r.dfmt) (encodeElem r.dfmt r.rnd (decodeElem r.sfmt
        (bytesNat (scratchBytes (u.chainScratch k) (sa + elemAlign r.sfmt * j) (elemAlign r.sfmt)))))) := by
  have hsrc := subPieces_elem hsw hj sa
  have hdst := subPieces_elem hdw hj da
  have hnone : allBytes [] = some [] := rfl
  have hconv (bs : List Byte) : convElem r j bs = encodeElem r.dfmt r.rnd (decodeElem r.sfmt (bytesNat bs)) := by
    rw [convElem, if_neg (by omega)]
  simp only [convStep, hsrc, hdst, hsp, hdp, readPieces_scratch, if_neg (show ewidth r.dfmt ≠ 4 by omega), allBytes_map_some, hnone,
    convPut_bytes hdw, writePieces_scratch _ k _ _ 0 0 (length_natBytes ..), hconv]

include hsp hdp hsw hdw in
/-- The elements of a CONV within a scratchpad, in order. -/
theorem convSteps_scratch {sa da n : ℕ} (l : List ℕ) (hl : ∀ j ∈ l, j < n) (a : ℕ × ℕ × State) (hk : k.ti < a.2.2.teams.length) :
    let t := (l.foldl (convStep k r [⟨sa, elemBytes r.sfmt n, 0, 0, false⟩] [⟨da, elemBytes r.dfmt n, 0, 0, false⟩]) a).2.2
    t.group k.ti k.gi = a.2.2.group k.ti k.gi ∧ t.chainScratch k = l.foldl (convInto r sa da) (a.2.2.chainScratch k) := by
  induction l generalizing a with
  | nil => exact ⟨rfl, rfl⟩
  | cons j l ih =>
    obtain ⟨count, last, u⟩ := a
    have hstep := convStep_scratch (k := k) (sa := sa) (da := da) (count := count) (last := last) hsp hdp hsw hdw (hl j List.mem_cons_self) u
    have hlen : k.ti < (convStep k r [⟨sa, elemBytes r.sfmt n, 0, 0, false⟩] [⟨da, elemBytes r.dfmt n, 0, 0, false⟩] (count, last, u) j).2.2.teams.length := by
      rw [hstep]
      simpa [State.putChainScratch] using hk
    obtain ⟨hgroup, hscratch⟩ := ih (fun j hj => hl j (List.mem_cons_of_mem _ hj)) _ hlen
    rw [hstep] at hgroup hscratch
    rw [State.chainScratch_putChainScratch _ hk] at hscratch
    rw [State.group_putChainScratch _ hk] at hgroup
    exact ⟨hgroup, hscratch⟩

include hsp hdp hsw hdw in
theorem convBurst_scratch {s : State} (hk : k.ti < s.teams.length) :
    let n := convLen r k
    let sa := (k.sb + r.src).toNat + elemAlign r.sfmt * k.p0
    let da := (k.db + r.dst).toNat + elemAlign r.dfmt * k.p0
    ((convBurst s k r).team k.ti).scratch (s.group k.ti k.gi).pcore = (List.range n).foldl (convInto r sa da) (s.chainScratch k) := by
  intro n sa da
  have hsrc : (convSrc r k).toNat + elemBytes r.sfmt k.p0 = sa := by rw [(elemBytes_of_bytes hsw k.p0).1]; rfl
  have hdst : (convDst r k).toNat + elemBytes r.dfmt k.p0 = da := by rw [(elemBytes_of_bytes hdw k.p0).1]; rfl
  obtain ⟨hgroup, hscratch⟩ := convSteps_scratch (k := k) (sa := sa) (da := da) (n := n) hsp hdp hsw hdw (List.range n)
    (fun j hj => List.mem_range.mp hj) (0, 0, s) hk
  have hburst := convBurst_eq (s := s) (k := k) (r := r) (sps := [⟨sa, elemBytes r.sfmt n, 0, 0, false⟩])
    (dps := [⟨da, elemBytes r.dfmt n, 0, 0, false⟩]) (s1 := s) (s2 := s) (s3 := s)
    (by rw [hsp, hsrc]; rfl) (by rw [hdp, hdst]; rfl) (by rw [hsp, hdp]; rfl) rfl (by simp)
  rw [hburst, show State.team (State.afterBurst _ k _ _ _) k.ti = _ from congrArg (fun l : List Team => l.getD k.ti .blank) (State.teams_afterBurst ..),
    show (s.group k.ti k.gi).pcore = _ from (congrArg Group.pcore hgroup).symm]
  exact hscratch
end

/-! ### A block sent, R154 -/

/-- What a CSEND burst leaves of its chain. -/
theorem csendBurst_spec {s : State} {k : Chain} {core : ℕ} {r : CsendRec} {ps : List Piece} {s1 s2 s3 : State} {bs : List Byte}
    (ha : s.activeChain core = some k) (hsrc : s.mapRange k r.ssp false (r.src.toNat + 1024 * k.p0) 1024 = (.ok ps, s1))
    (hreach : s1.reachRanges k (pieceLines r.ssp ps) [] = (true, s2)) (hshf : s2.shfReaches (dieOfCore (s2.chainCore k)) r.dev.toNat = true)
    (hread : s2.readPieces k r.ssp ps = (bs.map some, s3)) :
    let bn := (r.bn0.toNat + k.p0) % 2 ^ 32
    let off := (r.roff.toNat + 1024 * k.p0) % 2 ^ 32
    (csendBurst s k r).sent = s3.sent ++ [.shfBlock r.dev.toNat r.shid.toNat bn off true bs] ∧
      ∀ k', (csendBurst s k r).activeChain core = some k' →
        k'.waits = k.waits ++ [⟨r.dev.toNat, r.shid.toNat, bn, r.ssp, (r.src.toNat + 1024 * k.p0) % 2 ^ 64, off, none⟩] ∧ k'.count = k.count ∧
        if k.p0 + 1 < r.nblk.toNat then k'.p0 = k.p0 + 1 else k'.recOff = k.recOff + 32 := by
  intro bn off
  have hchains : s3.chains = s.chains := State.chains_of_sansMem
    ((s2.sansMem_of_readPieces k hread).trans ((s1.sansMem_of_reachRanges k hreach).trans (s.sansMem_of_mapRange k hsrc)))
  have hactive : s3.activeChain core = some k := (State.activeChain_of_chains hchains core).trans ha
  rw [csendBurst_eq hsrc hreach hshf hread]
  have hsent := State.activeChain_modChain
    (s := { s3 with sent := s3.sent ++ [OutMsg.shfBlock r.dev.toNat r.shid.toNat (csendBlock r k).bn (csendBlock r k).off true bs] })
    (f := fun j => { j with waits := j.waits ++ [csendBlock r k] }) (fun _ => rfl) hactive
  by_cases hlast : k.p0 + 1 < r.nblk.toNat
  · simp only [if_pos hlast]
    refine ⟨rfl, fun k' hk' => ?_⟩
    obtain rfl := Option.some.inj (hk'.symm.trans (State.activeChain_modChain (k := { k with waits := k.waits ++ [csendBlock r k] })
      (f := fun j => { j with p0 := k.p0 + 1 }) (fun _ => rfl) hsent))
    exact ⟨rfl, rfl, rfl⟩
  · simp only [if_neg hlast]
    refine ⟨rfl, fun k' hk' => ?_⟩
    obtain rfl := Option.some.inj (hk'.symm.trans (State.activeChain_modChain (k := { k with waits := k.waits ++ [csendBlock r k] })
      (f := fun j => j.goto (j.recOff + 32)) (fun _ => rfl) hsent))
    exact ⟨rfl, rfl, rfl⟩

/-- Settles O28, record by record: a burst is what the engine does once its ranges are mapped and reached, and in one page or one scratchpad the fold over
its bytes or elements is what stands there afterwards. -/
theorem copyBurstsPerform : Obligations.CopyBurstsPerform := by
  intro s core k ha hone hst goes pc after moveN convN
  have hmoveN : moveN = fun r => moveLen r k := funext fun r => (moveLen_eq r k).symm
  have hconvN : convN = fun r => convLen r k := funext fun r => (convLen_eq r k).symm
  clear_value moveN convN
  subst hmoveN hconvN
  refine ⟨?_, fun u => copy_pages u k, ?_, ?_, mcastTo_spec, ?_, ?_, ?_, ?_, ?_⟩
  · intro c r sps s1 dps s2 s3 hnow n hsrc hdst hreach hlive copied counted
    refine (copyBurst_move ha hst hnow).trans (congrArg Host.Outcome.next ?_)
    exact (moveBurst_eq hsrc hdst hreach hlive).trans (modChain_moveOnward r k _ _)
  · intro c r hnow hsp hdp hp hk n sa da hs0 hs1 hd0 hd1
    exact ⟨_, copyBurst_move ha hst hnow, moveBurst_scratch ha hsp hdp hp hk hs0 hs1 hd0 hd1⟩
  · intro c r ps s1 s2 data s3 hnow hsrc hreach hread hdata hlive
    exact (copyBurst_mcast ha hst hnow).trans (congrArg Host.Outcome.next (mcastBurst_eq hsrc hreach hread hdata hlive))
  · intro c r sps s1 dps s2 s3 m x s4 hnow n hsrc hdst hreach hfold hlive
    exact (copyBurst_conv ha hst hnow).trans (congrArg Host.Outcome.next (convBurst_eq hsrc hdst hreach hfold hlive))
  · intro c r hnow hsp hdp hsw hdw hk n a b sa da
    have hinto := funext fun m => funext fun j => convInto_eq r sa da m j
    exact ⟨_, copyBurst_conv ha hst hnow, (convBurst_scratch hsp hdp hsw hdw hk).trans (congrArg (fun f => (List.range n).foldl f (s.chainScratch k)) hinto)⟩
  · intro r j x bs b i
    refine ⟨convElem_eq r j bs, fun h => ?_, fun h hi => convPut_halves h j x b hi⟩
    rw [convPut_bytes h, (ewidth_eq_of_bytes h).1, Nat.mul_div_cancel_left _ (by decide)]
  · intro c r ps s1 s2 bs s3 hnow hsrc hreach hshf hread bn off
    exact ⟨_, copyBurst_csend ha hst hnow, csendBurst_spec ha hsrc hreach hshf hread⟩
  · intro c r e id ops s0 cps s1 s2 hnow hhead hout hrec hlive hreach u ends
    obtain ⟨hvoided, hread⟩ := sampleBurst_spec hone hhead hout hrec hlive hreach
    have hgoes {t : State} (h : sampleBurst s k r = t) : goes t := (copyBurst_sample ha hst hnow).trans (congrArg Host.Outcome.next h)
    exact ⟨fun hvoid => hgoes (hvoided hvoid), fun start u1 ys rec m1 u2 m2 u3 hvoid hstart hrow hvalues hrecord =>
      hgoes (hread start u1 ys rec m1 u2 m2 u3 hvoid hstart hrow hvalues hrecord)⟩

end Sys2Proof.Machine
end

section
/-! Cells written to a line, and the bytes of memory under a tag, 03 R68 to R70. -/

namespace Sys2Proof.Machine

/-! ### The last cell that writes an address -/

/-- The byte that the last of some cells writes at an address. -/
def lastCell : List Host.Cell → ℕ → Option Byte
  | [], _ => none
  | c :: cs, a => (lastCell cs a).or (if c.1 = a then some c.2 else none)

/-- What a cell list holds at an address. -/
def lookCell (data : List Host.Cell) (a : ℕ) : Option Byte := if Sparse.has data a then some (Sparse.get 0#8 data a) else none

theorem Sparse.has_put {α : Type} (m : Sparse α) (k j : ℕ) (v : α) : Sparse.has (Sparse.put m k v) j = (decide (j = k) || Sparse.has m j) := by
  induction m with
  | nil => simp [Sparse.put, Sparse.has, eq_comm, beq_eq_decide]
  | cons e t ih =>
    obtain ⟨k', v'⟩ := e
    simp only [Sparse.put]
    split
    · subst_vars
      simp [Sparse.has, beq_eq_decide, eq_comm]
    · split
      · simp [Sparse.has, beq_eq_decide, eq_comm]
      · simp [Sparse.has, ih, Bool.or_left_comm]

theorem lookCell_putCell (data : List Host.Cell) (k : ℕ) (v : Byte) (a : ℕ) :
    lookCell (putCell data k v) a = if a = k then some v else lookCell data a := by
  rw [lookCell, lookCell, putCell, Sparse.has_put, Sparse.get_put]
  by_cases h : a = k <;> simp [h]

/-- Cells put one after another: the last one at an address stands. -/
theorem lookCell_foldl_putCell (cells data : List Host.Cell) (a : ℕ) :
    lookCell (cells.foldl (fun d c => putCell d c.1 c.2) data) a = (lastCell cells a).or (lookCell data a) := by
  induction cells generalizing data with
  | nil => rfl
  | cons c cs ih =>
    rw [List.foldl_cons, ih, lookCell_putCell, lastCell]
    by_cases h : c.1 = a
    · simp [h]
    · simp [h, Ne.symm h]

theorem lastCell_eq_none {cells : List Host.Cell} {a : ℕ} (h : ∀ c ∈ cells, c.1 ≠ a) : lastCell cells a = none := by
  induction cells with
  | nil => rfl
  | cons c cs ih =>
    rw [lastCell, ih fun x hx => h x (List.mem_cons_of_mem _ hx), if_neg (h c List.mem_cons_self)]
    rfl

theorem lastCell_append (cells more : List Host.Cell) (a : ℕ) : lastCell (cells ++ more) a = (lastCell more a).or (lastCell cells a) := by
  induction cells with
  | nil => exact (Option.or_none).symm
  | cons c cs ih => rw [List.cons_append, lastCell, ih, lastCell, Option.or_assoc]

/-- Keys that rise above `lo` are not at or below it. -/
theorem lookCell_of_le {data : List Host.Cell} {lo a : ℕ} (h : Sparse.risingFrom (some lo) data = true) (ha : a ≤ lo) : lookCell data a = none := by
  induction data generalizing lo with
  | nil => rfl
  | cons e t ih =>
    simp only [Sparse.risingFrom, Bool.and_eq_true, decide_eq_true_eq] at h
    have hrest := ih h.2 (by omega)
    rw [lookCell, ite_eq_right_iff] at hrest ⊢
    intro hhas
    rw [Sparse.has, Bool.or_eq_true, beq_iff_eq] at hhas
    rcases hhas with he | ht
    · omega
    · cases hrest ht

/-- In a list whose addresses rise each stands once. -/
theorem lastCell_eq_lookCell {data : List Host.Cell} {b : Option ℕ} (h : Sparse.risingFrom b data = true) (a : ℕ) :
    lastCell data a = lookCell data a := by
  induction data generalizing b with
  | nil => rfl
  | cons e t ih =>
    have ht : Sparse.risingFrom (some e.1) t = true := by
      cases b with
      | none => exact h
      | some x => simp only [Sparse.risingFrom, Bool.and_eq_true] at h; exact h.2
    rw [lastCell, ih ht]
    by_cases he : e.1 = a
    · rw [lookCell_of_le ht he.ge]
      simp [lookCell, Sparse.has, Sparse.get, he]
    · simp [lookCell, Sparse.has, Sparse.get, he]

/-- The cells of one line among others. -/
theorem lastCell_filter_line (cells : List Host.Cell) (a : ℕ) : lastCell (cells.filter fun c => lineOf c.1 == lineOf a) a = lastCell cells a := by
  induction cells with
  | nil => rfl
  | cons c cs ih =>
    rw [List.filter_cons]
    split
    · rw [lastCell, ih, lastCell]
    · rename_i h
      have hc : c.1 ≠ a := fun he => h (by rw [he]; exact beq_self_eq_true _)
      rw [ih, lastCell, if_neg hc, Option.or_none]

/-- Bytes at consecutive addresses. -/
theorem lastCell_zip_addrs (pa a : ℕ) (bs : List Byte) :
    lastCell ((addrs pa bs.length).zip bs) a = if pa ≤ a ∧ a < pa + bs.length then some (bs.getD (a - pa) 0) else none := by
  induction bs generalizing pa with
  | nil => simp [lastCell, addrs]
  | cons b bs ih =>
    rw [List.length_cons, addrs_succ, List.zip_cons_cons, lastCell, ih]
    rcases Nat.lt_trichotomy a pa with h | h | h
    · rw [if_neg (by omega), if_neg (by simp only; omega), if_neg (by omega)]
      rfl
    · subst h
      rw [if_neg (by omega), if_pos (by omega), if_pos (by omega), Nat.sub_self]
      rfl
    · by_cases hb : a < pa + 1 + bs.length
      · rw [if_pos ⟨by omega, hb⟩, if_neg (show pa ≠ a by omega), if_pos ⟨by omega, by omega⟩, show a - pa = a - (pa + 1) + 1 by omega]
        rfl
      · rw [if_neg (by omega), if_neg (by simp only; omega), if_neg (by omega)]
        rfl

/-! ### Addresses of one line -/

theorem lineOf_mul (line : ℕ) : lineOf (128 * line) = line := by simp [lineOf]

theorem devOf_congr_line {a b : ℕ} (h : lineOf a = lineOf b) : devOf a = devOf b := by
  simp only [devOf, lineOf] at *
  omega

theorem locOf_congr_line {a b : ℕ} (h : lineOf a = lineOf b) : locOf a / 128 = locOf b / 128 := by
  simp only [locOf, lineOf] at *
  omega

/-- The bounds of the address map are bounds of lines. -/
theorem lt_iff_of_div_eq {x y n : ℕ} (h : x / 128 = y / 128) (hn : n % 128 = 0) : x < n ↔ y < n := by omega

/-- The module of an address is that of its line. -/
theorem State.tagAt_congr_line (s : State) {a b : ℕ} (h : lineOf a = lineOf b) (k : ℕ) : s.tagAt a k = s.tagAt b k := by
  rw [State.tagAt, State.tagAt, State.isLocal, State.isLocal, devOf_congr_line h]

section
variable {loc : ℕ}

theorem locKind_of_dram (h : loc < 2 ^ 38) : locKind loc = .dram (loc / 2 ^ 36) := if_pos h

theorem locKind_of_cxl (h1 : ¬loc < 2 ^ 38) (h2 : ¬loc < 2 ^ 43 ∧ loc < 2 ^ 44) : locKind loc = .cxl ((loc - 2 ^ 43) / 2 ^ 40) (loc % 2 ^ 40) := by
  rw [locKind, if_neg h1, if_pos (by simpa using h2)]

theorem locKind_of_device (h1 : ¬loc < 2 ^ 38) (h2 : ¬(¬loc < 2 ^ 43 ∧ loc < 2 ^ 44)) (h3 : ¬loc < devBase) : locKind loc = .device := by
  rw [locKind, if_neg h1, if_neg (by simpa using h2), if_pos (Nat.not_lt.mp h3)]

theorem locKind_of_reserved (h1 : ¬loc < 2 ^ 38) (h2 : ¬(¬loc < 2 ^ 43 ∧ loc < 2 ^ 44)) (h3 : loc < devBase) : locKind loc = .reserved := by
  rw [locKind, if_neg h1, if_neg (by simpa using h2), if_neg (Nat.not_le.mpr h3)]
end

/-- The die that a LOC is homed on, and whether it is a device register. -/
theorem locKind_congr {x y : ℕ} (h : x / 128 = y / 128) :
    ((match locKind x with | .dram d => some d | .cxl p _ => some (p / 2) | _ => none) =
      match locKind y with | .dram d => some d | .cxl p _ => some (p / 2) | _ => none) ∧
    (locKind x == .device) = (locKind y == .device) := by
  have h38 := lt_iff_of_div_eq h (n := 2 ^ 38) (by norm_num)
  have h43 := lt_iff_of_div_eq h (n := 2 ^ 43) (by norm_num)
  have h44 := lt_iff_of_div_eq h (n := 2 ^ 44) (by norm_num)
  have hdev := lt_iff_of_div_eq h (n := devBase) (by norm_num [devBase])
  by_cases h1 : x < 2 ^ 38
  · rw [locKind_of_dram h1, locKind_of_dram (h38.mp h1)]
    exact ⟨congrArg some (by omega), by simp⟩
  · by_cases h2 : ¬x < 2 ^ 43 ∧ x < 2 ^ 44
    · rw [locKind_of_cxl h1 h2, locKind_of_cxl (h38.not.mp h1) ((and_congr h43.not h44).mp h2)]
      exact ⟨congrArg some (by omega), by simp⟩
    · have h2' := (and_congr h43.not h44).not.mp h2
      by_cases h3 : x < devBase
      · rw [locKind_of_reserved h1 h2 h3, locKind_of_reserved (h38.not.mp h1) h2' (hdev.mp h3)]
        exact ⟨rfl, rfl⟩
      · rw [locKind_of_device h1 h2 h3, locKind_of_device (h38.not.mp h1) h2' (hdev.not.mp h3)]
        exact ⟨rfl, rfl⟩

theorem State.homeDie_congr_line (s : State) {a b : ℕ} (h : lineOf a = lineOf b) : s.homeDie a = s.homeDie b := by
  rw [State.homeDie, State.homeDie, State.isLocal, State.isLocal, devOf_congr_line h]
  exact if_congr Iff.rfl (locKind_congr (locOf_congr_line h)).1 rfl

theorem isDevice_congr_line {a b : ℕ} (h : lineOf a = lineOf b) : isDevice a = isDevice b := (locKind_congr (locOf_congr_line h)).2

/-! ### Memory under a tag -/

section
variable {s t : State}

/-- A byte of memory hangs on its line alone. -/
theorem State.memByte_congr {a : ℕ} (htag : t.lineTag (lineOf a) = s.lineTag (lineOf a)) (hmem : ∀ b, lineOf b = lineOf a → t.mem.read b = s.mem.read b)
    (tag : ℕ) : t.memByte tag a = s.memByte tag a := by
  have hblock : (addrs (alignDown a 16) 16).map t.mem.read = (addrs (alignDown a 16) 16).map s.mem.read := by
    refine List.map_congr_left fun b hb => hmem b ?_
    obtain ⟨i, hi, rfl⟩ := List.mem_map.mp hb
    have hlt := List.mem_range.mp hi
    simp only [lineOf, alignDown]
    omega
  simp only [State.memByte, htag, hblock, hmem a rfl]

/-- A byte under the tag that its line has. -/
theorem State.memByte_of_lineTag {tag a : ℕ} (h : s.lineTag (lineOf a) = tag) : s.memByte tag a = s.mem.read a := by
  rw [State.memByte, if_pos h]

theorem State.lineTag_retag (s : State) (line tag : ℕ) : (s.retag line tag).lineTag line = tag := by
  rw [State.retag]
  split
  · assumption
  · simp [State.lineTag, Sparse.get_put]

theorem State.read_retag (s : State) (line tag : ℕ) {a : ℕ} (ha : lineOf a = line) : (s.retag line tag).mem.read a = s.memByte tag a := by
  subst ha
  rw [State.retag]
  split
  · exact (State.memByte_of_lineTag ‹_›).symm
  · have hline : 128 * lineOf a ≤ a ∧ a < 128 * lineOf a + 128 := by
      simp only [lineOf]
      omega
    have hlen : ((addrs (128 * lineOf a) 128).map (s.memByte tag)).length = 128 := by simp
    refine (Memory.read_writeList ..).trans ?_
    rw [hlen, if_pos hline, addrs, List.map_map, List.getD_eq_getElem _ _ (by simpa using (by omega : a - 128 * lineOf a < 128))]
    simp only [List.getElem_map, List.getElem_range, Function.comp_apply]
    rw [Nat.add_sub_cancel' hline.1]

/-- Another line keeps its tag and its bytes when one is brought under a tag. -/
theorem State.retag_other (s : State) {line a : ℕ} (tag : ℕ) (ha : lineOf a ≠ line) :
    (s.retag line tag).lineTag (lineOf a) = s.lineTag (lineOf a) ∧ (s.retag line tag).mem.read a = s.mem.read a := by
  rw [State.retag]
  split
  · exact ⟨rfl, rfl⟩
  · refine ⟨by simp [State.lineTag, Sparse.get_put, ha], (Memory.read_writeList ..).trans (if_neg ?_)⟩
    simp only [List.length_map, length_addrs]
    simp only [lineOf] at ha
    omega

/-- Bytes written one after another. -/
theorem Memory.read_foldl_write (m : Memory) (cells : List Host.Cell) (a : ℕ) :
    (cells.foldl (fun m c => m.write c.1 c.2) m).read a = (lastCell cells a).getD (m.read a) := by
  induction cells generalizing m with
  | nil => rfl
  | cons c cs ih =>
    rw [List.foldl_cons, ih, Memory.read_write, lastCell]
    cases lastCell cs a with
    | some b => rfl
    | none =>
      by_cases h : c.1 = a
      · simp [h]
      · simp [h, Ne.symm h]

/-- What a write of cells of one line leaves there under its tag. -/
theorem State.memByte_memWrite (s : State) {tag line : ℕ} {cells : List Host.Cell} (hc : ∀ c ∈ cells, lineOf c.1 = line) {a : ℕ} (ha : lineOf a = line) :
    (s.memWrite tag cells).memByte tag a = (lastCell cells a).getD (s.memByte tag a) := by
  cases cells with
  | nil => rfl
  | cons c cs =>
    have hfirst : lineOf c.1 = line := hc c List.mem_cons_self
    have htag : (s.memWrite tag (c :: cs)).lineTag (lineOf a) = tag := by
      rw [ha, ← hfirst]
      exact s.lineTag_retag (lineOf c.1) tag
    rw [State.memByte_of_lineTag htag]
    refine (Memory.read_foldl_write ..).trans ?_
    rw [s.read_retag _ tag (ha.trans hfirst.symm)]

/-- Other lines keep what they read as. -/
theorem State.memByte_memWrite_other (s : State) {tag line : ℕ} {cells : List Host.Cell} (hc : ∀ c ∈ cells, lineOf c.1 = line) {a : ℕ}
    (ha : lineOf a ≠ line) (tag' : ℕ) : (s.memWrite tag cells).memByte tag' a = s.memByte tag' a := by
  cases cells with
  | nil => rfl
  | cons c cs =>
    have hfirst : lineOf c.1 = line := hc c List.mem_cons_self
    have hother {b : ℕ} (hb : lineOf b = lineOf a) := s.retag_other (line := lineOf c.1) (a := b) tag (by rw [hb, hfirst]; exact ha)
    refine State.memByte_congr (t := s.memWrite tag (c :: cs)) (hother rfl).1 (fun b hb => ?_) tag'
    refine (Memory.read_foldl_write ..).trans ?_
    rw [lastCell_eq_none fun x hx he => ha (by rw [← hb, ← he]; exact hc x hx)]
    exact (hother hb).2
end

end Sys2Proof.Machine
end

section
/-! What the caches show of a line: operations that move copies keep the bytes of the coherent copy, 05 R96 to R100. -/

namespace Sys2Proof.Machine

/-! ### The coherent copy from its parts -/

/-- All copies of a line stand under a key. -/
def State.under (s : State) (l k : ℕ) : Prop := ∀ e ∈ s.cache, e.line = l → e.key = k

/-- What the caches hold of a byte: the dirty copy in an L1, then the L2's. -/
def State.held (s : State) (a : ℕ) : Option Byte :=
  ((s.l1Dirty (lineOf a)).bind fun e => lookCell e.data a).or ((s.cline .l2 (lineOf a)).bind fun e => lookCell e.data a)

theorem State.cohByte_eq (s : State) (k a : ℕ) : s.cohByte k a = (s.held a).getD (s.memByte (s.tagAt a k) a) := by
  have hlook (o : Option CLine) : (match o with
      | some e => if Sparse.has e.data a then some (Sparse.get 0#8 e.data a) else none
      | none => none) = o.bind fun e => lookCell e.data a := by cases o <;> rfl
  have hor (o o' : Option Byte) (b : Byte) : (match o with
      | some x => x
      | none => match o' with
        | some x => x
        | none => b) = (o.or o').getD b := by cases o <;> cases o' <;> rfl
  rw [State.held, ← hor, ← hlook, ← hlook]
  rfl

/-- What one line holds hangs on its own entries and bytes: those of `t` are those of `s`. -/
structure State.SameAt (s t : State) (l : ℕ) : Prop where
  cache : (t.cache.filter fun e => e.line == l) = s.cache.filter fun e => e.line == l
  mem : ∀ tag a, lineOf a = l → t.memByte tag a = s.memByte tag a
  tag : ∀ a k, t.tagAt a k = s.tagAt a k

/-- A line under a key keeps its key and shows the same bytes. -/
def State.Shows (s t : State) (l k : ℕ) : Prop := s.under l k → t.under l k ∧ ∀ a, lineOf a = l → t.cohByte k a = s.cohByte k a

section
variable {s t u : State} {l k : ℕ}

theorem State.SameAt.refl (s : State) (l : ℕ) : s.SameAt s l := ⟨rfl, fun _ _ _ => rfl, fun _ _ => rfl⟩

theorem State.SameAt.trans (h : s.SameAt t l) (h' : t.SameAt u l) : s.SameAt u l :=
  ⟨h'.cache.trans h.cache, fun tag a ha => (h'.mem tag a ha).trans (h.mem tag a ha), fun a k => (h'.tag a k).trans (h.tag a k)⟩

theorem State.Shows.refl (s : State) (l k : ℕ) : s.Shows s l k := fun h => ⟨h, fun _ _ => rfl⟩

theorem State.Shows.trans (h : s.Shows t l k) (h' : t.Shows u l k) : s.Shows u l k := fun hs =>
  have ⟨ht, hbytes⟩ := h hs
  have ⟨hu, hbytes'⟩ := h' ht
  ⟨hu, fun a ha => (hbytes' a ha).trans (hbytes a ha)⟩

theorem State.SameAt.foldl {β : Type} {f : State → β → State} (hf : ∀ (s : State) b, s.SameAt (f s b) l) (bs : List β) (s : State) :
    s.SameAt (bs.foldl f s) l := by
  induction bs generalizing s with
  | nil => exact .refl s l
  | cons b bs ih => exact (hf s b).trans (ih _)

theorem State.Shows.foldl {β : Type} {f : State → β → State} {bs : List β} (hf : ∀ s : State, ∀ b ∈ bs, s.Shows (f s b) l k) (s : State) :
    s.Shows (bs.foldl f s) l k := by
  induction bs generalizing s with
  | nil => exact .refl s l k
  | cons b bs ih => exact (hf s b List.mem_cons_self).trans (ih (fun u x hx => hf u x (List.mem_cons_of_mem _ hx)) _)

/-- A search for an entry of a line goes through the entries of that line. -/
theorem find?_filter_line (p : CLine → Bool) (hp : ∀ e, p e = true → e.line = l) (cache : List CLine) :
    (cache.filter fun e => e.line == l).find? p = cache.find? p := by
  rw [List.find?_filter]
  refine congrArg (List.find? · cache) (funext fun e => ?_)
  cases h : p e with
  | false => simp
  | true => simp [hp e h]

theorem State.cline_eq_filter (s : State) (lvl : Lvl) (l : ℕ) :
    s.cline lvl l = (s.cache.filter fun e => e.line == l).find? fun e => e.lvl == lvl && e.line == l :=
  (find?_filter_line _ (fun e he => by simpa using (Bool.and_eq_true_iff.mp he).2) _).symm

theorem State.l1Dirty_eq_filter (s : State) (l : ℕ) :
    s.l1Dirty l = (s.cache.filter fun e => e.line == l).find? fun e => isL1 e.lvl && e.line == l && e.dirty :=
  (find?_filter_line _ (fun e he => by simpa using (Bool.and_eq_true_iff.mp (Bool.and_eq_true_iff.mp he).1).2) _).symm

theorem State.SameAt.cline (h : s.SameAt t l) (lvl : Lvl) : t.cline lvl l = s.cline lvl l := by
  rw [State.cline_eq_filter, State.cline_eq_filter, h.cache]

theorem State.SameAt.l1Dirty (h : s.SameAt t l) : t.l1Dirty l = s.l1Dirty l := by
  rw [State.l1Dirty_eq_filter, State.l1Dirty_eq_filter, h.cache]

theorem State.SameAt.mem_iff (h : s.SameAt t l) {e : CLine} (he : e.line = l) : e ∈ t.cache ↔ e ∈ s.cache := by
  have hmem (c : List CLine) : e ∈ c ↔ e ∈ c.filter fun e => e.line == l := by simp [he]
  rw [hmem, hmem s.cache, h.cache]

theorem State.SameAt.under (h : s.SameAt t l) (hs : s.under l k) : t.under l k := fun e he hl => hs e ((h.mem_iff hl).mp he) hl

theorem State.SameAt.shows (h : s.SameAt t l) (k : ℕ) : s.Shows t l k := fun hs =>
  ⟨h.under hs, fun a ha => by
    subst ha
    rw [State.cohByte_eq, State.cohByte_eq, State.held, State.held, h.l1Dirty, h.cline, h.mem _ _ rfl, h.tag]⟩

/-- A line shows the same bytes where what the caches hold of it, and memory, are the same. -/
theorem State.Shows.of_held (hunder : s.under l k → t.under l k) (hheld : ∀ a, lineOf a = l → t.held a = s.held a)
    (hmem : ∀ tag a, lineOf a = l → t.memByte tag a = s.memByte tag a) (htag : ∀ a k, t.tagAt a k = s.tagAt a k) : s.Shows t l k := fun hs =>
  ⟨hunder hs, fun a ha => by rw [State.cohByte_eq, State.cohByte_eq, hheld a ha, hmem _ a ha, htag]⟩

/-- What the caches hold hangs on two searches. -/
theorem State.held_congr {a : ℕ} (hdirty : t.l1Dirty (lineOf a) = s.l1Dirty (lineOf a)) (hl2 : t.cline .l2 (lineOf a) = s.cline .l2 (lineOf a)) :
    t.held a = s.held a := by rw [State.held, State.held, hdirty, hl2]

/-- The tags and memory of a state of which only caches, directories and the like have changed. -/
theorem State.tagAt_of_sansMem (h : t.sansMem = s.sansMem) (a k : ℕ) : t.tagAt a k = s.tagAt a k := by
  have htag := congrArg (fun u : State => u.tagAt a k) h
  exact htag

theorem State.memByte_of_mem (hmem : t.mem = s.mem) (htag : t.memTag = s.memTag) (h : t.sansMem = s.sansMem) (tag a : ℕ) :
    t.memByte tag a = s.memByte tag a := by
  have hframe : t.frameTag = s.frameTag := by
    have hsame := congrArg State.frameTag h
    exact hsame
  refine State.memByte_congr ?_ (fun b _ => by rw [hmem]) tag
  rw [State.lineTag, State.lineTag, htag, hframe]

theorem State.SameAt.of_cache (hcache : t.cache = s.cache) (hmem : t.mem = s.mem) (htag : t.memTag = s.memTag) (h : t.sansMem = s.sansMem) : s.SameAt t l :=
  ⟨by rw [hcache], fun tag a _ => State.memByte_of_mem hmem htag h tag a, State.tagAt_of_sansMem h⟩
end

/-! ### Entries that come and go -/

section
variable {s : State} {l k : ℕ}

/-- Another line than that of an entry. -/
theorem State.sameAt_dropLine (s : State) (lvl : Lvl) {line l : ℕ} (h : l ≠ line) : s.SameAt (s.dropLine lvl line) l := by
  refine ⟨?_, fun _ _ _ => rfl, fun _ _ => rfl⟩
  rw [State.dropLine, List.filter_filter]
  refine List.filter_congr fun e _ => ?_
  by_cases he : e.line = l
  · simp [he, h]
  · simp [he]

theorem State.sameAt_setLine (s : State) {e : CLine} {l : ℕ} (h : l ≠ e.line) : s.SameAt (s.setLine e) l := by
  refine ⟨?_, fun _ _ _ => rfl, fun _ _ => rfl⟩
  rw [State.setLine, List.filter_append, (s.sameAt_dropLine e.lvl h).cache]
  simp [h.symm]

/-- Entries of one line that go, and leave those of others. -/
theorem State.sameAt_filter (s : State) {p : CLine → Bool} {l : ℕ} (h : ∀ e, e.line = l → p e = true) : s.SameAt { s with cache := s.cache.filter p } l := by
  refine ⟨?_, fun _ _ _ => rfl, fun _ _ => rfl⟩
  rw [List.filter_filter]
  refine List.filter_congr fun e _ => ?_
  by_cases he : e.line = l
  · simp [he, h e he]
  · simp [he]

theorem State.sameAt_updIf (s : State) {p : CLine → Bool} {f : CLine → CLine} {l : ℕ} (hf : ∀ e, (f e).line = e.line) (h : ∀ e, p e = true → e.line ≠ l) :
    s.SameAt { s with cache := updIf s.cache p f } l := by
  refine ⟨?_, fun _ _ _ => rfl, fun _ _ => rfl⟩
  simp only [updIf]
  induction s.cache with
  | nil => rfl
  | cons e es ih =>
    rw [List.map_cons, List.filter_cons, List.filter_cons, ih]
    cases hp : p e with
    | false => simp
    | true => simp [hf, h e hp]

/-- Entries that go and held no byte of the coherent copy. -/
theorem State.shows_filter (s : State) {p : CLine → Bool} {l : ℕ}
    (h : ∀ e ∈ s.cache, (e.lvl = .l2 ∨ isL1 e.lvl = true ∧ e.dirty = true) → e.line = l → p e = true) (k : ℕ) :
    s.Shows { s with cache := s.cache.filter p } l k := by
  have hfind (q : CLine → Bool) (hq : ∀ e, q e = true → (e.lvl = .l2 ∨ isL1 e.lvl = true ∧ e.dirty = true) ∧ e.line = l) :
      (s.cache.filter p).find? q = s.cache.find? q := by
    rw [List.find?_filter]
    refine List.find?_congr fun e he => ?_
    cases hqe : q e with
    | false => simp
    | true =>
      obtain ⟨hlvl, hline⟩ := hq e hqe
      simp [h e he hlvl hline]
  refine State.Shows.of_held (fun hs e he => hs e (List.mem_of_mem_filter he)) (fun a ha => ?_) (fun _ _ _ => rfl) fun _ _ => rfl
  subst ha
  refine State.held_congr (hfind _ fun e he => ?_) (hfind _ fun e he => ?_)
  · simp only [Bool.and_eq_true, beq_iff_eq] at he
    exact ⟨.inr ⟨he.1.1, he.2⟩, he.1.2⟩
  · simp only [Bool.and_eq_true, beq_iff_eq] at he
    exact ⟨.inl he.1, he.2⟩

end

/-! ### The dirty copy in an L1 -/

section
variable {s : State} {l k : ℕ}

theorem State.l1Dirty_mem {e : CLine} (h : s.l1Dirty l = some e) : e ∈ s.cache ∧ isL1 e.lvl = true ∧ e.line = l ∧ e.dirty = true := by
  have hp := List.find?_some h
  simp only [Bool.and_eq_true, beq_iff_eq] at hp
  exact ⟨List.mem_of_find?_eq_some h, hp.1.1, hp.1.2, hp.2⟩

theorem State.l1Dirty_none_iff : s.l1Dirty l = none ↔ ∀ e ∈ s.cache, isL1 e.lvl = true → e.line = l → e.dirty = false := by
  rw [State.l1Dirty, List.find?_eq_none]
  refine forall₂_congr fun e _ => ?_
  simp only [Bool.and_eq_true, beq_iff_eq, not_and, Bool.not_eq_true, and_imp]

/-- A line has at most one (05 R98). -/
theorem State.l1Dirty_unique (h : s.tidy) {d e : CLine} (hd : d ∈ s.cache) (hdl : isL1 d.lvl = true) (hdd : d.dirty = true)
    (he : e ∈ s.cache) (hel : isL1 e.lvl = true) (hed : e.dirty = true ∨ e.lvl = d.lvl) (hline : e.line = d.line) : e = d := by
  obtain ⟨lvl, _, _, _, _, _⟩ := d
  cases lvl with
  | l1 c => exact (((h _ hd).2.2.2 e he hline).2 c rfl hdd).1 hel hed
  | _ => cases hdl

theorem State.l1Dirty_eq_some (h : s.tidy) {e : CLine} (he : e ∈ s.cache) (hel : isL1 e.lvl = true) (hed : e.dirty = true) : s.l1Dirty e.line = some e := by
  cases hd : s.l1Dirty e.line with
  | none => exact absurd (State.l1Dirty_none_iff.mp hd e he hel rfl) (by simp [hed])
  | some d =>
    obtain ⟨hmem, hl1, hline, hdirty⟩ := State.l1Dirty_mem hd
    rw [State.l1Dirty_unique h he hel hed hmem hl1 (.inl hdirty) hline]

/-! ### Entries put in place -/

theorem State.mem_dropLine_iff {lvl : Lvl} {line : ℕ} {e : CLine} : e ∈ (s.dropLine lvl line).cache ↔ e ∈ s.cache ∧ (e.lvl = lvl → e.line ≠ line) := by
  simp only [State.dropLine, List.mem_filter, Bool.not_eq_true', Bool.and_eq_false_iff, beq_eq_false_iff_ne, imp_iff_not_or]

/-- The entry that comes in place of another stands under the key of the line's other copies. -/
theorem State.cache_setLine (s : State) (e : CLine) : ∃ key, (s.setLine e).cache = (s.dropLine e.lvl e.line).cache ++ [{ e with key := key }] ∧
    ∀ k, s.under e.line k → e.key = k → key = k := by
  refine ⟨_, rfl, fun k hs he => ?_⟩
  split
  · rename_i x hx
    have hmem := List.mem_of_mem_filter (List.mem_of_find?_eq_some hx)
    exact hs x hmem (by simpa using List.find?_some hx)
  · exact he

theorem State.under_setLine {e : CLine} (hs : s.under e.line k) (he : e.key = k) : (s.setLine e).under e.line k := by
  obtain ⟨key, hcache, hkey⟩ := s.cache_setLine e
  intro x hx hl
  rw [hcache, List.mem_append, List.mem_singleton] at hx
  rcases hx with hx | rfl
  · exact hs x (List.mem_of_mem_filter hx) hl
  · exact hkey k hs he

/-- What a search finds of an entry that has come in place, and of those it has not replaced. -/
theorem State.find?_setLine (s : State) (e : CLine) (q : CLine → Bool) (hq : ∀ key, q { e with key := key } = q e) (v : CLine → Option Byte)
    (hv : ∀ key, v { e with key := key } = v e) :
    ((s.setLine e).cache.find? q).bind v = (((s.dropLine e.lvl e.line).cache.find? q).or (if q e then some e else none)).bind v := by
  obtain ⟨key, hcache, -⟩ := s.cache_setLine e
  rw [hcache, List.find?_append]
  cases (s.dropLine e.lvl e.line).cache.find? q with
  | some x => rfl
  | none =>
    cases hqe : q e with
    | false => simp [hq, hqe]
    | true => simp [hq, hqe, hv]

/-- What the caches hold once an entry of the L2 has come in place. -/
theorem State.held_setL2 (s : State) {e : CLine} (he : e.lvl = .l2) {a : ℕ} (ha : lineOf a = e.line) :
    (s.setLine e).held a = ((s.l1Dirty e.line).bind fun d => lookCell d.data a).or (lookCell e.data a) := by
  have hdirty : (s.dropLine e.lvl e.line).cache.find? (fun x => isL1 x.lvl && x.line == e.line && x.dirty) = s.l1Dirty e.line := by
    rw [State.dropLine, List.find?_filter, State.l1Dirty]
    refine congrArg (List.find? · s.cache) (funext fun x => ?_)
    by_cases hx : x.lvl = .l2
    · simp [hx, isL1]
    · simp [hx, he, beq_eq_decide]
  have hnone : (s.dropLine e.lvl e.line).cache.find? (fun x => x.lvl == .l2 && x.line == e.line) = none := by
    refine List.find?_eq_none.mpr fun x hx => ?_
    simpa [he] using (State.mem_dropLine_iff.mp hx).2
  rw [State.held, State.l1Dirty, State.cline, ha, s.find?_setLine e _ (fun _ => rfl) (fun d => lookCell d.data a) (fun _ => rfl),
    s.find?_setLine e _ (fun _ => rfl) (fun d => lookCell d.data a) (fun _ => rfl), hdirty, hnone]
  simp [he, isL1]

/-- What the caches hold once an entry of another level has come in place. -/
theorem State.held_setAbove (s : State) {e : CLine} (he : e.lvl ≠ .l2) {a : ℕ} (ha : lineOf a = e.line) :
    (s.setLine e).held a = ((((s.dropLine e.lvl e.line).l1Dirty e.line).or (if isL1 e.lvl && e.dirty then some e else none)).bind
      fun d => lookCell d.data a).or ((s.cline .l2 e.line).bind fun d => lookCell d.data a) := by
  have hl2 : (s.dropLine e.lvl e.line).cache.find? (fun x => x.lvl == .l2 && x.line == e.line) = s.cline .l2 e.line := by
    rw [State.dropLine, List.find?_filter, State.cline]
    refine congrArg (List.find? · s.cache) (funext fun x => ?_)
    by_cases hx : x.lvl = .l2
    · simp [hx, Ne.symm he, beq_eq_decide]
    · simp [hx]
  rw [State.held, State.l1Dirty, State.cline, ha, s.find?_setLine e _ (fun _ => rfl) (fun d => lookCell d.data a) (fun _ => rfl),
    s.find?_setLine e _ (fun _ => rfl) (fun d => lookCell d.data a) (fun _ => rfl), hl2, ← State.l1Dirty]
  simp [he]

/-- The dirty copy is that of another level than the one that gives its entry up. -/
theorem State.l1Dirty_dropLine {lvl : Lvl} (h : ∀ e ∈ s.cache, e.line = l → e.lvl = lvl → isL1 e.lvl = true → e.dirty = false) :
    (s.dropLine lvl l).l1Dirty l = s.l1Dirty l := by
  rw [State.l1Dirty, State.dropLine, List.find?_filter, State.l1Dirty]
  refine List.find?_congr fun e he => ?_
  by_cases hl : e.line = l
  · by_cases hlvl : e.lvl = lvl
    · cases h1 : isL1 e.lvl with
      | false => simp
      | true => simp [h e he hl hlvl h1]
    · simp [hlvl, beq_eq_decide]
  · simp [hl]

/-- An entry that stands already is the one used last, and nothing else changes. -/
theorem State.shows_again (h : s.tidy) {lvl : Lvl} {line : ℕ} {e : CLine} (he : s.cline lvl line = some e) (l k : ℕ) : s.Shows (s.setLine e) l k := by
  obtain ⟨hmem, rfl, rfl⟩ := State.cline_mem he
  by_cases hl : l = e.line
  · subst hl
    refine State.Shows.of_held (fun hs => State.under_setLine hs (hs e hmem rfl)) (fun a ha => ?_) (fun _ _ _ => rfl) fun _ _ => rfl
    by_cases h2 : e.lvl = .l2
    · rw [s.held_setL2 h2 ha, State.held, ha, ← h2, he]
      rfl
    · rw [s.held_setAbove h2 ha, State.held, ha]
      by_cases hd : isL1 e.lvl = true ∧ e.dirty = true
      · have hnone : (s.dropLine e.lvl e.line).l1Dirty e.line = none := State.l1Dirty_none_iff.mpr fun x hx hx1 hxl => by
          obtain ⟨hxs, hxne⟩ := State.mem_dropLine_iff.mp hx
          by_contra hxd
          exact hxne (congrArg CLine.lvl (State.l1Dirty_unique h hmem hd.1 hd.2 hxs hx1 (.inl (by simpa using hxd)) hxl)) hxl
        rw [hnone, State.l1Dirty_eq_some h hmem hd.1 hd.2, hd.1, hd.2]
        rfl
      · rw [State.l1Dirty_dropLine fun x hx hxl hxv hx1 => ?_, if_neg (by simpa using hd), Option.or_none]
        by_contra hxd
        have hsame := State.l1Dirty_unique h hx hx1 (by simpa using hxd) hmem (hxv ▸ hx1) (.inr hxv.symm) hxl.symm
        exact hd ⟨hxv ▸ hx1, hsame ▸ by simpa using hxd⟩
  · exact (s.sameAt_setLine hl).shows k

/-- A clean entry comes to a level that holds none of its line. -/
theorem State.shows_fresh {lvl : Lvl} {line : ℕ} (hnone : s.cline lvl line = none) (key way : ℕ) (l k : ℕ) (hk : l = line → k = key) :
    s.Shows (s.setLine ⟨lvl, line, key, way, false, []⟩) l k := by
  by_cases hl : l = line
  · subst hl
    obtain rfl := hk rfl
    refine State.Shows.of_held (fun hs => State.under_setLine hs rfl) (fun a ha => ?_) (fun _ _ _ => rfl) fun _ _ => rfl
    by_cases h2 : lvl = .l2
    · subst h2
      rw [s.held_setL2 rfl ha, State.held, ha, hnone]
      rfl
    · rw [s.held_setAbove h2 ha, State.held, ha, State.l1Dirty_dropLine fun e he hel hev _ => absurd hev (State.cline_none hnone e he hel)]
      simp
  · exact (s.sameAt_setLine (e := ⟨lvl, line, key, way, false, []⟩) hl).shows k

end

end Sys2Proof.Machine
end

section
/-! What moves copies of lines between memory, the L2s and the caches above them keeps what every line shows, 05 R96 to R99. -/

namespace Sys2Proof.Machine

/-- All lines keep their keys and show the same bytes. -/
def State.ShowsAll (s t : State) : Prop := ∀ l k, s.Shows t l k

/-- The same, where one line may come under a key. -/
def State.ShowsBut (s t : State) (line key : ℕ) : Prop := ∀ l k, (l = line → k = key) → s.Shows t l k

/-- A line under a key takes cells in its L2, and no L1 holds it dirty; other lines show the same bytes. -/
structure State.Takes (s t : State) (line key : ℕ) (cells : List Host.Cell) : Prop where
  tidy : t.tidy
  under : t.under line key
  clean : t.l1Dirty line = none
  bytes : ∀ a, lineOf a = line → t.cohByte key a = (lastCell cells a).getD (s.cohByte key a)
  others : ∀ l k, l ≠ line → s.Shows t l k

section
variable {s t u : State} {line key : ℕ} {cells : List Host.Cell}

theorem State.ShowsAll.refl (s : State) : s.ShowsAll s := fun l k => .refl s l k

theorem State.ShowsAll.trans (h : s.ShowsAll t) (h' : t.ShowsAll u) : s.ShowsAll u := fun l k => (h l k).trans (h' l k)

theorem State.ShowsAll.but (h : s.ShowsAll t) (line key : ℕ) : s.ShowsBut t line key := fun l k _ => h l k

theorem State.ShowsBut.trans (h : s.ShowsBut t line key) (h' : t.ShowsBut u line key) : s.ShowsBut u line key :=
  fun l k hk => (h l k hk).trans (h' l k hk)

theorem State.ShowsBut.own (h : s.ShowsBut t line key) : s.Shows t line key := h line key fun _ => rfl

theorem State.ShowsBut.other (h : s.ShowsBut t line key) {l : ℕ} (hl : l ≠ line) (k : ℕ) : s.Shows t l k := h l k fun he => absurd he hl

/-- What changes neither caches nor memory. -/
theorem State.showsAll_of_same (hcache : t.cache = s.cache) (hmem : t.mem = s.mem) (htag : t.memTag = s.memTag) (h : t.sansMem = s.sansMem) : s.ShowsAll t :=
  fun _ k => (State.SameAt.of_cache hcache hmem htag h).shows k

/-! ### The L2 -/

theorem State.sameAt_writeBackL2 (s : State) {l line : ℕ} (h : l ≠ line) : s.SameAt (s.writeBackL2 line) l := by
  rw [State.writeBackL2]
  split
  · exact .refl s l
  · rename_i e _
    have hcells : ∀ c ∈ e.data.filter (fun c => lineOf c.1 == line), lineOf c.1 = line := fun c hc => by simpa using (List.mem_filter.mp hc).2
    exact ⟨by rw [State.memWrite_cache, (s.sameAt_dropLine .l2 h).cache],
      fun tag a ha => State.memByte_memWrite_other (s.dropLine .l2 line) hcells (by rwa [ha]) tag,
      State.tagAt_of_sansMem (State.sansMem_memWrite ..)⟩

/-- A line that no L1 holds dirty is written back as it shows. -/
theorem State.showsAll_writeBackL2 (h : s.tidy) (hclean : s.l1Dirty line = none) : s.ShowsAll (s.writeBackL2 line) := by
  intro l k
  by_cases hl : l = line
  · subst hl
    rw [State.writeBackL2]
    split
    · exact .refl s l k
    · rename_i e he
      obtain ⟨hmem, -, hline⟩ := State.cline_mem he
      intro hs
      obtain rfl := hs e hmem hline
      refine ⟨fun x hx => hs x (List.mem_of_mem_filter (by rwa [State.memWrite_cache] at hx)), fun a ha => ?_⟩
      have hcells : ∀ c ∈ e.data.filter (fun c => lineOf c.1 == l), lineOf c.1 = l := fun c hc => by simpa using (List.mem_filter.mp hc).2
      have hdirty : (s.dropLine .l2 l).l1Dirty l = none := State.l1Dirty_none_iff.mpr fun x hx =>
        State.l1Dirty_none_iff.mp hclean x (List.mem_of_mem_filter hx)
      have hl2 : (s.dropLine .l2 l).cline .l2 l = none := List.find?_eq_none.mpr fun x hx => by simpa using (State.mem_dropLine_iff.mp hx).2
      have hheld : (State.memWrite (s.dropLine .l2 l) (s.tagAt (128 * l) e.key) (e.data.filter fun c => lineOf c.1 == l)).held a = none := by
        rw [State.held, State.l1Dirty, State.cline, State.memWrite_cache, ← State.l1Dirty, ← State.cline, ha, hdirty, hl2]
        rfl
      have hcell : lastCell (e.data.filter fun c => lineOf c.1 == l) a = lookCell e.data a := by
        rw [← ha, lastCell_filter_line, lastCell_eq_lookCell (State.tidy_ok h hmem).1]
      rw [State.cohByte_eq, hheld, State.tagAt_of_sansMem (State.sansMem_memWrite ..), State.tagAt_congr_line _ (ha.trans (lineOf_mul l).symm)]
      refine (State.memByte_memWrite (s.dropLine .l2 l) hcells ha).trans ?_
      rw [State.cohByte_eq, State.held, ha, hclean, he, hcell, s.tagAt_congr_line (ha.trans (lineOf_mul l).symm)]
      rfl
  · exact (s.sameAt_writeBackL2 hl).shows k

theorem State.Takes.refl (h : s.tidy) (hunder : s.under line key) (hclean : s.l1Dirty line = none) : s.Takes s line key [] :=
  ⟨h, hunder, hclean, fun _ _ => rfl, fun l k _ => .refl s l k⟩

/-- Cells are written in the L2. -/
theorem State.takes_wrote (h : s.tidy) (hunder : s.under line key) (hclean : s.l1Dirty line = none) (way : ℕ) (hcells : ∀ c ∈ cells, lineOf c.1 = line) :
    s.Takes (s.setLine (.wrote (s.cline .l2 line) .l2 line key way cells)) line key cells := by
  have hfilter : (cells.filter fun c => lineOf c.1 == line) = cells := List.filter_eq_self.mpr fun c hc => by simpa using hcells c hc
  refine ⟨State.tidy_setLow h (State.tidy_wrote h ..) rfl (by simp [CLine.wrote]), State.under_setLine hunder rfl,
    State.l1Dirty_none_iff.mpr fun x hx hx1 => ?_, fun a ha => ?_, fun l k hl => (s.sameAt_setLine (e := .wrote ..) hl).shows k⟩
  · refine State.l1Dirty_none_iff.mp hclean x (State.above_setLine rfl x hx ?_) hx1
    rintro h2
    rw [h2] at hx1
    cases hx1
  · rw [State.cohByte_eq, s.held_setL2 (e := .wrote ..) rfl ha, State.cohByte_eq, State.held, ha]
    simp only [CLine.wrote, hfilter, hclean, lookCell_foldl_putCell, Option.bind_none, Option.none_or]
    cases lastCell cells a with
    | some b => rfl
    | none =>
      cases s.cline .l2 line <;> rfl

/-- The dirty copies of a line, which are one, come to its L2 one after another. -/
theorem State.takes_foldl {f : State → CLine → State} {e : CLine} (hkey : e.key = key) (hcells : ∀ c ∈ e.data, lineOf c.1 = line)
    (hf : ∀ u : State, u.tidy → u.under line key → u.l1Dirty line = none → u.Takes (f u e) line key e.data) {es : List CLine} (hes : ∀ x ∈ es, x = e) (hne : es ≠ [])
    (h : s.tidy) (hunder : s.under line key) (hclean : s.l1Dirty line = none) : s.Takes (es.foldl f s) line key e.data := by
  induction es generalizing s with
  | nil => exact absurd rfl hne
  | cons x xs ih =>
    obtain rfl := hes x List.mem_cons_self
    have hfirst := hf s h hunder hclean
    cases xs with
    | nil => exact hfirst
    | cons y ys =>
      obtain ⟨ht, hu, hc, hb, ho⟩ := ih (fun z hz => hes z (List.mem_cons_of_mem _ hz)) (List.cons_ne_nil _ _) hfirst.tidy hfirst.under hfirst.clean
      refine ⟨ht, hu, hc, fun a ha => ?_, fun l k hl => (hfirst.others l k hl).trans (ho l k hl)⟩
      rw [List.foldl_cons, hb a ha, hfirst.bytes a ha]
      cases lastCell x.data a <;> rfl

/-- The dirty copies of a line above its L2. -/
def State.dirties (s : State) (line : ℕ) : List CLine := s.cache.filter fun e => isL1 e.lvl && e.line == line && e.dirty

theorem State.mem_dirties {e : CLine} : e ∈ s.dirties line ↔ e ∈ s.cache ∧ isL1 e.lvl = true ∧ e.line = line ∧ e.dirty = true := by
  simp only [State.dirties, List.mem_filter, Bool.and_eq_true, beq_iff_eq, and_assoc]

/-- Copies that go, and a dirty one that comes to the L2 first, leave what every line shows. -/
theorem State.showsAll_gather {f : State → CLine → State} (h : s.tidy)
    (hf : ∀ (u : State) (e : CLine), u.tidy → u.under line e.key → u.l1Dirty line = none → (∀ c ∈ e.data, lineOf c.1 = line) →
      u.Takes (f u e) line e.key e.data)
    (ht : t.tidy) (hclean : t.l1Dirty line = none) (hmem : t.mem = s.mem) (htag : t.memTag = s.memTag) (hrest : t.sansMem = s.sansMem)
    (hl2 : t.cline .l2 line = s.cline .l2 line) (hunder : ∀ k, s.under line k → t.under line k) (hother : ∀ l, l ≠ line → s.SameAt t l) :
    s.ShowsAll ((s.dirties line).foldl f t) := by
  intro l k
  have hmemByte := State.memByte_of_mem hmem htag hrest
  cases hd : s.dirties line with
  | nil =>
    by_cases hl : l = line
    · subst hl
      have hs : s.l1Dirty l = none := State.l1Dirty_none_iff.mpr fun e he he1 hel => by
        by_contra hed
        have hin : e ∈ s.dirties l := State.mem_dirties.mpr ⟨he, he1, hel, by simpa using hed⟩
        rw [hd] at hin
        cases hin
      refine State.Shows.of_held (hunder k) (fun a ha => ?_) (fun tag a _ => hmemByte tag a) (State.tagAt_of_sansMem hrest)
      subst ha
      exact State.held_congr (hclean.trans hs.symm) hl2
    · exact (hother l hl).shows k
  | cons e es =>
    have hin : e ∈ s.dirties line := hd ▸ List.mem_cons_self
    obtain ⟨he, he1, hel, hed⟩ := State.mem_dirties.mp hin
    have hsame : ∀ x ∈ e :: es, x = e := fun x hx => by
      obtain ⟨hxs, hx1, hxl, hxd⟩ := State.mem_dirties.mp (hd ▸ hx)
      exact State.l1Dirty_unique h he he1 hed hxs hx1 (.inl hxd) (hxl.trans hel.symm)
    have hcells : ∀ c ∈ e.data, lineOf c.1 = line := hel ▸ (State.tidy_ok h he).2.1
    have hkey : s.under line e.key := fun x hx hxl => State.tidy_key h he hx (hxl.trans hel.symm)
    have htakes := State.takes_foldl rfl hcells (fun u hu hk hc => hf u e hu hk hc hcells) hsame (List.cons_ne_nil _ _) ht (hunder _ hkey) hclean
    by_cases hl : l = line
    · subst hl
      intro hs
      obtain rfl := hs e he hel
      refine ⟨htakes.under, fun a ha => ?_⟩
      rw [htakes.bytes a ha, State.cohByte_eq, State.cohByte_eq, State.held, State.held, ha, hclean, hl2, hmemByte, State.tagAt_of_sansMem hrest,
        ← hel, State.l1Dirty_eq_some h he he1 hed, lastCell_eq_lookCell (State.tidy_ok h he).1]
      simp only [Option.bind_some, Option.bind_none, Option.none_or]
      cases lookCell e.data a <;> rfl
    · exact ((hother l hl).shows k).trans (htakes.others l k hl)

/-- The copies of a line above its L2 go. -/
theorem State.find?_dropAbove (s : State) (line : ℕ) (q : CLine → Bool) (hq : ∀ e, q e = true → e.lvl = .l2) :
    (s.cache.filter fun e => !(e.lvl != .l2 && e.line == line)).find? q = s.cache.find? q := by
  rw [List.find?_filter]
  refine congrArg (List.find? · s.cache) (funext fun e => ?_)
  cases he : q e with
  | false => simp
  | true => simp [hq e he]

theorem State.showsAll_recall {f : State → CLine → State} (h : s.tidy)
    (hf : ∀ (u : State) (e : CLine), u.tidy → u.under line e.key → u.l1Dirty line = none → (∀ c ∈ e.data, lineOf c.1 = line) →
      u.Takes (f u e) line e.key e.data) :
    s.ShowsAll ((s.dirties line).foldl f { s with cache := s.cache.filter fun e => !(e.lvl != .l2 && e.line == line) }) := by
  refine State.showsAll_gather h hf (State.tidy_of_subset h fun e he => List.mem_of_mem_filter he) ?_ rfl rfl rfl ?_ (fun k hs e he => hs e (List.mem_of_mem_filter he))
    fun l hl => s.sameAt_filter fun e he => by simp [he, hl]
  · refine State.l1Dirty_none_iff.mpr fun e he he1 hel => ?_
    have hlvl : e.lvl = .l2 := by simpa [hel] using (List.mem_filter.mp he).2
    rw [hlvl] at he1
    cases he1
  · exact s.find?_dropAbove line _ fun e he => by simpa using (Bool.and_eq_true_iff.mp he).1

theorem State.showsAll_mergeL1 (h : s.tidy) (line : ℕ) : s.ShowsAll (s.mergeL1 line) :=
  State.showsAll_recall h fun _ _ hu hk hc hcells => State.takes_wrote hu hk hc _ hcells

theorem State.sameAt_mergeL1 (s : State) {l line : ℕ} (hl : l ≠ line) : s.SameAt (s.mergeL1 line) l := by
  refine (s.sameAt_filter (p := fun e => !(e.lvl != .l2 && e.line == line)) fun e he => by simp [he, hl]).trans ?_
  exact State.SameAt.foldl (fun u e => u.sameAt_setLine (e := .wrote ..) hl) _ _

/-- Nothing of a line stands above its L2. -/
theorem State.mergeL1_alone (s : State) (line : ℕ) : ∀ e ∈ (s.mergeL1 line).cache, e.line = line → e.lvl = .l2 := by
  intro e he hl
  by_contra hlvl
  have hin := State.above_foldl (fun _ _ => State.above_setLine (by rfl)) _ _ e he hlvl
  simpa [hl, hlvl] using (List.mem_filter.mp hin).2

theorem State.l1Dirty_of_alone (h : ∀ e ∈ s.cache, e.line = line → e.lvl = .l2) : s.l1Dirty line = none :=
  State.l1Dirty_none_iff.mpr fun e he he1 hel => by
    rw [h e he hel] at he1
    cases he1

theorem State.showsAll_loseL2 (h : s.tidy) (line : ℕ) : s.ShowsAll (s.loseL2 line) :=
  (State.showsAll_mergeL1 h line).trans ((State.showsAll_writeBackL2 (State.tidy_mergeL1 line h) (State.l1Dirty_of_alone (s.mergeL1_alone line))).trans
    (State.showsAll_of_same rfl rfl rfl rfl))

theorem State.sameAt_loseL2 (s : State) {l line : ℕ} (hl : l ≠ line) : s.SameAt (s.loseL2 line) l :=
  (s.sameAt_mergeL1 hl).trans (((s.mergeL1 line).sameAt_writeBackL2 hl).trans (.of_cache rfl rfl rfl rfl))

/-- A line that waits outside its set for acknowledgements shows what it did. -/
theorem State.showsAll_toWay (s : State) (line way : ℕ) :
    s.ShowsAll { s with cache := updIf s.cache (fun x => x.lvl == Lvl.l2 && x.line == line) fun x => { x with way := way } } := by
  intro l k
  have hfind (q : CLine → Bool) (hq : ∀ x w, q { x with way := w } = q x) (a : ℕ) :
      ((updIf s.cache (fun x => x.lvl == Lvl.l2 && x.line == line) fun x => { x with way := way }).find? q).bind (fun d => lookCell d.data a) =
        (s.cache.find? q).bind fun d => lookCell d.data a := by
    rw [updIf, List.find?_map]
    have hsame : (q ∘ fun x => if (x.lvl == Lvl.l2 && x.line == line) = true then { x with way := way } else x) = q := funext fun x => by
      simp only [Function.comp_apply]
      split
      · exact hq x way
      · rfl
    rw [hsame]
    cases s.cache.find? q with
    | none => rfl
    | some x =>
      simp only [Option.map_some, Option.bind_some]
      split <;> rfl
  refine State.Shows.of_held (fun hs e he hel => ?_) (fun a _ => ?_) (fun _ _ _ => rfl) fun _ _ => rfl
  · obtain ⟨x, hx, rfl⟩ := List.mem_map.mp he
    split at hel <;> rename_i hp <;> simp only [hp] <;> exact hs x hx hel
  · rw [State.held, State.held, State.l1Dirty, State.cline, hfind _ fun _ _ => rfl, hfind _ fun _ _ => rfl, ← State.l1Dirty, ← State.cline]

theorem State.sameAt_toWay (s : State) {l line : ℕ} (hl : l ≠ line) (way : ℕ) :
    s.SameAt { s with cache := updIf s.cache (fun x => x.lvl == Lvl.l2 && x.line == line) fun x => { x with way := way } } l := by
  refine s.sameAt_updIf (fun _ => rfl) fun e he => ?_
  simp only [Bool.and_eq_true, beq_iff_eq] at he
  rw [he.2]
  exact hl.symm

theorem State.showsAll_evictL2 (h : s.tidy) (line : ℕ) : s.ShowsAll (s.evictL2 line) := by
  simp only [State.evictL2]
  split
  · exact State.showsAll_loseL2 h line
  · refine (State.showsAll_mergeL1 h line).trans ?_
    refine (State.showsAll_of_same (t := (s.mergeL1 line).setDir { s.dirOf line with cores := [], dies := [] }) rfl rfl rfl rfl).trans ?_
    exact (State.showsAll_toWay _ line _).trans (State.showsAll_of_same rfl rfl rfl rfl)

theorem State.sameAt_evictL2 (s : State) {l line : ℕ} (hl : l ≠ line) : s.SameAt (s.evictL2 line) l := by
  simp only [State.evictL2]
  split
  · exact s.sameAt_loseL2 hl
  · refine (s.sameAt_mergeL1 hl).trans ?_
    have hway := State.sameAt_toWay ((s.mergeL1 line).setDir { s.dirOf line with cores := [], dies := [] }) hl
      (State.ways ((s.mergeL1 line).setDir { s.dirOf line with cores := [], dies := [] }) .l2)
    exact ⟨hway.cache, hway.mem, hway.tag⟩

/-- The entry that makes place is that of another line. -/
theorem State.wayFor_victim {lvl : Lvl} {w : ℕ} {e : CLine} (h : s.wayFor lvl line = (w, some e)) : e ∈ s.cache ∧ e.lvl = lvl ∧ e.line ≠ line ∧ s.cline lvl line = none := by
  rw [State.wayFor] at h
  split at h
  · cases h
  · rename_i hnone
    dsimp only at h
    split at h
    · cases h
    · split at h
      · rename_i x xs hmates
        obtain ⟨-, hx⟩ := Prod.mk.inj h
        obtain rfl := Option.some.inj hx
        have hmem : x ∈ s.setMates lvl line := hmates ▸ List.mem_cons_self
        simp only [State.setMates, List.mem_filter, Bool.and_eq_true, beq_iff_eq, bne_iff_ne] at hmem
        exact ⟨hmem.1, hmem.2.1.1.1, hmem.2.1.1.2, hnone⟩
      · cases h

theorem State.showsAll_placeL2 (h : s.tidy) (line : ℕ) : s.ShowsAll (s.placeL2 line).2 := by
  rw [State.placeL2]
  split
  · exact State.showsAll_evictL2 h _
  · exact .refl s

theorem State.sameAt_placeL2 (s : State) (line : ℕ) : s.SameAt (s.placeL2 line).2 line := by
  rw [State.placeL2]
  split
  · rename_i hv
    exact s.sameAt_evictL2 (Ne.symm (State.wayFor_victim hv).2.2.1)
  · exact .refl s line

/-- Cells come to the L2 of their line. -/
theorem State.takes_putL2 (h : s.tidy) (hunder : s.under line key) (hclean : s.l1Dirty line = none) (hcells : ∀ c ∈ cells, lineOf c.1 = line) :
    s.Takes (s.putL2 key cells) line key cells := by
  cases cells with
  | nil => exact .refl h hunder hclean
  | cons c cs =>
    obtain rfl := hcells c List.mem_cons_self
    have hsame := s.sameAt_placeL2 (lineOf c.1)
    obtain ⟨ht, hu, hc, hb, ho⟩ := State.takes_wrote (State.tidy_placeL2 (lineOf c.1) h) (hsame.under hunder) (hsame.l1Dirty.trans hclean)
      (s.placeL2 (lineOf c.1)).1 hcells
    exact ⟨ht, hu, hc, fun a ha => (hb a ha).trans (by rw [((hsame.shows key) hunder).2 a ha]), fun l k hl =>
      (State.showsAll_placeL2 h (lineOf c.1) l k).trans (ho l k hl)⟩

theorem State.showsAll_recallL1 (h : s.tidy) (line : ℕ) : s.ShowsAll (s.recallL1 line) :=
  State.showsAll_recall h fun _ _ hu hk hc hcells => State.takes_putL2 hu hk hc hcells

theorem State.recallL1_alone (s : State) (line : ℕ) : ∀ e ∈ (s.recallL1 line).cache, e.line = line → e.lvl = .l2 := by
  intro e he hl
  by_contra hlvl
  have hin := State.above_foldl (fun (s : State) (e : CLine) => State.above_putL2 s e.key e.data) _ _ e he hlvl
  simpa [hl, hlvl] using (List.mem_filter.mp hin).2

/-- A dirty copy that is written back and stays, clean. -/
theorem State.showsAll_cleanL1 (h : s.tidy) (line : ℕ) : s.ShowsAll (s.cleanL1 line) := by
  refine State.showsAll_gather (t := { s with cache := updIf s.cache (fun e => isL1 e.lvl && e.line == line) fun e => { e with dirty := false, data := [] } }) h
    (fun _ _ hu hk hc hcells => State.takes_putL2 hu hk hc hcells)
    (State.tidy_updIf h rfl fun e _ _ => ⟨rfl, rfl, rfl, fun hd => (by cases hd), rfl, by simp, fun _ _ => rfl⟩) ?_ rfl rfl rfl ?_ (fun k hs e he hel => ?_) fun l hl =>
      s.sameAt_updIf (fun _ => rfl) fun e he => ?_
  · refine State.l1Dirty_none_iff.mpr fun e he he1 hel => ?_
    obtain ⟨x, -, rfl⟩ := List.mem_map.mp he
    split
    · rfl
    · rename_i hp
      rw [if_neg hp] at he1 hel
      exact absurd (by simp [he1, hel]) hp
  · rw [State.cline, State.cline, updIf, List.find?_map]
    have hsame : ((fun e : CLine => e.lvl == Lvl.l2 && e.line == line) ∘ fun x => if (isL1 x.lvl && x.line == line) = true then
        { x with dirty := false, data := [] } else x) = fun e => e.lvl == Lvl.l2 && e.line == line := funext fun x => by
      simp only [Function.comp_apply]
      split <;> rfl
    rw [hsame]
    cases hf : s.cache.find? fun e => e.lvl == Lvl.l2 && e.line == line with
    | none => rfl
    | some e =>
      have hlvl : e.lvl = .l2 := by
        have hp := List.find?_some hf
        simp only [Bool.and_eq_true, beq_iff_eq] at hp
        exact hp.1
      simp [hlvl, isL1]
  · obtain ⟨x, hx, rfl⟩ := List.mem_map.mp he
    split at hel <;> rename_i hp <;> simp only [hp] <;> exact hs x hx hel
  · simp only [Bool.and_eq_true, beq_iff_eq] at he
    rw [he.2]
    exact hl.symm

/-- The L2 holds a line under a key. -/
theorem State.showsBut_touchL2 (h : s.tidy) (key line : ℕ) : s.ShowsBut (s.touchL2 key line) line key := by
  intro l k hk
  rw [State.touchL2]
  split
  · rename_i e he
    exact State.shows_again h he l k
  · rename_i hnone
    exact (State.showsAll_placeL2 h line l k).trans (State.shows_fresh ((s.sameAt_placeL2 line).cline .l2 |>.trans hnone) key _ l k hk)
end

end Sys2Proof.Machine
end

section
/-! An access under a key brings its line under that key, and a write at the home slice leaves its cells there, 03 R69, 05 R98, R100. -/

namespace Sys2Proof.Machine

/-! ### Side entries do not matter to the caches -/

/-- Other side entries (04 R83). -/
def State.withSide (s : State) (σ : List SideEntry) : State := { s with side := σ }
section
variable (s : State) (σ : List SideEntry)

theorem State.withSide_foldl {β : Type} {f : State → β → State} (hf : ∀ s b, f (s.withSide σ) b = (f s b).withSide σ) (bs : List β) (s : State) :
    bs.foldl f (s.withSide σ) = (bs.foldl f s).withSide σ := by
  induction bs generalizing s with
  | nil => rfl
  | cons b bs ih => rw [List.foldl_cons, hf, ih, List.foldl_cons]

theorem State.withSide_ite {p : Prop} [Decidable p] (s t : State) : (if p then s.withSide σ else t.withSide σ) = (if p then s else t).withSide σ := by
  split <;> rfl

theorem State.retag_withSide (line tag : ℕ) : (s.withSide σ).retag line tag = (s.retag line tag).withSide σ := by
  rw [State.retag, State.retag, show (s.withSide σ).lineTag line = s.lineTag line from rfl]
  split <;> rfl

theorem State.memWrite_withSide (tag : ℕ) (cells : List Host.Cell) : (s.withSide σ).memWrite tag cells = (s.memWrite tag cells).withSide σ := by
  cases cells with
  | nil => rfl
  | cons c cs =>
    simp only [State.memWrite]
    rw [State.retag_withSide]
    rfl

theorem State.writeBackL2_withSide (line : ℕ) : (s.withSide σ).writeBackL2 line = (s.writeBackL2 line).withSide σ := by
  rw [State.writeBackL2, show (s.withSide σ).cline .l2 line = s.cline .l2 line from rfl, State.writeBackL2]
  cases s.cline .l2 line with
  | none => rfl
  | some e => exact (s.dropLine .l2 line).memWrite_withSide σ _ _

theorem State.mergeL1_withSide (line : ℕ) : (s.withSide σ).mergeL1 line = (s.mergeL1 line).withSide σ :=
  State.withSide_foldl σ (fun _ _ => rfl) _ { s with cache := _ }

theorem State.loseL2_withSide (line : ℕ) : (s.withSide σ).loseL2 line = (s.loseL2 line).withSide σ := by
  rw [State.loseL2, State.mergeL1_withSide, State.writeBackL2_withSide]
  rfl

theorem State.evictL2_withSide (line : ℕ) : (s.withSide σ).evictL2 line = (s.evictL2 line).withSide σ := by
  simp only [State.evictL2]
  rw [State.loseL2_withSide, State.mergeL1_withSide, show (s.withSide σ).holders line = s.holders line from rfl]
  split <;> rfl

theorem State.placeL2_withSide (line : ℕ) : (s.withSide σ).placeL2 line = ((s.placeL2 line).1, (s.placeL2 line).2.withSide σ) := by
  rw [State.placeL2, State.placeL2, show (s.withSide σ).wayFor .l2 line = s.wayFor .l2 line from rfl]
  rcases s.wayFor .l2 line with ⟨w, _ | e⟩
  · rfl
  · exact congrArg (Prod.mk w) (s.evictL2_withSide σ e.line)

theorem State.putL2_withSide (key : ℕ) (cells : List Host.Cell) : (s.withSide σ).putL2 key cells = (s.putL2 key cells).withSide σ := by
  cases cells with
  | nil => rfl
  | cons c cs =>
    simp only [State.putL2]
    rw [State.placeL2_withSide]
    rfl

theorem State.recallL1_withSide (line : ℕ) : (s.withSide σ).recallL1 line = (s.recallL1 line).withSide σ :=
  State.withSide_foldl σ (fun u e => u.putL2_withSide σ e.key e.data) _ { s with cache := _ }

theorem State.settle_withSide (line key : ℕ) : (s.withSide σ).settle line key = (s.settle line key).withSide σ := by
  have hfirst : (if ((s.withSide σ).cache.any fun e => e.lvl != .l2 && e.line == line && e.key != key) then (s.withSide σ).recallL1 line else s.withSide σ) =
      (if (s.cache.any fun e => e.lvl != .l2 && e.line == line && e.key != key) then s.recallL1 line else s).withSide σ := by
    rw [State.recallL1_withSide]
    exact State.withSide_ite σ _ _
  rw [State.settle, State.settle, hfirst]
  generalize (if (s.cache.any fun e => e.lvl != .l2 && e.line == line && e.key != key) then s.recallL1 line else s) = u
  rw [show (u.withSide σ).cline .l2 line = u.cline .l2 line from rfl, State.writeBackL2_withSide]
  cases u.cline .l2 line with
  | none => rfl
  | some e => exact State.withSide_ite σ _ _
end

theorem State.staleSide_settle (s : State) (line key : ℕ) : (s.staleSide line).settle line key = (s.settle line key).withSide (s.staleSide line).side :=
  s.settle_withSide _ line key

theorem State.showsAll_withSide (s : State) (σ : List SideEntry) : s.ShowsAll (s.withSide σ) := State.showsAll_of_same rfl rfl rfl rfl

/-! ### An access under a key -/

section
variable {s t : State} {line key : ℕ} {cells : List Host.Cell}

theorem State.settle_of_under (h : s.under line key) : s.settle line key = s := by
  have hany : (s.cache.any fun e => e.lvl != .l2 && e.line == line && e.key != key) = false := by
    rw [List.any_eq_false]
    intro e he
    by_cases hl : e.line = line
    · simp [h e he hl]
    · simp [hl]
  rw [State.settle, hany]
  cases hc : s.cline .l2 line with
  | none => simp [hc]
  | some e =>
    obtain ⟨hmem, -, hl⟩ := State.cline_mem hc
    simp [hc, h e hmem hl]

/-- The state of which an access has dropped the copies above the L2 that stand under another key. -/
def State.settleAbove (s : State) (line key : ℕ) : State :=
  if (s.cache.any fun e => e.lvl != .l2 && e.line == line && e.key != key) then s.recallL1 line else s

theorem State.settle_eq (s : State) (line key : ℕ) : s.settle line key = match (s.settleAbove line key).cline .l2 line with
    | some e => if e.key = key then s.settleAbove line key else (s.settleAbove line key).writeBackL2 line
    | none => s.settleAbove line key := rfl

theorem State.tidy_settleAbove (h : s.tidy) (line key : ℕ) : (s.settleAbove line key).tidy := by
  rw [State.settleAbove]
  split
  · exact State.tidy_recallL1 line h
  · exact h

theorem State.showsAll_settleAbove (h : s.tidy) (line key : ℕ) : s.ShowsAll (s.settleAbove line key) := by
  rw [State.settleAbove]
  split
  · exact State.showsAll_recallL1 h line
  · exact .refl s

theorem State.settleAbove_key (s : State) (line key : ℕ) : ∀ e ∈ (s.settleAbove line key).cache, e.line = line → e.lvl ≠ .l2 → e.key = key := by
  rw [State.settleAbove]
  split
  · exact fun e he hl hlvl => absurd (s.recallL1_alone line e he hl) hlvl
  · rename_i hany
    intro e he hl hlvl
    have hkey := List.any_eq_false.mp (Bool.eq_false_iff.mpr hany) e he
    simpa [hl, hlvl] using hkey

/-- Copies of the line of an access stand under its key (03 R69). -/
theorem State.settle_under (h : s.tidy) (line key : ℕ) : (s.settle line key).under line key := by
  have habove := s.settleAbove_key line key
  rw [State.settle_eq]
  split
  · rename_i e he
    obtain ⟨hmem, -, hl⟩ := State.cline_mem he
    split
    · rename_i hkey
      exact fun x hx hxl => (State.tidy_key (State.tidy_settleAbove h line key) hmem hx (hxl.trans hl.symm)).trans hkey
    · intro x hx hxl
      rw [State.writeBackL2, he, State.memWrite_cache, State.mem_dropLine_iff] at hx
      exact habove x hx.1 hxl fun hlvl => hx.2 hlvl hxl
  · rename_i hnone
    exact fun x hx hxl => habove x hx hxl (State.cline_none hnone x hx hxl)

/-- Other lines show the same bytes. -/
theorem State.settle_other (h : s.tidy) (line key : ℕ) {l : ℕ} (hl : l ≠ line) (k : ℕ) : s.Shows (s.settle line key) l k := by
  refine (State.showsAll_settleAbove h line key l k).trans ?_
  rw [State.settle_eq]
  split
  · split
    · exact .refl _ l k
    · exact ((s.settleAbove line key).sameAt_writeBackL2 hl).shows k
  · exact .refl _ l k

/-! ### Writes at the home slice -/

/-- What a write of a line does: the line is under its key and shows the new bytes over what an access finds there; other lines show the same. -/
structure State.Writes (s t : State) (line key : ℕ) (new : ℕ → Option Byte) : Prop where
  tidy : t.tidy
  under : t.under line key
  bytes : ∀ a, lineOf a = line → t.cohByte key a = (new a).getD ((s.settle line key).cohByte key a)
  others : ∀ l k, l ≠ line → s.Shows t l k

section
variable {u : State} {new more : ℕ → Option Byte}

/-- Bytes that move afterwards. -/
theorem State.Writes.then (h : s.Writes t line key new) (hu : u.tidy) (hshow : t.ShowsBut u line key) : s.Writes u line key new :=
  have ⟨hunder, hbytes⟩ := hshow.own h.under
  ⟨hu, hunder, fun a ha => (hbytes a ha).trans (h.bytes a ha), fun l k hl => (h.others l k hl).trans (hshow.other hl k)⟩

/-- Two writes of a line. -/
theorem State.Writes.append (h : s.Writes t line key new) (h' : t.Writes u line key more) : s.Writes u line key fun a => (more a).or (new a) := by
  refine ⟨h'.tidy, h'.under, fun a ha => ?_, fun l k hl => (h.others l k hl).trans (h'.others l k hl)⟩
  rw [h'.bytes a ha, State.settle_of_under h.under, h.bytes a ha]
  cases more a <;> rfl

theorem State.Writes.congr (h : s.Writes t line key new) (hnew : ∀ a, lineOf a = line → new a = more a) : s.Writes t line key more :=
  ⟨h.tidy, h.under, fun a ha => by rw [h.bytes a ha, hnew a ha], h.others⟩

/-- A line under its key of which nothing is written. -/
theorem State.Writes.refl (h : s.tidy) (hunder : s.under line key) : s.Writes s line key fun _ => none :=
  ⟨h, hunder, fun _ _ => by rw [State.settle_of_under hunder]; rfl, fun l k _ => .refl s l k⟩

/-- A line under its key takes cells. -/
theorem State.Takes.writes (h : s.Takes t line key cells) (hunder : s.under line key) : s.Writes t line key (lastCell cells) :=
  ⟨h.tidy, h.under, fun a ha => by rw [h.bytes a ha, State.settle_of_under hunder], h.others⟩
end

/-- A write of no cells: an access under a key. -/
theorem State.writes_settle (h : s.tidy) (line key : ℕ) : s.Writes (s.settle line key) line key fun _ => none :=
  ⟨State.tidy_settle line key h, State.settle_under h line key, fun _ _ => rfl, fun _ k hl => State.settle_other h line key hl k⟩

/-- The home slice takes ownership (R98). -/
theorem State.writes_takeLine (h : s.tidy) (line key : ℕ) : s.Writes (s.takeLine key line) line key fun _ => none := by
  have hsettle := State.writes_settle h line key
  refine hsettle.then (State.tidy_takeLine key line h) (State.ShowsAll.but ?_ line key)
  rw [State.takeLine, State.staleSide_settle, State.recallL1_withSide]
  exact (State.showsAll_recallL1 hsettle.tidy line).trans (State.showsAll_of_same rfl rfl rfl rfl)

theorem State.takeLine_alone (s : State) (key line : ℕ) : ∀ e ∈ (s.takeLine key line).cache, e.line = line → e.lvl = .l2 :=
  ((s.staleSide line).settle line key).recallL1_alone line

section
variable (h : s.tidy) (hcells : ∀ c ∈ cells, lineOf c.1 = line) (hne : cells ≠ [])
include h hcells hne

/-- A write at the home slice of a line that has one on this module. -/
theorem State.writes_homeWrite (hhome : (s.homeDie (128 * line)).isSome = true) : s.Writes (s.homeWrite key cells) line key (lastCell cells) := by
  cases cells with
  | nil => exact absurd rfl hne
  | cons c cs =>
    obtain rfl := hcells c List.mem_cons_self
    have htake := State.writes_takeLine h (lineOf c.1) key
    obtain ⟨d, hd⟩ := Option.isSome_iff_exists.mp hhome
    rw [State.homeWrite, State.homeDie_of_sansMem (s.sansMem_takeLine key (lineOf c.1)), s.homeDie_congr_line (lineOf_mul (lineOf c.1)).symm, hd]
    have hput := State.takes_putL2 htake.tidy htake.under (State.l1Dirty_of_alone (s.takeLine_alone key _)) hcells
    exact (htake.append (hput.writes htake.under)).congr fun a _ => by simp

/-- A write to a line leaves those of its bytes that no cell names, wherever its home is. -/
theorem State.writes_homeWrite_outside : ∃ new : ℕ → Option Byte, (∀ a, lastCell cells a = none → new a = none) ∧ s.Writes (s.homeWrite key cells) line key new := by
  by_cases hhome : (s.homeDie (128 * line)).isSome = true
  · exact ⟨lastCell cells, fun _ ha => ha, State.writes_homeWrite h hcells hne hhome⟩
  · cases cells with
    | nil => exact absurd rfl hne
    | cons c cs =>
      obtain rfl := hcells c List.mem_cons_self
      have htake := State.writes_takeLine h (lineOf c.1) key
      have hnone : (s.takeLine key (lineOf c.1)).homeDie c.1 = none := by
        rw [State.homeDie_of_sansMem (s.sansMem_takeLine key (lineOf c.1)), s.homeDie_congr_line (lineOf_mul (lineOf c.1)).symm]
        simpa using hhome
      rw [State.homeWrite, hnone]
      generalize s.takeLine key (lineOf c.1) = u at htake ⊢
      generalize hv : State.memWrite u (u.tagAt c.1 key) (c :: cs) = v
      have hcache : v.cache = u.cache := by rw [← hv, State.memWrite_cache]
      have hrest : v.sansMem = u.sansMem := by rw [← hv, State.sansMem_memWrite]
      have hheld (a : ℕ) : v.held a = u.held a := State.held_congr (by rw [State.l1Dirty, State.l1Dirty, hcache]) (by rw [State.cline, State.cline, hcache])
      refine ⟨fun a => (lastCell (c :: cs) a).map fun _ => v.cohByte key a, fun a ha => by simp only [ha, Option.map_none], State.tidy_of_cache htake.tidy hcache,
        fun e he => htake.under e (hcache ▸ he), fun a ha => ?_, fun l k hl => (htake.others l k hl).trans ?_⟩
      · cases hcell : lastCell (c :: cs) a with
        | some b => rfl
        | none =>
          have hmem : v.memByte (u.tagAt c.1 key) a = u.memByte (u.tagAt c.1 key) a := by
            rw [← hv, State.memByte_memWrite u hcells ha, hcell]
            rfl
          refine Eq.trans ?_ (htake.bytes a ha)
          rw [State.cohByte_eq, State.cohByte_eq, hheld, State.tagAt_of_sansMem hrest, u.tagAt_congr_line ha, hmem]
      · refine State.Shows.of_held (fun hs e he => hs e (hcache ▸ he)) (fun a _ => hheld a) (fun tag a ha => ?_) (State.tagAt_of_sansMem hrest)
        rw [← hv, State.memByte_memWrite_other u hcells (by rwa [ha])]
end
end

end Sys2Proof.Machine
end

section
/-! The caches above the L2s: a line that a core reads or writes there, and the L2 or RDC that has to hold it, 05 R98 to R100, 06 R118. -/

namespace Sys2Proof.Machine

section
variable {s t : State} {line key : ℕ} {cells : List Host.Cell}

/-- A level above the L2s holds no line that it did not hold before. -/
theorem State.cline_none_of_above (h : s.above t) {lvl : Lvl} (hlvl : lvl ≠ .l2) (hnone : s.cline lvl line = none) : t.cline lvl line = none :=
  List.find?_eq_none.mpr fun e he => by
    simp only [Bool.and_eq_true, beq_iff_eq, not_and]
    rintro rfl hl
    exact State.cline_none hnone e (h e he hlvl) hl rfl

/-! ### An L1 makes place -/

/-- Entries of one level that go where none of them is a dirty copy in an L1. -/
theorem State.showsAll_dropLine {lvl : Lvl} (hlvl : lvl ≠ .l2) (hclean : ∀ e ∈ s.cache, e.line = line → e.lvl = lvl → isL1 e.lvl = true → e.dirty = false) :
    s.ShowsAll (s.dropLine lvl line) := fun l k => by
  refine s.shows_filter (p := fun e => !(e.lvl == lvl && e.line == line)) (fun e he hbytes _ => ?_) k
  by_contra hgone
  simp only [Bool.not_eq_true', Bool.not_eq_false, Bool.and_eq_true, beq_iff_eq] at hgone
  rcases hbytes with h2 | ⟨h1, hd⟩
  · exact hlvl (hgone.1.symm.trans h2)
  · rw [hclean e he hgone.2 hgone.1 h1] at hd
    cases hd

/-- An L1 gives up a line; a dirty copy goes to the L2 (R98). -/
theorem State.showsAll_loseL1 (h : s.tidy) (core line : ℕ) : s.ShowsAll (s.loseL1 core line) := by
  rw [State.loseL1]
  split
  · exact .refl s
  · rename_i e he
    obtain ⟨hmem, hlvl, rfl⟩ := State.cline_mem he
    have h1 : isL1 e.lvl = true := by rw [hlvl]; rfl
    split
    · rename_i hd
      have hclean : (s.dropLine (.l1 core) e.line).l1Dirty e.line = none := State.l1Dirty_none_iff.mpr fun x hx hx1 hxl => by
        obtain ⟨hxs, hxne⟩ := State.mem_dropLine_iff.mp hx
        by_contra hxd
        rw [State.l1Dirty_unique h hmem h1 hd hxs hx1 (.inl (by simpa using hxd)) hxl] at hxne
        exact hxne hlvl rfl
      have htakes := State.takes_putL2 (State.tidy_dropLine (.l1 core) e.line h)
        (fun x hx hxl => State.tidy_key h hmem (State.mem_dropLine_iff.mp hx).1 hxl) hclean (State.tidy_ok h hmem).2.1
      intro l k
      by_cases hl : l = e.line
      · subst hl
        intro hs
        obtain rfl := hs e hmem rfl
        refine ⟨htakes.under, fun a ha => ?_⟩
        have hl2 : (s.dropLine (.l1 core) e.line).cline .l2 e.line = s.cline .l2 e.line := by
          rw [State.cline, State.dropLine, List.find?_filter, State.cline]
          refine congrArg (List.find? · s.cache) (funext fun x => ?_)
          by_cases hx : x.lvl = .l2
          · simp [hx, beq_eq_decide]
          · simp [hx]
        rw [htakes.bytes a ha, State.cohByte_eq, State.cohByte_eq, State.held, State.held, ha, hclean, hl2, State.l1Dirty_eq_some h hmem h1 hd,
          lastCell_eq_lookCell (State.tidy_ok h hmem).1]
        simp only [Option.bind_some, Option.bind_none, Option.none_or]
        cases lookCell e.data a <;> rfl
      · exact ((s.sameAt_dropLine _ hl).shows k).trans (htakes.others l k hl)
    · rename_i hd
      refine State.showsAll_dropLine (by simp) fun x hx hxl hxv hx1 => ?_
      by_contra hxd
      have hsame := State.l1Dirty_unique h hx hx1 (by simpa using hxd) hmem h1 (.inr (hlvl.trans hxv.symm)) hxl.symm
      exact hd (hsame ▸ by simpa using hxd)

theorem State.showsAll_placeL1 (h : s.tidy) (core line : ℕ) : s.ShowsAll (s.placeL1 core line).2 := by
  rw [State.placeL1]
  split
  · exact State.showsAll_loseL1 h core _
  · exact .refl s

/-- An L1 holds a line under a key. -/
theorem State.showsBut_touchL1 (h : s.tidy) (core key line : ℕ) : s.ShowsBut (s.touchL1 core key line) line key := by
  intro l k hk
  rw [State.touchL1]
  split
  · rename_i e he
    exact State.shows_again h he l k
  · rename_i hnone
    exact (State.showsAll_placeL1 h core line l k).trans
      (State.shows_fresh (State.cline_none_of_above (s.above_placeL1 core line) (by simp) hnone) key _ l k hk)

/-! ### Holders and RDCs -/

theorem State.showsAll_recordHolder (h : s.tidy) (line : ℕ) (hd : Holder) : s.ShowsAll (s.recordHolder line hd) := by
  have hclean : s.ShowsAll (match s.l1Dirty line, hd with
      | some e, .l1 c => if e.lvl == Lvl.l1 c then s else s.cleanL1 line
      | some _, _ => s.cleanL1 line
      | none, _ => s) := by
    split
    · split
      · exact .refl s
      · exact State.showsAll_cleanL1 h line
    · exact State.showsAll_cleanL1 h line
    · exact .refl s
  exact hclean.trans (State.showsAll_of_same rfl rfl rfl rfl)

/-- An RDC gives up a line of which no L1 of its die has a dirty copy (R99). -/
theorem State.showsAll_loseRdc (h : s.tidy) {e : CLine} {die : ℕ} (he : e ∈ s.cache) (hlvl : e.lvl = .rdc die) : s.ShowsAll (s.loseRdc die e.line) := fun l k => by
  refine s.shows_filter (fun x hx hbytes _ => ?_) k
  by_contra hgone
  simp only [Bool.not_eq_true', Bool.not_eq_false, Bool.and_eq_true, Bool.or_eq_true, beq_iff_eq] at hgone
  obtain ⟨hline, hgone⟩ := hgone
  rcases hbytes with h2 | ⟨h1, hd⟩
  · rw [h2] at hgone
    simp [Lvl.onDie] at hgone
  · cases hx1 : x.lvl with
    | l1 c =>
      rw [hx1] at hgone
      have hdie : dieOfCore c = die := by simpa [Lvl.onDie] using hgone
      exact (((h x hx).2.2.2 e he hline.symm).2 c hx1 hd).2 (by rw [hlvl, hdie])
    | _ =>
      rw [hx1] at h1
      cases h1

/-- An RDC holds a line under a key. -/
theorem State.showsBut_touchRdc (h : s.tidy) (die key line : ℕ) : s.ShowsBut (s.touchRdc die key line) line key := by
  have hclean : State.tidy (if (s.l1Dirty line).isSome then s.cleanL1 line else s) ∧
      s.ShowsAll (if (s.l1Dirty line).isSome then s.cleanL1 line else s) := by
    split
    · exact ⟨State.tidy_cleanL1 line h, State.showsAll_cleanL1 h line⟩
    · exact ⟨h, .refl s⟩
  obtain ⟨htidy, hshow⟩ := hclean
  refine (hshow.but line key).trans ?_
  intro l k hk
  simp only [State.touchRdc]
  generalize (if (s.l1Dirty line).isSome then s.cleanL1 line else s) = u at htidy
  split
  · rename_i e he
    exact State.shows_again htidy he l k
  · rename_i hnone
    split
    · rename_i w e hv
      obtain ⟨hmem, hlvl, -, -⟩ := State.wayFor_victim hv
      refine (State.showsAll_loseRdc htidy hmem hlvl l k).trans (State.shows_fresh (State.cline_none_of_above ?_ (by simp) hnone) key w l k hk)
      exact State.above_of_subset fun x hx => List.mem_of_mem_filter hx
    · exact State.shows_fresh hnone key _ l k hk

theorem State.showsBut_fetchShared (h : s.tidy) (die key pa : ℕ) : s.ShowsBut (s.fetchShared die key pa) (lineOf pa) key := by
  have htouch := State.tidy_touchL2 key (lineOf pa) h
  have hshow := State.showsBut_touchL2 h key (lineOf pa)
  rw [State.fetchShared]
  split
  · split
    · exact hshow
    · exact hshow.trans (((State.showsAll_recordHolder htouch _ _).but _ _).trans (State.showsBut_touchRdc (State.tidy_recordHolder _ _ htouch) _ _ _))
  · exact State.showsBut_touchRdc h _ _ _

/-- A core reads a line under a key. -/
theorem State.showsBut_record (h : s.tidy) (core key pa : ℕ) : s.ShowsBut (s.record core key pa) (lineOf pa) key := by
  have htidy := State.tidy_fetchShared (dieOfCore core) key pa h
  have hshow := State.showsBut_fetchShared h (dieOfCore core) key pa
  rw [State.record]
  split
  · exact hshow.trans (((State.showsAll_recordHolder htidy _ _).but _ _).trans (State.showsBut_touchL1 (State.tidy_recordHolder _ _ htidy) _ _ _))
  · exact hshow.trans (State.showsBut_touchL1 htidy _ _ _)

/-! ### Writes of a core -/

/-- The dirty copy of a line that stands in no L1 but one core's. -/
theorem State.l1Dirty_eq_filter_cline (h : s.tidy) {core : ℕ} (hown : ∀ e ∈ s.cache, e.line = line → e.lvl = .l2 ∨ e.lvl = .l1 core) (a : ℕ) :
    ((s.l1Dirty line).bind fun d => lookCell d.data a) = (s.cline (.l1 core) line).bind fun d => lookCell d.data a := by
  cases hc : s.cline (.l1 core) line with
  | none =>
    have hnone : s.l1Dirty line = none := State.l1Dirty_none_iff.mpr fun e he h1 hl => by
      rcases hown e he hl with h2 | h2
      · rw [h2] at h1
        cases h1
      · exact absurd h2 (State.cline_none hc e he hl)
    rw [hnone]
  | some e =>
    obtain ⟨hmem, hlvl, rfl⟩ := State.cline_mem hc
    have h1 : isL1 e.lvl = true := by rw [hlvl]; rfl
    cases hd : e.dirty with
    | true => rw [State.l1Dirty_eq_some h hmem h1 hd]
    | false =>
      have hnone : s.l1Dirty e.line = none := State.l1Dirty_none_iff.mpr fun x hx hx1 hxl => by
        by_contra hxd
        have hxlvl : x.lvl = .l1 core := (hown x hx hxl).resolve_left fun h2 => by
          rw [h2] at hx1
          cases hx1
        have hsame := State.l1Dirty_unique h hx hx1 (by simpa using hxd) hmem h1 (.inr (hlvl.trans hxlvl.symm)) hxl.symm
        rw [hsame] at hd
        exact hxd hd
      rw [hnone, Option.bind_some, (State.tidy_ok h hmem).2.2 h1 hd]
      rfl

/-- A core writes cells in its L1, where no other level above the L2 holds their line. -/
theorem State.writes_putL1 (h : s.tidy) {core : ℕ} (hunder : s.under line key) (hown : ∀ e ∈ s.cache, e.line = line → e.lvl = .l2 ∨ e.lvl = .l1 core)
    (hcells : ∀ c ∈ cells, lineOf c.1 = line) (hne : cells ≠ []) : s.Writes (s.putL1 core key cells) line key (lastCell cells) := by
  cases cells with
  | nil => exact absurd rfl hne
  | cons c cs =>
    obtain rfl := hcells c List.mem_cons_self
    have htidy := State.tidy_putL1 core key (c :: cs) h fun x hx => by
      simp only [List.head?_cons, Option.mem_def, Option.some.injEq] at hx
      exact hx ▸ hown
    have hplace := State.showsAll_placeL1 h core (lineOf c.1)
    have hptidy := State.tidy_placeL1 core (lineOf c.1) h
    have hpown : ∀ e ∈ (s.placeL1 core (lineOf c.1)).2.cache, e.line = lineOf c.1 → e.lvl = .l2 ∨ e.lvl = .l1 core := fun e he hl => by
      by_cases h2 : e.lvl = .l2
      · exact .inl h2
      · exact hown e (s.above_placeL1 core (lineOf c.1) e he h2) hl
    have hfilter : ((c :: cs).filter fun x => lineOf x.1 == lineOf c.1) = c :: cs := List.filter_eq_self.mpr fun x hx => by simpa using hcells x hx
    simp only [State.putL1] at htidy ⊢
    generalize s.placeL1 core (lineOf c.1) = p at htidy hplace hptidy hpown ⊢
    obtain ⟨w, u⟩ := p
    dsimp only at htidy hplace hptidy hpown ⊢
    obtain ⟨huu, hub⟩ := hplace (lineOf c.1) key hunder
    refine ⟨htidy, State.under_setLine (e := .wrote ..) huu rfl, fun a ha => ?_, fun l k hl => (hplace l k).trans ((u.sameAt_setLine (e := .wrote ..) hl).shows k)⟩
    have hgone : (u.dropLine (.l1 core) (lineOf c.1)).l1Dirty (lineOf c.1) = none := State.l1Dirty_none_iff.mpr fun e he h1 hl => by
      obtain ⟨hes, hne'⟩ := State.mem_dropLine_iff.mp he
      rcases hpown e hes hl with h2 | h2
      · rw [h2] at h1
        cases h1
      · exact absurd hl (hne' h2)
    have hset := u.held_setAbove (e := .wrote (u.cline (.l1 core) (lineOf c.1)) (.l1 core) (lineOf c.1) key w (c :: cs)) (by simp [CLine.wrote]) ha
    rw [State.settle_of_under hunder, ← hub a ha, State.cohByte_eq, State.cohByte_eq, hset, State.held, ha, State.l1Dirty_eq_filter_cline hptidy hpown a]
    simp only [CLine.wrote, hfilter, hgone, isL1, Bool.and_true, if_true, Option.none_or, Option.bind_some, lookCell_foldl_putCell]
    cases lastCell (c :: cs) a with
    | some b => rfl
    | none => cases u.cline (.l1 core) (lineOf c.1) <;> rfl

/-- The copies of a line above its L2 go, but that of one core; a dirty one of another core is written back. -/
def State.leaveTo (s : State) (core line : ℕ) : State :=
  let u := if s.l1Dirty line = s.cline (.l1 core) line then s else s.recallL1 line
  { u with cache := u.cache.filter fun e : CLine => !(e.line == line && e.lvl != Lvl.l2 && e.lvl != Lvl.l1 core) }

theorem State.tidy_leaveTo (h : s.tidy) (core line : ℕ) : (s.leaveTo core line).tidy := by
  have hrecall : State.tidy (if s.l1Dirty line = s.cline (.l1 core) line then s else s.recallL1 line) := by
    split
    · exact h
    · exact State.tidy_recallL1 line h
  exact State.tidy_of_subset hrecall fun e he => List.mem_of_mem_filter he

theorem State.leaveTo_own (s : State) (core line : ℕ) : ∀ e ∈ (s.leaveTo core line).cache, e.line = line → e.lvl = .l2 ∨ e.lvl = .l1 core := by
  intro e he hl
  have hkept := (List.mem_filter.mp he).2
  by_contra hlvl
  rw [not_or] at hlvl
  simp [hl, hlvl.1, hlvl.2] at hkept

theorem State.showsAll_leaveTo (h : s.tidy) (core line : ℕ) : s.ShowsAll (s.leaveTo core line) := by
  have hrecall : s.ShowsAll (if s.l1Dirty line = s.cline (.l1 core) line then s else s.recallL1 line) ∧
      ∀ e ∈ (if s.l1Dirty line = s.cline (.l1 core) line then s else s.recallL1 line).cache, e.line = line → isL1 e.lvl = true → e.dirty = true →
        e.lvl = .l1 core := by
    split
    · rename_i hsame
      refine ⟨.refl s, fun e he hl h1 hd => ?_⟩
      subst hl
      rw [State.l1Dirty_eq_some h he h1 hd] at hsame
      exact (State.cline_mem hsame.symm).2.1
    · refine ⟨State.showsAll_recallL1 h line, fun e he hl h1 _ => ?_⟩
      rw [s.recallL1_alone line e he hl] at h1
      cases h1
  obtain ⟨hshow, hdirty⟩ := hrecall
  refine hshow.trans fun l k => ?_
  refine State.shows_filter _ (fun e he hbytes _ => ?_) k
  by_contra hgone
  simp only [Bool.not_eq_true', Bool.not_eq_false, Bool.and_eq_true, beq_iff_eq, bne_iff_ne] at hgone
  obtain ⟨⟨hl, h2⟩, hcore⟩ := hgone
  exact hbytes.elim h2 fun hd => hcore (hdirty e he hl hd.1 hd.2)

/-- A line that a core of its home die is granted: it stands in the L2, in no cache above it but the core's L1, and the directory records that alone. -/
def State.grantLine (s : State) (core key line : ℕ) : State :=
  ((((s.staleSide line).settle line key).leaveTo core line).touchL2 key line).setDir ⟨line, [core], [], [], []⟩

theorem State.grantWrite_home {core : ℕ} {c : Host.Cell} (hhome : s.homeDie c.1 = some (dieOfCore core)) (cs : List Host.Cell) :
    s.grantWrite core key (c :: cs) = (s.grantLine core key (lineOf c.1)).putL1 core key (c :: cs) := if_pos hhome

theorem State.grantWrite_away {core : ℕ} {c : Host.Cell} (haway : s.homeDie c.1 ≠ some (dieOfCore core)) (cs : List Host.Cell) :
    s.grantWrite core key (c :: cs) =
      let u := s.homeWrite key (c :: cs)
      if !(s.cline (.l1 core) (lineOf c.1)).isSome then u
      else (if (u.homeDie c.1).isSome then u.recordHolder (lineOf c.1) (.rdc (dieOfCore core)) else u).touchL1 core key (lineOf c.1) := if_neg haway

theorem State.writes_grantLine (h : s.tidy) (core key line : ℕ) : s.Writes (s.grantLine core key line) line key fun _ => none := by
  have hsettle := State.writes_settle h line key
  rw [State.grantLine, State.staleSide_settle]
  have hstale : ((s.settle line key).withSide (s.staleSide line).side).tidy := State.tidy_of_cache hsettle.tidy rfl
  have hleave := State.tidy_leaveTo hstale core line
  have htouch := State.tidy_touchL2 key line hleave
  refine hsettle.then (State.tidy_of_cache htouch rfl) ?_
  have hleft := (State.showsAll_withSide (s.settle line key) (s.staleSide line).side).trans (State.showsAll_leaveTo hstale core line)
  exact ((hleft.but line key).trans (State.showsBut_touchL2 hleave key line)).trans ((State.showsAll_of_same rfl rfl rfl rfl).but line key)

theorem State.grantLine_own (s : State) (core key line : ℕ) : ∀ e ∈ (s.grantLine core key line).cache, e.line = line → e.lvl = .l2 ∨ e.lvl = .l1 core := by
  intro e he hl
  by_cases h2 : e.lvl = .l2
  · exact .inl h2
  · exact State.leaveTo_own _ core line e (State.above_touchL2 _ key line e he h2) hl

/-- A store of a core that is granted ownership of a line that has a home on this module. -/
theorem State.writes_grantWrite (h : s.tidy) (core : ℕ) (hcells : ∀ c ∈ cells, lineOf c.1 = line) (hne : cells ≠ [])
    (hhome : (s.homeDie (128 * line)).isSome = true) : s.Writes (s.grantWrite core key cells) line key (lastCell cells) := by
  cases cells with
  | nil => exact absurd rfl hne
  | cons c cs =>
    obtain rfl := hcells c List.mem_cons_self
    by_cases hdie : s.homeDie c.1 = some (dieOfCore core)
    · rw [State.grantWrite_home hdie]
      have hline := State.writes_grantLine h core key (lineOf c.1)
      exact (hline.append (State.writes_putL1 hline.tidy hline.under (s.grantLine_own core key _) hcells hne)).congr fun a _ => by simp
    · have hwrite := State.writes_homeWrite (key := key) h hcells hne hhome
      refine hwrite.then (State.tidy_grantWrite core key _ h) ?_
      rw [State.grantWrite_away hdie]
      dsimp only
      split
      · exact (State.ShowsAll.refl _).but _ _
      · split
        · exact ((State.showsAll_recordHolder hwrite.tidy _ _).but _ _).trans (State.showsBut_touchL1 (State.tidy_recordHolder _ _ hwrite.tidy) _ _ _)
        · exact State.showsBut_touchL1 hwrite.tidy _ _ _
end

end Sys2Proof.Machine
end

section
/-! When the reply of a load and the acknowledgement of a store perform, and when they wait, 05 R98, 06 R126. -/

namespace Sys2Proof.Machine

/-- No copy of a line stands in the way of a write by a holder: it is the only one recorded, and no invalidation is under way (R98). -/
def State.aloneAt (s : State) (line : ℕ) (own : Holder) : Prop := (∀ h ∈ s.holders line, h = own) ∧ ∀ i ∈ s.invals, i.1 ≠ line

theorem State.sendInvals_busy_eq_false {s : State} {line : ℕ} {own : Holder} : (s.sendInvals line (some own)).2 = false ↔ s.aloneAt line own := by
  rw [← Bool.not_eq_true, State.sendInvals_busy_iff, State.aloneAt, not_or]
  simp only [ne_eq, Option.some.injEq, not_exists, not_and, not_not]

/-- Invalidations go to every other holder, and nothing else happens. -/
theorem State.sendInvals_spec (s : State) (line : ℕ) (own : Holder) : (∀ h ∈ s.holders line, h ≠ own → (line, h) ∈ (s.sendInvals line (some own)).1.invals) ∧
    (s.sendInvals line (some own)).1 = { s with invals := (s.sendInvals line (some own)).1.invals, invalAt := (s.sendInvals line (some own)).1.invalAt } :=
  ⟨fun h hh hne => State.mem_invals_sendInvals.mpr (.inr ⟨rfl, hh, by simpa using hne⟩), rfl⟩

/-! ### Replies -/

section
variable (s : State) (ld : Load) (pa : ℕ)

/-- A reply performs parts. -/
def replyFree (ps : List LoadPart) : Prop :=
  s.placed ld.ti = true ∧ s.checkHolds (dieOfCore ld.core) (lineOf pa) true ld.op.isAtomic = false ∧ ps ≠ [] ∧
    (s.reachesAt ld.id (dieOfCore ld.core) pa = true ∨ (ld.op.isAtomic = false ∧ ∀ p ∈ ps, s.heldNear ld.core p.key p.pa = true))

/-- What a reply does to the parts it can answer. -/
def answer (ps : List LoadPart) : State :=
  if ld.op.isAtomic then
    let r := s.sendInvals (lineOf pa) (some (s.ownCopy ld.core (lineOf pa)))
    if r.2 then r.1 else performLoad s ld ps
  else performLoad s ld ps

variable {s ld pa}

theorem exec_loadReply {ld : Load} (hfind : s.loads.find? (fun d => d.id == ld.id) = some ld) : exec (.loadReply ld.id pa) s = .next
    (if !s.placed ld.ti || !(s.reachesAt ld.id (dieOfCore ld.core) pa || (readyParts s ld pa).all fun p => !ld.op.isAtomic && s.heldNear ld.core p.key p.pa)
      || s.checkHolds (dieOfCore ld.core) (lineOf pa) true ld.op.isAtomic then s
    else if (readyParts s ld pa).isEmpty then s else answer s ld pa (readyParts s ld pa)) := by
  show execLoadReply ld.id pa s = _
  rw [execLoadReply, hfind]
  rfl

theorem exec_loadReply_free (hfind : s.loads.find? (fun d => d.id == ld.id) = some ld) (hfree : replyFree s ld pa (readyParts s ld pa)) :
    exec (.loadReply ld.id pa) s = .next (answer s ld pa (readyParts s ld pa)) := by
  obtain ⟨hplaced, hcheck, hne, hserved⟩ := hfree
  have hserve : (s.reachesAt ld.id (dieOfCore ld.core) pa || (readyParts s ld pa).all fun p => !ld.op.isAtomic && s.heldNear ld.core p.key p.pa) = true := by
    rcases hserved with hr | ⟨ha, hn⟩
    · simp [hr]
    · simpa [ha] using .inr hn
  rw [exec_loadReply hfind, hplaced, hcheck, hserve]
  simp [hne]

theorem exec_loadReply_waits (hfind : s.loads.find? (fun d => d.id == ld.id) = some ld) (hfree : ¬replyFree s ld pa (readyParts s ld pa)) :
    exec (.loadReply ld.id pa) s = .next s := by
  rw [exec_loadReply hfind]
  split
  · rfl
  · rename_i hopen
    split
    · rfl
    · rename_i hne
      rw [Bool.not_eq_true, Bool.or_eq_false_iff, Bool.or_eq_false_iff, Bool.not_eq_false', Bool.not_eq_false', Bool.or_eq_true] at hopen
      obtain ⟨⟨hplaced, hserve⟩, hcheck⟩ := hopen
      have hparts : readyParts s ld pa ≠ [] := by simpa using hne
      refine absurd ⟨hplaced, hcheck, hparts, hserve.imp_right fun hall => ?_⟩ hfree
      simp only [List.all_eq_true, Bool.and_eq_true, Bool.not_eq_true'] at hall
      obtain ⟨p, hp⟩ := List.exists_mem_of_ne_nil _ hparts
      exact ⟨(hall p hp).1, fun q hq => (hall q hq).2⟩

theorem answer_performs (halone : ld.op.isAtomic = true → s.aloneAt (lineOf pa) (s.ownCopy ld.core (lineOf pa))) (ps : List LoadPart) :
    answer s ld pa ps = performLoad s ld ps := by
  rw [answer]
  split
  · rename_i ha
    have hidle := State.sendInvals_busy_eq_false.mpr (halone ha)
    simp [hidle]
  · rfl

theorem answer_invalidates (ha : ld.op.isAtomic = true) (hbusy : ¬s.aloneAt (lineOf pa) (s.ownCopy ld.core (lineOf pa))) (ps : List LoadPart) :
    answer s ld pa ps = (s.sendInvals (lineOf pa) (some (s.ownCopy ld.core (lineOf pa)))).1 := by
  have hsent : (s.sendInvals (lineOf pa) (some (s.ownCopy ld.core (lineOf pa)))).2 = true := by
    rw [← Bool.not_eq_false, State.sendInvals_busy_eq_false]
    exact hbusy
  simp [answer, ha, hsent]
end

/-! ### Acknowledgements -/

section
variable {s : State} {st : Store} {pa : ℕ}

theorem exec_storeAck (hfind : s.stores.find? (fun o => o.id == st.id) = some st) : exec (.storeAck st.id pa) s = .next (
    let ps := turnParts s st (ackParts st pa)
    if !s.placed st.ti || ps.isEmpty then s
    else if ps.any (·.st == .released) then s.enterL1 st (ps.filter (·.st == .released))
    else if !(ackLines st ps pa).all fun l => s.reachesAt st.id (dieOfCore st.core) (128 * l) && !s.checkHolds (dieOfCore st.core) l st.op.isRed true then s
    else if st.op.isCache then performStore s st ps
    else
      let r := s.sendInvals (lineOf pa) (some (s.ownCopy st.core (lineOf pa)))
      if r.2 && ps.any (fun p => s.frameLive p.gen p.pa) then r.1 else performStore s st ps) := by
  show execStoreAck st.id pa s = _
  rw [execStoreAck, hfind]

/-- Every line that parts of a store access is served and free of machine checks. -/
def linesOpen (s : State) (st : Store) (lines : List ℕ) : Prop := ∀ l ∈ lines, s.reachesAt st.id (dieOfCore st.core) (128 * l) = true ∧
  s.checkHolds (dieOfCore st.core) l st.op.isRed true = false

theorem all_linesOpen (lines : List ℕ) : (lines.all fun l => s.reachesAt st.id (dieOfCore st.core) (128 * l) &&
    !s.checkHolds (dieOfCore st.core) l st.op.isRed true) = true ↔ linesOpen s st lines := by
  simp only [linesOpen, List.all_eq_true, Bool.and_eq_true, Bool.not_eq_true']

theorem ackLines_eq (st : Store) (ps : List StPart) (pa : ℕ) :
    ackLines st ps pa = if st.op.isCache then ps.flatMap fun p => linesOf p.pa p.data.toNat else [lineOf pa] := by
  rw [ackLines]
  split
  · rename_i hcache
    refine congrArg (ps.flatMap ·) (funext fun p => congrArg (linesOf p.pa) ?_)
    cases hop : st.op <;> simp_all [StOp.isCache, partLen]
  · rfl

theorem any_released (ps : List StPart) : ps.any (fun p => p.st == .released) = true ↔ ps.filter (fun p => p.st == .released) ≠ [] := by
  rw [Ne, List.filter_eq_nil_iff, List.any_eq_true]
  push Not
  rfl

section
variable (hfind : s.stores.find? (fun o => o.id == st.id) = some st)
include hfind

/-- Parts that were released go to the L1 first (13 R288). -/
theorem exec_storeAck_late (hplaced : s.placed st.ti = true) (hlate : (turnParts s st (ackParts st pa)).filter (fun p => p.st == .released) ≠ []) :
    exec (.storeAck st.id pa) s = .next (s.enterL1 st ((turnParts s st (ackParts st pa)).filter fun p => p.st == .released)) := by
  have hne : turnParts s st (ackParts st pa) ≠ [] := fun h => hlate (by rw [h]; rfl)
  rw [exec_storeAck hfind]
  simp [hplaced, hne, (any_released _).mpr hlate]

/-- Nothing happens before the condition of an acknowledgement (log 65). -/
theorem exec_storeAck_waits (hwait : ¬(s.placed st.ti = true ∧ turnParts s st (ackParts st pa) ≠ []) ∨
    ((turnParts s st (ackParts st pa)).filter (fun p => p.st == .released) = [] ∧ ¬linesOpen s st (ackLines st (turnParts s st (ackParts st pa)) pa))) :
    exec (.storeAck st.id pa) s = .next s := by
  rw [exec_storeAck hfind]
  dsimp only
  split
  · rfl
  · rename_i hgo
    have hfree : s.placed st.ti = true ∧ turnParts s st (ackParts st pa) ≠ [] := by simpa using hgo
    obtain ⟨hlate, hshut⟩ := hwait.resolve_left (not_not_intro hfree)
    rw [if_neg ((any_released _).not.mpr (not_not_intro hlate)), if_pos]
    rw [Bool.not_eq_true', ← Bool.not_eq_true, all_linesOpen]
    exact hshut

variable (hplaced : s.placed st.ti = true) (hne : turnParts s st (ackParts st pa) ≠ [])
  (hlate : (turnParts s st (ackParts st pa)).filter (fun p => p.st == .released) = []) (hopen : linesOpen s st (ackLines st (turnParts s st (ackParts st pa)) pa))
include hplaced hne hlate hopen

theorem exec_storeAck_open : exec (.storeAck st.id pa) s = .next (if st.op.isCache then performStore s st (turnParts s st (ackParts st pa)) else
    let r := s.sendInvals (lineOf pa) (some (s.ownCopy st.core (lineOf pa)))
    if r.2 && (turnParts s st (ackParts st pa)).any (fun p => s.frameLive p.gen p.pa) then r.1 else performStore s st (turnParts s st (ackParts st pa))) := by
  rw [exec_storeAck hfind]
  dsimp only
  rw [if_neg (by simp [hplaced, hne]), if_neg ((any_released _).not.mpr (not_not_intro hlate)), if_neg]
  rw [Bool.not_eq_true', ← Bool.not_eq_true, all_linesOpen]
  exact not_not_intro hopen

/-- A store is performed that no copy stands in the way of (R98). -/
theorem exec_storeAck_performs (hquiet : st.op.isCache = true ∨ s.aloneAt (lineOf pa) (s.ownCopy st.core (lineOf pa))) :
    exec (.storeAck st.id pa) s = .next (performStore s st (turnParts s st (ackParts st pa))) := by
  rw [exec_storeAck_open hfind hplaced hne hlate hopen]
  split
  · rfl
  · rename_i hcache
    have hidle := State.sendInvals_busy_eq_false.mpr (hquiet.resolve_left hcache)
    simp [hidle]

/-- Until every other holder has acknowledged only invalidations are sent (R98). -/
theorem exec_storeAck_invalidates (hcache : st.op.isCache = false) (hbusy : ¬s.aloneAt (lineOf pa) (s.ownCopy st.core (lineOf pa)))
    (hlive : (turnParts s st (ackParts st pa)).any (fun p => s.frameLive p.gen p.pa) = true) :
    exec (.storeAck st.id pa) s = .next (s.sendInvals (lineOf pa) (some (s.ownCopy st.core (lineOf pa)))).1 := by
  have hsent : (s.sendInvals (lineOf pa) (some (s.ownCopy st.core (lineOf pa)))).2 = true := by
    rw [← Bool.not_eq_false, State.sendInvals_busy_eq_false]
    exact hbusy
  rw [exec_storeAck_open hfind hplaced hne hlate hopen]
  simp [hcache, hsent, hlive]
end
end

end Sys2Proof.Machine
end

section
/-! What the reply of a load or an atomic of one lane does, 06 R126, R129, R132, R134. -/

namespace Sys2Proof.Machine

/-! ### Bytes of one location -/

/-- A location lies in one line. -/
theorem lineOf_location {pa n a : ℕ} (hn : n ∣ 128) (hpa : pa % n = 0) (h : pa ≤ a ∧ a < pa + n) : lineOf a = lineOf pa := by
  obtain ⟨q, hq⟩ := hn
  obtain ⟨m, rfl⟩ := Nat.dvd_of_mod_eq_zero hpa
  have hn0 : 0 < n := by omega
  have hdiv : a / n = m := by
    rw [Nat.div_eq_iff hn0]
    constructor
    · rw [Nat.mul_comm]; omega
    · rw [Nat.mul_comm]; omega
  rw [lineOf, lineOf, hq, ← Nat.div_div_eq_div_mul, ← Nat.div_div_eq_div_mul, hdiv, Nat.mul_div_cancel_left m hn0]

theorem mem_addrs {pa n a : ℕ} : a ∈ addrs pa n ↔ pa ≤ a ∧ a < pa + n := by
  simp only [addrs, List.mem_map, List.mem_range]
  constructor
  · rintro ⟨i, hi, rfl⟩
    omega
  · exact fun h => ⟨a - pa, by omega, by omega⟩

theorem mem_zip_addrs {pa n : ℕ} {bs : List Byte} {c : Host.Cell} (h : c ∈ (addrs pa n).zip bs) : pa ≤ c.1 ∧ c.1 < pa + n :=
  mem_addrs.mp (List.of_mem_zip h).1

theorem lastCell_zip_outside {pa n a : ℕ} (bs : List Byte) (h : a < pa ∨ pa + n ≤ a) : lastCell ((addrs pa n).zip bs) a = none :=
  lastCell_eq_none fun c hc he => by
    have hin := mem_zip_addrs hc
    omega

/-- Bytes that read as those of a list. -/
theorem State.cohBytes_eq {s : State} {key pa : ℕ} {bs : List Byte}
    (h : ∀ a, pa ≤ a ∧ a < pa + bs.length → s.cohByte key a = bs.getD (a - pa) 0) : s.cohBytes key pa bs.length = bs := by
  refine List.ext_getElem (by simp [State.cohBytes]) fun i hi hi' => ?_
  have hbyte := h (pa + i) ⟨by omega, by omega⟩
  rw [Nat.add_sub_cancel_left, List.getD_eq_getElem _ _ hi'] at hbyte
  simpa [State.cohBytes, addrs] using hbyte

theorem State.cohBytes_congr {s t : State} {key pa n : ℕ} (h : ∀ a, pa ≤ a ∧ a < pa + n → t.cohByte key a = s.cohByte key a) :
    t.cohBytes key pa n = s.cohBytes key pa n := List.map_congr_left fun a ha => h a (mem_addrs.mp ha)

/-! ### The end of an access -/

section
variable {α : Type} {p : α → Bool} {f : α → α} (hf : ∀ x, p (f x) = p x)
include hf

theorem find?_updIf (l : List α) : (updIf l p f).find? p = (l.find? p).map f := by
  induction l with
  | nil => rfl
  | cons x xs ih =>
    rw [updIf, List.map_cons, List.find?_cons, List.find?_cons]
    cases hx : p x with
    | true => simp [hf, hx]
    | false => simpa [hx, updIf] using ih

theorem filter_not_updIf (l : List α) : (updIf l p f).filter (fun x => !p x) = l.filter fun x => !p x := by
  induction l with
  | nil => rfl
  | cons x xs ih =>
    rw [updIf, List.map_cons, List.filter_cons, List.filter_cons]
    cases hx : p x with
    | true => simpa [hf, hx, updIf] using ih
    | false => simpa [hx, updIf] using ih
end

section
variable {s u : State} {ld : Load} {p : LoadPart}

/-- A load of which the parts of some lanes are done. -/
def Load.marked (d : Load) (lanes : List ℕ) : Load := { d with parts := updIf d.parts (fun p => lanes.contains p.lane) fun p => { p with st := .done } }

/-- The counters of a group after its change, one that is there or not. -/
theorem State.group_field_modGroup {α : Type} (v : Group → α) (f : Group → Group) (hf : v (f .blank) = v .blank) (s : State) (ti gi : ℕ) :
    v ((s.modGroup ti gi f).group ti gi) = v (f (s.group ti gi)) := by
  rcases Nat.lt_or_ge gi (s.team ti).groups.length with h | h
  · rw [State.group_modGroup_self f h]
  · have hblank : s.group ti gi = .blank := List.getD_eq_default _ _ h
    rw [State.group_modGroup_missing f h, hblank, hf]

theorem State.cohByte_modGroup (s : State) (ti gi : ℕ) (f : Group → Group) (k a : ℕ) : (s.modGroup ti gi f).cohByte k a = s.cohByte k a := rfl

theorem Thread.late_acqT (t : Thread) (op part : ℕ) (x : Word) : (t.late op part x).acqT = t.acqT :=
  foldl_keeps Thread.acqT (f := fun t (p : Pend) => t.setV p.reg x) (fun t p => Thread.setV_acqT t p.reg x) _ t

theorem Thread.lateW_acqT (t : Thread) (op w : ℕ) (x : DWord) : (t.lateW op w x).acqT = t.acqT := by
  refine Eq.trans (b := (if w = 64 then (t.late op 0 (loWord x)).late op 1 (hiWord x) else t.late op 0 (loWord x)).acqT) rfl ?_
  split
  · rw [Thread.late_acqT, Thread.late_acqT]
  · exact t.late_acqT op 0 (loWord x)

theorem State.loadClose_eq (s : State) (id : ℕ) (lanes : List ℕ) : s.loadClose id lanes =
    match (updIf s.loads (fun d => d.id == id) fun d => d.marked lanes).find? (fun d => d.id == id) with
    | none => { s with loads := updIf s.loads (fun d => d.id == id) fun d => d.marked lanes }
    | some d =>
      if d.parts.all (·.st == .done) then
        { s with loads := (updIf s.loads (fun d => d.id == id) fun d => d.marked lanes).filter fun d => !(d.id == id) }.modGroup d.ti d.gi fun g =>
          { g with loads := g.loads - 1 }
      else { s with loads := updIf s.loads (fun d => d.id == id) fun d => d.marked lanes } := rfl

/-- A load whose lanes are all done is gone, and its counter is one down (R126). -/
theorem State.loadClose_done {lanes : List ℕ} (hfind : s.loads.find? (fun d => d.id == ld.id) = some ld) (hdone : (ld.marked lanes).parts.all (·.st == .done) = true) :
    s.loadClose ld.id lanes =
      { s with loads := s.loads.filter fun d => !(d.id == ld.id) }.modGroup ld.ti ld.gi fun g => { g with loads := g.loads - 1 } := by
  have hkeeps (d : Load) : (fun d : Load => d.id == ld.id) (d.marked lanes) = (fun d : Load => d.id == ld.id) d := rfl
  rw [State.loadClose_eq, find?_updIf hkeeps, filter_not_updIf hkeeps, hfind]
  exact if_pos hdone

theorem State.loadClose_spec {lanes : List ℕ} (hfind : s.loads.find? (fun d => d.id == ld.id) = some ld) (hdone : (ld.marked lanes).parts.all (·.st == .done) = true) :
    (∀ d ∈ (s.loadClose ld.id lanes).loads, d.id ≠ ld.id) ∧
      ((s.loadClose ld.id lanes).group ld.ti ld.gi).loads = (s.group ld.ti ld.gi).loads - 1 ∧
      (∀ ti gi l, (s.loadClose ld.id lanes).thread ti gi l = s.thread ti gi l) ∧ ∀ k a, (s.loadClose ld.id lanes).cohByte k a = s.cohByte k a := by
  rw [State.loadClose_done hfind hdone]
  generalize hrest : s.loads.filter (fun d => !(d.id == ld.id)) = rest
  refine ⟨fun d hd => ?_, ?_, fun ti gi l => ?_, fun k a => State.cohByte_modGroup ..⟩
  · rw [State.modGroup_loads] at hd
    subst hrest
    simpa using (List.mem_filter.mp hd).2
  · exact State.group_field_modGroup Group.loads (fun g => { g with loads := g.loads - 1 }) rfl { s with loads := rest } ld.ti ld.gi
  · exact State.thread_modGroup_of_lanes { s with loads := rest } ld.ti ld.gi (f := fun g => { g with loads := g.loads - 1 }) (fun _ => rfl) ti gi l

/-- An acquire notes its place in its thread (13 R289). -/
theorem State.acquired_spec (acq : Bool) {ti gi l : ℕ} (hlane : l < (s.group ti gi).lanes.length) :
    let v := if acq then s.acquires ti gi [l] else s
    v.loads = s.loads ∧ (v.group ti gi).loads = (s.group ti gi).loads ∧
      v.thread ti gi l = { s.thread ti gi l with acqT := if acq then s.nextId + 1 else (s.thread ti gi l).acqT } ∧
      (∀ tj gj k, (tj, gj, k) ≠ (ti, gi, l) → v.thread tj gj k = s.thread tj gj k) ∧ ∀ k a, v.cohByte k a = s.cohByte k a := by
  cases acq with
  | false => exact ⟨rfl, rfl, rfl, fun _ _ _ _ => rfl, fun _ _ => rfl⟩
  | true =>
    refine ⟨rfl, State.group_field_modGroup Group.loads _ rfl _ _ _, State.thread_modLanes_mem _ (List.mem_singleton_self l) hlane, fun tj gj k hne => ?_, fun _ _ => rfl⟩
    by_cases hg : (tj, gj) = (ti, gi)
    · obtain ⟨rfl, rfl⟩ := Prod.mk.inj hg
      exact State.thread_modLanes_notMem s _ fun hk => hne (by rw [List.mem_singleton.mp hk])
    · exact State.thread_modLanes_ne s k _ _ hg

/-- The register write of a lane, and the acquire that follows it, change its thread alone. -/
theorem performLoad_lane {x : DWord} (hstep : (if ld.op.isAtomic then atomicLane s ld p else loadLane s ld p) = u.loadWrite ld p.lane x)
    (hteams : u.teams = s.teams) (hloads : u.loads = s.loads) (hnext : u.nextId = s.nextId)
    (hfind : s.loads.find? (fun d => d.id == ld.id) = some ld) (hparts : ld.parts = [p]) (hlive : s.frameLive p.gen p.pa = true)
    (hlane : p.lane < (s.group ld.ti ld.gi).lanes.length) :
    (∀ d ∈ (performLoad s ld [p]).loads, d.id ≠ ld.id) ∧ ((performLoad s ld [p]).group ld.ti ld.gi).loads = (s.group ld.ti ld.gi).loads - 1 ∧
      (performLoad s ld [p]).thread ld.ti ld.gi p.lane = { (s.thread ld.ti ld.gi p.lane).lateW ld.id (loadWd ld) x with
        acqT := if ld.op.isAcq then s.nextId + 1 else (s.thread ld.ti ld.gi p.lane).acqT } ∧
      (∀ ti gi l, (ti, gi, l) ≠ (ld.ti, ld.gi, p.lane) → (performLoad s ld [p]).thread ti gi l = s.thread ti gi l) ∧
      ∀ k a, (performLoad s ld [p]).cohByte k a = u.cohByte k a := by
  have hstep' : performLoad s ld [p] =
      (if ld.op.isAcq then (u.loadWrite ld p.lane x).acquires ld.ti ld.gi [p.lane] else u.loadWrite ld p.lane x).loadClose ld.id [p.lane] := by
    rw [← hstep]
    simp [performLoad, hlive]
  have hthreads (ti gi l : ℕ) : u.thread ti gi l = s.thread ti gi l := by
    rw [State.thread, State.group, State.team, hteams]
    rfl
  have hlane' : p.lane < (u.group ld.ti ld.gi).lanes.length := by
    rw [State.group, State.team, hteams]
    exact hlane
  have hwrote : (u.loadWrite ld p.lane x).thread ld.ti ld.gi p.lane = (s.thread ld.ti ld.gi p.lane).lateW ld.id (loadWd ld) x := by
    rw [State.loadWrite, State.thread_modThread_self _ hlane', hthreads]
  have hkept (ti gi l : ℕ) (hne : (ti, gi, l) ≠ (ld.ti, ld.gi, p.lane)) : (u.loadWrite ld p.lane x).thread ti gi l = s.thread ti gi l := by
    rw [State.loadWrite, State.thread_modThread_ne _ hne, hthreads]
  have hcount : ((u.loadWrite ld p.lane x).group ld.ti ld.gi).loads = (s.group ld.ti ld.gi).loads := by
    rw [State.loadWrite, State.modThread, State.group_field_modGroup Group.loads _ rfl, State.group, State.team, hteams]
    rfl
  have hdone : (ld.marked [p.lane]).parts.all (·.st == .done) = true := by simp [Load.marked, hparts, updIf]
  have hwlane : p.lane < ((u.loadWrite ld p.lane x).group ld.ti ld.gi).lanes.length := by
    rw [State.loadWrite, State.lanes_length_modThread]
    exact hlane'
  have hwnext : (u.loadWrite ld p.lane x).nextId = s.nextId := hnext
  obtain ⟨haloads, hacount, hathread, hakept, habytes⟩ := (u.loadWrite ld p.lane x).acquired_spec ld.op.isAcq hwlane
  rw [hstep']
  generalize (if ld.op.isAcq then (u.loadWrite ld p.lane x).acquires ld.ti ld.gi [p.lane] else u.loadWrite ld p.lane x) = v at haloads hacount hathread hakept habytes ⊢
  have hvfind : v.loads.find? (fun d => d.id == ld.id) = some ld := by
    rw [haloads]
    exact hloads ▸ hfind
  obtain ⟨hgone, hdown, hthread, hbytes⟩ := State.loadClose_spec hvfind hdone
  refine ⟨hgone, by rw [hdown, hacount, hcount], ?_, fun ti gi l hne => by rw [hthread, hakept ti gi l hne, hkept ti gi l hne],
    fun k a => (hbytes k a).trans (habytes k a)⟩
  rw [hthread, hathread, hwrote, hwnext, Thread.lateW_acqT]
end

end Sys2Proof.Machine
end

section
/-! What one lane of a load or an atomic reads, and what an atomic leaves at its location, 06 R129, R132, R134. -/

namespace Sys2Proof.Machine

section
variable {s u : State} {ld : Load} {p : LoadPart}

/-! ### What a core sees -/

theorem State.nextId_of_sansMem (h : u.sansMem = s.sansMem) : u.nextId = s.nextId := by
  have hid := congrArg State.nextId h
  exact hid

theorem State.mayUnder_of_stores (h : u.stores = s.stores) (core ti gi n lane key pa : ℕ) :
    u.mayUnder core ti gi n lane key pa = s.mayUnder core ti gi n lane key pa := by
  rw [State.mayUnder, State.mayUnder, State.nearStores, State.nearStores, h]

theorem State.ownByte_of_stores (h : u.stores = s.stores) (core key pa : ℕ) : u.ownByte core key pa = s.ownByte core key pa := by
  simp only [State.ownByte, h]

/-- That stores have been read changes nothing of what a core reads. -/
theorem State.ownByte_seeStores (s : State) (core pa n : ℕ) (c k a : ℕ) : (s.seeStores core pa n).ownByte c k a = s.ownByte c k a := by
  have hcands {β : Type} (q : Store → Bool) (v : Store → β) (hq : ∀ o, q { o with seen := true } = q o) (hv : ∀ o, v { o with seen := true } = v o) :
      ((s.seeStores core pa n).stores.filter q).map v = (s.stores.filter q).map v := by
    simp only [State.seeStores, updIf]
    induction s.stores with
    | nil => rfl
    | cons o os ih =>
      rw [List.map_cons, List.filter_cons, List.filter_cons]
      split <;> rename_i hr
      · rw [hq]
        split
        · rw [List.map_cons, List.map_cons, ih, hv]
        · exact ih
      · split
        · rw [List.map_cons, List.map_cons, ih]
        · exact ih
  rw [State.ownByte, hcands _ _ (fun _ => rfl) fun _ => rfl]
  rfl

theorem State.visByte_seeStores (s : State) (core pa n : ℕ) (c k a : ℕ) : (s.seeStores core pa n).visByte c k a = s.visByte c k a := by
  rw [State.visByte, State.visByte, State.ownByte_seeStores]
  rfl

/-! ### Writes of one location -/

section
variable {n pa key : ℕ} (hn : n ∣ 128) (hpa : pa % n = 0) (h : s.tidy)
include hn hpa h

/-- Bytes written to a location whose line the home slice owns. -/
theorem State.writes_location (hunder : s.under (lineOf pa) key) (bs : List Byte) : ∃ new : ℕ → Option Byte,
    (∀ a, a < pa ∨ pa + n ≤ a → new a = none) ∧ s.Writes (s.homeWrite key ((addrs pa n).zip bs)) (lineOf pa) key new := by
  by_cases hne : (addrs pa n).zip bs = []
  · rw [hne]
    exact ⟨fun _ => none, fun _ _ => rfl, .refl h hunder⟩
  · obtain ⟨new, hout, hwrites⟩ := State.writes_homeWrite_outside (key := key) h (fun c hc => lineOf_location hn hpa (mem_zip_addrs hc)) hne
    exact ⟨new, fun a ha => hout a (lastCell_zip_outside bs ha), hwrites⟩

/-- They stand there where the line has a home on this module. -/
theorem State.cohBytes_homeWrite (hhome : (s.homeDie pa).isSome = true) {bs : List Byte} (hlen : bs.length = n) (hn0 : 0 < n) :
    (s.homeWrite key ((addrs pa n).zip bs)).cohBytes key pa n = bs := by
  subst hlen
  have hne : (addrs pa bs.length).zip bs ≠ [] := fun hnil => by
    have hzero := congrArg List.length hnil
    simp only [addrs, List.length_zip, List.length_map, List.length_range, min_self, List.length_nil] at hzero
    omega
  have hwrites := State.writes_homeWrite (key := key) h (fun c hc => lineOf_location hn hpa (mem_zip_addrs hc)) hne
    (by rwa [← s.homeDie_congr_line (lineOf_mul (lineOf pa)).symm])
  refine State.cohBytes_eq fun a ha => ?_
  rw [hwrites.bytes a (lineOf_location hn hpa ha), lastCell_zip_addrs, if_pos ha]
  rfl
end

/-! ### One lane of a load -/

/-- What a lane of a load reads of one byte (log 121). -/
def loadByte (s under : State) (ld : Load) (p : LoadPart) : ℕ → Byte :=
  if Config.readUnder ld.id && s.mayUnder ld.core ld.ti ld.gi ld.n p.lane p.key p.pa then under.cohByte p.key else under.visByte ld.core p.key

section
variable (h : s.tidy) (hn : ld.n ∣ 128) (hpa : p.pa % ld.n = 0)
include h hn hpa

theorem loadLane_spec (hdev : isDevice p.pa = false) : ∃ u : State,
    loadLane s ld p = u.loadWrite ld p.lane (loadedValue ld.op.sext ld.n ((addrs p.pa ld.n).map (loadByte s (s.settle (lineOf p.pa) p.key) ld p))) ∧
      u.teams = s.teams ∧ u.loads = s.loads ∧ u.nextId = s.nextId ∧ s.Writes u (lineOf p.pa) p.key fun _ => none := by
  have hunder := State.writes_settle h (lineOf p.pa) p.key
  have hshow := State.showsBut_record hunder.tidy ld.core p.key p.pa
  have hrest := ((s.settle (lineOf p.pa) p.key).sansMem_record ld.core p.key p.pa).trans (s.sansMem_settle (lineOf p.pa) p.key)
  have hread := hunder.then (State.tidy_record ld.core p.key p.pa hunder.tidy) hshow
  have hstores := State.stores_of_sansMem hrest
  have hnext := State.nextId_of_sansMem hrest
  have hbyte (a : ℕ) (ha : a ∈ addrs p.pa ld.n) : ((s.settle (lineOf p.pa) p.key).record ld.core p.key p.pa).cohByte p.key a =
      (s.settle (lineOf p.pa) p.key).cohByte p.key a :=
    (hshow.own hunder.under).2 a (lineOf_location hn hpa (mem_addrs.mp ha))
  have hown (a : ℕ) : ((s.settle (lineOf p.pa) p.key).record ld.core p.key p.pa).ownByte ld.core p.key a =
      (s.settle (lineOf p.pa) p.key).ownByte ld.core p.key a :=
    State.ownByte_of_stores (hstores.trans (State.stores_of_sansMem (s.sansMem_settle _ _)).symm) ..
  rw [loadLane, hdev]
  simp only [Bool.false_eq_true, if_false, loadByte, State.mayUnder_of_stores hstores]
  split
  · exact ⟨_, congrArg (State.loadWrite _ ld p.lane) (congrArg (loadedValue ld.op.sext ld.n) (List.map_congr_left hbyte)),
      State.teams_of_sansMem hrest, State.loads_of_sansMem hrest, hnext, hread⟩
  · have hteams := State.teams_of_sansMem hrest
    have hloads := State.loads_of_sansMem hrest
    refine ⟨_, congrArg (State.loadWrite _ ld p.lane) (congrArg (loadedValue ld.op.sext ld.n) (List.map_congr_left fun a ha => ?_)),
      hteams, hloads, hnext, ?_⟩
    · rw [State.visByte_seeStores, State.visByte, State.visByte, hown, hbyte a ha]
    · exact ⟨State.tidy_of_cache hread.tidy rfl, hread.under, hread.bytes, hread.others⟩

/-! ### One lane of an atomic -/

/-- What an atomic leaves at its location, and the value its lane gets. -/
theorem atomicLane_spec : ∃ (u : State) (new : ℕ → Option Byte),
    atomicLane s ld p = u.loadWrite ld p.lane (rmwStep ld.op ld.n ((s.settle (lineOf p.pa) p.key).cohBytes p.key p.pa ld.n) p.x p.y).2 ∧
      u.teams = s.teams ∧ u.loads = s.loads ∧ u.nextId = s.nextId ∧ s.Writes u (lineOf p.pa) p.key new ∧
      (∀ a, a < p.pa ∨ p.pa + ld.n ≤ a → new a = none) ∧
      (0 < ld.n → (s.homeDie p.pa).isSome = true →
        (rmwStep ld.op ld.n ((s.settle (lineOf p.pa) p.key).cohBytes p.key p.pa ld.n) p.x p.y).1.length = ld.n →
        u.cohBytes p.key p.pa ld.n = (rmwStep ld.op ld.n ((s.settle (lineOf p.pa) p.key).cohBytes p.key p.pa ld.n) p.x p.y).1) := by
  have htake := State.writes_takeLine h (lineOf p.pa) p.key
  have hrest := s.sansMem_takeLine p.key (lineOf p.pa)
  have hbytes : (s.takeLine p.key (lineOf p.pa)).cohBytes p.key p.pa ld.n = (s.settle (lineOf p.pa) p.key).cohBytes p.key p.pa ld.n :=
    State.cohBytes_congr fun a ha => htake.bytes a (lineOf_location hn hpa ha)
  rw [atomicLane]
  dsimp only
  rw [hbytes]
  generalize hrmw : rmwStep ld.op ld.n ((s.settle (lineOf p.pa) p.key).cohBytes p.key p.pa ld.n) p.x p.y = r
  obtain ⟨bs, x⟩ := r
  dsimp only
  split
  · rename_i hsame
    exact ⟨_, fun _ => none, rfl, State.teams_of_sansMem hrest, State.loads_of_sansMem hrest, State.nextId_of_sansMem hrest, htake, fun _ _ => rfl,
      fun _ _ _ => hbytes.trans hsame.symm⟩
  · obtain ⟨new, hout, hwrites⟩ := State.writes_location hn hpa htake.tidy htake.under bs
    have hrest' := ((s.takeLine p.key (lineOf p.pa)).sansMem_homeWrite p.key ((addrs p.pa ld.n).zip bs)).trans hrest
    refine ⟨_, _, rfl, State.teams_of_sansMem hrest', State.loads_of_sansMem hrest', State.nextId_of_sansMem hrest', htake.append hwrites,
      fun a ha => by simp [hout a ha], fun hn0 hhome hlen => ?_⟩
    exact State.cohBytes_homeWrite hn hpa htake.tidy (by rwa [State.homeDie_of_sansMem hrest]) hlen hn0
end

/-! ### The reply of one lane -/

theorem readyParts_single (hparts : ld.parts = [p]) (hst : p.st = .wait) (hready : partReady s ld p = true) : readyParts s ld p.pa = [p] := by
  have hreply : replyParts ld p.pa = [p] := by simp [replyParts, hparts, hst]
  rw [readyParts, hreply]
  simp [hready]

theorem loadLane_sext (h : ld.op.isAtomic = false) : (match ld.op with
    | .plain sx | .acq sx _ => loadedValue sx ld.n ((addrs p.pa ld.n).map (loadByte s u ld p))
    | op => (rmwStep op ld.n (u.cohBytes p.key p.pa ld.n) p.x p.y).2) = loadedValue ld.op.sext ld.n ((addrs p.pa ld.n).map (loadByte s u ld p)) := by
  cases hop : ld.op with
  | plain sx => rfl
  | acq sx sc => rfl
  | _ => rw [hop] at h; cases h

theorem atomicLane_value (h : ld.op.isAtomic = true) : (match ld.op with
    | .plain sx | .acq sx _ => loadedValue sx ld.n ((addrs p.pa ld.n).map (loadByte s u ld p))
    | op => (rmwStep op ld.n (u.cohBytes p.key p.pa ld.n) p.x p.y).2) = (rmwStep ld.op ld.n (u.cohBytes p.key p.pa ld.n) p.x p.y).2 := by
  cases hop : ld.op with
  | plain sx => rw [hop] at h; cases h
  | acq sx sc => rw [hop] at h; cases h
  | _ => rfl

/-- What a reply that performs one lane writes to its register and leaves in memory. -/
theorem performLoad_single (hfind : s.loads.find? (fun d => d.id == ld.id) = some ld) (hparts : ld.parts = [p]) (htidy : s.tidy)
    (hlive : s.frameLive p.gen p.pa = true) (hdev : isDevice p.pa = false) (hlane : p.lane < (s.group ld.ti ld.gi).lanes.length)
    (hn0 : 0 < ld.n) (hn : ld.n ∣ 128) (hpa : p.pa % ld.n = 0) :
    let under := s.settle (lineOf p.pa) p.key
    let old := under.cohBytes p.key p.pa ld.n
    let t := performLoad s ld [p]
    (∀ d ∈ t.loads, d.id ≠ ld.id) ∧ (t.group ld.ti ld.gi).loads = (s.group ld.ti ld.gi).loads - 1 ∧
      t.thread ld.ti ld.gi p.lane =
        { (s.thread ld.ti ld.gi p.lane).lateW ld.id (loadWd ld) (match ld.op with
            | .plain sx | .acq sx _ => loadedValue sx ld.n ((addrs p.pa ld.n).map (loadByte s under ld p))
            | op => (rmwStep op ld.n old p.x p.y).2) with
          acqT := if ld.op.isAcq then s.nextId + 1 else (s.thread ld.ti ld.gi p.lane).acqT } ∧
      (∀ ti gi l, (ti, gi, l) ≠ (ld.ti, ld.gi, p.lane) → t.thread ti gi l = s.thread ti gi l) ∧
      (ld.op.isAtomic = true → (s.homeDie p.pa).isSome = true → (rmwStep ld.op ld.n old p.x p.y).1.length = ld.n →
        t.cohBytes p.key p.pa ld.n = (rmwStep ld.op ld.n old p.x p.y).1) ∧
      ∀ a, (lineOf a = lineOf p.pa → (ld.op.isAtomic = true → a < p.pa ∨ p.pa + ld.n ≤ a) → t.cohByte p.key a = under.cohByte p.key a) ∧
        ∀ k, lineOf a ≠ lineOf p.pa → (∀ e ∈ s.cache, e.line = lineOf a → e.key = k) → t.cohByte k a = s.cohByte k a := by
  intro under old t
  have hothers {u : State} {new : ℕ → Option Byte} (hw : s.Writes u (lineOf p.pa) p.key new) (hbytes : ∀ k a, t.cohByte k a = u.cohByte k a) (a k : ℕ)
      (hl : lineOf a ≠ lineOf p.pa) (hk : ∀ e ∈ s.cache, e.line = lineOf a → e.key = k) : t.cohByte k a = s.cohByte k a :=
    (hbytes k a).trans ((hw.others (lineOf a) k hl hk).2 a rfl)
  cases hop : ld.op.isAtomic with
  | false =>
    obtain ⟨u, hstep, hteams, hloads, hnext, hw⟩ := loadLane_spec (ld := ld) htidy hn hpa hdev
    obtain ⟨hgone, hcount, hthread, hrest, hbytes⟩ :=
      performLoad_lane ((if_neg (by simp [hop])).trans hstep) hteams hloads hnext hfind hparts hlive hlane
    refine ⟨hgone, hcount, ?_, hrest, fun ha => absurd ha (by simp), fun a => ⟨fun hl _ => (hbytes p.key a).trans (hw.bytes a hl), hothers hw hbytes a⟩⟩
    rw [hthread, loadLane_sext hop]
  | true =>
    obtain ⟨u, new, hstep, hteams, hloads, hnext, hw, hout, hleft⟩ := atomicLane_spec (ld := ld) htidy hn hpa
    obtain ⟨hgone, hcount, hthread, hrest, hbytes⟩ :=
      performLoad_lane ((if_pos hop).trans hstep) hteams hloads hnext hfind hparts hlive hlane
    refine ⟨hgone, hcount, ?_, hrest, fun _ hhome hlen => (State.cohBytes_congr fun a _ => hbytes p.key a).trans (hleft hn0 hhome hlen), fun a =>
      ⟨fun hl ha => ?_, hothers hw hbytes a⟩⟩
    · rw [hthread, atomicLane_value hop]
    · rw [hbytes, hw.bytes a hl, hout a (ha rfl)]
      rfl
end

end Sys2Proof.Machine
end

section
/-! What the acknowledgement of a store or a reduction leaves in memory, 05 R98, 06 R118, R126. -/

namespace Sys2Proof.Machine

/-! ### The end of a store -/

/-- A store of which some parts are acknowledged. -/
def Store.marked (o : Store) (ps : List StPart) : Store :=
  { o with parts := updIf o.parts (fun p => ps.any fun q => q.lane == p.lane && q.va == p.va) fun p => { p with st := .acked } }

section
variable {s u : State} {st : Store}

theorem State.storeClose_eq (s : State) (id : ℕ) (ps : List StPart) : s.storeClose id ps =
    match (updIf s.stores (fun o => o.id == id) fun o => o.marked ps).find? (fun o => o.id == id) with
    | none => { s with stores := updIf s.stores (fun o => o.id == id) fun o => o.marked ps }
    | some o =>
      if o.parts.all (·.st == .acked) then
        { s with stores := (updIf s.stores (fun o => o.id == id) fun o => o.marked ps).filter fun o => !(o.id == id) }.modGroup o.ti o.gi fun g =>
          { g with stores := g.stores - 1 }
      else { s with stores := updIf s.stores (fun o => o.id == id) fun o => o.marked ps } := rfl

/-- A store whose parts are all acknowledged is gone, and its counter is one down (R126). -/
theorem State.storeClose_done (hfind : s.stores.find? (fun o => o.id == st.id) = some st) : s.storeClose st.id st.parts =
    { s with stores := s.stores.filter fun o => !(o.id == st.id) }.modGroup st.ti st.gi fun g => { g with stores := g.stores - 1 } := by
  have hkeeps (o : Store) : (fun o : Store => o.id == st.id) (o.marked st.parts) = (fun o : Store => o.id == st.id) o := rfl
  have hdone : (st.marked st.parts).parts.all (·.st == .acked) = true := by
    rw [List.all_eq_true]
    intro p hp
    obtain ⟨q, hq, rfl⟩ := List.mem_map.mp hp
    rw [if_pos (List.any_eq_true.mpr ⟨q, hq, by simp⟩)]
    rfl
  rw [State.storeClose_eq, find?_updIf hkeeps, filter_not_updIf hkeeps, hfind]
  exact if_pos hdone

theorem State.storeClose_spec (hfind : s.stores.find? (fun o => o.id == st.id) = some st) :
    (∀ o ∈ (s.storeClose st.id st.parts).stores, o.id ≠ st.id) ∧
      ((s.storeClose st.id st.parts).group st.ti st.gi).stores = (s.group st.ti st.gi).stores - 1 ∧
      (∀ ti gi l, (s.storeClose st.id st.parts).thread ti gi l = s.thread ti gi l) ∧ ∀ k a, (s.storeClose st.id st.parts).cohByte k a = s.cohByte k a := by
  rw [State.storeClose_done hfind]
  generalize hrest : s.stores.filter (fun o => !(o.id == st.id)) = rest
  refine ⟨fun o ho => ?_, ?_, fun ti gi l => ?_, fun k a => State.cohByte_modGroup ..⟩
  · rw [State.modGroup_stores] at ho
    subst hrest
    simpa using (List.mem_filter.mp ho).2
  · exact State.group_field_modGroup Group.stores (fun g => { g with stores := g.stores - 1 }) rfl { s with stores := rest } st.ti st.gi
  · exact State.thread_modGroup_of_lanes { s with stores := rest } st.ti st.gi (f := fun g => { g with stores := g.stores - 1 }) (fun _ => rfl) ti gi l

/-- The same for the state that its effect on memory leaves. -/
theorem State.storeClose_of_sansMem (hfind : s.stores.find? (fun o => o.id == st.id) = some st) (hrest : u.sansMem = s.sansMem) :
    (∀ o ∈ (u.storeClose st.id st.parts).stores, o.id ≠ st.id) ∧
      ((u.storeClose st.id st.parts).group st.ti st.gi).stores = (s.group st.ti st.gi).stores - 1 ∧
      (∀ ti gi l, (u.storeClose st.id st.parts).thread ti gi l = s.thread ti gi l) ∧ ∀ k a, (u.storeClose st.id st.parts).cohByte k a = u.cohByte k a := by
  obtain ⟨hgone, hcount, hthread, hbytes⟩ := State.storeClose_spec (s := u) (State.stores_of_sansMem hrest ▸ hfind)
  exact ⟨hgone, by rw [hcount, State.group_of_sansMem hrest], fun ti gi l => by rw [hthread, State.thread_of_sansMem hrest], hbytes⟩

/-! ### The turn of parts that stand in the L1 -/

theorem partTurn_of_wait {p : StPart} (hst : p.st = .wait) (hdev : isDevice p.pa = false) (hturn : storeTurn s st p = true) : partTurn s st p = true := by
  simp [partTurn, logTurn, StPart.inLog, replayTurn, ordTurn, StPart.isWake, hst, hdev, hturn]

/-- A request of one line, or of one location, performs all the parts of a store that stand in the L1 together. -/
theorem turnParts_all {pa : ℕ} (hparts : ∀ p ∈ st.parts, p.st = .wait ∧ isDevice p.pa = false ∧ storeTurn s st p = true ∧
    if st.op.isRed then p.pa = pa else lineOf p.pa = lineOf pa) : turnParts s st (ackParts st pa) = st.parts := by
  have hack : ackParts st pa = st.parts := List.filter_eq_self.mpr fun p hp => by
    obtain ⟨hst, -, -, hat⟩ := hparts p hp
    rw [hst]
    split at hat <;> rename_i hred <;> simp [hred, hat]
  have hnow : st.parts.filter (·.st == .wait) = st.parts := List.filter_eq_self.mpr fun p hp => by simp [(hparts p hp).1]
  have hlate : st.parts.filter (fun p => p.st != .wait && partTurn s st p) = [] := List.filter_eq_nil_iff.mpr fun p hp => by simp [(hparts p hp).1]
  have hturn : st.parts.all (partTurn s st) = true := List.all_eq_true.mpr fun p hp =>
    have ⟨hst, hdev, hturn, _⟩ := hparts p hp
    partTurn_of_wait hst hdev hturn
  rw [turnParts, hack]
  rw [hnow, hlate, hturn, if_pos rfl, List.append_nil]

theorem State.reaches_of_homeDie {pa : ℕ} (h : (s.homeDie pa).isSome = true) (id die : ℕ) : s.reachesAt id die pa = true := by
  have hlocal : s.isLocal pa = true := by
    by_contra hn
    rw [State.homeDie, if_neg hn] at h
    cases h
  simp [State.reachesAt, State.reaches, hlocal]
end

/-! ### Stores -/

section
variable {s : State} {st : Store} {line key : ℕ}

/-- The cells of a part. -/
def partBytes (st : Store) (p : StPart) : List Host.Cell := (addrs p.pa st.n).zip (natBytes st.n p.data.toNat)

theorem lastCell_partBytes (st : Store) (p : StPart) (a : ℕ) : lastCell (partBytes st p) a =
    if p.pa ≤ a ∧ a < p.pa + st.n then some (BitVec.ofNat 8 (p.data.toNat / 256 ^ (a - p.pa))) else none := by
  have hcells := lastCell_zip_addrs p.pa a (natBytes st.n p.data.toNat)
  rw [length_natBytes] at hcells
  rw [partBytes, hcells]
  refine ite_congr rfl (fun ha => ?_) fun _ => rfl
  rw [getD_natBytes (by omega)]

/-- A part is a write of its line. -/
def StPart.inLine (st : Store) (line key : ℕ) (p : StPart) : Prop := lineOf p.pa = line ∧ lineOf (p.pa + st.n - 1) = line ∧ p.key = key

theorem StPart.inLine.cells {p : StPart} (h : p.inLine st line key) : ∀ c ∈ partBytes st p, lineOf c.1 = line := by
  obtain ⟨hfirst, hlast, -⟩ := h
  intro c hc
  have hin := mem_zip_addrs hc
  simp only [lineOf] at *
  omega

theorem storeLane_store (hop : st.op.inL1 = true) {p : StPart} (hlive : s.frameLive p.gen p.pa = true) :
    storeLane s st p = s.grantWrite st.core p.key (partBytes st p) := by
  rw [storeLane, hlive]
  cases hst : st.op with
  | store => rfl
  | rel => rfl
  | ord => rfl
  | _ => rw [hst] at hop; cases hop

section
variable (hop : st.op.inL1 = true) (hn : 0 < st.n)
include hop hn

theorem storeLane_writes (h : s.tidy) (hhome : (s.homeDie (128 * line)).isSome = true) {p : StPart} (hp : p.inLine st line key)
    (hlive : s.frameLive p.gen p.pa = true) : s.Writes (storeLane s st p) line key (lastCell (partBytes st p)) ∧ (storeLane s st p).sansMem = s.sansMem := by
  have hne : partBytes st p ≠ [] := fun hnil => by
    have hlen := congrArg List.length hnil
    simp only [partBytes, addrs, List.length_zip, List.length_map, List.length_range, length_natBytes, min_self, List.length_nil] at hlen
    omega
  obtain ⟨hfirst, hlast, rfl⟩ := hp
  rw [storeLane_store hop hlive]
  exact ⟨State.writes_grantWrite h st.core (StPart.inLine.cells ⟨hfirst, hlast, rfl⟩) hne hhome, State.sansMem_grantWrite ..⟩

/-- Parts of one line are written one after another, the highest lane last (R125). -/
theorem foldl_storeLane_writes (h : s.tidy) (hhome : (s.homeDie (128 * line)).isSome = true) {ps : List StPart} (hne : ps ≠ [])
    (hps : ∀ p ∈ ps, p.inLine st line key ∧ s.frameLive p.gen p.pa = true) :
    s.Writes (ps.foldl (fun s p => storeLane s st p) s) line key (lastCell (ps.flatMap (partBytes st))) ∧
      (ps.foldl (fun s p => storeLane s st p) s).sansMem = s.sansMem := by
  induction ps generalizing s with
  | nil => exact absurd rfl hne
  | cons p qs ih =>
    obtain ⟨hline, hlive⟩ := hps p List.mem_cons_self
    obtain ⟨hwrites, hrest⟩ := storeLane_writes hop hn h hhome hline hlive
    cases qs with
    | nil => simpa using ⟨hwrites, hrest⟩
    | cons q rs =>
      obtain ⟨hmore, hrest'⟩ := ih hwrites.tidy (by rwa [State.homeDie_of_sansMem hrest]) (List.cons_ne_nil _ _) fun r hr => by
        obtain ⟨hl, hlv⟩ := hps r (List.mem_cons_of_mem _ hr)
        exact ⟨hl, by rwa [State.frameLive_of_sansMem hrest]⟩
      refine ⟨(hwrites.append hmore).congr fun a _ => ?_, hrest'.trans hrest⟩
      rw [List.flatMap_cons (x := p), lastCell_append]
end

/-- Bytes that no part covers. -/
theorem lastCell_parts_outside {ps : List StPart} {a : ℕ} (h : ∀ p ∈ ps, a < p.pa ∨ p.pa + st.n ≤ a) : lastCell (ps.flatMap (partBytes st)) a = none := by
  refine lastCell_eq_none fun c hc he => ?_
  obtain ⟨p, hp, hc⟩ := List.mem_flatMap.mp hc
  have hin := mem_zip_addrs hc
  have hout := h p hp
  omega

/-- Of parts that cover a byte the last one stands. -/
theorem lastCell_parts_last {l q : List StPart} {p : StPart} {a : ℕ} (ha : p.pa ≤ a ∧ a < p.pa + st.n) (hq : ∀ r ∈ q, a < r.pa ∨ r.pa + st.n ≤ a) :
    lastCell ((l ++ p :: q).flatMap (partBytes st)) a = some (BitVec.ofNat 8 (p.data.toNat / 256 ^ (a - p.pa))) := by
  rw [List.flatMap_append, List.flatMap_cons, lastCell_append, lastCell_append, lastCell_parts_outside hq, lastCell_partBytes, if_pos ha]
  rfl

theorem performStore_inL1 (hop : st.op.inL1 = true) {ps : List StPart} (hdev : ∀ p ∈ ps, isDevice p.pa = false) :
    performStore s st ps = (ps.foldl (fun s p => storeLane s st p) s).storeClose st.id ps := by
  have hcache : st.op.isCache = false := by
    cases hst : st.op with
    | store => rfl
    | rel => rfl
    | ord => rfl
    | _ => rw [hst] at hop; cases hop
  cases ps with
  | nil => rfl
  | cons p qs => simp [performStore, hdev p List.mem_cons_self, hcache]

/-! ### Reductions -/

/-- A reduction leaves its result at its location (R126). -/
theorem storeLane_red {op : AtomOp} {sg : Bool} {p : StPart} (h : s.tidy) (hop : st.op = .red op sg) (hlive : s.frameLive p.gen p.pa = true)
    (hhome : (s.homeDie p.pa).isSome = true) (hn0 : 0 < st.n) (hn : st.n ∣ 128) (hpa : p.pa % st.n = 0) :
    let old : DWord := BitVec.ofNat 64 (bytesNat ((s.settle (lineOf p.pa) p.key).cohBytes p.key p.pa st.n))
    (storeLane s st p).sansMem = s.sansMem ∧
      (storeLane s st p).cohBytes p.key p.pa st.n = natBytes st.n (applyAtom op sg (8 * st.n) old p.data 0).toNat ∧
      ∃ new : ℕ → Option Byte, (∀ a, a < p.pa ∨ p.pa + st.n ≤ a → new a = none) ∧ s.Writes (storeLane s st p) (lineOf p.pa) p.key new := by
  have htake := State.writes_takeLine h (lineOf p.pa) p.key
  have hrest := s.sansMem_takeLine p.key (lineOf p.pa)
  have hbytes : (s.takeLine p.key (lineOf p.pa)).cohBytes p.key p.pa st.n = (s.settle (lineOf p.pa) p.key).cohBytes p.key p.pa st.n :=
    State.cohBytes_congr fun a ha => htake.bytes a (lineOf_location hn hpa ha)
  intro old
  have hlane : storeLane s st p = (s.takeLine p.key (lineOf p.pa)).homeWrite p.key ((addrs p.pa st.n).zip
      (natBytes st.n (applyAtom op sg (8 * st.n) old p.data 0).toNat)) := by
    rw [storeLane, hlive, hop]
    simp only [Bool.not_true, Bool.false_eq_true, if_false, hbytes]
    rfl
  rw [hlane]
  obtain ⟨new, hout, hwrites⟩ := State.writes_location hn hpa htake.tidy htake.under (natBytes st.n (applyAtom op sg (8 * st.n) old p.data 0).toNat)
  refine ⟨(State.sansMem_homeWrite ..).trans hrest, State.cohBytes_homeWrite hn hpa htake.tidy ?_ (length_natBytes ..) hn0, _, fun a ha => ?_, htake.append hwrites⟩
  · rwa [State.homeDie_of_sansMem hrest]
  · simp [hout a ha]
end

end Sys2Proof.Machine
end

section
/-! The settled obligation about replies and acknowledgements, 05 R98, 06 R118, R126, R129, R132, R134. -/

namespace Sys2Proof.Machine

/-! ### Loads -/

section
variable {s : State} {ld : Load} {p : LoadPart}

/-- A reply that nothing holds back performs its one lane. -/
theorem exec_loadReply_single (hfind : s.loads.find? (fun d => d.id == ld.id) = some ld) (hparts : ld.parts = [p]) (hst : p.st = .wait)
    (hplaced : s.placed ld.ti = true) (hcheck : s.checkHolds (dieOfCore ld.core) (lineOf p.pa) true ld.op.isAtomic = false)
    (hserved : s.reachesAt ld.id (dieOfCore ld.core) p.pa = true ∨ (ld.op.isAtomic = false ∧ s.heldNear ld.core p.key p.pa = true))
    (hready : partReady s ld p = true) (halone : ld.op.isAtomic = true → s.aloneAt (lineOf p.pa) (s.ownCopy ld.core (lineOf p.pa))) :
    exec (.loadReply ld.id p.pa) s = .next (performLoad s ld [p]) := by
  have hps := readyParts_single hparts hst hready
  have hfree : replyFree s ld p.pa (readyParts s ld p.pa) := by
    rw [hps]
    exact ⟨hplaced, hcheck, List.cons_ne_nil _ _, hserved.imp_right fun hnear => ⟨hnear.1, fun q hq => List.mem_singleton.mp hq ▸ hnear.2⟩⟩
  rw [exec_loadReply_free hfind hfree, answer_performs halone, hps]
end

/-! ### Stores -/

section
variable {s : State} {st : Store} {line key : ℕ}

theorem StOp.inL1_spec {op : StOp} (h : op.inL1 = true) : op.isRed = false ∧ op.isCache = false := by
  cases op with
  | store => exact ⟨rfl, rfl⟩
  | rel => exact ⟨rfl, rfl⟩
  | ord => exact ⟨rfl, rfl⟩
  | _ => cases h

/-- The condition of an acknowledgement of a line of this module, for parts that all stand in the L1. -/
theorem exec_storeAck_line {pa : ℕ} (hfind : s.stores.find? (fun o => o.id == st.id) = some st) (hne : st.parts ≠ []) (hcache : st.op.isCache = false)
    (hplaced : s.placed st.ti = true) (hhome : (s.homeDie (128 * lineOf pa)).isSome = true)
    (hcheck : s.checkHolds (dieOfCore st.core) (lineOf pa) st.op.isRed true = false)
    (hparts : ∀ p ∈ st.parts, p.st = .wait ∧ isDevice p.pa = false ∧ storeTurn s st p = true ∧ if st.op.isRed then p.pa = pa else lineOf p.pa = lineOf pa) :
    (s.aloneAt (lineOf pa) (s.ownCopy st.core (lineOf pa)) → exec (.storeAck st.id pa) s = .next (performStore s st st.parts)) ∧
      (¬s.aloneAt (lineOf pa) (s.ownCopy st.core (lineOf pa)) → (∃ p ∈ st.parts, s.frameLive p.gen p.pa = true) →
        exec (.storeAck st.id pa) s = .next (s.sendInvals (lineOf pa) (some (s.ownCopy st.core (lineOf pa)))).1) := by
  have hall := turnParts_all hparts
  have hlate : st.parts.filter (fun p => p.st == .released) = [] := List.filter_eq_nil_iff.mpr fun p hp => by simp [(hparts p hp).1]
  have hopen : linesOpen s st (ackLines st st.parts pa) := by
    intro l hl
    rw [ackLines_eq, hcache, if_neg Bool.false_ne_true, List.mem_singleton] at hl
    subst hl
    exact ⟨State.reaches_of_homeDie hhome .., hcheck⟩
  rw [← hall] at hne hlate
  rw [← congrArg (fun ps => ackLines st ps pa) hall] at hopen
  refine ⟨fun halone => ?_, fun hbusy hlive => ?_⟩
  · rw [exec_storeAck_performs hfind hplaced hne hlate hopen (.inr halone), hall]
  · exact exec_storeAck_invalidates hfind hplaced hne hlate hopen hcache hbusy (by rwa [hall, List.any_eq_true])

/-- What performing all parts of a store on one line leaves (R118). -/
theorem performStore_spec (hfind : s.stores.find? (fun o => o.id == st.id) = some st) (hop : st.op.inL1 = true) (hn : 0 < st.n) (hne : st.parts ≠ [])
    (h : s.tidy) (hdev : isDevice (128 * line) = false) (hhome : (s.homeDie (128 * line)).isSome = true)
    (hps : ∀ p ∈ st.parts, p.inLine st line key ∧ s.frameLive p.gen p.pa = true) :
    let t := performStore s st st.parts
    (∀ o ∈ t.stores, o.id ≠ st.id) ∧ (t.group st.ti st.gi).stores = (s.group st.ti st.gi).stores - 1 ∧ (∀ ti gi l, t.thread ti gi l = s.thread ti gi l) ∧
      ∀ a, (∀ k, lineOf a ≠ line → (∀ e ∈ s.cache, e.line = lineOf a → e.key = k) → t.cohByte k a = s.cohByte k a) ∧
        (lineOf a = line → (∀ p ∈ st.parts, a < p.pa ∨ p.pa + st.n ≤ a) → t.cohByte key a = (s.settle line key).cohByte key a) ∧
        ∀ l p q, st.parts = l ++ p :: q → p.pa ≤ a → a < p.pa + st.n → (∀ r ∈ q, a < r.pa ∨ r.pa + st.n ≤ a) →
          t.cohByte key a = BitVec.ofNat 8 (p.data.toNat / 256 ^ (a - p.pa)) := by
  intro t
  obtain ⟨hwrites, hrest⟩ := foldl_storeLane_writes hop hn h hhome hne hps
  obtain ⟨hgone, hcount, hthread, hbytes⟩ := State.storeClose_of_sansMem hfind hrest
  have ht : t = (st.parts.foldl (fun s p => storeLane s st p) s).storeClose st.id st.parts :=
    performStore_inL1 hop fun p hp => by rw [isDevice_congr_line ((hps p hp).1.1.trans (lineOf_mul line).symm), hdev]
  rw [ht]
  refine ⟨hgone, hcount, hthread, fun a => ⟨fun k hl hk => (hbytes k a).trans ((hwrites.others _ k hl hk).2 a rfl), fun hl hout => ?_, fun l p q hsplit hlo hhi hq => ?_⟩⟩
  · rw [hbytes, hwrites.bytes a hl, lastCell_parts_outside hout]
    rfl
  · have hline : lineOf a = line := by
      obtain ⟨⟨hfirst, hlast, -⟩, -⟩ := hps p (hsplit ▸ by simp)
      simp only [lineOf] at *
      omega
    rw [hbytes, hwrites.bytes a hline, hsplit, lastCell_parts_last ⟨hlo, hhi⟩ hq]
    rfl

/-- A reduction of one lane whose condition holds is performed. -/
theorem performStore_red {op : AtomOp} {sg : Bool} {p : StPart} (hfind : s.stores.find? (fun o => o.id == st.id) = some st) (hop : st.op = .red op sg)
    (hparts : st.parts = [p]) (h : s.tidy) (hlive : s.frameLive p.gen p.pa = true)
    (hhome : (s.homeDie p.pa).isSome = true) (hn0 : 0 < st.n) (hn : st.n ∣ 128) (hpa : p.pa % st.n = 0) :
    let under := s.settle (lineOf p.pa) p.key
    let old : DWord := BitVec.ofNat 64 (bytesNat (under.cohBytes p.key p.pa st.n))
    let t := performStore s st [p]
    (∀ o ∈ t.stores, o.id ≠ st.id) ∧ (t.group st.ti st.gi).stores = (s.group st.ti st.gi).stores - 1 ∧ (∀ ti gi l, t.thread ti gi l = s.thread ti gi l) ∧
      t.cohBytes p.key p.pa st.n = natBytes st.n (applyAtom op sg (8 * st.n) old p.data 0).toNat ∧
      ∀ a, (lineOf a = lineOf p.pa → (a < p.pa ∨ p.pa + st.n ≤ a) → t.cohByte p.key a = under.cohByte p.key a) ∧
        ∀ k, lineOf a ≠ lineOf p.pa → (∀ e ∈ s.cache, e.line = lineOf a → e.key = k) → t.cohByte k a = s.cohByte k a := by
  intro under old t
  obtain ⟨hrest, hresult, new, hout, hwrites⟩ := storeLane_red h hop hlive hhome hn0 hn hpa
  obtain ⟨hgone, hcount, hthread, hbytes⟩ := State.storeClose_of_sansMem hfind hrest
  have ht : t = (storeLane s st p).storeClose st.id st.parts := by simp [t, performStore, hop, hparts, StOp.inL1, StOp.isCache]
  rw [ht]
  refine ⟨hgone, hcount, hthread, (State.cohBytes_congr fun a _ => hbytes p.key a).trans hresult, fun a => ⟨fun hl ha => ?_, fun k hl hk => ?_⟩⟩
  · rw [hbytes, hwrites.bytes a hl, hout a ha]
    rfl
  · exact (hbytes k a).trans ((hwrites.others _ k hl hk).2 a rfl)

end

/-- Settles O23: what a request performs is decided by the conditions of its reply or acknowledgement; what it then reads and writes follows from what each
operation on cached lines keeps of the bytes that a line shows. -/
theorem loadsAndStoresPerform : Obligations.LoadsAndStoresPerform := by
  refine ⟨fun s ld pa hfind => ⟨fun hfree halone => ?_, fun hfree ha hbusy => ?_, fun hwait => exec_loadReply_waits hfind hwait⟩, ?_, ?_, ?_, ?_⟩
  · rw [exec_loadReply_free hfind hfree, answer_performs halone]
    rfl
  · refine ⟨(s.sendInvals (lineOf pa) (some (s.ownCopy ld.core (lineOf pa)))).1, ?_, s.sendInvals_spec (lineOf pa) (s.ownCopy ld.core (lineOf pa))⟩
    rw [exec_loadReply_free hfind hfree, answer_invalidates ha hbusy]
  · intro s ld pa p hfind hparts hst hpa htidy hplaced hcheck hserved hready hlive hdev hlane under old halone hn0 hn hmod
    subst hpa
    exact ⟨_, exec_loadReply_single hfind hparts hst hplaced hcheck hserved hready halone,
      performLoad_single hfind hparts htidy hlive hdev hlane hn0 hn hmod⟩
  · intro s st pa hfind ps late lines free open' quiet
    have hopen : open' ↔ linesOpen s st (ackLines st ps pa) := by rw [ackLines_eq]; rfl
    refine ⟨fun hfree hlate => exec_storeAck_late hfind hfree.1 hlate, fun hfree hlate hop hquiet =>
      exec_storeAck_performs hfind hfree.1 hfree.2 hlate (hopen.mp hop) hquiet, fun hwait => exec_storeAck_waits hfind ?_⟩
    exact hwait.imp id fun hshut => ⟨hshut.1, hopen.not.mp hshut.2⟩
  · intro s st pa line key hfind hop hn hne hpa htidy hps hdev hhome hplaced hcheck hturn hs
    subst hpa
    obtain ⟨hred, hcache⟩ := StOp.inL1_spec hop
    have hparts : ∀ p ∈ st.parts, p.st = .wait ∧ isDevice p.pa = false ∧ storeTurn s st p = true ∧
        if st.op.isRed then p.pa = pa else lineOf p.pa = lineOf pa := fun p hp =>
      have ⟨hst, hline, _⟩ := hps p hp
      ⟨hst, (isDevice_congr_line (hline.trans (lineOf_mul _).symm)).trans hdev, hturn p hp, by rwa [hred]⟩
    obtain ⟨hperforms, hinvalidates⟩ := exec_storeAck_line hfind hne hcache hplaced hhome (hred ▸ hcheck) hparts
    refine ⟨fun halone hquiet => ⟨_, hperforms ⟨halone, hquiet⟩, ?_⟩, fun ⟨h, hh, hother⟩ => ⟨_, hinvalidates (fun hn => hother (hn.1 h hh)) ?_, ?_⟩⟩
    · exact performStore_spec hfind hop hn hne htidy hdev hhome fun p hp =>
        have ⟨_, hfirst, hlast, hkey, hlive⟩ := hps p hp
        ⟨⟨hfirst, hlast, hkey⟩, hlive⟩
    · obtain ⟨p, hp⟩ := List.exists_mem_of_ne_nil _ hne
      exact ⟨p, hp, (hps p hp).2.2.2.2⟩
    · exact s.sendInvals_spec (lineOf pa) (s.ownCopy st.core (lineOf pa))
  · intro s st p op sg hfind hop hparts hst htidy hn0 hn hmod hdev hhome hlive hplaced hcheck hturn halone hquiet
    have hred : st.op.isRed = true := by rw [hop]; rfl
    have hhome' : (s.homeDie (128 * lineOf p.pa)).isSome = true := by rwa [← s.homeDie_congr_line (lineOf_mul _).symm]
    obtain ⟨hperforms, -⟩ := exec_storeAck_line (pa := p.pa) hfind (by simp [hparts]) (by rw [hop]; rfl) hplaced hhome' (hred ▸ hcheck) fun q hq => by
      rw [hparts, List.mem_singleton] at hq
      subst hq
      exact ⟨hst, hdev, hturn, by rw [if_pos hred]⟩
    exact ⟨_, hparts ▸ hperforms ⟨halone, hquiet⟩, performStore_red hfind hop hparts htidy hlive hhome hn0 hn hmod⟩

end Sys2Proof.Machine
end

section
/-! Where loads and stores trap before any access: alignment, the address space, the carve-out, 06 R123. -/

namespace Sys2Proof.Machine

section
variable {g : Guard} {regs : List ℕ} {i : Instr} {addr : Thread → ℕ}

/-- Checks that fail are those of some lane. -/
theorem ne_nil_of_precheck {s : State} {c : Cur} {act : List ℕ} {align cause : ℕ} {v : DWord}
    (h : precheck align (laneAddrs s c act addr) = some (cause, v)) : act.isEmpty = false := by
  cases act with
  | nil => cases h
  | cons l ls => rfl

theorem memChecks_of_precheck {s : State} {x : Acx} {acc : Acc} {align : ℕ} {las : List (ℕ × ℕ)} {cause : ℕ} {v : DWord}
    (h : precheck align las = some (cause, v)) : memChecks s x acc align las = .trap cause v := by
  rw [memChecks, h]

/-- A load-class word begins with the checks. -/
theorem prechecks_issueLoad {op : LoadOp} {n align : ℕ} {acc : Acc} {d wd : ℕ} {x y : Thread → DWord}
    (h : ∀ s, exec i s = ordinary .all g regs (issueLoad op n align acc d wd addr x y) s) : Prechecks i g regs align addr := by
  refine ⟨_, h, fun s c act cause v hp => ?_⟩
  rw [issueLoad, ne_nil_of_precheck hp, if_neg Bool.false_ne_true]
  simp only [memChecks_of_precheck hp]

/-- A store-class word begins with the checks. -/
theorem prechecks_issueStoreAs {acc : Acc} {op : StOp} {sc : Scope} {n : ℕ} {data : Thread → DWord}
    (h : ∀ s, exec i s = ordinary .all g regs (issueStoreAs acc op sc n addr data) s) : Prechecks i g regs n addr := by
  refine ⟨_, h, fun s c act cause v hp => ?_⟩
  rw [issueStoreAs, ne_nil_of_precheck hp, if_neg Bool.false_ne_true]
  simp only [memChecks_of_precheck hp]
end

/-! ### The scratchpad -/

section
variable {i : Instr} {g : Guard} {regs : List ℕ} {n : ℕ} {off : Thread → ℕ} {s : State} {c : Cur} {p q : List (ℕ × ℕ)} {la : ℕ × ℕ}

/-- The first misaligned offset decides. -/
theorem scratchCheck_misaligned (hp : ∀ x ∈ p, x.2 % n = 0) (h : la.2 % n ≠ 0) :
    scratchCheck s c n (p ++ la :: q) = some (0x04, BitVec.ofNat 64 la.2) := by
  rw [scratchCheck, List.find?_append, find?_misaligned_eq_none hp, Option.none_or, List.find?_cons_of_pos (by simpa using h)]

theorem find?_beyond_eq_none {las : List (ℕ × ℕ)} {m : ℕ} (h : ∀ x ∈ las, x.2 + n ≤ m) : las.find? (fun la => decide (m < la.2 + n)) = none :=
  List.find?_eq_none.2 fun x hx => by simpa using h x hx

/-- Where all are aligned, the first one beyond the carve-out decides. -/
theorem scratchCheck_beyond (ha : ∀ x ∈ p ++ la :: q, x.2 % n = 0) (hp : ∀ x ∈ p, x.2 + n ≤ (s.team c.ti).carve) (h : (s.team c.ti).carve < la.2 + n) :
    scratchCheck s c n (p ++ la :: q) = some (0x06, BitVec.ofNat 64 la.2) := by
  rw [scratchCheck, find?_misaligned_eq_none ha, List.find?_append, find?_beyond_eq_none hp, Option.none_or,
    List.find?_cons_of_pos (by simpa using h)]

theorem scratchCheck_pass {las : List (ℕ × ℕ)} (ha : ∀ x ∈ las, x.2 % n = 0) (hr : ∀ x ∈ las, x.2 + n ≤ (s.team c.ti).carve) :
    scratchCheck s c n las = none := by
  rw [scratchCheck, find?_misaligned_eq_none ha, find?_beyond_eq_none hr]

/-- Word `i` begins its own part with the checks of R123 on the offsets of its active lanes in the scratchpad. -/
def ScratchChecks (i : Instr) (g : Guard) (regs : List ℕ) (n : ℕ) (off : Thread → ℕ) : Prop :=
  ∃ body, (∀ s, exec i s = ordinary .all g regs body s) ∧
    ∀ s c act cause v, scratchCheck s c n (laneAddrs s c act off) = some (cause, v) → body c act s = .trap cause v

theorem ScratchChecks.traps (h : ScratchChecks i g regs n off) {cause : ℕ} {v : DWord} (hr : Ready s c g regs)
    (hc : scratchCheck s c n (laneAddrs s c (activeLanes s c g) off) = some (cause, v)) :
    exec i s = .next (takeTrap s c.ti c.gi c.lanes cause c.pc v) := by
  obtain ⟨body, he, hb⟩ := h
  rw [he, ordinary_issues body hr, hb _ _ _ _ _ hc]
  rfl

theorem ScratchChecks.misaligns (h : ScratchChecks i g regs n off) : Misaligns i g regs n off := by
  intro s c p l q hr hact hp hl
  refine h.traps hr ?_
  rw [hact, laneAddrs, List.map_append, List.map_cons]
  exact scratchCheck_misaligned (by simpa using hp) hl

/-- Aligned offsets of which one lies beyond the carve-out. -/
theorem ScratchChecks.beyond (h : ScratchChecks i g regs n off) {p q : List ℕ} {l : ℕ} (hr : Ready s c g regs)
    (hact : activeLanes s c g = p ++ l :: q) (ha : ∀ k ∈ p ++ l :: q, off (s.thread c.ti c.gi k) % n = 0)
    (hp : ∀ k ∈ p, off (s.thread c.ti c.gi k) + n ≤ (s.team c.ti).scr * 2 ^ 18) (hl : (s.team c.ti).scr * 2 ^ 18 < off (s.thread c.ti c.gi l) + n) :
    exec i s = .next (takeTrap s c.ti c.gi c.lanes 0x06 c.pc (BitVec.ofNat 64 (off (s.thread c.ti c.gi l)))) := by
  refine h.traps hr ?_
  rw [hact, laneAddrs]
  rw [← List.forall_mem_map (f := fun l => (l, off (s.thread c.ti c.gi l))) (P := fun x => x.2 % n = 0)] at ha
  rw [List.map_append, List.map_cons] at ha ⊢
  exact scratchCheck_beyond ha (by simpa [Team.carve] using hp) (by simpa [Team.carve] using hl)

theorem scratchChecks_lds (g : Guard) (w : MemW) (d : RegIx) (a : Src) (o : Off) :
    ScratchChecks (.lds g w d a o) g (regRegs w.w d ++ srcRegs 32 a) w.bytes fun t => so t a o :=
  ⟨_, fun _ => rfl, fun s c act cause v h => by simp only [h]⟩

theorem scratchChecks_sts (g : Guard) (w : MemW) (a : Src) (o : Off) (v : Src) :
    ScratchChecks (.sts g w a o v) g (srcRegs 32 a ++ srcRegs w.w v) w.bytes fun t => so t a o :=
  ⟨_, fun _ => rfl, fun s c act cause v h => by simp only [h]⟩
end

/-- Settles O21: every word that accesses memory begins with the checks of its addresses, and those of the scratchpad with the checks of their offsets. -/
theorem addressChecksTrap : Obligations.AddressChecksTrap := by
  unfold Obligations.AddressChecksTrap
  intro g sc w d a o v op sg norm w64 b r k at' base so' wd both
  have traps {i : Instr} {regs : List ℕ} {n : ℕ} {f : Thread → ℕ} (h : Prechecks i g regs n f) : both i regs n f := ⟨h.misaligns, h.overreaches⟩
  exact ⟨traps (prechecks_issueLoad fun _ => rfl), traps (prechecks_issueLoad fun _ => rfl), traps (prechecks_issueStoreAs fun _ => rfl),
    traps (prechecks_issueStoreAs fun _ => rfl), traps (prechecks_issueLoad fun _ => rfl), traps (prechecks_issueLoad fun _ => rfl),
    traps (prechecks_issueLoad fun _ => rfl), traps (prechecks_issueStoreAs fun _ => rfl), (scratchChecks_lds g w d a o).misaligns,
    (scratchChecks_sts g w a o v).misaligns⟩

end Sys2Proof.Machine
end

section
/-! What a change of some lanes, of one team or of a scratchpad leaves. -/

namespace Sys2Proof.Machine

/-- Only what an update does to the element that stands there counts. -/
theorem updAt_congr {α : Type} {l : List α} {i : ℕ} {f h : α → α} (d : α) (heq : i < l.length → f (l.getD i d) = h (l.getD i d)) :
    updAt l i f = updAt l i h := by
  refine List.ext_getElem? fun j => ?_
  rw [getElem?_updAt, getElem?_updAt]
  split
  · next hj =>
    subst hj
    rcases Nat.lt_or_ge j l.length with hlt | hge
    · rw [List.getElem?_eq_getElem hlt, Option.map_some, Option.map_some, ← List.getD_eq_getElem _ d hlt, heq hlt]
    · rw [List.getElem?_eq_none hge]; rfl
  · rfl

section
variable {s : State} {ti gi : ℕ} {ls : List ℕ} {f h : ℕ → Thread → Thread}

/-- Only what an update does to the threads that stand in the lanes counts. -/
theorem State.modLanes_congr (heq : ∀ l ∈ ls, f l (s.thread ti gi l) = h l (s.thread ti gi l)) : s.modLanes ti gi ls f = s.modLanes ti gi ls h := by
  have hlanes (g : Group) (hg : g = s.group ti gi) : g.modLanes ls f = g.modLanes ls h := by
    refine congrArg (fun lanes => { g with lanes := lanes }) (List.ext_getElem? fun l => ?_)
    rw [List.getElem?_mapIdx, List.getElem?_mapIdx]
    rcases Nat.lt_or_ge l g.lanes.length with hlt | hge
    · have hl : g.lanes[l] = s.thread ti gi l := by rw [State.thread, ← hg, Group.lane, List.getD_eq_getElem _ _ hlt]
      rw [List.getElem?_eq_getElem hlt, Option.map_some, Option.map_some, hl]
      split
      · next hmem => rw [heq l (List.contains_iff_mem.1 hmem)]
      · rfl
    · rw [List.getElem?_eq_none hge]; rfl
  refine congrArg (fun teams => { s with teams := teams }) (updAt_congr Team.blank fun _ => ?_)
  exact congrArg (fun groups => ({ s.team ti with groups := groups } : Team)) (updAt_congr Group.blank fun _ => hlanes _ (by rfl))

/-- A part of a thread that the update keeps. -/
theorem State.thread_field_modLanes {α : Type} (v : Thread → α) (hf : ∀ l t, v (f l t) = v t) (s : State) (ti gi : ℕ) (ls : List ℕ) (tj gj k : ℕ) :
    v ((s.modLanes ti gi ls f).thread tj gj k) = v (s.thread tj gj k) := by
  by_cases hg : (tj, gj) = (ti, gi)
  · obtain ⟨rfl, rfl⟩ := Prod.mk.inj hg
    by_cases hk : k ∈ ls
    · rcases Nat.lt_or_ge k (s.group tj gj).lanes.length with hlt | hge
      · rw [State.thread_modLanes_mem f hk hlt, hf]
      · rw [State.thread_missing hge, State.thread_missing (by rwa [State.lanes_length_modLanes])]
    · rw [State.thread_modLanes_notMem s f hk]
  · rw [State.thread_modLanes_ne s k ls f hg]

/-- Registers and `lr` of every thread stay when lanes go on. -/
theorem State.advance_regs (s : State) (c : Cur) (ls : List ℕ) (ti gi l : ℕ) :
    ((advance s c ls).thread ti gi l).regs = (s.thread ti gi l).regs ∧ ((advance s c ls).thread ti gi l).lr = (s.thread ti gi l).lr :=
  ⟨State.thread_field_modLanes Thread.regs (fun _ _ => by rfl) s c.ti c.gi ls ti gi l, State.thread_field_modLanes Thread.lr (fun _ _ => by rfl) s c.ti c.gi ls ti gi l⟩

/-- A part of a group that does not stand in its lanes stays when lanes go on. -/
theorem State.advance_group {α : Type} (v : Group → α) (hv : ∀ g ls f, v (Group.modLanes g ls f) = v g) (s : State) (c : Cur) (ls : List ℕ) :
    v ((advance s c ls).group c.ti c.gi) = v (s.group c.ti c.gi) :=
  (State.group_field_modGroup v _ (hv _ _ _) s c.ti c.gi).trans (hv _ _ _)

/-- A part of a team that the update keeps. -/
theorem State.team_field_modTeam {α : Type} (v : Team → α) {f : Team → Team} (hf : ∀ t, v (f t) = v t) (s : State) (ti tj : ℕ) :
    v ((s.modTeam ti f).team tj) = v (s.team tj) := by
  by_cases ht : tj = ti
  · subst ht
    rcases Nat.lt_or_ge tj s.teams.length with hlt | hge
    · rw [State.team_modTeam_self f hlt, hf]
    · have hblank (u : State) (hu : u.teams.length ≤ tj) : u.team tj = .blank := List.getD_eq_default _ _ hu
      rw [hblank s hge, hblank _ (by rwa [State.teams_length_modTeam])]
  · rw [State.team_modTeam_ne s f ht]
end

/-! ### Writes of scratchpads -/

section
variable {n i : ℕ} {off : ℕ → ℕ} {bytes : ℕ → List Byte} (hlen : ∀ l, (bytes l).length = n)
include hlen

/-- A byte that no write of several covers. -/
theorem get_foldl_scratchPut_outside {ls : List ℕ} (h : ∀ l ∈ ls, i < off l ∨ off l + n ≤ i) (m : Sparse Byte) :
    Sparse.get 0#8 (ls.foldl (fun m l => scratchPut m (off l) (bytes l)) m) i = Sparse.get 0#8 m i := by
  induction ls generalizing m with
  | nil => rfl
  | cons l ls ih =>
    rw [List.foldl_cons, ih (fun k hk => h k (List.mem_cons_of_mem _ hk)), get_scratchPut, if_neg]
    have := h l List.mem_cons_self
    have := hlen l
    omega

/-- A byte that one write covers and none after it. -/
theorem get_foldl_scratchPut_last {p q : List ℕ} {l : ℕ} (hl : off l ≤ i ∧ i < off l + n) (hq : ∀ k ∈ q, i < off k ∨ off k + n ≤ i) (m : Sparse Byte) :
    Sparse.get 0#8 ((p ++ l :: q).foldl (fun m l => scratchPut m (off l) (bytes l)) m) i = (bytes l).getD (i - off l) 0 := by
  rw [List.foldl_append, List.foldl_cons, get_foldl_scratchPut_outside hlen hq, get_scratchPut, hlen, if_pos hl]
end

section
variable {off : ℕ → ℕ} {bytes : ℕ → List Byte} {ti pc : ℕ}

/-- The writes of several lanes to one scratchpad. -/
def State.scratchWrites (s : State) (ti pc : ℕ) (off : ℕ → ℕ) (bytes : ℕ → List Byte) (ls : List ℕ) : State :=
  ls.foldl (fun u l => u.scratchWrite ti pc (off l) (bytes l)) s

theorem Team.setScratch_groups (t : Team) (pc : ℕ) (m : Sparse Byte) : (t.setScratch pc m).groups = t.groups := by
  rw [Team.setScratch]; split <;> rfl

@[simp] theorem State.scratchWrites_mem (s : State) (ls : List ℕ) : (s.scratchWrites ti pc off bytes ls).mem = s.mem :=
  foldl_keeps State.mem (fun _ _ => by rfl) ls s

@[simp] theorem State.scratchWrites_cache (s : State) (ls : List ℕ) : (s.scratchWrites ti pc off bytes ls).cache = s.cache :=
  foldl_keeps State.cache (fun _ _ => by rfl) ls s

theorem State.group_scratchWrites (s : State) (ls : List ℕ) (tj gj : ℕ) : (s.scratchWrites ti pc off bytes ls).group tj gj = s.group tj gj :=
  foldl_keeps (fun u : State => u.group tj gj) (fun u _ =>
    congrArg (fun gs : List Group => gs.getD gj .blank) (State.team_field_modTeam Team.groups (fun t => t.setScratch_groups ..) u ti tj)) ls s

theorem State.team_scratchWrites_ne (s : State) (ls : List ℕ) {tj : ℕ} (h : tj ≠ ti) : (s.scratchWrites ti pc off bytes ls).team tj = s.team tj :=
  foldl_keeps (fun u : State => u.team tj) (fun u _ => u.team_modTeam_ne _ h) ls s

/-- The scratchpad after the writes, in the order of the lanes. -/
theorem State.scratch_scratchWrites {s : State} {ls : List ℕ} (h : ∀ l ∈ ls, ti < s.teams.length) :
    ((s.scratchWrites ti pc off bytes ls).team ti).scratch pc = ls.foldl (fun m l => scratchPut m (off l) (bytes l)) ((s.team ti).scratch pc) := by
  induction ls generalizing s with
  | nil => rfl
  | cons l ls ih =>
    have hti := h l List.mem_cons_self
    rw [List.foldl_cons, ← Team.scratch_setScratch (s.team ti) pc (scratchPut _ _ _), ← State.team_modTeam_self
      (fun t => t.setScratch pc (scratchPut (t.scratch pc) (off l) (bytes l))) hti]
    exact ih fun _ _ => hti.trans_eq (s.teams_length_modTeam ti _).symm
end

end Sys2Proof.Machine
end

section
/-! Loads and stores of the scratchpad, 06 R120, R121, R123, R129. -/

namespace Sys2Proof.Machine

/-! ### Loaded values, R129 -/

/-- The signed value of the low bits of a number, as a register of 32 bits. -/
theorem ofInt_sintW {w : ℕ} (hw : w ≤ 64) (x : ℕ) : BitVec.ofInt 32 (sintW w (BitVec.ofNat 64 x)) = (BitVec.ofNat w x).signExtend 32 := by
  have hu : uintW w (BitVec.ofNat 64 x) = (BitVec.ofNat w x).toNat := by
    rw [uintW, BitVec.toNat_ofNat, BitVec.toNat_ofNat, Nat.mod_mod_of_dvd _ (Nat.pow_dvd_pow 2 hw)]
  rw [BitVec.signExtend, BitVec.toInt, sintW, hu]
  simp

/-- The value of the bytes that a word of width `w` loads. -/
def loadedBy (w : MemW) (x : ℕ) : DWord := match w with
  | .s8 => ((BitVec.ofNat 8 x).signExtend 32).setWidth 64
  | .s16 => ((BitVec.ofNat 16 x).signExtend 32).setWidth 64
  | _ => BitVec.ofNat 64 x

theorem loadedValue_eq (w : MemW) (bs : List Byte) : loadedValue (w == .s8 || w == .s16) w.bytes bs = loadedBy w (bytesNat bs) := by
  cases w with
  | s8 => exact congrArg (BitVec.setWidth 64) (ofInt_sintW (w := 8) (by decide) _)
  | s16 => exact congrArg (BitVec.setWidth 64) (ofInt_sintW (w := 16) (by decide) _)
  | b8 | b16 | b32 | b64 => rfl

/-! ### `lds` -/

section
variable {g : Guard} {w : MemW} {d : RegIx} {a : Src} {o : Off} {v : Src} {s : State} {c : Cur}

/-- Offsets of the active lanes that pass the checks of R123, in lanes that no acquire holds back (R130). -/
def ScratchFits (s : State) (c : Cur) (act : List ℕ) (n : ℕ) (off : Thread → ℕ) : Prop :=
  ∀ l ∈ act, off (s.thread c.ti c.gi l) % n = 0 ∧ off (s.thread c.ti c.gi l) + n ≤ (s.team c.ti).scr * 2 ^ 18 ∧ s.acqOpen c.ti c.gi l = false

section
variable {act : List ℕ} {n : ℕ} {off : Thread → ℕ} (h : ScratchFits s c act n off)
include h

theorem ScratchFits.check : scratchCheck s c n (laneAddrs s c act off) = none :=
  scratchCheck_pass (by simpa [laneAddrs] using fun l hl => (h l hl).1) (by simpa [laneAddrs, Team.carve] using fun l hl => (h l hl).2.1)

theorem ScratchFits.free : (act.filter fun l => s.acqOpen c.ti c.gi l) = [] := List.filter_eq_nil_iff.2 fun l hl => by simp [(h l hl).2.2]
end

/-- A load that passes its checks and waits for nothing is performed at issue. -/
theorem exec_lds (hr : Ready s c g (regRegs w.w d ++ srcRegs 32 a)) (h : ScratchFits s c (activeLanes s c g) w.bytes fun t => so t a o)
    (hloads : (s.group c.ti c.gi).loads < 63) (hpark : s.parkUsed (s.coreOf c.ti c.gi) < Config.parkEntries) :
    exec (.lds g w d a o) s = .next (afterLanes s c g fun _ t => t.setVW w.w d.toNat (loadedBy w (bytesNat
      (scratchBytes ((s.team c.ti).scratch (s.group c.ti c.gi).pcore) (so t a o) w.bytes)))) := by
  rw [show exec (.lds g w d a o) s = execLds g w d a o s from rfl, execLds, ordinary_issues _ hr]
  simp only [h.check, h.free, decide_eq_false (Nat.not_le.2 hloads), decide_eq_false (Nat.not_le.2 hpark), loadedValue_eq, Bool.or_self,
    Bool.false_eq_true, if_false, List.isEmpty_nil, Bool.not_true]
  rfl

/-! ### `sts` -/

/-- The state after the stores of the active lanes, before they go on. -/
def State.afterSts (s : State) (c : Cur) (w : MemW) (a : Src) (o : Off) (v : Src) (act : List ℕ) : State :=
  s.scratchWrites c.ti (s.group c.ti c.gi).pcore (fun l => so (s.thread c.ti c.gi l) a o)
    (fun l => natBytes w.bytes (operand (s.thread c.ti c.gi l) w.w v).toNat) act

/-- A store that passes its checks and waits for nothing is performed at issue. -/
theorem exec_sts (hr : Ready s c g (srcRegs 32 a ++ srcRegs w.w v)) (h : ScratchFits s c (activeLanes s c g) w.bytes fun t => so t a o) :
    exec (.sts g w a o v) s = .next (advance (s.afterSts c w a o v (activeLanes s c g)) c c.lanes) := by
  rw [show exec (.sts g w a o v) s = execSts g w a o v s from rfl, execSts, ordinary_issues _ hr]
  simp only [h.check, h.free, List.isEmpty_nil, Bool.not_true, Bool.false_eq_true, if_false]
  rfl

/-- The scratchpad of the issuing core after the stores of lanes that are there. -/
theorem scratch_advance_afterSts (hhere : Here s c) :
    let t := advance (s.afterSts c w a o v (activeLanes s c g)) c c.lanes
    (t.team c.ti).scratch (t.group c.ti c.gi).pcore = (activeLanes s c g).foldl (fun m l =>
      scratchPut m (so (s.thread c.ti c.gi l) a o) (natBytes w.bytes (operand (s.thread c.ti c.gi l) w.w v).toNat))
      ((s.team c.ti).scratch (s.group c.ti c.gi).pcore) := by
  intro t
  have hpcore : (t.group c.ti c.gi).pcore = (s.group c.ti c.gi).pcore :=
    (State.advance_group Group.pcore (fun _ _ _ => rfl) _ c c.lanes).trans (congrArg Group.pcore (State.group_scratchWrites ..))
  have hteam : (t.team c.ti).scratch (s.group c.ti c.gi).pcore = ((s.afterSts c w a o v (activeLanes s c g)).team c.ti).scratch (s.group c.ti c.gi).pcore :=
    State.team_field_modTeam (fun u => u.scratch (s.group c.ti c.gi).pcore) (fun _ => by rfl) _ c.ti c.ti
  rw [hpcore, hteam, State.afterSts, State.scratch_scratchWrites]
  exact fun l hl => State.team_lt (State.group_lt (hhere l (List.mem_of_mem_filter hl)))
end

/-- Settles O22: `lds` reads the bytes of each lane and `sts` writes them lane by lane, in ascending order, so that the last lane that covers a byte decides it;
what does not fit has failed its checks. -/
theorem scratchpadResults : Obligations.ScratchpadResults := by
  unfold Obligations.ScratchpadResults
  intro g w d a o v off n fits byte value loaded beyond
  refine ⟨?_, ?_, ?_⟩
  · intro s c hr ⟨hfits, hloads, hpark⟩
    rw [exec_lds hr hfits hloads hpark, afterLanes]
    refine congrArg (fun u => Host.Outcome.next (advance u c c.lanes)) (State.modLanes_congr fun l _ => ?_)
    rw [scratchBytes, addrs, List.map_map]
    rfl
  · intro s c hr hhere hfits
    refine ⟨_, exec_sts hr hfits, ?_, ?_, fun ti gi l => ?_, fun ti hti => ?_, fun i => ?_⟩
    · rw [State.advance_mem, State.afterSts, State.scratchWrites_mem]
    · rw [State.advance_cache, State.afterSts, State.scratchWrites_cache]
    · rw [(State.advance_regs ..).1, State.thread, State.afterSts, State.group_scratchWrites]
      rfl
    · exact (State.team_modTeam_ne _ _ hti).trans (State.team_scratchWrites_ne s _ hti)
    · have hlen (l : ℕ) := length_natBytes w.bytes (operand (s.thread c.ti c.gi l) w.w v).toNat
      simp only [byte, scratch_advance_afterSts hhere]
      refine ⟨fun hout => get_foldl_scratchPut_outside hlen hout _, fun p l q hact hlo hhi hq => ?_⟩
      rw [hact]
      exact (get_foldl_scratchPut_last hlen ⟨hlo, hhi⟩ hq _).trans (getD_natBytes (by omega) _)
  · intro s c
    exact ⟨fun p l q hr hact ha hp hl => (scratchChecks_lds g w d a o).beyond hr hact ha hp hl,
      fun p l q hr hact ha hp hl => (scratchChecks_sts g w a o v).beyond hr hact ha hp hl⟩

end Sys2Proof.Machine
end

section
/-! What the checks, the faults and the pages of an access leave of the state, 05 R100, 06 R123, 16 R357, R360, R363. -/

namespace Sys2Proof.Machine

/-! ### Views of a state -/

/-- The state without fault records and dies: all that raising a fault leaves. -/
def State.sansFaults (s : State) : State := { s with faults := [], dies := [] }

/-- The state that the checks and the faults of an access leave. -/
def State.atIssue (s : State) : State := s.sansMem.sansFaults

section
variable {s t : State}

theorem State.atIssue_of_sansMem (h : s.sansMem = t.sansMem) : s.atIssue = t.atIssue := congrArg State.sansFaults h

theorem State.atIssue_of_sansFaults (h : s.sansFaults = t.sansFaults) : s.atIssue = t.atIssue := congrArg State.sansMem h

/-- What is read from none of the parts left out is the same in states that agree on the rest. -/
theorem State.read_of_atIssue {α : Type} (v : State → α) (h : s.atIssue = t.atIssue) (hv : ∀ u : State, v u.atIssue = v u := by intro; rfl) : v s = v t := by
  rw [← hv s, h, hv]

theorem State.read_of_sansFaults {α : Type} (v : State → α) (h : s.sansFaults = t.sansFaults) (hv : ∀ u : State, v u.sansFaults = v u := by intro; rfl) :
    v s = v t := by
  rw [← hv s, h, hv]
end

/-! ### Checks and faults -/

section
variable (s : State)

@[simp] theorem State.sansMem_translateAll (x : Acx) (acc : Acc) (vas : List ℕ) : (s.translateAll x acc vas).2.sansMem = s.sansMem := by
  induction vas generalizing s with
  | nil => rfl
  | cons va vas ih => exact (ih (s.translate x acc va).2).trans (s.sansMem_translate x acc va)

theorem State.length_translateAll (x : Acx) (acc : Acc) (vas : List ℕ) : (s.translateAll x acc vas).1.length = vas.length := by
  induction vas generalizing s with
  | nil => rfl
  | cons va vas ih => exact congrArg (· + 1) (ih (s.translate x acc va).2)

/-- Checks that pass give each lane what its address translates to. -/
theorem memChecks_pass {s u : State} {x : Acx} {acc : Acc} {align : ℕ} {las : List (ℕ × ℕ)} {ps : List (ℕ × ℕ × Tr)}
    (h : memChecks s x acc align las = .pass ps u) : ps.map (fun p => (p.1, p.2.1)) = las ∧ u.sansMem = s.sansMem := by
  rw [memChecks] at h
  split at h
  · cases h
  · dsimp only at h
    split at h
    · cases h
    · split at h <;> cases h
      refine ⟨?_, s.sansMem_translateAll x acc _⟩
      rw [List.map_map]
      exact List.map_fst_zip (by rw [State.length_translateAll, List.length_map])

@[simp] theorem State.sansFaults_raiseFault (r : FaultRec) : (s.raiseFault r).2.sansFaults = s.sansFaults := by
  simp only [State.raiseFault]
  split <;> rfl

@[simp] theorem State.sansFaults_pageFaults (ti gi cause kind : ℕ) (acc : Acc) (las : List (ℕ × ℕ)) :
    (pageFaults s ti gi cause kind acc las).2.sansFaults = s.sansFaults := by
  refine foldl_keeps (fun r : List (ℕ × ℕ) × State => r.2.sansFaults) (fun r page => ?_) _ ([], s)
  dsimp only
  split
  · rfl
  · exact State.sansFaults_raiseFault ..

@[simp] theorem State.sansMem_passRdc (core line : ℕ) (red : Bool) : (s.passRdc core line red).sansMem = s.sansMem := by
  simp only [State.passRdc]
  split <;> rfl

/-- Every entry that translates an address is in the TLBs: where all have set their dirty bits, a write marks nothing. -/
theorem State.markDirty_of_dirty {s : State} (h : ∀ e ∈ s.tlb, e.dirtySet = true) (x : Acx) (va : ℕ) : s.markDirty x va = s := by
  have hmem {asid : ℕ} {e : TlbEntry} (he : s.tlbHit x.die x.core asid va = some e) : e ∈ s.tlb := by
    simp only [State.tlbHit] at he
    split at he
    · next hit =>
      cases he
      split at hit
      · exact List.mem_of_find?_eq_some hit
      · cases hit
    · exact List.mem_of_find?_eq_some he
  rw [State.markDirty]
  split
  · rfl
  · next e he => rw [if_pos (h e (hmem he))]

/-- The copies that a store leaves of the line it passes by (05 R100). -/
theorem State.mem_passRdc {core line : ℕ} {red : Bool} {e : CLine} : e ∈ (s.passRdc core line red).cache ↔ e ∈ s.cache ∧ ¬PassesBy s core line red e := by
  rw [State.passRdc]
  split
  · next h => simp [PassesBy, h]
  · next h =>
    have hpass : (e.line == line && (e.lvl == .rdc (dieOfCore core) || (e.lvl.onDie (dieOfCore core) && (red || e.lvl != .l1 core)))) = true ↔
        PassesBy s core line red e := by simp [PassesBy, h]
    rw [List.mem_filter, Bool.not_eq_true', ← Bool.not_eq_true, hpass]

/-- What a store leaves of a state when it passes by a line: all but copies. -/
theorem State.passRdc_eq (core line : ℕ) (red : Bool) : s.passRdc core line red = { s with cache := (s.passRdc core line red).cache } := by
  rw [State.passRdc]
  split <;> rfl
end

end Sys2Proof.Machine
end

section
/-! What loads and atomics leave at issue, 06 R122, R126, R129, R132, R134. -/

namespace Sys2Proof.Machine

section
variable {s s' : State} {c : Cur} {act : List ℕ} {ps : List (ℕ × ℕ × Tr)}

/-- The part of one lane of a load, parked where its page is missing or read-duplicated: `f5` and `fd` are the faults of such lanes. -/
def loadPart (x y : Thread → DWord) (s : State) (c : Cur) (f5 fd : List (ℕ × ℕ)) (p : ℕ × ℕ × Tr) : LoadPart :=
  let base : LoadPart := ⟨p.1, p.2.1, 0, 0, 0, x (s.thread c.ti c.gi p.1), y (s.thread c.ti c.gi p.1), .wait⟩
  match p.2.2 with
  | .ok pa key gen => { base with pa := pa, key := key, gen := gen }
  | .dup => { base with st := .parked (fidOf fd p.1) 5 }
  | _ => { base with st := .parked (fidOf f5 p.1) 0 }

theorem loadPart_lane (x y : Thread → DWord) (s : State) (c : Cur) (f5 fd : List (ℕ × ℕ)) (p : ℕ × ℕ × Tr) :
    let q := loadPart x y s c f5 fd p
    (q.lane, q.va, q.x, q.y) = (p.1, p.2.1, x (s.thread c.ti c.gi p.1), y (s.thread c.ti c.gi p.1)) := by
  obtain ⟨l, va, tr⟩ := p
  cases tr <;> rfl

/-- A new load: it is outstanding, its destinations are pending, and the group counts it. -/
def State.addLoad (s : State) (c : Cur) (act dst : List ℕ) (ld : Load) : State :=
  (State.modLanes { s with nextId := s.nextId + 1, loads := s.loads ++ [ld] } c.ti c.gi act fun _ t => t.addPend dst ld.id).modGroup c.ti c.gi
    fun g => { g with loads := g.loads + 1 }

theorem State.thread_addLoad_mem {dst : List ℕ} (ld : Load) {l : ℕ} (h : l ∈ act) (hl : l < (s.group c.ti c.gi).lanes.length) :
    (s.addLoad c act dst ld).thread c.ti c.gi l = (s.thread c.ti c.gi l).addPend dst ld.id :=
  (State.thread_modGroup_of_lanes _ _ _ (by exact fun _ => rfl) ..).trans (State.thread_modLanes_mem _ h hl)

@[simp] theorem State.lanes_length_addLoad (s : State) (c : Cur) (act dst : List ℕ) (ld : Load) :
    ((s.addLoad c act dst ld).group c.ti c.gi).lanes.length = (s.group c.ti c.gi).lanes.length :=
  (State.group_field_modGroup (fun g => g.lanes.length) _ (by rfl) ..).trans (State.lanes_length_modLanes ..)

theorem State.loads_addLoad {dst : List ℕ} (ld : Load) {l : ℕ} (hl : l < (s.group c.ti c.gi).lanes.length) :
    ((s.addLoad c act dst ld).group c.ti c.gi).loads = (s.group c.ti c.gi).loads + 1 := by
  rw [State.addLoad, State.group_modGroup_self _ (State.group_lt (l := l) (by rwa [State.lanes_length_modLanes]))]
  exact congrArg (· + 1) (State.group_field_modGroup Group.loads _ (by rfl) ..)

theorem State.addLoad_regs (s : State) (c : Cur) (act dst : List ℕ) (ld : Load) (ti gi l : ℕ) :
    ((s.addLoad c act dst ld).thread ti gi l).regs = (s.thread ti gi l).regs ∧ ((s.addLoad c act dst ld).thread ti gi l).lr = (s.thread ti gi l).lr := by
  rw [State.addLoad, State.thread_modGroup_of_lanes _ _ _ (by exact fun _ => rfl)]
  exact ⟨State.thread_field_modLanes Thread.regs (fun _ _ => by rfl) .., State.thread_field_modLanes Thread.lr (fun _ _ => by rfl) ..⟩

/-- The pages that an atomic writes, marked before its first write. -/
def State.ownPages (s : State) (x : Acx) (c : Cur) (acc : Acc) (ps : List (ℕ × ℕ × Tr)) : State :=
  if acc == .atom then ps.foldl (fun s p => match p.2.2 with
    | .ok pa _ _ => (s.markDirty x p.2.1).passRdc (s.coreOf c.ti c.gi) (lineOf pa) true
    | _ => s) s
  else s

@[simp] theorem State.sansMem_ownPages (s : State) (x : Acx) (c : Cur) (acc : Acc) (ps : List (ℕ × ℕ × Tr)) :
    (s.ownPages x c acc ps).sansMem = s.sansMem := by
  rw [State.ownPages]
  split
  · refine foldl_keeps State.sansMem (fun u p => ?_) ps s
    split
    · exact (State.sansMem_passRdc ..).trans (State.sansMem_markDirty ..)
    · rfl
  · rfl

/-- What the lanes of checks that pass come to, from the lanes and their addresses. -/
theorem map_memChecks_pass {β : Type} (f : ℕ × ℕ → β) {x : Acx} {acc : Acc} {align : ℕ} {addr : Thread → ℕ}
    (hpass : memChecks s x acc align (laneAddrs s c act addr) = .pass ps s') :
    ps.map (fun p => f (p.1, p.2.1)) = act.map fun l => f (l, addr (s.thread c.ti c.gi l)) := by
  have h := congrArg (List.map f) (memChecks_pass hpass).1
  rwa [laneAddrs, List.map_map, List.map_map] at h

/-- A load-class word whose checks pass and whose lanes wait for nothing: one new load, in a state that differs by the faults of its lanes and, of an atomic,
by its pages. -/
theorem issueLoad_passes {op : LoadOp} {n align : ℕ} {acc : Acc} {d wd : ℕ} {addr : Thread → ℕ} {x y : Thread → DWord} (hact : act ≠ [])
    (hpass : memChecks s (s.acx c.ti c.gi) acc align (laneAddrs s c act addr) = .pass ps s') (hfree : loadWaits s c act = []) :
    ∃ (u : State) (f5 fd : List (ℕ × ℕ)) (level : Level) (sent : ℕ), u.atIssue = s.atIssue ∧ (acc ≠ .atom → u.sansFaults = s'.sansFaults) ∧
      issueLoad op n align acc d wd addr x y c act s = .done (u.addLoad c act (if wd = 64 then [d, d + 1] else [d])
        ⟨u.nextId, u.nextId, c.ti, c.gi, s.coreOf c.ti c.gi, level, sent, op, n, c.pc, ps.map (loadPart x y s c f5 fd)⟩) := by
  let r5 := pageFaults s' c.ti c.gi 0x05 0 acc (missing ps)
  let rd := pageFaults r5.2 c.ti c.gi 0x05 5 acc (duplicated ps)
  have hfaults : rd.2.sansFaults = s'.sansFaults := (State.sansFaults_pageFaults ..).trans (State.sansFaults_pageFaults ..)
  refine ⟨rd.2.ownPages (s.acx c.ti c.gi) c acc ps, r5.1, rd.1, (s.acx c.ti c.gi).level, s.cycOf c.ti c.gi, ?_, fun hacc => ?_, ?_⟩
  · exact (State.atIssue_of_sansMem (State.sansMem_ownPages ..)).trans ((State.atIssue_of_sansFaults hfaults).trans
      (State.atIssue_of_sansMem (memChecks_pass hpass).2))
  · rwa [State.ownPages, if_neg (by simpa using hacc)]
  · simp only [issueLoad, List.isEmpty_eq_false_iff.2 hact, hpass, hfree, Bool.false_eq_true, if_false, List.isEmpty_nil, Bool.not_true]
    rfl
end

/-- A word that is issued as a load leaves what `LoadIssues` says. -/
theorem loadIssues_of_issueLoad {i : Instr} {g : Guard} {regs : List ℕ} {op : LoadOp} {n align : ℕ} {acc : Acc} {d wd : ℕ} {addr : Thread → ℕ}
    {x y : Thread → DWord} (h : ∀ s, exec i s = ordinary .all g regs (issueLoad op n align acc d wd addr x y) s) :
    LoadIssues i g regs op n align acc (if wd = 64 then [d, d + 1] else [d]) addr x y := by
  intro s c ps s' hr hhere hne hpass hfree
  obtain ⟨u, f5, fd, level, sent, hu, hmem, hissue⟩ := issueLoad_passes (op := op) (n := n) (d := d) (wd := wd) (x := x) (y := y) hne hpass hfree
  have hexec := (h s).trans (ordinary_issues _ hr)
  rw [hissue, State.read_of_atIssue State.nextId hu, finish] at hexec
  have hgroup := State.read_of_atIssue (fun v => v.group c.ti c.gi) hu
  have hthread (ti gi l : ℕ) : u.thread ti gi l = s.thread ti gi l := State.read_of_atIssue (fun v => v.thread ti gi l) hu
  have hlen {l : ℕ} (hl : l ∈ activeLanes s c g) : l < (u.group c.ti c.gi).lanes.length := by
    rw [hgroup]
    exact hhere l (List.mem_of_mem_filter hl)
  obtain ⟨l0, hl0⟩ := List.exists_mem_of_ne_nil _ hne
  refine ⟨_, _, hexec, congrArg (· ++ [_]) (State.read_of_atIssue State.loads hu), (State.read_of_atIssue State.stores hu :),
    rfl, rfl, rfl, rfl, rfl, rfl, rfl, ?_, fun l va pa key gen hp => ?_, fun l va hp => ?_, fun l hl => ?_, fun ti gi l => ?_, ?_, fun hacc => ?_⟩
  · exact List.map_map.trans ((List.map_congr_left fun p _ => loadPart_lane x y s c f5 fd p).trans
      (map_memChecks_pass (fun la => (la.1, la.2, x (s.thread c.ti c.gi la.1), y (s.thread c.ti c.gi la.1))) hpass))
  · exact ⟨_, List.mem_map_of_mem hp, rfl, rfl, rfl, rfl, rfl, rfl⟩
  · exact ⟨_, List.mem_map_of_mem hp, rfl, rfl, rfl⟩
  · rw [thread_advance_mem (List.mem_of_mem_filter hl) (by simpa using hlen hl), State.thread_addLoad_mem _ hl (hlen hl), hthread]
  · rw [(State.advance_regs ..).1, (State.advance_regs ..).2, (State.addLoad_regs ..).1, (State.addLoad_regs ..).2, hthread]
    exact ⟨rfl, rfl⟩
  · rw [State.advance_group Group.loads (fun _ _ _ => rfl), State.loads_addLoad _ (hlen hl0), hgroup]
  · exact ⟨(State.read_of_sansFaults State.mem (hmem hacc) :), (State.read_of_sansFaults State.memTag (hmem hacc) :),
      (State.read_of_sansFaults State.cache (hmem hacc) :)⟩

end Sys2Proof.Machine
end

section
/-! What stores and reductions leave at issue, 05 R100, 06 R122, R126, R129, R130, R132. -/

namespace Sys2Proof.Machine

/-! ### What a release publishes -/

/-- A search that sees nothing of an update. -/
theorem findSome?_filter_updIf {α β : Type} {p q : α → Bool} {f : α → α} {v : α → Option β} (hv : ∀ x, v (f x) = v x) (hq : ∀ x, q (f x) = q x)
    (l : List α) : ((updIf l p f).filter q).findSome? v = (l.filter q).findSome? v := by
  have hq' : (q ∘ fun x => if p x then f x else x) = q := funext fun x => by simp only [Function.comp_apply]; split <;> simp [hq]
  have hv' : (v ∘ fun x => if p x then f x else x) = v := funext fun x => by simp only [Function.comp_apply]; split <;> simp [hv]
  rw [updIf, List.filter_map, List.findSome?_map, hq', hv']

section
variable (s : State) (c : Cur) (act : List ℕ) (op : StOp)

/-- Stores that are published keep their parts, and so the entries of the side log. -/
theorem State.logOnPage_publish (ti gi : ℕ) (lanes : List ℕ) (core asid va : ℕ) :
    (s.publish ti gi lanes).logOnPage core asid va = s.logOnPage core asid va :=
  findSome?_filter_updIf (fun _ => by rfl) (fun _ => by rfl) s.stores

/-- What is read from anything but the stores. -/
theorem State.beforeStore_other {α : Type} (v : State → α) (hv : ∀ stores, v { s with stores := stores } = v s) : v (s.beforeStore c act op) = v s := by
  rw [State.beforeStore]
  split
  · exact hv _
  · rfl

/-- The same in a state that has seen faults and changes of the memory system besides. -/
theorem State.read_of_beforeStore {s w : State} {c : Cur} {act : List ℕ} {op : StOp} {α : Type} (v : State → α)
    (h : w.atIssue = (s.beforeStore c act op).atIssue) (hv : ∀ u : State, v { u.atIssue with stores := [] } = v u := by intro; rfl) : v w = v s := by
  rw [← hv w, h, ← hv s]
  exact congrArg v (s.beforeStore_other c act op (fun u => { u.atIssue with stores := [] }) fun _ => rfl)

theorem State.logOnPage_beforeStore (core asid va : ℕ) : (s.beforeStore c act op).logOnPage core asid va = s.logOnPage core asid va := by
  rw [State.beforeStore]
  split
  · exact s.logOnPage_publish ..
  · rfl

/-- What is published depends on nothing of the memory system. -/
theorem State.sansMem_beforeStore {s t : State} (h : t.sansMem = s.sansMem) : (t.beforeStore c act op).sansMem = (s.beforeStore c act op).sansMem := by
  rw [State.beforeStore, State.beforeStore]
  split
  · have hpub := congrArg (fun u : State => u.publish c.ti c.gi act) h
    exact hpub
  · exact h
end

/-! ### The lines that stores pass by -/

section
variable {s : State} {core asid : ℕ} {x : Acx} {red : Bool}

/-- One lane's store passes by its line, unless it goes to the side log; its page is marked first. -/
def State.passPart (core asid : ℕ) (x : Acx) (red : Bool) (s : State) (p : ℕ × ℕ × Tr) : State :=
  match p.2.2 with
  | .ok pa _ _ =>
    let s := s.markDirty x p.2.1
    if (s.logOnPage core asid p.2.1).isSome then s else s.passRdc core (lineOf pa) red
  | _ => s

@[simp] theorem State.sansMem_passPart (s : State) (p : ℕ × ℕ × Tr) : (s.passPart core asid x red p).sansMem = s.sansMem := by
  rw [State.passPart]
  split
  · dsimp only
    split
    · exact State.sansMem_markDirty ..
    · exact (State.sansMem_passRdc ..).trans (State.sansMem_markDirty ..)
  · rfl

/-- Whether the store of a lane leaves no copy `e`. -/
def State.losesCopy (s : State) (core asid : ℕ) (red : Bool) (p : ℕ × ℕ × Tr) (e : CLine) : Prop :=
  ∃ pa key gen, p.2.2 = .ok pa key gen ∧ s.logOnPage core asid p.2.1 = none ∧ PassesBy s core (lineOf pa) red e

/-- The copies that the lanes of a store leave, from the side log and the homes of lines alone. -/
theorem State.not_losesCopy_iff {t u : State} (hlog : ∀ va, s.logOnPage core asid va = t.logOnPage core asid va) (hhome : ∀ pa, s.homeDie pa = u.homeDie pa)
    {ps : List (ℕ × ℕ × Tr)} {e : CLine} : (∀ p ∈ ps, ¬s.losesCopy core asid red p e) ↔
      ¬∃ l va pa key gen, (l, va, Tr.ok pa key gen) ∈ ps ∧ t.logOnPage core asid va = none ∧ PassesBy u core (lineOf pa) red e := by
  simp only [State.losesCopy, PassesBy, hlog, hhome]
  constructor
  · rintro hall ⟨l, va, pa, key, gen, hp, hrest⟩
    exact hall _ hp ⟨pa, key, gen, rfl, hrest⟩
  · rintro hnone ⟨l, va, tr⟩ hp ⟨pa, key, gen, rfl, hrest⟩
    exact hnone ⟨l, va, pa, key, gen, hp, hrest⟩

variable (h : ∀ e ∈ s.tlb, e.dirtySet = true)
include h

/-- Where no dirty bit is to be set, only copies change. -/
theorem State.passPart_of_dirty (p : ℕ × ℕ × Tr) : s.passPart core asid x red p = { s with cache := (s.passPart core asid x red p).cache } ∧
    ∀ e, e ∈ (s.passPart core asid x red p).cache ↔ e ∈ s.cache ∧ ¬s.losesCopy core asid red p e := by
  obtain ⟨l, va, tr⟩ := p
  cases tr with
  | ok pa key gen =>
    simp only [State.passPart, State.markDirty_of_dirty h]
    split
    · next hlog =>
      refine ⟨rfl, fun e => ⟨fun he => ⟨he, ?_⟩, And.left⟩⟩
      rintro ⟨pa', key', gen', -, hnone, -⟩
      rw [hnone] at hlog
      cases hlog
    · next hlog =>
      refine ⟨s.passRdc_eq .., fun e => (s.mem_passRdc).trans (and_congr_right fun _ => not_congr ⟨fun hp => ?_, ?_⟩)⟩
      · exact ⟨pa, key, gen, rfl, Option.not_isSome_iff_eq_none.1 hlog, hp⟩
      · rintro ⟨pa', key', gen', heq, -, hp⟩
        cases heq
        exact hp
  | miss | dup | bad | later =>
    refine ⟨rfl, fun e => ⟨fun he => ⟨he, ?_⟩, And.left⟩⟩
    rintro ⟨pa', key', gen', heq, -⟩
    cases heq

theorem State.foldl_passPart_of_dirty (ps : List (ℕ × ℕ × Tr)) : ∃ cache, ps.foldl (State.passPart core asid x red) s = { s with cache := cache } ∧
    ∀ e, e ∈ cache ↔ e ∈ s.cache ∧ ∀ p ∈ ps, ¬s.losesCopy core asid red p e := by
  induction ps generalizing s with
  | nil => exact ⟨s.cache, rfl, by simp⟩
  | cons p ps ih =>
    obtain ⟨heq, hmem⟩ := State.passPart_of_dirty (core := core) (asid := asid) (x := x) (red := red) h p
    generalize (s.passPart core asid x red p).cache = kept at heq hmem
    obtain ⟨cache, hfold, hcache⟩ := ih (s := { s with cache := kept }) h
    refine ⟨cache, by rw [List.foldl_cons, heq, hfold], fun e => (hcache e).trans ?_⟩
    rw [List.forall_mem_cons, ← and_assoc, ← hmem]
    rfl
end

/-! ### The parts of a store -/

section
variable {op : StOp} {n : ℕ} {data : Thread → DWord} {c : Cur} {s0 s : State} {core asid : ℕ} {fids : List (ℕ × ℕ)} {under : Bool} {id : ℕ}

/-- The part of one lane of a store: `s0` holds the lane's data, `s` the stores before it, and `fids` the faults of lanes whose pages are missing. -/
def storePart (n : ℕ) (data : Thread → DWord) (c : Cur) (s0 s : State) (core asid : ℕ) (fids : List (ℕ × ℕ)) (under : Bool) (id : ℕ)
    (p : ℕ × ℕ × Tr) : StPart :=
  let base : StPart := ⟨p.1, p.2.1, 0, 0, 0, data (s0.thread c.ti c.gi p.1), 0, 0, 0, false, ((id * 64 + p.1 : ℕ), 0), false,
    (logState s core asid fids p (id * 64 + p.1)).getD .wait⟩
  match p.2.2 with
  | .ok pa key gen => { base with pa := pa, key := key, gen := gen, place := placeOf s core under n id p.1 pa }
  | _ => { base with untranslated := true }

theorem storePart_lane (p : ℕ × ℕ × Tr) : let q := storePart n data c s0 s core asid fids under id p
    (q.lane, q.va, q.data) = (p.1, p.2.1, data (s0.thread c.ti c.gi p.1)) := by
  obtain ⟨l, va, tr⟩ := p
  cases tr <;> rfl

/-- A lane whose page is there stores to the L1, unless the side log has an entry on its page. -/
theorem storePart_ok {l va pa key gen : ℕ} : let q := storePart n data c s0 s core asid fids under id (l, va, .ok pa key gen)
    (s.logOnPage core asid va = none → q.st = .wait) ∧ (s.logOnPage core asid va ≠ none → q.inLog = true) := by
  cases hlog : s.logOnPage core asid va with
  | none => exact ⟨fun _ => by simp only [storePart, logState, hlog]; rfl, fun hne => absurd rfl hne⟩
  | some e =>
    refine ⟨nofun, fun _ => ?_⟩
    simp only [storePart, logState, hlog, StPart.inLog]
    cases e.st <;> rfl

/-- A lane whose page is missing stores to the side log. -/
theorem storePart_miss {l va : ℕ} : (storePart n data c s0 s core asid fids under id (l, va, .miss)).inLog = true := rfl
end

/-! ### The issue -/

section
variable {s s' : State} {c : Cur} {act : List ℕ} {ps : List (ℕ × ℕ × Tr)} {op : StOp} {sc : Scope} {n : ℕ} {data : Thread → DWord}

/-- Whether a store goes under what stands at the locations of its lanes: all of them or none (log 17). -/
def goesUnder (op : StOp) (n : ℕ) (ps : List (ℕ × ℕ × Tr)) (c : Cur) (core : ℕ) (s : State) (id : ℕ) : Bool :=
  op == .store && Config.storeUnder id && ps.all fun p => match p.2.2 with
    | .ok pa key _ => s.mayUnder core c.ti c.gi n p.1 key pa
    | _ => true

/-- The issue of a store adds one, in a state that differs by the faults of its lanes, its pages and the copies of its lines. -/
theorem enterStore_eq (op : StOp) (sc : Scope) (n : ℕ) (data : Thread → DWord) (ps : List (ℕ × ℕ × Tr)) (c : Cur) (s0 s : State) :
    ∃ (u : State) (fids : List (ℕ × ℕ)) (under : ℕ → Bool), u.sansFaults = s.sansFaults ∧ enterStore op sc n data ps c s0 s =
      addStore (ps.foldl (State.passPart (s.coreOf c.ti c.gi) (s.asidOf c.ti) (s.acx c.ti c.gi) op.isRed) u) c op sc n fun id =>
        ps.map (storePart n data c s0 u (s.coreOf c.ti c.gi) (s.asidOf c.ti) fids (under id) id) := by
  let r5 := pageFaults s c.ti c.gi 0x05 1 .store (missing ps)
  let rd := pageFaults r5.2 c.ti c.gi 0x05 5 .store (duplicated ps)
  exact ⟨rd.2, r5.1 ++ rd.1, goesUnder op n ps c (s.coreOf c.ti c.gi) rd.2, (State.sansFaults_pageFaults ..).trans (State.sansFaults_pageFaults ..), rfl⟩

/-- What a store that was issued in `s` leaves of memory and of the copies of lines, where no dirty bit is to be set: `s'` is the state after its checks. -/
def LeavesMemory (s s' w : State) (c : Cur) (red : Bool) (ps : List (ℕ × ℕ × Tr)) : Prop :=
  (∀ e ∈ s'.tlb, e.dirtySet = true) → w.mem = s'.mem ∧ w.memTag = s'.memTag ∧ ∀ e, e ∈ w.cache ↔ e ∈ s'.cache ∧
    ¬∃ l va pa key gen, (l, va, Tr.ok pa key gen) ∈ ps ∧ s.logOnPage (s.coreOf c.ti c.gi) (s.asidOf c.ti) va = none ∧
      PassesBy s' (s.coreOf c.ti c.gi) (lineOf pa) red e

theorem leavesMemory_foldl_passPart {u : State} (hfaults : u.sansFaults = (s'.beforeStore c act op).sansFaults)
    (hu : u.atIssue = (s.beforeStore c act op).atIssue) (x : Acx) (red : Bool) (ps : List (ℕ × ℕ × Tr)) :
    LeavesMemory s s' (ps.foldl (State.passPart (s.coreOf c.ti c.gi) (s.asidOf c.ti) x red) u) c red ps := by
  intro hdirty
  have hread {α : Type} (v : State → α) (hv : ∀ w : State, v { w.sansFaults with stores := [] } = v w) : v u = v s' := by
    rw [← hv u, hfaults, ← hv s']
    exact congrArg v (s'.beforeStore_other c act op (fun w => { w.sansFaults with stores := [] }) fun _ => rfl)
  have htlb : ∀ e ∈ u.tlb, e.dirtySet = true := by rwa [hread State.tlb fun _ => rfl]
  obtain ⟨cache, hfold, hcache⟩ := State.foldl_passPart_of_dirty htlb ps
  rw [hfold]
  refine ⟨hread State.mem fun _ => rfl, hread State.memTag fun _ => rfl, fun e => (hcache e).trans ?_⟩
  rw [State.not_losesCopy_iff (fun va => (State.read_of_atIssue (fun v => v.logOnPage _ _ va) hu).trans (State.logOnPage_beforeStore ..))
    fun pa => hread (fun v => v.homeDie pa) fun _ => rfl, hread State.cache fun _ => rfl]

/-- A store-class word whose checks pass, whose lanes wait for nothing and, of a release, have their earlier accesses behind them. -/
theorem issueStoreAs_passes {acc : Acc} {addr : Thread → ℕ} (hact : act ≠ [])
    (hpass : memChecks s (s.acx c.ti c.gi) acc n (laneAddrs s c act addr) = .pass ps s') (hfree : storeWaits s c n (logNeed s c ps) ps = [])
    (hrel : op = .rel → ∀ l ∈ act, s.releaseOk c.ti c.gi l sc s.nextId = true) :
    issueStoreAs acc op sc n addr data c act s = .done (enterStore op sc n data ps c s (s'.beforeStore c act op)) := by
  have hgo : (op == .rel && !(act.all fun l => s.releaseOk c.ti c.gi l sc s.nextId)) = false := by
    rw [Bool.and_eq_false_iff, beq_eq_false_iff_ne, Bool.not_eq_false', List.all_eq_true, ← imp_iff_not_or]
    exact hrel
  simp only [issueStoreAs, List.isEmpty_eq_false_iff.2 hact, hpass, hfree, hgo, Bool.false_eq_true, if_false, List.isEmpty_nil, Bool.not_true, Bool.true_and,
    beq_iff_eq]
  rfl

/-- Such a word adds one store: `w` is the state that it is added to, `u` the one whose stores its parts come after. -/
theorem issueStoreAs_adds {acc : Acc} {addr : Thread → ℕ} (hact : act ≠ [])
    (hpass : memChecks s (s.acx c.ti c.gi) acc n (laneAddrs s c act addr) = .pass ps s') (hfree : storeWaits s c n (logNeed s c ps) ps = [])
    (hrel : op = .rel → ∀ l ∈ act, s.releaseOk c.ti c.gi l sc s.nextId = true) :
    ∃ (u w : State) (fids : List (ℕ × ℕ)) (under : ℕ → Bool), u.atIssue = (s.beforeStore c act op).atIssue ∧ w.atIssue = (s.beforeStore c act op).atIssue ∧
      LeavesMemory s s' w c op.isRed ps ∧ issueStoreAs acc op sc n addr data c act s = .done (addStore w c op sc n fun id =>
        ps.map (storePart n data c s u (s.coreOf c.ti c.gi) (s.asidOf c.ti) fids (under id) id)) := by
  obtain ⟨u, fids, under, hfaults, henter⟩ := enterStore_eq op sc n data ps c s (s'.beforeStore c act op)
  have hbefore := State.atIssue_of_sansMem (State.sansMem_beforeStore c act op (memChecks_pass hpass).2)
  have hu := (State.atIssue_of_sansFaults hfaults).trans hbefore
  rw [State.read_of_beforeStore (fun v => v.coreOf c.ti c.gi) hbefore, State.read_of_beforeStore (fun v => v.asidOf c.ti) hbefore] at henter
  refine ⟨u, _, fids, under, hu, ?_, leavesMemory_foldl_passPart hfaults hu _ op.isRed ps, (issueStoreAs_passes hact hpass hfree hrel).trans
    (congrArg Res.done henter)⟩
  exact (State.atIssue_of_sansMem (foldl_keeps State.sansMem (fun v p => v.sansMem_passPart p) ps u)).trans hu

theorem State.thread_addStore (s : State) (c : Cur) (op : StOp) (sc : Scope) (n : ℕ) (parts : ℕ → List StPart) (ti gi l : ℕ) :
    (addStore s c op sc n parts).thread ti gi l = s.thread ti gi l := State.thread_modGroup_of_lanes _ _ _ (by exact fun _ => rfl) ..

theorem State.lanes_length_addStore (s : State) (c : Cur) (op : StOp) (sc : Scope) (n : ℕ) (parts : ℕ → List StPart) :
    ((addStore s c op sc n parts).group c.ti c.gi).lanes.length = (s.group c.ti c.gi).lanes.length :=
  State.group_field_modGroup (fun g => g.lanes.length) _ (by rfl) ..

theorem State.stores_group_addStore {parts : ℕ → List StPart} {l : ℕ} (hl : l < (s.group c.ti c.gi).lanes.length) :
    ((addStore s c op sc n parts).group c.ti c.gi).stores = (s.group c.ti c.gi).stores + 1 :=
  congrArg Group.stores (State.group_modGroup_self _ (State.group_lt hl))
end

/-- A word that is issued as a store leaves what `StoreIssues` says. -/
theorem storeIssues_of_issueStoreAs {i : Instr} {g : Guard} {regs : List ℕ} {op : StOp} {sc : Scope} {n : ℕ} {addr : Thread → ℕ} {data : Thread → DWord}
    {cond : State → Cur → List ℕ → Prop} (h : ∀ s, exec i s = ordinary .all g regs (issueStoreAs op.acc op sc n addr data) s)
    (hcond : op = .rel → ∀ s c act, cond s c act → ∀ l ∈ act, s.releaseOk c.ti c.gi l sc s.nextId = true) :
    StoreIssues i g regs op sc n addr data cond := by
  intro s c ps s' hr hhere hne hpass hfree hc
  obtain ⟨u, w, fids, under, hu, hw, hmem, hissue⟩ := issueStoreAs_adds (data := data) hne hpass hfree fun hop => hcond hop _ _ _ hc
  have hexec := (h s).trans (ordinary_issues _ hr)
  rw [hissue, finish] at hexec
  have hlog (va : ℕ) : u.logOnPage (s.coreOf c.ti c.gi) (s.asidOf c.ti) va = s.logOnPage (s.coreOf c.ti c.gi) (s.asidOf c.ti) va :=
    (State.read_of_atIssue (fun v => v.logOnPage _ _ va) hu).trans (State.logOnPage_beforeStore ..)
  have hthread (ti gi l : ℕ) : w.thread ti gi l = s.thread ti gi l := State.read_of_beforeStore (fun v => v.thread ti gi l) hw
  have hgroup := State.read_of_beforeStore (fun v => v.group c.ti c.gi) hw
  have hlen {l : ℕ} (hl : l ∈ activeLanes s c g) : l < (w.group c.ti c.gi).lanes.length := by
    rw [hgroup]
    exact hhere l (List.mem_of_mem_filter hl)
  obtain ⟨l0, hl0⟩ := List.exists_mem_of_ne_nil _ hne
  refine ⟨_, _, hexec, congrArg (· ++ [_]) (State.read_of_atIssue State.stores hw :), (State.read_of_beforeStore State.loads hw :), rfl, rfl, rfl, rfl, rfl,
    (State.read_of_beforeStore (fun v => v.coreOf c.ti c.gi) hw :), (State.read_of_beforeStore State.nextId hw :),
    ?_, fun l va pa key gen hp => ?_, fun l va hp => ?_, fun l hl => ?_, fun ti gi l => ?_, ?_, hmem⟩
  · exact List.map_map.trans ((List.map_congr_left fun p _ => storePart_lane p).trans
      (map_memChecks_pass (fun la => (la.1, la.2, data (s.thread c.ti c.gi la.1))) hpass))
  · obtain ⟨hwait, hinLog⟩ := storePart_ok
    exact ⟨_, List.mem_map_of_mem hp, rfl, rfl, rfl, rfl, rfl, fun hnone => hwait ((hlog va).trans hnone), fun hsome => hinLog ((hlog va).trans_ne hsome)⟩
  · exact ⟨_, List.mem_map_of_mem hp, rfl, rfl, storePart_miss⟩
  · rw [thread_advance_mem (List.mem_of_mem_filter hl) (by rw [State.lanes_length_addStore]; exact hlen hl), State.thread_addStore, hthread]
  · rw [(State.advance_regs ..).1, (State.advance_regs ..).2, State.thread_addStore, hthread]
    exact ⟨rfl, rfl⟩
  · rw [State.advance_group Group.stores (fun _ _ _ => rfl), State.stores_group_addStore (hlen hl0), hgroup]

/-- Settles O20: each of these words is issued by `issueLoad` or by `issueStoreAs`, and a release has waited for its thread's earlier accesses. -/
theorem loadsAndStoresIssue : Obligations.LoadsAndStoresIssue := by
  unfold Obligations.LoadsAndStoresIssue
  refine ⟨?_, ?_⟩
  · intro g sc w d a o op sg norm w64 b r k sx at' base wd zero cas
    have hsx : sx = (w == .s8 || w == .s16) := by cases w <;> rfl
    rw [hsx]
    exact ⟨loadIssues_of_issueLoad fun _ => rfl, loadIssues_of_issueLoad fun _ => rfl, loadIssues_of_issueLoad fun _ => rfl,
      loadIssues_of_issueLoad fun _ => rfl, loadIssues_of_issueLoad (wd := 32) fun _ => rfl⟩
  · intro g sc w a o v op sg w64 b at' base wd
    exact ⟨storeIssues_of_issueStoreAs (fun _ => rfl) nofun, storeIssues_of_issueStoreAs (fun _ => rfl) fun _ _ _ _ hrel => hrel,
      storeIssues_of_issueStoreAs (fun _ => rfl) nofun⟩

end Sys2Proof.Machine
end

section
/-! The words of copy records and of queue packets read back, 07 R142 to R156, 15 R333 to R337. -/

namespace Sys2Proof

/-! ### Parts of a word -/

/- The library states these rules for a word whose width is written as a sum; the words of records and packets are of width 64. -/
section
variable {v w start len : ℕ} (x : BitVec v) (y : BitVec w)

theorem extract_append_high (h : w ≤ start) : (x.append y).extractLsb' start len = x.extractLsb' (start - w) len :=
  BitVec.extractLsb'_append_eq_of_le h

theorem extract_append_low (h : start + len ≤ w) : (x.append y).extractLsb' start len = y.extractLsb' start len :=
  BitVec.extractLsb'_append_eq_of_add_le h

theorem getLsbD_append_high (h : w ≤ start) : (x.append y).getLsbD start = x.getLsbD (start - w) :=
  BitVec.getLsbD_append.trans (if_neg (Nat.not_lt.2 h))

theorem getLsbD_append_low (h : start < w) : (x.append y).getLsbD start = y.getLsbD start := BitVec.getLsbD_append.trans (if_pos h)
end

theorem getLsbD_ofBool_zero (b : Bool) : (BitVec.ofBool b).getLsbD 0 = b := by cases b <;> rfl

@[simp] theorem CondTest.ofCode_code (t : CondTest) : CondTest.ofCode t.code = t := by cases t <;> rfl
@[simp] theorem SigOp.ofCode_code (o : SigOp) : SigOp.ofCode o.code = o := by cases o <;> rfl

/-! ### Records, 07 R142 to R156 -/

/-- Each field of a record stands where the parser reads it. -/
theorem parseRecord_record (core : ℕ) (mv : MoveRec) (mc : McastRec) (lo : LoopRec) (co : CondRec) (cv : ConvRec) (sa : SampleRec) (cs : CsendRec)
    (sg : SigRec) : ∀ i ∈ [Instr.recEnd core, .move core mv, .mcast core mc, .loop core lo, .cond core co, .conv core cv, .sample core sa,
      .csend core cs, .sig core sg], i.record.bind (parseRecord core) = some i := by
  refine List.forall_mem_cons.2 ⟨rfl, ?_⟩
  simp only [List.forall_mem_cons, List.not_mem_nil, false_imp_iff, forall_true_iff, and_true, Instr.record, parseRecord, Option.bind_some,
    HAppend.hAppend]
  simp only [extract_append_high, extract_append_low, getLsbD_append_high, getLsbD_append_low, getLsbD_ofBool_zero, BitVec.extractLsb'_eq_self,
    Nat.reduceLeDiff, Nat.reduceAdd, Nat.reduceSub, Nat.reduceLT, BitVec.toNat_ofNat, Nat.reducePow, Nat.reduceMod,
    CondTest.ofCode_code, SigOp.ofCode_code, EFmt.ofCode_code, Rnd.ofCode_code, Scope.ofCode_code, and_true]

/-- Words decode to a record exactly when the parser names it, its words are these, and it is well-formed. -/
theorem decodeRecord_eq_some {core : ℕ} {w : RecWords} {i : Instr} :
    decodeRecord core w = some i ↔ parseRecord core w = some i ∧ i.record = some w ∧ i.wf = true := by
  rw [decodeRecord]
  cases parseRecord core w with
  | none => simp
  | some j =>
    simp only [Bool.and_eq_true, beq_iff_eq, Option.ite_none_right_eq_some, Option.some.injEq]
    constructor
    · rintro ⟨⟨hr, hw⟩, rfl⟩
      exact ⟨rfl, hr, hw⟩
    · rintro ⟨rfl, hr, hw⟩
      exact ⟨⟨hr, hw⟩, rfl⟩

/-- A well-formed record whose words parse to it decodes from them. -/
theorem decodeRecord_record {core : ℕ} {i : Instr} (hp : i.record.bind (parseRecord core) = some i) (hw : i.wf = true) :
    i.record.bind (decodeRecord core) = some i := by
  obtain ⟨w, hr, hi⟩ := Option.bind_eq_some_iff.1 hp
  exact Option.bind_eq_some_iff.2 ⟨w, hr, decodeRecord_eq_some.2 ⟨hi, hr, hw⟩⟩

/-! ### Packets, 15 R333 to R337 -/

theorem AReq.dec_enc (a : AReq) : AReq.dec a.enc = a := by
  simp only [AReq.dec, AReq.enc, HAppend.hAppend, extract_append_high, extract_append_low, BitVec.extractLsb'_eq_self,
    Nat.reduceLeDiff, Nat.reduceAdd, Nat.reduceSub]

/-- Each field of a LAUNCH stands where the decoder reads it, R333. -/
theorem LaunchPkt.dec_enc (p : LaunchPkt) : LaunchPkt.dec p.enc = p := by
  simp only [LaunchPkt.dec, pktWord, LaunchPkt.enc, List.getD_cons_zero, List.getD_cons_succ, HAppend.hAppend]
  simp only [extract_append_high, extract_append_low, getLsbD_append_high, getLsbD_append_low, getLsbD_ofBool_zero, BitVec.extractLsb'_eq_self,
    Nat.reduceLeDiff, Nat.reduceAdd, Nat.reduceSub, Nat.reduceLT, AReq.dec_enc]

/-- The bit above AFN of a LAUNCH is 0, R333. -/
theorem LaunchPkt.enc_afnHigh (p : LaunchPkt) : (pktWord p.enc 0).getLsbD 14 = false := by
  simp only [pktWord, LaunchPkt.enc, List.getD_cons_zero, HAppend.hAppend]
  simp only [getLsbD_append_high, getLsbD_append_low, Nat.reduceLeDiff, Nat.reduceSub, Nat.reduceLT]
  rfl

theorem LaunchPkt.enc_type (p : LaunchPkt) : (pktWord p.enc 0).extractLsb' 0 8 = 1#8 := by
  simp only [pktWord, LaunchPkt.enc, List.getD_cons_zero]
  exact BitVec.extractLsb'_append_eq_right

/-- Clearing a bit that is 0 changes nothing. -/
theorem and_not_of_afnHigh {x : DWord} (h : x.getLsbD 14 = false) : x &&& ~~~(0x4000#64) = x := by
  apply BitVec.eq_of_getLsbD_eq
  intro i hi
  rw [show 0x4000#64 = BitVec.twoPow 64 14 by decide, BitVec.getLsbD_and, BitVec.getLsbD_not, BitVec.getLsbD_twoPow]
  by_cases hx : i = 14
  · rw [hx, h, Bool.false_and]
  · simp [hi, Ne.symm hx]

theorem decodePacket_launch {q : ℕ} {p : LaunchPkt} (hw : (Instr.launch q p).wf = true) : decodePacket q p.enc = .ok (.launch q p) := by
  have hwords : (pktWord p.enc 0 :: p.enc.drop 1) = p.enc := rfl
  simp only [decodePacket, p.enc_type, p.dec_enc, p.enc_afnHigh, and_not_of_afnHigh p.enc_afnHigh, hwords, encodePacket, hw, beq_self_eq_true]
  rfl

section
variable {q na nb : ℕ} {b : Bool} {a : DWord} {v : Word}

theorem decodePacket_wait (hw : (Instr.wait q a v).wf = true) : decodePacket q (encodePacket (.wait q a v)) = .ok (.wait q a v) := by
  have hv : (0#32 ++ v).extractLsb' 0 32 = v := BitVec.extractLsb'_append_eq_right
  simp only [decodePacket, encodePacket, pktWord, List.getD_cons_zero, List.getD_cons_succ, hv, List.take, beq_self_eq_true, hw]
  rfl

theorem decodePacket_signal (hw : (Instr.signal q b a v).wf = true) :
    decodePacket q (encodePacket (.signal q b a v)) = .ok (.signal q b a v) := by
  have hv : (0#32 ++ v).extractLsb' 0 32 = v := BitVec.extractLsb'_append_eq_right
  have ht : (0#55 ++ BitVec.ofBool b ++ 3#8).extractLsb' 0 8 = 3#8 := BitVec.extractLsb'_append_eq_right
  have hb : (0#55 ++ BitVec.ofBool b ++ 3#8).getLsbD 8 = b := by cases b <;> decide
  simp only [decodePacket, encodePacket, pktWord, List.getD_cons_zero, List.getD_cons_succ, hv, ht, hb, List.take, beq_self_eq_true, hw]
  rfl

theorem decodePacket_pred (hw : (Instr.pred q b na nb a v).wf = true) :
    decodePacket q (encodePacket (.pred q b na nb a v)) = .ok (.pred q b na nb a v) := by
  have hok : (decide (q < 256) && decide (na ≤ 127) && decide (nb ≤ 127) && a.toNat % 4 == 0) = true := hw
  simp only [Bool.and_eq_true, decide_eq_true_iff] at hok
  obtain ⟨⟨⟨-, hna⟩, hnb⟩, -⟩ := hok
  have hbyte {n : ℕ} (h : n ≤ 127) : (BitVec.ofNat 8 n).toNat = n := (BitVec.toNat_ofNat ..).trans (Nat.mod_eq_of_lt (by omega))
  simp only [decodePacket, encodePacket, pktWord, List.getD_cons_zero, List.getD_cons_succ, HAppend.hAppend]
  simp only [extract_append_high, extract_append_low, getLsbD_append_high, getLsbD_append_low, getLsbD_ofBool_zero, BitVec.extractLsb'_eq_self,
    Nat.reduceLeDiff, Nat.reduceAdd, Nat.reduceSub, Nat.reduceLT, hbyte hna, hbyte hnb]
  simp only [List.take, beq_self_eq_true, hw]
  rfl
end

/-- Settles O57: each field of a record or a packet stands where the decoder reads it, and the decoder compares the words besides. -/
theorem recordsAndPacketsRoundTrip : Obligations.RecordsAndPacketsRoundTrip := by
  unfold Obligations.RecordsAndPacketsRoundTrip
  refine ⟨fun core r i hi => ?_, fun core mv mc lo co cv sa cs sg i hi hw => ?_, fun q p sys ne na nb a v => ?_⟩
  · obtain ⟨-, hr, hw⟩ := decodeRecord_eq_some.1 hi
    exact ⟨hw, hr⟩
  · exact decodeRecord_record (parseRecord_record core mv mc lo co cv sa cs sg i hi) hw
  · simp only [List.forall_mem_cons, List.not_mem_nil, false_imp_iff, forall_true_iff, and_true]
    exact ⟨decodePacket_launch, decodePacket_wait, decodePacket_signal, decodePacket_pred⟩

end Sys2Proof
end

section
/-! How a chain comes to a record, and how it ends, 07 R139 to R142. -/

namespace Sys2Proof.Machine

/-! ### The end of a chain, R139 to R141 -/

theorem State.endReserve_frame (s : State) (clu : ℕ) : ∃ reserve, s.endReserve clu = { s with reserve := reserve } := by
  rw [State.endReserve]
  split
  · exact ⟨_, rfl⟩
  · split
    · exact ⟨_, rfl⟩
    · exact ⟨_, rfl⟩

/-- Where no request for rows waits, nothing is granted. -/
theorem State.tryRows_frame {s : State} (h : s.acgQ = []) (clu : ℕ) :
    ∃ rows reserve, s.tryRows clu = { s with accRows := rows, reserve := reserve } := by
  obtain ⟨reserve, hr⟩ := s.sweepRows.endReserve_frame clu
  have hq : (s.sweepRows.endReserve clu).acgQ = [] := by rw [hr]; exact h
  have hn : s.sweepRows.acgQ.length + 1 = 1 := by rw [show s.sweepRows.acgQ = [] from h]; rfl
  refine ⟨s.sweepRows.accRows, reserve, ?_⟩
  rw [State.tryRows, hn]
  simp only [State.examineRows, hq, List.filter_nil, oldestAcg, minBy]
  exact hr

/-- The state once a chain's token is written and its group has one copy fewer. -/
def State.tokenWritten (s : State) (k : Chain) (status count : ℕ) : State :=
  (s.modThread k.ti k.gi k.lane fun t => (t.late k.id 0 (tokenWord status count)).clearPend k.id).modGroup k.ti k.gi fun g =>
    { g with copies := g.copies - 1 }

theorem State.endChain_teams {s : State} (h : s.acgQ = []) (k : Chain) (status count : ℕ) :
    (s.endChain k status count).teams = (s.tokenWritten k status count).teams ∧ (s.endChain k status count).mem = s.mem := by
  obtain ⟨rows, reserve, he⟩ : ∃ rows reserve, s.endChain k status count =
      { ({ s.tokenWritten k status count with
          chains := s.chains.filter (·.id != k.id), streams := s.streams.filter fun e => !e.ofChain k.id,
          faults := s.faults.filter fun f => f.chain != some k.id } : State) with accRows := rows, reserve := reserve } :=
    State.tryRows_frame (by exact h) _
  rw [he]
  exact ⟨rfl, rfl⟩

/-- A register that the operation does not write keeps its value. -/
theorem Thread.v_late_ne {t : Thread} {op part r : ℕ} (x : Word) (h : ∀ p ∈ t.pend, p.op = op → p.reg ≠ r) :
    (t.late op part x).v r = t.v r := by
  refine (Thread.v_foldl_setV _ t r x).trans (if_neg ?_)
  rintro ⟨p, hp, hr⟩
  obtain ⟨hmem, hop⟩ := List.mem_filter.1 hp
  simp only [Bool.and_eq_true, beq_iff_eq] at hop
  exact h p hmem hop.1 hr

section
variable {s : State} {k : Chain} {status count : ℕ} (hlane : k.lane < (s.group k.ti k.gi).lanes.length) (hq : s.acgQ = [])
include hlane hq

theorem State.thread_endChain : (s.endChain k status count).thread k.ti k.gi k.lane =
    ((s.thread k.ti k.gi k.lane).late k.id 0 (tokenWord status count)).clearPend k.id := by
  have hteams : (s.endChain k status count).thread k.ti k.gi k.lane = (s.tokenWritten k status count).thread k.ti k.gi k.lane := by
    simp only [State.thread, State.group, State.team, (State.endChain_teams hq k status count).1]
  rw [hteams, State.tokenWritten, State.thread_modGroup_of_lanes _ _ _ fun _ => by rfl]
  exact State.thread_modThread_self _ hlane
omit hlane in
theorem State.copies_endChain : ((s.endChain k status count).group k.ti k.gi).copies = (s.group k.ti k.gi).copies - 1 := by
  have hteams : (s.endChain k status count).group k.ti k.gi = (s.tokenWritten k status count).group k.ti k.gi := by
    simp only [State.group, State.team, (State.endChain_teams hq k status count).1]
  have hthread : ((s.modThread k.ti k.gi k.lane fun t => (t.late k.id 0 (tokenWord status count)).clearPend k.id).group k.ti k.gi).copies =
      (s.group k.ti k.gi).copies := State.group_field_modGroup Group.copies _ rfl ..
  rw [hteams, ← hthread]
  exact State.group_field_modGroup Group.copies (fun g => { g with copies := g.copies - 1 }) rfl ..
end

/-! ### A chain that comes to a record, R142 -/

section
variable (core : ℕ) (s : State)

theorem exec_recEnd : exec (.recEnd core) s = execRecEnd core s := rfl
theorem exec_move (r : MoveRec) : exec (.move core r) s = execMove core r s := rfl
theorem exec_mcast (r : McastRec) : exec (.mcast core r) s = execMcast core r s := rfl
theorem exec_loop (r : LoopRec) : exec (.loop core r) s = execLoop core r s := rfl
theorem exec_cond (r : CondRec) : exec (.cond core r) s = execCond core r s := rfl
theorem exec_conv (r : ConvRec) : exec (.conv core r) s = execConv core r s := rfl
theorem exec_sample (r : SampleRec) : exec (.sample core r) s = execSample core r s := rfl
theorem exec_csend (r : CsendRec) : exec (.csend core r) s = execCsend core r s := rfl
theorem exec_sig (r : SigRec) : exec (.sig core r) s = execSig core r s := rfl
end

section
variable {s : State} {core : ℕ} {k : Chain} {i : Instr} {f : State → Chain → State}

/-- A chain that waits for no answer ends at once. -/
theorem State.stopChain_ends (hk : s.chain k.id = some k) (hwaits : k.waits = []) (status : ℕ) :
    s.stopChain k.id status = s.endChain k status k.count := by
  rw [State.stopChain, hk]
  simp only [hwaits, List.isEmpty_nil, if_true]

variable (ha : s.activeChain core = some k) (hst : k.st = .walking) (hnow : k.now = none) (hend : k.endSeen = false)
include ha hst hnow hend

theorem reach_wf (hwf : i.wf = true) : reach core i f s = .next (f s k) := by
  rw [reach, ha]
  simp only [hst, hnow, hend, hwf, bne_self_eq_false, Option.isSome_none, Bool.or_false, Bool.not_true, Bool.false_eq_true, if_false]

theorem reach_illFormed (hk : s.chain k.id = some k) (hwaits : k.waits = []) (hwf : i.wf = false) :
    reach core i f s = .next (s.endChain k 0x0D k.count) := by
  rw [reach, ha]
  simp only [hst, hnow, hend, hwf, bne_self_eq_false, Option.isSome_none, Bool.or_false, Bool.not_false, Bool.false_eq_true, if_false, if_true,
    State.stopChain_ends hk hwaits]
end

/-- Settles O26: the end of a chain writes the token as a late result, and every kind of record is reached in the same way. -/
theorem chainsEndAndStop : Obligations.ChainsEndAndStop := by
  unfold Obligations.ChainsEndAndStop
  refine ⟨?_, ?_⟩
  · intro s k st n hst hlane hpend htok hq t
    have ht : t.thread k.ti k.gi k.lane = ((s.thread k.ti k.gi k.lane).late k.id 0 (tokenWord st n)).clearPend k.id :=
      State.thread_endChain hlane hq
    refine ⟨?_, fun p hp => ?_, State.copies_endChain hq, fun r hr => ?_, fun j hj => State.chains_endChain hj,
      (State.endChain_teams hq k st n).2⟩
    · rw [ht, ← tokenWord_eq hst]
      exact Thread.v_late _ htok
    · rw [ht] at hp
      simpa using List.of_mem_filter hp
    · rw [ht]
      exact Thread.v_late_ne _ fun p hp hop => by rw [hpend p hp hop]; exact hr.symm
  · intro s core k mv mc lo co cv sa cs sg ha hk hst hnow hend hwaits
    have hstop (i : Instr) (f : State → Chain → State) (hwf : i.wf = false) : reach core i f s = .next (s.endChain k 0x0D k.count) :=
      reach_illFormed ha hst hnow hend hk hwaits hwf
    simp only [List.forall_mem_cons, List.not_mem_nil, false_imp_iff, forall_true_iff, and_true, exec_move, exec_mcast, exec_loop, exec_cond,
      exec_conv, exec_sample, exec_csend, exec_sig]
    exact ⟨hstop _ _, hstop _ _, hstop _ _, hstop _ _, hstop _ _, hstop _ _, hstop _ _, hstop _ _⟩

end Sys2Proof.Machine
end

section
/-! What each kind of record does when its chain comes to it, 07 R137, R138, R142 to R156. -/

namespace Sys2Proof.Machine

/-! ### The rows of a MOVE, R144 -/

/-- What an affine function keeps at both ends of a range it keeps between them. -/
theorem affine_between {a p lo hi : ℤ} {n j : ℕ} (hj : j ≤ n) (h0 : lo ≤ a ∧ a ≤ hi) (hn : lo ≤ a + p * n ∧ a + p * n ≤ hi) :
    lo ≤ a + p * j ∧ a + p * j ≤ hi := by
  have hcast : (j : ℤ) ≤ n := Int.ofNat_le.2 hj
  rcases le_total 0 p with hp | hp
  · have hlow : 0 ≤ p * j := mul_nonneg hp (Int.natCast_nonneg j)
    have hhigh : p * j ≤ p * n := mul_le_mul_of_nonneg_left hcast hp
    omega
  · have hlow : p * n ≤ p * j := mul_le_mul_of_nonpos_left hcast hp
    have hhigh : p * j ≤ 0 := mul_nonpos_of_nonpos_of_nonneg hp (Int.natCast_nonneg j)
    omega

/-- A row lies between 0 and `hi`. -/
def RowLies (hi : ℤ) (f : ℕ → ℕ → ℤ) (k1 k2 : ℕ) : Prop := 0 ≤ f k1 k2 ∧ f k1 k2 ≤ hi

/-- Where the addresses of rows are affine in each index, the extreme rows bound all of them. -/
theorem rowLies_of_corners {hi b p q : ℤ} {f : ℕ → ℕ → ℤ} (hf : ∀ k1 k2 : ℕ, f k1 k2 = b + p * k1 + q * k2) {n1 n2 k1 k2 : ℕ}
    (h00 : RowLies hi f 0 0) (h10 : RowLies hi f n1 0) (h01 : RowLies hi f 0 n2) (h11 : RowLies hi f n1 n2) (hk1 : k1 ≤ n1) (hk2 : k2 ≤ n2) :
    RowLies hi f k1 k2 := by
  have hrow {j : ℕ} (h0 : RowLies hi f 0 j) (hn : RowLies hi f n1 j) : RowLies hi f k1 j := by
    have hswap (i : ℕ) : f i j = b + q * j + p * i := (hf i j).trans (by ring)
    simp only [RowLies, hswap, Nat.cast_zero, mul_zero, add_zero] at h0 hn ⊢
    exact affine_between hk1 h0 hn
  have hlow := hrow h00 h10
  have hhigh := hrow h01 h11
  simp only [RowLies, hf, Nat.cast_zero, mul_zero, add_zero] at hlow hhigh ⊢
  exact affine_between hk2 hlow hhigh

/-- The check of the extreme rows says that every row lies in the carve-out. -/
theorem rowsIn_iff {carve : ℕ} {r : MoveRec} {f : ℕ → ℕ → ℤ} {b p q : ℤ} (hf : ∀ k1 k2 : ℕ, f k1 k2 = b + p * k1 + q * k2)
    (h1 : 0 < r.cnt1.toNat) (h2 : 0 < r.cnt2.toNat) : rowsIn carve r f = true ↔
      ∀ k1 k2 : ℕ, k1 < r.cnt1.toNat → k2 < r.cnt2.toNat → 0 ≤ f k1 k2 ∧ f k1 k2 + r.len0.toNat ≤ carve := by
  have hlies (k1 k2 : ℕ) : 0 ≤ f k1 k2 ∧ f k1 k2 + r.len0.toNat ≤ carve ↔ RowLies (carve - r.len0.toNat) f k1 k2 :=
    and_congr_right fun _ => by omega
  simp only [rowsIn, List.all_cons, List.all_nil, Bool.and_true, Bool.and_eq_true, decide_eq_true_iff, hlies]
  constructor
  · rintro ⟨h00, h10, h01, h11⟩ k1 k2 hk1 hk2
    exact rowLies_of_corners hf h00 h10 h01 h11 (by omega) (by omega)
  · intro h
    exact ⟨h _ _ h1 h2, h _ _ (by omega) h2, h _ _ h1 (by omega), h _ _ (by omega) (by omega)⟩

theorem moveAddr_affine (bias base : DWord) (s1 s2 : BitVec 16) (sh : BitVec 4) (k1 k2 : ℕ) : moveAddr bias base s1 s2 sh k1 k2 =
    (bias.toInt + base.toNat) + (s1.toInt * 2 ^ sh.toNat) * k1 + (s2.toInt * 2 ^ sh.toNat) * k2 := by
  rw [moveAddr]
  ring

/-! ### The destinations of an MCAST, R146 -/

/-- A list of which every member has a value, and those values. -/
theorem filterMap_of_map {α β : Type} {f : α → Option β} {l : List α} {m : List β} (h : l.map f = m.map some) : l.filterMap f = m :=
  calc l.filterMap f = (l.map f).filterMap id := (List.filterMap_map (g := id) (f := f)).symm
    _ = (m.map some).filterMap id := by rw [h]
    _ = m := List.filterMap_map.trans List.filterMap_some

theorem MoveRec.cnt_pos {core : ℕ} {r : MoveRec} (hwf : (Instr.move core r).wf = true) : 0 < r.cnt1.toNat ∧ 0 < r.cnt2.toNat := by
  have hok : (r.len0 != 0 && r.cnt1 != 0 && r.cnt2 != 0 && spOk r.ssp r.src && spOk r.dsp r.dst) = true := hwf
  simp only [Bool.and_eq_true, bne_iff_ne] at hok
  obtain ⟨⟨⟨⟨-, h1⟩, h2⟩, -⟩, -⟩ := hok
  exact ⟨Nat.pos_of_ne_zero fun h => h1 (BitVec.eq_of_toNat_eq h), Nat.pos_of_ne_zero fun h => h2 (BitVec.eq_of_toNat_eq h)⟩

/-! ### The checks of a record, R142 -/

/-- Two checks of a record are one. -/
theorem and_check_iff {a b : Bool} {p q : Prop} (ha : a = true ↔ p) (hb : b = true ↔ q) : (a && b) = true ↔ p ∧ q :=
  (Bool.and_eq_true_iff).trans (and_congr ha hb)

/-- A check of a range that concerns a scratchpad alone. -/
theorem imp_check_iff {a b : Bool} {p : Prop} (hb : b = true ↔ p) : (!a || b) = true ↔ (a = true → p) := by
  cases a
  · exact iff_of_true rfl nofun
  · exact hb.trans (forall_prop_of_true (q := fun _ => p) rfl).symm

section
variable {s : State} {k : Chain} (hk : s.chain k.id = some k) (hwaits : k.waits = [])
include hk hwaits

/-- A record stops its chain at the first of its checks that fails. -/
theorem checked_spec {al rg : Bool} {rest : Option ℕ} {f : State} {aligned fits : Prop} (hal : al = true ↔ aligned) (hrg : rg = true ↔ fits) :
    (¬aligned → checked s k al rg rest f = s.endChain k 0x04 k.count) ∧
    (aligned → ¬fits → checked s k al rg rest f = s.endChain k 0x06 k.count) ∧
    (aligned → fits → checked s k al rg rest f = match rest with
      | some st => s.endChain k st k.count
      | none => f) := by
  rw [← hal, ← hrg]
  have hends := State.stopChain_ends hk hwaits
  refine ⟨fun hmis => ?_, fun hin hout => ?_, fun hin hgo => ?_⟩
  · simp only [checked, eq_false_of_ne_true hmis, Bool.not_false, if_true, hends]
  · simp only [checked, hin, eq_false_of_ne_true hout, Bool.not_true, Bool.not_false, Bool.false_eq_true, if_true, if_false, hends]
  · simp only [checked, hin, hgo, Bool.not_true, Bool.false_eq_true, if_false]
    cases rest with
    | none => rfl
    | some st => exact hends st
end

/-! ### The start of a chain, and its END, R137, R138, R156 -/

section
variable {s : State} {core : ℕ} {k : Chain} (ha : s.activeChain core = some k)
include ha

theorem chainStart_starts (hst : k.st = .queued) : exec (.chainStart core) s = .next (s.modChain k.id fun k => { k with st := .walking }) := by
  rw [show exec (.chainStart core) s = execChainStart core s from rfl, execChainStart, ha]
  simp only [hst, beq_self_eq_true, if_true]

variable (hk : s.chain k.id = some k) (hst : k.st = .walking) (hnow : k.now = none) (hend : k.endSeen = false) (hwaits : k.waits = [])
include hk hst hnow hend hwaits

theorem recEnd_ends : exec (.recEnd core) s =
    .next ((s.modChain k.id fun k => { k with endSeen := true }).endChain { k with endSeen := true } k.status k.count) := by
  rw [exec_recEnd, execRecEnd, reach_wf ha hst hnow hend rfl, State.settleChain,
    State.chain_modChain_self (f := fun k => { k with endSeen := true }) hk fun _ => rfl]
  simp only [hwaits, List.isEmpty_nil, Bool.true_or, Bool.and_self, if_true]

/-! ### Records and their checks, R142 -/

/-- A well-formed record whose meaning is what its checks leave of it. -/
theorem reach_checked {i : Instr} (hwf : i.wf = true) {al rg : State → Chain → Bool} {rest : State → Chain → Option ℕ}
    {f : State → Chain → State} (he : exec i s = reach core i (fun s k => checked s k (al s k) (rg s k) (rest s k) (f s k)) s)
    {aligned fits : Prop} (hal : al s k = true ↔ aligned) (hrg : rg s k = true ↔ fits) :
    (¬aligned → exec i s = .next (s.endChain k 0x04 k.count)) ∧
    (aligned → ¬fits → exec i s = .next (s.endChain k 0x06 k.count)) ∧
    (aligned → fits → exec i s = .next (match rest s k with
      | some st => s.endChain k st k.count
      | none => f s k)) := by
  obtain ⟨hmis, hout, hin⟩ := checked_spec hk hwaits (rest := rest s k) (f := f s k) hal hrg
  rw [he, reach_wf ha hst hnow hend hwf]
  exact ⟨fun h => congrArg _ (hmis h), fun h h' => congrArg _ (hout h h'), fun h h' => congrArg _ (hin h h')⟩

/-- A MOVE, of which `fits` is what the check of its rows says, R144. -/
theorem move_reached {r : MoveRec} (hwf : (Instr.move core r).wf = true) {fits : Prop}
    (hfits : ((!r.ssp || rowsIn (s.chainCarve k) r (moveSrc r k)) && (!r.dsp || rowsIn (s.chainCarve k) r (moveDst r k))) = true ↔ fits) :
    (fits → exec (.move core r) s = .next (s.latch k (.move core r))) ∧
    (¬fits → exec (.move core r) s = .next (s.endChain k 0x06 k.count)) := by
  obtain ⟨-, hout, hin⟩ := reach_checked ha hk hst hnow hend hwaits hwf (exec_move core s r) (iff_of_true rfl trivial) hfits
  exact ⟨hin trivial, hout trivial⟩

/-- R150; log 45 on the addresses. -/
theorem conv_reached {r : ConvRec} (hwf : (Instr.conv core r).wf = true) :
    let sa := (k.sb + r.src).toNat
    let da := (k.db + r.dst).toNat
    let aligned : Prop := sa % elemAlign r.sfmt = 0 ∧ da % elemAlign r.dfmt = 0
    let fits : Prop := (r.ssp = true → sa + elemBytes r.sfmt r.cnt.toNat ≤ (s.team k.ti).scr * 2 ^ 18) ∧
      (r.dsp = true → da + elemBytes r.dfmt r.cnt.toNat ≤ (s.team k.ti).scr * 2 ^ 18)
    (¬aligned → exec (.conv core r) s = .next (s.endChain k 0x04 k.count)) ∧
    (aligned → ¬fits → exec (.conv core r) s = .next (s.endChain k 0x06 k.count)) ∧
    (aligned → fits → exec (.conv core r) s = .next (s.latch k (.conv core r))) := by
  intro sa da aligned fits
  exact reach_checked ha hk hst hnow hend hwaits hwf (exec_conv core s r) (and_check_iff beq_iff_eq beq_iff_eq)
    (and_check_iff (imp_check_iff decide_eq_true_iff) (imp_check_iff decide_eq_true_iff))

theorem csend_reached {r : CsendRec} (hwf : (Instr.csend core r).wf = true) :
    let aligned : Prop := r.src.toNat % 1024 = 0 ∧ r.roff.toNat % 1024 = 0
    let fits : Prop := r.ssp = true → r.src.toNat + 1024 * r.nblk.toNat ≤ (s.team k.ti).scr * 2 ^ 18
    (¬aligned → exec (.csend core r) s = .next (s.endChain k 0x04 k.count)) ∧
    (aligned → ¬fits → exec (.csend core r) s = .next (s.endChain k 0x06 k.count)) ∧
    (aligned → fits → exec (.csend core r) s = .next (s.latch k (.csend core r))) := by
  intro aligned fits
  exact reach_checked ha hk hst hnow hend hwaits hwf (exec_csend core s r) (and_check_iff beq_iff_eq beq_iff_eq) (imp_check_iff decide_eq_true_iff)

/-- R151; log 75 on the place of the last check. -/
theorem sample_reached {r : SampleRec} (hwf : (Instr.sample core r).wf = true) :
    let aligned : Prop := (r.out = true → r.dst.toNat % 4 = 0) ∧ r.crec.toNat % 128 = 0
    let fits : Prop := (r.out = true → r.dsp = true → r.dst.toNat + 4 * r.ncol.toNat * r.nr.toNat ≤ (s.team k.ti).scr * 2 ^ 18) ∧
      (r.csp = true → r.crec.toNat + 128 * r.nr.toNat ≤ (s.team k.ti).scr * 2 ^ 18)
    let held : Prop := r.row.toNat + r.nr.toNat ≤ (s.team k.ti).rows.length
    let entry : Stream :=
      ⟨s.nextId, cluOfCore core, k.ti, k.gi, k.lane, (((s.team k.ti).rows.drop r.row.toNat).take r.nr.toNat).drop k.p0, .sample k.id⟩
    (¬aligned → exec (.sample core r) s = .next (s.endChain k 0x04 k.count)) ∧
    (aligned → ¬fits → exec (.sample core r) s = .next (s.endChain k 0x06 k.count)) ∧
    (aligned → fits → ¬held → exec (.sample core r) s = .next (s.endChain k 0x0A k.count)) ∧
    (aligned → fits → held → exec (.sample core r) s =
      .next (({ s with nextId := s.nextId + 1, streams := s.streams ++ [entry] } : State).latch k (.sample core r))) := by
  intro aligned fits held entry
  have hout {a b : Bool} {p : Prop} (hb : b = true ↔ p) : (!(r.out && a) || b) = true ↔ (r.out = true → a = true → p) :=
    (imp_check_iff hb).trans (by rw [Bool.and_eq_true, and_imp])
  obtain ⟨hmis, hrange, hin⟩ := reach_checked ha hk hst hnow hend hwaits hwf (exec_sample core s r)
    (and_check_iff (imp_check_iff beq_iff_eq) beq_iff_eq) (and_check_iff (hout decide_eq_true_iff) (imp_check_iff decide_eq_true_iff))
  refine ⟨hmis, hrange, fun hal hfit hheld => ?_, fun hal hfit hheld => ?_⟩
  · rw [hin hal hfit, if_pos (Nat.lt_of_not_le hheld)]
  · rw [hin hal hfit, if_neg (Nat.not_lt.2 hheld)]

/-! ### MCAST, R146 -/

theorem mcast_unplaced {r : McastRec} (hwf : (Instr.mcast core r).wf = true) (hnone : ∃ x ∈ mcastCores core r.mask, s.mcastTeam k x = none) :
    exec (.mcast core r) s = .next (s.endChain k 0x0D k.count) := by
  have hlen : ((mcastCores core r.mask).filterMap (s.mcastTeam k)).length ≠ (mcastCores core r.mask).length := fun h => by
    obtain ⟨x, hx, hn⟩ := hnone
    exact absurd (List.filterMap_length_eq_length.1 h x hx) (by simp [hn])
  rw [exec_mcast, execMcast, reach_wf ha hst hnow hend hwf]
  simp only [bne_iff_ne.2 hlen, Bool.true_or, if_true, State.stopChain_ends hk hwaits]

omit hk hwaits in
theorem mcast_reached {r : McastRec} {dests : List (ℕ × ℕ)} (hwf : (Instr.mcast core r).wf = true)
    (hdests : (mcastCores core r.mask).map (s.mcastTeam k) = dests.map some) (hlen : r.len.toNat ≤ (s.team k.ti).scr * 2 ^ 18)
    (hsrc : r.ssp = true → r.src.toNat + r.len.toNat ≤ (s.team k.ti).scr * 2 ^ 18)
    (hdst : ∀ d ∈ dests, r.doff.toNat + r.len.toNat ≤ (s.team d.1).scr * 2 ^ 18) :
    exec (.mcast core r) s = .next (s.modChain k.id fun k => { k with now := some (.mcast core r), dests := dests }) := by
  have hfound : (mcastCores core r.mask).filterMap (s.mcastTeam k) = dests := filterMap_of_map hdests
  have hcount : dests.length = (mcastCores core r.mask).length := by simpa using (congrArg List.length hdests).symm
  have hranges : ((!r.ssp || decide (r.src.toNat + r.len.toNat ≤ s.chainCarve k)) &&
      dests.all fun d => decide (r.doff.toNat + r.len.toNat ≤ (s.team d.1).carve)) = true :=
    (and_check_iff (imp_check_iff decide_eq_true_iff) List.all_eq_true).2 ⟨hsrc, fun d hd => decide_eq_true (hdst d hd)⟩
  have hgo : ((mcastCores core r.mask).length != (mcastCores core r.mask).length || decide (s.chainCarve k < r.len.toNat)) = false := by
    rw [bne_self_eq_false, Bool.false_or]
    exact decide_eq_false (Nat.not_lt.2 hlen)
  rw [exec_mcast, execMcast, reach_wf ha hst hnow hend hwf]
  simp only [hfound, hcount, hgo, hranges]
  rfl

/-! ### LOOP and COND, R148, R149 -/

theorem loop_reached {r : LoopRec} (hwf : (Instr.loop core r).wf = true) : exec (.loop core r) s = .next (match loopStep k r with
    | none => s.endChain k 0x0D k.count
    | some k' => s.modChain k.id fun _ => k') := by
  rw [exec_loop, execLoop, reach_wf ha hst hnow hend hwf]
  cases loopStep k r with
  | none => exact congrArg _ (State.stopChain_ends hk hwaits 0x0D)
  | some k' => rfl

theorem cond_reached {r : CondRec} (hwf : (Instr.cond core r).wf = true) :
    let w : Word := BitVec.ofNat 32 (bytesNat (scratchBytes (s.chainScratch k) r.woff.toNat 4))
    (r.woff.toNat % 4 ≠ 0 → exec (.cond core r) s = .next (s.endChain k 0x04 k.count)) ∧
    (r.woff.toNat % 4 = 0 → ¬r.woff.toNat + 4 ≤ (s.team k.ti).scr * 2 ^ 18 → exec (.cond core r) s = .next (s.endChain k 0x06 k.count)) ∧
    (r.woff.toNat % 4 = 0 → r.woff.toNat + 4 ≤ (s.team k.ti).scr * 2 ^ 18 → exec (.cond core r) s = .next (s.modChain k.id fun k =>
      k.goto (k.recOff + 32 * (if condHolds r.test (w &&& r.mask) r.value then r.skip.toNat + 1 else 1)))) :=
  reach_checked ha hk hst hnow hend hwaits hwf (exec_cond core s r) beq_iff_eq decide_eq_true_iff
end

/-! ### What a LOOP does to its chain, R148 -/

section
variable {k : Chain} {r : LoopRec}

/-- The passes of a LOOP that are left after one. -/
def loopLeft (k : Chain) (r : LoopRec) : ℕ := (if k.act.getD r.ix.toNat false then k.lc.getD r.ix.toNat 0 else r.cnt.toNat) - 1

theorem getD_set_self {α : Type} {l : List α} {i : ℕ} (x d : α) (h : i < l.length) : (l.set i x).getD i d = x := by
  rw [List.getD, List.getElem?_set_self h, Option.getD_some]

theorem loopStep_below (hn : loopLeft k r ≠ 0) (hb : k.recOff < 32 * r.back.toNat) : loopStep k r = none := by
  rw [loopStep]
  exact (if_pos (bne_iff_ne.2 hn)).trans (if_pos hb)

theorem loopStep_again (hact : k.act.length = 4) (hlc : k.lc.length = 4) (hn : loopLeft k r ≠ 0) (hb : 32 * r.back.toNat ≤ k.recOff) :
    ∃ k', loopStep k r = some k' ∧ k'.recOff = k.recOff - 32 * r.back.toNat ∧ k'.sb = k.sb + r.sadv ∧ k'.db = k.db + r.dadv ∧
      k'.lc.getD r.ix.toNat 0 = loopLeft k r ∧ k'.act.getD r.ix.toNat false = true := by
  have hix : r.ix.toNat < 4 := r.ix.isLt
  refine ⟨_, (if_pos (bne_iff_ne.2 hn)).trans (if_neg (Nat.not_lt.2 hb)), rfl, rfl, rfl, getD_set_self _ _ (by omega), ?_⟩
  exact (getD_set_self _ _ (by omega)).trans (bne_iff_ne.2 hn)

theorem loopStep_over (hact : k.act.length = 4) (hn : loopLeft k r = 0) : ∃ k', loopStep k r = some k' ∧ k'.recOff = k.recOff + 32 ∧
    k'.sb = k.sb - r.sadv * BitVec.ofNat 64 (r.cnt.toNat - 1) ∧ k'.db = k.db - r.dadv * BitVec.ofNat 64 (r.cnt.toNat - 1) ∧
    k'.act.getD r.ix.toNat false = false := by
  have hix : r.ix.toNat < 4 := r.ix.isLt
  have hdone : (loopLeft k r != 0) = false := bne_eq_false_iff_eq.2 hn
  refine ⟨_, if_neg (ne_true_of_eq_false hdone), rfl, rfl, rfl, ?_⟩
  exact (getD_set_self _ _ (by omega)).trans hdone
end

/-! ### The test of a COND, R149 -/

theorem condHolds_eq (t : CondTest) (w v : Word) : condHolds t w v = match t with
    | .eq => w == v
    | .ne => w != v
    | .below => w.ult v
    | .aboveEq => !w.ult v := by
  cases t
  case aboveEq => simp [condHolds, BitVec.ult, ← decide_not]
  all_goals rfl

/-- Settles O27: each record by its checks, and what a LOOP or COND leaves of its chain. -/
theorem recordsReached : Obligations.RecordsReached := by
  unfold Obligations.RecordsReached
  refine ⟨fun s core k ha hk => ⟨fun hst => chainStart_starts ha hst, ?_⟩, fun s core k ha hk hst hnow hend hwaits => ?_⟩
  · intro hst hnow hend hwaits carve kept stops
    refine ⟨recEnd_ends ha hk hst hnow hend hwaits, fun r hwf => ?_, fun r hwf => conv_reached ha hk hst hnow hend hwaits hwf,
      fun r hwf => csend_reached ha hk hst hnow hend hwaits hwf, fun r hwf => ?_, fun r hwf => mcast_unplaced ha hk hst hnow hend hwaits hwf⟩
    · intro row fits
      obtain ⟨h1, h2⟩ := MoveRec.cnt_pos hwf
      exact move_reached ha hk hst hnow hend hwaits hwf (and_check_iff (imp_check_iff (rowsIn_iff (fun _ _ => moveAddr_affine ..) h1 h2))
        (imp_check_iff (rowsIn_iff (fun _ _ => moveAddr_affine ..) h1 h2)))
    · intro aligned fits held
      obtain ⟨hmis, hout, hrows, hin⟩ := sample_reached ha hk hst hnow hend hwaits hwf
      refine ⟨hmis, hout, hrows, fun hal hfit hheld hp => ⟨_, _, hin hal hfit hheld, rfl, rfl, by simp only [hp, List.drop_zero], ?_⟩⟩
      exact congrArg (fun o : Option Chain => o.bind (·.now))
        (State.activeChain_modChain (f := fun k => { k with now := some (.sample core r) }) (fun _ => rfl) (by exact ha))
  · intro carve becomes at'
    refine ⟨fun r dests hwf hdests hlen hsrc hdst => ?_, fun r hwf hact hlc => ?_, fun r hwf => ?_⟩
    · exact mcast_reached ha hst hnow hend hwf ((List.map_map ..).trans hdests) hlen hsrc hdst
    · intro ix n back
      have hexec := loop_reached ha hk hst hnow hend hwaits hwf
      refine ⟨fun hn hb => ?_, fun hn hb => ?_, fun hn => ?_⟩
      · obtain ⟨k', hstep, hk'⟩ := loopStep_again hact hlc hn hb
        exact ⟨k', by rw [hexec, hstep], hk'⟩
      · rw [hexec, loopStep_below hn hb]
      · obtain ⟨k', hstep, hk'⟩ := loopStep_over hact hn
        exact ⟨k', by rw [hexec, hstep], hk'⟩
    · intro w x holds
      obtain ⟨hmis, hout, hin⟩ := cond_reached ha hk hst hnow hend hwaits hwf
      refine ⟨hmis, fun hal hfit => hout hal (Nat.not_le.2 hfit), fun hal hfit => (hin hal hfit).trans ?_⟩
      have hholds : condHolds r.test x r.value = holds := condHolds_eq r.test x r.value
      exact congrArg (fun b : Bool => Host.Outcome.next (s.modChain k.id fun k =>
        k.goto (k.recOff + 32 * (if b then r.skip.toNat + 1 else 1)))) hholds

end Sys2Proof.Machine
end

section
/-! The four copy instructions, 07 R139, R141, R164 to R167. -/

namespace Sys2Proof.Machine

/-! ### A new chain -/

section
variable (s : State) (c : Cur) (l d off : ℕ)

/-- The chain that `cp.go` enqueues for a lane. -/
def freshChain : Chain :=
  { id := s.nextId, core := s.coreOf c.ti c.gi, ti := c.ti, gi := c.gi, lane := l, tok := d, level := (s.group c.ti c.gi).level,
    st := .queued, recOff := off, now := none, status := 0, count := 0, sb := 0, db := 0, act := [false, false, false, false],
    lc := [0, 0, 0, 0], p0 := 0, p1 := 0, p2 := 0, dests := [], waits := [], endSeen := false, sent := s.cycOf c.ti c.gi, img := 0 }

theorem newChain_eq : newChain s c l d off = (State.modThread { s with nextId := s.nextId + 1, chains := s.chains ++ [freshChain s c l d off] }
    c.ti c.gi l fun t => t.addPend [d] s.nextId).modGroup c.ti c.gi fun g => { g with copies := g.copies + 1 } := rfl

@[simp] theorem newChain_chains : (newChain s c l d off).chains = s.chains ++ [freshChain s c l d off] := rfl
@[simp] theorem newChain_mem : (newChain s c l d off).mem = s.mem := rfl

theorem newChain_thread (tj gj j : ℕ) : (newChain s c l d off).thread tj gj j =
    (s.modThread c.ti c.gi l fun t => t.addPend [d] s.nextId).thread tj gj j := by
  rw [newChain_eq]
  exact State.thread_modGroup_of_lanes _ _ _ (by exact fun _ => rfl) ..

theorem newChain_thread_ne {tj gj j : ℕ} (h : (tj, gj, j) ≠ (c.ti, c.gi, l)) : (newChain s c l d off).thread tj gj j = s.thread tj gj j := by
  rw [newChain_thread]
  exact State.thread_modThread_ne _ h

theorem newChain_regs (tj gj j : ℕ) : ((newChain s c l d off).thread tj gj j).regs = (s.thread tj gj j).regs := by
  rw [newChain_thread, State.modThread_eq_modLanes]
  exact State.thread_field_modLanes Thread.regs (fun _ _ => by rfl) ..

/-- A part of the group that is neither its lanes nor its count of copies. -/
theorem newChain_group {α : Type} (v : Group → α) (hl : ∀ g f, v (Group.modLane g l f) = v g)
    (hc : ∀ g : Group, v { g with copies := g.copies + 1 } = v g) :
    v ((newChain s c l d off).group c.ti c.gi) = v (s.group c.ti c.gi) := by
  rw [newChain_eq, State.group_field_modGroup v _ (hc _), hc]
  exact (State.group_field_modGroup v _ (hl _ _) ..).trans (hl _ _)

theorem newChain_lanes_length : ((newChain s c l d off).group c.ti c.gi).lanes.length = (s.group c.ti c.gi).lanes.length :=
  newChain_group s c l d off (fun g => g.lanes.length) (fun _ _ => Group.length_modLane ..) fun _ => rfl

theorem newChain_coreOf : (newChain s c l d off).coreOf c.ti c.gi = s.coreOf c.ti c.gi := by
  have hpcore : ((newChain s c l d off).group c.ti c.gi).pcore = (s.group c.ti c.gi).pcore :=
    newChain_group s c l d off Group.pcore (fun _ _ => rfl) fun _ => rfl
  have hcores : ((newChain s c l d off).team c.ti).cores = (s.team c.ti).cores :=
    (State.team_field_modTeam Team.cores (fun _ => by rfl) ..).trans (State.team_field_modTeam Team.cores (fun _ => by rfl) ..)
  rw [State.coreOf, State.coreOf, Team.coreOf, Team.coreOf, hpcore, hcores]

/-- What is pending stays pending. -/
theorem newChain_pend {tj gj j : ℕ} {p : Pend} (h : p ∈ (s.thread tj gj j).pend) : p ∈ ((newChain s c l d off).thread tj gj j).pend := by
  by_cases he : (tj, gj, j) = (c.ti, c.gi, l)
  · simp only [Prod.mk.injEq] at he
    obtain ⟨rfl, rfl, rfl⟩ := he
    rw [newChain_thread]
    rcases Nat.lt_or_ge j (s.group c.ti c.gi).lanes.length with hl | hl
    · rw [State.thread_modThread_self _ hl]
      exact List.mem_append_left _ h
    · rw [State.thread_missing hl] at h
      exact absurd h List.not_mem_nil
  · rwa [newChain_thread_ne s c l d off he]

variable {s c l}

/-- The token register of the lane is pending. -/
theorem newChain_pend_token (hl : l < (s.group c.ti c.gi).lanes.length) :
    ⟨d, s.nextId, 0⟩ ∈ ((newChain s c l d off).thread c.ti c.gi l).pend := by
  rw [newChain_thread, State.thread_modThread_self _ hl]
  exact List.mem_append_right _ List.mem_cons_self

theorem newChain_copies (hl : l < (s.group c.ti c.gi).lanes.length) :
    ((newChain s c l d off).group c.ti c.gi).copies = (s.group c.ti c.gi).copies + 1 := by
  rw [newChain_eq, State.group_modGroup_self _ (State.group_lt (l := l) (by rw [State.lanes_length_modThread]; exact hl))]
  exact congrArg (· + 1) (State.group_field_modGroup Group.copies _ rfl ..)
end

/-! ### The chains of a `cp.go`, R164 -/

/-- A chain that waits in the queue of a core, at the start of its program. -/
def Chain.Enqueued (k : Chain) (core : ℕ) (c : Cur) (d : ℕ) : Prop :=
  k.core = core ∧ k.ti = c.ti ∧ k.gi = c.gi ∧ k.tok = d ∧ k.st = .queued ∧ k.sb = 0 ∧ k.db = 0 ∧ k.count = 0 ∧ k.status = 0 ∧
    k.act = List.replicate 4 false

/-- One new chain for each of some lanes, at the offset of each. -/
def newChains (c : Cur) (d : ℕ) (off : ℕ → ℕ) (ls : List ℕ) (s : State) : State := ls.foldl (fun s' l => newChain s' c l d (off l)) s

section
variable {s : State} {c : Cur} {d : ℕ} {off : ℕ → ℕ} {ls : List ℕ}

theorem newChains_cons (l : ℕ) : newChains c d off (l :: ls) s = newChains c d off ls (newChain s c l d (off l)) := rfl

theorem newChains_keeps {α : Type} (v : State → α) (h : ∀ s l, v (newChain s c l d (off l)) = v s) : v (newChains c d off ls s) = v s :=
  foldl_keeps v h ls s

theorem newChains_pend {l : ℕ} {p : Pend} (h : p ∈ (s.thread c.ti c.gi l).pend) : p ∈ ((newChains c d off ls s).thread c.ti c.gi l).pend := by
  induction ls generalizing s with
  | nil => exact h
  | cons j ls ih => exact ih (newChain_pend _ _ _ _ _ h)

variable (hls : ∀ l ∈ ls, l < (s.group c.ti c.gi).lanes.length)
include hls

theorem newChains_copies : ((newChains c d off ls s).group c.ti c.gi).copies = (s.group c.ti c.gi).copies + ls.length := by
  induction ls generalizing s with
  | nil => rfl
  | cons l ls ih =>
    obtain ⟨hl, hrest⟩ := List.forall_mem_cons.1 hls
    rw [newChains_cons, ih fun j hj => (newChain_lanes_length ..).symm ▸ hrest j hj, newChain_copies _ _ hl, List.length_cons]
    omega

theorem newChains_spec : ∃ new, (newChains c d off ls s).chains = s.chains ++ new ∧
    new.map (fun k => (k.lane, k.recOff)) = ls.map (fun l => (l, off l)) ∧
    ∀ k ∈ new, k.Enqueued (s.coreOf c.ti c.gi) c d ∧ ⟨d, k.id, 0⟩ ∈ ((newChains c d off ls s).thread c.ti c.gi k.lane).pend := by
  induction ls generalizing s with
  | nil => exact ⟨[], (List.append_nil _).symm, rfl, fun k hk => absurd hk List.not_mem_nil⟩
  | cons l ls ih =>
    obtain ⟨hl, hrest⟩ := List.forall_mem_cons.1 hls
    obtain ⟨new, hchains, hplaces, hnew⟩ := ih (s := newChain s c l d (off l)) fun j hj => (newChain_lanes_length ..).symm ▸ hrest j hj
    rw [newChain_coreOf] at hnew
    rw [newChains_cons]
    refine ⟨freshChain s c l d (off l) :: new, ?_, congrArg ((l, off l) :: ·) hplaces, List.forall_mem_cons.2 ⟨⟨?_, ?_⟩, hnew⟩⟩
    · exact hchains.trans (List.append_assoc ..)
    · exact ⟨rfl, rfl, rfl, rfl, rfl, rfl, rfl, rfl, rfl, rfl⟩
    · exact newChains_pend (newChain_pend_token d (off l) hl)
end

/-! ### `cp.go`, R164 -/

section
variable {s : State} {c : Cur} {g : Guard} {d : RegIx} {src : Src}

/-- The offset that a lane gives for its chain. -/
def copyOff (src : Src) (s : State) (c : Cur) (l : ℕ) : ℕ := (operand (s.thread c.ti c.gi l) 64 src).toNat

/-- A chain may start at the offset of a lane. -/
def copyOffOk (src : Src) (s : State) (c : Cur) (l : ℕ) : Prop := copyOff src s c l % 32 = 0 ∧ copyOff src s c l < (s.team c.ti).scr * 2 ^ 18

/-- The check of that offset. -/
def copyOffBad (src : Src) (s : State) (c : Cur) (l : ℕ) : Bool := copyOff src s c l % 32 != 0 || decide ((s.team c.ti).carve ≤ copyOff src s c l)

theorem copyOffBad_iff (l : ℕ) : copyOffBad src s c l = true ↔ ¬copyOffOk src s c l := by
  rw [copyOffBad, Bool.or_eq_true, bne_iff_ne, decide_eq_true_iff, copyOffOk, not_and_or, Nat.not_lt]
  rfl

theorem find_copyOffBad {ls : List ℕ} (h : ∀ l ∈ ls, copyOffOk src s c l) : ls.find? (copyOffBad src s c) = none :=
  List.find?_eq_none.2 fun l hl hbad => (copyOffBad_iff l).1 hbad (h l hl)

/-- The earlier accesses of a lane's thread are acknowledged, and its atomics performed (R138). -/
def copyAcked (s : State) (c : Cur) (l : ℕ) : Bool :=
  s.coreAcked c.ti c.gi l .clu && s.storesAcked c.ti c.gi l .clu s.nextId && s.atomicsDone c.ti c.gi l

theorem copyAcked_iff (l : ℕ) : copyAcked s c l = true ↔
    s.coreAcked c.ti c.gi l .clu = true ∧ s.storesAcked c.ti c.gi l .clu s.nextId = true ∧ s.atomicsDone c.ti c.gi l = true := by
  rw [copyAcked, Bool.and_eq_true, Bool.and_eq_true, and_assoc]

variable (hr : Ready s c g (d.toNat :: srcRegs 64 src))
include hr

theorem cpGo_issues : exec (.cpGo g d src) s = .next (finish s c (activeLanes s c g)
    (match (activeLanes s c g).find? (copyOffBad src s c) with
      | some l => .trap 0x0D (BitVec.ofNat 64 (copyOff src s c l))
      | none =>
        if 8 < (activeLanes s c g).length then .trap 0x0D 0
        else if decide (Config.chainQueue < s.chainCount (s.coreOf c.ti c.gi) + (activeLanes s c g).length)
            || decide (63 < (s.group c.ti c.gi).copies + (activeLanes s c g).length)
            || !(activeLanes s c g).all (copyAcked s c)
        then .stall (activeLanes s c g)
        else .done (newChains c d.toNat (copyOff src s c) (activeLanes s c g) s))) := by
  rw [show exec (.cpGo g d src) s = execCpGo g d src s from rfl, execCpGo, ordinary_issues _ hr]
  rfl

/-- The first lane whose offset will not do. -/
theorem cpGo_traps {p q : List ℕ} {l : ℕ} (hact : activeLanes s c g = p ++ l :: q) (hp : ∀ k ∈ p, copyOffOk src s c k)
    (hl : ¬copyOffOk src s c l) :
    exec (.cpGo g d src) s = .next (takeTrap s c.ti c.gi c.lanes 0x0D c.pc (BitVec.ofNat 64 (copyOff src s c l))) := by
  have hfind : (activeLanes s c g).find? (copyOffBad src s c) = some l := by
    rw [hact, List.find?_append, find_copyOffBad hp, Option.none_or]
    exact List.find?_cons_of_pos ((copyOffBad_iff l).2 hl)
  rw [cpGo_issues hr, hfind]
  rfl

theorem cpGo_tooMany (hok : ∀ l ∈ activeLanes s c g, copyOffOk src s c l) (hn : 8 < (activeLanes s c g).length) :
    exec (.cpGo g d src) s = .next (takeTrap s c.ti c.gi c.lanes 0x0D c.pc 0) := by
  rw [cpGo_issues hr, find_copyOffBad hok]
  simp only [hn, if_true]
  rfl

/-- Where there is room and the thread's earlier accesses are behind it (R138), the chains are enqueued. -/
theorem cpGo_enqueues (hok : ∀ l ∈ activeLanes s c g, copyOffOk src s c l)
    (hacked : ∀ l ∈ activeLanes s c g, copyAcked s c l = true) (hqueue : s.chainCount (s.coreOf c.ti c.gi) + (activeLanes s c g).length ≤ 8)
    (hcopies : (s.group c.ti c.gi).copies + (activeLanes s c g).length ≤ 63) :
    exec (.cpGo g d src) s = .next (advance (newChains c d.toNat (copyOff src s c) (activeLanes s c g) s) c c.lanes) := by
  have hall : (activeLanes s c g).all (copyAcked s c) = true := List.all_eq_true.2 hacked
  have hq : decide (Config.chainQueue < s.chainCount (s.coreOf c.ti c.gi) + (activeLanes s c g).length) = false :=
    decide_eq_false (Nat.not_lt.2 hqueue)
  have hc : decide (63 < (s.group c.ti c.gi).copies + (activeLanes s c g).length) = false := decide_eq_false (Nat.not_lt.2 hcopies)
  have hn : ¬8 < (activeLanes s c g).length := by omega
  rw [cpGo_issues hr, find_copyOffBad hok]
  simp only [hn, hq, hc, hall, Bool.or_self, Bool.not_true, Bool.false_eq_true, if_false]
  rfl
end

/-! ### `cp.stop`, R165 -/

/-- What `cp.stop` does for one lane. -/
def stopLane (tok : ℕ) (c : Cur) (s : State) (l : ℕ) : State :=
  match s.laneChain c l tok with
  | none => s
  | some k => match k.st with
    | .queued => s.endChain k 0x01 0
    | .walking => s.modChain k.id fun k => { k with st := .stopping, status := 0x01 }
    | .parked _ => s.stopChain k.id 0x01
    | .stopping => s

theorem cpStop_does (g : Guard) (a : RegIx) : Does (.cpStop g a) .all g [a.toNat] [] Always
    (fun s c act => advance (act.foldl (stopLane a.toNat c) s) c c.lanes) := by
  intro s c hi _
  rw [show exec (.cpStop g a) s = execCpStop g a s from rfl, execCpStop, named_issues _ hi]
  rfl

section
variable {s : State} {c : Cur} {l tok : ℕ}

theorem stopLane_none (h : s.laneChain c l tok = none) : stopLane tok c s l = s := by
  rw [stopLane, h]

theorem stopLane_some {k : Chain} (h : s.laneChain c l tok = some k) : stopLane tok c s l = match k.st with
    | .queued => s.endChain k 0x01 0
    | .walking => s.modChain k.id fun k => { k with st := .stopping, status := 0x01 }
    | .parked _ => s.stopChain k.id 0x01
    | .stopping => s := by
  rw [stopLane, h]
end

/-! ### `cp.stat`, R166 -/

/-- The status word, its code written out for each state of the chain. -/
theorem statWord_eq (o : Option Chain) : statWord o = match o with
    | none => 0
    | some k =>
      let at' := k.recOff / 32 % 2 ^ 15 * 2 ^ 9
      BitVec.ofNat 32 (match k.st with
        | .queued => 1 * 2 ^ 29
        | .walking => 2 * 2 ^ 29 + at'
        | .parked _ => 3 * 2 ^ 29 + at'
        | .stopping => 4 * 2 ^ 29 + at') := by
  cases o with
  | none => rfl
  | some k =>
    simp only [statWord]
    cases k.st <;> rfl

/-! ### `waitc`, R167 -/

/-- The check of a `waitc`. -/
def waitcHolds (l st cp t : BitVec 6) (g : Group) : Bool :=
  decide (g.loads ≤ l.toNat) && decide (g.stores ≤ st.toNat) && decide (g.copies ≤ cp.toNat) && decide (g.tiles ≤ t.toNat)

section
variable {s : State} {c : Cur} {l st cp t : BitVec 6}

theorem waitcHolds_iff {g : Group} :
    waitcHolds l st cp t g = true ↔ g.loads ≤ l.toNat ∧ g.stores ≤ st.toNat ∧ g.copies ≤ cp.toNat ∧ g.tiles ≤ t.toNat := by
  simp only [waitcHolds, Bool.and_eq_true, decide_eq_true_iff, and_assoc]

variable (hr : Ready s c .always [])
include hr

theorem waitc_issues : exec (.waitc l st cp t) s =
    .next (finish s c (activeLanes s c .always) (if waitcHolds l st cp t (s.group c.ti c.gi) then .done s else .stallAll)) := by
  rw [show exec (.waitc l st cp t) s = execWaitc l st cp t s from rfl, execWaitc, ordinary_issues _ hr]
  rfl

theorem waitc_goes (h : waitcHolds l st cp t (s.group c.ti c.gi) = true) : exec (.waitc l st cp t) s = .next (advance s c c.lanes) := by
  rw [waitc_issues hr, if_pos h]
  rfl

theorem waitc_waits (h : ¬waitcHolds l st cp t (s.group c.ti c.gi) = true) : exec (.waitc l st cp t) s = .next (stallGroup s c) := by
  rw [waitc_issues hr, if_neg h]
  rfl
end

/-- Settles O25: `cp.go` by its checks and the chains it adds lane by lane; the others by the state of the chain that the register names. -/
theorem copyInstructionResults : Obligations.CopyInstructionResults := by
  unfold Obligations.CopyInstructionResults
  intro g d a src off good room regs
  refine ⟨fun s c hr hhere _ hok hroom => ?_, fun s c p l q hr hact hp hl => cpGo_traps hr hact hp hl, fun s c hr hok hn => cpGo_tooMany hr hok hn,
    ⟨stopLane a.toNat, cpStop_does g a, fun c s l => ⟨stopLane_none, fun k hk => ?_⟩⟩, ?_, fun l st cp t => ?_⟩
  · obtain ⟨hqueue, hcopies⟩ := hroom
    have hlanes (l : ℕ) (hl : l ∈ activeLanes s c g) : l < (s.group c.ti c.gi).lanes.length := hhere l (List.mem_of_mem_filter hl)
    obtain ⟨new, hchains, hplaces, hnew⟩ := newChains_spec (d := d.toNat) (off := copyOff src s c) hlanes
    have hexec := cpGo_enqueues hr (fun l hl => (hok l hl).1) (fun l hl => (copyAcked_iff l).2 (hok l hl).2) hqueue hcopies
    refine ⟨_, new, hexec, hchains, hplaces, fun k hk => ?_, fun _ => ?_, fun ti gi l => ?_, newChains_keeps State.mem fun _ _ => rfl⟩
    · obtain ⟨⟨hcore, hti, hgi, htok, hst, hsb, hdb, hcount, hstatus, hloops⟩, hpend⟩ := hnew k hk
      refine ⟨hcore, hti, hgi, htok, hst, hsb, hdb, hcount, hstatus, hloops, List.any_eq_true.2 ⟨_, ?_, beq_self_eq_true _⟩⟩
      rw [advance, State.thread_field_modLanes Thread.pend fun _ _ => by rfl]
      exact hpend
    · rw [State.advance_group Group.copies fun _ _ _ => by rfl]
      exact newChains_copies hlanes
    · rw [(State.advance_regs ..).1]
      exact newChains_keeps (fun s => (s.thread ti gi l).regs) fun _ _ => newChain_regs ..
  · rw [stopLane_some hk]
    refine ⟨fun hst => by rw [hst], fun hst => by rw [hst], fun f hst hid hwaits => ?_, fun hst => by rw [hst]⟩
    rw [hst]
    exact State.stopChain_ends hid hwaits 0x01
  · intro s c hi _
    rw [show exec (.cpStat g d a) s = execCpStat g d a s from rfl, execCpStat, named_issues _ hi]
    simp only [statWord_eq]
    rfl
  · intro holds
    have hcond (s : State) (c : Cur) : waitcHolds l st cp t (s.group c.ti c.gi) = true ↔ holds s c := waitcHolds_iff
    exact ⟨fun s c hr h => waitc_goes hr ((hcond s c).2 h), fun s c hr h => waitc_waits hr fun hw => h ((hcond s c).1 hw)⟩

end Sys2Proof.Machine
end
